-- ==== Sys2Proof/Word.lean ====
section
/-! DEFINITION. The byte: the smallest unit of the flash, of the bus data and of the management items (R19, R1, R175). -/

namespace Sys2Proof

/-- One byte. -/
abbrev Byte := BitVec 8

end Sys2Proof
end

