-- ==== Sys2Proof/Config.lean ====
section
/-! DEFINITION. The fixed numbers of the K3160 (00_scope.md, Table 1-3). Nothing in them differs between parts, and the
model needs no free value: what the flash returns or keeps is an operand of the command that reports it. -/

namespace Sys2Proof.Config

/-- Bytes of a line (Table 1-3). -/
def lineBytes : Nat := 32
/-- Store lines (Table 1-3). -/
def storeLines : Nat := 8192
/-- Store lines of one half (Table 1-3, R4). -/
def halfLines : Nat := 4096
/-- Store lines of one zone (Table 1-3, R10). -/
def zoneLines : Nat := 1024
/-- Largest byte count of an upstream request (R1). -/
def maxRequest : Nat := 32
/-- Erase blocks of the flash (R19). -/
def flashBlocks : Nat := 256
/-- Bytes of one erase block (R19). -/
def blockBytes : Nat := 4096
/-- Bytes of one slot (R19). -/
def slotBytes : Nat := 48
/-- The last record slot of a block (R19). -/
def lastSlot : Nat := 84
/-- First byte of the tail mark area of a block (R19). -/
def tailOffset : Nat := 4080
/-- Places of the write queue (R52). -/
def queuePlaces : Nat := 16
/-- Entries of the shadow list (R113). -/
def shadowPlaces : Nat := 64
/-- Commit windows (R109). -/
def windowCount : Nat := 4
/-- Entries of the group register (R129). -/
def registerPlaces : Nat := 16
/-- The value at which a sequence counter gives no further value (R30). -/
def lastSequence : Nat := 4294967295
/-- The largest value a sequence counter gives, and the ceiling of an erase count (R30, R23). -/
def maxSequence : Nat := 4294967294
/-- Program attempts of a queue entry in all (R67). -/
def programAttempts : Nat := 6
/-- Failures in one block that retire it (R67, R87). -/
def blockFailures : Nat := 3
/-- Attempts of an erase (R89). -/
def eraseAttempts : Nat := 3
/-- Suspends of one erase attempt (R101). -/
def maxSuspends : Nat := 8
/-- Consecutive timeouts that lose the flash (R105). -/
def lostTimeouts : Nat := 3
/-- Background reclaim works towards this ERASED count (R78). -/
def reclaimTarget : Nat := 4
/-- Opening gate of host-side programs, and the ERASED count that orders ranks 4 and 5 (R76, R97). -/
def hostGate : Nat := 3
/-- Opening gate of relocation (R76). -/
def relocationGate : Nat := 2
/-- Data blocks not RETIRED below which the store becomes READONLY (R91). -/
def readonlyThreshold : Nat := 104
/-- Spread of erase counts at which a rotation reclaim takes the coldest block (R80). -/
def rotationSpread : Nat := 32
/-- COMMITTED register entries above which a background release is requested (R131). -/
def releaseThreshold : Nat := 8
/-- The saturation value of the health counter (R165). -/
def healthMax : Nat := 65535
/-- The time limit of a program, a read, a SUSPEND and a STATUS wait, in µs (R102). -/
def operationLimit : Nat := 1000
/-- The running-time limit of an erase, in µs (R102). -/
def eraseLimit : Nat := 300000

end Sys2Proof.Config
end

