-- ==== Sys2Proof/Syntax.lean ====
section
/-! DEFINITION. The commands of the block: one constructor for each row of spec/opcode_table.json. The table gives no row
bits or fields; the operands are what the rule of each row says arrives with the event (log 7 for the flash's reports). -/

namespace Sys2Proof

/-- The places (offset in the bytes concerned) at which the flash's answer differs from what it would be otherwise,
with the byte found there; `[]` is a flash that behaves. An offset outside the bytes concerned has no effect. -/
abbrev Upset := List (Nat × Byte)

/-- What an operation that was cut short, or that timed out, left behind (R21): nothing of itself, all of itself, or at
the listed offsets the listed bytes and elsewhere the former contents (an erase blanks the listed offsets). -/
inductive Remnant
  | untouched
  | whole
  | partly (cells : Upset)
  deriving DecidableEq, Repr

/-- How a flash program ended (R96): the flash reported ready, having stored the bytes given but at `stored`, and the
read-back returned what is stored but at `readBack`; or a time limit expired first. -/
inductive ProgramEnd
  | ended (stored readBack : Upset)
  | timedOut (left : Remnant)
  deriving DecidableEq, Repr

/-- Levels sampled when a power-on or hardware reset ends (R135, R153, R174, R108). `true` for `wp` and `pfw` is
asserted, for the straps it is high. -/
structure Pins where
  svc : Bool
  addr1 : Bool
  addr0 : Bool
  wp : Bool
  pfw : Bool
  deriving DecidableEq, Repr

/-- The commands, in the table's order. -/
inductive Instr
  | readRequest (addr : BitVec 24) (count : Nat)
  | writeRequest (addr : BitVec 24) (data : List Byte)
  | writeAcceptance
  | stallExpiry
  | arbiterGrant
  | readPieceCompletion (received : Upset)
  | mergeReadCompletion (received : Upset)
  | relocationReadCompletion (received : Upset)
  | mountScanReadCompletion (received : Upset)
  | queueProgramOutcome (e : ProgramEnd)
  | copyProgramOutcome (e : ProgramEnd)
  | openingProgramOutcome (e : ProgramEnd)
  | tailMarkOutcome (e : ProgramEnd)
  | retireMarkOutcome (e : ProgramEnd)
  | drainProgramOutcome (e : ProgramEnd)
  | settingsAppendOutcome (e : ProgramEnd)
  | mountRepairProgramOutcome (e : ProgramEnd)
  | wipeProgramOutcome (e : ProgramEnd)
  | eraseFinished (residue : Upset)
  | blankCheckEnd (received : Upset)
  | headerProgramEnd (e : ProgramEnd)
  | eraseSuspended (finished : Option Upset)
  | operationTimeout (left : Remnant)
  | wpInputChange (asserted : Bool)
  | pfwAsserted
  | pfwDeasserted
  | powerOnReset (pins : Pins) (cut : Remnant)
  | resetAsserted (cut : Remnant)
  | resetDeasserted (pins : Pins)
  | healthTimerExpiry
  | info
  | sync
  | warm
  | wend
  | wdrp
  | wsta
  | line
  | blkq
  | zlck
  | xchg
  | poly
  | hcfg
  | taly
  | injt
  | svce
  | svcx
  | wipe
  | rsts
  | fack
  | unkn
  | commandWriteRejected (toData : Bool)
  | maskWrite (value : BitVec 16)
  | clearWrite (value : BitVec 16)
  | itemWrite (item : Byte) (bytes : List Byte)
  | syncCompletion
  | serviceEntry
  | softReset
  | mountCompletion
  | commitEntryAppend
  | victimChoice
  | powerLoss (cut : Remnant)
  | flashReportsReady
  | retireMarkAreaReadCompletion (received : Upset)
  | wipeBlock0ReadCompletion (received : Upset)
  deriving DecidableEq, Repr

end Sys2Proof
end

