-- ==== Sys2Proof/WellFormed.lean ====
section
/-! DEFINITION. Which terms of `Instr` name a command of the spec: the checks on operands. -/

namespace Sys2Proof

/-- An upset names offsets of a run of `n` bytes. -/
def Upset.within (n : Nat) (u : Upset) : Bool := u.all fun c => decide (c.1 < n)

/-- What an operation left names offsets inside one block (R19). -/
def Remnant.ok : Remnant → Bool
  | .untouched => true
  | .whole => true
  | .partly cells => Upset.within Config.blockBytes cells

/-- A program covers at most 48 bytes (R20). -/
def ProgramEnd.ok : ProgramEnd → Bool
  | .ended stored readBack => Upset.within Config.slotBytes stored && Upset.within Config.slotBytes readBack
  | .timedOut left => left.ok

/-- The byte counts a request can carry (R1). -/
def validCount (n : Nat) : Bool := decide (1 ≤ n) && decide (n ≤ Config.maxRequest)

/-- The command is one of the spec: request sizes as R1, offsets inside the bytes an operation concerns (R19, R20). -/
def Instr.wf : Instr → Bool
  | .readRequest _ count => validCount count
  | .writeRequest _ data => validCount data.length
  | .readPieceCompletion r | .mergeReadCompletion r | .relocationReadCompletion r => Upset.within Config.slotBytes r
  | .mountScanReadCompletion r => Upset.within Config.blockBytes r
  | .queueProgramOutcome e | .copyProgramOutcome e | .openingProgramOutcome e | .tailMarkOutcome e => e.ok
  | .retireMarkOutcome e | .drainProgramOutcome e | .settingsAppendOutcome e => e.ok
  | .mountRepairProgramOutcome e | .wipeProgramOutcome e | .headerProgramEnd e => e.ok
  | .eraseFinished r | .blankCheckEnd r => Upset.within Config.blockBytes r
  | .eraseSuspended none => true
  | .eraseSuspended (some r) => Upset.within Config.blockBytes r
  | .operationTimeout l => l.ok
  | .powerOnReset _ cut | .resetAsserted cut | .powerLoss cut => cut.ok
  | .retireMarkAreaReadCompletion r => Upset.within 8 r
  | .wipeBlock0ReadCompletion r => Upset.within 16 r
  | .writeAcceptance | .stallExpiry | .arbiterGrant | .wpInputChange _ | .pfwAsserted | .pfwDeasserted
  | .resetDeasserted _ | .healthTimerExpiry | .info | .sync | .warm | .wend | .wdrp | .wsta | .line | .blkq | .zlck
  | .xchg | .poly | .hcfg | .taly | .injt | .svce | .svcx | .wipe | .rsts | .fack | .unkn | .commandWriteRejected _
  | .maskWrite _ | .clearWrite _ | .itemWrite _ _ | .syncCompletion | .serviceEntry | .softReset | .mountCompletion
  | .commitEntryAppend | .victimChoice | .flashReportsReady => true

end Sys2Proof
end

