-- ==== Sys2Proof/Decode.lean ====
section
/-! DEFINITION. The table gives no row any bits (spec/opcode_table.json has no "fixed" and no "fields"): no word spells a
command. -/

namespace Sys2Proof

/-- The command that a word spells by the table's bits: none, for no row has bits. -/
def decodeTableWord (_nbits _w : Nat) : Option Instr := none

end Sys2Proof
end

