-- ==== Sys2Proof/Machine/State.lean ====
section
/-! DEFINITION. Everything the spec gives the bridge, as plain data: one structure for each functional block of Table 1-1
(00_scope.md), the flash image, power, and the queue of commands. Counts that the spec defines as the number of references
in other state (live counts R75, members programmed R115, live tagged counts R130, requests waiting at the arbiter R97)
are views computed where they are used (log 5). -/

namespace Sys2Proof.Machine

/-- A map from numbers to values in one canonical form: keys strictly rising, no entry equal to the default. -/
abbrev Sparse (α : Type) := List (Nat × α)

/-- The stops of the machine that the spec itself describes: none. The K3160 answers every request and command, and
records faults as data (R188); no meaning of this model raises a fault. -/
inductive Fault
  deriving DecidableEq, Repr

/-- Why the model gives a command no meaning. -/
inductive Refusal
  /-- Raised by an arm of exec for a command that has no meaning yet; safe (nothing can be proved of it). -/
  | notModelled (mnemonic : String)
  /-- Raised by READ_REQUEST and WRITE_REQUEST for a byte count outside 1 to 32, which no request on the bus carries
  (R1, log 11); safe. -/
  | noSuchRequest
  deriving DecidableEq, Repr

/-! ### Shared names -/

/-- The modes of the mode controller (Table 1-2). The sub-state DRAINED is the drain's phase. -/
inductive Mode
  | mount | run | readonly | drain | service | halted
  deriving DecidableEq, Repr

/-- A record slot of a data block: block 1 to 255, slot 1 to 84 (R35). -/
structure Slot where
  block : Nat
  slot : Nat
  deriving DecidableEq, Repr

/-- A group, identified by its window and group sequence (R32). -/
structure Tag where
  window : Nat
  group : Nat
  deriving DecidableEq, Repr

/-- Fault causes, in the order of their codes 1 to 15 (R188). -/
inductive Cause
  | outOfRange | zoneLocked | writeProtected | readOnly | draining | notReady | flashLost | stallTimeout | readCheck
  | groupFull | programFail | relocateCheck | blockRetired | drainLoss | settingsLost
  deriving DecidableEq, Repr

/-- A fault report, with the fields its rule gives it (R2, R188). -/
structure FaultReport where
  cause : Cause
  addr : Option Nat
  line : Option Nat
  block : Option Nat
  slot : Option Nat
  window : Option Nat
  deriving DecidableEq, Repr

/-- Events, in the order of their bits 0 to 15 (R192). -/
inductive Event
  | mounted | repaired | cmdDone | cmdReject | groupCommit | groupDrop | windowEnd | fault | readCheck | blockRetired
  | healthReport | healthSaturated | drainDone | modeChange | spaceLow | wpChange
  deriving DecidableEq, Repr

/-! ### Upstream port unit (R1, R3, R18) -/

/-- What a served read piece contributes (R14): its bytes, and the cause if it ended in ERROR. -/
structure PieceResult where
  bytes : List Byte
  cause : Option Cause
  deriving DecidableEq, Repr

/-- A merge image with the slot it was read from (R58). -/
structure MergeImage where
  slot : Slot
  image : List Byte
  deriving DecidableEq, Repr

/-- A line piece (R3), with its group tag (R112), its merge image (R58) and its outcome (R38). -/
structure Piece where
  busLine : Nat
  offset : Nat
  length : Nat
  data : List Byte
  tag : Option Tag
  merge : Option MergeImage
  result : Option PieceResult
  deriving DecidableEq, Repr

/-- Where a request stands: waiting in the checking phase (R8, R14), a write in the hand-over phase (R12), a read whose
pieces are being served (R38). -/
inductive Phase
  | checking | handOver | reading
  deriving DecidableEq, Repr

/-- The request in progress (R1), its stall timer (elapsed µs) and the limit recorded at its arrival (R17). `retake` is
set when a trigger of R13 has been taken and the checks are to be taken afresh. -/
structure Request where
  write : Bool
  addr : Nat
  count : Nat
  limit : Nat
  elapsed : Nat
  phase : Phase
  retake : Bool
  pieces : List Piece
  deriving DecidableEq, Repr

/-- A response (R2): ERROR when a cause is present. A response to a READ carries data. -/
structure Response where
  cause : Option Cause
  data : List Byte
  deriving DecidableEq, Repr

/-- The upstream port unit (R18), with the response last given on the bus (R2). -/
structure Port where
  request : Option Request
  exchange : Bool
  response : Option Response
  deriving DecidableEq, Repr

/-! ### Translation table (R35) -/

/-- The current group of a table entry. -/
inductive GroupRef
  | openIn (w : Nat)
  | register (i : Nat)
  deriving DecidableEq, Repr

/-- A translation table entry. -/
structure TableEntry where
  current : Option Slot
  group : Option GroupRef
  checkFailed : Bool
  deriving DecidableEq, Repr

/-- The entry of a line with no accepted record (R35, R51). -/
def TableEntry.clear : TableEntry := { current := none, group := none, checkFailed := false }

/-! ### Write queue (R52 to R54) -/

/-- The state of a queue entry. -/
inductive EntryState
  | pending | programming
  deriving DecidableEq, Repr

/-- A LINE entry (R53). `lastBlock` is the block of the most recent attempt, against which R67 counts. -/
structure LineEntry where
  line : Nat
  image : List Byte
  tag : Option Tag
  state : EntryState
  origin : Option Nat
  attempts : Nat
  blockAttempts : Nat
  lastBlock : Option Nat
  target : Option Slot
  dropped : Bool
  syncMark : Bool
  deriving DecidableEq, Repr

/-- A COMMIT entry (R54). -/
structure CommitEntry where
  window : Nat
  group : Nat
  register : Nat
  state : EntryState
  attempts : Nat
  blockAttempts : Nat
  lastBlock : Option Nat
  target : Option Slot
  syncMark : Bool
  deriving DecidableEq, Repr

/-- An entry of the write queue (R52). -/
inductive QEntry
  | line (e : LineEntry)
  | commit (e : CommitEntry)
  deriving DecidableEq, Repr

/-- A COMMIT request waiting for a place (R54); `syncMark` is the mark it takes when appended (R71). -/
structure CommitRequest where
  window : Nat
  group : Nat
  register : Nat
  syncMark : Bool
  deriving DecidableEq, Repr

/-- The write queue, oldest entry first (R52), with the origin sequence counter (R31). -/
structure WriteQueue where
  entries : List QEntry
  requests : List CommitRequest
  nextOrigin : Nat
  deriving DecidableEq, Repr

/-! ### Block manager (R74) -/

/-- The states of a data block (R74). -/
inductive BlockState
  | erased | opened | full | victim | retiring | retired | erasing
  deriving DecidableEq, Repr

/-- A block table entry (R74), but for the live count, which R75 defines from the holders. `nextFree` is 0 when the block
is not OPEN. -/
structure BlockEntry where
  state : BlockState
  eraseCount : Nat
  blockSeq : Option Nat
  nextFree : Nat
  failures : Nat
  deriving DecidableEq, Repr

/-- The entry R136 gives a block that mount has not classified; the value of every entry until mount's end (log 9). -/
def BlockEntry.unknown : BlockEntry :=
  { state := .full, eraseCount := 0, blockSeq := none, nextFree := 0, failures := 0 }

/-- The jobs relocation serves (section 5.4). -/
inductive JobKind
  | reclaim | retirement | release
  deriving DecidableEq, Repr

/-- Who asks for a slot, an opening or a tail mark (R76, R77). A tail mark owed for a copy of a priority release is its own
kind, for its rank outlasts the job (R77, R98, log 38). -/
inductive Requester
  | queue | drain | job (k : JobKind) | priorityRelease
  deriving DecidableEq, Repr

/-- The steps of one relocation copy (section 5.4). -/
inductive CopyStage
  | reading | held | programming
  deriving DecidableEq, Repr

/-- A relocation copy in hand: its source, the 48 bytes read, whether the read failed its check (R84), and the copy once
it has been built (R83, retried with the same bytes, R87). -/
structure CopyWork where
  source : Slot
  stage : CopyStage
  bytes : List Byte
  failed : Bool
  built : Option (List Byte)
  deriving DecidableEq, Repr

/-- The release job (R92). -/
structure ReleaseJob where
  register : Nat
  priority : Bool
  copy : Option CopyWork
  deriving DecidableEq, Repr

/-- The block manager (R74): the block table, the block sequence counter, the reclaim counter, the victim of the reclaim
in progress, the blocks in RETIRING in the order they entered it (R91), the copies in hand, the release job, whose turn
rank 5 is (R98, `true` for the release), the tail mark owed (R77), and whether an opening that the drain had requested
waits under WP# (R159, log 65). -/
structure BlockManager where
  table : Sparse BlockEntry
  nextSeq : Nat
  reclaimCounter : Nat
  victim : Option Nat
  retiring : List Nat
  reclaimCopy : Option CopyWork
  retireCopy : Option CopyWork
  release : Option ReleaseJob
  releaseTurn : Bool
  tailOwed : Option Requester
  drainOpening : Bool
  deriving DecidableEq, Repr

/-! ### Array port controller (R95) -/

/-- What a granted operation is for. -/
inductive Purpose
  /-- upstream read piece number `i` of the request in progress (rank 1) -/
  | readPiece (i : Nat)
  /-- merge read for piece number `i` of the write in progress (rank 1) -/
  | mergeRead (i : Nat)
  /-- relocation source read -/
  | relocRead (k : JobKind)
  /-- relocation copy program -/
  | copyProgram (k : JobKind)
  /-- mount scan read (rank 2) -/
  | mountRead
  /-- program of the queue's head, for the write queue -/
  | queueProgram
  /-- program of the queue's head, for the drain controller -/
  | drainProgram
  /-- opening field program -/
  | opening (r : Requester)
  /-- tail mark after slot 84 -/
  | tailMark
  /-- retire mark of a RETIRING block -/
  | retireMark
  /-- retire mark after a third failed erase attempt -/
  | eraseMark
  /-- read of the retire mark area after a third failed erase attempt -/
  | markRead
  /-- settings append -/
  | settings
  /-- DATA header of a virgin block (R138) -/
  | mountHeader
  /-- tail mark made by mount (R147) -/
  | mountTail
  /-- first part of block 0, for mount or WIPE -/
  | block0Header
  /-- default record of block 0, for mount or WIPE -/
  | block0Record
  /-- WIPE's read of block 0's first part -/
  | wipeRead
  deriving DecidableEq, Repr

/-- The operation in flight (R95), erases apart: its target, its bytes if it is a program, the time since its issue, and
whether it still stands in the STATUS wait of R103. `abandoned` marks a read whose request has ended (R44). -/
structure Op where
  purpose : Purpose
  block : Nat
  offset : Nat
  length : Nat
  bytes : List Byte
  running : Nat
  statusWait : Bool
  abandoned : Bool
  deriving DecidableEq, Repr

/-- Who an erase is for. -/
inductive EraseOwner
  | manager | mount | wipe
  deriving DecidableEq, Repr

/-- Where an erase, its attempts and what follows them stand (R89, R99, R100, R106, R139). -/
inductive ErasePart
  /-- the next attempt waits for its grant -/
  | waiting
  /-- the ERASE part runs -/
  | erasing
  /-- SUSPEND issued, STATUS awaited -/
  | suspending
  /-- suspended; rank-1 reads may run -/
  | suspended
  /-- finished before the suspension; the read that waits is served first, then the blank check is made (R100) -/
  | finished
  /-- the blank check reads the block -/
  | blankCheck
  /-- the header program runs -/
  | header
  /-- the header program is held under WP# (R106) -/
  | headerHeld
  /-- third failure before its blank check completed: the retire mark area is to be read, or is being read -/
  | markRead
  /-- third failure: the retire mark is to be programmed, or is being programmed -/
  | mark
  /-- block 0 only: its first part is to be programmed, or is being programmed -/
  | firstPart
  /-- block 0 only: the default record is to be programmed, or is being programmed -/
  | record
  deriving DecidableEq, Repr

/-- The erase in hand (R95, R99): its owner, block, attempts used, the erase count its header takes, its part, the
running time used (R102), the time since its SUSPEND, blank check or header program was issued, the suspend count, the
STATUS wait of R103, and whether it is the virgin preparation of block 0, which
begins without an erase (R138). -/
structure EraseJob where
  owner : EraseOwner
  block : Nat
  attempts : Nat
  newCount : Nat
  part : ErasePart
  running : Nat
  clock : Nat
  suspends : Nat
  statusWait : Bool
  virgin : Bool
  deriving DecidableEq, Repr

/-- The array port controller (R95). `wp` is WP# as last sampled, true when asserted. -/
structure ArrayPort where
  op : Option Op
  erase : Option EraseJob
  timeouts : Nat
  uncertain : Bool
  wp : Bool
  deriving DecidableEq, Repr

/-! ### Window unit (R109, R113, R129) -/

/-- The states of a window. -/
inductive WinState
  | idle | armed | opened | committing
  deriving DecidableEq, Repr

/-- A commit window (R109), but for the members-programmed count, which R109 defines from the table. -/
structure Window where
  state : WinState
  first : Nat
  last : Nat
  repeats : Nat
  group : Option Nat
  register : Option Nat
  awaiting : Bool
  deriving DecidableEq, Repr

/-- An IDLE window as a reset leaves it (R133). -/
def Window.idle : Window :=
  { state := .idle, first := 0, last := 0, repeats := 0, group := none, register := none, awaiting := false }

/-- A shadow entry (R113). -/
structure ShadowEntry where
  line : Nat
  window : Nat
  committed : Option Slot
  committedGroup : Option Nat
  deriving DecidableEq, Repr

/-- A group register entry (R129), but for the live tagged count, which R130 defines from table and shadow list. -/
inductive RegEntry
  | free
  | reserved (window group : Nat)
  | committed (window group : Nat) (slot : Slot)
  deriving DecidableEq, Repr

/-- The standing release request (R131). -/
structure ReleaseRequest where
  register : Nat
  priority : Bool
  deriving DecidableEq, Repr

/-- The window unit. -/
structure WindowUnit where
  windows : List Window
  shadow : List ShadowEntry
  register : List RegEntry
  nextGroup : Nat
  release : Option ReleaseRequest
  deriving DecidableEq, Repr

/-! ### Settings (R25) -/

/-- One complete set of settings. -/
structure Settings where
  seq : Nat
  locks : BitVec 8
  exchange : Bool
  fill : Byte
  strict : Bool
  stall : Nat
  deriving DecidableEq, Repr

/-- The default record's settings (R25). -/
def Settings.default : Settings :=
  { seq := 1, locks := 0, exchange := false, fill := 0xFF, strict := false, stall := 200 }

/-! ### Mount engine (R134) -/

/-- Kinds of record (R26). -/
inductive RecKind
  | plain | tentative | commit
  deriving DecidableEq, Repr

/-- What the collection keeps of a valid record (R142). -/
structure RecInfo where
  block : Nat
  blockSeq : Nat
  slot : Nat
  kind : RecKind
  window : Nat
  line : Nat
  origin : Nat
  group : Nat
  deriving DecidableEq, Repr

/-- Classes of a data block (R140, R138). -/
inductive BlockClass
  | retired | invalid | erased | full | unfinished | virgin
  deriving DecidableEq, Repr

/-- What step 2 and step 3 found of a data block: its class, the count of a valid first part, a valid opening field, and
the highest non-blank slot. -/
structure BlockScan where
  block : Nat
  cls : BlockClass
  eraseCount : Option Nat
  opening : Option (Nat × Nat × Nat)
  highest : Nat
  deriving DecidableEq, Repr

/-- The reads of steps 1 to 3, and the later steps (R134, log 6). -/
inductive MountStep
  | settings
  | header (b : Nat)
  | tail (b : Nat)
  | body (b : Nat)
  | slot (b n : Nat)
  | repairs
  | ended
  deriving DecidableEq, Repr

/-- A write on the repair list (R148). -/
inductive Repair
  | virginHeader (b : Nat)
  | eraseBlock (b : Nat)
  | tailMark (b : Nat)
  | prepareBlock0
  | repairBlock0
  deriving DecidableEq, Repr

/-- The mount engine's working state (R134). `strap` is the SVC sample where it applies to this mount (R135); `candidate`
is a block whose header is read and whose tail mark or body is still to be read; `results` holds the block table entries
that step 9 has settled. -/
structure Mount where
  step : MountStep
  strap : Bool
  settings : Settings
  settingsFound : Bool
  virgin : Bool
  block0Count : Option Nat
  nextSeq : Nat
  nextSlot : Nat
  candidate : Option BlockScan
  scans : List BlockScan
  records : List RecInfo
  repairs : List Repair
  results : Sparse BlockEntry
  flashLost : Bool
  block0Unusable : Bool
  repairMade : Bool
  deriving DecidableEq, Repr

/-! ### Drain controller (R153) -/

/-- The phase of the drain. -/
inductive DrainPhase
  | inactive | draining | drained
  deriving DecidableEq, Repr

/-- The drain controller; `pfw` is PFW# as last taken, true when asserted. -/
structure Drain where
  phase : DrainPhase
  returnMode : Option Mode
  releasePending : Bool
  pfw : Bool
  deriving DecidableEq, Repr

/-! ### Health counter (R163) -/

/-- Classes of media event (R163). -/
inductive HealthClass
  | program | erase | read | suspend | media
  deriving DecidableEq, Repr

/-- Kinds of injected failure (R169). -/
inductive Arm
  | none | verify | read | erase
  deriving DecidableEq, Repr

/-- The health counter. `auto` is its mode; the interval is in seconds, the timer's elapsed time in µs. -/
structure Health where
  cls : HealthClass
  auto : Bool
  interval : Nat
  elapsed : Nat
  count : Nat
  saturated : Bool
  snapCount : Nat
  snapSaturated : Bool
  snapClass : HealthClass
  arm : Arm
  deriving DecidableEq, Repr

/-- The health counter after a power-on or hardware reset (R173). -/
def Health.reset : Health :=
  { cls := .media, auto := true, interval := 1, elapsed := 0, count := 0, saturated := false, snapCount := 0,
    snapSaturated := false, snapClass := .media, arm := .none }

/-! ### Management unit (R174 to R195) -/

/-- The command codes (Table 11-1). -/
inductive Code
  | info | sync | warm | wend | wdrp | wsta | line | blkq | zlck | xchg | poly | hcfg | taly | injt | svce | svcx | wipe
  | rsts | fack
  deriving DecidableEq, Repr

/-- Return codes 1 to 8 (R177). -/
inductive Ret
  | done | param | mode | state | full | media | late | cut
  deriving DecidableEq, Repr

/-- Where WIPE stands (R186): data blocks from `next` on are still to be erased; then block 0 is read, then formatted. -/
inductive WipeStep
  | data (next : Nat)
  | read0
  | format
  deriving DecidableEq, Repr

/-- A command that completes later (R176): SYNC, SVCE and RSTS with whether a marked entry was discarded; a settings
append with the new settings and whether its program was issued; WIPE. -/
inductive Activity
  | sync (discarded : Bool)
  | svce (discarded : Bool)
  | rsts (discarded : Bool)
  | append (code : Code) (new : Settings) (issued : Bool)
  | wipe (step : WipeStep) (cut : Bool)
  deriving DecidableEq, Repr

/-- What COMMAND reads: zero, UNKN, or the code of the command in progress (R176). -/
inductive CommandReg
  | zero
  | unkn
  | active (a : Activity)
  deriving DecidableEq, Repr

/-- A selection of edges (R194). -/
inductive EdgeSel
  | rise | fall | both
  deriving DecidableEq, Repr

/-- The management unit: the mode, the settings in force, their sequence counter and next slot (R179), COMMAND and DATA,
events, MASK, EDGES, the SPACE_LOW status, the fault record, the selected item and the target address. -/
structure Mgmt where
  mode : Mode
  settings : Settings
  nextSettingsSeq : Nat
  nextSettingsSlot : Nat
  command : CommandReg
  data : List Byte
  events : BitVec 16
  mask : BitVec 16
  edgeSpace : EdgeSel
  edgeWp : EdgeSel
  spaceLow : Bool
  fault : Option FaultReport
  further : Bool
  selected : Nat
  target : Nat
  deriving DecidableEq, Repr

/-! ### The machine -/

/-- Power and RESET# (R18, R21, R134). -/
inductive Power
  | on | held | off
  deriving DecidableEq, Repr

/-- The state of the block. -/
structure State where
  power : Power
  flash : List Host.Cell
  port : Port
  table : Sparse TableEntry
  queue : WriteQueue
  blocks : BlockManager
  array : ArrayPort
  windows : WindowUnit
  mount : Option Mount
  drain : Drain
  health : Health
  mgmt : Mgmt
  pending : List Instr
  deriving DecidableEq, Repr

/-! ### Reset values -/

/-- The port with no request (R18). -/
def Port.reset : Port := { request := none, exchange := false, response := none }

/-- The empty queue (R73); the counter until mount recovers it (log 9). -/
def WriteQueue.reset : WriteQueue := { entries := [], requests := [], nextOrigin := 1 }

/-- The block manager until mount rebuilds it (R94, log 9). -/
def BlockManager.reset : BlockManager :=
  { table := [], nextSeq := 1, reclaimCounter := 0, victim := none, retiring := [], reclaimCopy := none,
    retireCopy := none, release := none, releaseTurn := false, tailOwed := none, drainOpening := false }

/-- The array port (R108); WP# as sampled. -/
def ArrayPort.reset (wp : Bool) : ArrayPort :=
  { op := none, erase := none, timeouts := 0, uncertain := false, wp := wp }

/-- The window unit until mount rebuilds the register (R133, log 9). -/
def WindowUnit.reset : WindowUnit :=
  { windows := [.idle, .idle, .idle, .idle], shadow := [],
    register := List.replicate Config.registerPlaces .free, nextGroup := 1, release := none }

/-- The mount engine at the start of step 1 (R134). -/
def Mount.start (strap : Bool) : Mount :=
  { step := .settings, strap := strap, settings := .default, settingsFound := false, virgin := false,
    block0Count := none, nextSeq := 2, nextSlot := 1, candidate := none, scans := [], records := [], repairs := [], results := [],
    flashLost := false, block0Unusable := false, repairMade := false }

/-- The drain controller (R153); PFW# as sampled. -/
def Drain.reset (pfw : Bool) : Drain :=
  { phase := .inactive, returnMode := none, releasePending := false, pfw := pfw }

/-- The target address the straps choose (R174). -/
def targetAddress (addr1 addr0 : Bool) : Nat := 72 + (if addr1 then 2 else 0) + (if addr0 then 1 else 0)

/-- MASK after a power-on or hardware reset: MOUNTED, FAULT, BLOCK_RETIRED, DRAIN_DONE and MODE_CHANGE (R193). -/
def maskReset : BitVec 16 := 0x3281

/-- The management unit (R195). The events hold MODE_CHANGE, bit 13, raised by the entry to MOUNT (R190, log 24). -/
def Mgmt.reset (target : Nat) : Mgmt :=
  { mode := .mount, settings := .default, nextSettingsSeq := 2, nextSettingsSlot := 2, command := .zero,
    data := List.replicate 64 0, events := 0x2000, mask := maskReset, edgeSpace := .both, edgeWp := .both,
    spaceLow := false, fault := none, further := false, selected := 0, target := target }

/-- The machine after a power-on reset whose samples are `pins`, with the flash image it finds (00_scope.md 1.8). -/
def State.poweredUp (flash : List Host.Cell) (pins : Pins) (pending : List Instr) : State :=
  { power := .on, flash := flash, port := .reset, table := [], queue := .reset, blocks := .reset,
    array := .reset pins.wp, windows := .reset, mount := some (Mount.start pins.svc), drain := .reset pins.pfw,
    health := .reset, mgmt := .reset (targetAddress pins.addr1 pins.addr0), pending := pending }

/-- The levels sampled at `State.reset`: every input deasserted, every strap low (log 2). -/
def Pins.quiet : Pins := { svc := false, addr1 := false, addr0 := false, wp := false, pfw := false }

/-- The machine right after a power-on reset with a blank flash (log 2, log 3). -/
def State.reset : State := State.poweredUp [] Pins.quiet []

end Sys2Proof.Machine
end

