-- ==== Sys2Proof/Machine/Ops.lean ====
section
/-! DEFINITION. The shared operations: sparse maps in canonical form, the flash as memory (R19, R20, R21), byte order and
the check computation (R19, R22, Table 2-2), and how a program or a read ends (R96). -/

namespace Sys2Proof.Machine

/-! ### Sparse maps -/

/-- The value at a key; `d` where nothing is listed. -/
def Sparse.get {α : Type} (d : α) : Sparse α → Nat → α
  | [], _ => d
  | (k, v) :: m, a => if a = k then v else Sparse.get d m a

/-- The map with the value at a key replaced, in canonical form: a value equal to the default is not listed. -/
def Sparse.set {α : Type} [DecidableEq α] (d : α) : Sparse α → Nat → α → Sparse α
  | [], a, v => if v = d then [] else [(a, v)]
  | (k, w) :: m, a, v =>
    if a < k then (if v = d then (k, w) :: m else (a, v) :: (k, w) :: m)
    else if a = k then (if v = d then m else (a, v) :: m)
    else (k, w) :: Sparse.set d m a v

/-- The canonical form: keys strictly rising, no value equal to the default. -/
def Sparse.wf {α : Type} [DecidableEq α] (d : α) : Sparse α → Bool
  | [] => true
  | (k, v) :: m => decide (v ≠ d) && m.all (fun c => decide (k < c.1)) && Sparse.wf d m

/-! ### The flash as memory -/

/-- The unprogrammed value of a flash byte, what an unlisted address reads as (section 2.7). -/
def blankByte : Byte := 0xFF

/-- The canonical form of the flash memory. -/
def Memory.wf (f : List Host.Cell) : Bool := Sparse.wf blankByte f

/-- One byte of the flash. -/
def flashByte (f : List Host.Cell) (a : Nat) : Byte := Sparse.get blankByte f a

/-- The bytes at `n` addresses from `a` on. -/
def flashBytes (f : List Host.Cell) (a : Nat) : Nat → List Byte
  | 0 => []
  | n + 1 => flashByte f a :: flashBytes f (a + 1) n

/-- The listed bytes at addresses `a` to `a + n - 1`. -/
def flashSpan (f : List Host.Cell) (a n : Nat) : List Host.Cell :=
  f.filter fun c => decide (a ≤ c.1) && decide (c.1 < a + n)

/-- `n` bytes of the flash from address `a`: looked up among the bytes listed there. -/
def flashRead (f : List Host.Cell) (a n : Nat) : List Byte := flashBytes (flashSpan f a n) a n

/-- The flash with the bytes stored from address `a` on. -/
def flashWrite (f : List Host.Cell) (a : Nat) : List Byte → List Host.Cell
  | [] => f
  | b :: bs => flashWrite (Sparse.set blankByte f a b) (a + 1) bs

/-- The first address of a block (R19). -/
def blockBase (b : Nat) : Nat := Config.blockBytes * b

/-- The address of byte `o` of block `b` (R19). -/
def flashAddr (b o : Nat) : Nat := blockBase b + o

/-- The offset of a slot in its block (R19). -/
def slotOffset (n : Nat) : Nat := Config.slotBytes * n

/-- The flash with every byte of a block blank (R19). -/
def flashErase (f : List Host.Cell) (b : Nat) : List Host.Cell :=
  f.filter fun c => !(decide (blockBase b ≤ c.1) && decide (c.1 < blockBase b + Config.blockBytes))

/-- The flash with single bytes of a block replaced; offsets outside the area of `len` bytes at `o` have no effect. -/
def flashPatch (f : List Host.Cell) (b o len : Nat) : Upset → List Host.Cell
  | [] => f
  | (i, v) :: u =>
    flashPatch (if i < len then Sparse.set blankByte f (flashAddr b (o + i)) v else f) b o len u

/-- Bytes with those at the listed offsets replaced, the first entry for an offset counting; `i` is the offset of the
first byte. -/
def overlayFrom (u : Upset) (i : Nat) : List Byte → List Byte
  | [] => []
  | b :: bs => (u.lookup i).getD b :: overlayFrom u (i + 1) bs

/-- Bytes with those at the listed offsets replaced. -/
def overlay (bs : List Byte) (u : Upset) : List Byte := overlayFrom u 0 bs

/-- What a READ of `len` bytes at offset `o` of block `b` returns: the contents but at the places the flash's answer
differs (R95, log 7). -/
def flashReceived (f : List Host.Cell) (b o len : Nat) (u : Upset) : List Byte :=
  overlay (flashRead f (flashAddr b o) len) u

/-- Every byte is blank (R19). -/
def isBlank (bs : List Byte) : Bool := bs.all fun b => b == blankByte

/-- The three outcomes of a program (R96). -/
inductive ProgResult
  | pass | fail | timeout
  deriving DecidableEq, Repr

/-- What a program cut short or timed out leaves in its target area (R21). -/
def leaveProgram (f : List Host.Cell) (b o : Nat) (bytes : List Byte) : Remnant → List Host.Cell
  | .untouched => f
  | .whole => flashWrite f (flashAddr b o) bytes
  | .partly cells => flashPatch f b o bytes.length cells

/-- What an erase cut short or timed out leaves in its block: a mixture of blank bytes and former contents (R21). -/
def leaveErase (f : List Host.Cell) (b : Nat) : Remnant → List Host.Cell
  | .untouched => f
  | .whole => flashErase f b
  | .partly cells => flashPatch f b 0 Config.blockBytes (cells.map fun c => (c.1, blankByte))

/-- The flash after a program ended, and its outcome: Pass exactly when the read-back returned the bytes programmed
(R96). -/
def endProgram (f : List Host.Cell) (b o : Nat) (bytes : List Byte) : ProgramEnd → List Host.Cell × ProgResult
  | .ended stored readBack =>
    let held := overlay bytes stored
    (flashWrite f (flashAddr b o) held, if overlay held readBack = bytes then .pass else .fail)
  | .timedOut left => (leaveProgram f b o bytes left, .timeout)

/-! ### Byte order and the check -/

/-- A number as `n` bytes, least significant first (R19). -/
def le (n v : Nat) : List Byte :=
  match n with
  | 0 => []
  | n + 1 => BitVec.ofNat 8 v :: le n (v / 256)

/-- The number that bytes hold, least significant first (R19). -/
def unle : List Byte → Nat
  | [] => 0
  | b :: bs => b.toNat + 256 * unle bs

/-- The number in the `n` bytes at offset `o`. -/
def field (bs : List Byte) (o n : Nat) : Nat := unle ((bs.drop o).take n)

/-- One bit of the check: polynomial 04C11DB7h taken reflected (Table 2-2). -/
def checkBit (c : Nat) : Nat := if c % 2 = 1 then (c / 2) ^^^ 0xEDB88320 else c / 2

/-- One byte of the check, least significant bit first (Table 2-2). -/
def checkByte (c : Nat) (b : Byte) : Nat :=
  checkBit (checkBit (checkBit (checkBit (checkBit (checkBit (checkBit (checkBit (c ^^^ b.toNat))))))))

/-- The 32-bit check value (Table 2-2): initial value FFFFFFFFh, result complemented. -/
def checkValue (bs : List Byte) : Nat := (bs.foldl checkByte 0xFFFFFFFF) ^^^ 0xFFFFFFFF

/-- Bytes with their check appended (R22). -/
def withCheck (bs : List Byte) : List Byte := bs ++ le 4 (checkValue bs)

/-- The last four of `n` bytes are the check of the others (R22). -/
def checkMatches (bs : List Byte) (n : Nat) : Bool :=
  decide (bs.length = n) && decide (field bs (n - 4) 4 = checkValue (bs.take (n - 4)))

/-- A counter moved one place on; at its last value it stays (R30). -/
def nextSequence (n : Nat) : Nat := if n < Config.lastSequence then n + 1 else n

/-- The counter gives no further value (R30). -/
def atLast (n : Nat) : Bool := decide (Config.lastSequence ≤ n)

/-- An erase count raised by one under its ceiling (R23). -/
def raiseEraseCount (n : Nat) : Nat := if n < Config.maxSequence then n + 1 else n

/-- A value a sequence counter can give (R30). -/
def givenValue (n : Nat) : Bool := decide (1 ≤ n) && decide (n ≤ Config.maxSequence)

end Sys2Proof.Machine
end

