-- ==== Sys2Proof/Machine/Image.lean ====
section
/-! DEFINITION. The structures of the flash image: how each is built and when each is valid (R22 to R29, Tables 2-3 to
2-6). -/

namespace Sys2Proof.Machine

/-! ### Headers (R23, Table 2-3) -/

/-- The fixed marker bytes. -/
def headerMarker : List Byte := [0x7E, 0x1C, 0xA5, 0x39]
/-- Kind SETTINGS. -/
def kindSettings : Byte := 0x51
/-- Kind DATA. -/
def kindData : Byte := 0xD4

/-- A header's first part: 16 bytes. -/
def firstPart (kind : Byte) (eraseCount : Nat) : List Byte :=
  withCheck (headerMarker ++ [kind, 0, 0, 0] ++ le 4 eraseCount)

/-- The kind and erase count of a valid first part. -/
def parseFirstPart (bs : List Byte) : Option (Byte × Nat) :=
  let kind := bs.getD 4 0
  let count := field bs 8 4
  if checkMatches bs 16 && decide (bs.take 4 = headerMarker) && (kind == kindSettings || kind == kindData)
      && decide (field bs 5 3 = 0) && decide (count ≤ Config.maxSequence) then some (kind, count) else none

/-- The floor written for a counter: its next value, or 4,294,967,294 at its last value (R33). -/
def floorOf (counter : Nat) : Nat := min counter Config.maxSequence

/-- The opening field: block sequence, origin floor, group floor; 16 bytes. -/
def openingField (seq originFloor groupFloor : Nat) : List Byte :=
  withCheck (le 4 seq ++ le 4 originFloor ++ le 4 groupFloor)

/-- The block sequence and floors of a valid opening field. -/
def parseOpening (bs : List Byte) : Option (Nat × Nat × Nat) :=
  let seq := field bs 0 4
  let origin := field bs 4 4
  let group := field bs 8 4
  if checkMatches bs 16 && givenValue seq && givenValue origin && givenValue group then some (seq, origin, group)
  else none

/-- The eight bytes of a retire mark. -/
def retireMarkBytes : List Byte := [0x6C, 0x3E, 0x91, 0xD4, 0x93, 0xC1, 0x6E, 0x2B]

/-! ### Records (R26, Table 2-4) -/

/-- The code of a record kind. -/
def RecKind.code : RecKind → Byte
  | .plain => 0x3C
  | .tentative => 0x5A
  | .commit => 0x96

/-- The fields of a record. -/
structure Record where
  kind : RecKind
  window : Nat
  line : Nat
  origin : Nat
  group : Nat
  data : List Byte
  deriving DecidableEq, Repr

/-- The 48 bytes of a record. -/
def Record.encode (r : Record) : List Byte :=
  withCheck ([r.kind.code, BitVec.ofNat 8 r.window] ++ le 2 r.line ++ le 4 r.origin ++ le 4 r.group ++ r.data)

/-- The 32 zero bytes of a COMMIT record's data. -/
def zeroLine : List Byte := List.replicate Config.lineBytes 0

/-- A PLAIN record (R27). -/
def plainRecord (line origin : Nat) (data : List Byte) : Record :=
  { kind := .plain, window := 0, line := line, origin := origin, group := 0, data := data }

/-- A TENTATIVE record (R27). -/
def tentativeRecord (t : Tag) (line origin : Nat) (data : List Byte) : Record :=
  { kind := .tentative, window := t.window, line := line, origin := origin, group := t.group, data := data }

/-- A COMMIT record (R27). -/
def commitRecord (t : Tag) : Record :=
  { kind := .commit, window := t.window, line := 0, origin := 0, group := t.group, data := zeroLine }

/-- Every field meets the column of its kind (R26). -/
def Record.fieldsValid (r : Record) : Bool :=
  match r.kind with
  | .plain =>
    decide (r.window = 0) && decide (r.line < Config.storeLines) && givenValue r.origin && decide (r.group = 0)
  | .tentative =>
    decide (r.window < Config.windowCount) && decide (r.line < Config.storeLines) && givenValue r.origin
      && givenValue r.group
  | .commit =>
    decide (r.window < Config.windowCount) && decide (r.line = 0) && decide (r.origin = 0) && givenValue r.group
      && decide (r.data = zeroLine)

/-- The kind of a code. -/
def kindOfCode (c : Byte) : Option RecKind :=
  if c = RecKind.plain.code then some .plain
  else if c = RecKind.tentative.code then some .tentative
  else if c = RecKind.commit.code then some .commit
  else none

/-- The data field of a slot's bytes. -/
def dataField (bs : List Byte) : List Byte := (bs.drop 12).take Config.lineBytes

/-- The record a slot's 48 bytes hold, when they are valid (R26). -/
def parseRecord (bs : List Byte) : Option Record :=
  match kindOfCode (bs.getD 0 0) with
  | none => none
  | some k =>
    let r : Record :=
      { kind := k, window := (bs.getD 1 0).toNat, line := field bs 2 2, origin := field bs 4 4,
        group := field bs 8 4, data := dataField bs }
    if checkMatches bs Config.slotBytes && r.fieldsValid then some r else none

/-- The program is one of a PLAIN or TENTATIVE record, which qualifies for a VERIFY arm (R96, R170). -/
def isLineRecord (bs : List Byte) : Bool :=
  bs.getD 0 0 == RecKind.plain.code || bs.getD 0 0 == RecKind.tentative.code

/-! ### Tail marks (R29, Table 2-5) -/

/-- The mark value. -/
def tailMarkValue : List Byte := [0xE2, 0x47, 0x0B, 0x9D]

/-- The 16 bytes of a tail mark. -/
def tailMarkBytes (seq : Nat) : List Byte :=
  withCheck (tailMarkValue ++ le 4 seq ++ le 4 (Config.lastSequence - seq))

/-! ### Settings records (R25, Table 2-6) -/

/-- The 48 bytes of a settings record. -/
def Settings.encode (x : Settings) : List Byte :=
  withCheck ([0xC3, x.locks, (if x.exchange then 1 else 0), x.fill, (if x.strict then 2 else 1), 0] ++ le 2 x.stall
    ++ le 4 x.seq ++ List.replicate 32 0)

/-- The settings a slot's 48 bytes hold, when they are a valid settings record (R25). -/
def parseSettings (bs : List Byte) : Option Settings :=
  let exchange := bs.getD 2 0
  let fill := bs.getD 3 0
  let policy := bs.getD 4 0
  let stall := field bs 6 2
  let seq := field bs 8 4
  if checkMatches bs Config.slotBytes && bs.getD 0 0 == 0xC3 && (exchange == 0 || exchange == 1)
      && (fill == 0 || fill == 0xFF) && (policy == 1 || policy == 2) && bs.getD 5 0 == 0
      && decide (10 ≤ stall) && decide (stall ≤ 1000) && decide (1 ≤ seq) && decide (seq ≤ Config.lastSlot)
      && (dataField bs).all (fun b => b == 0) then
    some { seq := seq, locks := bs.getD 1 0, exchange := exchange == 1, fill := fill, strict := policy == 2,
           stall := stall }
  else none

end Sys2Proof.Machine
end

