-- ==== Sys2Proof/Machine/Flags.lean ====
section
/-! DEFINITION. Events and IRQ# (R192, R193), the fault record (R188), the health counter's reports (R164, R165) and the
injection arm (R169). -/

namespace Sys2Proof.Machine

/-! ### Events (R192) -/

/-- The bit of an event. -/
def Event.bit : Event → Nat
  | .mounted => 0 | .repaired => 1 | .cmdDone => 2 | .cmdReject => 3 | .groupCommit => 4 | .groupDrop => 5
  | .windowEnd => 6 | .fault => 7 | .readCheck => 8 | .blockRetired => 9 | .healthReport => 10
  | .healthSaturated => 11 | .drainDone => 12 | .modeChange => 13 | .spaceLow => 14 | .wpChange => 15

/-- The event set with one event set. -/
def setEvent (events : BitVec 16) (e : Event) : BitVec 16 := events ||| (1#16 <<< e.bit)

/-- An event is set. -/
def State.eventSet (s : State) (e : Event) : Bool := s.mgmt.events.getLsbD e.bit

/-- An event is raised: it becomes, or stays, set (R192). -/
def State.raise (s : State) (e : Event) : State :=
  { s with mgmt := { s.mgmt with events := setEvent s.mgmt.events e } }

/-- IRQ# is asserted exactly when some event is both set and unmasked (R193). -/
def State.irq (s : State) : Bool := decide (s.mgmt.events &&& s.mgmt.mask ≠ 0)

/-- A selection names rising edges (R194). -/
def EdgeSel.rising : EdgeSel → Bool
  | .rise => true | .fall => false | .both => true

/-- A selection names falling edges (R194). -/
def EdgeSel.falling : EdgeSel → Bool
  | .rise => false | .fall => true | .both => true

/-- A status went from `before` to `after`: its event is raised on each edge its selection names (R194). -/
def State.edge (s : State) (sel : EdgeSel) (e : Event) (before after : Bool) : State :=
  if !before && after && sel.rising then s.raise e
  else if before && !after && sel.falling then s.raise e
  else s

/-! ### The fault record (R188) -/

/-- The code of a cause in byte 0 of FAULT. -/
def Cause.code : Cause → Nat
  | .outOfRange => 1 | .zoneLocked => 2 | .writeProtected => 3 | .readOnly => 4 | .draining => 5 | .notReady => 6
  | .flashLost => 7 | .stallTimeout => 8 | .readCheck => 9 | .groupFull => 10 | .programFail => 11
  | .relocateCheck => 12 | .blockRetired => 13 | .drainLoss => 14 | .settingsLost => 15

/-- A report of a cause alone; the fields are added by each rule. -/
def faultOf (c : Cause) : FaultReport :=
  { cause := c, addr := none, line := none, block := none, slot := none, window := none }

/-- A fault report arrives: a free record captures it and FAULT is raised; a held fault is kept and its further-faults
flag set (R188). -/
def State.reportFault (s : State) (f : FaultReport) : State :=
  match s.mgmt.fault with
  | none => { s with mgmt := { s.mgmt with fault := some f, further := false,
                                           events := setEvent s.mgmt.events .fault } }
  | some _ => { s with mgmt := { s.mgmt with further := true } }

/-! ### The health counter (R163 to R168) -/

/-- A report of class `c` counts when `sel` is selected (R165). -/
def HealthClass.counts (sel c : HealthClass) : Bool :=
  decide (sel = c) || (decide (sel = .media) && decide (c ≠ .suspend))

/-- One counted report: the count rises by one and saturates (R165). -/
def Health.bump (h : Health) : Health :=
  if h.count < Config.healthMax then
    { h with count := h.count + 1, saturated := h.saturated || decide (h.count + 1 = Config.healthMax) }
  else h

/-- The health counter takes a report of a media event (R165). -/
def State.report (s : State) (c : HealthClass) : State :=
  if s.health.cls.counts c then
    let s1 := { s with health := s.health.bump }
    if s.health.count + 1 = Config.healthMax then s1.raise .healthSaturated else s1
  else s

/-- A window restarts (R163): the count, the saturation flag and, in AUTO, the timer start afresh. -/
def Health.restart (h : Health) : Health := { h with count := 0, saturated := false, elapsed := 0 }

/-- A window closes: steps 1 to 3 of R166. -/
def State.closeHealthWindow (s : State) : State :=
  let h := s.health
  let closed := { h with snapCount := h.count, snapSaturated := decide (h.count = Config.healthMax), snapClass := h.cls }
  { s with health := closed.restart }.raise .healthReport

/-- The injection arm is consumed (R169). -/
def State.disarm (s : State) : State := { s with health := { s.health with arm := .none } }

/-! ### Modes as conditions -/

/-- The mode is RUN or READONLY, in which the queue and the block manager work (R61, R93). -/
def Mode.working : Mode → Bool
  | .run | .readonly => true
  | .mount | .drain | .service | .halted => false

/-- The flash is lost: three consecutive timeouts (R105). -/
def State.flashLost (s : State) : Bool := decide (Config.lostTimeouts ≤ s.array.timeouts)

end Sys2Proof.Machine
end

