-- ==== Sys2Proof/Machine/Operands.lean ====
section
/-! DEFINITION. The operands of commands: line pieces and their store lines (R3, R4), the parameters and results in DATA
(R176 to R178), and the items of the management link (R175). -/

namespace Sys2Proof.Machine

/-! ### Line pieces (R3, R4) -/

/-- A piece as the split makes it. -/
def mkPiece (busLine offset length : Nat) (data : List Byte) : Piece :=
  { busLine := busLine, offset := offset, length := length, data := data, tag := none, merge := none, result := none }

/-- The length of the first piece: to the end of the request or of the address's line (R3). -/
def firstLength (addr count : Nat) : Nat := min count (Config.lineBytes - addr % Config.lineBytes)

/-- The one or two pieces of a request (R3). -/
def splitRequest (addr count : Nat) (data : List Byte) : List Piece :=
  let l := firstLength addr count
  let b := addr / Config.lineBytes
  let p := mkPiece b (addr % Config.lineBytes) l (data.take l)
  if l < count then [p, mkPiece (b + 1) 0 (count - l) (data.drop l)] else [p]

/-- The piece lies in the store (R4). -/
def Piece.inRange (p : Piece) : Bool := decide (p.busLine < Config.storeLines)

/-- The piece covers its whole line (R3). -/
def Piece.full (p : Piece) : Bool := decide (p.offset = 0) && decide (p.length = Config.lineBytes)

/-- The byte address of the piece's first byte. -/
def Piece.addr (p : Piece) : Nat := p.busLine * Config.lineBytes + p.offset

/-- The store line of a bus line (R4). -/
def storeLine (exchange : Bool) (busLine : Nat) : Nat :=
  if exchange then
    if busLine < Config.halfLines then busLine + Config.halfLines else busLine - Config.halfLines
  else busLine

/-- The store line of a piece under the half exchange in force (R4). -/
def State.lineOf (s : State) (p : Piece) : Nat := storeLine s.port.exchange p.busLine

/-- The piece's bytes of a line image. -/
def Piece.bytesOf (p : Piece) (image : List Byte) : List Byte := (image.drop p.offset).take p.length

/-- A line image with the piece's data laid over it (R56, R57). -/
def Piece.layOver (p : Piece) (image : List Byte) : List Byte :=
  image.take p.offset ++ p.data ++ image.drop (p.offset + p.data.length)

/-- A whole line of the fill value (R5). -/
def fillLine (fill : Byte) : List Byte := List.replicate Config.lineBytes fill

/-- The store line of a byte address, when it lies in range (R2). -/
def State.lineOfAddr (s : State) (addr : Nat) : Option Nat :=
  let b := addr / Config.lineBytes
  if b < Config.storeLines then some (storeLine s.port.exchange b) else none

/-! ### Codes -/

/-- The return code in DATA byte 0 (R177). -/
def Ret.code : Ret → Nat
  | .done => 1 | .param => 2 | .mode => 3 | .state => 4 | .full => 5 | .media => 6 | .late => 7 | .cut => 8

/-- The code of a mode in MODE byte 0 (R175). -/
def Mode.code : Mode → Nat
  | .mount => 0 | .run => 1 | .readonly => 2 | .drain => 3 | .service => 4 | .halted => 5

/-- The code of a block state (R178). -/
def BlockState.code : BlockState → Nat
  | .erased => 0 | .opened => 1 | .full => 2 | .victim => 3 | .retiring => 4 | .retired => 5 | .erasing => 6

/-- The code of a window state (R111). -/
def WinState.code : WinState → Nat
  | .idle => 0 | .armed => 1 | .opened => 2 | .committing => 3

/-- The code of a health class (R168, R175). -/
def HealthClass.code : HealthClass → Nat
  | .program => 0 | .erase => 1 | .read => 2 | .suspend => 3 | .media => 4

/-- The health class of a code (R168). -/
def HealthClass.ofCode : Nat → Option HealthClass
  | 0 => some .program | 1 => some .erase | 2 => some .read | 3 => some .suspend | 4 => some .media | _ => none

/-- The code of an arm (R169). -/
def Arm.code : Arm → Nat
  | .none => 0 | .verify => 1 | .read => 2 | .erase => 3

/-- The arm of a code (R169). -/
def Arm.ofCode : Nat → Option Arm
  | 0 => some .none | 1 => some .verify | 2 => some .read | 3 => some .erase | _ => Option.none

/-- The code of an EDGES selection (R175). -/
def EdgeSel.code : EdgeSel → Nat
  | .rise => 1 | .fall => 2 | .both => 3

/-- The selection of a code; 0 leaves the selection as it was (R175). -/
def EdgeSel.ofCode (old : EdgeSel) : Nat → EdgeSel
  | 1 => .rise | 2 => .fall | 3 => .both | _ => old

/-- The modes a command is taken in (Table 11-1). -/
def Code.takenIn : Code → Mode → Bool
  | .rsts, m => decide (m = .mount) || decide (m = .run) || decide (m = .readonly) || decide (m = .service)
  | .warm, m | .wend, m | .wdrp, m => decide (m = .run)
  | .zlck, m | .xchg, m | .poly, m | .svce, m => m.working
  | .svcx, m | .wipe, m => decide (m = .service)
  | .info, m | .sync, m | .wsta, m | .line, m | .blkq, m | .hcfg, m | .taly, m | .injt, m | .fack, m =>
    decide (m ≠ .mount)

/-- The four letters of a code, the first at byte 0 (R175, Table 11-1). -/
def Code.letters : Code → List Char
  | .info => ['I', 'N', 'F', 'O']
  | .sync => ['S', 'Y', 'N', 'C']
  | .warm => ['W', 'A', 'R', 'M']
  | .wend => ['W', 'E', 'N', 'D']
  | .wdrp => ['W', 'D', 'R', 'P']
  | .wsta => ['W', 'S', 'T', 'A']
  | .line => ['L', 'I', 'N', 'E']
  | .blkq => ['B', 'L', 'K', 'Q']
  | .zlck => ['Z', 'L', 'C', 'K']
  | .xchg => ['X', 'C', 'H', 'G']
  | .poly => ['P', 'O', 'L', 'Y']
  | .hcfg => ['H', 'C', 'F', 'G']
  | .taly => ['T', 'A', 'L', 'Y']
  | .injt => ['I', 'N', 'J', 'T']
  | .svce => ['S', 'V', 'C', 'E']
  | .svcx => ['S', 'V', 'C', 'X']
  | .wipe => ['W', 'I', 'P', 'E']
  | .rsts => ['R', 'S', 'T', 'S']
  | .fack => ['F', 'A', 'C', 'K']

/-- Letters as bytes. -/
def ascii (w : List Char) : List Byte := w.map fun c => BitVec.ofNat 8 c.toNat

/-- Every code of Table 11-1. -/
def allCodes : List Code :=
  [.info, .sync, .warm, .wend, .wdrp, .wsta, .line, .blkq, .zlck, .xchg, .poly, .hcfg, .taly, .injt, .svce, .svcx,
   .wipe, .rsts, .fack]

/-- The code four bytes spell. -/
def Code.ofBytes (bs : List Byte) : Option Code := allCodes.find? fun c => decide (ascii c.letters = bs)

/-- The code of the command in progress. -/
def Activity.code : Activity → Code
  | .sync _ => .sync
  | .svce _ => .svce
  | .rsts _ => .rsts
  | .append c _ _ => c
  | .wipe _ _ => .wipe

/-- The bytes COMMAND reads (R175, R176). -/
def CommandReg.bytes : CommandReg → List Byte
  | .zero => [0, 0, 0, 0]
  | .unkn => ascii ['U', 'N', 'K', 'N']
  | .active a => ascii a.code.letters

/-! ### DATA (R176) -/

/-- A number of `n` bytes at byte `o` of DATA. -/
def State.param (s : State) (o n : Nat) : Nat := field s.mgmt.data o n

/-- DATA with bytes replaced from byte `o` on; bytes past its size are dropped. -/
def putData (d : List Byte) (o : Nat) (bs : List Byte) : List Byte :=
  (d.take o ++ bs ++ d.drop (o + bs.length)).take 64

/-- A byte list of one byte. -/
def byte1 (n : Nat) : List Byte := [BitVec.ofNat 8 n]

/-- A command completes: the return code in DATA byte 0, its results from byte 1 on, COMMAND zero, CMD_DONE (R176). -/
def State.complete (s : State) (r : Ret) (results : List Byte) : State :=
  { s with mgmt := { s.mgmt with
      command := .zero,
      data := putData s.mgmt.data 0 (byte1 r.code ++ results),
      events := setEvent s.mgmt.events .cmdDone } }

/-- A command is held in progress (R176). -/
def State.hold (s : State) (a : Activity) : State :=
  { s with mgmt := { s.mgmt with command := .active a } }

/-- The command in progress. -/
def State.activity (s : State) : Option Activity :=
  match s.mgmt.command with
  | .active a => some a
  | .zero | .unkn => none

/-- Command hold: from the taking of RSTS or SVCE until the command ends (R16). -/
def State.commandHold (s : State) : Bool :=
  match s.mgmt.command with
  | .active (.svce _) | .active (.rsts _) => true
  | .active (.sync _) | .active (.append _ _ _) | .active (.wipe _ _) | .zero | .unkn => false

/-- Item `n` becomes the selected item (R174). -/
def State.select (s : State) (n : Nat) : State := { s with mgmt := { s.mgmt with selected := n } }

/-! ### Items (R175) -/

/-- The bytes of IDENT. -/
def identBytes : List Byte :=
  le 2 2351 ++ le 2 3160 ++ le 2 1 ++ le 2 32 ++ le 2 8192 ++ le 2 256 ++ le 2 16 ++ le 2 64 ++ le 2 4 ++ le 2 16

/-- A field of the fault record, zero when absent. -/
def optField (n : Nat) (v : Option Nat) : List Byte := le n (v.getD 0)

/-- A presence flag. -/
def presence (bit : Nat) (v : Option Nat) : Nat := if v.isSome then bit else 0

/-- The 16 bytes of FAULT (R188); bytes 11 to 15 and bits 5 to 7 of the presence flags read zero (log 69). -/
def faultBytes (f : Option FaultReport) (further : Bool) : List Byte :=
  match f with
  | none => List.replicate 16 0
  | some r =>
    byte1 r.cause.code
      ++ byte1 (presence 1 r.addr + presence 2 r.line + presence 4 r.block + presence 8 r.slot + presence 16 r.window)
      ++ optField 3 r.addr ++ optField 2 r.line ++ optField 1 r.block ++ optField 1 r.slot ++ optField 1 r.window
      ++ byte1 further.toNat ++ List.replicate 5 0

/-- The bytes of an item as a read transfer copies them (R174, R175); items 10 to 255 have none. Bits 2 to 7 of byte 2 of
EVENTS and bits 4 to 7 of EDGES read zero (log 69). -/
def readItem (s : State) (n : Nat) : List Byte :=
  let m := s.mgmt
  match n with
  | 0 => identBytes
  | 1 => [BitVec.ofNat 8 m.mode.code, if m.mode = .drain ∧ s.drain.phase = .drained then 1 else 0]
  | 2 => m.command.bytes
  | 3 => m.data
  | 4 => le 2 m.events.toNat ++ byte1 (m.spaceLow.toNat + 2 * (!s.array.wp).toNat)
  | 5 => le 2 m.mask.toNat
  | 6 => [0, 0]
  | 7 => byte1 (m.edgeSpace.code + 4 * m.edgeWp.code)
  | 8 => if m.mode = .mount then List.replicate 16 0 else faultBytes m.fault m.further
  | 9 => if m.mode = .mount then List.replicate 4 0
         else le 2 s.health.snapCount ++ byte1 s.health.snapSaturated.toNat ++ byte1 s.health.snapClass.code
  | _ => []

/-- A read transfer of `len` bytes of the selected item: zeros beyond the item's size; no answer while RESET# is asserted
or power is off (R174). -/
def readTransfer (s : State) (len : Nat) : Option (List Byte) :=
  match s.power with
  | .on => some (((readItem s s.mgmt.selected) ++ List.replicate len 0).take len)
  | .held | .off => none

/-- The bus is not ready while a request is held (R1), and no request is taken out of power or in reset (R18). -/
def State.ready (s : State) : Bool :=
  match s.power, s.port.request with
  | .on, none => true
  | .on, some _ => false
  | .held, _ => false
  | .off, _ => false

end Sys2Proof.Machine
end

