-- ==== Sys2Proof/Machine/Views.lean ====
section
/-! DEFINITION. What the blocks read of one another: table entries, block table entries, windows and register entries;
the counts the spec defines as numbers of references (R74, R75, R115, R130); forwarding's choice of a queue entry (R39);
and the request at the port with its pieces, as the port and the array port change it (R14, R41). -/

namespace Sys2Proof.Machine

/-! ### Single entries -/

/-- The translation table entry of a store line (R35). -/
def State.entry (s : State) (line : Nat) : TableEntry := Sparse.get TableEntry.clear s.table line

/-- A whole-entry replacement (R36). -/
def State.setEntry (s : State) (line : Nat) (e : TableEntry) : State :=
  { s with table := Sparse.set TableEntry.clear s.table line e }

/-- The block table entry of a data block (R74). -/
def State.block (s : State) (b : Nat) : BlockEntry := Sparse.get BlockEntry.unknown s.blocks.table b

/-- A block table entry replaced. -/
def State.setBlock (s : State) (b : Nat) (e : BlockEntry) : State :=
  { s with blocks := { s.blocks with table := Sparse.set BlockEntry.unknown s.blocks.table b e } }

/-- Window `w` (R109). -/
def State.window (s : State) (w : Nat) : Window := s.windows.windows.getD w Window.idle

/-- Window `w` replaced. -/
def State.setWindow (s : State) (w : Nat) (x : Window) : State :=
  { s with windows := { s.windows with windows := s.windows.windows.set w x } }

/-- Group register entry `i` (R129). -/
def State.reg (s : State) (i : Nat) : RegEntry := s.windows.register.getD i .free

/-- Group register entry `i` replaced. -/
def State.setReg (s : State) (i : Nat) (x : RegEntry) : State :=
  { s with windows := { s.windows with register := s.windows.register.set i x } }

/-- The shadow entry of a store line (R113). -/
def State.shadowOf (s : State) (line : Nat) : Option ShadowEntry :=
  s.windows.shadow.find? fun e => decide (e.line = line)

/-! ### Blocks (R74) -/

/-- The data blocks (R19). -/
def dataBlocks : List Nat := List.range' 1 255

/-- The number of data blocks in a state other than FULL (an unlisted block is FULL, log 9). -/
def State.countState (s : State) (st : BlockState) : Nat :=
  (s.blocks.table.filter fun c => decide (c.2.state = st)).length

/-- The ERASED count (R74). -/
def State.erasedCount (s : State) : Nat := s.countState .erased

/-- The number of RETIRED blocks. -/
def State.retiredCount (s : State) : Nat := s.countState .retired

/-- The number of blocks in FULL or VICTIM (R178). -/
def State.fullCount (s : State) : Nat :=
  255 - (s.blocks.table.filter fun c => !(decide (c.2.state = .full) || decide (c.2.state = .victim))).length

/-- The OPEN block (R74). -/
def State.openBlock (s : State) : Option Nat :=
  (s.blocks.table.find? fun c => decide (c.2.state = .opened)).map (·.1)

/-- The record slots left in the OPEN block (R74). -/
def State.openSlots (s : State) : Nat :=
  match s.openBlock with
  | none => 0
  | some b => 85 - (s.block b).nextFree

/-- Free slots F (R74). -/
def State.freeSlots (s : State) : Nat := s.openSlots + Config.lastSlot * s.erasedCount

/-- The slot the next record program takes: the next free slot of the OPEN block, when one is left (R62, R77). -/
def State.nextSlot (s : State) : Option Slot :=
  match s.openBlock with
  | none => none
  | some b => if (s.block b).nextFree ≤ Config.lastSlot then some { block := b, slot := (s.block b).nextFree } else none

/-- An opening can be made under a gate of `gate` ERASED blocks (R76): none is OPEN, the counter gives a value. -/
def State.canOpen (s : State) (gate : Nat) : Bool :=
  s.openBlock.isNone && !atLast s.blocks.nextSeq && decide (gate ≤ s.erasedCount) && decide (1 ≤ s.erasedCount)

/-! ### Holders and live slots (R28, R75) -/

/-- The slot a register entry holds. -/
def RegEntry.commitSlot : RegEntry → Option Slot
  | .committed _ _ x => some x
  | .free | .reserved _ _ => none

/-- Every slot some holder names (R75). -/
def State.named (s : State) : List Slot :=
  s.table.filterMap (·.2.current) ++ s.windows.shadow.filterMap (·.committed)
    ++ s.windows.register.filterMap RegEntry.commitSlot

/-- A slot is live: some holder names it (R28). -/
def State.live (s : State) (x : Slot) : Bool := s.named.contains x

/-- The list without repeats. -/
def distinct : List Slot → List Slot
  | [] => []
  | x :: xs => if xs.contains x then distinct xs else x :: distinct xs

/-- A block's live slots. -/
def State.liveSlots (s : State) (b : Nat) : List Slot := (distinct s.named).filter fun x => decide (x.block = b)

/-- A block's live count (R75). A block that is ERASED, ERASING or RETIRED holds none (R88, R91): this differs from the
references only while WIPE erases blocks under a table kept from the entry to SERVICE (R37, R178). -/
def State.liveCount (s : State) (b : Nat) : Nat :=
  match (s.block b).state with
  | .erased | .erasing | .retired => 0
  | .opened | .full | .victim | .retiring => (s.liveSlots b).length

/-- The lowest of a list of slots by slot number. -/
def lowestSlot : List Slot → Option Slot
  | [] => none
  | x :: xs =>
    match lowestSlot xs with
    | none => some x
    | some y => if x.slot ≤ y.slot then some x else some y

/-! ### Groups (R109, R115, R130) -/

/-- Members programmed of window `w` (R109, R115). -/
def State.members (s : State) (w : Nat) : Nat :=
  (s.table.filter fun c => decide (c.2.group = some (.openIn w))).length

/-- The live tagged count of register entry `i` (R130). -/
def State.liveTagged (s : State) (i : Nat) : Nat :=
  (s.table.filter fun c => decide (c.2.group = some (.register i))).length
    + (s.windows.shadow.filter fun e => decide (e.committedGroup = some i)).length

/-- The number of COMMITTED register entries. -/
def State.committedCount (s : State) : Nat :=
  (s.windows.register.filter fun e => e.commitSlot.isSome).length

/-- Register use: entries RESERVED or COMMITTED (R129). -/
def State.registerUse (s : State) : Nat :=
  (s.windows.register.filter fun e => decide (e ≠ .free)).length

/-- Window `w` covers a bus line. -/
def Window.covers (x : Window) (busLine : Nat) : Bool := decide (x.first ≤ busLine) && decide (busLine ≤ x.last)

/-- The window in one of the given states whose range holds a bus line (R109: ranges do not overlap). -/
def State.windowAt (s : State) (states : List WinState) (busLine : Nat) : Option Nat :=
  (List.range Config.windowCount).find? fun w =>
    states.contains (s.window w).state && (s.window w).covers busLine

/-! ### The queue as read by others -/

/-- The entry is a LINE entry for a line that forwarding may use (R39): not one dropped while PROGRAMMING. -/
def QEntry.usable (line : Nat) : QEntry → Option LineEntry
  | .line e => if e.line = line ∧ e.dropped = false then some e else none
  | .commit _ => none

/-- The newest usable LINE entry for a line (R39). -/
def State.newestUsable (s : State) (line : Nat) : Option LineEntry :=
  s.queue.entries.foldl (fun acc q => match q.usable line with | some e => some e | none => acc) none

/-- The entry is PROGRAMMING. -/
def QEntry.programming : QEntry → Bool
  | .line e => decide (e.state = .programming)
  | .commit e => decide (e.state = .programming)

/-- The entry carries a sync mark (R71). -/
def QEntry.marked : QEntry → Bool
  | .line e => e.syncMark
  | .commit e => e.syncMark

/-- The group's commit point has been passed (R119). -/
def State.pastCommitPoint (s : State) (t : Tag) : Bool :=
  s.queue.entries.any fun q =>
    match q with
    | .commit e =>
      decide (e.window = t.window) && decide (e.group = t.group) && (decide (e.state = .programming) || decide (0 < e.attempts))
    | .line _ => false

/-! ### The request at the port and its pieces -/

/-- The bytes of a read that ends with ERROR: fill in every position (R2, R5). -/
def State.fillBytes (s : State) (n : Nat) : List Byte := List.replicate n s.mgmt.settings.fill

/-- The request in progress replaced. -/
def State.setRequest (s : State) (r : Request) : State := { s with port := { s.port with request := some r } }

/-- A piece that has ended. -/
def Piece.ended (p : Piece) (bytes : List Byte) (cause : Option Cause) : Piece :=
  { p with result := some { bytes := bytes, cause := cause } }

/-- A piece of the request in progress is changed. -/
def State.setPiece (s : State) (r : Request) (i : Nat) (p : Piece) : State :=
  s.setRequest { r with pieces := r.pieces.set i p }

end Sys2Proof.Machine
end

