-- ==== Sys2Proof/Machine/Windows.lean ====
section
/-! DEFINITION. The window unit: tagging and the shadow list (R112, R113), closes and reservations (R116, R118), commit
completions (R120 to R122), lost COMMIT records (R123), aborts and reverts (R124, R125), mode entries (R127), the group
register (R129 to R132) and the release request (R131, R92). -/

namespace Sys2Proof.Machine

/-! ### COMMIT requests at the queue (R54) -/

/-- The enqueue gate for `n` new entries of a write (R59): the places that waiting COMMIT requests claim come first
(R54). -/
def State.gateAdmits (s : State) (n : Nat) : Bool :=
  decide (s.queue.entries.length + s.queue.requests.length + n ≤ Config.queuePlaces) && decide (1 ≤ s.erasedCount)

/-- The COMMIT entry a request becomes (R54). -/
def commitEntryOf (r : CommitRequest) : CommitEntry :=
  { window := r.window, group := r.group, register := r.register, state := .pending, attempts := 0, blockAttempts := 0,
    lastBlock := none, target := none, syncMark := r.syncMark }

/-- The window unit asks for a COMMIT entry: appended at once when the gate admits it and no earlier request waits,
otherwise the request waits behind the others (R54). -/
def State.askCommit (s : State) (r : CommitRequest) : State :=
  if s.gateAdmits 1 ∧ s.queue.requests = [] then
    { s with queue := { s.queue with entries := s.queue.entries ++ [.commit (commitEntryOf r)] } }
  else { s with queue := { s.queue with requests := s.queue.requests ++ [r] } }

/-- The first waiting COMMIT request takes a place when there is one (R54). -/
def State.appendWaitingCommit (s : State) : State :=
  match s.queue.requests with
  | [] => s
  | r :: rs =>
    if s.queue.entries.length < Config.queuePlaces ∧ 1 ≤ s.erasedCount then
      { s with queue := { s.queue with entries := s.queue.entries ++ [.commit (commitEntryOf r)], requests := rs } }
    else s

/-! ### Reservations (R118, R132) -/

/-- The lowest free register index. -/
def State.freeRegister (s : State) : Option Nat :=
  (List.range Config.registerPlaces).find? fun i => decide (s.reg i = .free)

/-- Register entry `i` is reserved for the group of window `w` and its COMMIT entry is asked for (R118). -/
def State.reserve (s : State) (w g i : Nat) : State :=
  let s1 := s.setReg i (.reserved w g)
  let s2 := s1.setWindow w { s1.window w with register := some i, awaiting := false }
  s2.askCommit { window := w, group := g, register := i, syncMark := false }

/-- The close of window `w`'s group `g` (R116, R118). -/
def State.closeGroup (s : State) (w g : Nat) : State :=
  let s1 := s.setWindow w { s.window w with state := .committing }
  match s1.freeRegister with
  | some i => s1.reserve w g i
  | none => s1.setWindow w { s1.window w with awaiting := true }

/-- A close trigger (R116): taken when the window is OPEN with the tag's group, ignored otherwise. -/
def State.closeTrigger (s : State) (t : Tag) : State :=
  if (s.window t.window).state = .opened ∧ (s.window t.window).group = some t.group then
    s.closeGroup t.window t.group
  else s

/-- The awaiting window whose group sequence is lowest (R132). -/
def State.nextAwaiting (s : State) : Option Nat :=
  (List.range Config.windowCount).foldl (fun acc w =>
    if (s.window w).awaiting then
      match acc with
      | none => some w
      | some v => if (s.window w).group.getD 0 < (s.window v).group.getD 0 then some w else acc
    else acc) none

/-- A freed register entry is reserved for the awaiting window with the lowest group sequence (R132). Of several entries
freed in one event the lowest index goes first (log 43). -/
def State.offerRegister (s : State) : State :=
  match s.freeRegister, s.nextAwaiting with
  | some i, some w => s.reserve w ((s.window w).group.getD 0) i
  | some _, none => s
  | none, some _ => s
  | none, none => s

/-- Every COMMITTED entry whose live tagged count is 0 is freed (R130). -/
def State.freeDeadGroups (s : State) : State :=
  { s with windows := { s.windows with
      register := s.windows.register.mapIdx fun i e =>
        match e with
        | .committed w g x => if s.liveTagged i = 0 then .free else .committed w g x
        | .reserved w g => .reserved w g
        | .free => .free } }

/-- The COMMITTED register entry with the lowest group sequence, with that sequence (R131). -/
def lowestCommitted : List RegEntry → Nat → Option (Nat × Nat)
  | [], _ => none
  | .committed _ g _ :: es, i =>
    match lowestCommitted es (i + 1) with
    | some (j, h) => if h < g then some (j, h) else some (i, g)
    | none => some (i, g)
  | .reserved _ _ :: es, i => lowestCommitted es (i + 1)
  | .free :: es, i => lowestCommitted es (i + 1)

/-- The release request that stands now (R131): priority while a window awaits, background while more than 8 entries are
COMMITTED; a request keeps its entry while that entry is COMMITTED, and a priority request made anew names the lowest. -/
def State.releaseWanted (s : State) : Option ReleaseRequest :=
  let priority := (List.range Config.windowCount).any fun w => (s.window w).awaiting
  let wanted := priority || decide (Config.releaseThreshold < s.committedCount)
  let fresh := (lowestCommitted s.windows.register 0).map fun p => { register := p.1, priority := priority }
  if wanted then
    match s.windows.release with
    | none => fresh
    | some r =>
      if (s.reg r.register).commitSlot.isSome && (r.priority || !priority) then some { r with priority := priority }
      else fresh
  else none

/-- A copy has a flash operation in flight. -/
def CopyWork.inFlight (c : CopyWork) : Bool := decide (c.stage = .reading) || decide (c.stage = .programming)

/-- The release job has a copy in flight, which ends before the job is replaced or withdrawn (R92). -/
def ReleaseJob.inFlight (j : ReleaseJob) : Bool :=
  match j.copy with
  | some c => c.inFlight
  | none => false

/-- The release job that follows a standing request (R92, R131). A copy held between its read and its program is not in
flight: its job is replaced at once when the request names another entry, and ends at once, the copy unprogrammed, when the
request is withdrawn (log 26). -/
def nextReleaseJob (job : Option ReleaseJob) (want : Option ReleaseRequest) : Option ReleaseJob :=
  match job, want with
  | none, none => none
  | none, some r => some { register := r.register, priority := r.priority, copy := none }
  | some j, none => if j.inFlight then some j else none
  | some j, some r =>
    if r.register = j.register then some { j with priority := r.priority }
    else if j.inFlight then some j
    else some { register := r.register, priority := r.priority, copy := none }

/-- The release request and the release job follow the register and the windows (R131, R92). -/
def State.updateRelease (s : State) : State :=
  let want := s.releaseWanted
  { s with windows := { s.windows with release := want },
           blocks := { s.blocks with release := nextReleaseJob s.blocks.release want } }

/-! ### Tagging (R112, R113) -/

/-- A shadow entry is created for a line that has none (R113). -/
def State.createShadow (s : State) (line w : Nat) : State :=
  if (s.shadowOf line).isSome then s
  else
    let e := s.entry line
    let cg := match e.group with
      | some (.register i) => some i
      | some (.openIn _) => none
      | none => none
    { s with windows := { s.windows with
        shadow := s.windows.shadow ++ [{ line := line, window := w, committed := e.current, committedGroup := cg }] } }

/-- An ARMED window opens a group, which takes the next group sequence (R112). -/
def State.openGroup (s : State) (w : Nat) : State :=
  if (s.window w).state = .armed then
    let s1 := s.setWindow w { s.window w with state := .opened, group := some s.windows.nextGroup }
    { s1 with windows := { s1.windows with nextGroup := nextSequence s1.windows.nextGroup } }
  else s

/-- One piece is tagged (R112): the state after, and the piece with its tag. -/
def State.tagPiece (s : State) (p : Piece) : State × Piece :=
  if p.inRange then
    match s.windowAt [.armed, .opened] p.busLine with
    | none => (s, { p with tag := none, merge := none })
    | some w =>
      let s1 := s.openGroup w
      let s2 := s1.createShadow (s.lineOf p) w
      (s2, { p with tag := some { window := w, group := (s1.window w).group.getD 0 }, merge := none })
  else (s, p)

/-- The pieces of a write are tagged in address order (R112). -/
def State.tagPieces (s : State) : List Piece → State × List Piece
  | [] => (s, [])
  | p :: ps =>
    let r := s.tagPiece p
    let rs := State.tagPieces r.1 ps
    (rs.1, r.2 :: rs.2)

/-! ### Commit completion (R120, R121, R122) -/

/-- The window after a commit completion, and whether WINDOW_END is raised (R121). The mode decides, so a window past its
commit point when SVCE or RSTS was taken in RUN follows the rows for RUN (log 42). -/
def Window.afterCommit (x : Window) (m : Mode) : Window × Bool :=
  let y := { x with group := none, register := none, awaiting := false }
  if m = .run ∧ x.repeats ≠ 1 then ({ y with state := .armed, repeats := x.repeats - 1 }, false)
  else ({ y with state := .idle, repeats := 0 }, true)

/-- A write waiting in the checking phase is to be taken up afresh (R13). -/
def State.wake (s : State) : State :=
  match s.port.request with
  | none => s
  | some r =>
    if r.phase = .checking then { s with port := { s.port with request := some { r with retake := true } } } else s

/-- The table entry of a member moves to register index `i` (R46). -/
def TableEntry.commitTo (w i : Nat) (e : TableEntry) : TableEntry :=
  if e.group = some (.openIn w) then { e with group := some (.register i) } else e

/-- The commit completion of window `w`'s group `g`, whose COMMIT record lies in `x`, in register entry `i` (R120). -/
def State.commitCompletion (s : State) (w g i : Nat) (x : Slot) : State :=
  let reg : RegEntry := if s.members w = 0 then .free else .committed w g x
  let s1 := s.setReg i reg
  let s2 := { s1 with table := s1.table.map fun (c : Nat × TableEntry) => (c.1, c.2.commitTo w i) }
  let s3 := { s2 with windows := { s2.windows with
                shadow := s2.windows.shadow.filter fun e => !decide (e.window = w) } }
  let r := (s3.window w).afterCommit s3.mgmt.mode
  let s4 := (s3.setWindow w r.1).raise .groupCommit
  (if r.2 then s4.raise .windowEnd else s4).wake

/-! ### Reverts, aborts and lost COMMIT records (R123, R124, R125) -/

/-- An abort revert of one shadow entry (R125, R48). -/
def State.revert (s : State) (x : ShadowEntry) : State :=
  let g := x.committedGroup.map GroupRef.register
  let e := s.entry x.line
  if e.current = x.committed ∧ e.group = g then s
  else s.setEntry x.line { current := x.committed, group := g, checkFailed := false }

/-- The shadow entries of window `w` are reverted in creation order and released (R123, R124). -/
def State.revertWindow (s : State) (w : Nat) : State :=
  let s1 := (s.windows.shadow.filter fun e => decide (e.window = w)).foldl State.revert s
  { s1 with windows := { s1.windows with shadow := s1.windows.shadow.filter fun e => !decide (e.window = w) } }

/-- The window as an abort leaves it (R124): IDLE, its range no longer in force. -/
def Window.dropped (x : Window) : Window :=
  { x with state := .idle, repeats := 0, group := none, register := none, awaiting := false }

/-- The register entry held by a window is freed (R123, R124). -/
def State.freeRegisterOf (s : State) (x : Window) : State :=
  match x.register with
  | some i => s.setReg i .free
  | none => s

/-- A queue entry under an abort of group `t` (R70): a PENDING entry of the group leaves, a PROGRAMMING LINE entry is
dropped when it completes. -/
def QEntry.abort (t : Tag) : QEntry → Option QEntry
  | .line e =>
    if e.tag = some t then (if e.state = .pending then none else some (.line { e with dropped := true }))
    else some (.line e)
  | .commit e =>
    if e.window = t.window ∧ e.group = t.group ∧ e.state = .pending then none else some (.commit e)

/-- The abort reaches the queue (R70). -/
def State.queueAbort (s : State) (t : Tag) : State :=
  { s with queue := { s.queue with
      entries := s.queue.entries.filterMap (QEntry.abort t),
      requests := s.queue.requests.filter fun r => !(decide (r.window = t.window) && decide (r.group = t.group)) } }

/-- The abort of window `w`'s group (R124). -/
def State.abortGroup (s : State) (w : Nat) : State :=
  let x := s.window w
  let s1 := match x.group with
    | some g => s.queueAbort { window := w, group := g }
    | none => s
  let s2 := (s1.revertWindow w).freeRegisterOf x
  ((s2.setWindow w x.dropped).raise .groupDrop).wake

/-- A lost COMMIT record of window `w` (R123). -/
def State.lostCommit (s : State) (w : Nat) : State :=
  let x := s.window w
  let s1 := (s.revertWindow w).freeRegisterOf x
  ((s1.setWindow w x.dropped).raise .groupDrop).wake

/-- An ARMED window is disarmed (R124). -/
def State.disarmWindow (s : State) (w : Nat) : State := s.setWindow w (s.window w).dropped

/-- Window `w` at a mode entry, or at the taking of SVCE or RSTS (R127). -/
def State.stopWindow (s : State) (w : Nat) : State :=
  let x := s.window w
  match x.state with
  | .idle => s
  | .armed => s.disarmWindow w
  | .opened => s.abortGroup w
  | .committing =>
    if s.pastCommitPoint { window := w, group := x.group.getD 0 } then s else s.abortGroup w

/-- Every window at a mode entry (R127). -/
def State.stopWindows (s : State) : State := (((s.stopWindow 0).stopWindow 1).stopWindow 2).stopWindow 3

end Sys2Proof.Machine
end

