-- ==== Sys2Proof/Machine/Queue.lean ====
section
/-! DEFINITION. The write queue: treatment and acceptance of pieces (R55 to R59), issue (R61 to R63), outcomes (R64 to
R70), and the claims its completions make on the table (R45), with the block manager's part in an outcome (R87, R90,
R77). -/

namespace Sys2Proof.Machine

/-! ### Acceptance (R55 to R59) -/

/-- How the queue treats a piece (R55). -/
inductive Treatment
  | coalesce | behind | fresh
  deriving DecidableEq, Repr

/-- The treatment of a piece against the queue as it stands (R55). -/
def State.treat (s : State) (p : Piece) : Treatment :=
  match s.newestUsable (s.lineOf p) with
  | none => .fresh
  | some e =>
    match e.state, e.origin with
    | .pending, none => if e.tag = p.tag then .coalesce else .fresh
    | .pending, some _ => .behind
    | .programming, _ => .fresh

/-- The piece needs a merge read (R58). -/
def State.needsMerge (s : State) (p : Piece) : Bool :=
  p.inRange && !p.full && (s.newestUsable (s.lineOf p)).isNone && (s.entry (s.lineOf p)).current.isSome

/-- The piece needs a merge image that it does not hold: none, or one of a slot the table no longer names (R58). -/
def State.mergeMissing (s : State) (p : Piece) : Bool :=
  s.needsMerge p && decide (p.merge.map (·.slot) ≠ (s.entry (s.lineOf p)).current)

/-- The image of a new LINE entry before the piece is laid over it (R57). -/
def State.imageSource (s : State) (p : Piece) : List Byte :=
  match s.newestUsable (s.lineOf p) with
  | some e => e.image
  | none =>
    if p.full then p.data
    else
      match (s.entry (s.lineOf p)).current with
      | none => fillLine s.mgmt.settings.fill
      | some _ => (p.merge.map (·.image)).getD (fillLine s.mgmt.settings.fill)

/-- A new LINE entry (R53). -/
def newLineEntry (line : Nat) (image : List Byte) (tag : Option Tag) : LineEntry :=
  { line := line, image := image, tag := tag, state := .pending, origin := none, attempts := 0, blockAttempts := 0,
    lastBlock := none, target := none, dropped := false, syncMark := false }

/-- The newest usable LINE entry for a line is changed in place (R56). -/
def changeNewest (line : Nat) (f : LineEntry → LineEntry) : List QEntry → Option (List QEntry)
  | [] => none
  | q :: qs =>
    match changeNewest line f qs with
    | some qs' => some (q :: qs')
    | none =>
      match q.usable line with
      | some e => some (.line (f e) :: qs)
      | none => none

/-- One piece is accepted with the treatment decided for it (R55 to R57). -/
def State.acceptPiece (s : State) (q : Piece × Treatment) : State :=
  let p := q.1
  let L := s.lineOf p
  match q.2 with
  | .coalesce =>
    match changeNewest L (fun e => { e with image := p.layOver e.image }) s.queue.entries with
    | some qs => { s with queue := { s.queue with entries := qs } }
    | none => s
  | .behind => s
  | .fresh =>
    { s with queue := { s.queue with
        entries := s.queue.entries ++ [.line (newLineEntry L (p.layOver (s.imageSource p)) p.tag)] } }

/-- The pieces that need new entries. -/
def State.freshCount (s : State) (ps : List Piece) : Nat := (ps.filter fun p => decide (s.treat p = .fresh)).length

/-- No piece waits behind a numbered entry and every merge image needed is held (R55). -/
def State.piecesReady (s : State) (ps : List Piece) : Bool :=
  ps.all fun p => !decide (s.treat p = .behind) && !s.mergeMissing p

/-- The queue can accept the pieces of a write (R55, R59); a COMMIT request that waits takes its place before a write that
needs one (R54). -/
def State.canAccept (s : State) (ps : List Piece) : Bool :=
  s.piecesReady ps
    && (decide (s.freshCount ps = 0) || (s.gateAdmits (s.freshCount ps) && s.queue.requests.isEmpty))

/-- The write waits because of the enqueue gate (R12, R59): a write that also waits behind a numbered entry or for a merge
read is not reported (log 35). -/
def State.gateStalls (s : State) (ps : List Piece) : Bool :=
  s.piecesReady ps && !(decide (s.freshCount ps = 0) || s.gateAdmits (s.freshCount ps))

/-- The close trigger of an accepted piece (R12, R116). -/
def State.pieceTrigger (s : State) (p : Piece) : State :=
  match p.tag with
  | none => s
  | some t => if p.busLine = (s.window t.window).last then s.closeTrigger t else s

/-! ### The slot handed to a program (R62, R77) -/

/-- The OPEN block's next free slot moves one place on. -/
def State.handOverSlot (s : State) (x : Slot) : State :=
  s.setBlock x.block { s.block x.block with nextFree := x.slot + 1 }

/-! ### Issue (R61, R63) -/

/-- The head of the queue. -/
def State.head (s : State) : Option QEntry := s.queue.entries.head?

/-- The head is an unnumbered LINE entry and the origin sequence gives no further value (R31, R61). -/
def State.headUnnumberable (s : State) : Bool :=
  match s.head with
  | some (.line e) => e.origin.isNone && atLast s.queue.nextOrigin
  | some (.commit _) => false
  | none => false

/-- A head that could be issued if it had a slot: PENDING, and numberable (R61). -/
def State.headReady (s : State) : Bool :=
  match s.head with
  | some q => !q.programming && !s.headUnnumberable
  | none => false

/-- A LINE entry as its issue leaves it (R63). -/
def LineEntry.issued (e : LineEntry) (origin : Nat) (x : Slot) : LineEntry :=
  { e with state := .programming, origin := some (e.origin.getD origin), target := some x }

/-- A COMMIT entry as its issue leaves it (R63). -/
def CommitEntry.issued (e : CommitEntry) (x : Slot) : CommitEntry := { e with state := .programming, target := some x }

/-- The record an issued LINE entry programs (R63). -/
def LineEntry.record (e : LineEntry) : Record :=
  match e.tag with
  | none => plainRecord e.line (e.origin.getD 0) e.image
  | some t => tentativeRecord t e.line (e.origin.getD 0) e.image

/-- The record a COMMIT entry programs (R63). -/
def CommitEntry.record (e : CommitEntry) : Record := commitRecord { window := e.window, group := e.group }

/-- An operation as its grant makes it: with the uncertain flag set it begins with STATUS (R103). -/
def State.startOp (s : State) (p : Purpose) (b o len : Nat) (bytes : List Byte) : State :=
  { s with array := { s.array with
      op := some { purpose := p, block := b, offset := o, length := len, bytes := bytes, running := 0,
                   statusWait := s.array.uncertain, abandoned := false } } }

/-- A program of a record into a slot is started. -/
def State.startRecord (s : State) (p : Purpose) (x : Slot) (bytes : List Byte) : State :=
  (s.handOverSlot x).startOp p x.block (slotOffset x.slot) Config.slotBytes bytes

/-- The head is issued into a slot (R63), for the queue or the drain controller. -/
def State.issueHead (s : State) (p : Purpose) (x : Slot) : State :=
  match s.queue.entries with
  | .line e :: qs =>
    let e' := e.issued s.queue.nextOrigin x
    let next := if e.origin.isNone then nextSequence s.queue.nextOrigin else s.queue.nextOrigin
    { s with queue := { s.queue with entries := .line e' :: qs, nextOrigin := next } }.startRecord p x e'.record.encode
  | .commit e :: qs =>
    let e' := e.issued x
    { s with queue := { s.queue with entries := .commit e' :: qs } }.startRecord p x e'.record.encode
  | [] => s

/-! ### The block manager's part in an outcome (R77, R87, R90) -/

/-- A block enters RETIRING from OPEN or FULL (R90); in any other state the request is taken as met. -/
def State.retireBlock (s : State) (b : Nat) : State :=
  let e := s.block b
  if e.state = .opened ∨ e.state = .full then
    let s1 := s.setBlock b { e with state := .retiring, nextFree := 0 }
    let s2 := { s1 with blocks := { s1.blocks with
                  retiring := s1.blocks.retiring ++ [b],
                  tailOwed := if e.state = BlockState.opened then none else s1.blocks.tailOwed } }
    (s2.raise .blockRetired).reportFault { faultOf .blockRetired with block := some b }
  else s

/-- A record program into block `b` passed: its consecutive verify failures return to 0 (R69, R86). -/
def State.blockPassed (s : State) (b : Nat) : State := s.setBlock b { s.block b with failures := 0 }

/-- A record program into block `b` failed: one more consecutive failure, and RETIRING at the third (R87, R90). -/
def State.blockFailed (s : State) (b : Nat) : State :=
  let e := s.block b
  let n := min (e.failures + 1) Config.blockFailures
  let s1 := s.setBlock b { e with failures := n }
  if Config.blockFailures ≤ n then s1.retireBlock b else s1

/-- After the outcome of a program into slot 84 the still OPEN block is owed its tail mark, at the rank of the requester
whose program used the slot, or the drain's while the mode is DRAIN (R77). -/
def State.oweTailMark (s : State) (x : Slot) (r : Requester) : State :=
  if x.slot = Config.lastSlot ∧ (s.block x.block).state = BlockState.opened then
    { s with blocks := { s.blocks with tailOwed := some (if s.mgmt.mode = .drain then .drain else r) } }
  else s

/-! ### Claims on the table (R45, R47) -/

/-- A shadow entry of the line takes an untagged completion's slot (R114). -/
def ShadowEntry.takePlain (line : Nat) (x : Slot) (e : ShadowEntry) : ShadowEntry :=
  if e.line = line then { e with committed := some x, committedGroup := none } else e

/-- The group a program completion installs (R45). -/
def tagRef (tag : Option Tag) : Option GroupRef := tag.map fun t => .openIn t.window

/-- A program completion of a LINE entry into slot `x` (R45). -/
def State.programCompletion (s : State) (line : Nat) (tag : Option Tag) (x : Slot) : State :=
  let s1 := s.setEntry line { current := some x, group := tagRef tag, checkFailed := false }
  match tag with
  | some _ => s1
  | none => { s1 with windows := { s1.windows with shadow := s1.windows.shadow.map (ShadowEntry.takePlain line x) } }

/-- A table entry under a copy completion (R47). -/
def TableEntry.takeCopy (src dst : Slot) (plain failed : Bool) (e : TableEntry) : TableEntry :=
  if e.current = some src then
    { current := some dst, group := if plain then none else e.group, checkFailed := e.checkFailed || failed }
  else e

/-- A shadow entry under a copy completion (R114). -/
def ShadowEntry.takeCopy (src dst : Slot) (plain : Bool) (e : ShadowEntry) : ShadowEntry :=
  if e.committed = some src then
    { e with committed := some dst, committedGroup := if plain then none else e.committedGroup }
  else e

/-- A register entry under a copy completion (R86). -/
def RegEntry.takeCopy (src dst : Slot) : RegEntry → RegEntry
  | .committed w g x => .committed w g (if x = src then dst else x)
  | .reserved w g => .reserved w g
  | .free => .free

/-- A merge image stays valid when the table names its slot's copy (R58). -/
def Piece.takeCopy (src dst : Slot) (p : Piece) : Piece :=
  { p with merge := p.merge.map fun m => if m.slot = src then { m with slot := dst } else m }

/-- A copy completion taken by the three holders in one event (R86, R47). -/
def State.copyCompletion (s : State) (src dst : Slot) (plain failed : Bool) : State :=
  { s with
    table := s.table.map fun (c : Nat × TableEntry) => (c.1, c.2.takeCopy src dst plain failed),
    windows := { s.windows with
      shadow := s.windows.shadow.map (ShadowEntry.takeCopy src dst plain),
      register := s.windows.register.map (RegEntry.takeCopy src dst) },
    port := { s.port with
      request := s.port.request.map fun (r : Request) => { r with pieces := r.pieces.map (Piece.takeCopy src dst) } } }

/-! ### Outcomes (R64 to R70) -/

/-- A marked entry left by a discard: the command whose SYNC step marked it is told (R71). -/
def State.noteDiscard (s : State) (marked : Bool) : State :=
  if marked then
    match s.mgmt.command with
    | .active (.sync _) => s.hold (.sync true)
    | .active (.svce _) => s.hold (.svce true)
    | .active (.rsts _) => s.hold (.rsts true)
    | .active (.append _ _ _) => s
    | .active (.wipe _ _) => s
    | .zero => s
    | .unkn => s
  else s

/-- The entries behind the head. -/
def State.dropHead (s : State) : State := { s with queue := { s.queue with entries := s.queue.entries.tail } }

/-- The head replaced. -/
def State.setHead (s : State) (q : QEntry) : State :=
  { s with queue := { s.queue with entries := q :: s.queue.entries.tail } }

/-- The attempts in current block after a failure in block `b` (R67 step 1). -/
def countBlock (last : Option Nat) (n b : Nat) : Nat := if last = some b then n + 1 else 1

/-- A LINE entry returned to PENDING after a failed attempt in block `b` (R67). -/
def LineEntry.failed (e : LineEntry) (b : Nat) : LineEntry :=
  { e with state := .pending, target := none, attempts := e.attempts + 1,
           blockAttempts := countBlock e.lastBlock e.blockAttempts b, lastBlock := some b }

/-- A COMMIT entry returned to PENDING after a failed attempt in block `b` (R67). -/
def CommitEntry.failed (e : CommitEntry) (b : Nat) : CommitEntry :=
  { e with state := .pending, target := none, attempts := e.attempts + 1,
           blockAttempts := countBlock e.lastBlock e.blockAttempts b, lastBlock := some b }

/-- Steps 2 and 3 of R67 for a failed program into block `b` with `n` attempts in it: the block manager, the health
counter for a Fail, and the retirement request. -/
def State.failedProgram (s : State) (b n : Nat) (res : ProgResult) : State :=
  let s1 := s.blockFailed b
  let s2 := if res = .fail then s1.report .program else s1
  if Config.blockFailures ≤ n then s2.retireBlock b else s2

/-- The window of a tag. -/
def tagWindow (tag : Option Tag) : Option Nat := tag.map (·.window)

/-- The queue takes the outcome of its program of a LINE entry (R65, R67, R68, R70). A dropped entry's Timeout leaves the
block's consecutive failures as they are (log 49). -/
def State.lineOutcome (s : State) (e : LineEntry) (x : Slot) (res : ProgResult) : State :=
  if e.dropped then
    match res with
    | .pass => s.dropHead.blockPassed x.block
    | .fail => (s.dropHead.blockFailed x.block).report .program
    | .timeout => s.dropHead
  else
    match res with
    | .pass => (s.dropHead.programCompletion e.line e.tag x).blockPassed x.block
    | .fail | .timeout =>
      let e' := e.failed x.block
      let s1 := s.failedProgram x.block e'.blockAttempts res
      if e'.attempts < Config.programAttempts then s1.setHead (.line e')
      else
        (s1.dropHead.noteDiscard e.syncMark).reportFault
          { faultOf .programFail with line := some e.line, block := some x.block, slot := some x.slot,
                                      window := tagWindow e.tag }

/-- The queue takes the outcome of its program of a COMMIT entry (R66, R67, R68). -/
def State.commitOutcome (s : State) (e : CommitEntry) (x : Slot) (res : ProgResult) : State :=
  match res with
  | .pass => (s.dropHead.blockPassed x.block).commitCompletion e.window e.group e.register x
  | .fail | .timeout =>
    let e' := e.failed x.block
    let s1 := s.failedProgram x.block e'.blockAttempts res
    if e'.attempts < Config.programAttempts then s1.setHead (.commit e')
    else
      ((s1.dropHead.noteDiscard e.syncMark).reportFault
        { faultOf .programFail with block := some x.block, slot := some x.slot, window := some e.window }).lostCommit
          e.window

/-- The outcome of a queue program into slot `x` is taken for the PROGRAMMING head (R64). -/
def State.queueOutcome (s : State) (x : Slot) (res : ProgResult) : State :=
  match s.queue.entries with
  | .line e :: _ => (s.lineOutcome e x res).oweTailMark x .queue
  | .commit e :: _ => (s.commitOutcome e x res).oweTailMark x .queue
  | [] => s

/-! ### SYNC (R71) -/

/-- Every entry held, and every waiting COMMIT request, is marked (R71). -/
def State.markAll (s : State) : State :=
  { s with queue := { s.queue with
      entries := s.queue.entries.map fun q =>
        match q with
        | .line e => .line { e with syncMark := true }
        | .commit e => .commit { e with syncMark := true },
      requests := s.queue.requests.map fun r => { r with syncMark := true } } }

/-- A marked entry remains in the queue. -/
def State.marksRemain (s : State) : Bool := s.queue.entries.any QEntry.marked

/-- A marked COMMIT request has yet to be appended (R71, log 17). -/
def State.marksOwed (s : State) : Bool := s.queue.requests.any (·.syncMark)

/-- The opening field program of a block is in flight (R76). -/
def State.opening (s : State) : Bool :=
  match s.array.op with
  | some o =>
    match o.purpose with
    | .opening _ => true
    | .readPiece _ | .mergeRead _ | .relocRead _ | .copyProgram _ | .mountRead | .queueProgram | .drainProgram
    | .tailMark | .retireMark | .eraseMark | .markRead | .settings | .mountHeader | .mountTail | .block0Header
    | .block0Record | .wipeRead => false
  | none => false

/-- The head needs a target slot while no OPEN block has one left and the block sequence counter is at its last value, so
that no block can be opened (R71). -/
def State.headUnplaceable (s : State) : Bool :=
  s.headReady && s.nextSlot.isNone && atLast s.blocks.nextSeq && !s.opening

/-- A marked entry cannot be issued, because a counter is at its last value (R71). -/
def State.syncBlocked (s : State) : Bool :=
  (atLast s.queue.nextOrigin && s.queue.entries.any fun q =>
      match q with
      | .line e => e.syncMark && e.origin.isNone
      | .commit _ => false)
    || (s.headUnplaceable && (s.head.map QEntry.marked).getD false)

/-- The SYNC step of SVCE and RSTS is over: no marked entry remains, or the marked entries that remain cannot be issued
(R183, R185). -/
def State.syncStepOver (s : State) : Bool :=
  !s.marksRemain || s.headUnnumberable || s.headUnplaceable

end Sys2Proof.Machine
end

