-- ==== Sys2Proof/Machine/Blocks.lean ====
section
/-! DEFINITION. The block manager: openings and tail marks (R76, R77), victim choice (R79, R80), relocation sources and
copies (R82 to R87), retirement (R91), the group release job (R92). -/

namespace Sys2Proof.Machine

/-! ### Openings (R76) -/

/-- Between two blocks the one with the lower erase count, the lower number on a tie (R76). -/
def lessWorn (s : State) (a b : Nat) : Bool :=
  decide ((s.block a).eraseCount < (s.block b).eraseCount)
    || (decide ((s.block a).eraseCount = (s.block b).eraseCount) && decide (a < b))

/-- The least worn of a list of blocks. -/
def leastWorn (s : State) : List Nat → Option Nat
  | [] => none
  | b :: bs =>
    match leastWorn s bs with
    | none => some b
    | some c => if lessWorn s c b then some c else some b

/-- The ERASED block an opening takes (R76). -/
def State.blockToOpen (s : State) : Option Nat :=
  leastWorn s ((s.blocks.table.filter fun c => decide (c.2.state = BlockState.erased)).map (·.1))

/-- The gate of an opening for a requester (R76). -/
def State.gateHolds (s : State) : Requester → Bool
  | .queue => s.canOpen Config.hostGate
  | .drain => s.canOpen 1
  | .job _ | .priorityRelease =>
    s.canOpen Config.relocationGate && decide (s.queue.entries.length + 1 ≤ s.freeSlots)

/-- The opening field program of the block chosen is issued: the block takes the next block sequence (R76, R33). It serves
an opening that the drain had requested and that waited under WP# (R159): none waits any more (log 65). -/
def State.startOpening (s : State) (r : Requester) : State :=
  match s.blockToOpen with
  | none => s
  | some b =>
    let s1 := s.setBlock b { s.block b with blockSeq := some s.blocks.nextSeq }
    let s2 := { s1 with blocks := { s1.blocks with nextSeq := nextSequence s.blocks.nextSeq, drainOpening := false } }
    s2.startOp (.opening r) b 16 16
      (openingField s.blocks.nextSeq (floorOf s.queue.nextOrigin) (floorOf s.windows.nextGroup))

/-- The outcome of an opening field program for block `b` (R76). Slot 1 is not kept for the requester: the next record
program granted takes it (log 50). -/
def State.openingOutcome (s : State) (b : Nat) (res : ProgResult) : State :=
  match res with
  | .pass => s.setBlock b { s.block b with state := .opened, nextFree := 1, failures := 0 }
  | .fail => (s.setBlock b { s.block b with state := .full, nextFree := 0 }).report .program
  | .timeout => s.setBlock b { s.block b with state := .full, nextFree := 0 }

/-! ### Tail marks (R77) -/

/-- The tail mark program of the OPEN block is issued. -/
def State.startTailMark (s : State) : State :=
  match s.openBlock with
  | none => s
  | some b => s.startOp .tailMark b Config.tailOffset 16 (tailMarkBytes ((s.block b).blockSeq.getD 0))

/-- A tail mark program ended: the block is FULL whatever the outcome (R77); a Fail is reported (R164). -/
def State.tailOutcome (s : State) (b : Nat) (res : ProgResult) : State :=
  let s1 := s.setBlock b { s.block b with state := .full, nextFree := 0 }
  let s2 := { s1 with blocks := { s1.blocks with tailOwed := none } }
  if res = .fail then s2.report .program else s2

/-! ### Victim choice (R78 to R80) -/

/-- The highest block sequence present in the block table (R79). -/
def State.highestSeq (s : State) : Nat :=
  s.blocks.table.foldl (fun acc c => max acc (c.2.blockSeq.getD 0)) 0

/-- The block's opening field is valid (R22, R23). -/
def State.openingValid (s : State) (b : Nat) : Bool := (parseOpening (flashRead s.flash (flashAddr b 16) 16)).isSome

/-- The block holds the highest block sequence among the blocks with a valid opening field (R33, log 36). -/
def State.newestOpened (s : State) (b : Nat) : Bool :=
  s.openingValid b
    && !(s.blocks.table.any fun c =>
          decide ((s.block b).blockSeq.getD 0 < c.2.blockSeq.getD 0) && s.openingValid c.1)

/-- A FULL block that may be chosen (R79): the holder of the highest block sequence in the table may not, nor the holder of
the highest one among the valid opening fields (R33). -/
def State.candidate (s : State) (b : Nat) : Bool :=
  let e := s.block b
  decide (e.state = .full) && decide (s.liveCount b < Config.lastSlot)
    && !(e.blockSeq.isSome && decide (e.blockSeq = some s.highestSeq))
    && (decide (2 ≤ s.erasedCount) || decide (s.liveCount b ≤ s.openSlots)) && !s.newestOpened b

/-- The candidates, in rising order. -/
def State.candidates (s : State) : List Nat := dataBlocks.filter s.candidate

/-- The normal choice (R79): the fewest live records, then the lower erase count, then the lower number. -/
def State.normalChoice (s : State) : List Nat → Option Nat
  | [] => none
  | b :: bs =>
    match State.normalChoice s bs with
    | none => some b
    | some c =>
      if s.liveCount c < s.liveCount b ∨ (s.liveCount c = s.liveCount b ∧ lessWorn s c b = true) then some c else some b

/-- The highest erase count among the data blocks not RETIRED (R80). -/
def State.highestWear (s : State) : Nat :=
  dataBlocks.foldl (fun acc b => if (s.block b).state = .retired then acc else max acc (s.block b).eraseCount) 0

/-- The victim of the next reclaim (R79, R80). -/
def State.chooseVictim (s : State) : Option Nat :=
  let cs := s.candidates
  if s.blocks.reclaimCounter = 63 then
    match leastWorn s cs with
    | some c => if (s.block c).eraseCount + Config.rotationSpread ≤ s.highestWear then some c else s.normalChoice cs
    | none => none
  else s.normalChoice cs

/-- Reclaim may start (R78). -/
def State.reclaimDue (s : State) : Bool :=
  s.blocks.victim.isNone && decide (s.erasedCount < Config.reclaimTarget) && s.mgmt.mode.working && !s.array.wp

/-- The reclaim counter moved one place on (R78). -/
def nextReclaim (n : Nat) : Nat := if n < 63 then n + 1 else 0

/-- A victim is chosen (R79). -/
def State.takeVictim (s : State) (b : Nat) : State :=
  let s1 := s.setBlock b { s.block b with state := .victim }
  { s1 with blocks := { s1.blocks with victim := some b, reclaimCounter := nextReclaim s1.blocks.reclaimCounter } }

/-! ### Relocation sources (R82, R92) -/

/-- The copy a job has in hand. -/
def State.copyOf (s : State) : JobKind → Option CopyWork
  | .reclaim => s.blocks.reclaimCopy
  | .retirement => s.blocks.retireCopy
  | .release => s.blocks.release.bind (·.copy)

/-- The copy a job has in hand, replaced. -/
def State.setCopy (s : State) (k : JobKind) (c : Option CopyWork) : State :=
  match k with
  | .reclaim => { s with blocks := { s.blocks with reclaimCopy := c } }
  | .retirement => { s with blocks := { s.blocks with retireCopy := c } }
  | .release =>
    { s with blocks := { s.blocks with release := s.blocks.release.map fun (j : ReleaseJob) => { j with copy := c } } }

/-- The slots of a release job for register entry `i` (R92): those of table entries in rising line order, then the
committed slots of shadow entries in creation order. -/
def State.releaseSources (s : State) (i : Nat) : List Slot :=
  (s.table.filter fun c => decide (c.2.group = some (.register i))).filterMap (·.2.current)
    ++ (s.windows.shadow.filter fun e => decide (e.committedGroup = some i)).filterMap (·.committed)

/-- The next source of a job (R82, R92): for a retirement, in the first RETIRING block that holds a live record (R91). -/
def State.nextSource (s : State) : JobKind → Option Slot
  | .reclaim =>
    match s.blocks.victim with
    | some b => if (s.block b).state = .victim then lowestSlot (s.liveSlots b) else none
    | none => none
  | .retirement =>
    (s.blocks.retiring.find? fun b => decide (0 < s.liveCount b)).bind fun b => lowestSlot (s.liveSlots b)
  | .release =>
    match s.blocks.release with
    | some j => (s.releaseSources j.register).head?
    | none => none

/-- The turn of rank 5 passes to the other job (R98). A copy of a release takes a turn whether the job is of background or of
priority, which is rank 3 (log 66). -/
def State.passTurn (s : State) (k : JobKind) : State :=
  match k with
  | .reclaim => { s with blocks := { s.blocks with releaseTurn := true } }
  | .release => { s with blocks := { s.blocks with releaseTurn := false } }
  | .retirement => s

/-- A job begins a copy: the turn of rank 5 is its own until that copy has ended, unless the other job has a copy in hand
(R98, log 39: a copy counts its read and its program); so does a release of priority (log 66). -/
def State.takeTurn (s : State) (k : JobKind) : State :=
  match k with
  | .reclaim => if (s.copyOf .release).isSome then s else s.passTurn .release
  | .release => if (s.copyOf .reclaim).isSome then s else s.passTurn .reclaim
  | .retirement => s

/-- A relocation read is issued (R82). -/
def State.startRelocRead (s : State) (k : JobKind) (x : Slot) : State :=
  ((s.takeTurn k).setCopy k (some { source := x, stage := .reading, bytes := [], failed := false, built := none })).startOp
    (.relocRead k) x.block (slotOffset x.slot) Config.slotBytes []

/-! ### The test of a source (R82) -/

/-- The store line under which the table, or else a shadow entry, names a slot. -/
def State.lineNaming (s : State) (x : Slot) : Option Nat :=
  match (s.table.find? fun c => decide (c.2.current = some x)) with
  | some c => some c.1
  | none => (s.windows.shadow.find? fun e => decide (e.committed = some x)).map (·.line)

/-- The group whose COMMIT record a slot holds for the register. -/
def State.groupNaming (s : State) (x : Slot) : Option Tag :=
  s.windows.register.findSome? fun e =>
    match e with
    | .committed w g y => if y = x then some { window := w, group := g } else none
    | .reserved _ _ => none
    | .free => none

/-- A record read for store line `line` passes (R41). -/
def passesLine (bs : List Byte) (line : Nat) : Bool :=
  match parseRecord bs with
  | some r => decide (r.kind ≠ .commit) && decide (r.line = line)
  | none => false

/-- A record read for a register entry's group passes (R82). -/
def passesCommit (bs : List Byte) (t : Tag) : Bool :=
  match parseRecord bs with
  | some r => decide (r.kind = .commit) && decide (r.window = t.window) && decide (r.group = t.group)
  | none => false

/-- A live source as read passes its test (R82). -/
def State.sourcePasses (s : State) (x : Slot) (bs : List Byte) : Bool :=
  match s.lineNaming x with
  | some l => passesLine bs l
  | none =>
    match s.groupNaming x with
    | some t => passesCommit bs t
    | none => true

/-- A relocation read completed: the copy is held, with its failure carried (R82, R84); a source that has died meanwhile
is given up (R85), untested (log 57), which takes the job's turn (log 37). -/
def State.relocReadDone (s : State) (k : JobKind) (c : CopyWork) (bs : List Byte) : State :=
  if s.live c.source then
    let ok := s.sourcePasses c.source bs
    let s1 := s.setCopy k (some { c with stage := .held, bytes := bs, failed := !ok })
    if ok then s1
    else
      (s1.reportFault { faultOf .relocateCheck with line := s.lineNaming c.source, block := some c.source.block,
                                                    slot := some c.source.slot }).report .read
  else (s.setCopy k none).passTurn k

/-! ### Building and issuing a copy (R83, R84, R85) -/

/-- The group open in window `w`, if there is one: OPEN or COMMITTING (R83). -/
def State.openGroupOf (s : State) (w : Nat) : Option Nat :=
  match (s.window w).state with
  | .opened | .committing => (s.window w).group
  | .idle | .armed => none

/-- The copy of a source that passed its test (R83). -/
def State.soundCopy (s : State) (r : Record) : Record :=
  match r.kind with
  | .plain => plainRecord r.line r.origin r.data
  | .tentative =>
    if s.openGroupOf r.window = some r.group then
      tentativeRecord { window := r.window, group := r.group } r.line r.origin r.data
    else plainRecord r.line r.origin r.data
  | .commit => commitRecord { window := r.window, group := r.group }

/-- The origin a carried copy takes (R84). -/
def State.carriedOrigin (s : State) (bs : List Byte) : Nat :=
  let o := field bs 4 4
  if 1 ≤ o ∧ o < s.queue.nextOrigin then o else 1

/-- The copy of a source that failed its test: its fields come from the holder (R84). -/
def State.carriedCopy (s : State) (x : Slot) (bs : List Byte) : Record :=
  match (s.table.find? fun c => decide (c.2.current = some x)) with
  | some c =>
    match c.2.group with
    | some (.openIn w) =>
      tentativeRecord { window := w, group := (s.window w).group.getD 0 } c.1 (s.carriedOrigin bs) (dataField bs)
    | some (.register _) => plainRecord c.1 (s.carriedOrigin bs) (dataField bs)
    | none => plainRecord c.1 (s.carriedOrigin bs) (dataField bs)
  | none =>
    match s.lineNaming x with
    | some l => plainRecord l (s.carriedOrigin bs) (dataField bs)
    | none => commitRecord ((s.groupNaming x).getD { window := 0, group := 0 })

/-- The bytes of a copy at its issue; a retry takes the bytes built before (R87). -/
def State.copyBytes (s : State) (c : CopyWork) : List Byte :=
  match c.built with
  | some bs => bs
  | none =>
    if c.failed then (s.carriedCopy c.source c.bytes).encode
    else
      match parseRecord c.bytes with
      | some r => (s.soundCopy r).encode
      | none => (s.carriedCopy c.source c.bytes).encode

/-- A granted copy is issued, or given up when its source is no longer live (R85), which takes the job's turn (log 37). -/
def State.issueCopy (s : State) (k : JobKind) (x : Slot) : State :=
  match s.copyOf k with
  | none => s
  | some c =>
    if s.live c.source then
      let bs := s.copyBytes c
      (s.setCopy k (some { c with stage := .programming, built := some bs })).startRecord (.copyProgram k) x bs
    else (s.setCopy k none).passTurn k

/-- The kind a built copy was given. -/
def builtPlain (bs : List Byte) : Bool := bs.getD 0 0 == RecKind.plain.code

/-- The requester of a job's copies, as its tail mark's rank calls for (R77, R98). -/
def State.copyRequester (s : State) : JobKind → Requester
  | .release =>
    match s.blocks.release with
    | some j => if j.priority then .priorityRelease else .job .release
    | none => .job .release
  | .reclaim => .job .reclaim
  | .retirement => .job .retirement

/-- The outcome of a copy program into slot `x` (R86, R87). One that passes ends the job's turn of rank 5, a release's of
priority too (R98, log 66). -/
def State.copyOutcome (s : State) (k : JobKind) (x : Slot) (res : ProgResult) : State :=
  match s.copyOf k with
  | none => s
  | some c =>
    match res with
    | .pass =>
      ((((s.copyCompletion c.source x (builtPlain (c.built.getD [])) c.failed).blockPassed x.block).setCopy k
        none).passTurn k).oweTailMark x (s.copyRequester k)
    | .fail =>
      (((s.setCopy k (some { c with stage := .held })).blockFailed x.block).report .program).oweTailMark x
        (s.copyRequester k)
    | .timeout => ((s.setCopy k (some { c with stage := .held })).blockFailed x.block).oweTailMark x (s.copyRequester k)

/-! ### Retirement (R91) -/

/-- A copy still in hand for a block whose live count is 0 is given up (R82, R91). -/
def State.dropCopyOf (s : State) (b : Nat) : State :=
  { s with blocks := { s.blocks with retireCopy := s.blocks.retireCopy.filter fun c => !decide (c.source.block = b) } }

/-- The retire mark program of a RETIRING block is issued. -/
def State.startRetireMark (s : State) (b : Nat) : State :=
  (s.dropCopyOf b).startOp .retireMark b 32 8 retireMarkBytes

/-- The retire mark program of a RETIRING block ended: it is RETIRED whatever the outcome (R91); a Fail is reported
(R164). -/
def State.retireMarkOutcome (s : State) (b : Nat) (res : ProgResult) : State :=
  let s1 := s.setBlock b { s.block b with state := .retired, nextFree := 0 }
  let s2 := { s1 with blocks := { s1.blocks with retiring := s1.blocks.retiring.filter fun x => !decide (x = b) } }
  if res = .fail then s2.report .program else s2

end Sys2Proof.Machine
end

