-- ==== Sys2Proof/Machine/Modes.lean ====
section
/-! DEFINITION. The mode controller (R190, R191), the entry to MOUNT (R134, R185, R184), the beginning and end of a drain
(R154, R161, R162), the loss of the flash (R105, R160), and the ends of commands that complete later (R179, R183). -/

namespace Sys2Proof.Machine

/-- A mode is entered (R190). READONLY, DRAIN, SERVICE and HALTED are handed to the window unit first; MODE_CHANGE is
raised; the port takes its waiting write up afresh (R13). The entry to HALTED aborts open groups too, and with them their
PENDING entries leave the queue (R127, R190; log 48 on R72). -/
def State.setMode (s : State) (m : Mode) : State :=
  let s1 := match m with
    | .readonly | .drain | .service | .halted => s.stopWindows
    | .run | .mount => s
  ({ s1 with mgmt := { s1.mgmt with mode := m } }.raise .modeChange).wake

/-! ### Degrade conditions (R191) -/

/-- A degrade condition holds: fewer than 104 data blocks not RETIRED, or a counter at its last value (R191). -/
def State.degraded (s : State) : Bool :=
  decide (255 - s.retiredCount < Config.readonlyThreshold) || atLast s.queue.nextOrigin || atLast s.windows.nextGroup
    || atLast s.blocks.nextSeq

/-- A degrade condition is taken: READONLY from RUN, or as the drain's return mode (R191, R161). -/
def State.degrade (s : State) : State :=
  if s.degraded then
    match s.mgmt.mode with
    | .run => s.setMode .readonly
    | .drain => { s with drain := { s.drain with returnMode := some .readonly } }
    | .readonly | .mount | .service | .halted => s
  else s

/-! ### Settings appends (R179 to R182) -/

/-- The results of a settings command at its completion (R180, R181). -/
def State.appendResults (s : State) : Code → List Byte
  | .zlck => [s.mgmt.settings.locks]
  | .xchg =>
    [if s.mgmt.settings.exchange then 1 else 0, if s.mgmt.settings.exchange = s.port.exchange then 0 else 1]
  | .poly | .info | .sync | .warm | .wend | .wdrp | .wsta | .line | .blkq | .hcfg | .taly | .injt | .svce | .svcx
  | .wipe | .rsts | .fack => []

/-- A settings command completes; the port takes its waiting write up afresh (R179, R13). -/
def State.completeAppend (s : State) (c : Code) (r : Ret) : State := (s.complete r (s.appendResults c)).wake

/-- The outcome of a settings append's program (R179). -/
def State.appendOutcome (s : State) (c : Code) (new : Settings) (res : ProgResult) : State :=
  match res with
  | .pass => { s with mgmt := { s.mgmt with settings := new } }.completeAppend c .done
  | .fail => (s.report .program).completeAppend c .media
  | .timeout => s.completeAppend c .media

/-- The settings append's program is issued: the counter and the next settings slot move one place on (R179). A sequence
above 84, which a skipped preparation of block 0 makes possible, is programmed like any other (log 47). -/
def State.startAppend (s : State) (c : Code) (new : Settings) : State :=
  let n := s.mgmt.nextSettingsSlot
  { s with mgmt := { s.mgmt with
      nextSettingsSlot := n + 1, nextSettingsSeq := s.mgmt.nextSettingsSeq + 1,
      command := .active (.append c new true) } }.startOp .settings 0 (slotOffset n) Config.slotBytes new.encode

/-! ### The drain (R154, R161, R162) -/

/-- The commands in progress at the entry to DRAIN: SVCE ends with CUT (R183), an append waiting for its grant with MODE
(R179). -/
def State.drainCommands (s : State) : State :=
  match s.mgmt.command with
  | .active (.svce _) => (s.complete .cut []).wake
  | .active (.append c _ false) => s.completeAppend c .mode
  | .active (.append _ _ true) => s
  | .active (.sync _) => s
  | .active (.rsts _) => s
  | .active (.wipe _ _) => s
  | .zero => s
  | .unkn => s

/-- The drain begins (R154); a tail mark owed becomes the drain's (R77). -/
def State.beginDrain (s : State) : State :=
  let s1 := { s with drain := { s.drain with phase := .draining, returnMode := some s.mgmt.mode, releasePending := false } }
  let s2 := (s1.setMode .drain).drainCommands
  { s2 with blocks := { s2.blocks with tailOwed := s2.blocks.tailOwed.map fun _ => .drain } }

/-- The drain ends: the return mode is entered (R162). -/
def State.endDrain (s : State) : State :=
  let m := s.drain.returnMode.getD .run
  { s with drain := { s.drain with phase := .inactive, returnMode := none, releasePending := false } }.setMode m

/-- The queue is empty while DRAINING: DRAINED is reached, and the drain ends when its release is pending (R161, R162). -/
def State.reachDrained (s : State) : State :=
  let s1 := { s with drain := { s.drain with phase := .drained } }.raise .drainDone
  if s.drain.releasePending then s1.endDrain else s1

/-- A DRAIN_LOSS report (R157). -/
def lossReport (q : QEntry) (x : Option Slot) : FaultReport :=
  match q with
  | .line e => { faultOf .drainLoss with line := some e.line, window := tagWindow e.tag, block := x.map (·.block),
                                         slot := x.map (·.slot) }
  | .commit e => { faultOf .drainLoss with window := some e.window, block := x.map (·.block), slot := x.map (·.slot) }

/-- What a discarded entry leaves beside the queue: its mark noted, a lost COMMIT record taken, DRAIN_LOSS reported
(R157, R158). -/
def State.discardEffects (s : State) (q : QEntry) (x : Option Slot) : State :=
  let s1 := s.noteDiscard q.marked
  let s2 := match q with
    | .line _ => s1
    | .commit e => s1.lostCommit e.window
  s2.reportFault (lossReport q x)

/-- The drain cannot issue the head at all (R158). -/
def State.drainStuck (s : State) : Bool :=
  match s.head with
  | none => false
  | some q =>
    !q.programming
      && (s.headUnnumberable
          || (s.nextSlot.isNone && !s.opening && (decide (s.erasedCount = 0) || atLast s.blocks.nextSeq)))

/-- Heads that cannot be issued are discarded, one after another (R158). -/
def State.discardStuck (s : State) : Nat → State
  | 0 => s
  | n + 1 =>
    if s.drainStuck then
      match s.head with
      | some q => (s.dropHead.discardEffects q none).discardStuck n
      | none => s
    else s

/-- Under WP# every entry that is not PROGRAMMING is discarded, oldest first (R159). An opening that the head had asked for
is kept where WP# is asserted (`State.keepDrainOpening`, log 65). -/
def State.discardAll (s : State) : State :=
  let gone := s.queue.entries.filter fun q => !q.programming
  let s1 := { s with queue := { s.queue with entries := s.queue.entries.filter QEntry.programming } }
  gone.foldl (fun t q => t.discardEffects q none) s1

/-- What DRAINING brings about at once: discards, and DRAINED when the queue is empty (R158, R159, R161). Under WP# an entry
that its own queue program, in flight since before the drain, has left PENDING is discarded with the others (log 56). -/
def State.drainStep (s : State) : State :=
  if s.mgmt.mode = .drain ∧ s.drain.phase = .draining then
    let s1 := if s.array.wp then s.discardAll else s.discardStuck s.queue.entries.length
    if s1.queue.entries = [] then s1.reachDrained else s1
  else s

/-- The outcome of a drain program into slot `x` is taken for the head (R157). -/
def State.drainOutcome (s : State) (x : Slot) (res : ProgResult) : State :=
  match s.queue.entries with
  | .line e :: _ =>
    match res with
    | .pass => ((s.dropHead.programCompletion e.line e.tag x).blockPassed x.block).oweTailMark x .drain
    | .fail | .timeout =>
      (((s.failedProgram x.block (e.failed x.block).blockAttempts res).dropHead).discardEffects (.line e)
        (some x)).oweTailMark x .drain
  | .commit e :: _ =>
    match res with
    | .pass => ((s.dropHead.blockPassed x.block).commitCompletion e.window e.group e.register x).oweTailMark x .drain
    | .fail | .timeout =>
      (((s.failedProgram x.block (e.failed x.block).blockAttempts res).dropHead).discardEffects (.commit e)
        (some x)).oweTailMark x .drain
  | [] => s

/-! ### The loss of the flash (R105) -/

/-- The command in progress when HALTED is entered (R71, R179, R183, R185, R187). A WIPE that PFW# or WP# has already cut
completes with MEDIA, like one that has not, when its operation in flight loses the flash (log 63). -/
def State.haltCommand (s : State) : State :=
  match s.mgmt.command with
  | .active (.sync d) => s.complete (if d || s.marksRemain then .media else .done) []
  | .active (.svce _) => (s.complete .media []).wake
  | .active (.rsts _) => (s.complete .media []).wake
  | .active (.append c _ _) => s.completeAppend c .media
  | .active (.wipe _ _) => s.complete .media []
  | .zero => s
  | .unkn => s

/-- HALTED is entered outside MOUNT: a drain ends without finishing (R160), the command in progress ends. -/
def State.enterHalted (s : State) : State :=
  let s1 := { s with drain := { s.drain with phase := .inactive, returnMode := none, releasePending := false } }
  (s1.setMode .halted).haltCommand

/-- The flash is lost at the third consecutive Timeout (R105); in MOUNT the mount engine ends mount (R136). -/
def State.loseFlash (s : State) (block slot : Option Nat) : State :=
  let s0 := s.reportFault { faultOf .flashLost with block := block, slot := slot }
  let s1 := { s0 with array := { s0.array with op := none, erase := none } }
  match s1.mgmt.mode with
  | .mount =>
    { s1 with mount := s1.mount.map fun (m : Mount) => { m with flashLost := true, step := .ended, repairs := [] } }
  | .run | .readonly | .drain | .service => s1.enterHalted
  | .halted => s1

/-! ### The entry to MOUNT (R134) -/

/-- A request that goes on waiting through MOUNT is served afresh afterwards (R15, R18). -/
def Request.restart (r : Request) : Request :=
  { r with phase := .checking, retake := true,
           pieces := r.pieces.map fun (p : Piece) => { p with tag := none, merge := none, result := none } }

/-- MOUNT is entered by RSTS, SVCX or the completion of WIPE: the volatile state is left as its chapters give for a soft
reset or service exit (R18, R51, R73, R94, R108, R133, R153), and mount begins without the strap (R135). -/
def State.enterMount (s : State) : State :=
  { s with
    port := { s.port with request := s.port.request.map Request.restart, exchange := false },
    table := [], queue := .reset, blocks := .reset, array := .reset s.array.wp, windows := .reset,
    mount := some (Mount.start false), drain := .reset s.drain.pfw,
    mgmt := { s.mgmt with mode := .mount } }.raise .modeChange

/-- The fault record is freed (R189, R185). -/
def State.freeFault (s : State) : State := { s with mgmt := { s.mgmt with fault := none, further := false } }

/-- Step 5 of RSTS (R185): events and fault record cleared, the health counter as R173, MOUNT entered, RSTS completed. -/
def State.softReset (s : State) (r : Ret) : State :=
  let s1 := { s with mgmt := { s.mgmt with events := 0 } }.freeFault
  let s2 := { s1 with health := { s1.health.restart with arm := .none } }
  s2.enterMount.complete r []

end Sys2Proof.Machine
end

