-- ==== Sys2Proof/Machine/Mount.lean ====
section
/-! DEFINITION. The mount engine: the scan of steps 1 to 3 (R137, R140, R142), the views of steps 4 to 8 (R143 to R147),
the repair list of step 9 (R138, R139, R147, R148, R150), and mount completion (R136, R151, R152). -/

namespace Sys2Proof.Machine

/-! ### The reads of steps 1 to 3 -/

/-- What the engine reads next in steps 1 to 3: block, offset, length (R137, R140, R142, log 6). -/
def MountStep.read : MountStep → Option (Nat × Nat × Nat)
  | .settings => some (0, 0, Config.blockBytes)
  | .header b => some (b, 0, Config.slotBytes)
  | .tail b => some (b, Config.tailOffset, 16)
  | .body b => some (b, 0, Config.blockBytes)
  | .slot b n => some (b, slotOffset n, Config.slotBytes)
  | .repairs => none
  | .ended => none

/-- The bytes of slot `n` in a block's bytes. -/
def slotBytesOf (bs : List Byte) (n : Nat) : List Byte := (bs.drop (slotOffset n)).take Config.slotBytes

/-- The record slots of a block (R19). -/
def recordSlots : List Nat := List.range' 1 84

/-- The valid settings record with the highest settings sequence in block 0's bytes (R137); of two with the same sequence
the one in the lower slot (log 40). -/
def bestSettings (bs : List Byte) : Option Settings :=
  recordSlots.foldl (fun acc n =>
    match parseSettings (slotBytesOf bs n) with
    | none => acc
    | some x =>
      match acc with
      | none => some x
      | some y => if y.seq < x.seq then some x else acc) none

/-- The highest non-blank slot of a block's bytes; 0 when every record slot is blank. -/
def highestSlot (bs : List Byte) : Nat :=
  recordSlots.foldl (fun acc n => if isBlank (slotBytesOf bs n) then acc else n) 0

/-- Step 1: what block 0 holds (R137). Without a record the next slot and the next sequence differ by one until the default
record has been programmed (log 47). -/
def Mount.takeSettings (m : Mount) (bs : List Byte) : Mount :=
  let m1 := { m with block0Count := (parseFirstPart (bs.take 16)).map (fun (p : Byte × Nat) => p.2), virgin := isBlank bs,
                     nextSlot := highestSlot bs + 1, step := .header 1 }
  match bestSettings bs with
  | some x => { m1 with settings := x, settingsFound := true, nextSeq := x.seq + 1 }
  | none => { m1 with settings := .default, settingsFound := false, nextSeq := 2 }

/-- The first FULL or unfinished block above `b` (R142). -/
def nextScanned (scans : List BlockScan) (b : Nat) : Option Nat :=
  (scans.find? fun x => decide (b < x.block) && (decide (x.cls = .full) || decide (x.cls = .unfinished))).map (·.block)

/-- The engine goes on to the next slot or block to be read in step 3, or to the repairs. -/
def Mount.afterBlock (m : Mount) (b : Nat) : Mount :=
  match nextScanned m.scans b with
  | some c => { m with step := .slot c 1 }
  | none => { m with step := .repairs }

/-- A block is classified (R140), and the next is read. -/
def Mount.classified (m : Mount) (x : BlockScan) (cls : BlockClass) : Mount :=
  let m1 := { m with candidate := none, scans := m.scans ++ [{ x with cls := cls }] }
  if x.block < 255 then { m1 with step := .header (x.block + 1) } else m1.afterBlock 0

/-- The header of block `b` is read (R140). The rows of the table go first: a block without a valid DATA first part has an
invalid header even when its opening field is valid (log 55). -/
def Mount.takeHeader (m : Mount) (b : Nat) (bs : List Byte) : Mount :=
  let first := parseFirstPart (bs.take 16)
  let opening := parseOpening ((bs.drop 16).take 16)
  let x : BlockScan :=
    { block := b, cls := .invalid, eraseCount := first.map (fun (p : Byte × Nat) => p.2), opening := opening, highest := 0 }
  if isBlank ((bs.drop 32).take 8) then
    match first with
    | none =>
      if isBlank (bs.take 16) && m.virgin then { m with candidate := some x, step := .body b }
      else m.classified x .invalid
    | some (kind, _) =>
      if kind = kindSettings then m.classified x .invalid
      else
        match opening with
        | some _ => { m with candidate := some x, step := .tail b }
        | none =>
          if isBlank ((bs.drop 16).take 16) then { m with candidate := some x, step := .body b }
          else m.classified x .invalid
  else m.classified x .retired

/-- The tail mark area of the candidate is read (R140). -/
def Mount.takeTail (m : Mount) (bs : List Byte) : Mount :=
  match m.candidate with
  | some x => m.classified x (if isBlank bs then .unfinished else .full)
  | none => m

/-- The whole of the candidate is read: a virgin block, an ERASED candidate (R138, R140). -/
def Mount.takeBody (m : Mount) (bs : List Byte) : Mount :=
  match m.candidate with
  | some x =>
    match x.eraseCount with
    | none => m.classified x (if isBlank bs then .virgin else .invalid)
    | some _ => m.classified x (if isBlank (bs.drop 16) then .erased else .invalid)
  | none => m

/-- What the collection keeps of a record (R142). -/
def recInfo (b seq n : Nat) (r : Record) : RecInfo :=
  { block := b, blockSeq := seq, slot := n, kind := r.kind, window := r.window, line := r.line, origin := r.origin,
    group := r.group }

/-- A slot is read in step 3 (R142). -/
def Mount.takeSlot (m : Mount) (b n : Nat) (bs : List Byte) : Mount :=
  let seq := ((m.scans.find? fun x => decide (x.block = b)).bind (·.opening)).map (·.1) |>.getD 0
  let m1 :=
    if isBlank bs then m
    else { m with scans := m.scans.map fun (x : BlockScan) => if x.block = b then { x with highest := n } else x }
  let m2 := match parseRecord bs with
    | some r => { m1 with records := m1.records ++ [recInfo b seq n r] }
    | none => m1
  if n < Config.lastSlot then { m2 with step := .slot b (n + 1) } else m2.afterBlock b

/-! ### Steps 4 to 7: views of the collection -/

/-- The maximum of a list. -/
def maxOf (xs : List Nat) : Nat := xs.foldl max 0

/-- The highest valid erase count found among the data blocks, or 0 (R141). -/
def Mount.highestCount (m : Mount) : Nat := maxOf (m.scans.map fun x => x.eraseCount.getD 0)

/-- The erase count of a block as mount finds it (R141); a virgin block has 0 (R138). -/
def Mount.countOf (m : Mount) (x : BlockScan) : Nat :=
  if x.cls = .virgin then 0 else x.eraseCount.getD m.highestCount

/-- The scan of a block. -/
def Mount.scanOf (m : Mount) (b : Nat) : Option BlockScan := m.scans.find? fun x => decide (x.block = b)

/-- The erase count of block `b` before an erase (R141). -/
def Mount.countBefore (m : Mount) (b : Nat) : Nat := ((m.scanOf b).map m.countOf).getD 0

/-- The group of a record. -/
def RecInfo.tag (r : RecInfo) : Tag := { window := r.window, group := r.group }

/-- The slot of a record. -/
def RecInfo.at (r : RecInfo) : Slot := { block := r.block, slot := r.slot }

/-- The keys of the commit set (R142). -/
def commitKeys (rs : List RecInfo) : List Tag := (rs.filter fun r => decide (r.kind = .commit)).map RecInfo.tag

/-- Of two copies, the one in the block with the higher block sequence, then the higher slot (R143). -/
def RecInfo.later (a b : RecInfo) : Bool :=
  decide (b.blockSeq < a.blockSeq) || (decide (a.blockSeq = b.blockSeq) && decide (b.slot < a.slot))

/-- Of two accepted candidates of a line, the one with the higher origin, then the later copy (R143). -/
def RecInfo.beats (a b : RecInfo) : Bool :=
  decide (b.origin < a.origin) || (decide (a.origin = b.origin) && a.later b)

/-- An accepted candidate (R143): PLAIN, or TENTATIVE of an allowed group. -/
def RecInfo.accepted (allowed : List Tag) (r : RecInfo) : Bool :=
  match r.kind with
  | .plain => true
  | .tentative => allowed.contains r.tag
  | .commit => false

/-- One record taken into the resolution. -/
def addWinner (ws : Sparse (Option RecInfo)) (r : RecInfo) : Sparse (Option RecInfo) :=
  match Sparse.get none ws r.line with
  | none => Sparse.set none ws r.line (some r)
  | some q => if r.beats q then Sparse.set none ws r.line (some r) else ws

/-- The winner of each store line (R143). -/
def resolve (rs : List RecInfo) (allowed : List Tag) : Sparse (Option RecInfo) :=
  (rs.filter (RecInfo.accepted allowed)).foldl addWinner []

/-- A tag put into a list in rising order of group sequence, without repeats. -/
def insertTag (t : Tag) : List Tag → List Tag
  | [] => [t]
  | u :: us => if t = u then u :: us else if t.group < u.group then t :: u :: us else u :: insertTag t us

/-- The qualifying groups, in rising group sequence (R144): those with a winning TENTATIVE record. -/
def qualifying (ws : Sparse (Option RecInfo)) : List Tag :=
  (ws.filterMap (·.2)).foldl (fun acc r => if r.kind = .tentative then insertTag r.tag acc else acc) []

/-- The allowed groups after the removals of R144, with the number of removals. -/
def reduceGroups (rs : List RecInfo) : Nat → List Tag → Nat → List Tag × Nat
  | 0, allowed, n => (allowed, n)
  | fuel + 1, allowed, n =>
    match qualifying (resolve rs allowed) with
    | [] => (allowed, n)
    | t :: ts =>
      if ts.length < Config.registerPlaces then (allowed, n)
      else reduceGroups rs fuel (allowed.filter fun u => !decide (u = t)) (n + 1)

/-- The allowed groups (R144). -/
def Mount.allowed (m : Mount) : List Tag × Nat :=
  reduceGroups m.records m.records.length (commitKeys m.records) 0

/-- The winners (R143, R144). -/
def Mount.winners (m : Mount) : Sparse (Option RecInfo) := resolve m.records m.allowed.1

/-- The commit slot of a group: its COMMIT record in the block with the higher block sequence, then the higher slot
(R143). -/
def commitSlotOf (rs : List RecInfo) (t : Tag) : Option RecInfo :=
  (rs.filter fun r => decide (r.kind = .commit) && decide (r.tag = t)).foldl (fun acc r =>
    match acc with
    | none => some r
    | some q => if r.later q then some r else acc) none

/-- The group register of step 5 (R144). -/
def Mount.register (m : Mount) : List RegEntry :=
  let es := (qualifying m.winners).map fun t =>
    match commitSlotOf m.records t with
    | some r => RegEntry.committed t.window t.group r.at
    | none => RegEntry.free
  (es ++ List.replicate Config.registerPlaces RegEntry.free).take Config.registerPlaces

/-- The register index of a group. -/
def indexOf (t : Tag) : List Tag → Nat → Option Nat
  | [], _ => none
  | u :: us, i => if u = t then some i else indexOf t us (i + 1)

/-- The table entry of a winner (R49). -/
def loadEntry (groups : List Tag) (r : RecInfo) : TableEntry :=
  { current := some r.at, checkFailed := false,
    group := if r.kind = .tentative then (indexOf r.tag groups 0).map GroupRef.register else none }

/-- The table of the mount load (R49). -/
def Mount.table (m : Mount) : Sparse TableEntry :=
  m.winners.filterMap fun c => c.2.map fun r => (c.1, loadEntry (qualifying m.winners) r)

/-- A floor as a value found (R33, R146). -/
def floorFound (f : Nat) : Nat := if f = Config.maxSequence then f else f - 1

/-- The origin sequence counter recovered (R146). -/
def Mount.nextOrigin (m : Mount) : Nat :=
  max (maxOf (m.records.map (·.origin))) (maxOf (m.scans.map fun x => (x.opening.map fun o => floorFound o.2.1).getD 0)) + 1

/-- The group sequence counter recovered (R146). -/
def Mount.nextGroup (m : Mount) : Nat :=
  max (maxOf (m.records.map (·.group))) (maxOf (m.scans.map fun x => (x.opening.map fun o => floorFound o.2.2).getD 0)) + 1

/-- The block sequence counter recovered (R146). -/
def Mount.nextBlockSeq (m : Mount) : Nat := maxOf (m.scans.map fun x => (x.opening.map (·.1)).getD 0) + 1

/-! ### Step 8 (R147) -/

/-- The block sequence of a scanned block. -/
def BlockScan.seq (x : BlockScan) : Option Nat := x.opening.map (·.1)

/-- The unfinished block with the highest block sequence (R147). -/
def newestUnfinished : List BlockScan → Option BlockScan
  | [] => none
  | x :: xs =>
    match newestUnfinished xs with
    | none => if x.cls = .unfinished then some x else none
    | some y => if x.cls = .unfinished ∧ y.seq.getD 0 < x.seq.getD 0 then some x else some y

/-- The block that becomes OPEN, when it has a slot left (R147). -/
def Mount.openBlock (m : Mount) : Option Nat :=
  match newestUnfinished m.scans with
  | some x => if x.highest < Config.lastSlot then some x.block else none
  | none => none

/-! ### The repair list (R148) -/

/-- The blocks of a class, in rising order. -/
def Mount.blocksOf (m : Mount) (c : BlockClass) : List Nat :=
  (m.scans.filter fun x => decide (x.cls = c)).map (·.block)

/-- The repair of block 0 that step 1 called for (R137). -/
def Mount.block0Repairs (m : Mount) : List Repair :=
  if m.settingsFound then [] else if m.virgin then [.prepareBlock0] else [.repairBlock0]

/-- The repair list in the order of R148. -/
def Mount.repairList (m : Mount) : List Repair :=
  (m.blocksOf .virgin).map Repair.virginHeader ++ (m.blocksOf .invalid).map Repair.eraseBlock
    ++ ((m.blocksOf .unfinished).filter fun b => !decide (m.openBlock = some b)).map Repair.tailMark ++ m.block0Repairs

/-- A repair erase added to the list in rising block number, behind the virgin headers (R138, R148). -/
def addErase (b : Nat) : List Repair → List Repair
  | [] => [.eraseBlock b]
  | .virginHeader c :: rs => .virginHeader c :: addErase b rs
  | .eraseBlock c :: rs => if c < b then .eraseBlock c :: addErase b rs else .eraseBlock b :: .eraseBlock c :: rs
  | .tailMark c :: rs => .eraseBlock b :: .tailMark c :: rs
  | .prepareBlock0 :: rs => .eraseBlock b :: .prepareBlock0 :: rs
  | .repairBlock0 :: rs => .eraseBlock b :: .repairBlock0 :: rs

/-- Steps 4 to 8 end with the repair list made; a group removed by R144 is a repair made. -/
def Mount.beginRepairs (m : Mount) : Mount :=
  { m with repairs := m.repairList, repairMade := m.repairMade || decide (0 < m.allowed.2) }

/-- A read of the scan is taken (R134 to R142). -/
def Mount.takeRead (m : Mount) (bs : List Byte) : Mount :=
  let m1 := match m.step with
    | .settings => m.takeSettings bs
    | .header b => m.takeHeader b bs
    | .tail _ => m.takeTail bs
    | .body _ => m.takeBody bs
    | .slot b n => m.takeSlot b n bs
    | .repairs => m
    | .ended => m
  if m.step ≠ .repairs ∧ m1.step = .repairs then m1.beginRepairs else m1

/-- The scan read is taken by the machine: step 1 reports SETTINGS_LOST when it finds the settings lost (R139). -/
def State.takeScan (s : State) (m : Mount) (bs : List Byte) : State :=
  let m1 := m.takeRead bs
  let s1 := { s with mount := some m1 }
  if m.step = .settings ∧ m1.settingsFound = false ∧ m1.virgin = false then
    s1.reportFault { faultOf .settingsLost with block := some 0 }
  else s1

/-! ### Results of step 9 -/

/-- The engine's state changed. -/
def State.withMount (s : State) (f : Mount → Mount) : State := { s with mount := s.mount.map f }

/-- Block `b` leaves step 9 with this block table entry. -/
def Mount.settle (b : Nat) (e : BlockEntry) (m : Mount) : Mount :=
  { m with results := Sparse.set BlockEntry.unknown m.results b e }

/-- An entry with a state and an erase count alone. -/
def bareEntry (st : BlockState) (count : Nat) : BlockEntry :=
  { state := st, eraseCount := count, blockSeq := none, nextFree := 0, failures := 0 }

/-- What a skipped write leaves (R150). -/
def Mount.skip (m : Mount) : Repair → Mount
  | .virginHeader b => m.settle b (bareEntry .full 0)
  | .eraseBlock b => m.settle b (bareEntry .full (m.countBefore b))
  | .tailMark _ => m
  | .prepareBlock0 => m
  | .repairBlock0 => m

/-- Every remaining write is skipped (R150). -/
def Mount.skipAll (m : Mount) : Mount :=
  let m1 := m.repairs.foldl Mount.skip m
  { m1 with repairs := [] }

/-- The settings after the default record has been programmed (R138, R139). -/
def Mount.formatted (m : Mount) : Mount := { m with settings := .default, nextSeq := 2, nextSlot := 2 }

/-! ### Mount completion (R136, R145, R151, R152) -/

/-- The block table entry of a scanned block (R145, R147), step 9 apart. -/
def Mount.classEntry (m : Mount) (x : BlockScan) : BlockEntry :=
  let n := m.countOf x
  match x.cls with
  | .retired => { bareEntry .retired n with blockSeq := x.seq }
  | .erased => bareEntry .erased n
  | .full => { bareEntry .full n with blockSeq := x.seq }
  | .unfinished =>
    if m.openBlock = some x.block then { bareEntry .opened n with blockSeq := x.seq, nextFree := x.highest + 1 }
    else { bareEntry .full n with blockSeq := x.seq }
  | .invalid => bareEntry .full n
  | .virgin => bareEntry .full n

/-- The entry of a block when the flash was lost (R136). A block without a valid first part takes the highest count among
the blocks classified before the loss (R141, log 68). -/
def Mount.lostEntry (m : Mount) (x : BlockScan) : BlockEntry :=
  let n := m.countOf x
  match x.cls with
  | .retired => { bareEntry .retired n with blockSeq := x.seq }
  | .erased => bareEntry .erased n
  | .full => { bareEntry .full n with blockSeq := x.seq }
  | .unfinished => { bareEntry .full n with blockSeq := x.seq }
  | .invalid => bareEntry .full n
  | .virgin => bareEntry .full n

/-- The block table of step 6 and step 9 (R145, R148, R150). -/
def Mount.blockTable (m : Mount) : Sparse BlockEntry :=
  let t := m.scans.foldl (fun t x => Sparse.set BlockEntry.unknown t x.block (m.classEntry x)) []
  m.results.foldl (fun t c => Sparse.set BlockEntry.unknown t c.1 c.2) t

/-- The block table when the flash was lost (R136). -/
def Mount.lostTable (m : Mount) : Sparse BlockEntry :=
  m.scans.foldl (fun t x => Sparse.set BlockEntry.unknown t x.block (m.lostEntry x)) []

/-- Step 10 (R151), or its form after the loss of the flash (R136), of which the counters are the model's choice: those of the
settings and the next settings slot come from the engine like the settings, the others stay (log 19). -/
def State.installMount (s : State) (m : Mount) : State :=
  let s1 : State :=
    if m.flashLost then { s with blocks := { BlockManager.reset with table := m.lostTable } }
    else
      { s with
        table := m.table,
        queue := { WriteQueue.reset with nextOrigin := m.nextOrigin },
        blocks := { BlockManager.reset with table := m.blockTable, nextSeq := m.nextBlockSeq },
        windows := { WindowUnit.reset with register := m.register, nextGroup := m.nextGroup } }
  { s1 with
    port := { s1.port with exchange := m.settings.exchange },
    mgmt := { s1.mgmt with settings := m.settings, nextSettingsSeq := m.nextSeq, nextSettingsSlot := m.nextSlot } }

/-- A block whose header program is still held under WP# enters the table as ERASING, and its erase goes on as the block
manager's (R150). -/
def State.adoptHeldErase (s : State) : State :=
  match s.array.erase with
  | none => s
  | some j =>
    let s1 := s.setBlock j.block { s.block j.block with state := .erasing, blockSeq := none, nextFree := 0 }
    { s1 with array := { s1.array with erase := some { j with owner := .manager } } }

/-- The mode step 11 chooses, before PFW# is looked at (R152). -/
def State.chosenMode (s : State) (m : Mount) : Mode :=
  if m.flashLost || m.block0Unusable then .halted
  else if m.strap then .service
  else if s.degraded then .readonly
  else .run

/-- Steps 10 and 11, as one event (R151, R152). -/
def State.completeMount (s : State) (m : Mount) : State :=
  let s1 := (s.installMount m).adoptHeldErase
  let chosen := s1.chosenMode m
  let s2 := { s1 with mount := none }.raise .mounted
  let s3 := if m.repairMade then s2.raise .repaired else s2
  if s.drain.pfw ∧ chosen.working = true then
    let s4 := s3.setMode .drain
    ({ s4 with drain := { s4.drain with phase := .drained, returnMode := some chosen, releasePending := false } }).raise
      .drainDone
  else s3.setMode chosen

end Sys2Proof.Machine
end

