-- ==== Sys2Proof/Machine/Erase.lean ====
section
/-! DEFINITION. An erase and what follows its attempts (R88, R89, R99, R100, R106), for the block manager, mount repairs
(R138, R139, R148) and WIPE (R186, R187). -/

namespace Sys2Proof.Machine

/-- The part has the flash: in flight, or suspended (R95, R100). -/
def ErasePart.busy : ErasePart → Bool
  | .erasing | .suspending | .suspended | .finished | .blankCheck | .header => true
  | .waiting | .headerHeld | .markRead | .mark | .firstPart | .record => false

/-- An erase is in flight or suspended (R95). -/
def State.eraseBusy (s : State) : Bool :=
  match s.array.erase with
  | some j => j.part.busy
  | none => false

/-- The erase in hand replaced. -/
def State.setErase (s : State) (j : Option EraseJob) : State := { s with array := { s.array with erase := j } }

/-- An erase whose first attempt waits for its grant. -/
def newErase (owner : EraseOwner) (b count : Nat) : EraseJob :=
  { owner := owner, block := b, attempts := 0, newCount := count, part := .waiting, running := 0, clock := 0,
    suspends := 0, statusWait := false, virgin := false }

/-- The virgin preparation of block 0, which begins with its first part (R138). -/
def virginBlock0 : EraseJob := { newErase .mount 0 0 with part := .firstPart, virgin := true }

/-- An operation ended within its limits: the flash is free and the consecutive timeout count returns to 0 (R104). -/
def State.opEnded (s : State) : State := { s with array := { s.array with op := none, timeouts := 0 } }

/-- An erase operation ended within its limits (R104). -/
def State.eraseEnded (s : State) : State := { s with array := { s.array with timeouts := 0 } }

/-- The reclaim ends when its victim becomes ERASED or RETIRED (R78); its erase took its turn (R98). -/
def State.endReclaim (s : State) (b : Nat) : State :=
  if s.blocks.victim = some b then
    { s with blocks := { s.blocks with victim := none, reclaimCopy := none } }.passTurn .reclaim
  else s

/-- BLOCK_RETIRED is raised and reported with the block and no slot (R89). -/
def State.reportRetired (s : State) (b : Nat) : State :=
  (s.raise .blockRetired).reportFault { faultOf .blockRetired with block := some b }

/-- A data block's erase, blank check and header program passed (R88, R148, R186). -/
def State.eraseSucceeded (s : State) (j : EraseJob) : State :=
  let s1 := (s.eraseEnded).setErase none
  match j.owner with
  | .manager => (s1.setBlock j.block (bareEntry .erased j.newCount)).endReclaim j.block
  | .mount => s1.withMount (Mount.settle j.block (bareEntry .erased j.newCount))
  | .wipe => s1.setBlock j.block (bareEntry .erased j.newCount)

/-- The block as its third failed attempt leaves it: RETIRED, its counts kept (R89, R91). -/
def State.retireErased (s : State) (j : EraseJob) : State :=
  let s1 := s.setErase none
  let s2 := match j.owner with
    | .manager => (s1.setBlock j.block { s.block j.block with state := .retired, nextFree := 0 }).endReclaim j.block
    | .wipe => s1.setBlock j.block { s.block j.block with state := .retired, nextFree := 0 }
    | .mount => s1.withMount fun m => m.settle j.block (bareEntry .retired (m.countBefore j.block))
  s2.reportRetired j.block

/-- WIPE is in progress and PFW# or WP# has cut it (R187). -/
def State.wipeCut (s : State) : Bool :=
  match s.mgmt.command with
  | .active (.wipe _ cut) => cut
  | .active (.append _ _ _) | .active (.sync _) | .active (.svce _) | .active (.rsts _) | .zero | .unkn => false

/-- The third failed attempt on block 0: mount ends with block 0 unusable (R139), WIPE ends in HALTED (R187). A WIPE that
has been cut stays in SERVICE (log 45). -/
def State.block0Lost (s : State) (j : EraseJob) : State :=
  let s1 := s.setErase none
  match j.owner with
  | .mount => s1.withMount fun m => { m with block0Unusable := true, step := .ended, repairs := [] }
  | .wipe => if s.wipeCut then s1 else s1.enterHalted
  | .manager => s1

/-- The next attempt waits for its grant. -/
def EraseJob.again (j : EraseJob) (attempts : Nat) : EraseJob :=
  { j with attempts := attempts, part := .waiting, running := 0, clock := 0, suspends := 0, statusWait := false,
           virgin := false }

/-- What follows the third failed attempt on a data block: `mark` is what the blank check found of the retire mark area,
when it completed (R89). In DRAIN no retire mark is issued (R93) and the third failure retires the block at once (R155,
log 46). The mark, or the read of its area, is a request of rank 5 of its own, and others may be granted before it
(log 53). A reclaim's turn of rank 5 stays as it is until the block is RETIRED (log 39). -/
def State.thirdFailure (s : State) (j : EraseJob) (mark : Option Bool) : State :=
  let j3 := { j with attempts := Config.eraseAttempts, statusWait := false }
  if s.mgmt.mode = .drain then s.retireErased j3
  else
    match mark with
    | some true => s.setErase (some { j3 with part := .mark })
    | some false => s.retireErased j3
    | none => s.setErase (some { j3 with part := .markRead })

/-- A failed attempt of the block manager after which another is made takes the reclaim's turn (R98, log 39). -/
def State.eraseTurn (s : State) (j : EraseJob) : State :=
  match j.owner with
  | .manager => s.passTurn .reclaim
  | .mount => s
  | .wipe => s

/-- An attempt failed: the next one waits, or the third failure is taken (R89, R139, R148, R186). A failure of the virgin
preparation of block 0 turns it into a repair with its own attempts (R138). The first and the second failed attempt of the
block manager's take the reclaim's turn (R98); the third leaves it until the block is RETIRED (log 39). -/
def State.countFailure (s : State) (j : EraseJob) (mark : Option Bool) : State :=
  if j.virgin then s.setErase (some { j.again 0 with newCount := 1 })
  else if j.attempts + 1 < Config.eraseAttempts then (s.setErase (some (j.again (j.attempts + 1)))).eraseTurn j
  else if j.block = 0 then s.block0Lost j
  else s.thirdFailure j mark

/-- A failed erase attempt is reported in the ERASE class and counted (R89, R164). -/
def State.attemptFailed (s : State) (j : EraseJob) (mark : Option Bool) : State :=
  (s.report .erase).countFailure j mark

/-- The flash reports the ERASE part finished: the block is blank but at `residue`, and the blank check follows (R99). -/
def State.eraseDone (s : State) (j : EraseJob) (residue : Upset) (part : ErasePart) : State :=
  { s with flash := flashPatch (flashErase s.flash j.block) j.block 0 Config.blockBytes residue }.setErase
    (some { j with part := part, clock := 0, statusWait := false })

/-- The part that follows a passed blank check (R99, R106): block 0 has no header program here. -/
def State.afterBlankCheck (s : State) (j : EraseJob) : State :=
  if j.block = 0 then (s.eraseEnded).setErase (some { j with part := .firstPart, clock := 0 })
  else if s.array.wp then s.setErase (some { j with part := .headerHeld, clock := 0 })
  else s.setErase (some { j with part := .header, clock := 0 })

/-- The blank check ends (R99); an ERASE arm fails it for a data block whatever it found (R172). -/
def State.blankCheckEnded (s : State) (j : EraseJob) (received : Upset) : State :=
  let bs := flashReceived s.flash j.block 0 Config.blockBytes received
  let markBlank := isBlank ((bs.drop 32).take 8)
  if s.health.arm = .erase ∧ j.block ≠ 0 then (s.disarm.eraseEnded).attemptFailed j (some markBlank)
  else if isBlank bs then s.afterBlankCheck j
  else (s.eraseEnded).attemptFailed j (some markBlank)

/-- The bytes of the header program that ends an erase (R88). -/
def EraseJob.headerBytes (j : EraseJob) : List Byte := firstPart kindData j.newCount

/-- The header program ends within its limits (R88, R89). One that fails its verify is a failed erase attempt and makes one
report, of the ERASE class; no PROGRAM report comes beside it (R164, log 62). -/
def State.headerEnded (s : State) (j : EraseJob) (stored readBack : Upset) : State :=
  let r := endProgram s.flash j.block 0 j.headerBytes (.ended stored readBack)
  let s1 := { s with flash := r.1 }
  if r.2 = .pass then s1.eraseSucceeded j else (s1.eraseEnded).attemptFailed j (some true)

/-- The retire mark area is read after a third failed attempt (R89): blank, the mark is to be programmed; otherwise the
block is marked already. -/
def State.markAreaRead (s : State) (j : EraseJob) (bs : List Byte) : State :=
  if isBlank bs then s.setErase (some { j with part := .mark }) else s.retireErased j

/-- The retire mark program after a third failed attempt ended: the block is RETIRED whatever the outcome (R89); a Fail
is reported (R164). -/
def State.eraseMarkOutcome (s : State) (j : EraseJob) (res : ProgResult) : State :=
  (if res = .fail then s.report .program else s).retireErased j

/-- Mount's default record has been programmed into slot 1 and failed: the next settings slot lies beyond it (R20,
log 44). -/
def State.useSlotOne (s : State) (j : EraseJob) : State :=
  if j.owner = .mount ∧ j.part = .record then s.withMount fun m => { m with nextSlot := max m.nextSlot 2 } else s

/-- A program of block 0's format ended: the first part leads to the default record, the record ends the format; a failed
program is a failed attempt (R138, R139, R186). A WIPE that PFW# or WP# has cut stays in SERVICE (R187). -/
def State.block0Outcome (s : State) (j : EraseJob) (res : ProgResult) : State :=
  match res with
  | .fail => ((s.useSlotOne j).report .program).countFailure j none
  | .timeout => (s.useSlotOne j).countFailure j none
  | .pass =>
    match j.part with
    | .firstPart => s.setErase (some { j with part := .record })
    | .waiting | .erasing | .suspending | .suspended | .finished | .blankCheck | .header | .headerHeld | .markRead | .mark
    | .record =>
      let s1 := s.setErase none
      match j.owner with
      | .mount => s1.withMount Mount.formatted
      | .wipe => if s.wipeCut then s1 else s1.enterMount.complete .done []
      | .manager => s1

/-- The DATA header of a virgin block ended (R138): a failed one puts the block on the list for an erase. -/
def State.virginHeaderOutcome (s : State) (b : Nat) (res : ProgResult) : State :=
  match res with
  | .pass => s.withMount (Mount.settle b (bareEntry .erased 0))
  | .fail => (s.report .program).withMount fun m => { m with repairs := addErase b m.repairs }
  | .timeout => s.withMount fun m => { m with repairs := addErase b m.repairs }

end Sys2Proof.Machine
end

