-- ==== Sys2Proof/Machine/Array.lean ====
section
/-! DEFINITION. The array port controller: the requests that wait and the arbiter's choice among them (R97, R98, R107), the
ends of operations (R96), Timeouts and the loss of the flash (R102 to R105), operations cut short (R21). -/

namespace Sys2Proof.Machine

/-! ### Rank 1 (R40, R50, R97) -/

/-- The first piece of a list that still needs the flash, with its number. -/
def firstPiece (p : Piece → Bool) : List Piece → Nat → Option (Nat × Piece)
  | [], _ => none
  | x :: xs, i => if p x then some (i, x) else firstPiece p xs (i + 1)

/-- The rank-1 request that waits: the purpose and the slot (R40, R50, R58, R98). -/
def State.rankOne (s : State) : Option (Purpose × Slot) :=
  match s.port.request with
  | none => none
  | some r =>
    match r.phase with
    | .checking => none
    | .reading =>
      match firstPiece (fun p => p.result.isNone) r.pieces 0 with
      | none => none
      | some (i, p) => (s.entry (s.lineOf p)).current.map fun x => (Purpose.readPiece i, x)
    | .handOver =>
      match firstPiece s.mergeMissing r.pieces 0 with
      | none => none
      | some (i, p) => (s.entry (s.lineOf p)).current.map fun x => (Purpose.mergeRead i, x)

/-- A rank-1 read is issued. -/
def State.grantRead (s : State) : Option State :=
  s.rankOne.map fun (q : Purpose × Slot) => s.startOp q.1 q.2.block (slotOffset q.2.slot) Config.slotBytes []

/-! ### Erase operations as requests -/

/-- The erase attempt is issued; with the uncertain flag set it begins with STATUS (R103). -/
def State.startErase (s : State) (j : EraseJob) : State :=
  s.setErase (some { j with part := .erasing, running := 0, clock := 0, suspends := 0, statusWait := s.array.uncertain })

/-- What the erase in hand asks of the arbiter: an attempt, or the program or read that follows one, each a request of its
own (log 53). Programs and erases are not granted under WP# (R106). -/
def State.eraseRequest (s : State) (j : EraseJob) : Option State :=
  match j.part with
  | .markRead => some (s.startOp .markRead j.block 32 8 [])
  | .waiting => if s.array.wp then none else some (s.startErase j)
  | .mark => if s.array.wp then none else some (s.startOp .eraseMark j.block 32 8 retireMarkBytes)
  | .firstPart =>
    if s.array.wp then none else some (s.startOp .block0Header 0 0 16 (firstPart kindSettings j.newCount))
  | .record =>
    if s.array.wp then none
    else some (s.startOp .block0Record 0 (slotOffset 1) Config.slotBytes Settings.default.encode)
  | .erasing | .suspending | .suspended | .finished | .blankCheck | .header | .headerHeld => none

/-! ### Rank 2 (R134, R148, R149, R150) -/

/-- A write of the repair list is issued (R148); all but the virgin preparation set the repair-made flag. -/
def State.startRepair (s : State) (m : Mount) (r : Repair) (rest : List Repair) : State :=
  match r with
  | .virginHeader b =>
    { s with mount := some { m with repairs := rest } }.startOp .mountHeader b 0 16 (firstPart kindData 0)
  | .eraseBlock b =>
    { s with mount := some { m with repairs := rest, repairMade := true } }.startErase
      (newErase .mount b (raiseEraseCount (m.countBefore b)))
  | .tailMark b =>
    { s with mount := some { m with repairs := rest, repairMade := true } }.startOp .mountTail b Config.tailOffset 16
      (tailMarkBytes (((m.scanOf b).bind BlockScan.seq).getD 0))
  | .prepareBlock0 =>
    { s with mount := some { m with repairs := rest } }.startOp .block0Header 0 0 16 (firstPart kindSettings 0)
      |>.setErase (some virginBlock0)
  | .repairBlock0 =>
    { s with mount := some { m with repairs := rest, repairMade := true } }.startErase
      (newErase .mount 0 ((m.block0Count.map raiseEraseCount).getD 1))

/-- The flag of a repair made by an erase attempt that follows a failed virgin preparation (R138). -/
def State.noteRepair (s : State) (j : EraseJob) : State :=
  if j.part = .waiting then s.withMount fun m => { m with repairMade := true } else s

/-- The next write of step 9: not while PFW# or WP# is asserted (R149, R150); a read of the retire mark area is no
write. -/
def State.repairRequest (s : State) (m : Mount) : Option State :=
  match s.array.erase with
  | some j =>
    if j.part = .headerHeld then none
    else if s.drain.pfw && decide (j.part ≠ .markRead) then none
    else (s.noteRepair j).eraseRequest j
  | none =>
    if s.drain.pfw || s.array.wp then none
    else
      match m.repairs with
      | [] => none
      | r :: rest => some (s.startRepair m r rest)

/-- The mount engine's request (R134). While RSTS waits for the operation in flight, nothing new is issued (R135). -/
def State.mountRequest (s : State) : Option State :=
  if s.commandHold then none
  else
    match s.mount with
    | none => none
    | some m =>
      match m.step.read with
      | some (b, o, l) => some (s.startOp .mountRead b o l [])
      | none => if m.step = .repairs then s.repairRequest m else none

/-! ### Relocation jobs (R82 to R85, R91, R92) -/

/-- A copy that is held asks for its program, or for an opening when no slot is left (R85, R76). -/
def State.copyRequest (s : State) (k : JobKind) : Option State :=
  if s.array.wp then none
  else
    match s.nextSlot with
    | some x => if s.queue.entries.length + 1 ≤ s.freeSlots then some (s.issueCopy k x) else none
    | none => if s.gateHolds (.job k) then some (s.startOpening (.job k)) else none

/-- A relocation job's request: the program of the copy it holds, or the read of its next source (R82), which WP# does not
stop (R106, log 15). -/
def State.jobRequest (s : State) (k : JobKind) : Option State :=
  match s.copyOf k with
  | some c => if c.stage = .held then s.copyRequest k else none
  | none => (s.nextSource k).map (s.startRelocRead k)

/-- The retire mark of a RETIRING block whose live count is 0, the first to have entered that state (R91); not under WP#
(R106). -/
def State.retireMarkRequest (s : State) : Option State :=
  if s.array.wp then none
  else (s.blocks.retiring.find? fun b => decide (s.liveCount b = 0)).map s.startRetireMark

/-- The retirement job's request (R91): each block's retire mark once its live count is 0, before the relocation of another
block (log 58). -/
def State.retirementRequest (s : State) : Option State :=
  if s.blocks.retiring = [] then none else s.retireMarkRequest <|> s.jobRequest .retirement

/-- The release job's request at one of its two ranks (R92). -/
def State.releaseRequestAt (s : State) (priority : Bool) : Option State :=
  match s.blocks.release with
  | some j => if j.priority = priority then s.jobRequest .release else none
  | none => none

/-- The reclaim's request (R78, R88, R89): its erase, or its relocation unless a block is RETIRING. An erase taken over from
mount (R150) stands here too: while it is in hand, its retry or its retire mark goes before the relocation of a reclaim
chosen meanwhile, of which nothing is issued until that erase has ended (log 59). -/
def State.reclaimRequest (s : State) : Option State :=
  match s.array.erase with
  | some j => if j.owner = .manager then s.eraseRequest j else none
  | none => if s.blocks.retiring = [] then s.jobRequest .reclaim else none

/-- The rank of a tail mark: that of the requester whose program used slot 84 (R77, R98, log 38). -/
def tailRank : Requester → Nat
  | .queue => 4
  | .drain => 4
  | .job .retirement => 3
  | .priorityRelease => 3
  | .job .reclaim => 5
  | .job .release => 5

/-- The tail mark owed, when it takes the given rank and WP# permits it (R77, R106). -/
def State.tailRequest (s : State) (rank : Nat) : Option State :=
  match s.blocks.tailOwed with
  | some r => if tailRank r = rank ∧ s.array.wp = false then some s.startTailMark else none
  | none => none

/-! ### Ranks 4 to 6 -/

/-- The program of the queue's head, or an opening for it (R61, R62, R156). -/
def State.headRequest (s : State) (p : Purpose) (r : Requester) : Option State :=
  if s.array.wp || !s.headReady then none
  else
    match s.nextSlot with
    | some x => some (s.issueHead p x)
    | none => if s.gateHolds r then some (s.startOpening r) else none

/-- The drain's head asks for an opening (R156): DRAINING, a PENDING head that can be numbered, no slot left, the drain's
gate (R76), and no opening in flight already. -/
def State.drainOpeningAsked (s : State) : Bool :=
  decide (s.mgmt.mode = .drain) && decide (s.drain.phase = .draining) && s.headReady && s.nextSlot.isNone
    && s.gateHolds .drain && !s.opening

/-- The opening that the drain had requested before WP# was asserted (R159, R106), once WP# permits it, under the drain's
gate (R76, log 65). -/
def State.drainOpeningRequest (s : State) : Option State :=
  if s.blocks.drainOpening && !s.array.wp && s.gateHolds .drain then some (s.startOpening .drain) else none

/-- Rank 3 (R97, R98): retirement before priority release; a tail mark of this rank before both (log 38). -/
def State.rankThree (s : State) : Option State :=
  s.tailRequest 3 <|> s.retirementRequest <|> s.releaseRequestAt true

/-- The queue's own requests at rank 4. -/
def State.queueRequest (s : State) : Option State := s.tailRequest 4 <|> s.headRequest .queueProgram .queue

/-- The drain controller's requests at rank 4 (R156, R159): the tail mark before any opening, an opening that waited under
WP# whether the queue is empty or not. -/
def State.drainRequest (s : State) : Option State :=
  s.tailRequest 4 <|> s.drainOpeningRequest
    <|> (if s.drain.phase = .draining then s.headRequest .drainProgram .drain else none)

/-- Rank 5, by turns (R98); a tail mark of this rank before either (log 38). -/
def State.rankFive (s : State) : Option State :=
  s.tailRequest 5
    <|> (if s.blocks.releaseTurn then s.releaseRequestAt false <|> s.reclaimRequest
         else s.reclaimRequest <|> s.releaseRequestAt false)

/-- A settings append waiting for its grant (R179). -/
def State.settingsRequest (s : State) : Option State :=
  match s.mgmt.command with
  | .active (.append c new false) => if s.array.wp then none else some (s.startAppend c new)
  | .active (.append _ _ true) => none
  | .active (.sync _) | .active (.svce _) | .active (.rsts _) | .active (.wipe _ _) | .zero | .unkn => none

/-- The next block WIPE erases: not RETIRED, in rising order (R186). -/
def State.nextWiped (s : State) (n : Nat) : Option Nat :=
  dataBlocks.find? fun b => decide (n ≤ b) && !decide ((s.block b).state = .retired)

/-- The next operation of the format: a data block's erase, the read of block 0's first part, block 0's erase (R186). A read
of the first part that timed out is requested again (log 70). -/
def State.nextFormat (s : State) (step : WipeStep) : Option State :=
  match step with
  | .data n =>
    match s.nextWiped n with
    | some b =>
      if s.array.wp then none
      else
        some ((s.hold (.wipe (.data (b + 1)) false)).startErase
          (newErase .wipe b (raiseEraseCount (s.block b).eraseCount)))
    | none => some ((s.hold (.wipe .read0 false)).startOp .wipeRead 0 0 16 [])
  | .read0 => some (s.startOp .wipeRead 0 0 16 [])
  | .format => none

/-- WIPE's request at rank 6 (R186); nothing further once it is cut (R187). -/
def State.wipeRequest (s : State) : Option State :=
  match s.mgmt.command with
  | .active (.wipe step false) =>
    match s.array.erase with
    | some j => if j.owner = .wipe then s.eraseRequest j else none
    | none => s.nextFormat step
  | .active (.wipe _ true) => none
  | .active (.append _ _ _) | .active (.sync _) | .active (.svce _) | .active (.rsts _) | .zero | .unkn => none

/-! ### The arbiter (R97, R107) -/

/-- Step 4 of SVCE and RSTS: the SYNC step is over, and nothing but rank-1 reads is issued (R183, R185). -/
def State.holdsBack (s : State) : Bool := s.commandHold && s.syncStepOver

/-- The requests in rank order while the block manager and the queue work (R97). What the drain left waiting under WP#
keeps its rank 4 after the return of the mode, whatever the ERASED count (R159, R97, log 65). -/
def State.workingRequest (s : State) : Option State :=
  if s.holdsBack then none
  else
    s.rankThree
      <|> (match s.blocks.tailOwed with
           | some .drain => s.tailRequest 4
           | some .queue | some (.job _) | some .priorityRelease | none => none)
      <|> s.drainOpeningRequest
      <|> (if Config.hostGate ≤ s.erasedCount then s.queueRequest <|> s.rankFive
           else s.rankFive <|> s.queueRequest)
      <|> s.settingsRequest

/-- The highest-ranked request that waits, issued (R97, R107). -/
def State.arbiterChoice (s : State) : Option State :=
  match s.mgmt.mode with
  | .mount => s.mountRequest
  | .run | .readonly => s.grantRead <|> s.workingRequest
  | .drain => s.grantRead <|> s.drainRequest
  | .service => s.wipeRequest
  | .halted => none

/-- While an erase is suspended only rank-1 reads are granted (R97, R100), and one that had finished before its SUSPEND has one
read served before its blank check (R100, log 72). -/
def ErasePart.readsOnly : ErasePart → Bool
  | .suspended | .finished => true
  | .waiting | .erasing | .suspending | .blankCheck | .header | .headerHeld | .markRead | .mark | .firstPart | .record =>
    false

/-- The arbiter grants the flash (R97): nothing while an operation is in flight or after the loss of the flash. -/
def State.grant (s : State) : State :=
  if s.array.op.isSome || s.flashLost then s
  else if s.eraseBusy then
    match s.array.erase with
    | some j => if j.part.readsOnly then s.grantRead.getD s else s
    | none => s
  else s.arbiterChoice.getD s

/-! ### Reads (R41, R95) -/

/-- The bytes the operation in flight received. -/
def State.received (s : State) (o : Op) (u : Upset) : List Byte := flashReceived s.flash o.block o.offset o.length u

/-- The slot an operation concerns. -/
def Op.at (o : Op) : Slot := { block := o.block, slot := o.offset / Config.slotBytes }

/-! ### Program outcomes (R96) -/

/-- The outcome of a program that ended, and the flash it left. A VERIFY arm makes a Pass of a PLAIN or TENTATIVE record
in a data block a Fail, and is consumed by any such program that ended (R96, R170). -/
def State.endOp (s : State) (o : Op) (stored readBack : Upset) : State × ProgResult :=
  let r := endProgram s.flash o.block o.offset o.bytes (.ended stored readBack)
  let s1 := { s with flash := r.1 }.opEnded
  if s.health.arm = .verify ∧ o.block ≠ 0 ∧ o.length = Config.slotBytes ∧ isLineRecord o.bytes = true then
    (s1.disarm, .fail)
  else (s1, r.2)

/-- A read piece or a merge read timed out: its requester requests the flash again (R41, R96), unless its request has ended
(R44). The read that is served before a blank check put off is granted again at once, since it has not been served (R100,
log 72); with the uncertain flag set it begins with STATUS (R103). -/
def State.readTimedOut (s : State) (o : Op) : State :=
  match s.array.erase with
  | some j => if j.part = .finished ∧ o.abandoned = false then s.grant else s
  | none => s

/-- Piece `i` of the request in progress ends with fill bytes and FLASH_LOST (R15). -/
def State.losePiece (s : State) (i : Nat) : State :=
  match s.port.request with
  | none => s
  | some r =>
    match r.pieces[i]? with
    | none => s
    | some p => s.setPiece r i (p.ended (s.fillBytes p.length) (some .flashLost))

/-- The flash read of read piece `i` timed out: the Timeout that loses the flash ends the piece (R15, R41), whatever the entry
to HALTED then makes of the table; any other has the read path request the flash again. -/
def State.pieceTimedOut (s : State) (o : Op) (i : Nat) : State :=
  if s.flashLost = true ∧ o.abandoned = false then s.losePiece i else s.readTimedOut o

/-- The requester takes the outcome of its program (R104): each as its own rule states. A read that timed out is requested
again (R96), WIPE's of block 0's first part and that of a retire mark area too (log 70); a relocation read's copy is given
up, and its source is read afresh. -/
def State.takeOutcome (s : State) (o : Op) (res : ProgResult) : State :=
  match o.purpose with
  | .queueProgram => s.queueOutcome o.at res
  | .drainProgram => s.drainOutcome o.at res
  | .copyProgram k => s.copyOutcome k o.at res
  | .opening _ => s.openingOutcome o.block res
  | .tailMark => s.tailOutcome o.block res
  | .retireMark => s.retireMarkOutcome o.block res
  | .eraseMark =>
    match s.array.erase with
    | some j => s.eraseMarkOutcome j res
    | none => s
  | .settings =>
    match s.mgmt.command with
    | .active (.append c new _) => s.appendOutcome c new res
    | .active (.sync _) | .active (.svce _) | .active (.rsts _) | .active (.wipe _ _) | .zero | .unkn => s
  | .mountHeader => s.virginHeaderOutcome o.block res
  | .mountTail => if res = .fail then s.report .program else s
  | .block0Header | .block0Record =>
    match s.array.erase with
    | some j => s.block0Outcome j res
    | none => s
  | .readPiece i => if res = .timeout then s.pieceTimedOut o i else s
  | .mergeRead _ => if res = .timeout then s.readTimedOut o else s
  | .mountRead | .markRead | .wipeRead => s
  | .relocRead k => if res = .timeout then s.setCopy k none else s

/-! ### Timeouts (R102 to R105) -/

/-- A Timeout: the count rises by one and the uncertain flag is set (R103, R104). -/
def State.countTimeout (s : State) : State :=
  { s with array := { s.array with timeouts := min (s.array.timeouts + 1) Config.lostTimeouts, uncertain := true } }

/-- The purpose is a program. -/
def Purpose.isProgram : Purpose → Bool
  | .readPiece _ | .mergeRead _ | .relocRead _ | .mountRead | .markRead | .wipeRead => false
  | .copyProgram _ | .queueProgram | .drainProgram | .opening _ | .tailMark | .retireMark | .eraseMark | .settings
  | .mountHeader | .mountTail | .block0Header | .block0Record => true

/-- What a program that was not completed leaves: nothing when it still stood in its STATUS wait (R103, R21). -/
def State.leaveOp (s : State) (o : Op) (left : Remnant) : List Host.Cell :=
  if o.purpose.isProgram && !o.statusWait then leaveProgram s.flash o.block o.offset o.bytes left else s.flash

/-- The slot that FLASH_LOST names: a program's, where its area lies in a slot (R105, log 22). The header program that ends
an erase is no operation of this kind: it is part of the erase (R95, R99, `State.eraseTimeout`). -/
def Op.lostSlot (o : Op) : Option Nat :=
  if o.purpose.isProgram && decide (o.offset < Config.tailOffset) then some (o.offset / Config.slotBytes) else none

/-- What an erase that was not completed leaves in its block (R21, R103). -/
def State.leaveJob (s : State) (j : EraseJob) (left : Remnant) : List Host.Cell :=
  match j.part with
  | .erasing => if j.statusWait then s.flash else leaveErase s.flash j.block left
  | .suspending | .suspended => leaveErase s.flash j.block left
  | .header => if j.statusWait then s.flash else leaveProgram s.flash j.block 0 j.headerBytes left
  | .waiting | .finished | .blankCheck | .headerHeld | .markRead | .mark | .firstPart | .record => s.flash

/-- The loss is declared when the count has reached 3 (R105). A suspended erase is abandoned where it stands, which `left`
says for its block (R21). -/
def State.checkLost (s : State) (block slot : Option Nat) (left : Remnant) : State :=
  if s.flashLost then
    match s.array.erase with
    | some j => { s with flash := s.leaveJob j left }.loseFlash block slot
    | none => s.loseFlash block slot
  else s

/-- The operation in flight ends with Timeout (R102, R103); its requester takes it, then the loss is judged. -/
def State.opTimeout (s : State) (o : Op) (left : Remnant) : State :=
  let s1 := { s with flash := s.leaveOp o left }
  let s2 := { s1 with array := { s1.array with op := none } }.countTimeout
  (s2.takeOutcome o .timeout).checkLost (some o.block) o.lostSlot left

/-- The part of an erase in flight ends with Timeout (R99, R102): a failed attempt. A third Timeout that is any part of an
erase, its header program included, counts as the erase's and names the block and no slot (R95, R105, log 22). -/
def State.eraseTimeout (s : State) (j : EraseJob) (left : Remnant) : State :=
  let s1 := { s with flash := s.leaveJob j left }.countTimeout
  (s1.attemptFailed j (if j.part = .header then some true else none)).checkLost (some j.block) none left

/-- The part of an erase is timed (R102). -/
def ErasePart.timed : ErasePart → Bool
  | .erasing | .suspending | .blankCheck | .header => true
  | .waiting | .suspended | .finished | .headerHeld | .markRead | .mark | .firstPart | .record => false

/-- The time limit of whatever is in flight expires (R102). -/
def State.timeOut (s : State) (left : Remnant) : State :=
  match s.array.op with
  | some o => s.opTimeout o left
  | none =>
    match s.array.erase with
    | some j => if j.part.timed then s.eraseTimeout j left else s
    | none => s

/-! ### Operations cut short (R21) -/

/-- The flash as a power loss or hardware reset leaves it (R21). -/
def State.cutFlash (s : State) (cut : Remnant) : List Host.Cell :=
  match s.array.op, s.array.erase with
  | some o, some j => if o.purpose.isProgram then s.leaveOp o cut else s.leaveJob j cut
  | some o, none => s.leaveOp o cut
  | none, some j => s.leaveJob j cut
  | none, none => s.flash

/-! ### Ends of programs -/

/-- A program's end is taken when the operation in flight is of one of the given purposes and has left its STATUS wait
(R96); a Timeout reported as an outcome is the expiry of its limit. -/
def State.programEnd (s : State) (is : Purpose → Bool) (e : ProgramEnd) : State :=
  match s.array.op with
  | none => s
  | some o =>
    if is o.purpose then
      match e with
      | .timedOut left => s.opTimeout o left
      | .ended stored readBack =>
        if o.statusWait then s
        else
          let r := s.endOp o stored readBack
          r.1.takeOutcome o r.2
    else s

end Sys2Proof.Machine
end

