-- ==== Sys2Proof/Machine/Port.lean ====
section
/-! DEFINITION. The upstream port: responses and fault reports (R2), the checking phase (R8 to R11), hand-over (R12, R13),
acceptance (R55), reads (R14, R15, R38), completions of rank-1 reads (R41, R42, R50, R58), stall expiry (R17). -/

namespace Sys2Proof.Machine

/-! ### Responses (R2) -/

/-- A rank-1 read in flight is abandoned: its request no longer wants it (R44). -/
def State.abandonRead (s : State) : State :=
  match s.array.op with
  | none => s
  | some o =>
    match o.purpose with
    | .readPiece _ | .mergeRead _ => { s with array := { s.array with op := some { o with abandoned := true } } }
    | .relocRead _ | .copyProgram _ | .mountRead | .queueProgram | .drainProgram | .opening _ | .tailMark | .retireMark
    | .eraseMark | .markRead | .settings | .mountHeader | .mountTail | .block0Header | .block0Record | .wipeRead => s

/-- The response is given: the request and its timer end (R1, R2). -/
def State.respond (s : State) (cause : Option Cause) (data : List Byte) : State :=
  { s.abandonRead with port := { s.port with request := none, response := some { cause := cause, data := data } } }

/-- An upstream fault: the cause and its bus byte address, with the store line of that byte when it lies in range (R2). -/
def State.upstreamFault (s : State) (c : Cause) (addr : Nat) : FaultReport :=
  { faultOf c with addr := some addr, line := s.lineOfAddr addr }

/-- A request ends with ERROR and a fault report. -/
def State.refuse (s : State) (f : FaultReport) (data : List Byte) : State :=
  (s.respond (some f.cause) data).reportFault f

/-- The whole request ends with ERROR under its own address (R2). -/
def State.endRequest (s : State) (r : Request) (c : Cause) : State :=
  s.refuse (s.upstreamFault c r.addr) (if r.write then [] else s.fillBytes r.count)

/-! ### The checks of a write (R8) -/

/-- The cause with which a mode refuses a write (R8 check 1, R15). -/
def Mode.writeCause : Mode → Option Cause
  | .mount => none
  | .run => none
  | .readonly => some .readOnly
  | .drain => some .draining
  | .service => some .notReady
  | .halted => some .flashLost

/-- The zone lock of a store line is set (R10). -/
def State.locked (s : State) (line : Nat) : Bool := s.mgmt.settings.locks.getLsbD (line / Config.zoneLines)

/-- The window an in-range piece needs a new shadow entry of (R8 check 6). -/
def State.shadowNeed (s : State) (p : Piece) : Option (Piece × Nat) :=
  if p.inRange && (s.shadowOf (s.lineOf p)).isNone then (s.windowAt [.armed, .opened] p.busLine).map fun w => (p, w)
  else none

/-- The pieces of a write that are handed over: those in range (R7, R12). -/
def Request.handed (r : Request) : List Piece := r.pieces.filter Piece.inRange

/-- A piece as it was split, with neither tag nor merge image (R13). -/
def Piece.untagged (p : Piece) : Piece := { p with tag := none, merge := none }

/-- A write waits in the checking phase, its pieces untagged (R8, R13); a merge read in flight for it is abandoned. -/
def State.waitChecking (s : State) (r : Request) : State :=
  s.abandonRead.setRequest { r with phase := .checking, retake := false, pieces := r.pieces.map Piece.untagged }

/-- The write enters the hand-over phase and its in-range pieces are tagged (R12, R112); with none it is answered OK (R7).
The request keeps a piece that QUIET drops, so that checks taken afresh judge the whole request (R13). -/
def State.enterHandOver (s : State) (r : Request) : State :=
  match r.handed with
  | [] => s.respond none []
  | _ :: _ =>
    let t := s.tagPieces (r.pieces.map Piece.untagged)
    t.1.abandonRead.setRequest { r with phase := .handOver, retake := false, pieces := t.2 }

/-- Checks 5 and 6 and what follows them (R8). -/
def State.checkWindows (s : State) (r : Request) : State :=
  if r.pieces.any fun p => p.inRange && (s.windowAt [.committing] p.busLine).isSome then s.waitChecking r
  else
    match (r.pieces.filterMap s.shadowNeed)[Config.shadowPlaces - s.windows.shadow.length]? with
    | some (p, w) => s.refuse { s.upstreamFault .groupFull p.addr with window := some w } []
    | none => s.enterHandOver r

/-- Checks 3 and 4 (R7, R8, R10); under QUIET the pieces out of range play no further part. -/
def State.checkRange (s : State) (r : Request) : State :=
  match s.mgmt.settings.strict, r.pieces.find? fun p => !p.inRange with
  | true, some p => s.refuse (s.upstreamFault .outOfRange p.addr) []
  | true, none | false, _ =>
    match r.handed.find? fun p => s.locked (s.lineOf p) with
    | some p => s.refuse (s.upstreamFault .zoneLocked p.addr) []
    | none => s.checkWindows r

/-- The checking phase of a write, from check 1 (R8). -/
def State.checkWrite (s : State) (r : Request) : State :=
  if s.commandHold || decide (s.mgmt.mode = .mount) then s.waitChecking r
  else
    match s.mgmt.mode.writeCause with
    | some c => s.endRequest r c
    | none => if s.array.wp then s.endRequest r .writeProtected else s.checkRange r

/-! ### Hand-over (R12, R13) -/

/-- The tag's group is still OPEN in its window (R13). -/
def State.tagHolds (s : State) (p : Piece) : Bool :=
  match p.tag with
  | none => true
  | some t => decide ((s.window t.window).state = .opened) && decide ((s.window t.window).group = some t.group)

/-- A merge image that is no longer valid is discarded (R58). -/
def State.refreshMerge (s : State) (p : Piece) : Piece :=
  match p.merge with
  | none => p
  | some m =>
    if (s.newestUsable (s.lineOf p)).isSome || !decide ((s.entry (s.lineOf p)).current = some m.slot) then
      { p with merge := none }
    else p

/-- A write in hand-over is taken up again (R13): what ends its wait, or its merge images kept up to date. -/
def State.stepHandOver (s : State) (r : Request) : State :=
  if s.commandHold then s.waitChecking r
  else
    match s.mgmt.mode.writeCause with
    | some c => s.endRequest r c
    | none =>
      if s.array.wp then s.endRequest r .writeProtected
      else if r.pieces.all s.tagHolds then s.setRequest { r with pieces := r.pieces.map s.refreshMerge }
      else s.checkWindows { r with pieces := r.pieces.map Piece.untagged }

/-- The queue accepts the pieces of a write, each treated as the queue stands at this moment (R55); the response OK
follows, then the close triggers (R12). -/
def State.accept (s : State) (r : Request) : State :=
  let s1 := (r.handed.map fun p => (p, s.treat p)).foldl State.acceptPiece s
  r.handed.foldl State.pieceTrigger (s1.respond none [])

/-! ### Reads (R14, R15, R38) -/

/-- An out-of-range read piece ends under the policy (R6) when the checks of its read are taken, before any in-range piece of
the request waits for the flash: its fill bytes are those of the settings then in force (R5; when they are produced is the
model's choice, log 74). -/
def State.endOutOfRange (s : State) (p : Piece) : Piece :=
  if p.inRange then p else p.ended (s.fillBytes p.length) (if s.mgmt.settings.strict then some .outOfRange else none)

/-- What the read path makes of an in-range read piece at once (R38): forwarding; fill, for a line without a record; otherwise
it needs the flash and stays as it is, but that in HALTED it ends with fill bytes and FLASH_LOST. -/
def State.resolvePiece (s : State) (p : Piece) : Piece :=
  match s.newestUsable (s.lineOf p) with
  | some e => p.ended (p.bytesOf e.image) none
  | none =>
    match (s.entry (s.lineOf p)).current with
    | none => p.ended (s.fillBytes p.length) none
    | some _ => if s.mgmt.mode = .halted then p.ended (s.fillBytes p.length) (some .flashLost) else p

/-- The port restricts reads in HALTED to forwarding: there an in-range piece that the queue does not forward gives fill bytes
and FLASH_LOST (R14, R15, Table 1-2), a line without a record, of which the read path reports OK (R38), included (log 33). -/
def State.servePiece (s : State) (p : Piece) : Piece :=
  if s.mgmt.mode = .halted ∧ s.newestUsable (s.lineOf p) = none then
    (s.resolvePiece p).ended (s.fillBytes p.length) (some .flashLost)
  else s.resolvePiece p

/-- The pieces are served one at a time, the first before the second (section 3.2): as far as no flash is needed. -/
def State.resolvePieces (s : State) : List Piece → List Piece
  | [] => []
  | p :: ps =>
    if p.result.isSome then p :: State.resolvePieces s ps
    else
      let q := s.servePiece p
      if q.result.isSome then q :: State.resolvePieces s ps else q :: ps

/-- A flash read of the request in progress is in flight (R40, R43). -/
def State.readInFlight (s : State) : Bool :=
  match s.array.op with
  | none => false
  | some o =>
    match o.purpose with
    | .readPiece _ | .mergeRead _ => !o.abandoned
    | .relocRead _ | .copyProgram _ | .mountRead | .queueProgram | .drainProgram | .opening _ | .tailMark | .retireMark
    | .eraseMark | .markRead | .settings | .mountHeader | .mountTail | .block0Header | .block0Record | .wipeRead => false

/-- The bytes a served piece contributes. -/
def Piece.served (p : Piece) : List Byte := (p.result.map (·.bytes)).getD []

/-- The cause a served piece ended with. -/
def Piece.cause (p : Piece) : Option Cause := p.result.bind (·.cause)

/-- The read is answered when every piece has ended: the cause is that of the first piece that ended in ERROR (R14). -/
def State.answerRead (s : State) (r : Request) : State :=
  if r.pieces.all fun p => p.result.isSome then
    let data := (r.pieces.map Piece.served).flatten
    match r.pieces.find? fun p => p.cause.isSome with
    | none => s.respond none data
    | some p =>
      match p.cause with
      | none => s.respond none data
      | some .outOfRange => s.refuse (s.upstreamFault .outOfRange p.addr) data
      | some c => s.refuse (s.upstreamFault c r.addr) data
  else s.setRequest r

/-- A proceeding read goes on (R14, R38): nothing while its own flash read is in flight (R43). -/
def State.stepRead (s : State) (r : Request) : State :=
  match s.mgmt.mode with
  | .service => s.endRequest r .notReady
  | .mount => s.setRequest { r with phase := .checking, retake := false }
  | .run | .readonly | .drain | .halted =>
    if s.readInFlight then s.setRequest r else s.answerRead { r with pieces := s.resolvePieces r.pieces }

/-- The mode check of a read (R14). -/
def State.checkRead (s : State) (r : Request) : State :=
  match s.mgmt.mode with
  | .mount => s.setRequest { r with retake := false }
  | .service => s.endRequest r .notReady
  | .run | .readonly | .drain | .halted =>
    s.stepRead { r with phase := .reading, retake := false, pieces := r.pieces.map s.endOutOfRange }

/-- The port takes up its request (R8, R13, R14). -/
def State.portStep (s : State) : State :=
  match s.port.request with
  | none => s
  | some r =>
    match r.phase with
    | .checking => if r.retake then (if r.write then s.checkWrite r else s.checkRead r) else s
    | .handOver => s.stepHandOver r
    | .reading => s.stepRead r

/-- A request is taken (R1): split into pieces, its stall limit recorded (R17), to be checked at once. -/
def State.takeRequest (s : State) (write : Bool) (addr count : Nat) (data : List Byte) : State :=
  s.setRequest { write := write, addr := addr, count := count, limit := s.mgmt.settings.stall, elapsed := 0,
                 phase := .checking, retake := true, pieces := splitRequest addr count data }

/-! ### Completions of rank-1 reads (R41, R42, R50) -/

/-- The effects of a failed record check on the flag, the event set and the health counter (R42). -/
def State.checkFailure (s : State) (line : Nat) (x : Slot) : State :=
  let s1 := if (s.entry line).current = some x then s.setEntry line { s.entry line with checkFailed := true } else s
  (s1.raise .readCheck).report .read

/-- The flash read of read piece `i` completed with these bytes (R41, R42, R171). -/
def State.pieceRead (s : State) (r : Request) (i : Nat) (x : Slot) (bs : List Byte) : State :=
  match r.pieces[i]? with
  | none => s
  | some p =>
    let line := s.lineOf p
    let armed := decide (s.health.arm = .read)
    let s1 := if armed then s.disarm else s
    if passesLine bs line && !armed then s1.setPiece r i (p.ended (p.bytesOf (dataField bs)) none)
    else (s1.checkFailure line x).setPiece r i (p.ended (p.bytesOf (dataField bs)) (some .readCheck))

/-- The merge read for piece `i` completed with these bytes (R50, R58, R12). -/
def State.mergeDone (s : State) (r : Request) (i : Nat) (x : Slot) (bs : List Byte) : State :=
  match r.pieces[i]? with
  | none => s
  | some p =>
    let line := s.lineOf p
    if passesLine bs line then s.setPiece r i { p with merge := some { slot := x, image := dataField bs } }
    else (s.checkFailure line x).refuse { faultOf .readCheck with addr := some r.addr, line := some line } []

/-! ### Stall expiry (R17) -/

/-- The stall limit of the request in progress expires (R17). In MOUNT the cause is NOT_READY, also under the command hold
of an RSTS taken there (log 34). -/
def State.stallExpired (s : State) : State :=
  match s.port.request with
  | none => s
  | some r => s.endRequest r (if s.mgmt.mode = .mount then .notReady else .stallTimeout)

end Sys2Proof.Machine
end

