-- ==== Sys2Proof/Machine/Settle.lean ====
section
/-! DEFINITION. What an event brings about at once in the blocks beside the one that takes it (log 13): degrade conditions
(R191), freed register entries (R130, R132), the drain's discards and its end (R158, R159, R161), the port's request
(R13), the start of an erase (R88), suspension and resumption (R100), the held header (R106), mount's skipped writes
(R150), the cut of WIPE (R187), the SPACE_LOW status (R194). -/

namespace Sys2Proof.Machine

/-! ### The reactions repeated until nothing follows -/

/-- Register entries freed and offered to the windows that await them (R130, R132): at most four windows await one. -/
def State.settleGroups (s : State) : State :=
  (((s.freeDeadGroups.offerRegister).offerRegister).offerRegister).offerRegister

/-- One round of reactions. -/
def State.settleRound (s : State) : State := (s.degrade.settleGroups).drainStep.portStep

/-! ### The block manager -/

/-- A VICTIM whose live count is 0 becomes ERASING (R88); a copy still held for it is given up (R82). While WP# is asserted,
and while the block manager issues nothing further for SVCE or RSTS, it stays VICTIM (R93, R183, R185). -/
def State.startReclaimErase (s : State) : State :=
  match s.blocks.victim, s.array.erase with
  | some b, none =>
    if s.mgmt.mode.working ∧ s.array.wp = false ∧ s.holdsBack = false ∧ (s.block b).state = .victim
        ∧ s.liveCount b = 0 then
      let s1 := s.setBlock b { s.block b with state := .erasing, nextFree := 0 }
      let s2 := match s1.blocks.reclaimCopy with
        | some c => if c.stage = CopyStage.held then s1.setCopy .reclaim none else s1
        | none => s1
      s2.setErase (some (newErase .manager b (raiseEraseCount (s.block b).eraseCount)))
    else s
  | some _, some _ => s
  | none, _ => s

/-! ### The array port -/

/-- The modes in which the operations of the block manager or of mount go on (R93, R107). -/
def Mode.erasesGoOn : Mode → Bool
  | .mount | .run | .readonly | .drain => true
  | .service | .halted => false

/-- A header program held under WP# is issued first once WP# is deasserted and the flash is free (R106); with the
uncertain flag set it begins with STATUS (R103, log 23), and that STATUS wait goes on when WP# is asserted again (log 67).
Step 4 of SVCE and RSTS does not issue it (log 54). In MOUNT the erase stays the mount engine's, which takes the outcome
(log 61). -/
def State.releaseHeader (s : State) : State :=
  match s.array.erase with
  | none => s
  | some j =>
    if j.part = .headerHeld ∧ s.array.wp = false ∧ s.array.op = none ∧ s.mgmt.mode.erasesGoOn = true
        ∧ s.flashLost = false ∧ s.holdsBack = false then
      s.setErase (some { j with part := .header, clock := 0, statusWait := s.array.uncertain })
    else s

/-- A rank-1 read waits for the flash. -/
def State.readWaits (s : State) : Bool := s.rankOne.isSome

/-- The part that follows in the erase in hand when reads come and go, the flash being free of them (R100, R101): SUSPEND for
a read that waits; RESUME when no read waits. An erase that had finished before its SUSPEND takes its blank check once the
read served before it has ended, whatever other read waits (R100; which read that is, log 72). A read that arrived while the
erase, granted already, stood in its STATUS wait (R103) suspends it as soon as it is issued, like one that arrives while it
runs (log 60). RESUME and the blank check that was put off follow without STATUS, though a read timed out meanwhile and left
the uncertain flag set (log 41). -/
def EraseJob.react (j : EraseJob) (waits : Bool) : EraseJob :=
  match j.part with
  | .erasing =>
    if waits && decide (j.suspends < Config.maxSuspends) && !j.statusWait then { j with part := .suspending, clock := 0 }
    else j
  | .suspended => if waits then j else { j with part := .erasing }
  | .finished => { j with part := .blankCheck, clock := 0 }
  | .waiting | .suspending | .blankCheck | .header | .headerHeld | .markRead | .mark | .firstPart | .record => j

/-- Suspension and resumption (R100, R101), while no read is in flight. After a Timeout of a read that is not requested again
the erase is resumed, or its blank check made, without STATUS, and the uncertain flag stays set (log 41). -/
def State.settleErase (s : State) : State :=
  match s.array.erase with
  | none => s
  | some j => if s.array.op.isSome || s.flashLost then s else s.setErase (some (j.react s.readWaits))

/-! ### Mount and WIPE under WP# and PFW# -/

/-- The erase in hand is dropped by mount under WP# (R150): a block that waited for an attempt is left FULL, a block whose
mark is owed is RETIRED without it, block 0 is left as it is, with the next settings
slot that step 1 found or, past a default record already programmed, slot 2 (log 44). -/
def State.skipErase (s : State) (j : EraseJob) : State :=
  match j.part with
  | .waiting =>
    if j.block = 0 then s.setErase none
    else (s.setErase none).withMount fun m => m.settle j.block (bareEntry .full (m.countBefore j.block))
  | .firstPart | .record => s.setErase none
  | .mark => s.retireErased j
  | .erasing | .suspending | .suspended | .finished | .blankCheck | .header | .headerHeld | .markRead => s

/-- Writes of step 9 reached while WP# is asserted are not made (R150); PFW# asserted holds the engine first (R149,
log 14). -/
def State.skipRepairs (s : State) : State :=
  match s.mount with
  | none => s
  | some m =>
    if m.step = .repairs ∧ s.array.wp = true ∧ s.drain.pfw = false ∧ s.array.op = none then
      match s.array.erase with
      | none => s.withMount Mount.skipAll
      | some j =>
        let s1 := s.skipErase j
        match s1.array.erase with
        | none => s1.withMount Mount.skipAll
        | some k => if k.part = .headerHeld then s1.withMount Mount.skipAll else s1
    else s

/-- WIPE that PFW# or WP# has cut completes once nothing is in flight (R187); a third failure whose outcome is taken
retires its block without a mark (log 20). -/
def State.settleCut (s : State) : State :=
  match s.mgmt.command with
  | .active (.wipe _ true) =>
    if s.array.op = none ∧ s.eraseBusy = false then
      let s1 := match s.array.erase with
        | none => s
        | some j => if j.part = ErasePart.mark ∨ j.part = ErasePart.markRead then s.retireErased j else s.setErase none
      s1.complete .cut []
    else s
  | .active (.wipe _ false) | .active (.append _ _ _) | .active (.sync _) | .active (.svce _) | .active (.rsts _)
  | .zero | .unkn => s

/-! ### SPACE_LOW (R194) -/

/-- The port reports a write stalled by the enqueue gate (R12, R59). -/
def State.writeStalled (s : State) : Bool :=
  match s.port.request with
  | none => false
  | some r => decide (r.phase = .handOver) && s.gateStalls r.handed

/-- The queue reports its head stalled by the opening gate (R62), under WP# too (log 25), and in RUN and READONLY only: the
report ends when DRAIN or HALTED is entered (log 71). -/
def State.headStalled (s : State) : Bool :=
  s.mgmt.mode.working && s.headReady && s.nextSlot.isNone && decide (s.erasedCount < Config.hostGate)

/-- The SPACE_LOW status. -/
def State.spaceLowNow (s : State) : Bool := s.writeStalled || s.headStalled

/-- The SPACE_LOW status follows its causes, and its edges raise SPACE_LOW as selected (R194). -/
def State.settleSpace (s : State) : State :=
  let now := s.spaceLowNow
  { s with mgmt := { s.mgmt with spaceLow := now } }.edge s.mgmt.edgeSpace .spaceLow s.mgmt.spaceLow now

/-! ### The whole -/

/-- What follows an event at once (log 13). -/
def State.settle (s : State) : State :=
  let s1 := (s.settleRound).settleRound
  let s2 := (s1.startReclaimErase.updateRelease).releaseHeader.settleErase
  (s2.skipRepairs.settleCut).settleSpace

/-- An event is taken: while power is on and RESET# is deasserted it has its effect and what follows it at once; at other
times nothing reaches the bridge (R18, R174, log 10). -/
def State.taken (s : State) (f : State → State) : Host.Outcome State Fault Refusal :=
  match s.power with
  | .on => .next (f s).settle
  | .held => .next s
  | .off => .next s

end Sys2Proof.Machine
end

