-- ==== Sys2Proof/Machine/Clock.lean ====
section
/-! DEFINITION. The clocks: what one µs does to the stall timer (R17), the report timer (R166) and the running times of the
operation and the erase in flight (R95, R102). A clock stops at its limit; that a limit expires is an event of its own
(log 1). -/

namespace Sys2Proof.Machine

/-- A clock one µs on, up to its limit. -/
def advance (n limit : Nat) : Nat := if n < limit then n + 1 else n

/-- The stall timer of the request in progress (R17). -/
def Request.tick (r : Request) : Request := { r with elapsed := advance r.elapsed r.limit }

/-- The report timer runs in AUTO only (R166); the interval is in seconds. -/
def Health.tick (h : Health) : Health :=
  if h.auto then { h with elapsed := advance h.elapsed (1000000 * h.interval) } else h

/-- The operation in flight (R102). -/
def Op.tick (o : Op) : Op := { o with running := advance o.running Config.operationLimit }

/-- The erase in hand (R102): its running time counts while it runs; a SUSPEND, a blank check, a header program and a
STATUS wait have a limit of their own. -/
def EraseJob.tick (j : EraseJob) : EraseJob :=
  let clock := advance j.clock Config.operationLimit
  if j.statusWait then { j with clock := clock }
  else
    match j.part with
    | .erasing => { j with running := advance j.running Config.eraseLimit }
    | .suspending => { j with running := advance j.running Config.eraseLimit, clock := clock }
    | .blankCheck | .header => { j with clock := clock }
    | .waiting | .suspended | .finished | .headerHeld | .markRead | .mark | .firstPart | .record => j

/-- One µs passes (log 1); no clock runs out of power or in reset. -/
def State.tick (s : State) : State :=
  match s.power with
  | .on =>
    { s with
      port := { s.port with request := s.port.request.map Request.tick },
      health := s.health.tick,
      array := { s.array with op := s.array.op.map Op.tick, erase := s.array.erase.map EraseJob.tick } }
  | .held => s
  | .off => s

end Sys2Proof.Machine
end

