-- ==== Sys2Proof/Machine/Flash.lean ====
section
/-! DEFINITION. The commands of the array port: the grant, and what the flash reports of the operation in flight. An event
that fits no operation in flight changes nothing (log 4). -/

namespace Sys2Proof.Machine

/-- ARBITER_GRANT (R97). -/
def execArbiterGrant (s : State) : Host.Outcome State Fault Refusal := s.taken State.grant

/-! ### Reads -/

/-- A read's completion is taken when the operation in flight is of a given purpose and has left its STATUS wait (R41,
R104). -/
def State.readEnd (s : State) (is : Purpose → Bool) (take : State → Op → State) : State :=
  match s.array.op with
  | none => s
  | some o => if is o.purpose && !o.statusWait then take s.opEnded o else s

/-- The read of a read piece. -/
def Purpose.isPiece : Purpose → Bool
  | .readPiece _ => true
  | _ => false

/-- A completed read piece is tested (R41); one abandoned is discarded untested (R44). -/
def State.takePiece (received : Upset) (s : State) (o : Op) : State :=
  if o.abandoned then s
  else
    match o.purpose, s.port.request with
    | .readPiece i, some r => s.pieceRead r i o.at (s.received o received)
    | _, _ => s

/-- READ_PIECE_COMPLETION (R41, R42). -/
def execReadPieceCompletion (received : Upset) (s : State) : Host.Outcome State Fault Refusal :=
  s.taken fun s => s.readEnd Purpose.isPiece (State.takePiece received)

/-- A merge read. -/
def Purpose.isMerge : Purpose → Bool
  | .mergeRead _ => true
  | _ => false

/-- A completed merge read is tested (R50); one abandoned is discarded (R58). -/
def State.takeMerge (received : Upset) (s : State) (o : Op) : State :=
  if o.abandoned then s
  else
    match o.purpose, s.port.request with
    | .mergeRead i, some r => s.mergeDone r i o.at (s.received o received)
    | _, _ => s

/-- MERGE_READ_COMPLETION (R50). -/
def execMergeReadCompletion (received : Upset) (s : State) : Host.Outcome State Fault Refusal :=
  s.taken fun s => s.readEnd Purpose.isMerge (State.takeMerge received)

/-- A relocation read. -/
def Purpose.isReloc : Purpose → Bool
  | .relocRead _ => true
  | _ => false

/-- A completed relocation read is tested and its copy held (R82, R84). -/
def State.takeReloc (received : Upset) (s : State) (o : Op) : State :=
  match o.purpose with
  | .relocRead k =>
    match s.copyOf k with
    | some c => s.relocReadDone k c (s.received o received)
    | none => s
  | _ => s

/-- RELOCATION_READ_COMPLETION (R82). -/
def execRelocationReadCompletion (received : Upset) (s : State) : Host.Outcome State Fault Refusal :=
  s.taken fun s => s.readEnd Purpose.isReloc (State.takeReloc received)

/-- A read of the mount scan. -/
def Purpose.isScan (p : Purpose) : Bool := decide (p = .mountRead)

/-- A completed scan read is taken by the mount engine (R137, R140, R142). -/
def State.takeMountRead (received : Upset) (s : State) (o : Op) : State :=
  match s.mount with
  | some m => s.takeScan m (s.received o received)
  | none => s

/-- MOUNT_SCAN_READ_COMPLETION (R142). -/
def execMountScanReadCompletion (received : Upset) (s : State) : Host.Outcome State Fault Refusal :=
  s.taken fun s => s.readEnd Purpose.isScan (State.takeMountRead received)

/-- The read of a retire mark area. -/
def Purpose.isMarkRead (p : Purpose) : Bool := decide (p = .markRead)

/-- The retire mark area has been read (R89). -/
def State.takeMarkRead (received : Upset) (s : State) (o : Op) : State :=
  match s.array.erase with
  | some j => s.markAreaRead j (s.received o received)
  | none => s

/-- RETIRE_MARK_AREA_READ_COMPLETION (R89). -/
def execRetireMarkAreaReadCompletion (received : Upset) (s : State) : Host.Outcome State Fault Refusal :=
  s.taken fun s => s.readEnd Purpose.isMarkRead (State.takeMarkRead received)

/-- WIPE's read of block 0's first part. -/
def Purpose.isWipeRead (p : Purpose) : Bool := decide (p = .wipeRead)

/-- The erase count block 0's new header takes (R186): one above the count read, 1 when the first part was not valid. -/
def wipeCount (bs : List Byte) : Nat := ((parseFirstPart bs).map fun p => raiseEraseCount p.2).getD 1

/-- WIPE has read block 0's first part: its erase attempts begin (R186). -/
def State.takeWipeRead (received : Upset) (s : State) (o : Op) : State :=
  match s.mgmt.command with
  | .active (.wipe _ cut) =>
    (s.hold (.wipe .format cut)).setErase (some (newErase .wipe 0 (wipeCount (s.received o received))))
  | _ => s

/-- WIPE_BLOCK0_READ_COMPLETION (R186). -/
def execWipeBlock0ReadCompletion (received : Upset) (s : State) : Host.Outcome State Fault Refusal :=
  s.taken fun s => s.readEnd Purpose.isWipeRead (State.takeWipeRead received)

/-! ### Programs -/

/-- QUEUE_PROGRAM_OUTCOME (R64). -/
def execQueueProgramOutcome (e : ProgramEnd) (s : State) : Host.Outcome State Fault Refusal :=
  s.taken fun s => s.programEnd (fun p => decide (p = .queueProgram)) e

/-- A relocation copy's program. -/
def Purpose.isCopy : Purpose → Bool
  | .copyProgram _ => true
  | _ => false

/-- COPY_PROGRAM_OUTCOME (R86, R87). -/
def execCopyProgramOutcome (e : ProgramEnd) (s : State) : Host.Outcome State Fault Refusal :=
  s.taken fun s => s.programEnd Purpose.isCopy e

/-- An opening field program. -/
def Purpose.isOpening : Purpose → Bool
  | .opening _ => true
  | _ => false

/-- OPENING_PROGRAM_OUTCOME (R76). -/
def execOpeningProgramOutcome (e : ProgramEnd) (s : State) : Host.Outcome State Fault Refusal :=
  s.taken fun s => s.programEnd Purpose.isOpening e

/-- TAIL_MARK_OUTCOME (R77). -/
def execTailMarkOutcome (e : ProgramEnd) (s : State) : Host.Outcome State Fault Refusal :=
  s.taken fun s => s.programEnd (fun p => decide (p = .tailMark)) e

/-- RETIRE_MARK_OUTCOME (R91, R89): of a RETIRING block, or after a third failed erase attempt. -/
def execRetireMarkOutcome (e : ProgramEnd) (s : State) : Host.Outcome State Fault Refusal :=
  s.taken fun s => s.programEnd (fun p => decide (p = .retireMark) || decide (p = .eraseMark)) e

/-- DRAIN_PROGRAM_OUTCOME (R157). -/
def execDrainProgramOutcome (e : ProgramEnd) (s : State) : Host.Outcome State Fault Refusal :=
  s.taken fun s => s.programEnd (fun p => decide (p = .drainProgram)) e

/-- SETTINGS_APPEND_OUTCOME (R179). -/
def execSettingsAppendOutcome (e : ProgramEnd) (s : State) : Host.Outcome State Fault Refusal :=
  s.taken fun s => s.programEnd (fun p => decide (p = .settings)) e

/-- A program of block 0's format (R138, R139, R186). -/
def Purpose.isBlock0 (p : Purpose) : Bool := decide (p = .block0Header) || decide (p = .block0Record)

/-- A program of mount's step 9 (R148). -/
def State.isRepair (s : State) (p : Purpose) : Bool :=
  decide (p = .mountHeader) || decide (p = .mountTail) || (p.isBlock0 && decide (s.mgmt.mode = .mount))

/-- MOUNT_REPAIR_PROGRAM_OUTCOME (R138, R139, R148). -/
def execMountRepairProgramOutcome (e : ProgramEnd) (s : State) : Host.Outcome State Fault Refusal :=
  s.taken fun s => s.programEnd s.isRepair e

/-- WIPE_PROGRAM_OUTCOME (R186). -/
def execWipeProgramOutcome (e : ProgramEnd) (s : State) : Host.Outcome State Fault Refusal :=
  s.taken fun s => s.programEnd (fun p => p.isBlock0 && decide (s.mgmt.mode = .service)) e

/-! ### Erases -/

/-- An event of the erase in hand is taken in one of its parts, once it has left its STATUS wait. -/
def State.eraseEvent (s : State) (part : ErasePart) (take : State → EraseJob → State) : State :=
  match s.array.erase with
  | none => s
  | some j => if j.part = part ∧ j.statusWait = false then take s j else s

/-- ERASE_FINISHED (R99): the blank check follows. -/
def execEraseFinished (residue : Upset) (s : State) : Host.Outcome State Fault Refusal :=
  s.taken fun s => s.eraseEvent .erasing fun s j => s.eraseDone j residue .blankCheck

/-- BLANK_CHECK_END (R99). -/
def execBlankCheckEnd (received : Upset) (s : State) : Host.Outcome State Fault Refusal :=
  s.taken fun s => s.eraseEvent .blankCheck fun s j => s.blankCheckEnded j received

/-- The header program of an erase ends (R88, R89). -/
def State.takeHeaderEnd (e : ProgramEnd) (s : State) (j : EraseJob) : State :=
  match e with
  | .ended stored readBack => s.headerEnded j stored readBack
  | .timedOut left => s.eraseTimeout j left

/-- HEADER_PROGRAM_END (R88). -/
def execHeaderProgramEnd (e : ProgramEnd) (s : State) : Host.Outcome State Fault Refusal :=
  s.taken fun s => s.eraseEvent .header (State.takeHeaderEnd e)

/-- STATUS reports the erase suspended, which counts, or finished, which does not; then the waiting read is granted
(R100). Of a finished erase that read alone is served before the blank check (log 72). -/
def State.takeSuspended (finished : Option Upset) (s : State) (j : EraseJob) : State :=
  match finished with
  | none => ((s.setErase (some { j with part := .suspended, suspends := j.suspends + 1 })).report .suspend).grant
  | some residue => (s.eraseDone j residue .finished).grant

/-- ERASE_SUSPENDED (R100). -/
def execEraseSuspended (finished : Option Upset) (s : State) : Host.Outcome State Fault Refusal :=
  s.taken fun s => s.eraseEvent .suspending (State.takeSuspended finished)

/-! ### Limits and STATUS -/

/-- OPERATION_TIMEOUT (R102 to R105). -/
def execOperationTimeout (left : Remnant) (s : State) : Host.Outcome State Fault Refusal :=
  s.taken fun s => s.timeOut left

/-- The flash reports ready in the STATUS wait of a grant: the uncertain flag is cleared and the operation is issued
(R103). A program granted before WP# was asserted completes (R106); an erase and a released header that wait here are issued
too (log 67). -/
def State.flashReady (s : State) : State :=
  match s.array.op with
  | some o =>
    if o.statusWait then
      { s with array := { s.array with op := some { o with statusWait := false, running := 0 }, uncertain := false } }
    else s
  | none =>
    match s.array.erase with
    | some j =>
      if j.statusWait then
        { s with array := { s.array with erase := some { j with statusWait := false, clock := 0 }, uncertain := false } }
      else s
    | none => s

/-- FLASH_REPORTS_READY (R103). -/
def execFlashReportsReady (s : State) : Host.Outcome State Fault Refusal := s.taken State.flashReady

end Sys2Proof.Machine
end

