-- ==== Sys2Proof/Machine/Inputs.lean ====
section
/-! DEFINITION. The control inputs, the resets and power, and the report timer: WP_INPUT_CHANGE, PFW_ASSERTED,
PFW_DEASSERTED, POWER_ON_RESET, RESET_ASSERTED, RESET_DEASSERTED, POWER_LOSS, HEALTH_TIMER_EXPIRY. -/

namespace Sys2Proof.Machine

/-- WIPE in progress is cut: nothing further is issued (R187). -/
def State.cutWipe (s : State) : State :=
  match s.mgmt.command with
  | .active (.wipe step _) => s.hold (.wipe step true)
  | .active (.append _ _ _) | .active (.sync _) | .active (.svce _) | .active (.rsts _) | .zero | .unkn => s

/-- A settings append waiting for its grant is refused when WP# is asserted (R106, R179). -/
def State.refuseAppend (s : State) : State :=
  match s.mgmt.command with
  | .active (.append c _ false) => s.completeAppend c .media
  | .active (.append _ _ true) | .active (.sync _) | .active (.svce _) | .active (.rsts _) | .active (.wipe _ _)
  | .zero | .unkn => s

/-- An opening for which the drain's head asks when WP# is asserted waits (R159), though the entry itself is discarded; one
that waits already goes on waiting (log 65). -/
def State.keepDrainOpening (s : State) : State :=
  { s with blocks := { s.blocks with drainOpening := s.blocks.drainOpening || s.drainOpeningAsked } }

/-- WP# changes level (R106): reported to the port (R13), to the management unit as an edge of WRITE_PERMIT (R194), to a
settings append and to WIPE. What the drain had requested waits (R159). -/
def State.wpChange (asserted : Bool) (s : State) : State :=
  if s.array.wp = asserted then s
  else
    let s0 := if asserted then s.keepDrainOpening else s
    let s1 := { s0 with array := { s0.array with wp := asserted } }
    let s2 := (s1.edge s1.mgmt.edgeWp .wpChange asserted (!asserted)).wake
    if asserted then s2.refuseAppend.cutWipe else s2

/-- WP_INPUT_CHANGE (R106). -/
def execWpInputChange (asserted : Bool) (s : State) : Host.Outcome State Fault Refusal :=
  s.taken (State.wpChange asserted)

/-- PFW# as sampled. -/
def State.setPfw (s : State) (asserted : Bool) : State := { s with drain := { s.drain with pfw := asserted } }

/-- PFW# is asserted (R154). -/
def State.pfwAssert (s : State) : State :=
  if s.drain.pfw then s
  else
    let s1 := s.setPfw true
    match s1.mgmt.mode with
    | .run | .readonly => s1.beginDrain
    | .drain => { s1 with drain := { s1.drain with releasePending := false } }
    | .service => s1.cutWipe
    | .mount | .halted => s1

/-- PFW_ASSERTED (R154). -/
def execPfwAsserted (s : State) : Host.Outcome State Fault Refusal := s.taken State.pfwAssert

/-- PFW# is deasserted (R162). -/
def State.pfwDeassert (s : State) : State :=
  if s.drain.pfw then
    let s1 := s.setPfw false
    match s1.drain.phase with
    | .drained => s1.endDrain
    | .draining => { s1 with drain := { s1.drain with releasePending := true } }
    | .inactive => s1
  else s

/-- PFW_DEASSERTED (R162). -/
def execPfwDeasserted (s : State) : Host.Outcome State Fault Refusal := s.taken State.pfwDeassert

/-- The machine out of power or held in reset: no volatile state but the samples to come (R18, R174, log 10). No event is
set, so IRQ# is deasserted there (log 64): the entry to MOUNT raises MODE_CHANGE when the reset ends (R190, log 24). -/
def State.stopped (s : State) (p : Power) (cut : Remnant) : State :=
  let t := State.poweredUp (s.cutFlash cut) Pins.quiet s.pending
  { t with power := p, mgmt := { t.mgmt with events := 0 } }

/-- POWER_ON_RESET (R134, R195): power is applied; an operation in flight, if there was one, was cut short (R21). -/
def execPowerOnReset (pins : Pins) (cut : Remnant) (s : State) : Host.Outcome State Fault Refusal :=
  .next (State.poweredUp (s.cutFlash cut) pins s.pending)

/-- RESET_ASSERTED (R18, R21): everything volatile is lost and no request is taken until RESET# is deasserted. -/
def execResetAsserted (cut : Remnant) (s : State) : Host.Outcome State Fault Refusal :=
  match s.power with
  | .on => .next (s.stopped .held cut)
  | .held => .next s
  | .off => .next s

/-- RESET_DEASSERTED (R134, R195): straps and inputs are sampled and mount begins. -/
def execResetDeasserted (pins : Pins) (s : State) : Host.Outcome State Fault Refusal :=
  match s.power with
  | .held => .next (State.poweredUp s.flash pins s.pending)
  | .on => .next s
  | .off => .next s

/-- POWER_LOSS (R21): the operation in flight is cut short and all volatile state is lost. -/
def execPowerLoss (cut : Remnant) (s : State) : Host.Outcome State Fault Refusal := .next (s.stopped .off cut)

/-- The report timer expires (R166): it runs in AUTO only, and an expiry that a restart has overtaken does not occur
(R168). -/
def State.healthExpiry (s : State) : State :=
  if s.health.auto ∧ 1000000 * s.health.interval ≤ s.health.elapsed then s.closeHealthWindow else s

/-- HEALTH_TIMER_EXPIRY (R166). -/
def execHealthTimerExpiry (s : State) : Host.Outcome State Fault Refusal := s.taken State.healthExpiry

end Sys2Proof.Machine
end

