-- ==== Sys2Proof/Machine/Internal.lean ====
section
/-! DEFINITION. The bridge's own events that have a row: SYNC_COMPLETION, SERVICE_ENTRY, SOFT_RESET, MOUNT_COMPLETION,
COMMIT_ENTRY_APPEND, VICTIM_CHOICE. Each is taken when its conditions hold and changes nothing otherwise (log 4). -/

namespace Sys2Proof.Machine

/-! ### SYNC (R71) -/

/-- SYNC in progress completes when no marked entry remains, or when a marked entry cannot be issued (R71). -/
def State.endSync (s : State) : State :=
  match s.mgmt.command with
  | .active (.sync discarded) =>
    if s.marksRemain = false ∧ s.marksOwed = false then s.complete (if discarded then .media else .done) []
    else if s.syncBlocked then s.complete .media []
    else s
  | .active (.append _ _ _) | .active (.wipe _ _) | .active (.svce _) | .active (.rsts _) | .zero | .unkn => s

/-- SYNC_COMPLETION (R71). -/
def execSyncCompletion (s : State) : Host.Outcome State Fault Refusal := s.taken State.endSync

/-! ### Step 5 of SVCE and RSTS (R183, R185) -/

/-- Step 4 is over: nothing is in flight (R183, R185, log 18). A header held under WP# is not waited for, nor is a retire
mark still owed after a third failed erase attempt (log 52). -/
def State.flashQuiet (s : State) : Bool := s.array.op.isNone && !s.eraseBusy

/-- The fault of an entry discarded at step 5 of SVCE (R183). -/
def discardReport (q : QEntry) : FaultReport :=
  match q with
  | .line e => { faultOf .programFail with line := some e.line }
  | .commit e => { faultOf .programFail with window := some e.window }

/-- An entry that remains at step 5 of SVCE is discarded (R183). -/
def State.discardAtService (s : State) (q : QEntry) : State :=
  let s1 := match q with
    | .line _ => s
    | .commit e => s.lostCommit e.window
  s1.reportFault (discardReport q)

/-- The queue is emptied at step 5 of SVCE (R52, R183). The entries are discarded in the queue's order, the oldest first, so
that a free fault record captures the oldest entry's PROGRAM_FAIL: R183 gives no order, the order is the model's choice (log
73). -/
def State.discardRest (s : State) : State :=
  s.queue.entries.foldl State.discardAtService { s with queue := { s.queue with entries := [], requests := [] } }

/-- Step 5 of SVCE (R183): SERVICE is entered and the command completes. An erase whose retire mark is still owed is dropped,
its block left ERASING (log 52). -/
def State.enterService (s : State) (discarded : Bool) : State :=
  let lost := discarded || s.marksRemain
  ((s.discardRest.setErase none).setMode .service).complete (if lost then .media else .done) []

/-- SERVICE_ENTRY is taken once steps 3 and 4 of SVCE are over (R183). -/
def State.tryService (s : State) : State :=
  match s.mgmt.command with
  | .active (.svce discarded) =>
    if s.mgmt.mode.working = true ∧ s.syncStepOver = true ∧ s.flashQuiet = true then s.enterService discarded else s
  | .active (.append _ _ _) | .active (.wipe _ _) | .active (.sync _) | .active (.rsts _) | .zero | .unkn => s

/-- SERVICE_ENTRY (R183). -/
def execServiceEntry (s : State) : Host.Outcome State Fault Refusal := s.taken State.tryService

/-- The SYNC step of RSTS is over (R185): at once in MOUNT and SERVICE; in DRAIN when the queue is empty. -/
def State.resetReady (s : State) : Bool :=
  match s.mgmt.mode with
  | .run | .readonly => s.syncStepOver
  | .drain => decide (s.queue.entries = [])
  | .mount => !s.flashLost
  | .service => true
  | .halted => false

/-- SOFT_RESET is taken once steps 3 and 4 of RSTS are over (R185). -/
def State.trySoftReset (s : State) : State :=
  match s.mgmt.command with
  | .active (.rsts discarded) =>
    if s.resetReady = true ∧ s.flashQuiet = true then
      s.softReset (if discarded || s.marksRemain then .media else .done)
    else s
  | .active (.append _ _ _) | .active (.wipe _ _) | .active (.sync _) | .active (.svce _) | .zero | .unkn => s

/-- SOFT_RESET (R185). -/
def execSoftReset (s : State) : Host.Outcome State Fault Refusal := s.taken State.trySoftReset

/-! ### Mount completion (R134, R136, R151, R152) -/

/-- Mount's steps are over: the repair list is empty and nothing is in flight, a header held under WP# apart (R150). A held
header that has been released while the mode is still MOUNT is the mount engine's operation, and is waited for (log 61). -/
def State.mountReady (s : State) (m : Mount) : Bool :=
  s.flashQuiet && decide (m.step = .repairs) && decide (m.repairs = [])
    && (match s.array.erase with
        | none => true
        | some j => decide (j.part = .headerHeld))
    && !s.commandHold

/-- Mount has ended early: the flash is lost (R136), or block 0 is unusable (R139). -/
def State.mountEnded (s : State) (m : Mount) : Bool := m.flashLost || (m.block0Unusable && !s.commandHold)

/-- RSTS that waited for mount when the flash was lost completes with MEDIA, for HALTED is not left (R190, log 18). -/
def State.haltWaiting (s : State) : State := if s.mgmt.mode = .halted then s.haltCommand else s

/-- Mount completes when its steps are over (R151, R152). -/
def State.tryMount (s : State) : State :=
  match s.mgmt.mode, s.mount with
  | .mount, some m => if s.mountReady m || s.mountEnded m then (s.completeMount m).haltWaiting else s
  | _, _ => s

/-- MOUNT_COMPLETION (R151, R152). -/
def execMountCompletion (s : State) : Host.Outcome State Fault Refusal := s.taken State.tryMount

/-! ### The queue and the block manager -/

/-- COMMIT_ENTRY_APPEND (R54). -/
def execCommitEntryAppend (s : State) : Host.Outcome State Fault Refusal := s.taken State.appendWaitingCommit

/-- Reclaim chooses a victim when one is due and there is a candidate (R78, R79, R80); none during step 4 of SVCE and RSTS
(log 51). -/
def State.tryVictim (s : State) : State :=
  if s.reclaimDue = true ∧ s.holdsBack = false then
    match s.chooseVictim with
    | some b => s.takeVictim b
    | none => s
  else s

/-- VICTIM_CHOICE (R79). -/
def execVictimChoice (s : State) : Host.Outcome State Fault Refusal := s.taken State.tryVictim

end Sys2Proof.Machine
end

