-- ==== Sys2Proof/Machine/Commands.lean ====
section
/-! DEFINITION. The commands of the management link (Table 11-1, R176 to R189): a write of a code to COMMAND, whose
parameters stand in DATA. -/

namespace Sys2Proof.Machine

/-- A code is written to COMMAND (R176): rejected while a command is in progress, completed with MODE in a mode not listed
for it (R177), carried out otherwise. -/
def State.command (s : State) (c : Code) (body : State → State) : State :=
  let s1 := s.select 2
  match s1.activity with
  | some _ => s1.raise .cmdReject
  | none => if c.takenIn s1.mgmt.mode then body s1 else s1.complete .mode []

/-! ### Reports -/

/-- The results of INFO (R178). -/
def State.infoBytes (s : State) : List Byte :=
  byte1 s.erasedCount ++ byte1 s.fullCount ++ byte1 s.retiredCount ++ le 2 s.freeSlots
    ++ byte1 s.queue.entries.length ++ byte1 s.windows.shadow.length ++ byte1 s.registerUse ++ le 4 s.queue.nextOrigin

/-- INFO carried out (R178). -/
def State.runInfo (s : State) : State := s.complete .done s.infoBytes

/-- INFO (R178). -/
def execInfo (s : State) : Host.Outcome State Fault Refusal := s.taken fun s => s.command .info State.runInfo

/-- The block table entry as BLKQ returns it (R178). -/
def State.blkqBytes (s : State) (b : Nat) : List Byte :=
  let e := s.block b
  byte1 e.state.code ++ le 4 e.eraseCount ++ le 4 (e.blockSeq.getD 0) ++ byte1 (s.liveCount b)
    ++ byte1 (if e.state = .opened then e.nextFree else 0) ++ byte1 e.failures

/-- BLKQ carried out (R178). -/
def State.runBlkq (s : State) : State :=
  let b := s.param 1 1
  if 1 ≤ b then s.complete .done (s.blkqBytes b) else s.complete .param []

/-- BLKQ (R178). -/
def execBlkq (s : State) : Host.Outcome State Fault Refusal := s.taken fun s => s.command .blkq State.runBlkq

/-- The block and slot of a slot, 0 when absent (R178). -/
def slotBytes (x : Option Slot) : List Byte :=
  match x with
  | some y => byte1 y.block ++ byte1 y.slot
  | none => [0, 0]

/-- The code of a current group (R178). -/
def groupCode (g : Option GroupRef) : Nat :=
  match g with
  | none => 0
  | some (.openIn w) => w + 1
  | some (.register i) => i + 16

/-- The LINE entries of a store line. -/
def State.lineEntries (s : State) (line : Nat) : List QEntry :=
  s.queue.entries.filter fun q =>
    match q with
    | .line e => decide (e.line = line)
    | .commit _ => false

/-- What LINE returns (R37, R178). -/
def State.lineBytes (s : State) (line : Nat) : List Byte :=
  let e := s.entry line
  let shadow := match s.shadowOf line with
    | some x => [1] ++ byte1 x.window ++ slotBytes x.committed
    | none => [0, 0, 0, 0]
  let data := match s.newestUsable line with
    | some q => [1] ++ q.image
    | none => List.replicate 33 0
  slotBytes e.current ++ byte1 (groupCode e.group) ++ byte1 e.checkFailed.toNat
    ++ byte1 (s.lineEntries line).length ++ byte1 ((s.lineEntries line).any QEntry.programming).toNat ++ shadow ++ data

/-- LINE carried out (R37, R178). -/
def State.runLine (s : State) : State :=
  let line := s.param 1 2
  if line < Config.storeLines then s.complete .done (s.lineBytes line) else s.complete .param []

/-- LINE (R37, R178). -/
def execLine (s : State) : Host.Outcome State Fault Refusal := s.taken fun s => s.command .line State.runLine

/-- What WSTA returns (R111). -/
def State.wstaBytes (s : State) (w : Nat) : List Byte :=
  let x := s.window w
  byte1 x.state.code ++ le 2 x.first ++ le 2 x.last ++ byte1 x.repeats ++ le 4 (x.group.getD 0) ++ le 2 (s.members w)
    ++ byte1 (x.register.getD 255) ++ byte1 x.awaiting.toNat
    ++ byte1 (s.windows.shadow.filter fun e => decide (e.window = w)).length
    ++ byte1 (s.pastCommitPoint { window := w, group := x.group.getD 0 }).toNat

/-- WSTA carried out (R111). -/
def State.runWsta (s : State) : State :=
  let w := s.param 1 1
  if w < Config.windowCount then s.complete .done (s.wstaBytes w) else s.complete .param []

/-- WSTA (R111). -/
def execWsta (s : State) : Host.Outcome State Fault Refusal := s.taken fun s => s.command .wsta State.runWsta

/-! ### Windows (R110, R117, R126) -/

/-- The window as WARM arms it (R110). -/
def armedWindow (first last repeats : Nat) : Window :=
  { state := .armed, first := first, last := last, repeats := repeats, group := none, register := none, awaiting := false }

/-- The range shares a bus line with that of another window that is not IDLE (R110). -/
def State.overlaps (s : State) (w first last : Nat) : Bool :=
  (List.range Config.windowCount).any fun v =>
    decide (v ≠ w) && decide ((s.window v).state ≠ .idle) && decide ((s.window v).first ≤ last)
      && decide (first ≤ (s.window v).last)

/-- WARM carried out (R110). -/
def State.runWarm (s : State) : State :=
  let w := s.param 1 1
  let first := s.param 2 2
  let last := s.param 4 2
  if 3 < w then s.complete .param []
  else if (s.window w).state ≠ .idle then s.complete .state []
  else if last < first ∨ Config.storeLines ≤ last then s.complete .param []
  else if s.overlaps w first last = true then s.complete .param []
  else (s.setWindow w (armedWindow first last (s.param 6 1))).complete .done []

/-- WARM (R110). -/
def execWarm (s : State) : Host.Outcome State Fault Refusal := s.taken fun s => s.command .warm State.runWarm

/-- WEND carried out (R117). -/
def State.runWend (s : State) : State :=
  let w := s.param 1 1
  if 3 < w then s.complete .param []
  else
    match (s.window w).state with
    | .idle | .committing => s.complete .state []
    | .armed => s.complete .done []
    | .opened => (s.closeGroup w ((s.window w).group.getD 0)).complete .done []

/-- WEND (R117). -/
def execWend (s : State) : Host.Outcome State Fault Refusal := s.taken fun s => s.command .wend State.runWend

/-- WDRP carried out (R126). -/
def State.runWdrp (s : State) : State :=
  let w := s.param 1 1
  if 3 < w then s.complete .param []
  else
    match (s.window w).state with
    | .idle => s.complete .state []
    | .armed => (s.disarmWindow w).complete .done []
    | .opened => (s.abortGroup w).complete .done []
    | .committing =>
      if s.pastCommitPoint { window := w, group := (s.window w).group.getD 0 } then s.complete .late []
      else (s.abortGroup w).complete .done []

/-- WDRP (R126). -/
def execWdrp (s : State) : Host.Outcome State Fault Refusal := s.taken fun s => s.command .wdrp State.runWdrp

/-! ### Settings (R179 to R182) -/

/-- A settings append is asked for (R179): FULL when block 0 has no slot, MEDIA under WP#, otherwise it waits for its
grant. -/
def State.askAppend (s : State) (c : Code) (new : Settings) : State :=
  if Config.lastSlot < s.mgmt.nextSettingsSlot then s.completeAppend c .full
  else if s.array.wp then s.completeAppend c .media
  else s.hold (.append c { new with seq := s.mgmt.nextSettingsSeq } false)

/-- ZLCK carried out (R180). -/
def State.runZlck (s : State) : State :=
  let old := s.mgmt.settings
  let locks := old.locks ||| BitVec.ofNat 8 (s.param 1 1)
  if locks = old.locks then s.completeAppend .zlck .done else s.askAppend .zlck { old with locks := locks }

/-- ZLCK (R180). -/
def execZlck (s : State) : Host.Outcome State Fault Refusal := s.taken fun s => s.command .zlck State.runZlck

/-- XCHG carried out (R181). -/
def State.runXchg (s : State) : State :=
  s.askAppend .xchg { s.mgmt.settings with exchange := !s.mgmt.settings.exchange }

/-- XCHG (R181). -/
def execXchg (s : State) : Host.Outcome State Fault Refusal := s.taken fun s => s.command .xchg State.runXchg

/-- POLY carried out (R182). Every completion of it is one of R13, also with PARAM. -/
def State.runPoly (s : State) : State :=
  let fill := s.param 1 1
  let policy := s.param 2 1
  let stall := s.param 3 2
  let old := s.mgmt.settings
  let new := { old with fill := BitVec.ofNat 8 fill, strict := decide (policy = 2), stall := stall }
  if (fill ≠ 0 ∧ fill ≠ 255) ∨ (policy ≠ 1 ∧ policy ≠ 2) ∨ stall < 10 ∨ 1000 < stall then s.completeAppend .poly .param
  else if new = old then s.completeAppend .poly .done
  else s.askAppend .poly new

/-- POLY (R182). -/
def execPoly (s : State) : Host.Outcome State Fault Refusal := s.taken fun s => s.command .poly State.runPoly

/-! ### Health (R167 to R169) -/

/-- The parameters of HCFG, when they are in range (R168). -/
def healthConfig (cls mode interval : Nat) : Option (HealthClass × Bool × Nat) :=
  match HealthClass.ofCode cls with
  | none => none
  | some c => if mode ≤ 1 ∧ 1 ≤ interval ∧ interval ≤ 60 then some (c, decide (mode = 0), interval) else none

/-- HCFG carried out (R168). -/
def State.runHcfg (s : State) : State :=
  match healthConfig (s.param 1 1) (s.param 2 1) (s.param 3 1) with
  | none => s.complete .param []
  | some (c, auto, interval) =>
    if s.health.cls = c ∧ s.health.auto = auto ∧ s.health.interval = interval then s.complete .done []
    else
      { s with health := { s.health with cls := c, auto := auto, interval := interval }.restart }.complete .done []

/-- HCFG (R168). -/
def execHcfg (s : State) : Host.Outcome State Fault Refusal := s.taken fun s => s.command .hcfg State.runHcfg

/-- TALY carried out (R167). -/
def State.runTaly (s : State) : State :=
  if s.health.auto then s.complete .state [] else s.closeHealthWindow.complete .done []

/-- TALY (R167). -/
def execTaly (s : State) : Host.Outcome State Fault Refusal := s.taken fun s => s.command .taly State.runTaly

/-- INJT carried out (R169). -/
def State.runInjt (s : State) : State :=
  match Arm.ofCode (s.param 1 1) with
  | none => s.complete .param []
  | some a => { s with health := { s.health with arm := a } }.complete .done (byte1 s.health.arm.code)

/-- INJT (R169). -/
def execInjt (s : State) : Host.Outcome State Fault Refusal := s.taken fun s => s.command .injt State.runInjt

/-! ### The fault record (R189) -/

/-- FACK carried out (R189). -/
def State.runFack (s : State) : State := s.freeFault.complete .done (byte1 s.mgmt.further.toNat)

/-- FACK (R189). -/
def execFack (s : State) : Host.Outcome State Fault Refusal := s.taken fun s => s.command .fack State.runFack

/-! ### SYNC, service and reset (R71, R183 to R186) -/

/-- SYNC carried out (R71, Table 11-1): an empty queue completes it with DONE; it completes at once with MEDIA in HALTED,
or when a marked entry cannot be issued. -/
def State.runSync (s : State) : State :=
  if s.queue.entries = [] then s.complete .done []
  else
    let s1 := s.markAll
    if s.mgmt.mode = .halted ∨ s1.syncBlocked = true then s1.complete .media [] else s1.hold (.sync false)

/-- SYNC (R71). -/
def execSync (s : State) : Host.Outcome State Fault Refusal := s.taken fun s => s.command .sync State.runSync

/-- Steps 1 to 3 of SVCE begin (R183): command hold, every window disarmed or aborted, every entry marked. -/
def State.runSvce (s : State) : State := ((s.hold (.svce false)).stopWindows).markAll

/-- SVCE (R183). -/
def execSvce (s : State) : Host.Outcome State Fault Refusal := s.taken fun s => s.command .svce State.runSvce

/-- SVCX carried out (R184). -/
def State.runSvcx (s : State) : State := s.enterMount.complete .done []

/-- SVCX (R184). -/
def execSvcx (s : State) : Host.Outcome State Fault Refusal := s.taken fun s => s.command .svcx State.runSvcx

/-- WIPE carried out (R186): MEDIA under WP#, CUT under PFW#, otherwise the format begins; an erase left from before
SERVICE is not taken up again. -/
def State.runWipe (s : State) : State :=
  if s.array.wp then s.complete .media []
  else if s.drain.pfw then s.complete .cut []
  else (s.hold (.wipe (.data 1) false)).setErase none

/-- WIPE (R186). -/
def execWipe (s : State) : Host.Outcome State Fault Refusal := s.taken fun s => s.command .wipe State.runWipe

/-- Steps 1 to 3 of RSTS begin (R185); in MOUNT and SERVICE the windows are IDLE and the queue is empty. -/
def State.runRsts (s : State) : State := ((s.hold (.rsts false)).stopWindows).markAll

/-- RSTS (R185). -/
def execRsts (s : State) : Host.Outcome State Fault Refusal := s.taken fun s => s.command .rsts State.runRsts

/-! ### Other writes to COMMAND and DATA (R176) -/

/-- A value that is no code is written to COMMAND (R176). -/
def State.unknownCode (s : State) : State :=
  let s1 := s.select 2
  match s1.activity with
  | some _ => s1.raise .cmdReject
  | none =>
    { s1 with mgmt := { s1.mgmt with
        command := .unkn, data := putData s1.mgmt.data 0 (byte1 Ret.param.code),
        events := setEvent s1.mgmt.events .cmdDone } }

/-- UNKN (R176). -/
def execUnkn (s : State) : Host.Outcome State Fault Refusal := s.taken State.unknownCode

/-- A write to COMMAND or DATA while a command is in progress (R176). -/
def State.rejectWrite (toData : Bool) (s : State) : State :=
  match s.activity with
  | some _ => (s.select (if toData then 3 else 2)).raise .cmdReject
  | none => s

/-- COMMAND_WRITE_REJECTED (R176). -/
def execCommandWriteRejected (toData : Bool) (s : State) : Host.Outcome State Fault Refusal :=
  s.taken (State.rejectWrite toData)

/-- The body of each code. -/
def Code.run : Code → State → State
  | .info => State.runInfo
  | .sync => State.runSync
  | .warm => State.runWarm
  | .wend => State.runWend
  | .wdrp => State.runWdrp
  | .wsta => State.runWsta
  | .line => State.runLine
  | .blkq => State.runBlkq
  | .zlck => State.runZlck
  | .xchg => State.runXchg
  | .poly => State.runPoly
  | .hcfg => State.runHcfg
  | .taly => State.runTaly
  | .injt => State.runInjt
  | .svce => State.runSvce
  | .svcx => State.runSvcx
  | .wipe => State.runWipe
  | .rsts => State.runRsts
  | .fack => State.runFack

end Sys2Proof.Machine
end

