-- ==== Sys2Proof/Machine/Items.lean ====
section
/-! DEFINITION. Writes to the other management items (R174, R175, R192 to R194): MASK_WRITE, CLEAR_WRITE, ITEM_WRITE. -/

namespace Sys2Proof.Machine

/-- MASK takes a value whole (R193). -/
def State.writeMask (value : BitVec 16) (s : State) : State :=
  { s with mgmt := { s.mgmt with mask := value, selected := 5 } }

/-- MASK_WRITE (R193). -/
def execMaskWrite (value : BitVec 16) (s : State) : Host.Outcome State Fault Refusal := s.taken (State.writeMask value)

/-- The events whose bits are 1 are cleared (R192). -/
def State.writeClear (value : BitVec 16) (s : State) : State :=
  { s with mgmt := { s.mgmt with events := s.mgmt.events &&& ~~~value, selected := 6 } }

/-- CLEAR_WRITE (R192). -/
def execClearWrite (value : BitVec 16) (s : State) : Host.Outcome State Fault Refusal := s.taken (State.writeClear value)

/-- The item bytes of a write to COMMAND (R176): fewer than four are ignored, but rejected during a command (log 16). -/
def State.writeCommand (bs : List Byte) (s : State) : State :=
  match s.activity with
  | some _ => s.raise .cmdReject
  | none =>
    if bs.length < 4 then s
    else if bs.take 4 = [0, 0, 0, 0] then { s with mgmt := { s.mgmt with command := .zero } }
    else
      match Code.ofBytes (bs.take 4) with
      | some c => s.command c c.run
      | none => s.unknownCode

/-- The item bytes of a write to DATA (R175, R176). -/
def State.writeData (bs : List Byte) (s : State) : State :=
  match s.activity with
  | some _ => s.raise .cmdReject
  | none => { s with mgmt := { s.mgmt with data := putData s.mgmt.data 0 (bs.take 64) } }

/-- The item bytes of a write to EDGES (R175, R194); bits 4 to 7 are ignored (log 69). -/
def State.writeEdges (b : Byte) (s : State) : State :=
  { s with mgmt := { s.mgmt with edgeSpace := EdgeSel.ofCode s.mgmt.edgeSpace (b.toNat % 4),
                                 edgeWp := EdgeSel.ofCode s.mgmt.edgeWp (b.toNat / 4 % 4) } }

/-- The value of two item bytes written over an old value; a byte not carried keeps its bits (log 28). -/
def writeTwo (old : BitVec 16) (bs : List Byte) : BitVec 16 :=
  BitVec.ofNat 16 (unle (bs.take 2 ++ (le 2 old.toNat).drop (bs.take 2).length))

/-- The item bytes of a write transfer take effect together (R174); writes to read-only and unknown items are ignored. -/
def State.writeItem (item : Nat) (bs : List Byte) (s : State) : State :=
  match item, bs with
  | _, [] => s
  | 2, _ :: _ => s.writeCommand bs
  | 3, _ :: _ => s.writeData bs
  | 5, _ :: _ => s.writeMask (writeTwo s.mgmt.mask bs)
  | 6, _ :: _ => s.writeClear (writeTwo 0 bs)
  | 7, b :: _ => s.writeEdges b
  | _, _ :: _ => s

/-- A write transfer: its first byte becomes the selected item (R174). -/
def State.takeTransfer (item : Byte) (bs : List Byte) (s : State) : State :=
  (s.select item.toNat).writeItem item.toNat bs

/-- ITEM_WRITE (R174, R175). -/
def execItemWrite (item : Byte) (bytes : List Byte) (s : State) : Host.Outcome State Fault Refusal :=
  s.taken (State.takeTransfer item bytes)

end Sys2Proof.Machine
end

