-- ==== Sys2Proof/Machine/Upstream.lean ====
section
/-! DEFINITION. The commands of the host bus and the port: READ_REQUEST, WRITE_REQUEST, WRITE_ACCEPTANCE, STALL_EXPIRY. -/

namespace Sys2Proof.Machine

/-- A READ is presented: it is taken when no request is in progress (R1, R14). -/
def State.readArrives (addr : BitVec 24) (count : Nat) (s : State) : State :=
  if s.port.request.isSome then s else s.takeRequest false addr.toNat count []

/-- READ_REQUEST (R1, R14): the byte count of a request is 1 to 32. -/
def execReadRequest (addr : BitVec 24) (count : Nat) (s : State) : Host.Outcome State Fault Refusal :=
  if validCount count then s.taken (State.readArrives addr count) else .refused .noSuchRequest

/-- A WRITE is presented (R1, R8). -/
def State.writeArrives (addr : BitVec 24) (data : List Byte) (s : State) : State :=
  if s.port.request.isSome then s else s.takeRequest true addr.toNat data.length data

/-- WRITE_REQUEST (R1, R8). -/
def execWriteRequest (addr : BitVec 24) (data : List Byte) (s : State) : Host.Outcome State Fault Refusal :=
  if validCount data.length then s.taken (State.writeArrives addr data) else .refused .noSuchRequest

/-- The queue accepts the write in hand-over when every condition holds (R55). -/
def State.tryAccept (s : State) : State :=
  match s.port.request with
  | none => s
  | some r => if r.phase = .handOver ∧ s.canAccept r.handed = true then s.accept r else s

/-- WRITE_ACCEPTANCE (R55). -/
def execWriteAcceptance (s : State) : Host.Outcome State Fault Refusal := s.taken State.tryAccept

/-- STALL_EXPIRY (R17). -/
def execStallExpiry (s : State) : Host.Outcome State Fault Refusal := s.taken State.stallExpired

end Sys2Proof.Machine
end

