-- ==== Sys2Proof/Machine/Dispatch.lean ====
section
/-! DEFINITION. The meaning of each command: one arm for each row of spec/opcode_table.json, in the table's order. -/

namespace Sys2Proof.Machine

/-- What a command does to everything but the queue. -/
def exec (i : Instr) (s : State) : Host.Outcome State Fault Refusal :=
  match i with
  | .readRequest addr count => Sys2Proof.Machine.execReadRequest addr count s
  | .writeRequest addr data => Sys2Proof.Machine.execWriteRequest addr data s
  | .writeAcceptance => Sys2Proof.Machine.execWriteAcceptance s
  | .stallExpiry => Sys2Proof.Machine.execStallExpiry s
  | .arbiterGrant => Sys2Proof.Machine.execArbiterGrant s
  | .readPieceCompletion received => Sys2Proof.Machine.execReadPieceCompletion received s
  | .mergeReadCompletion received => Sys2Proof.Machine.execMergeReadCompletion received s
  | .relocationReadCompletion received => Sys2Proof.Machine.execRelocationReadCompletion received s
  | .mountScanReadCompletion received => Sys2Proof.Machine.execMountScanReadCompletion received s
  | .queueProgramOutcome e => Sys2Proof.Machine.execQueueProgramOutcome e s
  | .copyProgramOutcome e => Sys2Proof.Machine.execCopyProgramOutcome e s
  | .openingProgramOutcome e => Sys2Proof.Machine.execOpeningProgramOutcome e s
  | .tailMarkOutcome e => Sys2Proof.Machine.execTailMarkOutcome e s
  | .retireMarkOutcome e => Sys2Proof.Machine.execRetireMarkOutcome e s
  | .drainProgramOutcome e => Sys2Proof.Machine.execDrainProgramOutcome e s
  | .settingsAppendOutcome e => Sys2Proof.Machine.execSettingsAppendOutcome e s
  | .mountRepairProgramOutcome e => Sys2Proof.Machine.execMountRepairProgramOutcome e s
  | .wipeProgramOutcome e => Sys2Proof.Machine.execWipeProgramOutcome e s
  | .eraseFinished residue => Sys2Proof.Machine.execEraseFinished residue s
  | .blankCheckEnd received => Sys2Proof.Machine.execBlankCheckEnd received s
  | .headerProgramEnd e => Sys2Proof.Machine.execHeaderProgramEnd e s
  | .eraseSuspended finished => Sys2Proof.Machine.execEraseSuspended finished s
  | .operationTimeout left => Sys2Proof.Machine.execOperationTimeout left s
  | .wpInputChange asserted => Sys2Proof.Machine.execWpInputChange asserted s
  | .pfwAsserted => Sys2Proof.Machine.execPfwAsserted s
  | .pfwDeasserted => Sys2Proof.Machine.execPfwDeasserted s
  | .powerOnReset pins cut => Sys2Proof.Machine.execPowerOnReset pins cut s
  | .resetAsserted cut => Sys2Proof.Machine.execResetAsserted cut s
  | .resetDeasserted pins => Sys2Proof.Machine.execResetDeasserted pins s
  | .healthTimerExpiry => Sys2Proof.Machine.execHealthTimerExpiry s
  | .info => Sys2Proof.Machine.execInfo s
  | .sync => Sys2Proof.Machine.execSync s
  | .warm => Sys2Proof.Machine.execWarm s
  | .wend => Sys2Proof.Machine.execWend s
  | .wdrp => Sys2Proof.Machine.execWdrp s
  | .wsta => Sys2Proof.Machine.execWsta s
  | .line => Sys2Proof.Machine.execLine s
  | .blkq => Sys2Proof.Machine.execBlkq s
  | .zlck => Sys2Proof.Machine.execZlck s
  | .xchg => Sys2Proof.Machine.execXchg s
  | .poly => Sys2Proof.Machine.execPoly s
  | .hcfg => Sys2Proof.Machine.execHcfg s
  | .taly => Sys2Proof.Machine.execTaly s
  | .injt => Sys2Proof.Machine.execInjt s
  | .svce => Sys2Proof.Machine.execSvce s
  | .svcx => Sys2Proof.Machine.execSvcx s
  | .wipe => Sys2Proof.Machine.execWipe s
  | .rsts => Sys2Proof.Machine.execRsts s
  | .fack => Sys2Proof.Machine.execFack s
  | .unkn => Sys2Proof.Machine.execUnkn s
  | .commandWriteRejected toData => Sys2Proof.Machine.execCommandWriteRejected toData s
  | .maskWrite value => Sys2Proof.Machine.execMaskWrite value s
  | .clearWrite value => Sys2Proof.Machine.execClearWrite value s
  | .itemWrite item bytes => Sys2Proof.Machine.execItemWrite item bytes s
  | .syncCompletion => Sys2Proof.Machine.execSyncCompletion s
  | .serviceEntry => Sys2Proof.Machine.execServiceEntry s
  | .softReset => Sys2Proof.Machine.execSoftReset s
  | .mountCompletion => Sys2Proof.Machine.execMountCompletion s
  | .commitEntryAppend => Sys2Proof.Machine.execCommitEntryAppend s
  | .victimChoice => Sys2Proof.Machine.execVictimChoice s
  | .powerLoss cut => Sys2Proof.Machine.execPowerLoss cut s
  | .flashReportsReady => Sys2Proof.Machine.execFlashReportsReady s
  | .retireMarkAreaReadCompletion received => Sys2Proof.Machine.execRetireMarkAreaReadCompletion received s
  | .wipeBlock0ReadCompletion received => Sys2Proof.Machine.execWipeBlock0ReadCompletion received s

end Sys2Proof.Machine
end

