-- ==== Sys2Proof/Safety.lean ====
section
/-! DEFINITION. The predicates that claims about the bridge use: the standing part of a state, which nothing that follows
an event changes; calm states, in which little follows; and the invariants of every step. -/

namespace Sys2Proof.Machine

/-! ### The standing part -/

/-- The state that no reaction of R13, R88, R92, R100, R106, R130, R132, R150, R158, R159, R161, R187, R191 or R194
changes: only the event that a command stands for does. -/
structure Standing where
  power : Power
  flash : List Host.Cell
  pending : List Instr
  health : Health
  wp : Bool
  timeouts : Nat
  uncertain : Bool
  pfw : Bool
  exchange : Bool
  nextOrigin : Nat
  nextBlockSeq : Nat
  reclaimCounter : Nat
  settings : Settings
  nextSettingsSeq : Nat
  nextSettingsSlot : Nat
  mask : BitVec 16
  edgeSpace : EdgeSel
  edgeWp : EdgeSel
  selected : Nat
  target : Nat
  deriving DecidableEq, Repr

/-- The standing part of a state. -/
def State.standing (s : State) : Standing :=
  { power := s.power, flash := s.flash, pending := s.pending, health := s.health, wp := s.array.wp,
    timeouts := s.array.timeouts, uncertain := s.array.uncertain, pfw := s.drain.pfw, exchange := s.port.exchange,
    nextOrigin := s.queue.nextOrigin, nextBlockSeq := s.blocks.nextSeq, reclaimCounter := s.blocks.reclaimCounter,
    settings := s.mgmt.settings, nextSettingsSeq := s.mgmt.nextSettingsSeq,
    nextSettingsSlot := s.mgmt.nextSettingsSlot, mask := s.mgmt.mask, edgeSpace := s.mgmt.edgeSpace,
    edgeWp := s.mgmt.edgeWp, selected := s.mgmt.selected, target := s.mgmt.target }

/-! ### Calm states -/

/-- The mode stays as it is whatever the degrade conditions (R191). -/
def Mode.settled : Mode → Bool
  | .readonly | .mount | .service | .halted => true
  | .run | .drain => false

/-- A calm state: power is on, no degrade condition is to be taken, no window awaits a register entry, no drain is under
way, no reclaim, erase, release or mount is in hand and no cut WIPE is to complete. What follows an event that leads to a
calm state is at most the freeing of dead groups (R130), a move of the request at the port (R13) and the SPACE_LOW status
(R194). -/
def State.calm (s : State) : Bool :=
  decide (s.power = .on) && (!s.degraded || s.mgmt.mode.settled)
    && (List.range Config.windowCount).all (fun w => !(s.window w).awaiting)
    && !(decide (s.mgmt.mode = .drain) && decide (s.drain.phase = .draining))
    && decide (s.blocks.victim = none) && decide (s.array.erase = none)
    && decide (s.blocks.release = none) && decide (s.committedCount ≤ Config.releaseThreshold)
    && decide (s.windows.release = none) && decide (s.mount = none) && !s.wipeCut

/-- A state at rest: calm, with no request at the port and no read in flight for one, no dead group in the register
(R130), and the SPACE_LOW status as its causes have it (R194). Nothing follows. -/
def State.atRest (s : State) : Bool :=
  s.calm && decide (s.port.request = none) && !s.readInFlight && decide (s.freeDeadGroups = s)
    && decide (s.mgmt.spaceLow = s.headStalled)

/-- The command that writes a code to COMMAND. -/
def Code.instr : Code → Instr
  | .info => .info
  | .sync => .sync
  | .warm => .warm
  | .wend => .wend
  | .wdrp => .wdrp
  | .wsta => .wsta
  | .line => .line
  | .blkq => .blkq
  | .zlck => .zlck
  | .xchg => .xchg
  | .poly => .poly
  | .hcfg => .hcfg
  | .taly => .taly
  | .injt => .injt
  | .svce => .svce
  | .svcx => .svcx
  | .wipe => .wipe
  | .rsts => .rsts
  | .fack => .fack

/-- Code `c` is taken: power is on, no command is in progress and the mode is one of those listed for it (R176, R177). -/
def State.takes (s : State) (c : Code) : Bool :=
  decide (s.power = .on) && s.activity.isNone && c.takenIn s.mgmt.mode

/-! ### Grants -/

/-- An operation as a grant makes it: issued at once, or, with the uncertain flag set, beginning with STATUS (R103, log 8). -/
def State.opFor (s : State) (p : Purpose) (b o len : Nat) (bytes : List Byte) : Op :=
  { purpose := p, block := b, offset := o, length := len, bytes := bytes, running := 0, statusWait := s.array.uncertain,
    abandoned := false }

/-- The arbiter may grant the flash to a request below rank 1 (R97, R100): nothing is in flight, no erase has the flash, the
flash is not lost, no upstream read waits. -/
def State.atGrant (s : State) : Bool :=
  decide (s.power = .on) && decide (s.array.op = none) && decide (s.array.timeouts < 3) && !s.eraseBusy
    && decide (s.rankOne = none)

/-- The queue and the block manager may ask (R97, R107): RUN or READONLY, and SVCE and RSTS not at their step 4 (R183). -/
def State.jobsAsk (s : State) : Bool := s.mgmt.mode.working && !s.holdsBack

/-- No opening that the drain had requested can be granted (R159): none waits, or WP# holds it, or a block is OPEN. -/
def State.noDrainOpening (s : State) : Bool := !s.blocks.drainOpening || s.array.wp || s.openBlock.isSome

/-- At rank 5 nothing above asks: no opening waits that the drain had requested (R159), and fewer than three blocks are
ERASED or the queue is empty (R97). -/
def State.rankFiveFirst (s : State) : Bool :=
  (decide (s.erasedCount < 3) || decide (s.queue.entries = [])) && s.noDrainOpening

/-- A release job does not ask before the reclaim: there is none, or a background one that does not have the turn (R98). -/
def State.reclaimFirst (s : State) : Bool :=
  match s.blocks.release with
  | none => true
  | some j => !j.priority && !s.blocks.releaseTurn

/-- Job `k` is the first that may ask (R97, R98): no tail mark and no retire mark is owed, no RETIRING block stands above a
release or the reclaim, and at rank 5 the queue does not stand above it and the turn is not the other job's. -/
def State.jobIsNext (s : State) : JobKind → Bool
  | .retirement =>
    decide (s.blocks.tailOwed = none) && !s.blocks.retiring.isEmpty
      && s.blocks.retiring.all fun b => decide (0 < s.liveCount b)
  | .release =>
    decide (s.blocks.tailOwed = none) && s.blocks.retiring.isEmpty
      && match s.blocks.release with
        | none => false
        | some j =>
          j.priority
            || s.rankFiveFirst
              && (s.blocks.releaseTurn
                || decide (s.blocks.victim = none) && decide (s.blocks.reclaimCopy = none)
                  && decide (s.array.erase = none))
  | .reclaim =>
    decide (s.blocks.tailOwed = none) && s.blocks.retiring.isEmpty && decide (s.array.erase = none)
      && s.blocks.victim.isSome && s.rankFiveFirst && s.reclaimFirst

/-! ### Mount -/

/-- A group qualifies under a set of allowed groups: some line's winner is TENTATIVE and of that group (R144). -/
def Mount.Qualifies (m : Mount) (allowed : List Tag) (t : Tag) : Prop :=
  ∃ l r, Sparse.get none (resolve m.records allowed) l = some r ∧ r.kind = .tentative ∧ r.tag = t

/-- What follows block `b` in step 3 (R142): the first FULL or unfinished block above it, from slot 1, or, where there is
none, step 9 with the repair list in the order of R148. -/
def Mount.AfterBlock (m t : Mount) (b : Nat) : Prop :=
  (∃ before y after, m.scans = before ++ y :: after ∧ b < y.block ∧ (y.cls = .full ∨ y.cls = .unfinished)
      ∧ (∀ z ∈ before, ¬(b < z.block ∧ (z.cls = .full ∨ z.cls = .unfinished)))
      ∧ t = { m with step := .slot y.block 1 })
    ∨ (∀ z ∈ m.scans, ¬(b < z.block ∧ (z.cls = .full ∨ z.cls = .unfinished)))
      ∧ t = { m with
        step := .repairs, repairMade := m.repairMade || decide (0 < m.allowed.2),
        repairs := ((m.scans.filter fun z => decide (z.cls = .virgin)).map fun z => Repair.virginHeader z.block)
          ++ ((m.scans.filter fun z => decide (z.cls = .invalid)).map fun z => Repair.eraseBlock z.block)
          ++ ((m.scans.filter fun z => decide (z.cls = .unfinished) && !decide (m.openBlock = some z.block)).map
            fun z => Repair.tailMark z.block)
          ++ (if m.settingsFound then [] else if m.virgin then [.prepareBlock0] else [.repairBlock0]) }

/-- What follows the class of block `b` in step 2: the header of the next block, after block 255 step 3 (R140, R142). -/
def Mount.AfterHeader (m t : Mount) (b : Nat) : Prop :=
  b < 255 ∧ t = { m with step := .header (b + 1) } ∨ b = 255 ∧ m.AfterBlock t 0

/-! ### An invariant of every step -/

/-- The drain controller and the mode agree (R153): the phase is INACTIVE exactly outside DRAIN, the return mode is present
exactly in DRAIN and is RUN or READONLY; the mount engine works exactly in MOUNT (R134); WIPE is in progress, and an erase
of it in hand, in SERVICE only (R186), an erase of mount in MOUNT only (R148). -/
structure State.ModesAgree (s : State) : Prop where
  phase : s.drain.phase = .inactive ↔ s.mgmt.mode ≠ .drain
  returns : s.drain.returnMode.isSome ↔ s.mgmt.mode = .drain
  returnMode : ∀ m, s.drain.returnMode = some m → m = .run ∨ m = .readonly
  mount : s.mount.isSome ↔ s.mgmt.mode = .mount
  wipe : ∀ step cut, s.mgmt.command = .active (.wipe step cut) → s.mgmt.mode = .service
  wipeErase : ∀ j, s.array.erase = some j → j.owner = .wipe → s.mgmt.mode = .service
  mountErase : ∀ j, s.array.erase = some j → j.owner = .mount → s.mgmt.mode = .mount

/-- The translation table (R35) and the block table (R74) are in canonical form. -/
def State.MapsCanonical (s : State) : Prop :=
  Sparse.wf TableEntry.clear s.table = true ∧ Sparse.wf BlockEntry.unknown s.blocks.table = true

/-- The sizes and ranges the spec gives: four windows (R109), sixteen register entries (R129), 64 bytes of DATA (R175), the
health counts (R165), the consecutive timeout count (R105), the reclaim counter (R78), no further-faults flag without a
fault (R188), 64 places in the shadow list, which holds a line once (R113), a group for every window that is OPEN or
COMMITTING (R109), and 16 places in the write queue (R52, R59). -/
structure State.SizesHold (s : State) : Prop where
  windows : s.windows.windows.length = 4
  register : s.windows.register.length = 16
  data : s.mgmt.data.length = 64
  count : s.health.count ≤ 65535
  snapshot : s.health.snapCount ≤ 65535
  timeouts : s.array.timeouts ≤ 3
  reclaim : s.blocks.reclaimCounter ≤ 63
  further : s.mgmt.fault = none → s.mgmt.further = false
  shadow : s.windows.shadow.length ≤ 64
  shadowLines : (s.windows.shadow.map (·.line)).Nodup
  groups : ∀ x ∈ s.windows.windows, x.state = .opened ∨ x.state = .committing → x.group.isSome = true
  queue : s.queue.entries.length ≤ 16

end Sys2Proof.Machine
end

