-- ==== Sys2Proof/Certificates/Slice0/Obligations.lean ====
section
/-! DEFINITION. The statements for the provers. A statement whose conclusion ends in `.settle` gives the event's own effect
as the state before it, with everything the effect leaves alone; `.settle` is what the rules let follow at once, about
which ReactionsFollowTheirRules speaks. -/

open Sys2Proof Sys2Proof.Machine

/-! ### The machine -/

/-- A step takes the command at the front of the queue and carries it out on the state with the queue's rest; with an
empty queue it is one µs (log 1): the stall timer of the request in progress (R17), the report timer in AUTO (R166), the
running time of the operation in flight, and of the erase in hand its running time while it runs or is being suspended and
the time since its SUSPEND, blank check or header program was issued or its STATUS wait began (R102, R103), each move one
on up to its limit; nothing else changes, and nothing at all out of power or in reset. That a clock stops at its limit, and
that its expiry is a command of its own, are the model's choice (log 1). -/
def Obligations.StepRunsTheCommandAtTheFront : Prop :=
  (∀ (c : Instr) (s : State), step { s with pending := c :: s.pending } = exec c s)
    ∧ (∀ s : State, s.pending = [] → step s = .next s.tick)
    ∧ (∀ s : State, s.power ≠ .on → s.tick = s)
    ∧ (∀ s : State, s.power = .on → s.tick = { s with
        port := { s.port with
          request := s.port.request.map fun r =>
            { r with elapsed := if r.elapsed < r.limit then r.elapsed + 1 else r.elapsed } },
        health := { s.health with
          elapsed := if s.health.auto = true ∧ s.health.elapsed < 1000000 * s.health.interval then s.health.elapsed + 1
            else s.health.elapsed },
        array := { s.array with
          op := s.array.op.map fun o => { o with running := if o.running < 1000 then o.running + 1 else o.running },
          erase := s.array.erase.map fun j => { j with
            running := if j.statusWait = false ∧ (j.part = .erasing ∨ j.part = .suspending) ∧ j.running < 300000 then
                j.running + 1
              else j.running,
            clock := if (j.statusWait = true ∨ j.part = .suspending ∨ j.part = .blankCheck ∨ j.part = .header)
                ∧ j.clock < 1000 then j.clock + 1
              else j.clock } } })

/-- What a power-on reset leaves, for every sample of the straps and inputs: the values the spec gives. No request, the half
exchange not in force (R18); the table clear (R51); the queue empty (R73); no reclaim, retirement or release job, the
reclaim counter 0 (R94); nothing in flight, the timeout count 0, the uncertain flag clear, WP# as sampled (R108); every
window IDLE with nothing kept, the shadow list empty, no release request (R133); the mount engine at step 1 with its flags
clear and the strap as sampled (R134, R135); the drain controller inactive (R153); the health counter in class MEDIA and
AUTO at 1 s, its counts 0, its timer just started, the snapshot of 0 in class MEDIA, no arm (R173); MOUNT, the default
settings in force (no zone locked, exchange flag clear, all bits set as the fill value, QUIET, 200 µs), COMMAND and DATA
zero, the default MASK, EDGES BOTH, no fault, item 0 selected and the target address of the straps (R174, R193, R195). The
flash keeps its contents (R21). That the group register is free until mount rebuilds it is the model's choice (log 9), and
that the entry to MOUNT raises MODE_CHANGE the model's reading (log 24). -/
def Obligations.PowerOnResetValues : Prop :=
  ∀ (f : List Host.Cell) (pins : Pins) (q : List Instr),
    let s := State.poweredUp f pins q
    s.flash = f ∧ s.mgmt.mode = .mount ∧ s.port.request = none ∧ s.port.exchange = false ∧ s.table = []
      ∧ s.queue.entries = [] ∧ s.queue.requests = []
      ∧ s.blocks.victim = none ∧ s.blocks.reclaimCopy = none ∧ s.blocks.retiring = [] ∧ s.blocks.retireCopy = none
      ∧ s.blocks.release = none ∧ s.blocks.reclaimCounter = 0 ∧ s.array.op = none ∧ s.array.erase = none
      ∧ s.array.timeouts = 0 ∧ s.array.uncertain = false ∧ s.array.wp = pins.wp
      ∧ (∀ w < 4, (s.window w).state = .idle ∧ (s.window w).repeats = 0 ∧ (s.window w).group = none
        ∧ (s.window w).register = none ∧ (s.window w).awaiting = false)
      ∧ s.windows.shadow = [] ∧ s.windows.release = none ∧ (∀ i, s.reg i = .free)
      ∧ (∃ m, s.mount = some m ∧ m.step = .settings ∧ m.strap = pins.svc ∧ m.flashLost = false
        ∧ m.block0Unusable = false ∧ m.repairMade = false)
      ∧ s.drain = { phase := .inactive, returnMode := none, releasePending := false, pfw := pins.pfw }
      ∧ s.health.cls = .media ∧ s.health.auto = true ∧ s.health.interval = 1 ∧ s.health.count = 0
      ∧ s.health.saturated = false ∧ s.health.elapsed = 0 ∧ s.health.snapCount = 0 ∧ s.health.snapSaturated = false
      ∧ s.health.snapClass = .media ∧ s.health.arm = .none
      ∧ s.mgmt.settings = { seq := 1, locks := 0, exchange := false, fill := 0xFF, strict := false, stall := 200 }
      ∧ s.mgmt.mask = 0x3281
      ∧ s.mgmt.target = 72 + (if pins.addr1 then 2 else 0) + (if pins.addr0 then 1 else 0)
      ∧ s.mgmt.selected = 0 ∧ s.mgmt.command = .zero ∧ s.mgmt.data = List.replicate 64 0 ∧ s.mgmt.fault = none
      ∧ s.mgmt.further = false ∧ s.mgmt.edgeSpace = .both ∧ s.mgmt.edgeWp = .both ∧ s.mgmt.spaceLow = false
      ∧ (∀ e : Event, s.eventSet e = decide (e = .modeChange))

/-- The reset state has the invariants that the steps keep. -/
def Obligations.InvariantsHoldAtReset : Prop :=
  State.reset.ModesAgree ∧ Memory.wf State.reset.flash = true ∧ State.reset.MapsCanonical ∧ State.reset.SizesHold

/-- Every step keeps the flash, the translation table and the block table in canonical form: addresses strictly rising, no
entry equal to what an unlisted one reads as. -/
def Obligations.MemoryStaysCanonical : Prop :=
  ∀ s t : State, Memory.wf s.flash = true → s.MapsCanonical → step s = .next t →
    Memory.wf t.flash = true ∧ t.MapsCanonical

/-- Every step keeps the mode, the drain's phase and return mode, the mount engine and the owners of erases in agreement
(R134, R148, R153, R186). -/
def Obligations.EveryStepKeepsTheModesInAgreement : Prop :=
  ∀ s t : State, s.ModesAgree → step s = .next t → t.ModesAgree

/-- Every step keeps the sizes and ranges of the spec: four windows, sixteen register entries, DATA of 64 bytes, a health
count and snapshot of at most 65,535, at most three consecutive timeouts, a reclaim counter below 64, no further-faults
flag without a fault, at most 64 shadow entries, no two of one line (R113), a group for every window that is OPEN or
COMMITTING (R109), and at most 16 entries in the write queue (R52, R59). -/
def Obligations.EveryStepKeepsSizesAndRanges : Prop :=
  ∀ s t : State, s.SizesHold → step s = .next t → t.SizesHold

/-- A step changes a byte of the flash only inside the area of a program in flight or inside the block of an erase in hand
(R19 to R21, R95): every other byte reads after it as before. -/
def Obligations.FlashChangesOnlyWhereAnOperationWorks : Prop :=
  ∀ (s t : State) (a : Nat), Memory.wf s.flash = true → step s = .next t →
    (∀ o, s.array.op = some o → o.purpose.isProgram = true →
      a < 4096 * o.block + o.offset ∨ 4096 * o.block + o.offset + o.bytes.length ≤ a) →
    (∀ j, s.array.erase = some j → a < 4096 * j.block ∨ 4096 * j.block + 4096 ≤ a) →
    flashByte t.flash a = flashByte s.flash a

/-- What the bridge writes to the flash it reads back: every record, settings record, first part and opening field whose
fields are in the ranges of R22 to R27 parses to what was encoded. -/
def Obligations.FlashImageStructuresReadBack : Prop :=
  (∀ r : Record, r.data.length = 32 → r.fieldsValid = true → parseRecord r.encode = some r)
    ∧ (∀ x : Settings, (x.fill = 0 ∨ x.fill = 0xFF) → 10 ≤ x.stall → x.stall ≤ 1000 → 1 ≤ x.seq → x.seq ≤ 84 →
        parseSettings x.encode = some x)
    ∧ (∀ (k : Byte) (n : Nat), (k = kindData ∨ k = kindSettings) → n ≤ 4294967294 →
        parseFirstPart (firstPart k n) = some (k, n))
    ∧ (∀ b o g : Nat, 1 ≤ b → b ≤ 4294967294 → 1 ≤ o → o ≤ 4294967294 → 1 ≤ g → g ≤ 4294967294 →
        parseOpening (openingField b o g) = some (b, o, g))

/-! ### What follows an event -/

/-- What follows an event at once (R13, R88, R92, R100, R106, R130, R132, R150, R158, R159, R161, R187, R191, R194, in the
order of log 13). It changes nothing of the standing part, the flash included, and in a state at rest nothing follows.
Otherwise, with t the state after it: a degrade condition makes RUN READONLY and a drain's return mode READONLY (R191,
R161); a drain with an empty queue is DRAINED, or over when its release is pending (R161, R162); the SPACE_LOW status is
true exactly while the write at the port that could otherwise be accepted is stopped by the enqueue gate or the head of
the queue by the opening gate, and its edges raise SPACE_LOW as selected (R59, R62, R194; that a write which waits for
something else too is not counted, and that the places COMMIT requests claim are counted as taken, is log 35, that a head is
counted under WP# too log 25, and in RUN and READONLY only log 71, all the model's); a write that waits in hand-over is refused in the modes that refuse writes
and under WP# (R13, R8); with no drain under way no COMMITTED register entry is left without a live tagged reference
(R130), and the lowest entry free or so freed goes to the awaiting window whose group is lowest, with its COMMIT entry
asked for (R132, R118, R54; log 43); the release request stands exactly while a window awaits or more than 8 entries are
COMMITTED and one can be named, with priority in the first case, keeps its entry unless a priority request is made anew,
and then names the lowest group (R131), and the release job follows it, a copy in flight first ending (R92); that a copy
held between its read and its program is not in flight, so that its job is replaced or dropped at once, is the model's
choice (log 26); a VICTIM whose live count is 0 becomes ERASING with an erase whose first attempt waits, and a copy held for it is given up, but under WP#
it stays (R88, R82, R93); a header program held under WP# is issued once WP# is deasserted and the flash is free, and stays
held under WP# (R106; log 23, log 54); mount's writes reached under WP# are skipped, with what R150 leaves of each (log 14
on PFW#); a WIPE that is cut completes with CUT when nothing is in flight (R187). Where a statement below ends in `.settle`,
the state before it is the event's own effect. -/
def Obligations.ReactionsFollowTheirRules : Prop :=
  (∀ s : State, s.settle.standing = s.standing) ∧ (∀ s : State, s.atRest = true → s.settle = s)
    ∧ (∀ s t : State, t = s.settle → s.degraded = true →
        (s.mgmt.mode = .run → t.mgmt.mode = .readonly ∧ t.eventSet .modeChange = true)
        ∧ (s.mgmt.mode = .drain →
          t.mgmt.mode = .readonly ∨ t.mgmt.mode = .drain ∧ t.drain.returnMode = some .readonly))
    ∧ (∀ s t : State, t = s.settle → s.mgmt.mode = .drain → s.drain.phase = .draining → s.queue.entries = [] →
        (∀ w < 4, (s.window w).awaiting = false) →
        t.eventSet .drainDone = true
        ∧ (s.drain.releasePending = false → t.mgmt.mode = .drain ∧ t.drain.phase = .drained)
        ∧ (∀ m, s.drain.releasePending = true → s.drain.returnMode = some m → (m = .run ∨ m = .readonly) →
          t.drain.phase = .inactive ∧ t.drain.returnMode = none ∧ (t.mgmt.mode = m ∨ t.mgmt.mode = .readonly)))
    ∧ (∀ s t : State, t = s.settle →
        (t.mgmt.spaceLow = true ↔
          (∃ r ps, t.port.request = some r ∧ r.phase = .handOver ∧ ps = (r.pieces.filter fun p => p.inRange)
            ∧ (∀ p ∈ ps, t.treat p ≠ .behind ∧ t.mergeMissing p = false)
            ∧ (∃ p ∈ ps, t.treat p = .fresh)
            ∧ (16 < t.queue.entries.length + t.queue.requests.length
                  + (ps.filter fun p => decide (t.treat p = .fresh)).length
              ∨ t.erasedCount = 0))
          ∨ (t.mgmt.mode = .run ∨ t.mgmt.mode = .readonly) ∧ t.headReady = true ∧ t.nextSlot = none
            ∧ t.erasedCount < 3)
        ∧ (t.eventSet .spaceLow = true ↔ s.eventSet .spaceLow = true
            ∨ s.mgmt.spaceLow = false ∧ t.mgmt.spaceLow = true ∧ s.mgmt.edgeSpace ≠ .fall
            ∨ s.mgmt.spaceLow = true ∧ t.mgmt.spaceLow = false ∧ s.mgmt.edgeSpace ≠ .rise))
    ∧ (∀ (s t : State) (r : Request) (c : Cause), t = s.settle → s.port.request = some r → r.write = true →
        r.phase = .handOver → s.commandHold = false →
        (s.mgmt.mode = .readonly ∧ c = .readOnly ∨ s.mgmt.mode = .drain ∧ s.drain.phase = .drained ∧ c = .draining
          ∨ s.mgmt.mode = .service ∧ c = .notReady ∨ s.mgmt.mode = .halted ∧ c = .flashLost
          ∨ s.mgmt.mode = .run ∧ s.degraded = true ∧ c = .readOnly
          ∨ s.mgmt.mode = .run ∧ s.degraded = false ∧ s.array.wp = true ∧ c = .writeProtected) →
        t.port = { s.port with request := none, response := some { cause := some c, data := [] } })
    ∧ (∀ (s t : State), t = s.settle → s.mgmt.mode ≠ .drain → ∀ i w g x, t.reg i = .committed w g x →
        (∃ c ∈ t.table, c.2.group = some (.register i)) ∨ ∃ e ∈ t.windows.shadow, e.committedGroup = some i)
    ∧ (∀ (s t : State) (i w g : Nat), t = s.settle → s.mgmt.mode ≠ .drain →
        (s.degraded = false ∨ s.mgmt.mode ≠ .run) → s.port.request = none →
        s.windows.windows.length = 4 → s.windows.register.length = 16 → i < 16 → w < 4 →
        (s.window w).awaiting = true → (s.window w).group = some g →
        (∀ v < 4, (s.window v).awaiting = true → v = w ∨ ∃ h, (s.window v).group = some h ∧ g < h) →
        (∀ j ≤ i, (s.reg j = .free ∨ ∃ v h x, s.reg j = .committed v h x ∧ s.liveTagged j = 0) ↔ j = i) →
        t.reg i = .reserved w g ∧ t.window w = { s.window w with register := some i, awaiting := false }
        ∧ (s.queue.requests = [] → s.queue.entries.length ≤ 15 → 1 ≤ s.erasedCount →
          t.queue.entries[s.queue.entries.length]? = some (.commit
            { window := w, group := g, register := i, state := .pending, attempts := 0, blockAttempts := 0,
              lastBlock := none, target := none, syncMark := false }))
        ∧ ((s.queue.requests ≠ [] ∨ 16 ≤ s.queue.entries.length ∨ s.erasedCount = 0) →
          t.queue.requests[s.queue.requests.length]?
            = some { window := w, group := g, register := i, syncMark := false }))
    ∧ (∀ (s t : State) (p : Bool), t = s.settle → p = ([0, 1, 2, 3].any fun w => (t.window w).awaiting) →
        (p = false → t.committedCount ≤ 8 → t.windows.release = none)
        ∧ (∀ q, t.windows.release = some q → q.priority = p
          ∧ ∃ w g x, t.reg q.register = .committed w g x
            ∧ ((∃ r, s.windows.release = some r ∧ r.register = q.register ∧ (r.priority = true ∨ p = false))
              ∨ ∀ i w' g' x', t.reg i = .committed w' g' x' → g ≤ g'))
        ∧ (∀ r, s.windows.release = some r → (p = true ∨ 8 < t.committedCount) →
          (∃ w g x, t.reg r.register = .committed w g x) → (r.priority = true ∨ p = false) →
          t.windows.release = some { r with priority := p })
        ∧ (∀ i w g x, (p = true ∨ 8 < t.committedCount) → t.reg i = .committed w g x → t.windows.release.isSome = true)
        ∧ (t.blocks.release = match s.blocks.release, t.windows.release with
          | none, none => none
          | none, some r => some { register := r.register, priority := r.priority, copy := none }
          | some j, none => if (j.copy.any fun c => decide (c.stage ≠ .held)) = true then some j else none
          | some j, some r =>
            if r.register = j.register then some { j with priority := r.priority }
            else if (j.copy.any fun c => decide (c.stage ≠ .held)) = true then some j
            else some { register := r.register, priority := r.priority, copy := none }))
    ∧ (∀ (s t : State) (b : Nat), t = s.settle → s.blocks.victim = some b → (s.block b).state = .victim →
        s.array.erase = none → s.mount = none → s.wipeCut = false → s.commandHold = false →
        (t.mgmt.mode = .run ∨ t.mgmt.mode = .readonly) → (∀ x, t.live x = true → x.block ≠ b) →
        (s.array.wp = false →
          t.block b = { s.block b with state := .erasing, nextFree := 0 }
          ∧ t.array.erase = some
              { owner := .manager, block := b, attempts := 0, newCount := raiseEraseCount (s.block b).eraseCount,
                part := .waiting, running := 0, clock := 0, suspends := 0, statusWait := false, virgin := false }
          ∧ t.blocks.victim = some b
          ∧ t.blocks.reclaimCopy = s.blocks.reclaimCopy.filter fun c => decide (c.stage ≠ .held))
        ∧ (s.array.wp = true → t.block b = s.block b ∧ t.array.erase = none))
    ∧ (∀ (s t : State) (j : EraseJob), t = s.settle → s.array.erase = some j → j.part = .headerHeld →
        s.wipeCut = false →
        (s.array.wp = true → t.array.erase = some j)
        ∧ (s.array.wp = false → s.array.op = none → s.array.timeouts < 3 → s.commandHold = false →
          (s.mgmt.mode = .mount ∨ s.mgmt.mode = .run ∨ s.mgmt.mode = .readonly ∨ s.mgmt.mode = .drain) →
          (∀ m, s.drain.returnMode = some m → m = .run ∨ m = .readonly) →
          t.array.erase = some { j with part := .header, clock := 0, statusWait := s.array.uncertain }))
    ∧ (∀ (s t : State) (m k : Mount), t = s.settle → s.mount = some m → m.step = .repairs → s.array.wp = true →
        s.drain.pfw = false → s.array.op = none → s.wipeCut = false →
        (s.array.erase = none ∧ k = m
          ∨ (∃ j, s.array.erase = some j ∧ (j.part = .headerHeld ∧ k = m
            ∨ (j.part = .waiting ∧ j.block = 0 ∨ j.part = .firstPart ∨ j.part = .record) ∧ k = m
            ∨ j.part = .waiting ∧ j.block ≠ 0
              ∧ k = { m with
                results := Sparse.set BlockEntry.unknown m.results j.block
                  { state := .full, eraseCount := m.countBefore j.block, blockSeq := none, nextFree := 0,
                    failures := 0 } }))) →
        t.mount = some { k with
          repairs := [],
          results := m.repairs.foldl (fun a w =>
            match w with
            | .virginHeader b => Sparse.set BlockEntry.unknown a b
                { state := .full, eraseCount := 0, blockSeq := none, nextFree := 0, failures := 0 }
            | .eraseBlock b => Sparse.set BlockEntry.unknown a b
                { state := .full, eraseCount := m.countBefore b, blockSeq := none, nextFree := 0, failures := 0 }
            | .tailMark _ | .prepareBlock0 | .repairBlock0 => a) k.results }
        ∧ t.array.erase = s.array.erase.filter fun j => decide (j.part = .headerHeld))
    ∧ (∀ (s t : State) (step : WipeStep), t = s.settle → s.mgmt.command = .active (.wipe step true) →
        s.array.op = none → s.array.erase = none → s.mgmt.mode = .service →
        t.mgmt.command = .zero ∧ t.mgmt.data = (8 :: s.mgmt.data.drop 1).take 64 ∧ t.eventSet .cmdDone = true)

/-! ### The host bus -/

/-- In MOUNT a READ and a WRITE are taken and wait: the port holds the request with its pieces and the stall limit in
force, the stall timer starts, no response is given, and nothing of the standing part changes (R1, R3, R8, R14, R17). -/
def Obligations.RequestsWaitInMount : Prop :=
  (∀ (s : State) (addr : BitVec 24) (n : Nat), s.power = .on → s.mgmt.mode = .mount → s.port.request = none →
      1 ≤ n → n ≤ 32 →
      ∃ t, exec (.readRequest addr n) s = .next t
        ∧ t.port = { s.port with
            request := some
              { write := false, addr := addr.toNat, count := n, limit := s.mgmt.settings.stall, elapsed := 0,
                phase := .checking, retake := false, pieces := splitRequest addr.toNat n [] } }
        ∧ t.standing = s.standing)
    ∧ (∀ (s : State) (addr : BitVec 24) (data : List Byte), s.power = .on → s.mgmt.mode = .mount →
        s.port.request = none → 1 ≤ data.length → data.length ≤ 32 →
        ∃ t, exec (.writeRequest addr data) s = .next t
          ∧ t.port = { s.port with
              request := some
                { write := true, addr := addr.toNat, count := data.length, limit := s.mgmt.settings.stall,
                  elapsed := 0, phase := .checking, retake := false, pieces := splitRequest addr.toNat data.length data } }
          ∧ t.standing = s.standing)

/-- A READ whose pieces are all in range and each either held by a usable LINE entry or without a record is answered OK
at once with the entry's bytes or the fill value, and nothing but the port's response changes (R14, R38 to R40); in
HALTED this holds when every piece is held by a usable entry (R15). A READ of which a piece, the first in address
order, has a record and no usable entry waits for the flash: the request is at the port with the pieces before it
served, one after it that lies out of range ended under the policy (R6), its fill bytes produced by then (the model's
choice, log 74), and no response is given (R38, R43); nothing else changes. -/
def Obligations.ReadServedFromQueueOrFill : Prop :=
  (∀ (s : State) (addr : BitVec 24) (n : Nat), s.atRest = true → 1 ≤ n → n ≤ 32 →
    (s.mgmt.mode = .run ∨ s.mgmt.mode = .readonly ∨ s.mgmt.mode = .drain
      ∨ s.mgmt.mode = .halted
        ∧ ∀ p ∈ splitRequest addr.toNat n [], (s.newestUsable (s.lineOf p)).isSome = true) →
    (∀ p ∈ splitRequest addr.toNat n [], p.inRange = true
      ∧ ((s.newestUsable (s.lineOf p)).isSome = true ∨ (s.entry (s.lineOf p)).current = none)) →
    exec (.readRequest addr n) s = .next { s with port := { s.port with
      request := none,
      response := some
        { cause := none,
          data := ((splitRequest addr.toNat n []).map fun p =>
            match s.newestUsable (s.lineOf p) with
            | some e => (e.image.drop p.offset).take p.length
            | none => List.replicate p.length s.mgmt.settings.fill).flatten } } })
    ∧ (∀ (s : State) (addr : BitVec 24) (n : Nat) (before after : List Piece) (p : Piece), s.atRest = true → 1 ≤ n →
    n ≤ 32 → (s.mgmt.mode = .run ∨ s.mgmt.mode = .readonly ∨ s.mgmt.mode = .drain) →
    splitRequest addr.toNat n [] = before ++ p :: after →
    (∀ q ∈ before, q.inRange = true
      ∧ ((s.newestUsable (s.lineOf q)).isSome = true ∨ (s.entry (s.lineOf q)).current = none)) →
    p.inRange = true → s.newestUsable (s.lineOf p) = none → (s.entry (s.lineOf p)).current.isSome = true →
    exec (.readRequest addr n) s = .next { s with port := { s.port with
      request := some
        { write := false, addr := addr.toNat, count := n, limit := s.mgmt.settings.stall, elapsed := 0,
          phase := .reading, retake := false,
          pieces := (before.map fun q => { q with
              result := some
                { bytes := (match s.newestUsable (s.lineOf q) with
                    | some e => (e.image.drop q.offset).take q.length
                    | none => List.replicate q.length s.mgmt.settings.fill),
                  cause := none } })
            ++ p :: after.map fun q => if q.inRange then q else { q with
              result := some
                { bytes := List.replicate q.length s.mgmt.settings.fill,
                  cause := if s.mgmt.settings.strict then some .outOfRange else none } } } } })

/-- A READ wholly out of range is answered with fill bytes: OK under QUIET, ERROR under STRICT with cause OUT_OF_RANGE,
the request's byte address and no store line (R6). One whose first piece is in range and whose second is not carries
the first piece's own bytes, here from a usable LINE entry or the fill value, and fill bytes after them; under STRICT
the response is ERROR with cause OUT_OF_RANGE and the address of the first byte out of range (R2, R6). In SERVICE every
READ is answered with ERROR, NOT_READY and fill bytes (R14, R15). In HALTED an in-range piece gives the bytes of its
usable LINE entry or, without one, fill bytes and FLASH_LOST (R15, Table 1-2), which is the cause reported when a second
piece is out of range too (R6). That this holds for a line without a record too, which step 2 of R38 serves with OK, is the
model's reading (log 33). Nothing but the response and the fault record changes. -/
def Obligations.ReadsOutOfRangeAndInService : Prop :=
  (∀ (s : State) (addr : BitVec 24) (n : Nat), s.atRest = true → 1 ≤ n → n ≤ 32 → 262144 ≤ addr.toNat →
      (s.mgmt.mode = .run ∨ s.mgmt.mode = .readonly ∨ s.mgmt.mode = .drain ∨ s.mgmt.mode = .halted) →
      exec (.readRequest addr n) s = .next (
        if s.mgmt.settings.strict then
          { s with port := { s.port with
              request := none,
              response := some { cause := some .outOfRange, data := List.replicate n s.mgmt.settings.fill } } }.reportFault
            { faultOf .outOfRange with addr := some addr.toNat }
        else
          { s with port := { s.port with
              request := none, response := some { cause := none, data := List.replicate n s.mgmt.settings.fill } } }))
    ∧ (∀ (s : State) (addr : BitVec 24) (n : Nat), s.atRest = true → 1 ≤ n → n ≤ 32 → s.mgmt.mode = .service →
        exec (.readRequest addr n) s = .next (
          { s with port := { s.port with
              request := none,
              response := some { cause := some .notReady, data := List.replicate n s.mgmt.settings.fill } } }.reportFault
            { faultOf .notReady with addr := some addr.toNat, line := s.lineOfAddr addr.toNat }))
    ∧ (∀ (s : State) (addr : BitVec 24) (n : Nat), s.atRest = true → 1 ≤ n → n ≤ 32 → s.mgmt.mode = .halted →
        (∀ p ∈ splitRequest addr.toNat n [], p.inRange = true) →
        (∃ p ∈ splitRequest addr.toNat n [], s.newestUsable (s.lineOf p) = none) →
        exec (.readRequest addr n) s = .next (
          { s with port := { s.port with
              request := none,
              response := some
                { cause := some .flashLost,
                  data := ((splitRequest addr.toNat n []).map fun p =>
                    match s.newestUsable (s.lineOf p) with
                    | some e => (e.image.drop p.offset).take p.length
                    | none => List.replicate p.length s.mgmt.settings.fill).flatten } } }.reportFault
            { faultOf .flashLost with addr := some addr.toNat, line := s.lineOfAddr addr.toNat }))
    ∧ (∀ (s : State) (addr : BitVec 24) (n : Nat) (p q : Piece) (bs : List Byte), s.atRest = true → 1 ≤ n → n ≤ 32 →
        (s.mgmt.mode = .run ∨ s.mgmt.mode = .readonly ∨ s.mgmt.mode = .drain ∨ s.mgmt.mode = .halted) →
        splitRequest addr.toNat n [] = [p, q] → p.inRange = true → q.inRange = false →
        bs = (match s.newestUsable (s.lineOf p) with
          | some e => (e.image.drop p.offset).take p.length
          | none => List.replicate p.length s.mgmt.settings.fill) ++ List.replicate q.length s.mgmt.settings.fill →
        (((s.newestUsable (s.lineOf p)).isSome = true
            ∨ (s.entry (s.lineOf p)).current = none ∧ s.mgmt.mode ≠ .halted) →
          exec (.readRequest addr n) s = .next (
            if s.mgmt.settings.strict then
              { s with port := { s.port with
                  request := none, response := some { cause := some .outOfRange, data := bs } } }.reportFault
                { faultOf .outOfRange with addr := some 262144 }
            else { s with port := { s.port with request := none, response := some { cause := none, data := bs } } }))
        ∧ (s.newestUsable (s.lineOf p) = none → s.mgmt.mode = .halted →
          exec (.readRequest addr n) s = .next (
            { s with port := { s.port with
                request := none, response := some { cause := some .flashLost, data := bs } } }.reportFault
              { faultOf .flashLost with addr := some addr.toNat, line := s.lineOfAddr addr.toNat })))

/-- A WRITE that a check of R8 refuses is answered with ERROR and its cause, and nothing else changes (R9): the mode and WP#
(checks 1 and 2), under STRICT a piece out of range (check 3; R7: the first such byte's address and no store line), a zone
lock (check 4), too few free shadow entries for the pieces that lie in an ARMED or OPEN window and have none (check 6, with
the window of the first piece that cannot be given one). The fault report carries the byte address and the store line of
that byte. Under QUIET a WRITE wholly out of range is answered OK and changes nothing else (R7). -/
def Obligations.RefusedWriteChangesNothing : Prop :=
  (∀ (s : State) (addr : BitVec 24) (data : List Byte) (c : Cause), s.atRest = true → s.commandHold = false →
      1 ≤ data.length → data.length ≤ 32 →
      (s.mgmt.mode = .readonly ∧ c = .readOnly ∨ s.mgmt.mode = .drain ∧ c = .draining
        ∨ s.mgmt.mode = .service ∧ c = .notReady ∨ s.mgmt.mode = .halted ∧ c = .flashLost
        ∨ s.mgmt.mode = .run ∧ s.array.wp = true ∧ c = .writeProtected) →
      exec (.writeRequest addr data) s = .next (
        { s with port := { s.port with request := none, response := some { cause := some c, data := [] } } }.reportFault
          { faultOf c with addr := some addr.toNat, line := s.lineOfAddr addr.toNat }))
    ∧ (∀ (s : State) (addr : BitVec 24) (data : List Byte) (p : Piece), s.atRest = true → s.commandHold = false →
        1 ≤ data.length → data.length ≤ 32 → s.mgmt.mode = .run → s.array.wp = false →
        (∀ q ∈ splitRequest addr.toNat data.length data, q.inRange = true) →
        ((splitRequest addr.toNat data.length data).find? fun q =>
          s.mgmt.settings.locks.getLsbD (s.lineOf q / 1024)) = some p →
        exec (.writeRequest addr data) s = .next (
          { s with port := { s.port with
              request := none, response := some { cause := some .zoneLocked, data := [] } } }.reportFault
            { faultOf .zoneLocked with addr := some p.addr, line := some (s.lineOf p) }))
    ∧ (∀ (s : State) (addr : BitVec 24) (data : List Byte) (p : Piece), s.atRest = true → s.commandHold = false →
        1 ≤ data.length → data.length ≤ 32 → s.mgmt.mode = .run → s.array.wp = false → s.mgmt.settings.strict = true →
        ((splitRequest addr.toNat data.length data).find? fun q => !q.inRange) = some p →
        exec (.writeRequest addr data) s = .next (
          { s with port := { s.port with
              request := none, response := some { cause := some .outOfRange, data := [] } } }.reportFault
            { faultOf .outOfRange with addr := some p.addr }))
    ∧ (∀ (s : State) (addr : BitVec 24) (data : List Byte), s.atRest = true → s.commandHold = false →
        1 ≤ data.length → data.length ≤ 32 → s.mgmt.mode = .run → s.array.wp = false → s.mgmt.settings.strict = false →
        262144 ≤ addr.toNat →
        exec (.writeRequest addr data) s = .next { s with port := { s.port with
          request := none, response := some { cause := none, data := [] } } })
    ∧ (∀ (s : State) (addr : BitVec 24) (data : List Byte) (p : Piece) (w : Nat), s.atRest = true →
        s.commandHold = false → 1 ≤ data.length → data.length ≤ 32 → s.mgmt.mode = .run → s.array.wp = false →
        (∀ q ∈ splitRequest addr.toNat data.length data, q.inRange = true
          ∧ s.mgmt.settings.locks.getLsbD (s.lineOf q / 1024) = false ∧ s.windowAt [.committing] q.busLine = none) →
        ((splitRequest addr.toNat data.length data).filter fun q =>
          (s.windowAt [.armed, .opened] q.busLine).isSome && (s.shadowOf (s.lineOf q)).isNone)[64
            - s.windows.shadow.length]? = some p →
        s.windowAt [.armed, .opened] p.busLine = some w →
        exec (.writeRequest addr data) s = .next (
          { s with port := { s.port with
              request := none, response := some { cause := some .groupFull, data := [] } } }.reportFault
            { faultOf .groupFull with addr := some p.addr, line := some (s.lineOf p), window := some w }))

/-- A WRITE in RUN that no check of R8 holds or refuses, outside every window, enters the hand-over phase with its
pieces untagged, one that QUIET drops apart (R7); while the enqueue gate has room for them nothing else changes (R8,
R12). A piece in the range of a window that is ARMED opens a group: the window is OPEN with the next group sequence,
the counter moves one place on; in the range of an OPEN window it joins the group there. Either way the piece carries
the window and the group as its tag, and a line without a shadow entry gets one, last in the list, with the slot its
table entry names and the register index, if any, of its current group (R112, R113). Of two pieces, each in a window's
range or outside every window, the first is tagged first: they join one group when the same window holds both, and
otherwise each its own window's (R112). Under command hold, in any mode, a WRITE waits in the checking phase (R8 check
1, R16); in RUN so does one that checks 2 to 4 pass and of which an in-range piece lies in the range of a COMMITTING
window (check 5); nothing but the port's request changes. -/
def Obligations.WriteEntersHandOver : Prop :=
  (∀ (s : State) (addr : BitVec 24) (data : List Byte), s.atRest = true → s.commandHold = false →
    1 ≤ data.length → data.length ≤ 32 → s.mgmt.mode = .run → s.array.wp = false →
    (∃ p ∈ splitRequest addr.toNat data.length data, p.inRange = true) →
    (∀ p ∈ splitRequest addr.toNat data.length data, p.inRange = true
        ∧ s.mgmt.settings.locks.getLsbD (s.lineOf p / 1024) = false
        ∧ s.windowAt [.armed, .opened] p.busLine = none ∧ s.windowAt [.committing] p.busLine = none
      ∨ p.inRange = false ∧ s.mgmt.settings.strict = false) →
    s.queue.entries.length + s.queue.requests.length ≤ 14 → 1 ≤ s.erasedCount →
    exec (.writeRequest addr data) s = .next { s with port := { s.port with
      request := some
        { write := true, addr := addr.toNat, count := data.length, limit := s.mgmt.settings.stall, elapsed := 0,
          phase := .handOver, retake := false, pieces := splitRequest addr.toNat data.length data } } })
    ∧ (∀ (s : State) (addr : BitVec 24) (data : List Byte) (p : Piece) (w g : Nat), s.atRest = true →
    s.commandHold = false → 1 ≤ data.length → data.length ≤ 32 → s.mgmt.mode = .run → s.array.wp = false →
    splitRequest addr.toNat data.length data = [p] → p.inRange = true →
    s.mgmt.settings.locks.getLsbD (s.lineOf p / 1024) = false → s.windows.windows.length = 4 →
    s.windowAt [.armed, .opened] p.busLine = some w → s.windowAt [.committing] p.busLine = none →
    ((s.window w).state = .armed ∧ g = s.windows.nextGroup ∧ g < 4294967294
      ∨ (s.window w).state = .opened ∧ (s.window w).group = some g) →
    ((s.shadowOf (s.lineOf p)).isSome = true ∨ s.windows.shadow.length < 64) →
    s.queue.entries.length + s.queue.requests.length ≤ 14 → 1 ≤ s.erasedCount →
    exec (.writeRequest addr data) s = .next { s with
      port := { s.port with
        request := some
          { write := true, addr := addr.toNat, count := data.length, limit := s.mgmt.settings.stall, elapsed := 0,
            phase := .handOver, retake := false, pieces := [{ p with tag := some { window := w, group := g } }] } },
      windows := { s.windows with
        windows := s.windows.windows.set w { s.window w with state := .opened, group := some g },
        nextGroup := if (s.window w).state = .armed then s.windows.nextGroup + 1 else s.windows.nextGroup,
        shadow := if (s.shadowOf (s.lineOf p)).isSome = true then s.windows.shadow
          else s.windows.shadow ++
            [{ line := s.lineOf p, window := w, committed := (s.entry (s.lineOf p)).current,
               committedGroup := (match (s.entry (s.lineOf p)).group with
                 | some (.register i) => some i
                 | _ => none) }] } })
    ∧ (∀ (s : State) (addr : BitVec 24) (data : List Byte), s.atRest = true → 1 ≤ data.length → data.length ≤ 32 →
    (s.commandHold = true
      ∨ s.commandHold = false ∧ s.mgmt.mode = .run ∧ s.array.wp = false
        ∧ (∀ p ∈ splitRequest addr.toNat data.length data, p.inRange = true
            ∧ s.mgmt.settings.locks.getLsbD (s.lineOf p / 1024) = false
          ∨ p.inRange = false ∧ s.mgmt.settings.strict = false)
        ∧ (∃ p ∈ splitRequest addr.toNat data.length data, p.inRange = true
          ∧ (s.windowAt [.committing] p.busLine).isSome = true)) →
    exec (.writeRequest addr data) s = .next { s with port := { s.port with
      request := some
        { write := true, addr := addr.toNat, count := data.length, limit := s.mgmt.settings.stall, elapsed := 0,
          phase := .checking, retake := false, pieces := splitRequest addr.toNat data.length data } } })
    ∧ (∀ (s : State) (addr : BitVec 24) (data : List Byte) (p q : Piece) (tp tq : Option Tag), s.atRest = true →
    s.commandHold = false → 1 ≤ data.length → data.length ≤ 32 → s.mgmt.mode = .run → s.array.wp = false →
    splitRequest addr.toNat data.length data = [p, q] →
    (∀ x, x = p ∨ x = q → x.inRange = true ∧ s.mgmt.settings.locks.getLsbD (s.lineOf x / 1024) = false
      ∧ s.windowAt [.committing] x.busLine = none) →
    s.windows.windows.length = 4 → (∀ w < 4, (s.window w).state = .opened → (s.window w).group.isSome = true) →
    s.windows.nextGroup < 4294967293 →
    tp = (s.windowAt [.armed, .opened] p.busLine).map (fun w =>
      { window := w,
        group := if (s.window w).state = .armed then s.windows.nextGroup else (s.window w).group.getD 0 }) →
    tq = (s.windowAt [.armed, .opened] q.busLine).map (fun w =>
      { window := w,
        group := if (s.window w).state = .armed then
            (if tp.any fun t => decide (t.window ≠ w) && decide ((s.window t.window).state = .armed) then
              s.windows.nextGroup + 1
            else s.windows.nextGroup)
          else (s.window w).group.getD 0 }) →
    s.windows.shadow.length + ([p, q].filter fun x => (s.windowAt [.armed, .opened] x.busLine).isSome
      && (s.shadowOf (s.lineOf x)).isNone).length ≤ 64 →
    s.queue.entries.length + s.queue.requests.length ≤ 14 → 1 ≤ s.erasedCount →
    ∃ t : State, exec (.writeRequest addr data) s = .next t
      ∧ t.port = { s.port with
          request := some
            { write := true, addr := addr.toNat, count := data.length, limit := s.mgmt.settings.stall, elapsed := 0,
              phase := .handOver, retake := false, pieces := [{ p with tag := tp }, { q with tag := tq }] } }
      ∧ t.windows.windows.length = 4
      ∧ (∀ w < 4, t.window w = match [tp, tq].findSome? fun x => x.filter fun y => decide (y.window = w) with
          | some y => { s.window w with state := .opened, group := some y.group }
          | none => s.window w)
      ∧ t.windows.nextGroup = s.windows.nextGroup
          + ([0, 1, 2, 3].filter fun w => decide ((s.window w).state = .armed
              ∧ (tp.map (·.window) = some w ∨ tq.map (·.window) = some w))).length
      ∧ t.windows.shadow = s.windows.shadow ++ ([(p, tp), (q, tq)].filterMap fun x =>
          match x.2 with
          | some y =>
            if (s.shadowOf (s.lineOf x.1)).isSome = true then none
            else some
              { line := s.lineOf x.1, window := y.window, committed := (s.entry (s.lineOf x.1)).current,
                committedGroup := (match (s.entry (s.lineOf x.1)).group with
                  | some (.register i) => some i
                  | _ => none) }
          | none => none)
      ∧ t = { s with
          port := t.port,
          windows := { s.windows with
            windows := t.windows.windows, nextGroup := t.windows.nextGroup, shadow := t.windows.shadow } })

/-- On expiry of the stall limit the request ends at once with ERROR: NOT_READY in MOUNT, STALL_TIMEOUT elsewhere; a READ
returns fill bytes in every position, a WRITE is dropped; nothing of the standing part changes (R17). That a WRITE held by
an RSTS taken in MOUNT also ends with NOT_READY is the model's choice (log 34). -/
def Obligations.StallExpiryEndsTheRequest : Prop :=
  ∀ (s : State) (r : Request), s.power = .on → s.port.request = some r →
    ∃ t, exec .stallExpiry s = .next t
      ∧ t.port = { s.port with
          request := none,
          response := some { cause := some (if s.mgmt.mode = .mount then .notReady else .stallTimeout),
                             data := if r.write then [] else List.replicate r.count s.mgmt.settings.fill } }
      ∧ t.standing = s.standing

/-- The split covers the request (R3): one or two pieces, in address order, each inside one line, the lengths adding up to
the count and the data of the pieces being the data of the request. A byte count outside 1 to 32 names no request of the
bus (R1): the model refuses the term by name (log 11). -/
def Obligations.RequestsSplitIntoPieces : Prop :=
  (∀ (addr : BitVec 24) (data : List Byte), 1 ≤ data.length → data.length ≤ 32 →
    ((splitRequest addr.toNat data.length data).map (·.data)).flatten = data
      ∧ ((splitRequest addr.toNat data.length data).map (·.length)).sum = data.length
      ∧ (∀ p ∈ splitRequest addr.toNat data.length data,
          1 ≤ p.length ∧ p.offset + p.length ≤ 32 ∧ p.data.length = p.length)
      ∧ ((splitRequest addr.toNat data.length data)[0]?.map fun p => (p.busLine, p.offset))
          = some (addr.toNat / 32, addr.toNat % 32)
      ∧ (∀ p, (splitRequest addr.toNat data.length data)[1]? = some p → p.busLine = addr.toNat / 32 + 1 ∧ p.offset = 0)
      ∧ (splitRequest addr.toNat data.length data).length ≤ 2)
    ∧ ((∀ (s : State) (addr : BitVec 24) (n : Nat), (n = 0 ∨ 32 < n) →
      exec (.readRequest addr n) s = .refused .noSuchRequest)
    ∧ (∀ (s : State) (addr : BitVec 24) (data : List Byte), (data.length = 0 ∨ 32 < data.length) →
        exec (.writeRequest addr data) s = .refused .noSuchRequest))

/-- A full untagged piece for a line with no usable LINE entry is accepted as a new PENDING entry at the tail when the
gate admits it and no COMMIT request waits (R54, R59), and the response is OK (R12, R55, R57). A piece whose line's
newest usable entry is PENDING, unnumbered and of the same tag, be it none or one of an OPEN group, coalesces: its data
is copied into the image at its offset and no other field of the entry changes; the enqueue gate is not asked (R55,
R56). A piece that needs a new entry, tagged or not, takes the image of the newest usable entry, its own data when it
is full, fill bytes when the line has no record, or its merge image, and lays its data over it (R57). When it lies at
the last line of its OPEN window the group closes after the response, after a coalescence too (R12, R116, R118): the
window is COMMITTING with the lowest free register index, RESERVED for the group, and the COMMIT entry follows at the
tail when it has a place, or waits as a request. Two pieces give two entries in address order. Nothing else but the
response changes. A write is not accepted while a piece waits behind a numbered PENDING entry, the newest usable one of its
line (the second row of R55), nor while the enqueue gate has no place for its new entries, 16 with those that waiting COMMIT
requests claim and at least one block ERASED (R54, R59): nothing follows but the reactions, the queue, the port and the
response stay as they are, and in the second case the SPACE_LOW status is true (R194). That the gate is judged with the
places that waiting COMMIT requests claim counted as taken, for the acceptance and for SPACE_LOW, is the model's choice
(log 35). -/
def Obligations.WritesAreAccepted : Prop :=
  (∀ (s : State) (r : Request) (p : Piece), s.port.request = some r →
    ({ s with port := { s.port with request := none } } : State).atRest = true →
    r.phase = .handOver → (r.pieces.filter fun q => q.inRange) = [p] → p.offset = 0 → p.length = 32 →
    p.data.length = 32 → p.tag = none → s.newestUsable (s.lineOf p) = none →
    s.queue.entries.length ≤ 15 → s.queue.requests = [] → 3 ≤ s.erasedCount →
    exec .writeAcceptance s = .next { s with
      port := { s.port with request := none, response := some { cause := none, data := [] } },
      queue := { s.queue with entries := s.queue.entries ++ [.line
        { line := s.lineOf p, image := p.data, tag := none, state := .pending, origin := none, attempts := 0,
          blockAttempts := 0, lastBlock := none, target := none, dropped := false, syncMark := false }] } })
    ∧ (∀ (s : State) (r : Request) (p : Piece) (e : LineEntry) (before after : List QEntry), s.port.request = some r →
    ({ s with port := { s.port with request := none } } : State).atRest = true →
    r.phase = .handOver → (r.pieces.filter fun q => q.inRange) = [p] →
    s.queue.entries = before ++ .line e :: after → (∀ q ∈ after, q.usable (s.lineOf p) = none) →
    e.line = s.lineOf p → e.dropped = false → e.state = .pending → e.origin = none → e.tag = p.tag →
    ((∀ t, p.tag = some t → p.busLine ≠ (s.window t.window).last) →
      exec .writeAcceptance s = .next { s with
        port := { s.port with request := none, response := some { cause := none, data := [] } },
        queue := { s.queue with entries := before ++ .line { e with
          image := e.image.take p.offset ++ p.data ++ e.image.drop (p.offset + p.data.length) } :: after } })
    ∧ (∀ w g i, p.tag = some { window := w, group := g } → p.busLine = (s.window w).last →
      s.windows.windows.length = 4 → w < 4 → (s.window w).state = .opened → (s.window w).group = some g →
      i < 16 → s.reg i = .free → (∀ j < i, s.reg j ≠ .free) → s.queue.requests = [] → 1 ≤ s.erasedCount →
      exec .writeAcceptance s = .next ({ s with
        port := { s.port with request := none, response := some { cause := none, data := [] } },
        windows := { s.windows with
          windows := s.windows.windows.set w
            { s.window w with state := .committing, register := some i, awaiting := false },
          register := s.windows.register.set i (.reserved w g) },
        queue := { s.queue with
          entries := before ++ .line { e with
              image := e.image.take p.offset ++ p.data ++ e.image.drop (p.offset + p.data.length) } :: after
            ++ (if s.queue.entries.length ≤ 15 then
              [.commit { window := w, group := g, register := i, state := .pending, attempts := 0, blockAttempts := 0,
                         lastBlock := none, target := none, syncMark := false }]
            else []),
          requests := if s.queue.entries.length ≤ 15 then []
            else [{ window := w, group := g, register := i, syncMark := false }] } } : State).settle))
    ∧ (∀ (s : State) (r : Request) (p : Piece) (source : List Byte), s.power = .on → s.readInFlight = false →
    s.port.request = some r → r.phase = .handOver → (r.pieces.filter fun q => q.inRange) = [p] →
    s.queue.entries.length ≤ 15 → s.queue.requests = [] → 1 ≤ s.erasedCount →
    ((∃ e, s.newestUsable (s.lineOf p) = some e ∧ source = e.image
          ∧ (e.state = .programming ∨ e.state = .pending ∧ e.origin = none ∧ e.tag ≠ p.tag))
      ∨ s.newestUsable (s.lineOf p) = none ∧ p.offset = 0 ∧ p.length = 32 ∧ source = p.data
      ∨ s.newestUsable (s.lineOf p) = none ∧ p.length ≠ 32 ∧ (s.entry (s.lineOf p)).current = none
        ∧ source = List.replicate 32 s.mgmt.settings.fill
      ∨ s.newestUsable (s.lineOf p) = none ∧ p.length ≠ 32
        ∧ ∃ m, p.merge = some m ∧ (s.entry (s.lineOf p)).current = some m.slot ∧ source = m.image) →
    ((∀ t, p.tag = some t → p.busLine ≠ (s.window t.window).last) →
      exec .writeAcceptance s = .next ({ s with
        port := { s.port with request := none, response := some { cause := none, data := [] } },
        queue := { s.queue with entries := s.queue.entries ++ [.line
          { line := s.lineOf p,
            image := source.take p.offset ++ p.data ++ source.drop (p.offset + p.data.length),
            tag := p.tag, state := .pending, origin := none, attempts := 0, blockAttempts := 0, lastBlock := none,
            target := none, dropped := false, syncMark := false }] } } : State).settle)
    ∧ (∀ w g i, p.tag = some { window := w, group := g } → p.busLine = (s.window w).last →
      s.windows.windows.length = 4 → w < 4 → (s.window w).state = .opened → (s.window w).group = some g →
      i < 16 → s.reg i = .free → (∀ j < i, s.reg j ≠ .free) →
      exec .writeAcceptance s = .next ({ s with
        port := { s.port with request := none, response := some { cause := none, data := [] } },
        windows := { s.windows with
          windows := s.windows.windows.set w
            { s.window w with state := .committing, register := some i, awaiting := false },
          register := s.windows.register.set i (.reserved w g) },
        queue := { s.queue with
          entries := s.queue.entries ++ .line
            { line := s.lineOf p,
              image := source.take p.offset ++ p.data ++ source.drop (p.offset + p.data.length),
              tag := p.tag, state := .pending, origin := none, attempts := 0, blockAttempts := 0, lastBlock := none,
              target := none, dropped := false, syncMark := false }
            :: (if s.queue.entries.length ≤ 14 then
              [.commit { window := w, group := g, register := i, state := .pending, attempts := 0, blockAttempts := 0,
                         lastBlock := none, target := none, syncMark := false }]
            else []),
          requests := if s.queue.entries.length ≤ 14 then []
            else [{ window := w, group := g, register := i, syncMark := false }] } } : State).settle))
    ∧ (∀ (s : State) (r : Request) (p q : Piece), s.power = .on → s.readInFlight = false →
    s.port.request = some r → r.phase = .handOver → (r.pieces.filter fun q => q.inRange) = [p, q] →
    s.queue.entries.length ≤ 14 → s.queue.requests = [] → 1 ≤ s.erasedCount → s.lineOf p ≠ s.lineOf q →
    (∀ x, x = p ∨ x = q → s.newestUsable (s.lineOf x) = none ∧ (s.entry (s.lineOf x)).current = none ∧ x.length ≠ 32
      ∧ ∀ t, x.tag = some t → x.busLine ≠ (s.window t.window).last) →
    exec .writeAcceptance s = .next ({ s with
      port := { s.port with request := none, response := some { cause := none, data := [] } },
      queue := { s.queue with entries := s.queue.entries ++ ([p, q].map fun x => .line
        { line := s.lineOf x,
          image := (List.replicate 32 s.mgmt.settings.fill).take x.offset ++ x.data
            ++ (List.replicate 32 s.mgmt.settings.fill).drop (x.offset + x.data.length),
          tag := x.tag, state := .pending, origin := none, attempts := 0, blockAttempts := 0, lastBlock := none,
          target := none, dropped := false, syncMark := false }) } } : State).settle)
    ∧ (∀ (s : State) (r : Request) (p : Piece) (e : LineEntry), s.power = .on → s.port.request = some r →
        r.phase = .handOver → p ∈ r.pieces → p.inRange = true → s.newestUsable (s.lineOf p) = some e →
        e.state = .pending → e.origin.isSome = true →
        exec .writeAcceptance s = .next s.settle)
    ∧ (∀ (s : State) (r : Request) (n : Nat), s.power = .on → s.port.request = some r → r.phase = .handOver →
        n = (r.pieces.filter fun p => p.inRange && !(match s.newestUsable (s.lineOf p) with
          | some e => decide (e.state = .pending) && decide (e.origin = none) && decide (e.tag = p.tag)
          | none => false)).length →
        1 ≤ n → (16 < s.queue.entries.length + s.queue.requests.length + n ∨ s.erasedCount = 0) →
        exec .writeAcceptance s = .next s.settle)
    ∧ (∀ (s : State) (r : Request) (p : Piece), s.port.request = some r →
        ({ s with port := { s.port with request := none } } : State).atRest = true → s.mgmt.mode = .run →
        s.array.wp = false → s.commandHold = false → r.write = true → r.phase = .handOver →
        (r.pieces.filter fun q => q.inRange) = [p] → p.full = true → s.newestUsable (s.lineOf p) = none →
        (∀ q ∈ r.pieces, q.tag = none ∧ q.merge = none) →
        (16 ≤ s.queue.entries.length + s.queue.requests.length ∨ s.erasedCount = 0) →
        ∃ t : State, exec .writeAcceptance s = .next t ∧ t.port = s.port ∧ t.queue = s.queue
          ∧ t.mgmt.spaceLow = true)

/-! ### The arbiter -/

/-- The arbiter grants nothing while an operation is in flight or after the loss of the flash; in RUN, READONLY and
DRAIN, with the flash free, the first piece of the read in progress that has not ended and needs the flash is granted
first, as a read of the 48 bytes of the slot its table entry names (R97, R40), and so is the merge read of the first
piece of a write in hand-over that needs an image it does not hold (R50, R58); with the uncertain flag set the
operation begins with STATUS (R103), which the model counts to the grant (log 8). In MOUNT the scan's read is granted,
whose sizes are the model's choice (log 6), or the next write of the repair list, while neither PFW# nor WP# is
asserted: a virgin block's header, a repair erase, a tail mark, block 0's preparation or repair; all but the two virgin
ones set the repair-made flag (R134, R138, R139, R148). An erase in hand of mount or WIPE asks for its next attempt or
for block 0's first part or record (R139, R148, R186). In SERVICE a WIPE that is not cut is granted the erase of the
lowest data block left that is not RETIRED, with its count raised, and after the last the read of block 0's first part
(R186). -/
def Obligations.ArbiterGrantsTheWaitingReadFirst : Prop :=
  (∀ s : State, s.power = .on → (s.array.op.isSome = true ∨ 3 ≤ s.array.timeouts) →
      exec .arbiterGrant s = .next s.settle)
    ∧ (∀ (s : State) (r : Request) (before after : List Piece) (p : Piece) (x : Slot), s.power = .on →
        (s.mgmt.mode = .run ∨ s.mgmt.mode = .readonly ∨ s.mgmt.mode = .drain) → s.array.op = none →
        s.array.timeouts < 3 → s.eraseBusy = false → s.port.request = some r → r.phase = .reading →
        r.pieces = before ++ p :: after → (∀ q ∈ before, q.result.isSome = true) → p.result = none →
        (s.entry (s.lineOf p)).current = some x →
        exec .arbiterGrant s = .next ({ s with array := { s.array with
          op := some
            { purpose := .readPiece before.length, block := x.block, offset := 48 * x.slot, length := 48, bytes := [],
              running := 0, statusWait := s.array.uncertain, abandoned := false } } } : State).settle)
    ∧ (∀ (s : State) (r : Request) (before after : List Piece) (p : Piece) (x : Slot), s.power = .on →
        (s.mgmt.mode = .run ∨ s.mgmt.mode = .readonly ∨ s.mgmt.mode = .drain) → s.array.op = none →
        s.array.timeouts < 3 → s.eraseBusy = false → s.port.request = some r → r.phase = .handOver →
        r.pieces = before ++ p :: after →
        (∀ q ∈ before, q.inRange = false ∨ q.full = true ∨ (s.newestUsable (s.lineOf q)).isSome = true
          ∨ (s.entry (s.lineOf q)).current = none
          ∨ q.merge.map (·.slot) = (s.entry (s.lineOf q)).current) →
        p.inRange = true → p.full = false → s.newestUsable (s.lineOf p) = none →
        (s.entry (s.lineOf p)).current = some x → p.merge.map (·.slot) ≠ some x →
        exec .arbiterGrant s = .next ({ s with array := { s.array with
          op := some (s.opFor (.mergeRead before.length) x.block (48 * x.slot) 48 []) } } : State).settle)
    ∧ (∀ (s : State) (m : Mount) (b o len : Nat), s.atGrant = true → s.mgmt.mode = .mount → s.mount = some m →
        s.commandHold = false →
        (m.step = .settings ∧ b = 0 ∧ o = 0 ∧ len = 4096 ∨ m.step = .header b ∧ o = 0 ∧ len = 48
          ∨ m.step = .tail b ∧ o = 4080 ∧ len = 16 ∨ m.step = .body b ∧ o = 0 ∧ len = 4096
          ∨ (∃ n, m.step = .slot b n ∧ o = 48 * n ∧ len = 48)) →
        exec .arbiterGrant s = .next ({ s with array := { s.array with
          op := some (s.opFor .mountRead b o len []) } } : State).settle)
    ∧ (∀ (s t : State) (m : Mount) (w : Repair) (rest : List Repair), s.atGrant = true → s.mgmt.mode = .mount →
        s.mount = some m → s.commandHold = false → s.array.wp = false → s.drain.pfw = false → s.array.erase = none →
        m.step = .repairs → m.repairs = w :: rest →
        t = { s with mount := some { m with
          repairs := rest,
          repairMade := m.repairMade || !(decide (w = .prepareBlock0) || (match w with
            | .virginHeader _ => true
            | _ => false)) } } →
        (∀ b, w = .virginHeader b →
          exec .arbiterGrant s = .next ({ t with array := { s.array with
            op := some (s.opFor .mountHeader b 0 16 (firstPart kindData 0)) } } : State).settle)
        ∧ (∀ b, w = .tailMark b →
          exec .arbiterGrant s = .next ({ t with array := { s.array with
            op := some (s.opFor .mountTail b 4080 16 (tailMarkBytes (((m.scanOf b).bind BlockScan.seq).getD 0))) } }
              : State).settle)
        ∧ (w = .prepareBlock0 →
          exec .arbiterGrant s = .next ({ t with array := { s.array with
            op := some (s.opFor .block0Header 0 0 16 (firstPart kindSettings 0)),
            erase := some
              { owner := .mount, block := 0, attempts := 0, newCount := 0, part := .firstPart, running := 0, clock := 0,
                suspends := 0, statusWait := false, virgin := true } } } : State).settle)
        ∧ (∀ b n, (w = .eraseBlock b ∧ n = raiseEraseCount (m.countBefore b)
            ∨ w = .repairBlock0 ∧ b = 0 ∧ n = (m.block0Count.map raiseEraseCount).getD 1) →
          exec .arbiterGrant s = .next ({ t with array := { s.array with
            erase := some
              { owner := .mount, block := b, attempts := 0, newCount := n, part := .erasing, running := 0, clock := 0,
                suspends := 0, statusWait := s.array.uncertain, virgin := false } } } : State).settle))
    ∧ (∀ (s t : State) (j : EraseJob), s.atGrant = true → s.array.wp = false → s.array.erase = some j →
        (s.mgmt.mode = .mount ∧ s.commandHold = false ∧ s.drain.pfw = false
            ∧ (∃ m, s.mount = some m ∧ m.step = .repairs
              ∧ t = { s with mount := some { m with repairMade := m.repairMade || decide (j.part = .waiting) } })
          ∨ s.mgmt.mode = .service ∧ j.owner = .wipe ∧ (∃ step, s.mgmt.command = .active (.wipe step false)) ∧ t = s) →
        (j.part = .waiting →
          exec .arbiterGrant s = .next ({ t with array := { s.array with
            erase := some { j with part := .erasing, running := 0, clock := 0, suspends := 0,
                                   statusWait := s.array.uncertain } } } : State).settle)
        ∧ (j.part = .firstPart →
          exec .arbiterGrant s = .next ({ t with array := { s.array with
            op := some (s.opFor .block0Header 0 0 16 (firstPart kindSettings j.newCount)) } } : State).settle)
        ∧ (j.part = .record →
          exec .arbiterGrant s = .next ({ t with array := { s.array with
            op := some (s.opFor .block0Record 0 48 48 Settings.default.encode) } } : State).settle))
    ∧ (∀ (s : State) (n : Nat), s.atGrant = true → s.array.wp = false → s.mgmt.mode = .service → s.array.erase = none →
        s.mgmt.command = .active (.wipe (.data n) false) →
        (∀ b ∈ dataBlocks, n ≤ b → (s.block b).state ≠ .retired →
          (∀ d ∈ dataBlocks, n ≤ d → d < b → (s.block d).state = .retired) →
          exec .arbiterGrant s = .next ({ s with
            mgmt := { s.mgmt with command := .active (.wipe (.data (b + 1)) false) },
            array := { s.array with
              erase := some
                { owner := .wipe, block := b, attempts := 0, newCount := raiseEraseCount (s.block b).eraseCount,
                  part := .erasing, running := 0, clock := 0, suspends := 0, statusWait := s.array.uncertain,
                  virgin := false } } } : State).settle)
        ∧ ((∀ d ∈ dataBlocks, n ≤ d → (s.block d).state = .retired) →
          exec .arbiterGrant s = .next ({ s with
            mgmt := { s.mgmt with command := .active (.wipe .read0 false) },
            array := { s.array with op := some (s.opFor .wipeRead 0 0 16 []) } } : State).settle))

/-- With no upstream read waiting, a grant issues, in the rank order of R97 and R98: the PENDING head of the queue, a
LINE or a COMMIT entry, into the OPEN block's next free slot, for the queue or, while DRAINING, for the drain
controller (R61 to R63, R156): it is PROGRAMMING with its target slot, a LINE entry takes the next origin sequence
unless it has one, and its record is programmed; the queue's head goes before reclaim and background release while
three blocks or more are ERASED and after them otherwise. Without a slot left, the opening field of the ERASED block
with the lowest erase count, then the lowest number, under the gate of the requester (R76, R33). An opening that the
drain had requested and that waited under WP# is granted at rank 4 under the drain's gate, though its entry was
discarded, in DRAIN, DRAINED included, and after the return of the mode (R159, R106; log 65). A job's read of its
next source (R82, R92), its copy, whose turn it takes (R98; that a priority release takes it too is log 66), or the
giving up of a copy whose source has died (R83 to R85; log 37): a sound copy keeps its record but becomes PLAIN when its
group is no longer open, one carried takes its fields from the holder. That slot 1 of a block just opened goes to whichever
requester is granted next, not to the one it was opened for, is the model's choice (log 50). The block manager's erase
attempt and what follows its third failure (R88, R89, log 53); that the erase in hand goes before the relocation of whatever
victim was chosen meanwhile is the model's choice (log 59). The retire mark of the first RETIRING block with no live record, before any relocation (R91; that order is the model's choice, log
58). A tail mark owed, first in its rank (R77; log 38). A settings append when nothing else asks, which takes the next
slot and sequence (R179). No program and no erase is granted under WP# (R106), relocation reads are (log 15). That the
bookkeeping is done at the grant even when the operation begins with STATUS is the model's choice (log 8). -/
def Obligations.GrantIssuesTheQueueHead : Prop :=
  (∀ (s : State) (qs : List QEntry) (p : Purpose) (b n : Nat), s.atGrant = true → s.array.wp = false →
    s.blocks.tailOwed = none →
    (s.jobsAsk = true ∧ p = .queueProgram ∧ s.blocks.retiring = []
        ∧ (∀ j, s.blocks.release = some j → j.priority = false)
        ∧ (3 ≤ s.erasedCount
          ∨ s.blocks.release = none ∧ s.blocks.victim = none ∧ s.blocks.reclaimCopy = none ∧ s.array.erase = none)
      ∨ s.mgmt.mode = .drain ∧ s.drain.phase = .draining ∧ p = .drainProgram) →
    s.openBlock = some b → (s.block b).nextFree = n → n ≤ 84 →
    (∀ e : LineEntry, s.queue.entries = .line e :: qs → e.state = .pending →
      (e.origin = none → s.queue.nextOrigin < 4294967295) →
      exec .arbiterGrant s = .next ({ s with
        queue := { s.queue with
          entries := .line { e with state := .programming, origin := some (e.origin.getD s.queue.nextOrigin),
                                    target := some { block := b, slot := n } } :: qs,
          nextOrigin := if e.origin = none then s.queue.nextOrigin + 1 else s.queue.nextOrigin },
        blocks := { s.blocks with
          table := Sparse.set BlockEntry.unknown s.blocks.table b { s.block b with nextFree := n + 1 } },
        array := { s.array with
          op := some (s.opFor p b (48 * n) 48 (Record.encode
            { kind := if e.tag = none then .plain else .tentative, window := (e.tag.map (·.window)).getD 0,
              line := e.line, origin := e.origin.getD s.queue.nextOrigin, group := (e.tag.map (·.group)).getD 0,
              data := e.image })) } } : State).settle)
    ∧ (∀ e : CommitEntry, s.queue.entries = .commit e :: qs → e.state = .pending →
      exec .arbiterGrant s = .next ({ s with
        queue := { s.queue with
          entries := .commit { e with state := .programming, target := some { block := b, slot := n } } :: qs },
        blocks := { s.blocks with
          table := Sparse.set BlockEntry.unknown s.blocks.table b { s.block b with nextFree := n + 1 } },
        array := { s.array with
          op := some (s.opFor p b (48 * n) 48 (Record.encode
            { kind := .commit, window := e.window, line := 0, origin := 0, group := e.group,
              data := List.replicate 32 0 })) } } : State).settle))
    ∧ (∀ (s : State) (r : Requester) (b : Nat), s.atGrant = true → s.array.wp = false → s.blocks.tailOwed = none →
        s.openBlock = none → s.blocks.nextSeq < 4294967295 →
        (((s.jobsAsk = true ∧ r = .queue ∧ s.blocks.retiring = []
                ∧ (∀ j, s.blocks.release = some j → j.priority = false) ∧ 3 ≤ s.erasedCount
              ∨ s.mgmt.mode = .drain ∧ s.drain.phase = .draining ∧ r = .drain ∧ 1 ≤ s.erasedCount)
            ∧ (r = .drain ∨ s.blocks.drainOpening = false)
            ∧ (∃ q qs, s.queue.entries = q :: qs ∧ q.programming = false
              ∧ (∀ e, q = .line e → e.origin = none → s.queue.nextOrigin < 4294967295)))
          ∨ (∃ k c, r = .job k ∧ s.jobsAsk = true ∧ s.jobIsNext k = true ∧ s.copyOf k = some c ∧ c.stage = .held
            ∧ 2 ≤ s.erasedCount ∧ s.queue.entries.length + 1 ≤ s.freeSlots)
          ∨ (s.blocks.drainOpening = true ∧ r = .drain ∧ 1 ≤ s.erasedCount
            ∧ (s.mgmt.mode = .drain
              ∨ s.jobsAsk = true ∧ s.blocks.retiring = []
                ∧ ∀ j, s.blocks.release = some j → j.priority = false))) →
        Sparse.wf BlockEntry.unknown s.blocks.table = true → (s.block b).state = .erased →
        (∀ d, (s.block d).state = .erased → (s.block b).eraseCount < (s.block d).eraseCount
          ∨ (s.block b).eraseCount = (s.block d).eraseCount ∧ b ≤ d) →
        exec .arbiterGrant s = .next ({ s with
          blocks := { s.blocks with
            table := Sparse.set BlockEntry.unknown s.blocks.table b { s.block b with blockSeq := some s.blocks.nextSeq },
            nextSeq := s.blocks.nextSeq + 1, drainOpening := false },
          array := { s.array with
            op := some (s.opFor (.opening r) b 16 16 (openingField s.blocks.nextSeq (min s.queue.nextOrigin 4294967294)
              (min s.windows.nextGroup 4294967294))) } } : State).settle)
    ∧ (∀ (s : State) (k : JobKind) (x : Slot) (c : CopyWork), s.atGrant = true → s.jobsAsk = true →
        s.jobIsNext k = true → s.copyOf k = none →
        (k = .release ∧ (∃ j rest, s.blocks.release = some j
            ∧ (s.table.filter fun c => decide (c.2.group = some (.register j.register))).filterMap (·.2.current)
              ++ (s.windows.shadow.filter fun e => decide (e.committedGroup = some j.register)).filterMap (·.committed)
              = x :: rest)
          ∨ (k = .retirement ∧ s.blocks.retiring.head? = some x.block ∧ (s.block x.block).state = .retiring
              ∨ k = .reclaim ∧ s.blocks.victim = some x.block ∧ (s.block x.block).state = .victim)
            ∧ s.live x = true ∧ ∀ y, s.live y = true → y.block = x.block → x.slot ≤ y.slot) →
        c = { source := x, stage := .reading, bytes := [], failed := false, built := none } →
        exec .arbiterGrant s = .next ({ s with
          blocks := (match k with
            | .reclaim => { s.blocks with reclaimCopy := some c, releaseTurn := false }
            | .retirement => { s.blocks with retireCopy := some c }
            | .release => { s.blocks with
                release := s.blocks.release.map fun j => { j with copy := some c },
                releaseTurn := if s.blocks.reclaimCopy = none then true else s.blocks.releaseTurn }),
          array := { s.array with
            op := some (s.opFor (.relocRead k) x.block (48 * x.slot) 48 []) } } : State).settle)
    ∧ (∀ (s : State) (k : JobKind) (c : CopyWork) (b n : Nat), s.atGrant = true → s.array.wp = false →
        s.jobsAsk = true → s.jobIsNext k = true → s.copyOf k = some c → c.stage = .held → s.openBlock = some b →
        (s.block b).nextFree = n → n ≤ 84 → s.queue.entries.length + 1 ≤ s.freeSlots →
        (s.live c.source = false →
          exec .arbiterGrant s = .next ({ s with
            blocks := match k with
              | .reclaim => { s.blocks with reclaimCopy := none, releaseTurn := true }
              | .retirement => { s.blocks with retireCopy := none }
              | .release => { s.blocks with release := s.blocks.release.map fun j => { j with copy := none },
                                            releaseTurn := false } } : State).settle)
        ∧ (s.live c.source = true → ∀ (bs : List Byte) (d : CopyWork),
          (c.built = some bs
            ∨ c.built = none ∧ c.failed = false ∧ (∃ r, parseRecord c.bytes = some r
              ∧ bs = Record.encode (if r.kind = .tentative
                    ∧ ¬(((s.window r.window).state = .opened ∨ (s.window r.window).state = .committing)
                      ∧ (s.window r.window).group = some r.group) then
                  { kind := .plain, window := 0, line := r.line, origin := r.origin, group := 0, data := r.data }
                else r))
            ∨ c.built = none ∧ c.failed = true ∧ (∃ o, o = (if 1 ≤ field c.bytes 4 4
                  ∧ field c.bytes 4 4 < s.queue.nextOrigin then field c.bytes 4 4 else 1)
              ∧ ((∃ before l e after, s.table = before ++ (l, e) :: after ∧ e.current = some c.source
                    ∧ (∀ y ∈ before, y.2.current ≠ some c.source)
                    ∧ bs = Record.encode (match e.group with
                      | some (.openIn w) =>
                        { kind := .tentative, window := w, line := l, origin := o,
                          group := (s.window w).group.getD 0, data := dataField c.bytes }
                      | _ =>
                        { kind := .plain, window := 0, line := l, origin := o, group := 0,
                          data := dataField c.bytes }))
                ∨ (∀ y ∈ s.table, y.2.current ≠ some c.source)
                  ∧ ((∃ before e after, s.windows.shadow = before ++ e :: after ∧ e.committed = some c.source
                      ∧ (∀ y ∈ before, y.committed ≠ some c.source)
                      ∧ bs = Record.encode
                        { kind := .plain, window := 0, line := e.line, origin := o, group := 0,
                          data := dataField c.bytes })
                    ∨ (∀ y ∈ s.windows.shadow, y.committed ≠ some c.source)
                      ∧ (∃ before w g after, s.windows.register = before ++ .committed w g c.source :: after
                        ∧ (∀ y ∈ before, y.commitSlot ≠ some c.source)
                        ∧ bs = Record.encode
                          { kind := .commit, window := w, line := 0, origin := 0, group := g,
                            data := List.replicate 32 0 }))))) →
          d = { c with stage := .programming, built := some bs } →
          exec .arbiterGrant s = .next ({ s with
            blocks := { (match k with
                | .reclaim => { s.blocks with reclaimCopy := some d }
                | .retirement => { s.blocks with retireCopy := some d }
                | .release => { s.blocks with release := s.blocks.release.map fun j => { j with copy := some d } }
                  : BlockManager) with
              table := Sparse.set BlockEntry.unknown s.blocks.table b { s.block b with nextFree := n + 1 } },
            array := { s.array with op := some (s.opFor (.copyProgram k) b (48 * n) 48 bs) } } : State).settle))
    ∧ (∀ (s : State) (j : EraseJob), s.atGrant = true → s.jobsAsk = true → s.blocks.tailOwed = none →
        s.blocks.retiring = [] → s.rankFiveFirst = true → s.reclaimFirst = true → s.array.erase = some j →
        j.owner = .manager →
        (j.part = .waiting → s.array.wp = false →
          exec .arbiterGrant s = .next ({ s with array := { s.array with
            erase := some { j with part := .erasing, running := 0, clock := 0, suspends := 0,
                                   statusWait := s.array.uncertain } } } : State).settle)
        ∧ (j.part = .markRead →
          exec .arbiterGrant s = .next ({ s with array := { s.array with
            op := some (s.opFor .markRead j.block 32 8 []) } } : State).settle)
        ∧ (j.part = .mark → s.array.wp = false →
          exec .arbiterGrant s = .next ({ s with array := { s.array with
            op := some (s.opFor .eraseMark j.block 32 8 retireMarkBytes) } } : State).settle))
    ∧ (∀ (s : State) (before after : List Nat) (b : Nat), s.atGrant = true → s.jobsAsk = true → s.array.wp = false →
        s.blocks.tailOwed = none → s.blocks.retiring = before ++ b :: after → (∀ d ∈ before, s.liveCount d ≠ 0) →
        s.liveCount b = 0 →
        exec .arbiterGrant s = .next ({ s with
          blocks := { s.blocks with
            retireCopy := if s.blocks.retireCopy.map (·.source.block) = some b then none else s.blocks.retireCopy },
          array := { s.array with op := some (s.opFor .retireMark b 32 8 retireMarkBytes) } } : State).settle)
    ∧ (∀ (s : State) (r : Requester) (b : Nat), s.atGrant = true → s.array.wp = false → s.blocks.tailOwed = some r →
        s.openBlock = some b →
        (s.jobsAsk = true ∧ (r = .job .retirement ∨ r = .priorityRelease)
          ∨ s.jobsAsk = true ∧ s.blocks.retiring = [] ∧ (∀ j, s.blocks.release = some j → j.priority = false)
            ∧ (r = .drain ∨ r = .queue ∧ 3 ≤ s.erasedCount
              ∨ (r = .job .reclaim ∨ r = .job .release) ∧ s.rankFiveFirst = true)
          ∨ s.mgmt.mode = .drain ∧ (r = .drain ∨ r = .queue)) →
        exec .arbiterGrant s = .next ({ s with array := { s.array with
          op := some (s.opFor .tailMark b 4080 16 (tailMarkBytes ((s.block b).blockSeq.getD 0))) } } : State).settle)
    ∧ (∀ (s : State) (c : Code) (new : Settings), s.atGrant = true → s.jobsAsk = true → s.array.wp = false →
        s.blocks.tailOwed = none → s.blocks.retiring = [] → s.blocks.release = none → s.blocks.victim = none →
        s.blocks.reclaimCopy = none → s.array.erase = none → s.queue.entries = [] → s.noDrainOpening = true →
        s.mgmt.command = .active (.append c new false) →
        exec .arbiterGrant s = .next ({ s with
          mgmt := { s.mgmt with
            nextSettingsSlot := s.mgmt.nextSettingsSlot + 1, nextSettingsSeq := s.mgmt.nextSettingsSeq + 1,
            command := .active (.append c new true) },
          array := { s.array with
            op := some (s.opFor .settings 0 (48 * s.mgmt.nextSettingsSlot) 48 new.encode) } } : State).settle)

/-! ### Reads -/

/-- A completed read of a piece passes when the 48 bytes hold a valid PLAIN or TENTATIVE record of the piece's line, and
the piece ends with its bytes of the data; otherwise, and whenever the READ arm is held, which is consumed, the piece ends
with cause READ_CHECK and the same bytes, the entry's check-failed flag is set if it still names that slot, READ_CHECK is
raised and a READ media event reported (R41, R42, R171). An abandoned read only frees the flash (R44). The consecutive
timeout count returns to 0 (R104). -/
def Obligations.ReadPieceIsTested : Prop :=
  (∀ (s : State) (o : Op) (i : Nat) (u : Upset) (r : Request) (p : Piece) (rec : Record), s.power = .on →
      s.array.op = some o → o.purpose = .readPiece i → o.statusWait = false → o.abandoned = false →
      s.port.request = some r → r.pieces[i]? = some p → s.health.arm ≠ .read →
      parseRecord (s.received o u) = some rec → rec.kind ≠ .commit →
      rec.line = s.lineOf p →
      exec (.readPieceCompletion u) s = .next ({ s with
        array := { s.array with op := none, timeouts := 0 },
        port := { s.port with request := some { r with
          pieces := r.pieces.set i { p with
            result := some
              { bytes := ((dataField (s.received o u)).drop p.offset).take p.length, cause := none } } } } }
                : State).settle)
    ∧ (∀ (s : State) (o : Op) (i : Nat) (u : Upset) (r : Request) (p : Piece), s.power = .on →
        s.array.op = some o → o.purpose = .readPiece i → o.statusWait = false → o.abandoned = false →
        s.port.request = some r → r.pieces[i]? = some p →
        (s.health.arm = .read
          ∨ ∀ rec, parseRecord (s.received o u) = some rec →
              rec.kind = .commit ∨ rec.line ≠ s.lineOf p) →
        ∃ t : State, exec (.readPieceCompletion u) s = .next t.settle
          ∧ t.array = { s.array with op := none, timeouts := 0 }
          ∧ t.port = { s.port with request := some { r with
              pieces := r.pieces.set i { p with
                result := some
                  { bytes := ((dataField (s.received o u)).drop p.offset).take p.length,
                    cause := some .readCheck } } } }
          ∧ t.table = (if (s.entry (s.lineOf p)).current = some { block := o.block, slot := o.offset / 48 } then
              Sparse.set TableEntry.clear s.table (s.lineOf p) { s.entry (s.lineOf p) with checkFailed := true }
              else s.table)
          ∧ t.eventSet .readCheck = true ∧ t.health.arm = (if s.health.arm = .read then .none else s.health.arm)
          ∧ t.health.count = (if (s.health.cls = .read ∨ s.health.cls = .media) ∧ s.health.count < 65535 then
              s.health.count + 1 else s.health.count)
          ∧ t.queue = s.queue ∧ t.blocks = s.blocks ∧ t.windows = s.windows ∧ t.flash = s.flash)
    ∧ (∀ (s : State) (o : Op) (i : Nat) (u : Upset), s.power = .on → s.array.op = some o → o.purpose = .readPiece i →
        o.statusWait = false → o.abandoned = true →
        exec (.readPieceCompletion u) s
          = .next ({ s with array := { s.array with op := none, timeouts := 0 } } : State).settle)

/-- A completed merge read that passes is held in its piece with the slot read; one that fails ends the request with
cause READ_CHECK, the request's byte address and the store line, with the effects of R42: the entry's check-failed flag
is set if it still names that slot, READ_CHECK is raised and a READ media event reported, which the selected class
counts (R164, R165). A READ arm is neither looked at nor consumed (R50, R171). An abandoned one only frees the flash
(R50, R58). -/
def Obligations.MergeReadIsTested : Prop :=
  (∀ (s : State) (o : Op) (i : Nat) (u : Upset) (r : Request) (p : Piece) (rec : Record), s.power = .on →
      s.array.op = some o → o.purpose = .mergeRead i → o.statusWait = false → o.abandoned = false →
      s.port.request = some r → r.pieces[i]? = some p →
      parseRecord (s.received o u) = some rec → rec.kind ≠ .commit →
      rec.line = s.lineOf p →
      exec (.mergeReadCompletion u) s = .next ({ s with
        array := { s.array with op := none, timeouts := 0 },
        port := { s.port with request := some { r with
          pieces := r.pieces.set i { p with
            merge := some
              { slot := { block := o.block, slot := o.offset / 48 },
                image := dataField (s.received o u) } } } } }
                  : State).settle)
    ∧ (∀ (s : State) (o : Op) (i : Nat) (u : Upset) (r : Request) (p : Piece), s.power = .on →
        s.array.op = some o → o.purpose = .mergeRead i → o.statusWait = false → o.abandoned = false →
        s.port.request = some r → r.pieces[i]? = some p →
        (∀ rec, parseRecord (s.received o u) = some rec →
          rec.kind = .commit ∨ rec.line ≠ s.lineOf p) →
        ∃ t : State, exec (.mergeReadCompletion u) s = .next t.settle
          ∧ t.port = { s.port with request := none, response := some { cause := some .readCheck, data := [] } }
          ∧ t.table = (if (s.entry (s.lineOf p)).current = some { block := o.block, slot := o.offset / 48 } then
              Sparse.set TableEntry.clear s.table (s.lineOf p) { s.entry (s.lineOf p) with checkFailed := true }
              else s.table)
          ∧ t.eventSet .readCheck = true
          ∧ t.health = (if (s.health.cls = .read ∨ s.health.cls = .media) ∧ s.health.count < 65535 then
              { s.health with
                count := s.health.count + 1, saturated := s.health.saturated || decide (s.health.count = 65534) }
            else s.health)
          ∧ t.array = { s.array with op := none, timeouts := 0 }
          ∧ (s.mgmt.fault = none → t.mgmt.fault = some
              { cause := .readCheck, addr := some r.addr, line := some (s.lineOf p), block := none, slot := none,
                window := none })
          ∧ t.queue = s.queue ∧ t.blocks = s.blocks ∧ t.windows = s.windows ∧ t.flash = s.flash)
    ∧ (∀ (s : State) (o : Op) (i : Nat) (u : Upset), s.power = .on → s.array.op = some o → o.purpose = .mergeRead i →
        o.statusWait = false → o.abandoned = true →
        exec (.mergeReadCompletion u) s
          = .next ({ s with array := { s.array with op := none, timeouts := 0 } } : State).settle)

/-- A completed relocation read, for whichever job, of a source that is still live is held for its copy, with its
failure carried when the source failed its test (R82, R84): RELOCATE_CHECK is then reported with the source and a READ
media event. The test (R82): a source that a table entry, or else a shadow entry, names passes when it is a valid PLAIN or
TENTATIVE record of that entry's line; one that a register entry names when it is a valid COMMIT record of that entry's
window and group. A source that has died by the end of its read is given up there, untested and without a READ report (the
model's choice, log 57), and that takes the job's turn of rank 5, a priority release's too (R98; the model's choice, logs 37
and 66). -/
def Obligations.RelocationReadIsHeld : Prop :=
  (∀ (s : State) (o : Op) (k : JobKind) (c : CopyWork) (u : Upset), s.power = .on → s.array.op = some o →
    o.purpose = .relocRead k → o.statusWait = false →
    (match k with
      | .reclaim => s.blocks.reclaimCopy
      | .retirement => s.blocks.retireCopy
      | .release => s.blocks.release.bind (·.copy)) = some c →
    (s.live c.source = false →
      exec (.relocationReadCompletion u) s = .next ({ s with
        array := { s.array with op := none, timeouts := 0 },
        blocks := match k with
          | .reclaim => { s.blocks with reclaimCopy := none, releaseTurn := true }
          | .retirement => { s.blocks with retireCopy := none }
          | .release => { s.blocks with release := s.blocks.release.map fun j => { j with copy := none },
                                        releaseTurn := false } } : State).settle)
    ∧ (s.live c.source = true → ∀ (failed : Bool) (t : State),
        failed = !s.sourcePasses c.source (s.received o u) →
        t = { s with
          array := { s.array with op := none, timeouts := 0 },
          blocks := match k with
            | .reclaim => { s.blocks with
                reclaimCopy := some { c with stage := .held, bytes := s.received o u, failed := failed } }
            | .retirement => { s.blocks with
                retireCopy := some { c with stage := .held, bytes := s.received o u, failed := failed } }
            | .release => { s.blocks with release := s.blocks.release.map fun j =>
                { j with copy := some { c with stage := .held, bytes := s.received o u, failed := failed } } } } →
        exec (.relocationReadCompletion u) s = .next (
          if failed = true then
            (t.reportFault
              { cause := .relocateCheck, addr := none, line := s.lineNaming c.source, block := some c.source.block,
                slot := some c.source.slot, window := none }).report .read
          else t).settle))
    ∧ (∀ (s : State) (x : Slot) (bs : List Byte),
        (∀ before l e after, s.table = before ++ (l, e) :: after → e.current = some x →
          (∀ y ∈ before, y.2.current ≠ some x) →
          s.lineNaming x = some l
          ∧ (s.sourcePasses x bs = true ↔ ∃ r, parseRecord bs = some r ∧ r.kind ≠ .commit ∧ r.line = l))
        ∧ (∀ before e after, (∀ y ∈ s.table, y.2.current ≠ some x) → s.windows.shadow = before ++ e :: after →
          e.committed = some x → (∀ y ∈ before, y.committed ≠ some x) →
          s.lineNaming x = some e.line
          ∧ (s.sourcePasses x bs = true ↔ ∃ r, parseRecord bs = some r ∧ r.kind ≠ .commit ∧ r.line = e.line))
        ∧ (∀ before w g after, (∀ y ∈ s.table, y.2.current ≠ some x) → (∀ y ∈ s.windows.shadow, y.committed ≠ some x) →
          s.windows.register = before ++ .committed w g x :: after → (∀ y ∈ before, y.commitSlot ≠ some x) →
          s.lineNaming x = none
          ∧ (s.sourcePasses x bs = true
            ↔ ∃ r, parseRecord bs = some r ∧ r.kind = .commit ∧ r.window = w ∧ r.group = g)))

/-- Mount's scan and what its views hold. Step 1 (R137): the settings in force are a valid record that none exceeds in
settings sequence, or the default ones, which SETTINGS_LOST reports unless block 0 is wholly blank; the next append
goes above the highest non-blank slot. Step 2 (R140, R138): a marked block is RETIRED whatever else its header holds, a
header that is blank, broken, of kind SETTINGS or with a broken opening field is invalid (the first also with a valid
opening field, log 55), a valid opening field leads to the tail mark (FULL or unfinished), a blank one to the whole
block (ERASED, virgin or invalid); after block 255 step 3 begins. That the erase counts of block 0 and of a data block
are those of a valid first part of whichever kind is the model's reading (log 27). Step 3 (R142): a valid record is
collected with its block, slot, kind, line, origin and group; slot 84 leads to the next FULL or unfinished block, or to
step 9 with the repair list of R148. The size and order of the reads are the model's choice (log 6). Steps 4 to 8: the
winner of each line (R143); the allowed groups, which are those of the commit set but for the removals, each of which
takes, while more than 16 groups qualify, the one with the lowest group sequence; at most 16 register entries in rising
group sequence and their commit slots (R144); the table load (R49), the block table (R145, R141), the counters (R146),
the OPEN block (R147). -/
def Obligations.MountScanCollects : Prop :=
  (∀ (s : State) (m t : Mount) (o : Op) (b : Nat) (u : Upset) (bs : List Byte), s.power = .on → s.mount = some m →
      s.array.op = some o → o.purpose = .mountRead → o.statusWait = false → m.step = .header b →
      s.received o u = bs → isBlank ((bs.drop 32).take 8) = false →
      ({ m with candidate := none, scans := m.scans ++ [
        { block := b, cls := .retired, eraseCount := (parseFirstPart (bs.take 16)).map (·.2),
          opening := parseOpening ((bs.drop 16).take 16), highest := 0 }] } : Mount).AfterHeader t b →
      exec (.mountScanReadCompletion u) s = .next ({ s with
        array := { s.array with op := none, timeouts := 0 }, mount := some t } : State).settle)
    ∧ (∀ (s : State) (m : Mount) (o : Op) (b n : Nat) (u : Upset) (rec : Record) (x : BlockScan), s.power = .on →
        s.mount = some m → s.array.op = some o → o.purpose = .mountRead → o.statusWait = false → m.step = .slot b n →
        n < 84 → parseRecord (s.received o u) = some rec →
        (m.scans.find? fun y => decide (y.block = b)) = some x →
        exec (.mountScanReadCompletion u) s = .next ({ s with
          array := { s.array with op := none, timeouts := 0 },
          mount := some { m with
            step := .slot b (n + 1),
            scans := m.scans.map fun y => if y.block = b then { y with highest := n } else y,
            records := m.records ++ [
              { block := b, blockSeq := (x.opening.map (·.1)).getD 0, slot := n, kind := rec.kind, window := rec.window,
                line := rec.line, origin := rec.origin, group := rec.group }] } } : State).settle)
    ∧ (∀ (s : State) (m : Mount) (o : Op) (u : Upset) (bs : List Byte), s.power = .on → s.mount = some m →
        s.array.op = some o → o.purpose = .mountRead → o.statusWait = false → m.step = .settings → s.received o u = bs →
        ∃ (x : Settings) (found : Bool) (used : Nat) (t : State), exec (.mountScanReadCompletion u) s = .next
            (if found = false ∧ isBlank bs = false then
              t.reportFault { cause := .settingsLost, addr := none, line := none, block := some 0, slot := none,
                              window := none }
            else t).settle
          ∧ t = { s with
              array := { s.array with op := none, timeouts := 0 },
              mount := some { m with
                step := .header 1, settings := x, settingsFound := found, virgin := isBlank bs,
                block0Count := (parseFirstPart (bs.take 16)).map (·.2), nextSeq := x.seq + 1, nextSlot := used + 1 } }
          ∧ (found = true → ∃ n, 1 ≤ n ∧ n ≤ 84 ∧ parseSettings ((bs.drop (48 * n)).take 48) = some x)
          ∧ (found = false → x = Settings.default)
          ∧ (∀ n y, 1 ≤ n → n ≤ 84 → parseSettings ((bs.drop (48 * n)).take 48) = some y →
              found = true ∧ y.seq ≤ x.seq)
          ∧ used ≤ 84 ∧ (1 ≤ used → isBlank ((bs.drop (48 * used)).take 48) = false)
          ∧ (∀ n, used < n → n ≤ 84 → isBlank ((bs.drop (48 * n)).take 48) = true))
    ∧ (∀ (s : State) (m t : Mount) (o : Op) (b : Nat) (u : Upset) (bs : List Byte) (x : BlockScan), s.power = .on →
        s.mount = some m → s.array.op = some o → o.purpose = .mountRead → o.statusWait = false → m.step = .header b →
        s.received o u = bs → isBlank ((bs.drop 32).take 8) = true →
        x = { block := b, cls := .invalid, eraseCount := (parseFirstPart (bs.take 16)).map (·.2),
              opening := parseOpening ((bs.drop 16).take 16), highest := 0 } →
        ((parseFirstPart (bs.take 16) = none ∧ (isBlank (bs.take 16) = false ∨ m.virgin = false)
            ∨ (∃ n, parseFirstPart (bs.take 16) = some (kindSettings, n))
            ∨ (∃ n, parseFirstPart (bs.take 16) = some (kindData, n)) ∧ x.opening = none
              ∧ isBlank ((bs.drop 16).take 16) = false) →
          ({ m with candidate := none, scans := m.scans ++ [x] } : Mount).AfterHeader t b →
          exec (.mountScanReadCompletion u) s = .next ({ s with
            array := { s.array with op := none, timeouts := 0 }, mount := some t } : State).settle)
        ∧ ((∃ n, parseFirstPart (bs.take 16) = some (kindData, n)) → x.opening.isSome = true →
          exec (.mountScanReadCompletion u) s = .next ({ s with
            array := { s.array with op := none, timeouts := 0 },
            mount := some { m with step := .tail b, candidate := some x } } : State).settle)
        ∧ ((∃ n, parseFirstPart (bs.take 16) = some (kindData, n)) ∧ x.opening = none
              ∧ isBlank ((bs.drop 16).take 16) = true
            ∨ parseFirstPart (bs.take 16) = none ∧ isBlank (bs.take 16) = true ∧ m.virgin = true →
          exec (.mountScanReadCompletion u) s = .next ({ s with
            array := { s.array with op := none, timeouts := 0 },
            mount := some { m with step := .body b, candidate := some x } } : State).settle))
    ∧ (∀ (s : State) (m t : Mount) (o : Op) (b : Nat) (u : Upset) (x : BlockScan) (cls : BlockClass), s.power = .on →
        s.mount = some m → s.array.op = some o → o.purpose = .mountRead → o.statusWait = false → m.candidate = some x →
        (m.step = .tail b ∧ cls = (if isBlank (s.received o u) then .unfinished else .full)
          ∨ m.step = .body b ∧ cls = (if x.eraseCount = none then
              (if isBlank (s.received o u) then .virgin else .invalid)
            else if isBlank ((s.received o u).drop 16) then .erased else .invalid)) →
        ({ m with candidate := none, scans := m.scans ++ [{ x with cls := cls }] } : Mount).AfterHeader t x.block →
        exec (.mountScanReadCompletion u) s = .next ({ s with
          array := { s.array with op := none, timeouts := 0 }, mount := some t } : State).settle)
    ∧ (∀ (s : State) (m t : Mount) (o : Op) (b : Nat) (u : Upset) (bs : List Byte) (x : BlockScan), s.power = .on →
        s.mount = some m → s.array.op = some o → o.purpose = .mountRead → o.statusWait = false → s.received o u = bs →
        (m.scans.find? fun y => decide (y.block = b)) = some x →
        (∀ n, n < 84 → m.step = .slot b n → parseRecord bs = none →
          exec (.mountScanReadCompletion u) s = .next ({ s with
            array := { s.array with op := none, timeouts := 0 },
            mount := some { m with
              step := .slot b (n + 1),
              scans := if isBlank bs then m.scans
                else m.scans.map fun y => if y.block = b then { y with highest := n } else y } } : State).settle)
        ∧ (m.step = .slot b 84 →
          ({ m with
            scans := if isBlank bs then m.scans
              else m.scans.map fun y => if y.block = b then { y with highest := 84 } else y,
            records := m.records ++ (match parseRecord bs with
              | some rec => [{ block := b, blockSeq := (x.opening.map (·.1)).getD 0, slot := 84, kind := rec.kind,
                               window := rec.window, line := rec.line, origin := rec.origin, group := rec.group }]
              | none => []) } : Mount).AfterBlock t b →
          exec (.mountScanReadCompletion u) s = .next ({ s with
            array := { s.array with op := none, timeouts := 0 }, mount := some t } : State).settle))
    ∧ (∀ (m : Mount) (keys : List Tag),
        (∀ l r, Sparse.get none (resolve m.records keys) l = some r →
          r ∈ m.records ∧ r.line = l ∧ (r.kind = .plain ∨ r.kind = .tentative ∧ r.tag ∈ keys)
            ∧ ∀ q ∈ m.records, q.line = l → (q.kind = .plain ∨ q.kind = .tentative ∧ q.tag ∈ keys) →
                q.origin < r.origin ∨ q.origin = r.origin
                  ∧ (q.blockSeq < r.blockSeq ∨ q.blockSeq = r.blockSeq ∧ q.slot ≤ r.slot))
        ∧ (∀ q ∈ m.records, (q.kind = .plain ∨ q.kind = .tentative ∧ q.tag ∈ keys) →
            (Sparse.get none (resolve m.records keys) q.line).isSome = true)
        ∧ (∀ t, t ∈ commitKeys m.records ↔ ∃ c ∈ m.records, c.kind = .commit ∧ c.tag = t)
        ∧ m.winners = resolve m.records m.allowed.1
        ∧ (∃ gone : List Tag, gone.length = m.allowed.2
          ∧ m.allowed.1 = (commitKeys m.records).filter (fun u => !gone.contains u)
          ∧ ∀ i t left, gone[i]? = some t → left = (commitKeys m.records).filter (fun u => !(gone.take i).contains u) →
            m.Qualifies left t ∧ (∀ u, m.Qualifies left u → t.group ≤ u.group)
              ∧ ∃ us : List Tag, us.Nodup ∧ us.length = 17 ∧ ∀ u ∈ us, m.Qualifies left u)
        ∧ (∀ us : List Tag, us.Nodup → (∀ u ∈ us, m.Qualifies m.allowed.1 u) → us.length ≤ 16)
        ∧ ((∀ us : List Tag, us.Nodup → (∀ u ∈ us, m.Qualifies (commitKeys m.records) u) → us.length ≤ 16) →
          m.allowed = (commitKeys m.records, 0)))
    ∧ (∀ m : Mount,
        (∀ t ∈ m.allowed.1, ∃ c ∈ m.records, c.kind = .commit ∧ c.tag = t)
        ∧ (∀ l, Sparse.get none m.winners l = none → Sparse.get TableEntry.clear m.table l = TableEntry.clear)
        ∧ (∀ l r, Sparse.get none m.winners l = some r → r.kind = .plain →
            Sparse.get TableEntry.clear m.table l
              = { current := some { block := r.block, slot := r.slot }, group := none, checkFailed := false })
        ∧ (∀ l r, Sparse.get none m.winners l = some r → r.kind = .tentative →
            ∃ i x, m.register[i]? = some (RegEntry.committed r.window r.group x)
              ∧ Sparse.get TableEntry.clear m.table l
                  = { current := some { block := r.block, slot := r.slot }, group := some (.register i),
                      checkFailed := false })
        ∧ m.register.length = 16
        ∧ (∀ (i w g : Nat) (x : Slot), m.register[i]? = some (RegEntry.committed w g x) →
            (∃ l r, Sparse.get none m.winners l = some r ∧ r.kind = .tentative ∧ r.window = w ∧ r.group = g)
              ∧ ∃ c ∈ m.records, c.kind = .commit ∧ c.window = w ∧ c.group = g
                ∧ x = { block := c.block, slot := c.slot }
                ∧ ∀ q ∈ m.records, q.kind = .commit → q.window = w → q.group = g →
                    q.blockSeq < c.blockSeq ∨ q.blockSeq = c.blockSeq ∧ q.slot ≤ c.slot)
        ∧ (∀ (i j w v g h : Nat) (x y : Slot), i < j → m.register[i]? = some (RegEntry.committed w g x) →
            m.register[j]? = some (RegEntry.committed v h y) → g ≤ h))
    ∧ (∀ (m : Mount) (x : BlockScan), m.results = [] → (m.scans.map (·.block)).Nodup → x ∈ m.scans →
        Sparse.get BlockEntry.unknown m.blockTable x.block =
          { state := (match x.cls with
              | .retired => .retired
              | .erased => .erased
              | .unfinished => if m.openBlock = some x.block then .opened else .full
              | .full | .invalid | .virgin => .full),
            eraseCount := if x.cls = .virgin then 0
              else x.eraseCount.getD ((m.scans.map fun y => y.eraseCount.getD 0).foldr max 0),
            blockSeq := (match x.cls with
              | .retired | .full | .unfinished => x.opening.map (·.1)
              | .erased | .invalid | .virgin => none),
            nextFree := if x.cls = .unfinished ∧ m.openBlock = some x.block then x.highest + 1 else 0,
            failures := 0 })
    ∧ (∀ m : Mount,
        (∀ b, m.openBlock = some b → ∃ x ∈ m.scans, x.block = b ∧ x.cls = .unfinished ∧ x.highest < 84
          ∧ ∀ y ∈ m.scans, y.cls = .unfinished → (y.opening.map (·.1)).getD 0 ≤ (x.opening.map (·.1)).getD 0)
        ∧ (m.openBlock = none → ∀ x ∈ m.scans, x.cls = .unfinished →
          ∃ y ∈ m.scans, y.cls = .unfinished ∧ 84 ≤ y.highest
            ∧ (x.opening.map (·.1)).getD 0 ≤ (y.opening.map (·.1)).getD 0)
        ∧ m.nextOrigin = (m.records.map (·.origin) ++ m.scans.filterMap fun x =>
            x.opening.map fun f => if f.2.1 = 4294967294 then f.2.1 else f.2.1 - 1).foldr max 0 + 1
        ∧ m.nextGroup = (m.records.map (·.group) ++ m.scans.filterMap fun x =>
            x.opening.map fun f => if f.2.2 = 4294967294 then f.2.2 else f.2.2 - 1).foldr max 0 + 1
        ∧ m.nextBlockSeq = (m.scans.filterMap fun x => x.opening.map (·.1)).foldr max 0 + 1)

/-- After a third failed erase attempt of a victim: a blank retire mark area leads to the mark's program, a marked one
makes the block RETIRED at once, ends the reclaim, raises BLOCK_RETIRED and reports it (R89). WIPE's read of block 0's
first part gives the count of its new header: one more than a valid count, of whichever kind (the model's reading, log 27),
otherwise 1 (R186). -/
def Obligations.MarkAreaAndBlock0Reads : Prop :=
  (∀ (s : State) (o : Op) (j : EraseJob) (u : Upset), s.power = .on → s.array.op = some o → o.purpose = .markRead →
      o.statusWait = false → s.array.erase = some j →
      isBlank (s.received o u) = true →
      exec (.retireMarkAreaReadCompletion u) s = .next ({ s with
        array := { s.array with op := none, timeouts := 0, erase := some { j with part := .mark } } } : State).settle)
    ∧ (∀ (s : State) (o : Op) (j : EraseJob) (u : Upset), s.power = .on → s.array.op = some o → o.purpose = .markRead →
        o.statusWait = false → s.array.erase = some j → j.owner = .manager → s.blocks.victim = some j.block →
        isBlank (s.received o u) = false →
        exec (.retireMarkAreaReadCompletion u) s = .next ((({ s with
          array := { s.array with op := none, timeouts := 0, erase := none },
          blocks := { s.blocks with
            table := Sparse.set BlockEntry.unknown s.blocks.table j.block
              { s.block j.block with state := .retired, nextFree := 0 },
            victim := none, reclaimCopy := none, releaseTurn := true } } : State).raise .blockRetired).reportFault
              { cause := .blockRetired, addr := none, line := none, block := some j.block, slot := none,
                window := none }).settle)
    ∧ (∀ (s : State) (o : Op) (step : WipeStep) (cut : Bool) (u : Upset), s.power = .on → s.array.op = some o →
        o.purpose = .wipeRead → o.statusWait = false → s.mgmt.command = .active (.wipe step cut) →
        exec (.wipeBlock0ReadCompletion u) s = .next ({ s with
          mgmt := { s.mgmt with command := .active (.wipe .format cut) },
          array := { s.array with
            op := none, timeouts := 0,
            erase := some
              { owner := .wipe, block := 0, attempts := 0,
                newCount := (match parseFirstPart (s.received o u) with
                  | some (_, n) => min (n + 1) 4294967294
                  | none => 1),
                part := .waiting, running := 0, clock := 0, suspends := 0, statusWait := false, virgin := false } } }
                  : State).settle)

/-! ### Programs -/

/-- A queue program of a LINE entry that passes (R65, R69, R104): the read-back returned the bytes programmed, whatever is
stored (R96). The head leaves the queue, its line's entry names the target slot with the tag's open group and a clear
check-failed flag (R45), the shadow entry of the line takes the slot when the entry is untagged (R114), the block's
consecutive verify failures and the consecutive timeout count return to 0. A dropped entry leaves the queue and claims
nothing (R70). After the program into slot 84 the OPEN block is owed its tail mark (R77). -/
def Obligations.QueueProgramPasses : Prop :=
  ∀ (s : State) (o : Op) (e : LineEntry) (qs : List QEntry) (stored readBack : Upset), s.power = .on →
    s.array.op = some o → o.purpose = .queueProgram → o.statusWait = false → s.health.arm ≠ .verify →
    Sparse.wf BlockEntry.unknown s.blocks.table = true → s.queue.entries = .line e :: qs →
    overlay (overlay o.bytes stored) readBack = o.bytes →
    (e.dropped = false → exec (.queueProgramOutcome (.ended stored readBack)) s = .next ({ s with
      flash := flashWrite s.flash (4096 * o.block + o.offset) (overlay o.bytes stored),
      array := { s.array with op := none, timeouts := 0 },
      queue := { s.queue with entries := qs },
      table := Sparse.set TableEntry.clear s.table e.line
        { current := some o.at, group := e.tag.map fun t => .openIn t.window, checkFailed := false },
      windows := { s.windows with
        shadow := if e.tag = none then s.windows.shadow.map fun x =>
            if x.line = e.line then { x with committed := some o.at, committedGroup := none } else x
          else s.windows.shadow },
      blocks := { s.blocks with
        table := Sparse.set BlockEntry.unknown s.blocks.table o.block { s.block o.block with failures := 0 },
        tailOwed := if o.offset / 48 = 84 ∧ (s.block o.block).state = .opened then
            some (if s.mgmt.mode = .drain then .drain else .queue)
          else s.blocks.tailOwed } }
          : State).settle)
    ∧ (e.dropped = true → exec (.queueProgramOutcome (.ended stored readBack)) s = .next ({ s with
      flash := flashWrite s.flash (4096 * o.block + o.offset) (overlay o.bytes stored),
      array := { s.array with op := none, timeouts := 0 },
      queue := { s.queue with entries := qs },
      blocks := { s.blocks with
        table := Sparse.set BlockEntry.unknown s.blocks.table o.block { s.block o.block with failures := 0 },
        tailOwed := if o.offset / 48 = 84 ∧ (s.block o.block).state = .opened then
            some (if s.mgmt.mode = .drain then .drain else .queue)
          else s.blocks.tailOwed } }
          : State).settle)

/-- A queue program of a LINE entry that fails, because the read-back differs from the bytes programmed or a VERIFY arm
is held, which is consumed (R96, R170): the block has one more consecutive verify failure and a PROGRAM media event is
reported (R67, R87); up to the fifth attempt the entry is PENDING again at the head, keeps its origin and has one
attempt more; at the sixth it leaves the queue and PROGRAM_FAIL is reported with line, block, slot and window (R68). At
the third consecutive failure of an OPEN or FULL block it is RETIRING, BLOCK_RETIRED is raised and reported (R87, R90),
at the sixth attempt too; at the entry's own third attempt in a block the queue asks for the retirement (R67 step 3).
After the program into slot 84 a block still OPEN is owed its tail mark (R77). A dropped entry that fails leaves the
queue; the failure still counts against the block and is reported, and there is no PROGRAM_FAIL (R70). -/
def Obligations.QueueProgramFails : Prop :=
  ∀ (s : State) (o : Op) (e : LineEntry) (qs : List QEntry) (stored readBack : Upset), s.power = .on →
    s.array.op = some o → o.purpose = .queueProgram → o.statusWait = false →
    Sparse.wf BlockEntry.unknown s.blocks.table = true → s.queue.entries = .line e :: qs → e.dropped = false →
    (s.health.arm = .verify ∧ o.block ≠ 0 ∧ o.length = 48 ∧ isLineRecord o.bytes = true
      ∨ s.health.arm ≠ .verify ∧ overlay (overlay o.bytes stored) readBack ≠ o.bytes) →
    (e.attempts ≤ 4 → (s.block o.block).failures ≤ 1 → (e.lastBlock = some o.block → e.blockAttempts ≤ 1) →
      exec (.queueProgramOutcome (.ended stored readBack)) s = .next (({ s with
        flash := flashWrite s.flash (4096 * o.block + o.offset) (overlay o.bytes stored),
        array := { s.array with op := none, timeouts := 0 },
        health := { s.health with arm := if s.health.arm = .verify then .none else s.health.arm },
        queue := { s.queue with
          entries := .line { e with
            state := .pending, target := none, attempts := e.attempts + 1,
            blockAttempts := if e.lastBlock = some o.block then e.blockAttempts + 1 else 1,
            lastBlock := some o.block } :: qs },
        blocks := { s.blocks with
          table := Sparse.set BlockEntry.unknown s.blocks.table o.block
            { s.block o.block with failures := (s.block o.block).failures + 1 },
          tailOwed := if o.offset / 48 = 84 ∧ (s.block o.block).state = .opened then
              some (if s.mgmt.mode = .drain then .drain else .queue)
            else s.blocks.tailOwed } } : State).report .program).settle)
    ∧ (e.attempts = 5 → (s.block o.block).failures ≤ 1 → (e.lastBlock = some o.block → e.blockAttempts ≤ 1) →
      e.syncMark = false →
      exec (.queueProgramOutcome (.ended stored readBack)) s = .next ((({ s with
        flash := flashWrite s.flash (4096 * o.block + o.offset) (overlay o.bytes stored),
        array := { s.array with op := none, timeouts := 0 },
        health := { s.health with arm := if s.health.arm = .verify then .none else s.health.arm },
        queue := { s.queue with entries := qs },
        blocks := { s.blocks with
          table := Sparse.set BlockEntry.unknown s.blocks.table o.block
            { s.block o.block with failures := (s.block o.block).failures + 1 },
          tailOwed := if o.offset / 48 = 84 ∧ (s.block o.block).state = .opened then
              some (if s.mgmt.mode = .drain then .drain else .queue)
            else s.blocks.tailOwed } } : State).report .program).reportFault
              { cause := .programFail, addr := none, line := some e.line, block := some o.block,
                slot := some (o.offset / 48), window := e.tag.map (·.window) }).settle)
    ∧ (e.attempts ≤ 4 → (s.block o.block).failures = 2 →
      ((s.block o.block).state = .opened ∨ (s.block o.block).state = .full) →
      exec (.queueProgramOutcome (.ended stored readBack)) s = .next (((({ s with
        flash := flashWrite s.flash (4096 * o.block + o.offset) (overlay o.bytes stored),
        array := { s.array with op := none, timeouts := 0 },
        health := { s.health with arm := if s.health.arm = .verify then .none else s.health.arm },
        queue := { s.queue with
          entries := .line { e with
            state := .pending, target := none, attempts := e.attempts + 1,
            blockAttempts := if e.lastBlock = some o.block then e.blockAttempts + 1 else 1,
            lastBlock := some o.block } :: qs },
        blocks := { s.blocks with
          table := Sparse.set BlockEntry.unknown s.blocks.table o.block
            { s.block o.block with state := .retiring, nextFree := 0, failures := 3 },
          retiring := s.blocks.retiring ++ [o.block],
          tailOwed := if (s.block o.block).state = .opened then none else s.blocks.tailOwed } } : State).raise
            .blockRetired).reportFault
              { cause := .blockRetired, addr := none, line := none, block := some o.block, slot := none,
                window := none }).report .program).settle)
    ∧ (e.attempts = 5 → (s.block o.block).failures = 2 → e.syncMark = false →
      ((s.block o.block).state = .opened ∨ (s.block o.block).state = .full) →
      exec (.queueProgramOutcome (.ended stored readBack)) s = .next ((((({ s with
        flash := flashWrite s.flash (4096 * o.block + o.offset) (overlay o.bytes stored),
        array := { s.array with op := none, timeouts := 0 },
        health := { s.health with arm := if s.health.arm = .verify then .none else s.health.arm },
        queue := { s.queue with entries := qs },
        blocks := { s.blocks with
          table := Sparse.set BlockEntry.unknown s.blocks.table o.block
            { s.block o.block with state := .retiring, nextFree := 0, failures := 3 },
          retiring := s.blocks.retiring ++ [o.block],
          tailOwed := if (s.block o.block).state = .opened then none else s.blocks.tailOwed } } : State).raise
            .blockRetired).reportFault
              { cause := .blockRetired, addr := none, line := none, block := some o.block, slot := none,
                window := none }).report .program).reportFault
              { cause := .programFail, addr := none, line := some e.line, block := some o.block,
                slot := some (o.offset / 48), window := e.tag.map (·.window) }).settle)
    ∧ (e.attempts ≤ 4 → (s.block o.block).failures ≤ 1 → e.lastBlock = some o.block → e.blockAttempts = 2 →
      ((s.block o.block).state = .opened ∨ (s.block o.block).state = .full) →
      exec (.queueProgramOutcome (.ended stored readBack)) s = .next (((({ s with
        flash := flashWrite s.flash (4096 * o.block + o.offset) (overlay o.bytes stored),
        array := { s.array with op := none, timeouts := 0 },
        health := { s.health with arm := if s.health.arm = .verify then .none else s.health.arm },
        queue := { s.queue with
          entries := .line { e with
            state := .pending, target := none, attempts := e.attempts + 1, blockAttempts := 3,
            lastBlock := some o.block } :: qs },
        blocks := { s.blocks with
          table := Sparse.set BlockEntry.unknown s.blocks.table o.block
            { s.block o.block with state := .retiring, nextFree := 0, failures := (s.block o.block).failures + 1 },
          retiring := s.blocks.retiring ++ [o.block],
          tailOwed := if (s.block o.block).state = .opened then none else s.blocks.tailOwed } } : State).report
            .program).raise .blockRetired).reportFault
              { cause := .blockRetired, addr := none, line := none, block := some o.block, slot := none,
                window := none }).settle)
    ∧ (∀ d : LineEntry, d = { e with dropped := true } → (s.block o.block).failures ≤ 1 →
      exec (.queueProgramOutcome (.ended stored readBack)) { s with queue := { s.queue with entries := .line d :: qs } }
        = .next (({ s with
        flash := flashWrite s.flash (4096 * o.block + o.offset) (overlay o.bytes stored),
        array := { s.array with op := none, timeouts := 0 },
        health := { s.health with arm := if s.health.arm = .verify then .none else s.health.arm },
        queue := { s.queue with entries := qs },
        blocks := { s.blocks with
          table := Sparse.set BlockEntry.unknown s.blocks.table o.block
            { s.block o.block with failures := (s.block o.block).failures + 1 },
          tailOwed := if o.offset / 48 = 84 ∧ (s.block o.block).state = .opened then
              some (if s.mgmt.mode = .drain then .drain else .queue)
            else s.blocks.tailOwed } } : State).report .program).settle)

/-- The outcome of a COMMIT entry's program. It passes (R66, R120, R121): every entry of the open group names register
index `i`, which is COMMITTED with the record's slot, or free when the group has no member; the window's shadow entries
are released; the window is ARMED again with one repeat less, also while SVCE or RSTS is in progress, as the model
reads R127 (log 42), or IDLE with WINDOW_END when this was its last repeat or the mode is not RUN; GROUP_COMMIT is
raised. It fails (R67): up to the fifth attempt the entry is PENDING again at the head with one attempt more, the block
has one more failure and a PROGRAM media event is reported. It fails for the sixth time (R68, R123): the COMMIT record
is lost, the entry leaves the queue, PROGRAM_FAIL is reported with block, slot and window, the window's lines are
reverted (R125), its shadow entries released, its register entry freed, the window is IDLE and GROUP_DROP is raised. No
request is at the port. -/
def Obligations.CommitRecordPasses : Prop :=
  (∀ (s : State) (o : Op) (e : CommitEntry) (qs : List QEntry) (stored readBack : Upset), s.power = .on →
    s.array.op = some o → o.purpose = .queueProgram → o.statusWait = false →
    (s.health.arm ≠ .verify ∨ isLineRecord o.bytes = false) →
    Sparse.wf BlockEntry.unknown s.blocks.table = true → s.queue.entries = .commit e :: qs → s.port.request = none →
    overlay (overlay o.bytes stored) readBack = o.bytes →
    ∃ t : State, exec (.queueProgramOutcome (.ended stored readBack)) s = .next t.settle
      ∧ t.table = s.table.map (fun c =>
          (c.1, if c.2.group = some (.openIn e.window) then { c.2 with group := some (.register e.register) } else c.2))
      ∧ t.windows = { s.windows with
          windows := s.windows.windows.set e.window
            (if s.mgmt.mode = .run ∧ (s.window e.window).repeats ≠ 1 then
              { s.window e.window with
                state := .armed, repeats := (s.window e.window).repeats - 1, group := none, register := none,
                awaiting := false }
            else
              { s.window e.window with
                state := .idle, repeats := 0, group := none, register := none, awaiting := false }),
          shadow := s.windows.shadow.filter fun x => !decide (x.window = e.window),
          register := s.windows.register.set e.register
            (if s.members e.window = 0 then .free else .committed e.window e.group o.at) }
      ∧ t.queue = { s.queue with entries := qs }
      ∧ t.flash = flashWrite s.flash (4096 * o.block + o.offset) (overlay o.bytes stored)
      ∧ t.blocks = { s.blocks with
          table := Sparse.set BlockEntry.unknown s.blocks.table o.block { s.block o.block with failures := 0 },
          tailOwed := if o.offset / 48 = 84 ∧ (s.block o.block).state = .opened then
              some (if s.mgmt.mode = .drain then .drain else .queue)
            else s.blocks.tailOwed }
      ∧ t.array = { s.array with op := none, timeouts := 0 } ∧ t.port = s.port ∧ t.health = s.health
      ∧ (∀ v : Event, t.eventSet v = (s.eventSet v || decide (v = .groupCommit)
          || decide (v = .windowEnd ∧ ¬(s.mgmt.mode = .run ∧ (s.window e.window).repeats ≠ 1)))))
    ∧ (∀ (s : State) (o : Op) (e : CommitEntry) (qs : List QEntry) (stored readBack : Upset), s.power = .on →
    s.array.op = some o → o.purpose = .queueProgram → o.statusWait = false →
    (s.health.arm ≠ .verify ∨ isLineRecord o.bytes = false) →
    Sparse.wf BlockEntry.unknown s.blocks.table = true → s.queue.entries = .commit e :: qs →
    overlay (overlay o.bytes stored) readBack ≠ o.bytes → (s.block o.block).failures ≤ 1 →
    (e.lastBlock = some o.block → e.blockAttempts ≤ 1) →
    (e.attempts ≤ 4 →
      exec (.queueProgramOutcome (.ended stored readBack)) s = .next (({ s with
        flash := flashWrite s.flash (4096 * o.block + o.offset) (overlay o.bytes stored),
        array := { s.array with op := none, timeouts := 0 },
        queue := { s.queue with
          entries := .commit { e with
            state := .pending, target := none, attempts := e.attempts + 1,
            blockAttempts := if e.lastBlock = some o.block then e.blockAttempts + 1 else 1,
            lastBlock := some o.block } :: qs },
        blocks := { s.blocks with
          table := Sparse.set BlockEntry.unknown s.blocks.table o.block
            { s.block o.block with failures := (s.block o.block).failures + 1 },
          tailOwed := if o.offset / 48 = 84 ∧ (s.block o.block).state = .opened then
              some (if s.mgmt.mode = .drain then .drain else .queue)
            else s.blocks.tailOwed } } : State).report .program).settle)
    ∧ (e.attempts = 5 → e.syncMark = false → s.port.request = none → Sparse.wf TableEntry.clear s.table = true →
      (s.windows.shadow.map (·.line)).Nodup →
      ∃ t : State, exec (.queueProgramOutcome (.ended stored readBack)) s = .next t.settle
        ∧ t.queue = { s.queue with entries := qs }
        ∧ t.windows = { s.windows with
            windows := s.windows.windows.set e.window
              { s.window e.window with
                state := .idle, repeats := 0, group := none, register := none, awaiting := false },
            shadow := s.windows.shadow.filter fun x => !decide (x.window = e.window),
            register := (match (s.window e.window).register with
              | some i => s.windows.register.set i .free
              | none => s.windows.register) }
        ∧ (∀ x ∈ s.windows.shadow, x.window = e.window → t.entry x.line
            = (if (s.entry x.line).current = x.committed
                  ∧ (s.entry x.line).group = x.committedGroup.map GroupRef.register then s.entry x.line
              else { current := x.committed, group := x.committedGroup.map GroupRef.register, checkFailed := false }))
        ∧ (∀ l, (∀ x ∈ s.windows.shadow, x.window = e.window → x.line ≠ l) → t.entry l = s.entry l)
        ∧ t.flash = flashWrite s.flash (4096 * o.block + o.offset) (overlay o.bytes stored)
        ∧ t.array = { s.array with op := none, timeouts := 0 } ∧ t.port = s.port
        ∧ t.blocks = { s.blocks with
            table := Sparse.set BlockEntry.unknown s.blocks.table o.block
              { s.block o.block with failures := (s.block o.block).failures + 1 },
            tailOwed := if o.offset / 48 = 84 ∧ (s.block o.block).state = .opened then
                some (if s.mgmt.mode = .drain then .drain else .queue)
              else s.blocks.tailOwed }
        ∧ t.eventSet .groupDrop = true
        ∧ (s.mgmt.fault = none → t.mgmt.fault = some
            { cause := .programFail, addr := none, line := none, block := some o.block,
              slot := some (o.offset / 48), window := some e.window })))

/-- A copy program, for whichever job, that passes is taken by the three holders in one event (R86, R47, R114): every
table, shadow and register entry that named the source names the copy, untagged when the copy was made PLAIN, and a
merge image of the source stays valid for the copy (R58); the copy in hand is done, a turn of rank 5 passes to the
other job (R98), after a copy of a priority release too (the model's choice, log 66), and the block's failures return to 0. One that fails holds the copy for another attempt (R87), whether
the read-back differs or a VERIFY arm fits, which is consumed (R170), and is reported as a PROGRAM media event; the
third failure in a row retires its OPEN or FULL block, with BLOCK_RETIRED raised and reported (R87, R90), and the copy
is still held. After the program into slot 84 a block still OPEN is owed its tail mark (R77) at the rank of the job
(R98; that the rank is fixed then is the model's choice, log 38), or of the drain in DRAIN. -/
def Obligations.ReclaimCopyOutcome : Prop :=
  ∀ (s : State) (o : Op) (k : JobKind) (c : CopyWork) (bs : List Byte) (q : Requester) (done held : BlockManager)
    (stored readBack : Upset), s.power = .on →
    s.array.op = some o → o.purpose = .copyProgram k → o.statusWait = false →
    Sparse.wf BlockEntry.unknown s.blocks.table = true →
    (match k with
      | .reclaim => s.blocks.reclaimCopy
      | .retirement => s.blocks.retireCopy
      | .release => s.blocks.release.bind (·.copy)) = some c → c.built = some bs →
    q = (if s.mgmt.mode = .drain then .drain
      else match k with
        | .reclaim => .job .reclaim
        | .retirement => .job .retirement
        | .release => if s.blocks.release.map (·.priority) = some true then .priorityRelease else .job .release) →
    done = (match k with
      | .reclaim => { s.blocks with reclaimCopy := none, releaseTurn := true }
      | .retirement => { s.blocks with retireCopy := none }
      | .release => { s.blocks with release := s.blocks.release.map fun j => { j with copy := none },
                                    releaseTurn := false }) →
    held = (match k with
      | .reclaim => { s.blocks with reclaimCopy := some { c with stage := .held } }
      | .retirement => { s.blocks with retireCopy := some { c with stage := .held } }
      | .release => { s.blocks with
          release := s.blocks.release.map fun j => { j with copy := some { c with stage := .held } } }) →
    (s.health.arm ≠ .verify → overlay (overlay o.bytes stored) readBack = o.bytes →
      exec (.copyProgramOutcome (.ended stored readBack)) s = .next ({ s with
        flash := flashWrite s.flash (4096 * o.block + o.offset) (overlay o.bytes stored),
        array := { s.array with op := none, timeouts := 0 },
        table := s.table.map fun p => (p.1,
          if p.2.current = some c.source then
            { current := some o.at, group := if bs.getD 0 0 = 0x3C then none else p.2.group,
              checkFailed := p.2.checkFailed || c.failed }
          else p.2),
        windows := { s.windows with
          shadow := s.windows.shadow.map fun x =>
            if x.committed = some c.source then
              { x with committed := some o.at,
                       committedGroup := if bs.getD 0 0 = 0x3C then none else x.committedGroup }
            else x,
          register := s.windows.register.map fun r =>
            if r.commitSlot = some c.source then
              (match r with
                | .committed w g _ => .committed w g o.at
                | other => other)
            else r },
        port := { s.port with request := s.port.request.map fun r => { r with
          pieces := r.pieces.map fun p => { p with
            merge := p.merge.map fun m => if m.slot = c.source then { m with slot := o.at } else m } } },
        blocks := { done with
          table := Sparse.set BlockEntry.unknown s.blocks.table o.block { s.block o.block with failures := 0 },
          tailOwed := if o.offset / 48 = 84 ∧ (s.block o.block).state = .opened then some q
            else s.blocks.tailOwed } } : State).settle)
    ∧ ((s.health.arm = .verify ∧ o.block ≠ 0 ∧ o.length = 48 ∧ isLineRecord o.bytes = true
        ∨ s.health.arm ≠ .verify ∧ overlay (overlay o.bytes stored) readBack ≠ o.bytes) →
      ((s.block o.block).failures ≤ 1 →
        exec (.copyProgramOutcome (.ended stored readBack)) s = .next (({ s with
          flash := flashWrite s.flash (4096 * o.block + o.offset) (overlay o.bytes stored),
          array := { s.array with op := none, timeouts := 0 },
          health := { s.health with arm := if s.health.arm = .verify then .none else s.health.arm },
          blocks := { held with
            table := Sparse.set BlockEntry.unknown s.blocks.table o.block
              { s.block o.block with failures := (s.block o.block).failures + 1 },
            tailOwed := if o.offset / 48 = 84 ∧ (s.block o.block).state = .opened then some q
              else s.blocks.tailOwed } } : State).report .program).settle)
      ∧ ((s.block o.block).failures = 2 →
        ((s.block o.block).state = .opened ∨ (s.block o.block).state = .full) →
        exec (.copyProgramOutcome (.ended stored readBack)) s = .next (((({ s with
          flash := flashWrite s.flash (4096 * o.block + o.offset) (overlay o.bytes stored),
          array := { s.array with op := none, timeouts := 0 },
          health := { s.health with arm := if s.health.arm = .verify then .none else s.health.arm },
          blocks := { held with
            table := Sparse.set BlockEntry.unknown s.blocks.table o.block
              { s.block o.block with state := .retiring, nextFree := 0, failures := 3 },
            retiring := s.blocks.retiring ++ [o.block],
            tailOwed := if (s.block o.block).state = .opened then none else s.blocks.tailOwed } } : State).raise
              .blockRetired).reportFault
                { cause := .blockRetired, addr := none, line := none, block := some o.block, slot := none,
                  window := none }).report .program).settle))

/-- An opening that passes makes the block OPEN with next free slot 1 and no failures; one that fails makes it FULL
(R76). A tail mark program that ended makes its block FULL whatever the outcome (R77), a retire mark program of a
RETIRING block makes it RETIRED whatever the outcome and ends its retirement (R91). A retire mark program after a third
failed erase attempt of a reclaim's victim makes it RETIRED whatever the outcome, ends the reclaim, raises
BLOCK_RETIRED and reports it (R89). A Fail is reported to the health counter (R164). -/
def Obligations.BlockMarksChangeTheBlock : Prop :=
  (∀ (s : State) (o : Op) (q : Requester) (stored readBack : Upset), s.power = .on → s.array.op = some o →
      o.purpose = .opening q → o.statusWait = false → o.length = 16 →
      exec (.openingProgramOutcome (.ended stored readBack)) s = .next (
        if overlay (overlay o.bytes stored) readBack = o.bytes then
          { s with
            flash := flashWrite s.flash (4096 * o.block + o.offset) (overlay o.bytes stored),
            array := { s.array with op := none, timeouts := 0 },
            blocks := { s.blocks with
              table := Sparse.set BlockEntry.unknown s.blocks.table o.block
                { s.block o.block with state := .opened, nextFree := 1, failures := 0 } } }
        else
          ({ s with
            flash := flashWrite s.flash (4096 * o.block + o.offset) (overlay o.bytes stored),
            array := { s.array with op := none, timeouts := 0 },
            blocks := { s.blocks with
              table := Sparse.set BlockEntry.unknown s.blocks.table o.block
                { s.block o.block with state := .full, nextFree := 0 } } } : State).report .program).settle)
    ∧ (∀ (s t : State) (o : Op) (stored readBack : Upset), s.power = .on → s.array.op = some o →
        o.purpose = .tailMark → o.statusWait = false → o.length = 16 →
        t = { s with
          flash := flashWrite s.flash (4096 * o.block + o.offset) (overlay o.bytes stored),
          array := { s.array with op := none, timeouts := 0 },
          blocks := { s.blocks with
            table := Sparse.set BlockEntry.unknown s.blocks.table o.block
              { s.block o.block with state := .full, nextFree := 0 },
            tailOwed := none } } →
        exec (.tailMarkOutcome (.ended stored readBack)) s = .next (
          if overlay (overlay o.bytes stored) readBack = o.bytes then t else t.report .program).settle)
    ∧ (∀ (s t : State) (o : Op) (stored readBack : Upset), s.power = .on → s.array.op = some o →
        o.purpose = .retireMark → o.statusWait = false → o.length = 8 →
        t = { s with
          flash := flashWrite s.flash (4096 * o.block + o.offset) (overlay o.bytes stored),
          array := { s.array with op := none, timeouts := 0 },
          blocks := { s.blocks with
            table := Sparse.set BlockEntry.unknown s.blocks.table o.block
              { s.block o.block with state := .retired, nextFree := 0 },
            retiring := s.blocks.retiring.filter fun x => !decide (x = o.block) } } →
        exec (.retireMarkOutcome (.ended stored readBack)) s = .next (
          if overlay (overlay o.bytes stored) readBack = o.bytes then t else t.report .program).settle)
    ∧ (∀ (s t : State) (o : Op) (j : EraseJob) (stored readBack : Upset), s.power = .on → s.array.op = some o →
        o.purpose = .eraseMark → o.statusWait = false → o.length = 8 → s.array.erase = some j → j.owner = .manager →
        s.blocks.victim = some j.block →
        t = { s with
          flash := flashWrite s.flash (4096 * o.block + o.offset) (overlay o.bytes stored),
          array := { s.array with op := none, timeouts := 0, erase := none },
          blocks := { s.blocks with
            table := Sparse.set BlockEntry.unknown s.blocks.table j.block
              { s.block j.block with state := .retired, nextFree := 0 },
            victim := none, reclaimCopy := none, releaseTurn := true } } →
        exec (.retireMarkOutcome (.ended stored readBack)) s = .next (
          ((if overlay (overlay o.bytes stored) readBack = o.bytes then t else t.report .program).raise
            .blockRetired).reportFault
              { cause := .blockRetired, addr := none, line := none, block := some j.block, slot := none,
                window := none }).settle)

/-- In a drain a program is tried once (R157). A LINE entry's Pass is the queue's; a Fail counts against the block, is
reported to the health counter, and discards the entry with DRAIN_LOSS, its line, block, slot and window, here with the
block short of three failures. After the program into slot 84 the OPEN block is owed its tail mark (R77). A COMMIT
entry's Pass commits its group as the queue's does; a Fail loses the COMMIT record (R123): DRAIN_LOSS with block, slot
and window, the window's lines reverted (R125), its shadow entries released, its register entry freed, the window IDLE,
GROUP_DROP raised. What DRAINING discards at once: LINE entries that can have no slot, because none is left, no block
is ERASED and no opening is in flight, go in queue order with DRAIN_LOSS naming no block and no slot, and the drain
reaches DRAINED with DRAIN_DONE (R158, R161); under WP# every entry that is not PROGRAMMING goes, the first of them
reported first (R159). -/
def Obligations.DrainProgramIsTriedOnce : Prop :=
  (∀ (s : State) (o : Op) (e : LineEntry) (qs : List QEntry) (stored readBack : Upset), s.power = .on →
    s.array.op = some o → o.purpose = .drainProgram → o.statusWait = false → s.health.arm ≠ .verify →
    Sparse.wf BlockEntry.unknown s.blocks.table = true → s.queue.entries = .line e :: qs →
    (overlay (overlay o.bytes stored) readBack = o.bytes →
      exec (.drainProgramOutcome (.ended stored readBack)) s = .next ({ s with
        flash := flashWrite s.flash (4096 * o.block + o.offset) (overlay o.bytes stored),
        array := { s.array with op := none, timeouts := 0 },
        queue := { s.queue with entries := qs },
        table := Sparse.set TableEntry.clear s.table e.line
          { current := some o.at, group := e.tag.map fun t => .openIn t.window, checkFailed := false },
        windows := { s.windows with
          shadow := if e.tag = none then s.windows.shadow.map fun x =>
              if x.line = e.line then { x with committed := some o.at, committedGroup := none } else x
            else s.windows.shadow },
        blocks := { s.blocks with
          table := Sparse.set BlockEntry.unknown s.blocks.table o.block { s.block o.block with failures := 0 },
          tailOwed := if o.offset / 48 = 84 ∧ (s.block o.block).state = .opened then
              some .drain
            else s.blocks.tailOwed } }
            : State).settle)
    ∧ (overlay (overlay o.bytes stored) readBack ≠ o.bytes → (s.block o.block).failures ≤ 1 → e.syncMark = false →
      (e.lastBlock = some o.block → e.blockAttempts ≤ 1) →
      exec (.drainProgramOutcome (.ended stored readBack)) s = .next ((({ s with
        flash := flashWrite s.flash (4096 * o.block + o.offset) (overlay o.bytes stored),
        array := { s.array with op := none, timeouts := 0 },
        queue := { s.queue with entries := qs },
        blocks := { s.blocks with
          table := Sparse.set BlockEntry.unknown s.blocks.table o.block
            { s.block o.block with failures := (s.block o.block).failures + 1 },
          tailOwed := if o.offset / 48 = 84 ∧ (s.block o.block).state = .opened then
              some .drain
            else s.blocks.tailOwed } } : State).report .program).reportFault
              { cause := .drainLoss, addr := none, line := some e.line, block := some o.block,
                slot := some (o.offset / 48), window := e.tag.map (·.window) }).settle))
    ∧ (∀ (s : State) (o : Op) (e : CommitEntry) (qs : List QEntry) (stored readBack : Upset), s.power = .on →
    s.array.op = some o → o.purpose = .drainProgram → o.statusWait = false → s.mgmt.mode = .drain →
    (s.health.arm ≠ .verify ∨ isLineRecord o.bytes = false) →
    Sparse.wf BlockEntry.unknown s.blocks.table = true → s.queue.entries = .commit e :: qs →
    (overlay (overlay o.bytes stored) readBack = o.bytes →
      exec (.drainProgramOutcome (.ended stored readBack)) s = exec (.queueProgramOutcome (.ended stored readBack))
        { s with array := { s.array with op := some { o with purpose := .queueProgram } } })
    ∧ (overlay (overlay o.bytes stored) readBack ≠ o.bytes → (s.block o.block).failures ≤ 1 →
      (e.lastBlock = some o.block → e.blockAttempts ≤ 1) → e.syncMark = false → s.port.request = none →
      Sparse.wf TableEntry.clear s.table = true → (s.windows.shadow.map (·.line)).Nodup →
      ∃ t : State, exec (.drainProgramOutcome (.ended stored readBack)) s = .next t.settle
        ∧ t.queue = { s.queue with entries := qs }
        ∧ t.windows = { s.windows with
            windows := s.windows.windows.set e.window
              { s.window e.window with
                state := .idle, repeats := 0, group := none, register := none, awaiting := false },
            shadow := s.windows.shadow.filter fun x => !decide (x.window = e.window),
            register := (match (s.window e.window).register with
              | some i => s.windows.register.set i .free
              | none => s.windows.register) }
        ∧ (∀ x ∈ s.windows.shadow, x.window = e.window → t.entry x.line
            = (if (s.entry x.line).current = x.committed
                  ∧ (s.entry x.line).group = x.committedGroup.map GroupRef.register then s.entry x.line
              else { current := x.committed, group := x.committedGroup.map GroupRef.register, checkFailed := false }))
        ∧ (∀ l, (∀ x ∈ s.windows.shadow, x.window = e.window → x.line ≠ l) → t.entry l = s.entry l)
        ∧ t.flash = flashWrite s.flash (4096 * o.block + o.offset) (overlay o.bytes stored)
        ∧ t.array = { s.array with op := none, timeouts := 0 } ∧ t.port = s.port
        ∧ t.blocks = { s.blocks with
            table := Sparse.set BlockEntry.unknown s.blocks.table o.block
              { s.block o.block with failures := (s.block o.block).failures + 1 },
            tailOwed := if o.offset / 48 = 84 ∧ (s.block o.block).state = .opened then some .drain
              else s.blocks.tailOwed }
        ∧ t.eventSet .groupDrop = true
        ∧ (s.mgmt.fault = none → t.mgmt.fault = some
            { cause := .drainLoss, addr := none, line := none, block := some o.block,
              slot := some (o.offset / 48), window := some e.window })))
    ∧ (∀ (s : State) (e : LineEntry) (qs : List QEntry), s.mgmt.mode = .drain → s.drain.phase = .draining →
    s.drain.releasePending = false → s.array.wp = false → s.nextSlot = none → s.opening = false → s.erasedCount = 0 →
    s.queue.entries = .line e :: qs →
    (∀ x ∈ s.queue.entries, ∃ d, x = .line d ∧ d.state = .pending ∧ d.syncMark = false) → s.mgmt.fault = none →
    s.drainStep = State.raise { s with
      queue := { s.queue with entries := [] },
      drain := { s.drain with phase := .drained },
      mgmt := { s.mgmt with
        fault := some { cause := .drainLoss, addr := none, line := some e.line, block := none, slot := none,
                        window := e.tag.map (·.window) },
        further := decide (qs ≠ []), events := setEvent s.mgmt.events .fault } } .drainDone)
    ∧ (∀ s : State, s.mgmt.mode = .drain → s.drain.phase = .draining → s.array.wp = true →
    s.drainStep.queue.entries = s.queue.entries.filter QEntry.programming
    ∧ (∀ x rest, (s.queue.entries.filter fun q => !q.programming) = x :: rest → s.mgmt.fault = none →
      s.drainStep.mgmt.fault = some (match x with
        | .line e => { cause := .drainLoss, addr := none, line := some e.line, block := none, slot := none,
                       window := e.tag.map (·.window) }
        | .commit e => { cause := .drainLoss, addr := none, line := none, block := none, slot := none,
                         window := some e.window })))

/-- A settings append whose program passes puts the new settings in force and completes its command with DONE; one that
fails leaves them as they were and completes with MEDIA (R179 to R182). -/
def Obligations.SettingsAppendOutcome : Prop :=
  ∀ (s : State) (o : Op) (c : Code) (new : Settings) (issued : Bool) (stored readBack : Upset), s.power = .on →
    s.array.op = some o → o.purpose = .settings → o.statusWait = false → o.block = 0 →
    s.mgmt.command = .active (.append c new issued) → s.port.request = none →
    exec (.settingsAppendOutcome (.ended stored readBack)) s = .next (
      if overlay (overlay o.bytes stored) readBack = o.bytes then
        ({ s with
          flash := flashWrite s.flash o.offset (overlay o.bytes stored),
          array := { s.array with op := none, timeouts := 0 },
          mgmt := { s.mgmt with settings := new } } : State).complete .done
            (match c with
              | .zlck => [new.locks]
              | .xchg => [if new.exchange then 1 else 0, if new.exchange = s.port.exchange then 0 else 1]
              | _ => [])
      else
        (({ s with
          flash := flashWrite s.flash o.offset (overlay o.bytes stored),
          array := { s.array with op := none, timeouts := 0 } } : State).report .program).complete .media
            (match c with
              | .zlck => [s.mgmt.settings.locks]
              | .xchg => [if s.mgmt.settings.exchange then 1 else 0,
                  if s.mgmt.settings.exchange = s.port.exchange then 0 else 1]
              | _ => [])).settle

/-- Programs of mount and of WIPE: the header of a virgin block that passes makes it ERASED with erase count 0, one
that fails puts the block on the list for an erase (R138); a tail mark that ended leads on whatever the outcome (R148);
block 0's first part is followed by the default record (R138, R139, R186), which ends mount's format with the default
settings, the next settings sequence and slot 2. The default record of WIPE completes it with DONE, and MOUNT is
entered in the same event with the volatile state of R184 (R186). A program of block 0 that fails is a failed attempt:
of the virgin preparation it begins a repair with its own attempts and erase count 1 (R138); after the first and second
of a repair or of WIPE the erase waits again, and the third leaves mount with block 0 unusable and its work ended
(R139), or ends WIPE with MEDIA in HALTED (R187). That a failed default record of mount moves the next settings slot
beyond slot 1 is the model's reading (log 44). A WIPE that PFW# or WP# has cut stays in SERVICE when the program in
flight passes, and completes with CUT once nothing is in flight (R187). A Fail is reported to the health counter
(R164). -/
def Obligations.MountAndWipeProgramsPass : Prop :=
  (∀ (s : State) (m : Mount) (o : Op) (stored readBack : Upset), s.power = .on → s.mount = some m →
      s.array.op = some o → o.purpose = .mountHeader → o.statusWait = false → o.length = 16 →
      overlay (overlay o.bytes stored) readBack = o.bytes →
      exec (.mountRepairProgramOutcome (.ended stored readBack)) s = .next ({ s with
        flash := flashWrite s.flash (4096 * o.block + o.offset) (overlay o.bytes stored),
        array := { s.array with op := none, timeouts := 0 },
        mount := some { m with
          results := Sparse.set BlockEntry.unknown m.results o.block
            { state := .erased, eraseCount := 0, blockSeq := none, nextFree := 0, failures := 0 } } } : State).settle)
    ∧ (∀ (s : State) (o : Op) (j : EraseJob) (c : Instr) (stored readBack : Upset), s.power = .on →
        s.array.op = some o → o.purpose = .block0Header → o.statusWait = false → o.length = 16 →
        s.array.erase = some j → j.part = .firstPart →
        (s.mgmt.mode = .mount ∧ c = .mountRepairProgramOutcome (.ended stored readBack)
          ∨ s.mgmt.mode = .service ∧ c = .wipeProgramOutcome (.ended stored readBack)) →
        overlay (overlay o.bytes stored) readBack = o.bytes →
        exec c s = .next ({ s with
          flash := flashWrite s.flash (4096 * o.block + o.offset) (overlay o.bytes stored),
          array := { s.array with op := none, timeouts := 0, erase := some { j with part := .record } } }
            : State).settle)
    ∧ (∀ (s : State) (o : Op) (j : EraseJob) (stored readBack : Upset), s.power = .on → s.mgmt.mode = .service →
        s.array.op = some o → o.purpose = .block0Record → o.statusWait = false → o.block = 0 →
        s.array.erase = some j → j.part = .record → j.owner = .wipe → s.port.request = none →
        (∀ step, s.mgmt.command ≠ .active (.wipe step true)) →
        overlay (overlay o.bytes stored) readBack = o.bytes →
        exec (.wipeProgramOutcome (.ended stored readBack)) s = .next ({ s with
          flash := flashWrite s.flash o.offset (overlay o.bytes stored),
          port := { s.port with exchange := false }, table := [], queue := .reset, blocks := .reset,
          array := .reset s.array.wp, windows := .reset, mount := some (Mount.start false), drain := .reset s.drain.pfw,
          mgmt := { s.mgmt with
            mode := .mount, command := .zero, data := putData s.mgmt.data 0 [1],
            events := setEvent (setEvent s.mgmt.events .modeChange) .cmdDone } } : State).settle)
    ∧ (∀ (s : State) (o : Op) (j : EraseJob) (step : WipeStep) (stored readBack : Upset), s.power = .on →
        s.mgmt.mode = .service → s.array.op = some o → o.purpose = .block0Record → o.statusWait = false → o.block = 0 →
        s.array.erase = some j → j.part = .record → j.owner = .wipe →
        s.mgmt.command = .active (.wipe step true) → overlay (overlay o.bytes stored) readBack = o.bytes →
        exec (.wipeProgramOutcome (.ended stored readBack)) s = .next ({ s with
          flash := flashWrite s.flash o.offset (overlay o.bytes stored),
          array := { s.array with op := none, timeouts := 0, erase := none } } : State).settle)
    ∧ (∀ (s : State) (step : WipeStep), s.mgmt.command = .active (.wipe step true) → s.array.op = none →
        s.array.erase = none → s.settleCut = s.complete .cut [])
    ∧ (∀ (s : State) (m : Mount) (o : Op) (j : EraseJob) (stored readBack : Upset), s.power = .on →
        s.mgmt.mode = .mount → s.mount = some m → s.array.op = some o → o.purpose = .block0Record →
        o.statusWait = false → o.block = 0 → s.array.erase = some j → j.part = .record → j.owner = .mount →
        overlay (overlay o.bytes stored) readBack = o.bytes →
        exec (.mountRepairProgramOutcome (.ended stored readBack)) s = .next ({ s with
          flash := flashWrite s.flash o.offset (overlay o.bytes stored),
          array := { s.array with op := none, timeouts := 0, erase := none },
          mount := some { m with settings := Settings.default, nextSeq := 2, nextSlot := 2 } } : State).settle)
    ∧ (∀ (s t : State) (m : Mount) (o : Op) (stored readBack : Upset), s.power = .on → s.mount = some m →
        s.array.op = some o → o.statusWait = false → o.length = 16 →
        t = { s with
          flash := flashWrite s.flash (4096 * o.block + o.offset) (overlay o.bytes stored),
          array := { s.array with op := none, timeouts := 0 } } →
        (o.purpose = .mountTail →
          exec (.mountRepairProgramOutcome (.ended stored readBack)) s = .next (
            if overlay (overlay o.bytes stored) readBack = o.bytes then t else t.report .program).settle)
        ∧ (o.purpose = .mountHeader → overlay (overlay o.bytes stored) readBack ≠ o.bytes →
          exec (.mountRepairProgramOutcome (.ended stored readBack)) s = .next (State.report
            { t with mount := some { m with repairs := addErase o.block m.repairs } } .program).settle))
    ∧ (∀ (s t : State) (o : Op) (j : EraseJob) (c : Instr) (stored readBack : Upset), s.power = .on →
        s.array.op = some o → (o.purpose = .block0Header ∨ o.purpose = .block0Record) → o.statusWait = false →
        o.block = 0 → s.array.erase = some j → j.block = 0 →
        (s.mgmt.mode = .mount ∧ j.owner = .mount ∧ c = .mountRepairProgramOutcome (.ended stored readBack)
          ∨ s.mgmt.mode = .service ∧ j.owner = .wipe ∧ c = .wipeProgramOutcome (.ended stored readBack)) →
        overlay (overlay o.bytes stored) readBack ≠ o.bytes →
        t = { s with
          flash := flashWrite s.flash o.offset (overlay o.bytes stored),
          array := { s.array with op := none, timeouts := 0 },
          mount := if j.owner = .mount ∧ j.part = .record then
              s.mount.map fun m => { m with nextSlot := max m.nextSlot 2 }
            else s.mount } →
        (j.virgin = true ∨ j.attempts ≤ 1 →
          exec c s = .next (State.report { t with array := { t.array with
            erase := some { j with
              attempts := if j.virgin = true then 0 else j.attempts + 1,
              newCount := if j.virgin = true then 1 else j.newCount,
              part := .waiting, running := 0, clock := 0, suspends := 0, statusWait := false, virgin := false } } }
                .program).settle)
        ∧ (j.virgin = false → j.attempts = 2 → j.owner = .mount →
          exec c s = .next (State.report { t with
            array := { t.array with erase := none },
            mount := t.mount.map fun m => { m with block0Unusable := true, step := .ended, repairs := [] } }
              .program).settle)
        ∧ (∀ step, j.virgin = false → j.attempts = 2 → j.owner = .wipe →
          s.mgmt.command = .active (.wipe step false) →
          ∃ v : State, exec c s = .next v.settle ∧ v.mgmt.mode = .halted ∧ v.eventSet .modeChange = true
            ∧ v.mgmt.command = .zero ∧ v.mgmt.data = putData s.mgmt.data 0 [6]
            ∧ v.eventSet .cmdDone = true ∧ v.flash = t.flash ∧ v.array = { t.array with erase := none }))

/-! ### Windows by command -/

/-- WARM takes its checks in the order of R110 and on DONE arms the window with the values given; nothing but the window,
DATA, COMMAND and CMD_DONE changes. -/
def Obligations.WarmArmsAnIdleWindow : Prop :=
  ∀ s : State, s.takes .warm = true →
    exec .warm s = .next (
      if 3 < s.param 1 1 then (s.select 2).complete .param []
      else if (s.window (s.param 1 1)).state ≠ .idle then (s.select 2).complete .state []
      else if s.param 4 2 < s.param 2 2 ∨ 8191 < s.param 4 2 then (s.select 2).complete .param []
      else if [0, 1, 2, 3].any fun v => decide (v ≠ s.param 1 1 ∧ (s.window v).state ≠ .idle
          ∧ (s.window v).first ≤ s.param 4 2 ∧ s.param 2 2 ≤ (s.window v).last) then (s.select 2).complete .param []
      else
        (({ s with windows := { s.windows with
            windows := s.windows.windows.set (s.param 1 1)
              { state := .armed, first := s.param 2 2, last := s.param 4 2, repeats := s.param 6 1, group := none,
                register := none, awaiting := false } } } : State).select 2).complete .done []).settle

/-- WEND (R117): MODE outside RUN, PARAM above window 3, STATE for IDLE and COMMITTING, DONE without effect for ARMED.
For an OPEN window with group `g` and a free register entry, of which `i` is the lowest, the window goes to COMMITTING
with register index `i`, entry `i` is RESERVED for the group (R116, R118), and the COMMIT entry is appended at the tail
when the queue has a place, a block is ERASED and no earlier request waits; it waits as a request behind the earlier
ones otherwise (R54). With no free register entry the window is COMMITTING and awaits one (R118). -/
def Obligations.WendClosesAnOpenGroup : Prop :=
  (∀ s : State, s.power = .on → s.activity = none → s.mgmt.mode ≠ .run →
      exec .wend s = .next ((s.select 2).complete .mode []).settle)
    ∧ (∀ s : State, s.takes .wend = true → (3 < s.param 1 1 →
          exec .wend s = .next ((s.select 2).complete .param []).settle)
        ∧ (s.param 1 1 ≤ 3 →
            ((s.window (s.param 1 1)).state = .idle ∨ (s.window (s.param 1 1)).state = .committing) →
            exec .wend s = .next ((s.select 2).complete .state []).settle)
        ∧ (s.param 1 1 ≤ 3 → (s.window (s.param 1 1)).state = .armed →
            exec .wend s = .next ((s.select 2).complete .done []).settle))
    ∧ (∀ (s : State) (w g i : Nat), s.takes .wend = true → s.windows.windows.length = 4 → s.param 1 1 = w → w < 4 →
        (s.window w).state = .opened → (s.window w).group = some g →
        i < 16 → s.reg i = .free → (∀ j < i, s.reg j ≠ .free) →
        (s.queue.requests = [] →
          exec .wend s = .next ((({ s with
            windows := { s.windows with
              windows := s.windows.windows.set w
                { s.window w with state := .committing, register := some i, awaiting := false },
              register := s.windows.register.set i (.reserved w g) },
            queue := if s.queue.entries.length ≤ 15 ∧ 1 ≤ s.erasedCount then
                { s.queue with entries := s.queue.entries ++ [.commit
                  { window := w, group := g, register := i, state := .pending, attempts := 0, blockAttempts := 0,
                    lastBlock := none, target := none, syncMark := false }] }
              else
                { s.queue with requests := [{ window := w, group := g, register := i, syncMark := false }] } }
                  : State).select 2).complete .done []).settle)
        ∧ (s.queue.requests ≠ [] →
          exec .wend s = .next ((({ s with
            windows := { s.windows with
              windows := s.windows.windows.set w
                { s.window w with state := .committing, register := some i, awaiting := false },
              register := s.windows.register.set i (.reserved w g) },
            queue := { s.queue with requests := s.queue.requests ++
              [{ window := w, group := g, register := i, syncMark := false }] } } : State).select 2).complete
                .done []).settle))
    ∧ (∀ (s : State) (w : Nat), s.takes .wend = true → s.windows.windows.length = 4 → s.param 1 1 = w → w < 4 →
        (s.window w).state = .opened → (∀ j < 16, s.reg j ≠ .free) →
        exec .wend s = .next ((({ s with windows := { s.windows with
            windows := s.windows.windows.set w { s.window w with state := .committing, awaiting := true } } }
              : State).select 2).complete .done []).settle)

/-- WDRP (R126): MODE outside RUN, PARAM above window 3, STATE for IDLE; an ARMED window is disarmed; a COMMITTING
window past its commit point gives LATE and keeps everything. Of an OPEN window, or of a COMMITTING one before its
commit point, it aborts the group (R124, R70, R125): the group's PENDING entries leave the queue, a PROGRAMMING one is
dropped and its waiting COMMIT request is withdrawn, every line with a shadow entry of the window names its committed
slot and group again, with a clear check-failed flag unless it named them already and stays as it is; those shadow
entries are released, the window is IDLE, the register entry held for it is free, GROUP_DROP is raised, and the command
completes with DONE; the other windows, every other line, the flash and the rest of the standing part stay as they are.
-/
def Obligations.WdrpDropsTheWindow : Prop :=
  ((∀ s : State, s.power = .on → s.activity = none → s.mgmt.mode ≠ .run →
      exec .wdrp s = .next ((s.select 2).complete .mode []).settle)
    ∧ (∀ s : State, s.takes .wdrp = true → 3 < s.param 1 1 →
        exec .wdrp s = .next ((s.select 2).complete .param []).settle)
    ∧ (∀ s : State, s.takes .wdrp = true → s.param 1 1 ≤ 3 → (s.window (s.param 1 1)).state = .idle →
        exec .wdrp s = .next ((s.select 2).complete .state []).settle)
    ∧ (∀ s : State, s.takes .wdrp = true → s.param 1 1 ≤ 3 → (s.window (s.param 1 1)).state = .armed →
        exec .wdrp s = .next ((({ s with windows := { s.windows with
          windows := s.windows.windows.set (s.param 1 1)
            { s.window (s.param 1 1) with
              state := .idle, repeats := 0, group := none, register := none, awaiting := false } } } : State).select
                2).complete .done []).settle)
    ∧ (∀ s : State, s.takes .wdrp = true → s.param 1 1 ≤ 3 → (s.window (s.param 1 1)).state = .committing →
        s.pastCommitPoint { window := s.param 1 1, group := (s.window (s.param 1 1)).group.getD 0 } = true →
        exec .wdrp s = .next ((s.select 2).complete .late []).settle))
    ∧ (∀ (s : State) (w g : Nat), s.takes .wdrp = true → s.windows.windows.length = 4 →
    Sparse.wf TableEntry.clear s.table = true → (s.windows.shadow.map (·.line)).Nodup →
    s.param 1 1 = w → w < 4 → (s.window w).group = some g →
    ((s.window w).state = .opened
      ∨ (s.window w).state = .committing ∧ s.pastCommitPoint { window := w, group := g } = false) →
    ∃ t : State, exec .wdrp s = .next t.settle
      ∧ t.windows = { s.windows with
          windows := s.windows.windows.set w
            { s.window w with state := .idle, repeats := 0, group := none, register := none, awaiting := false },
          shadow := s.windows.shadow.filter fun e => !decide (e.window = w),
          register := (match (s.window w).register with
            | some i => s.windows.register.set i .free
            | none => s.windows.register) }
      ∧ (∀ v, v ≠ w → t.window v = s.window v)
      ∧ t.queue = { s.queue with
          entries := s.queue.entries.filterMap (QEntry.abort { window := w, group := g }),
          requests := s.queue.requests.filter fun r => !(decide (r.window = w) && decide (r.group = g)) }
      ∧ (∀ e ∈ s.windows.shadow, e.window = w → t.entry e.line
          = (if (s.entry e.line).current = e.committed
                ∧ (s.entry e.line).group = e.committedGroup.map GroupRef.register then s.entry e.line
            else { current := e.committed, group := e.committedGroup.map GroupRef.register, checkFailed := false }))
      ∧ (∀ l, (∀ e ∈ s.windows.shadow, e.window = w → e.line ≠ l) → t.entry l = s.entry l)
      ∧ t.eventSet .groupDrop = true ∧ t.eventSet .cmdDone = true
      ∧ t.mgmt.data = putData s.mgmt.data 0 [1] ∧ t.mgmt.command = .zero
      ∧ t.blocks = s.blocks ∧ t.standing = { s.standing with selected := 2 })
    ∧ (∀ (g : Tag) (e : LineEntry),
        (e.tag = some g → e.state = .pending → (QEntry.line e).abort g = none)
        ∧ (e.tag = some g → e.state = .programming →
          (QEntry.line e).abort g = some (.line { e with dropped := true }))
        ∧ (e.tag ≠ some g → (QEntry.line e).abort g = some (.line e)))
    ∧ (∀ (g : Tag) (e : CommitEntry),
        (e.window = g.window → e.group = g.group → e.state = .pending → (QEntry.commit e).abort g = none)
        ∧ ((e.window ≠ g.window ∨ e.group ≠ g.group ∨ e.state = .programming) →
          (QEntry.commit e).abort g = some (.commit e)))

/-! ### Settings by command -/

/-- ZLCK, XCHG and POLY (R179 to R182): the command completes with DONE when the settings would not change, with FULL when
the next settings slot is 85, with MEDIA under WP#; otherwise it waits with the record it is to append, whose fields are
those in force but for the ones the command names, with the next settings sequence. POLY out of range gives PARAM. At a
completion a waiting write is taken up afresh (R13). -/
def Obligations.SettingsCommandsPrepareARecord : Prop :=
  (∀ s : State, s.takes .zlck = true →
      exec .zlck s = .next (
        if s.mgmt.settings.locks ||| BitVec.ofNat 8 (s.param 1 1) = s.mgmt.settings.locks then
          ((s.select 2).complete .done [s.mgmt.settings.locks]).wake
        else if 84 < s.mgmt.nextSettingsSlot then ((s.select 2).complete .full [s.mgmt.settings.locks]).wake
        else if s.array.wp then ((s.select 2).complete .media [s.mgmt.settings.locks]).wake
        else (s.select 2).hold (.append .zlck { s.mgmt.settings with
          locks := s.mgmt.settings.locks ||| BitVec.ofNat 8 (s.param 1 1), seq := s.mgmt.nextSettingsSeq }
            false)).settle)
    ∧ (∀ s : State, s.takes .xchg = true →
        exec .xchg s = .next (
          if 84 < s.mgmt.nextSettingsSlot then ((s.select 2).complete .full
            [if s.mgmt.settings.exchange then 1 else 0, if s.mgmt.settings.exchange = s.port.exchange then 0 else 1]).wake
          else if s.array.wp then ((s.select 2).complete .media
            [if s.mgmt.settings.exchange then 1 else 0, if s.mgmt.settings.exchange = s.port.exchange then 0 else 1]).wake
          else (s.select 2).hold (.append .xchg { s.mgmt.settings with
            exchange := !s.mgmt.settings.exchange, seq := s.mgmt.nextSettingsSeq } false)).settle)
    ∧ (∀ s : State, s.takes .poly = true →
        (s.param 1 1 ≠ 0 ∧ s.param 1 1 ≠ 255 ∨ s.param 2 1 ≠ 1 ∧ s.param 2 1 ≠ 2 ∨ s.param 3 2 < 10
          ∨ 1000 < s.param 3 2) →
        exec .poly s = .next ((s.select 2).complete .param []).wake.settle)
    ∧ (∀ s : State, s.takes .poly = true → (s.param 1 1 = 0 ∨ s.param 1 1 = 255) → (s.param 2 1 = 1 ∨ s.param 2 1 = 2) →
        10 ≤ s.param 3 2 → s.param 3 2 ≤ 1000 →
        exec .poly s = .next (
          if s.mgmt.settings.fill = BitVec.ofNat 8 (s.param 1 1) ∧ s.mgmt.settings.strict = decide (s.param 2 1 = 2)
              ∧ s.mgmt.settings.stall = s.param 3 2 then ((s.select 2).complete .done []).wake
          else if 84 < s.mgmt.nextSettingsSlot then ((s.select 2).complete .full []).wake
          else if s.array.wp then ((s.select 2).complete .media []).wake
          else (s.select 2).hold (.append .poly { s.mgmt.settings with
            fill := BitVec.ofNat 8 (s.param 1 1), strict := decide (s.param 2 1 = 2), stall := s.param 3 2,
            seq := s.mgmt.nextSettingsSeq } false)).settle)

/-! ### SYNC, service, reset and format -/

/-- SYNC with an empty queue completes with DONE; otherwise, with no counter at its last value and outside HALTED, every
entry and every waiting COMMIT request is marked and the command waits; it completes with DONE when no marked entry
remains, with MEDIA when one was discarded (R71). In HALTED, with a queue that is not empty, it completes at once with MEDIA
(Table 11-1), and so it does, when it is taken or while it waits, when a marked LINE entry without a number cannot be issued
because the origin sequence is at its last value, or when the marked head needs a slot and no block can be opened because
the block sequence counter is (R71). That it waits for a COMMIT request owed the mark is the model's reading (log 17). -/
def Obligations.SyncMarksAndCompletes : Prop :=
  (∀ s : State, s.takes .sync = true → s.queue.entries = [] →
      exec .sync s = .next ((s.select 2).complete .done []).settle)
    ∧ (∀ s : State, s.takes .sync = true → s.queue.entries ≠ [] → s.mgmt.mode ≠ .halted → s.degraded = false →
        exec .sync s = .next (State.hold
          { s with
            queue := { s.queue with
              entries := s.queue.entries.map (fun q => match q with
                | .line e => .line { e with syncMark := true }
                | .commit e => .commit { e with syncMark := true }),
              requests := s.queue.requests.map fun r => { r with syncMark := true } },
            mgmt := { s.mgmt with selected := 2 } } (.sync false)).settle)
    ∧ (∀ (s : State) (discarded : Bool), s.power = .on → s.mgmt.command = .active (.sync discarded) →
        (∀ q ∈ s.queue.entries, q.marked = false) → (∀ r ∈ s.queue.requests, r.syncMark = false) →
        exec .syncCompletion s = .next (s.complete (if discarded then .media else .done) []).settle)
    ∧ (∀ s : State, s.takes .sync = true → s.queue.entries ≠ [] →
        (s.mgmt.mode = .halted
          ∨ 4294967295 ≤ s.queue.nextOrigin ∧ (∃ e : LineEntry, .line e ∈ s.queue.entries ∧ e.origin = none)
          ∨ 4294967295 ≤ s.blocks.nextSeq ∧ s.nextSlot = none
            ∧ (∀ o r, s.array.op = some o → o.purpose ≠ .opening r)
            ∧ ∃ q qs, s.queue.entries = q :: qs ∧ q.programming = false
              ∧ ∀ e, q = .line e → e.origin = none → s.queue.nextOrigin < 4294967295) →
        exec .sync s = .next (State.complete
          { s with
            queue := { s.queue with
              entries := s.queue.entries.map (fun q => match q with
                | .line e => .line { e with syncMark := true }
                | .commit e => .commit { e with syncMark := true }),
              requests := s.queue.requests.map fun r => { r with syncMark := true } },
            mgmt := { s.mgmt with selected := 2 } } .media []).settle)
    ∧ (∀ (s : State) (discarded : Bool), s.power = .on → s.mgmt.command = .active (.sync discarded) →
        (4294967295 ≤ s.queue.nextOrigin
            ∧ (∃ e : LineEntry, .line e ∈ s.queue.entries ∧ e.syncMark = true ∧ e.origin = none)
          ∨ 4294967295 ≤ s.blocks.nextSeq ∧ s.nextSlot = none
            ∧ (∀ o r, s.array.op = some o → o.purpose ≠ .opening r)
            ∧ ∃ q qs, s.queue.entries = q :: qs ∧ q.marked = true ∧ q.programming = false
              ∧ ∀ e, q = .line e → e.origin = none → s.queue.nextOrigin < 4294967295) →
        exec .syncCompletion s = .next (s.complete .media []).settle)

/-- SVCE and RSTS begin command hold and mark every entry and every waiting COMMIT request (R183, R185). With every
window IDLE nothing else changes. Otherwise (R127) an ARMED window is disarmed; an OPEN one, and a COMMITTING one
before its commit point, is gone: its group is aborted as WDRP does it (R124, R70, R125), with its entries and requests
out of the queue, its lines reverted, its shadow entries released, its register entry free and GROUP_DROP raised; a
COMMITTING one past its commit point keeps everything. WIPE begins its format, or completes at once with MEDIA under
WP# and with CUT under PFW# (R186). -/
def Obligations.ServiceCommandsBegin : Prop :=
  (∀ (s t : State) (c : Instr) (a : Activity),
      (c = .svce ∧ s.takes .svce = true ∧ a = .svce false ∨ c = .rsts ∧ s.takes .rsts = true ∧ a = .rsts false) →
      (∀ w < 4, (s.window w).state = .idle) →
      t = { s with
        queue := { s.queue with
          entries := s.queue.entries.map (fun q => match q with
            | .line e => .line { e with syncMark := true }
            | .commit e => .commit { e with syncMark := true }),
          requests := s.queue.requests.map fun r => { r with syncMark := true } },
        mgmt := { s.mgmt with selected := 2, command := .active a } } →
      exec c s = .next t.settle ∧ t.commandHold = true)
    ∧ (∀ (s : State) (c : Instr) (a : Activity) (gone : Nat → Bool),
        (c = .svce ∧ s.takes .svce = true ∧ a = .svce false ∨ c = .rsts ∧ s.takes .rsts = true ∧ a = .rsts false) →
        s.windows.windows.length = 4 → Sparse.wf TableEntry.clear s.table = true →
        (s.windows.shadow.map (·.line)).Nodup →
        (∀ w, gone w = (decide (w < 4) && (decide ((s.window w).state = .opened)
          || decide ((s.window w).state = .committing)
              && !s.pastCommitPoint { window := w, group := (s.window w).group.getD 0 }))) →
        (∀ w, gone w = true → (s.window w).group.isSome = true) →
        ∃ t : State, exec c s = .next t.settle ∧ t.commandHold = true
          ∧ (∀ w < 4, t.window w =
              if gone w = true ∨ (s.window w).state = .armed then
                { s.window w with state := .idle, repeats := 0, group := none, register := none, awaiting := false }
              else s.window w)
          ∧ t.windows.shadow = s.windows.shadow.filter (fun e => !gone e.window)
          ∧ (∀ i, t.reg i =
              if [0, 1, 2, 3].any fun w => gone w && decide ((s.window w).register = some i) then .free else s.reg i)
          ∧ (∀ e ∈ s.windows.shadow, gone e.window = true → t.entry e.line
              = (if (s.entry e.line).current = e.committed
                    ∧ (s.entry e.line).group = e.committedGroup.map GroupRef.register then s.entry e.line
                else { current := e.committed, group := e.committedGroup.map GroupRef.register, checkFailed := false }))
          ∧ (∀ l, (∀ e ∈ s.windows.shadow, gone e.window = true → e.line ≠ l) → t.entry l = s.entry l)
          ∧ t.queue = { s.queue with
              entries := ([0, 1, 2, 3].foldl (fun qs w =>
                  if gone w then qs.filterMap (QEntry.abort { window := w, group := (s.window w).group.getD 0 })
                  else qs) s.queue.entries).map (fun q => match q with
                | .line e => .line { e with syncMark := true }
                | .commit e => .commit { e with syncMark := true }),
              requests := (s.queue.requests.filter fun r =>
                  !(gone r.window && decide ((s.window r.window).group = some r.group))).map
                    fun r => { r with syncMark := true } }
          ∧ (∀ v : Event, t.eventSet v
              = (s.eventSet v || decide (v = .groupDrop) && (gone 0 || gone 1 || gone 2 || gone 3)))
          ∧ t.mgmt = { s.mgmt with selected := 2, command := .active a, events := t.mgmt.events }
          ∧ t.blocks = s.blocks ∧ t.array = s.array ∧ t.health = s.health ∧ t.drain = s.drain ∧ t.flash = s.flash)
    ∧ (∀ s : State, s.takes .wipe = true →
        exec .wipe s = .next (
          if s.array.wp then (s.select 2).complete .media []
          else if s.drain.pfw then (s.select 2).complete .cut []
          else ({ s with array := { s.array with erase := none } } : State).select 2 |>.hold
            (.wipe (.data 1) false)).settle)

/-- SVCX (R184) and step 5 of RSTS (R185, R173) enter MOUNT and complete their command in the same event: table, queue,
block table, windows and array port are left as their chapters give, mount starts without the strap, a waiting request is
served afresh later; MASK, EDGES, the settings and the flash are kept. SVCX keeps the events, the fault record and the
health counter; RSTS clears the events and the fault record first, restarts the health window and sets the arm to NONE; it
completes with MEDIA when a marked entry was discarded. That step 5 of RSTS is taken once nothing is in flight, without
waiting for a header held under WP#, is the model's reading (log 18), and that it is taken though the retire mark of a third
failed erase attempt, or the read of its area, is still owed, the erase being dropped, is its choice (log 52). -/
def Obligations.SvcxAndRstsEnterMount : Prop :=
  (∀ s : State, s.takes .svcx = true →
      exec .svcx s = .next ({ s with
        port := { s.port with request := s.port.request.map Request.restart, exchange := false },
        table := [], queue := .reset, blocks := .reset, array := .reset s.array.wp, windows := .reset,
        mount := some (Mount.start false), drain := .reset s.drain.pfw,
        mgmt := { s.mgmt with
          selected := 2, mode := .mount, command := .zero, data := putData s.mgmt.data 0 [1],
          events := setEvent (setEvent s.mgmt.events .modeChange) .cmdDone } } : State).settle)
    ∧ (∀ (s : State) (discarded : Bool), s.power = .on → s.mgmt.command = .active (.rsts discarded) →
        (s.mgmt.mode = .run ∨ s.mgmt.mode = .readonly ∨ s.mgmt.mode = .drain ∨ s.mgmt.mode = .service
          ∨ s.mgmt.mode = .mount ∧ s.array.timeouts < 3) →
        s.array.op = none → s.eraseBusy = false → s.queue.entries = [] →
        exec .softReset s = .next ({ s with
          port := { s.port with request := s.port.request.map Request.restart, exchange := false },
          table := [], queue := .reset, blocks := .reset, array := .reset s.array.wp, windows := .reset,
          mount := some (Mount.start false), drain := .reset s.drain.pfw,
          health := { s.health with count := 0, saturated := false, elapsed := 0, arm := .none },
          mgmt := { s.mgmt with
            mode := .mount, command := .zero, data := putData s.mgmt.data 0 [if discarded then 6 else 1],
            events := setEvent (setEvent 0 .modeChange) .cmdDone, fault := none, further := false } } : State).settle)

/-- Step 5 of SVCE (R183), the queue empty and every window IDLE: the mode becomes SERVICE, command hold ends, MODE_CHANGE
is raised, a waiting write is taken up afresh (R13), SVCE completes with DONE, or with MEDIA when a marked entry was
discarded. An erase still in hand is dropped, its block left as it stands: a header held under WP# is not waited for (R183),
and a retire mark still owed after a third failed attempt is not either, its block staying ERASING (the model's choice, log
52); nothing else changes. Entries that remain because a counter at its last value keeps the head from being issued are
discarded, LINE and COMMIT alike, with PROGRAM_FAIL naming the line or the window and no block or slot, a COMMIT entry as a
lost COMMIT record (R123), and SVCE completes with MEDIA when one of them was marked. That a free fault record captures the
oldest entry's fault is the model's choice (log 73); that the step is taken with nothing in flight is its reading (log 18). -/
def Obligations.ServiceIsEntered : Prop :=
  (∀ (s : State) (discarded : Bool), s.power = .on → s.mgmt.command = .active (.svce discarded) →
    (s.mgmt.mode = .run ∨ s.mgmt.mode = .readonly) → (∀ w < 4, (s.window w).state = .idle) →
    s.array.op = none → s.eraseBusy = false → s.queue.entries = [] → s.queue.requests = [] →
    exec .serviceEntry s = .next (State.wake { s with
      array := { s.array with erase := none },
      mgmt := { s.mgmt with
        mode := .service, command := .zero, data := putData s.mgmt.data 0 [if discarded then 6 else 1],
        events := setEvent (setEvent s.mgmt.events .modeChange) .cmdDone } }).settle)
    ∧ (∀ (s : State) (discarded : Bool) (q : QEntry) (qs : List QEntry), s.power = .on →
        s.mgmt.command = .active (.svce discarded) → (s.mgmt.mode = .run ∨ s.mgmt.mode = .readonly) →
        s.array.op = none → s.eraseBusy = false → s.windows.windows.length = 4 → s.queue.entries = q :: qs →
        ((∃ e, q = .line e ∧ e.origin = none ∧ 4294967295 ≤ s.queue.nextOrigin)
          ∨ q.programming = false ∧ s.nextSlot = none ∧ 4294967295 ≤ s.blocks.nextSeq
            ∧ ∀ e, q = .line e → e.origin = none → s.queue.nextOrigin < 4294967295) →
        ∃ t : State, exec .serviceEntry s = .next t.settle ∧ t.mgmt.mode = .service ∧ t.mgmt.command = .zero
          ∧ t.mgmt.data = putData s.mgmt.data 0
              [if discarded = true ∨ (∃ x ∈ s.queue.entries, x.marked = true) then 6 else 1]
          ∧ t.queue = { s.queue with entries := [], requests := [] }
          ∧ t.array = { s.array with erase := none } ∧ t.blocks = s.blocks ∧ t.flash = s.flash ∧ t.health = s.health
          ∧ (s.mgmt.fault = none → t.eventSet .fault = true ∧ t.mgmt.further = !qs.isEmpty ∧ t.mgmt.fault = some
              { cause := .programFail, addr := none, block := none, slot := none,
                line := (match q with
                  | .line e => some e.line
                  | .commit _ => none),
                window := (match q with
                  | .line _ => none
                  | .commit e => some e.window) })
          ∧ (∀ f, s.mgmt.fault = some f → t.mgmt.fault = some f ∧ t.mgmt.further = true)
          ∧ (∀ w < 4, (t.window w).state = .idle)
          ∧ ((∃ e : CommitEntry, .commit e ∈ s.queue.entries) → t.eventSet .groupDrop = true)
          ∧ (∀ e : CommitEntry, .commit e ∈ s.queue.entries → ∀ x ∈ t.windows.shadow, x.window ≠ e.window)
          ∧ t.eventSet .modeChange = true ∧ t.eventSet .cmdDone = true)

/-- The first waiting COMMIT request takes a place at the queue's tail when there is one (R54); nothing else changes. -/
def Obligations.CommitRequestIsAppended : Prop :=
  ∀ (s : State) (r : CommitRequest) (rs : List CommitRequest), s.power = .on → s.queue.requests = r :: rs →
    s.queue.entries.length < 16 → 1 ≤ s.erasedCount →
    exec .commitEntryAppend s = .next ({ s with queue := { s.queue with
      entries := s.queue.entries ++ [.commit
        { window := r.window, group := r.group, register := r.register, state := .pending, attempts := 0,
          blockAttempts := 0, lastBlock := none, target := none, syncMark := r.syncMark }],
      requests := rs } } : State).settle

/-- A reclaim that is due, and is no rotation reclaim, takes a candidate of R79 with the fewest live records, on a tie
the lower erase count, then the lower number; the reclaim counter moves one place on (R78, R79). The rotation reclaim,
at counter 63, takes the coldest candidate, the one with the lowest erase count and then the lowest number, when some
data block not RETIRED has a count higher by 32 or more, and the normal choice otherwise; the counter returns to 0
(R80). A reclaim is due with fewer than four blocks ERASED, in RUN or READONLY, under a deasserted WP# and with none in
progress (R78). A candidate is a FULL block with fewer than 84 live records, and, with fewer than two blocks ERASED, no more
than the OPEN block has slots left; it is neither the holder of the highest block sequence in the block table (R79) nor that
of the highest one among the valid opening fields (R33), which the model reads from the flash (log 36); that none is chosen
while SVCE or RSTS is at its step 4 is the model's choice (log 51), and the premise leaves that case out. -/
def Obligations.VictimHasTheFewestLiveRecords : Prop :=
  (∀ (s : State) (b : Nat), s.power = .on → s.reclaimDue = true → s.holdsBack = false → s.blocks.reclaimCounter < 63 →
    b ∈ dataBlocks → s.candidate b = true →
    ∃ v, exec .victimChoice s = .next ({ s with blocks := { s.blocks with
          table := Sparse.set BlockEntry.unknown s.blocks.table v { s.block v with state := .victim },
          victim := some v, reclaimCounter := s.blocks.reclaimCounter + 1 } } : State).settle
      ∧ v ∈ dataBlocks ∧ s.candidate v = true
      ∧ (∀ c ∈ dataBlocks, s.candidate c = true → s.liveCount v < s.liveCount c
          ∨ (s.liveCount v = s.liveCount c ∧ ((s.block v).eraseCount < (s.block c).eraseCount
              ∨ ((s.block v).eraseCount = (s.block c).eraseCount ∧ v ≤ c)))))
    ∧ (∀ (s : State) (c : Nat), s.power = .on → s.reclaimDue = true → s.holdsBack = false →
        s.blocks.reclaimCounter = 63 → c ∈ dataBlocks → s.candidate c = true →
        (∀ d ∈ dataBlocks, s.candidate d = true → (s.block c).eraseCount < (s.block d).eraseCount
          ∨ ((s.block c).eraseCount = (s.block d).eraseCount ∧ c ≤ d)) →
        ∃ v, exec .victimChoice s = .next ({ s with blocks := { s.blocks with
              table := Sparse.set BlockEntry.unknown s.blocks.table v { s.block v with state := .victim },
              victim := some v, reclaimCounter := 0 } } : State).settle
          ∧ ((∃ d ∈ dataBlocks, (s.block d).state ≠ .retired ∧ (s.block c).eraseCount + 32 ≤ (s.block d).eraseCount) →
              v = c)
          ∧ ((∀ d ∈ dataBlocks, (s.block d).state ≠ .retired → (s.block d).eraseCount < (s.block c).eraseCount + 32) →
              v ∈ dataBlocks ∧ s.candidate v = true
                ∧ (∀ d ∈ dataBlocks, s.candidate d = true → s.liveCount v < s.liveCount d
                    ∨ (s.liveCount v = s.liveCount d ∧ ((s.block v).eraseCount < (s.block d).eraseCount
                        ∨ ((s.block v).eraseCount = (s.block d).eraseCount ∧ v ≤ d))))))
    ∧ (∀ s : State, s.reclaimDue = true ↔ s.erasedCount < 4 ∧ (s.mgmt.mode = .run ∨ s.mgmt.mode = .readonly)
        ∧ s.array.wp = false ∧ s.blocks.victim = none)
    ∧ (∀ (s : State) (b : Nat), Sparse.wf BlockEntry.unknown s.blocks.table = true →
        (s.candidate b = true ↔ (s.block b).state = .full ∧ s.liveCount b < 84
          ∧ ¬((s.block b).blockSeq.isSome = true
            ∧ ∀ d, (s.block d).blockSeq.getD 0 ≤ (s.block b).blockSeq.getD 0)
          ∧ (s.erasedCount < 2 → s.liveCount b ≤ (match s.openBlock with
              | some d => 85 - (s.block d).nextFree
              | none => 0))
          ∧ ¬((parseOpening (flashRead s.flash (4096 * b + 16) 16)).isSome = true
            ∧ ∀ d, (parseOpening (flashRead s.flash (4096 * d + 16) 16)).isSome = true →
              (s.block d).blockSeq.getD 0 ≤ (s.block b).blockSeq.getD 0)))

/-! ### The management link -/

/-- A command's completion (R176): DATA byte 0 holds the return code, the bytes after it the results, every other byte of
DATA keeps its value, COMMAND reads zero, CMD_DONE is set; of the whole machine nothing else changes. -/
def Obligations.CompletionFillsDataAndRaisesCmdDone : Prop :=
  ∀ (s : State) (r : Ret) (bs : List Byte), s.mgmt.data.length = 64 → bs.length ≤ 63 →
    (s.complete r bs).mgmt.data[0]? = some (BitVec.ofNat 8 r.code)
      ∧ (∀ i, i < bs.length → (s.complete r bs).mgmt.data[i + 1]? = bs[i]?)
      ∧ (∀ i, bs.length < i → (s.complete r bs).mgmt.data[i]? = s.mgmt.data[i]?)
      ∧ readItem (s.complete r bs) 2 = [0, 0, 0, 0]
      ∧ (s.complete r bs).eventSet .cmdDone = true
      ∧ (∀ e : Event, e ≠ .cmdDone → (s.complete r bs).eventSet e = s.eventSet e)
      ∧ s.complete r bs
          = { s with mgmt := { s.mgmt with command := (s.complete r bs).mgmt.command,
                                           data := (s.complete r bs).mgmt.data,
                                           events := (s.complete r bs).mgmt.events } }

/-- A code written in a mode that Table 11-1 does not list for it completes with MODE and does nothing else (R177): RSTS is
listed for MOUNT, RUN, READONLY and SERVICE, WARM, WEND and WDRP for RUN, ZLCK, XCHG, POLY and SVCE for RUN and READONLY,
SVCX and WIPE for SERVICE, every other code for all modes but MOUNT. While a
command is in progress, every code and every other value written to COMMAND or DATA raises CMD_REJECT and changes nothing
else; with none in progress a value that is no code makes COMMAND read UNKN with PARAM in DATA byte 0 and raises CMD_DONE
(R176). The item the write names is selected (R174). -/
def Obligations.CommandWritesAreCheckedFirst : Prop :=
  (∀ (s : State) (c : Code), s.power = .on → s.activity = none → c.takenIn s.mgmt.mode = false →
    exec c.instr s = .next ((s.select 2).complete .mode []).settle)
    ∧ ((∀ (s : State) (c : Code), s.power = .on → s.activity.isSome = true →
      exec c.instr s = .next ((s.select 2).raise .cmdReject).settle)
    ∧ (∀ (s : State) (toData : Bool), s.power = .on → s.activity.isSome = true →
        exec (.commandWriteRejected toData) s = .next ((s.select (if toData then 3 else 2)).raise .cmdReject).settle)
    ∧ (∀ s : State, s.power = .on → s.activity.isSome = true →
        exec .unkn s = .next ((s.select 2).raise .cmdReject).settle)
    ∧ (∀ s : State, s.power = .on → s.activity = none →
        exec .unkn s = .next ({ s with mgmt := { s.mgmt with
          selected := 2, command := .unkn, data := putData s.mgmt.data 0 [2],
          events := setEvent s.mgmt.events .cmdDone } } : State).settle))
    ∧ (∀ (c : Code) (m : Mode), c.takenIn m = true ↔ m ∈ (match c with
        | .rsts => [.mount, .run, .readonly, .service]
        | .warm | .wend | .wdrp => [.run]
        | .zlck | .xchg | .poly | .svce => [.run, .readonly]
        | .svcx | .wipe => [.service]
        | .info | .sync | .wsta | .line | .blkq | .hcfg | .taly | .injt | .fack =>
          [.run, .readonly, .drain, .service, .halted] : List Mode))

/-- INFO, BLKQ, LINE and WSTA return the bytes that R178 and R111 list and change nothing but DATA, COMMAND and CMD_DONE; a
block 0, a line above 8191 and a window above 3 complete with PARAM. -/
def Obligations.ReportsReturnStateAndChangeNothing : Prop :=
  (∀ s : State, s.takes .info = true →
      exec .info s = .next ((s.select 2).complete .done
        (byte1 s.erasedCount ++ byte1 s.fullCount ++ byte1 s.retiredCount ++ le 2 s.freeSlots
          ++ byte1 s.queue.entries.length ++ byte1 s.windows.shadow.length ++ byte1 s.registerUse
          ++ le 4 s.queue.nextOrigin)).settle)
    ∧ (∀ s : State, s.takes .blkq = true →
        exec .blkq s = .next (
          if s.param 1 1 = 0 then (s.select 2).complete .param []
          else
            (s.select 2).complete .done
              (byte1 (s.block (s.param 1 1)).state.code ++ le 4 (s.block (s.param 1 1)).eraseCount
                ++ le 4 ((s.block (s.param 1 1)).blockSeq.getD 0) ++ byte1 (s.liveCount (s.param 1 1))
                ++ byte1 (if (s.block (s.param 1 1)).state = .opened then (s.block (s.param 1 1)).nextFree else 0)
                ++ byte1 (s.block (s.param 1 1)).failures)).settle)
    ∧ (∀ s : State, s.takes .line = true →
        exec .line s = .next (
          if 8191 < s.param 1 2 then (s.select 2).complete .param []
          else
            (s.select 2).complete .done
              (slotBytes (s.entry (s.param 1 2)).current ++ byte1 (groupCode (s.entry (s.param 1 2)).group)
                ++ byte1 (s.entry (s.param 1 2)).checkFailed.toNat ++ byte1 (s.lineEntries (s.param 1 2)).length
                ++ byte1 ((s.lineEntries (s.param 1 2)).any QEntry.programming).toNat
                ++ (match s.shadowOf (s.param 1 2) with
                    | some x => [1] ++ byte1 x.window ++ slotBytes x.committed
                    | none => [0, 0, 0, 0])
                ++ (match s.newestUsable (s.param 1 2) with
                    | some q => [1] ++ q.image
                    | none => List.replicate 33 0))).settle)
    ∧ (∀ s : State, s.takes .wsta = true →
        exec .wsta s = .next (
          if 3 < s.param 1 1 then (s.select 2).complete .param []
          else
            (s.select 2).complete .done
              (byte1 (s.window (s.param 1 1)).state.code ++ le 2 (s.window (s.param 1 1)).first
                ++ le 2 (s.window (s.param 1 1)).last ++ byte1 (s.window (s.param 1 1)).repeats
                ++ le 4 ((s.window (s.param 1 1)).group.getD 0) ++ le 2 (s.members (s.param 1 1))
                ++ byte1 ((s.window (s.param 1 1)).register.getD 255) ++ byte1 (s.window (s.param 1 1)).awaiting.toNat
                ++ byte1 (s.windows.shadow.filter fun e => decide (e.window = s.param 1 1)).length
                ++ byte1 (s.pastCommitPoint { window := s.param 1 1,
                                              group := (s.window (s.param 1 1)).group.getD 0 }).toNat)).settle)

/-- HCFG with its parameters in range sets the three values and restarts the window, or changes nothing when they equal
those in force; out of range it completes with PARAM; in MOUNT it completes with MODE (R168). INJT sets the arm and returns
the arm held before, or completes with PARAM (R169). -/
def Obligations.HealthCommandsConfigureTheCounter : Prop :=
  (∀ (s : State) (c : HealthClass), s.takes .hcfg = true → s.param 1 1 = c.code → s.param 2 1 ≤ 1 →
      1 ≤ s.param 3 1 → s.param 3 1 ≤ 60 →
      exec .hcfg s = .next (
        if s.health.cls = c ∧ s.health.auto = decide (s.param 2 1 = 0) ∧ s.health.interval = s.param 3 1 then
          (s.select 2).complete .done []
        else
          { (s.select 2).complete .done [] with
            health := { s.health with cls := c, auto := decide (s.param 2 1 = 0), interval := s.param 3 1,
                                      count := 0, saturated := false, elapsed := 0 } }).settle)
    ∧ (∀ s : State, s.takes .hcfg = true → (4 < s.param 1 1 ∨ 1 < s.param 2 1 ∨ s.param 3 1 < 1 ∨ 60 < s.param 3 1) →
        exec .hcfg s = .next ((s.select 2).complete .param []).settle)
    ∧ (∀ s : State, s.power = .on → s.activity = none → s.mgmt.mode = .mount →
        exec .hcfg s = .next ((s.select 2).complete .mode []).settle)
    ∧ (∀ (s : State) (a : Arm), s.takes .injt = true → s.param 1 1 = a.code →
        exec .injt s = .next ({ (s.select 2).complete .done (byte1 s.health.arm.code) with
          health := { s.health with arm := a } } : State).settle)
    ∧ (∀ s : State, s.takes .injt = true → 3 < s.param 1 1 →
        exec .injt s = .next ((s.select 2).complete .param []).settle)

/-- TALY in MOUNT completes with MODE, in AUTO with STATE, and does nothing; in MANUAL the snapshot takes the running
count, the selected class and a saturated flag set when the count stands at 65,535, the window restarts, HEALTH_REPORT
is raised and it completes with DONE (R167). A timer expiry in AUTO, once the interval in seconds has passed, takes the
same three steps (R166); an expiry that a restart of the window has overtaken does not occur (R168). -/
def Obligations.HealthWindowCloses : Prop :=
  (∀ s : State, s.power = .on → s.activity = none → s.mgmt.mode = .mount →
      exec .taly s = .next ((s.select 2).complete .mode []).settle)
    ∧ (∀ s : State, s.takes .taly = true → s.health.auto = true →
        exec .taly s = .next ((s.select 2).complete .state []).settle)
    ∧ (∀ s : State, s.takes .taly = true → s.health.auto = false →
        exec .taly s = .next (State.complete
          (State.raise { s with
            health := { s.health with
              snapCount := s.health.count, snapSaturated := decide (s.health.count = 65535), snapClass := s.health.cls,
              count := 0, saturated := false, elapsed := 0 },
            mgmt := { s.mgmt with selected := 2 } } .healthReport) .done []).settle)
    ∧ (∀ s : State, s.power = .on → (s.health.auto = false ∨ s.health.elapsed < 1000000 * s.health.interval) →
        exec .healthTimerExpiry s = .next s.settle)
    ∧ (∀ s : State, s.power = .on → s.health.auto = true → 1000000 * s.health.interval ≤ s.health.elapsed →
        exec .healthTimerExpiry s = .next (State.raise { s with health := { s.health with
          snapCount := s.health.count, snapSaturated := decide (s.health.count = 65535), snapClass := s.health.cls,
          count := 0, saturated := false, elapsed := 0 } } .healthReport).settle)

/-- The fault record keeps the first fault: a report to a free record is captured, clears the further-faults flag and
raises FAULT, one to a held record sets the flag and changes nothing else (R188); FACK frees the record, completes with
DONE and returns the flag as it stood in DATA byte 1, which is 0 when the record was free (R189). -/
def Obligations.FaultRecordKeepsTheFirst : Prop :=
  (∀ (s : State) (f : FaultReport), s.mgmt.fault = none →
      s.reportFault f = { s with mgmt := { s.mgmt with
        fault := some f, further := false, events := setEvent s.mgmt.events .fault } })
    ∧ (∀ (s : State) (f : FaultReport), s.mgmt.fault ≠ none →
        s.reportFault f = { s with mgmt := { s.mgmt with further := true } })
    ∧ (∀ s : State, s.takes .fack = true →
        exec .fack s = .next (State.complete
          { s with mgmt := { s.mgmt with selected := 2, fault := none, further := false } } .done
          (byte1 (if s.mgmt.further then 1 else 0))).settle)
    ∧ (∀ s : State, s.takes .fack = true → s.SizesHold → s.mgmt.fault = none →
        exec .fack s = .next (State.complete { s with mgmt := { s.mgmt with selected := 2 } } .done [0]).settle)

/-- A report of the selected class, or of PROGRAM, ERASE or READ while MEDIA is selected, raises the running count by one up
to 65,535, where the saturation flag is set and HEALTH_SATURATED raised; every other report, and one at 65,535, changes
nothing (R165). -/
def Obligations.MediaEventsAreCounted : Prop :=
  (∀ (s : State) (c : HealthClass), (s.health.cls = c ∨ s.health.cls = .media ∧ c ≠ .suspend) →
      s.health.count < 65534 → s.report c = { s with health := { s.health with count := s.health.count + 1 } })
    ∧ (∀ (s : State) (c : HealthClass), (s.health.cls = c ∨ s.health.cls = .media ∧ c ≠ .suspend) →
        s.health.count = 65534 →
        s.report c = { s with
          health := { s.health with count := 65535, saturated := true },
          mgmt := { s.mgmt with events := setEvent s.mgmt.events .healthSaturated } })
    ∧ (∀ (s : State) (c : HealthClass),
        (s.health.cls ≠ c ∧ ¬(s.health.cls = .media ∧ c ≠ .suspend) ∨ s.health.count = 65535) → s.report c = s)

/-- A raised event becomes set and the others keep their state; a CLEAR write clears exactly the events whose bits are 1
and changes nothing else but the selected item (R192, R174). -/
def Obligations.EventsAreStickyUntilCleared : Prop :=
  (∀ (s : State) (e f : Event), (s.raise e).eventSet f = (decide (e = f) || s.eventSet f))
    ∧ (∀ (s : State) (v : BitVec 16), s.power = .on →
        exec (.clearWrite v) s
          = .next ({ s with mgmt := { s.mgmt with events := s.mgmt.events &&& ~~~v, selected := 6 } } : State).settle)
    ∧ (∀ (s : State) (v : BitVec 16) (e : Event),
        { s with mgmt := { s.mgmt with events := s.mgmt.events &&& ~~~v, selected := 6 } }.eventSet e
          = (s.eventSet e && !v.getLsbD e.bit))

/-- IRQ# is asserted exactly when some event is both set and unmasked, in every state, so it follows each change of the
event set and of MASK; a MASK write takes effect whole; after a power-on or hardware reset MASK holds exactly MOUNTED,
FAULT, BLOCK_RETIRED, MODE_CHANGE and DRAIN_DONE unmasked (R193). -/
def Obligations.IrqFollowsEventsAndMask : Prop :=
  (∀ s : State, s.irq = true ↔ ∃ e : Event, s.eventSet e = true ∧ s.mgmt.mask.getLsbD e.bit = true)
    ∧ (∀ (s : State) (v : BitVec 16), s.power = .on →
        exec (.maskWrite v) s = .next ({ s with mgmt := { s.mgmt with mask := v, selected := 5 } } : State).settle)
    ∧ (∀ (s t : State) (pins : Pins) (cut : Remnant),
        (exec (.powerOnReset pins cut) s = .next t ∨ (s.power = .held ∧ exec (.resetDeasserted pins) s = .next t)) →
        ∀ e : Event, t.mgmt.mask.getLsbD e.bit
          = decide (e = .mounted ∨ e = .fault ∨ e = .blockRetired ∨ e = .modeChange ∨ e = .drainDone))

/-- The item bytes of a write transfer take effect together: DATA takes them from byte 0 on, EDGES its two selections; four
bytes of a code written to COMMAND are that command; four zero bytes make COMMAND read zero; a write to a read-only item
only selects it (R174, R175, R176). A read transfer returns the bytes of the selected item from byte 0 on, with zeros beyond
its size (R174), and the ten items are as R175 lays them out: IDENT, MODE with the sub-state, COMMAND, DATA, EVENTS with the
two statuses, MASK, CLEAR as zeros, EDGES, the fault record with its presence flags, in which an absent field reads zero
(R188), and the health snapshot; in MOUNT the last two read as zeros, and items 10 to 255 always do. That the bits and bytes to which no
rule gives a content read zero, and are ignored when EDGES is written, is the model's choice (log 69). -/
def Obligations.ItemsAreReadAndWritten : Prop :=
  (∀ (s : State) (bs : List Byte), s.power = .on → s.activity = none → s.mgmt.data.length = 64 → bs ≠ [] →
      bs.length ≤ 64 →
      exec (.itemWrite 3 bs) s = .next
        ({ s with mgmt := { s.mgmt with selected := 3, data := bs ++ s.mgmt.data.drop bs.length } } : State).settle)
    ∧ (∀ (s : State) (c : Code), exec (.itemWrite 2 (ascii c.letters)) s = exec c.instr s)
    ∧ (∀ s : State, s.power = .on → s.activity = none →
        exec (.itemWrite 2 [0, 0, 0, 0]) s
          = .next ({ s with mgmt := { s.mgmt with selected := 2, command := .zero } } : State).settle)
    ∧ (∀ (s : State) (b : Byte), s.power = .on →
        exec (.itemWrite 7 [b]) s = .next ({ s with mgmt := { s.mgmt with
          selected := 7, edgeSpace := EdgeSel.ofCode s.mgmt.edgeSpace (b.toNat % 4),
          edgeWp := EdgeSel.ofCode s.mgmt.edgeWp (b.toNat / 4 % 4) } } : State).settle)
    ∧ (∀ (s : State) (item : Byte) (bs : List Byte), s.power = .on →
        (item = 0 ∨ item = 1 ∨ item = 4 ∨ item = 8 ∨ item = 9 ∨ 10 ≤ item.toNat) →
        exec (.itemWrite item bs) s = .next (s.select item.toNat).settle)
    ∧ (∀ (s : State) (n : Nat), s.power = .on →
        readTransfer s n = some ((readItem s s.mgmt.selected ++ List.replicate n 0).take n))
    ∧ (∀ s : State,
        readItem s 0 = [47, 9, 88, 12, 1, 0, 32, 0, 0, 32, 0, 1, 16, 0, 64, 0, 4, 0, 16, 0]
        ∧ readItem s 1 = [(match s.mgmt.mode with
            | .mount => 0 | .run => 1 | .readonly => 2 | .drain => 3 | .service => 4 | .halted => 5),
            if s.mgmt.mode = .drain ∧ s.drain.phase = .drained then 1 else 0]
        ∧ readItem s 2 = (match s.mgmt.command with
            | .zero => [0, 0, 0, 0]
            | .unkn => [0x55, 0x4E, 0x4B, 0x4E]
            | .active a => ascii a.code.letters)
        ∧ readItem s 3 = s.mgmt.data
        ∧ readItem s 4 = le 2 s.mgmt.events.toNat
            ++ ([(if s.mgmt.spaceLow then 1 else 0) + (if s.array.wp then 0 else 2)] : List Byte)
        ∧ readItem s 5 = le 2 s.mgmt.mask.toNat ∧ readItem s 6 = [0, 0]
        ∧ readItem s 7 = ([(match s.mgmt.edgeSpace with
            | .rise => 1 | .fall => 2 | .both => 3) + (match s.mgmt.edgeWp with
            | .rise => 4 | .fall => 8 | .both => 12)] : List Byte)
        ∧ (s.mgmt.mode = .mount → readItem s 8 = List.replicate 16 0 ∧ readItem s 9 = List.replicate 4 0)
        ∧ (s.mgmt.mode ≠ .mount → s.mgmt.fault = none → readItem s 8 = List.replicate 16 0)
        ∧ (∀ r, s.mgmt.mode ≠ .mount → s.mgmt.fault = some r →
          readItem s 8 = ([(match r.cause with
              | .outOfRange => 1 | .zoneLocked => 2 | .writeProtected => 3 | .readOnly => 4 | .draining => 5
              | .notReady => 6 | .flashLost => 7 | .stallTimeout => 8 | .readCheck => 9 | .groupFull => 10
              | .programFail => 11 | .relocateCheck => 12 | .blockRetired => 13 | .drainLoss => 14
              | .settingsLost => 15),
              (if r.addr.isSome then 1 else 0) + (if r.line.isSome then 2 else 0) + (if r.block.isSome then 4 else 0)
                + (if r.slot.isSome then 8 else 0) + (if r.window.isSome then 16 else 0)] : List Byte)
            ++ le 3 (r.addr.getD 0) ++ le 2 (r.line.getD 0) ++ le 1 (r.block.getD 0) ++ le 1 (r.slot.getD 0)
            ++ le 1 (r.window.getD 0) ++ ([if s.mgmt.further then 1 else 0] : List Byte) ++ List.replicate 5 0)
        ∧ (s.mgmt.mode ≠ .mount → readItem s 9 = le 2 s.health.snapCount
            ++ ([if s.health.snapSaturated then 1 else 0, (match s.health.snapClass with
              | .program => 0 | .erase => 1 | .read => 2 | .suspend => 3 | .media => 4)] : List Byte))
        ∧ (∀ n, 10 ≤ n → readItem s n = []))

/-! ### Erases -/

/-- An erase that succeeds (R88, R99): the ERASE part's end leaves the block blank but at the places the flash reports
otherwise and its blank check follows; a blank check that finds the whole block blank is followed by the header program,
held under WP# (R106), on block 0 by the program of its first part, which waits for its grant (R139, R186); a header program
that passes makes the block ERASED with the raised erase count, in the block table and, for a repair of mount, in the block
table that mount installs (R148), and ends the reclaim whose victim it was (R78); an erase taken over from mount ends no
reclaim (R150). The consecutive timeout count returns to 0 (R104). -/
def Obligations.EraseLeadsToErased : Prop :=
  (∀ (s : State) (j : EraseJob) (residue : Upset), s.power = .on → s.array.erase = some j → j.part = .erasing →
      j.statusWait = false →
      exec (.eraseFinished residue) s = .next ({ s with
        flash := flashPatch (flashErase s.flash j.block) j.block 0 4096 residue,
        array := { s.array with erase := some { j with part := .blankCheck, clock := 0 } } } : State).settle)
    ∧ (∀ (s : State) (j : EraseJob) (received : Upset), s.power = .on → s.array.erase = some j → j.part = .blankCheck →
        j.statusWait = false → j.block ≠ 0 → s.health.arm ≠ .erase →
        isBlank (flashReceived s.flash j.block 0 4096 received) = true →
        exec (.blankCheckEnd received) s = .next ({ s with
          array := { s.array with
            erase := some { j with part := if s.array.wp then .headerHeld else .header, clock := 0 } } } : State).settle)
    ∧ (∀ (s : State) (j : EraseJob) (received : Upset), s.power = .on → s.array.erase = some j → j.part = .blankCheck →
        j.statusWait = false → j.block = 0 → isBlank (flashReceived s.flash 0 0 4096 received) = true →
        exec (.blankCheckEnd received) s = .next ({ s with array := { s.array with
          timeouts := 0, erase := some { j with part := .firstPart, clock := 0 } } } : State).settle)
    ∧ (∀ (s t : State) (j : EraseJob) (e : BlockEntry) (stored readBack : Upset), s.power = .on →
        s.array.erase = some j → j.part = .header → j.statusWait = false →
        overlay (overlay (firstPart kindData j.newCount) stored) readBack = firstPart kindData j.newCount →
        t = { s with
          flash := flashWrite s.flash (4096 * j.block) (overlay (firstPart kindData j.newCount) stored),
          array := { s.array with erase := none, timeouts := 0 } } →
        e = { state := .erased, eraseCount := j.newCount, blockSeq := none, nextFree := 0, failures := 0 } →
        (j.owner = .manager → s.blocks.victim = some j.block →
          exec (.headerProgramEnd (.ended stored readBack)) s = .next ({ t with
            blocks := { s.blocks with
              table := Sparse.set BlockEntry.unknown s.blocks.table j.block e,
              victim := none, reclaimCopy := none, releaseTurn := true } } : State).settle)
        ∧ ((j.owner = .manager ∧ s.blocks.victim ≠ some j.block ∨ j.owner = .wipe) →
          exec (.headerProgramEnd (.ended stored readBack)) s = .next ({ t with
            blocks := { s.blocks with table := Sparse.set BlockEntry.unknown s.blocks.table j.block e } }
              : State).settle)
        ∧ (∀ m, j.owner = .mount → s.mount = some m →
          exec (.headerProgramEnd (.ended stored readBack)) s = .next ({ t with
            mount := some { m with results := Sparse.set BlockEntry.unknown m.results j.block e } } : State).settle))

/-- A failed erase attempt (R89): a blank check that finds a byte not blank, any blank check of a data block while the
ERASE arm is held, which is consumed (R172), or a header program whose read-back differs, after which the retire mark area
is known to be blank, is reported in the ERASE class, and in no other (that the header's failure makes no report in the
PROGRAM class is the model's reading, log 62). Up to the second failure the next attempt waits, with its own suspend count,
and an attempt of the reclaim's takes its turn of rank 5 (R98; the model's choice, log 39). A third failure leaves the turn
as it is until the block is RETIRED, which passes it (log 39, log 53): the retire mark of a data block is to be programmed
when its area was found blank, and the block is RETIRED with BLOCK_RETIRED when it was found marked, and in DRAIN in either
case (R155; that the mark is then left out is the model's choice, log 46). The third failed attempt on block 0 leaves mount with block 0 unusable
and its work ended (R139), or ends WIPE with MEDIA in HALTED (R187). -/
def Obligations.FailedEraseAttemptIsCounted : Prop :=
  (∀ (s u : State) (j : EraseJob) (c : Instr) (blank : Bool), s.power = .on → s.array.erase = some j →
    j.statusWait = false → j.block ≠ 0 → j.virgin = false →
    ((∃ received, c = .blankCheckEnd received ∧ j.part = .blankCheck
        ∧ (s.health.arm = .erase ∨ isBlank (flashReceived s.flash j.block 0 4096 received) = false)
        ∧ blank = isBlank (((flashReceived s.flash j.block 0 4096 received).drop 32).take 8)
        ∧ u = State.report { s with
          array := { s.array with timeouts := 0 },
          health := { s.health with arm := if s.health.arm = .erase then .none else s.health.arm } } .erase)
      ∨ (∃ stored readBack, c = .headerProgramEnd (.ended stored readBack) ∧ j.part = .header ∧ blank = true
        ∧ overlay (overlay (firstPart kindData j.newCount) stored) readBack ≠ firstPart kindData j.newCount
        ∧ u = State.report { s with
          flash := flashWrite s.flash (4096 * j.block) (overlay (firstPart kindData j.newCount) stored),
          array := { s.array with timeouts := 0 } } .erase)) →
    (j.attempts ≤ 1 →
      exec c s = .next ({ u with
        array := { u.array with
          erase := some { j with
            attempts := j.attempts + 1, part := .waiting, running := 0, clock := 0, suspends := 0 } },
        blocks := { u.blocks with releaseTurn := s.blocks.releaseTurn || decide (j.owner = .manager) } }
          : State).settle)
    ∧ (j.attempts = 2 → s.mgmt.mode ≠ .drain → blank = true →
      exec c s = .next ({ u with
        array := { u.array with erase := some { j with attempts := 3, part := .mark } } } : State).settle)
    ∧ (j.attempts = 2 → (s.mgmt.mode = .drain ∨ blank = false) →
      j.owner = .manager → s.blocks.victim = some j.block →
      exec c s = .next ((({ u with
        array := { u.array with erase := none },
        blocks := { u.blocks with
          table := Sparse.set BlockEntry.unknown s.blocks.table j.block
            { s.block j.block with state := .retired, nextFree := 0 },
          victim := none, reclaimCopy := none, releaseTurn := true } } : State).raise .blockRetired).reportFault
            { cause := .blockRetired, addr := none, line := none, block := some j.block, slot := none,
              window := none }).settle))
    ∧ (∀ (s u : State) (j : EraseJob) (received : Upset), s.power = .on → s.array.erase = some j →
        j.part = .blankCheck → j.statusWait = false → j.block = 0 → j.virgin = false → j.owner ≠ .manager →
        isBlank (flashReceived s.flash 0 0 4096 received) = false →
        u = State.report { s with array := { s.array with timeouts := 0 } } .erase →
        (j.attempts ≤ 1 →
          exec (.blankCheckEnd received) s = .next ({ u with array := { u.array with
            erase := some { j with
              attempts := j.attempts + 1, part := .waiting, running := 0, clock := 0, suspends := 0 } } }
                : State).settle)
        ∧ (j.attempts = 2 → j.owner = .mount →
          exec (.blankCheckEnd received) s = .next ({ u with
            array := { u.array with erase := none },
            mount := s.mount.map fun m => { m with block0Unusable := true, step := .ended, repairs := [] } }
              : State).settle)
        ∧ (∀ step, j.attempts = 2 → j.owner = .wipe → s.mgmt.command = .active (.wipe step false) →
          ∃ v : State, exec (.blankCheckEnd received) s = .next v.settle ∧ v.mgmt.mode = .halted
            ∧ v.eventSet .modeChange = true ∧ v.mgmt.command = .zero
            ∧ v.mgmt.data = putData s.mgmt.data 0 [6] ∧ v.eventSet .cmdDone = true ∧ v.flash = s.flash
            ∧ v.array = { u.array with erase := none }))

/-- STATUS after a SUSPEND (R100): a suspended erase counts one suspend, a SUSPEND media event is reported and the read
that waits is granted; an erase that finished first leaves its block blank but at the places reported, counts nothing, and
the read is granted before the blank check. When that read has ended, whatever its test or its request made of it, the blank
check follows, though a further piece or a new request waits; one that timed out while its request stands has not been
served and is granted again at once, with STATUS first (the model's choice, log 72). What starts and ends a suspension follows the events that bring a rank-1 read
and take the last one away: with the flash free of reads, an erase that runs is given the SUSPEND when a rank-1 read waits
and fewer than 8 suspends are used, and runs on undisturbed at 8 (R100, R101) or when none waits; one that still stands in
its STATUS wait is left to it (log 60); a suspended one is given the RESUME when no read waits any more, and one that
finished first its blank check whatever read waits (R100), both without STATUS (the model's choice where a read timed out
meanwhile, log 41). The rank-1 read that waits is that of the first piece of the read in progress
without a result whose line has a record, or of the first piece of a write in hand-over that lacks a merge image it needs
(R40, R50, R58). -/
def Obligations.SuspendedEraseLetsTheReadRun : Prop :=
  (∀ (s : State) (j : EraseJob) (q : Purpose) (x : Slot), s.power = .on → s.array.erase = some j →
    j.part = .suspending → j.statusWait = false → s.array.op = none → s.array.timeouts < 3 →
    s.rankOne = some (q, x) →
    (exec (.eraseSuspended none) s = .next (State.report { s with
      array := { s.array with
        op := some
          { purpose := q, block := x.block, offset := 48 * x.slot, length := 48, bytes := [], running := 0,
            statusWait := s.array.uncertain, abandoned := false },
        erase := some { j with part := .suspended, suspends := j.suspends + 1 } } } .suspend).settle)
    ∧ (∀ residue : Upset, exec (.eraseSuspended (some residue)) s = .next ({ s with
      flash := flashPatch (flashErase s.flash j.block) j.block 0 4096 residue,
      array := { s.array with
        op := some
          { purpose := q, block := x.block, offset := 48 * x.slot, length := 48, bytes := [], running := 0,
            statusWait := s.array.uncertain, abandoned := false },
        erase := some { j with part := .finished, clock := 0 } } } : State).settle))
    ∧ (∀ (s t : State) (j : EraseJob), t = s.settle → s.array.op = none → s.array.timeouts < 3 →
        s.array.erase = some j →
        (j.part = .erasing → j.statusWait = false → t.rankOne.isSome = true → j.suspends ≤ 7 →
          t.array.erase = some { j with part := .suspending, clock := 0 })
        ∧ (j.part = .erasing → (t.rankOne = none ∨ 8 ≤ j.suspends ∨ j.statusWait = true) → t.array.erase = some j)
        ∧ (j.part = .suspended ∧ t.rankOne = none → t.array.erase = some { j with part := .erasing })
        ∧ (j.part = .suspended ∧ t.rankOne.isSome = true → t.array.erase = some j)
        ∧ (j.part = .finished → t.array.erase = some { j with part := .blankCheck, clock := 0 }))
    ∧ (∀ (s : State) (j : EraseJob) (o : Op) (i : Nat) (received : Upset) (c : Instr), s.power = .on →
        s.array.erase = some j → j.part = .finished → s.array.op = some o → o.statusWait = false →
        (o.purpose = .readPiece i ∧ c = .readPieceCompletion received
          ∨ o.purpose = .mergeRead i ∧ c = .mergeReadCompletion received) →
        ∃ t : State, exec c s = .next t ∧ t.array.op = none
          ∧ t.array.erase = some { j with part := .blankCheck, clock := 0 })
    ∧ (∀ (s t : State) (j : EraseJob) (o : Op) (left : Remnant), s.power = .on → s.array.erase = some j →
        j.part = .finished → s.array.op = some o → (∃ i, o.purpose = .readPiece i ∨ o.purpose = .mergeRead i) →
        s.array.timeouts ≤ 1 →
        t = { s with array := { s.array with op := none, timeouts := s.array.timeouts + 1, uncertain := true } } →
        (∀ q x, o.abandoned = false → s.rankOne = some (q, x) →
          exec (.operationTimeout left) s = .next ({ t with array := { t.array with
            op := some
              { purpose := q, block := x.block, offset := 48 * x.slot, length := 48, bytes := [], running := 0,
                statusWait := true, abandoned := false } } } : State).settle)
        ∧ ((o.abandoned = true ∨ s.rankOne = none) → exec (.operationTimeout left) s = .next t.settle))
    ∧ (∀ (s : State) (q : Purpose) (x : Slot), s.rankOne = some (q, x) ↔ ∃ r before p after,
        s.port.request = some r ∧ r.pieces = before ++ p :: after ∧ (s.entry (s.lineOf p)).current = some x
          ∧ (r.phase = .reading ∧ q = .readPiece before.length ∧ p.result = none
              ∧ (∀ y ∈ before, y.result.isSome = true)
            ∨ r.phase = .handOver ∧ q = .mergeRead before.length ∧ p.inRange = true ∧ p.full = false
              ∧ s.newestUsable (s.lineOf p) = none ∧ p.merge.map (·.slot) ≠ some x
              ∧ ∀ y ∈ before, s.mergeMissing y = false))

/-- A Timeout (R102 to R105): the flash is free, the consecutive timeout count rises by one and the uncertain flag is
set. A program leaves its area as the flash has it, or as it was when it still stood in its STATUS wait (R103); the
requester takes it as a failure that is no media event: the queue's LINE or COMMIT entry is PENDING again, or lost at
the sixth attempt (R67, R68, R123), a dropped one leaves the queue (R70; log 49), the third failure in a block makes it
RETIRING (R90), a copy is held (R87), a relocation read's copy is given up and the turn stays with the job (log 39), an
opened block is FULL (R76), a tail or retire mark is taken as ended (R77, R89, R91), a drain program is a loss (R157),
a settings append completes with MEDIA (R179), a virgin header puts its block on the erase list (R138), block 0's first
part or record is a failed attempt (R138, R139, R187), a record of mount's leaving the next settings slot beyond slot 1
(the model's choice, log 44); a read is asked for again (R41, R96, R136; that of a retire mark area or of WIPE too is
the model's reading, log 70); the one read that is served before a blank check put off is granted again at once
(SuspendedEraseLetsTheReadRun; log 72). The limit of a part of an erase is a failed
attempt reported in the ERASE class (R89, R99); the first two take the reclaim's turn, the third leaves it (the model's
choice, log 39). The third
Timeout in a row declares the flash lost: outside MOUNT the mode becomes HALTED with MODE_CHANGE, a drain ends without
finishing (R160), the command in progress ends; in MOUNT the mount engine ends mount (R136); FLASH_LOST is reported,
with the slot of a program whose area lies in one, and a suspended erase is abandoned where it stands. A read piece whose
flash read it was ends with fill bytes and FLASH_LOST, and a read of one piece is answered so (R15, R41). A program
reported as timed out is the expiry of its limit. The ready report in a STATUS wait, of an operation, an erase or a released
header, clears the uncertain flag and issues it, the last two under WP# too (the model's choice, log 67). That FLASH_LOST
names no slot for a read, nor for a part of an erase, its header program among them, is the model's reading (log 22). -/
def Obligations.TimeoutsLeadToTheLossOfTheFlash : Prop :=
  (∀ (s t : State) (o : Op) (left : Remnant), s.power = .on → s.array.op = some o → s.array.timeouts ≤ 1 →
      Sparse.wf BlockEntry.unknown s.blocks.table = true →
      t = { s with
        flash := if o.purpose.isProgram = true ∧ o.statusWait = false then
            leaveProgram s.flash o.block o.offset o.bytes left else s.flash,
        array := { s.array with op := none, timeouts := s.array.timeouts + 1, uncertain := true } } →
      (((∃ i, o.purpose = .readPiece i ∨ o.purpose = .mergeRead i)
            ∧ (o.abandoned = true ∨ s.rankOne = none ∨ ∀ j, s.array.erase = some j → j.part ≠ .finished)
          ∨ o.purpose = .mountRead ∨ o.purpose = .markRead ∨ o.purpose = .wipeRead ∨ o.purpose = .mountTail) →
        exec (.operationTimeout left) s = .next t.settle)
      ∧ (∀ k, o.purpose = .relocRead k →
        exec (.operationTimeout left) s = .next ({ t with blocks := match k with
          | .reclaim => { s.blocks with reclaimCopy := none }
          | .retirement => { s.blocks with retireCopy := none }
          | .release => { s.blocks with release := s.blocks.release.map fun j => { j with copy := none } } }
            : State).settle)
      ∧ (∀ e qs, o.purpose = .queueProgram → s.queue.entries = .line e :: qs →
        (e.dropped = true →
          exec (.operationTimeout left) s = .next ({ t with
            queue := { s.queue with entries := qs },
            blocks := { s.blocks with
              tailOwed := if o.offset / 48 = 84 ∧ (s.block o.block).state = .opened then
                some (if s.mgmt.mode = .drain then .drain else .queue)
              else s.blocks.tailOwed } } : State).settle)
        ∧ (e.dropped = false → (s.block o.block).failures ≤ 1 → (e.lastBlock = some o.block → e.blockAttempts ≤ 1) →
          e.attempts ≤ 4 →
          exec (.operationTimeout left) s = .next ({ t with
            queue := { s.queue with
              entries := .line { e with
                state := .pending, target := none, attempts := e.attempts + 1,
                blockAttempts := if e.lastBlock = some o.block then e.blockAttempts + 1 else 1,
                lastBlock := some o.block } :: qs },
            blocks := { s.blocks with
              table := Sparse.set BlockEntry.unknown s.blocks.table o.block
                { s.block o.block with failures := (s.block o.block).failures + 1 },
              tailOwed := if o.offset / 48 = 84 ∧ (s.block o.block).state = .opened then
                some (if s.mgmt.mode = .drain then .drain else .queue)
              else s.blocks.tailOwed } } : State).settle)
        ∧ (e.dropped = false → (s.block o.block).failures ≤ 1 → (e.lastBlock = some o.block → e.blockAttempts ≤ 1) →
          e.attempts = 5 → e.syncMark = false →
          exec (.operationTimeout left) s = .next (State.reportFault { t with
            queue := { s.queue with entries := qs },
            blocks := { s.blocks with
              table := Sparse.set BlockEntry.unknown s.blocks.table o.block
                { s.block o.block with failures := (s.block o.block).failures + 1 },
              tailOwed := if o.offset / 48 = 84 ∧ (s.block o.block).state = .opened then
                some (if s.mgmt.mode = .drain then .drain else .queue)
              else s.blocks.tailOwed } }
                { cause := .programFail, addr := none, line := some e.line, block := some o.block,
                  slot := some (o.offset / 48), window := e.tag.map (·.window) }).settle))
      ∧ (∀ e qs, o.purpose = .drainProgram → s.queue.entries = .line e :: qs → s.mgmt.mode = .drain →
        (s.block o.block).failures ≤ 1 → (e.lastBlock = some o.block → e.blockAttempts ≤ 1) → e.syncMark = false →
        exec (.operationTimeout left) s = .next (State.reportFault { t with
          queue := { s.queue with entries := qs },
          blocks := { s.blocks with
            table := Sparse.set BlockEntry.unknown s.blocks.table o.block
              { s.block o.block with failures := (s.block o.block).failures + 1 },
            tailOwed := if o.offset / 48 = 84 ∧ (s.block o.block).state = .opened then some .drain
              else s.blocks.tailOwed } }
              { cause := .drainLoss, addr := none, line := some e.line, block := some o.block,
                slot := some (o.offset / 48), window := e.tag.map (·.window) }).settle)
      ∧ (∀ c held, o.purpose = .copyProgram .reclaim ∧ s.blocks.reclaimCopy = some c
              ∧ held = { s.blocks with reclaimCopy := some { c with stage := .held } }
            ∨ o.purpose = .copyProgram .retirement ∧ s.blocks.retireCopy = some c
              ∧ held = { s.blocks with retireCopy := some { c with stage := .held } }
            ∨ o.purpose = .copyProgram .release ∧ s.blocks.release.bind (·.copy) = some c
              ∧ held = { s.blocks with
                  release := s.blocks.release.map fun j => { j with copy := some { c with stage := .held } } } →
        (s.block o.block).failures ≤ 1 → o.offset / 48 < 84 →
        exec (.operationTimeout left) s = .next ({ t with
          blocks := { held with
            table := Sparse.set BlockEntry.unknown s.blocks.table o.block
              { s.block o.block with failures := (s.block o.block).failures + 1 } } } : State).settle)
      ∧ (∀ q, o.purpose = .opening q →
        exec (.operationTimeout left) s = .next ({ t with blocks := { s.blocks with
          table := Sparse.set BlockEntry.unknown s.blocks.table o.block
            { s.block o.block with state := .full, nextFree := 0 } } } : State).settle)
      ∧ (o.purpose = .tailMark →
        exec (.operationTimeout left) s = .next ({ t with blocks := { s.blocks with
          table := Sparse.set BlockEntry.unknown s.blocks.table o.block
            { s.block o.block with state := .full, nextFree := 0 },
          tailOwed := none } } : State).settle)
      ∧ (o.purpose = .retireMark →
        exec (.operationTimeout left) s = .next ({ t with blocks := { s.blocks with
          table := Sparse.set BlockEntry.unknown s.blocks.table o.block
            { s.block o.block with state := .retired, nextFree := 0 },
          retiring := s.blocks.retiring.filter fun x => !decide (x = o.block) } } : State).settle)
      ∧ (∀ j, o.purpose = .eraseMark → s.array.erase = some j → j.owner = .manager → s.blocks.victim = some j.block →
        exec (.operationTimeout left) s = .next ((({ t with
          array := { t.array with erase := none },
          blocks := { s.blocks with
            table := Sparse.set BlockEntry.unknown s.blocks.table j.block
              { s.block j.block with state := .retired, nextFree := 0 },
            victim := none, reclaimCopy := none, releaseTurn := true } } : State).raise .blockRetired).reportFault
              { cause := .blockRetired, addr := none, line := none, block := some j.block, slot := none,
                window := none }).settle)
      ∧ (∀ e qs, o.purpose = .queueProgram → s.queue.entries = .commit e :: qs → (s.block o.block).failures ≤ 1 →
        (e.lastBlock = some o.block → e.blockAttempts ≤ 1) →
        (e.attempts ≤ 4 →
          exec (.operationTimeout left) s = .next ({ t with
            queue := { s.queue with
              entries := .commit { e with
                state := .pending, target := none, attempts := e.attempts + 1,
                blockAttempts := if e.lastBlock = some o.block then e.blockAttempts + 1 else 1,
                lastBlock := some o.block } :: qs },
            blocks := { s.blocks with
              table := Sparse.set BlockEntry.unknown s.blocks.table o.block
                { s.block o.block with failures := (s.block o.block).failures + 1 },
              tailOwed := if o.offset / 48 = 84 ∧ (s.block o.block).state = .opened then
                some (if s.mgmt.mode = .drain then .drain else .queue)
              else s.blocks.tailOwed } } : State).settle)
        ∧ (e.attempts = 5 → e.syncMark = false → s.port.request = none →
          ∃ u : State, exec (.operationTimeout left) s = .next u.settle ∧ u.queue = { s.queue with entries := qs }
            ∧ u.flash = t.flash ∧ u.array = t.array ∧ u.port = s.port
            ∧ u.windows = { s.windows with
                windows := s.windows.windows.set e.window
                  { s.window e.window with
                    state := .idle, repeats := 0, group := none, register := none, awaiting := false },
                shadow := s.windows.shadow.filter fun x => !decide (x.window = e.window),
                register := (match (s.window e.window).register with
                  | some i => s.windows.register.set i .free
                  | none => s.windows.register) }
            ∧ u.eventSet .groupDrop = true
            ∧ (s.mgmt.fault = none → u.mgmt.fault = some
                { cause := .programFail, addr := none, line := none, block := some o.block,
                  slot := some (o.offset / 48), window := some e.window })))
      ∧ (∀ e qs, o.purpose = .queueProgram → s.queue.entries = .line e :: qs → e.dropped = false → e.attempts ≤ 4 →
        ((s.block o.block).failures = 2 ∨ e.lastBlock = some o.block ∧ e.blockAttempts = 2
          ∧ (s.block o.block).failures ≤ 2) →
        ((s.block o.block).state = .opened ∨ (s.block o.block).state = .full) →
        exec (.operationTimeout left) s = .next ((({ t with
          queue := { s.queue with
            entries := .line { e with
              state := .pending, target := none, attempts := e.attempts + 1,
              blockAttempts := if e.lastBlock = some o.block then e.blockAttempts + 1 else 1,
              lastBlock := some o.block } :: qs },
          blocks := { s.blocks with
            table := Sparse.set BlockEntry.unknown s.blocks.table o.block
              { s.block o.block with
                state := .retiring, nextFree := 0, failures := (s.block o.block).failures + 1 },
            retiring := s.blocks.retiring ++ [o.block],
            tailOwed := if (s.block o.block).state = .opened then none else s.blocks.tailOwed } } : State).raise
              .blockRetired).reportFault
                { cause := .blockRetired, addr := none, line := none, block := some o.block, slot := none,
                  window := none }).settle)
      ∧ (∀ (j : EraseJob) (u : State), o.purpose = .block0Header ∨ o.purpose = .block0Record →
        s.array.erase = some j → j.owner ≠ .manager → j.block = 0 →
        u = { t with mount := if j.owner = .mount ∧ j.part = .record then
            s.mount.map fun m => { m with nextSlot := max m.nextSlot 2 } else s.mount } →
        (j.virgin = true ∨ j.attempts ≤ 1 →
          exec (.operationTimeout left) s = .next ({ u with array := { t.array with
            erase := some { j with
              attempts := if j.virgin = true then 0 else j.attempts + 1,
              newCount := if j.virgin = true then 1 else j.newCount,
              part := .waiting, running := 0, clock := 0, suspends := 0, statusWait := false, virgin := false } } }
                : State).settle)
        ∧ (j.virgin = false → j.attempts = 2 → j.owner = .mount →
          exec (.operationTimeout left) s = .next ({ u with
            array := { t.array with erase := none },
            mount := u.mount.map fun m => { m with block0Unusable := true, step := .ended, repairs := [] } }
              : State).settle)
        ∧ (∀ step, j.virgin = false → j.attempts = 2 → j.owner = .wipe → s.mgmt.mode = .service →
          s.mgmt.command = .active (.wipe step false) →
          ∃ v : State, exec (.operationTimeout left) s = .next v.settle ∧ v.mgmt.mode = .halted
            ∧ v.eventSet .modeChange = true ∧ v.activity = none ∧ v.flash = t.flash
            ∧ v.array = { t.array with erase := none }))
      ∧ (∀ c new issued, o.purpose = .settings → s.mgmt.command = .active (.append c new issued) →
        s.port.request = none →
        exec (.operationTimeout left) s = .next (t.complete .media (match c with
          | .zlck => [s.mgmt.settings.locks]
          | .xchg => [if s.mgmt.settings.exchange then 1 else 0,
              if s.mgmt.settings.exchange = s.port.exchange then 0 else 1]
          | _ => [])).settle)
      ∧ (∀ m, o.purpose = .mountHeader → s.mount = some m →
        exec (.operationTimeout left) s
          = .next ({ t with mount := some { m with repairs := addErase o.block m.repairs } } : State).settle))
    ∧ (∀ (s u : State) (j : EraseJob) (left : Remnant), s.power = .on → s.array.op = none → s.array.erase = some j →
        (j.part = .erasing ∨ j.part = .suspending ∨ j.part = .blankCheck ∨ j.part = .header) →
        s.array.timeouts ≤ 1 → j.virgin = false →
        u = State.report { s with
          flash := if j.part = .erasing ∧ j.statusWait = false ∨ j.part = .suspending then
              leaveErase s.flash j.block left
            else if j.part = .header ∧ j.statusWait = false then
              leaveProgram s.flash j.block 0 (firstPart kindData j.newCount) left
            else s.flash,
          array := { s.array with timeouts := s.array.timeouts + 1, uncertain := true } } .erase →
        (j.attempts ≤ 1 →
          exec (.operationTimeout left) s = .next ({ u with
            array := { u.array with
              erase := some { j with
                attempts := j.attempts + 1, part := .waiting, running := 0, clock := 0, suspends := 0,
                statusWait := false } },
            blocks := { u.blocks with releaseTurn := s.blocks.releaseTurn || decide (j.owner = .manager) } }
              : State).settle)
        ∧ (j.attempts = 2 → j.block ≠ 0 → s.mgmt.mode ≠ .drain →
          exec (.operationTimeout left) s = .next ({ u with
            array := { u.array with
              erase := some { j with
                attempts := 3, part := if j.part = .header then .mark else .markRead, statusWait := false } } }
                  : State).settle)
        ∧ (j.attempts = 2 → j.block = 0 → j.owner = .mount →
          exec (.operationTimeout left) s = .next ({ u with
            array := { u.array with erase := none },
            mount := s.mount.map fun m => { m with block0Unusable := true, step := .ended, repairs := [] } }
              : State).settle)
        ∧ (∀ step, j.attempts = 2 → j.block = 0 → j.owner = .wipe → s.mgmt.command = .active (.wipe step false) →
          ∃ v : State, exec (.operationTimeout left) s = .next v.settle ∧ v.mgmt.mode = .halted
            ∧ v.eventSet .modeChange = true ∧ v.activity = none ∧ v.flash = u.flash
            ∧ v.array = { u.array with erase := none }))
    ∧ (∀ (s : State) (block : Nat) (slot : Option Nat) (base : List Host.Cell) (left : Remnant), s.power = .on →
        s.array.timeouts = 2 →
        ((∃ o, s.array.op = some o ∧ o.purpose.isProgram = false ∧ block = o.block ∧ slot = none ∧ base = s.flash
            ∧ ∀ j, s.array.erase = some j → j.part ≠ .erasing ∧ j.part ≠ .suspending ∧ j.part ≠ .header)
          ∨ (∃ o, s.array.op = some o ∧ s.array.erase = none ∧ block = o.block
            ∧ slot = (if o.offset < 4080 then some (o.offset / 48) else none)
            ∧ base = (if o.statusWait = false then leaveProgram s.flash o.block o.offset o.bytes left else s.flash)
            ∧ ((∃ r, o.purpose = .opening r) ∨ o.purpose = .tailMark ∨ o.purpose = .retireMark
              ∨ o.purpose = .mountHeader ∨ o.purpose = .mountTail
              ∨ (∃ k, o.purpose = .copyProgram k ∧ (s.block o.block).failures ≤ 1)
              ∨ o.purpose = .queueProgram ∧ (s.block o.block).failures ≤ 1
                ∧ ((∃ e qs, s.queue.entries = .line e :: qs
                    ∧ (e.dropped = true ∨ e.attempts ≤ 4 ∧ (e.lastBlock = some o.block → e.blockAttempts ≤ 1)))
                  ∨ (∃ e qs, s.queue.entries = .commit e :: qs ∧ e.attempts ≤ 4
                    ∧ (e.lastBlock = some o.block → e.blockAttempts ≤ 1)))))
          ∨ s.array.op = none ∧ slot = none ∧ ∃ j, s.array.erase = some j ∧ block = j.block
              ∧ j.attempts ≤ 1 ∧ ((j.part = .erasing ∧ j.statusWait = false ∨ j.part = .suspending
                  ∨ j.part = .blankCheck) ∧ base = s.flash
                ∨ j.part = .header ∧ j.statusWait = false
                  ∧ base = leaveProgram s.flash j.block 0 (firstPart kindData j.newCount) left)) →
        ∃ t : State, exec (.operationTimeout left) s = .next t.settle
          ∧ t.array.timeouts = 3 ∧ t.array.uncertain = true ∧ t.array.op = none ∧ t.array.erase = none
          ∧ t.flash = (match s.array.erase with
            | some j => if j.part = .suspended ∨ j.part = .erasing ∨ j.part = .suspending then
                leaveErase base j.block left else base
            | none => base)
          ∧ (s.mgmt.fault = none → t.mgmt.fault = some
              { cause := .flashLost, addr := none, line := none, block := some block, slot := slot, window := none })
          ∧ ((s.mgmt.mode = .run ∨ s.mgmt.mode = .readonly ∨ s.mgmt.mode = .drain ∨ s.mgmt.mode = .service) →
            t.mgmt.mode = .halted ∧ t.eventSet .modeChange = true ∧ t.activity = none
              ∧ t.drain = { s.drain with phase := .inactive, returnMode := none, releasePending := false })
          ∧ (s.mgmt.mode = .mount → t.mgmt.mode = .mount
            ∧ t.mount = s.mount.map fun m => { m with flashLost := true, step := .ended, repairs := [] }))
    ∧ (∀ (s : State) (o : Op) (r : Request) (p : Piece) (left : Remnant), s.power = .on → s.array.timeouts = 2 →
        (s.mgmt.mode = .run ∨ s.mgmt.mode = .readonly ∨ s.mgmt.mode = .drain) →
        s.array.op = some o → o.purpose = .readPiece 0 → o.abandoned = false →
        s.port.request = some r → r.write = false → r.phase = .reading → r.pieces = [p] →
        ∃ t, exec (.operationTimeout left) s = .next t
          ∧ t.port = { s.port with
              request := none,
              response := some
                { cause := some .flashLost, data := List.replicate p.length s.mgmt.settings.fill } })
    ∧ (∀ (s : State) (o : Op), s.power = .on → s.array.op = some o → o.statusWait = true →
        exec .flashReportsReady s = .next ({ s with
          array := { s.array with op := some { o with statusWait := false, running := 0 }, uncertain := false } }
            : State).settle)
    ∧ (∀ (s : State) (j : EraseJob), s.power = .on → s.array.op = none → s.array.erase = some j →
        j.statusWait = true →
        exec .flashReportsReady s = .next ({ s with
          array := { s.array with erase := some { j with statusWait := false, clock := 0 }, uncertain := false } }
            : State).settle)
    ∧ (∀ (s : State) (o : Op) (c : Instr) (left : Remnant), s.array.op = some o →
        (c = .queueProgramOutcome (.timedOut left) ∧ o.purpose = .queueProgram
          ∨ c = .copyProgramOutcome (.timedOut left) ∧ (∃ k, o.purpose = .copyProgram k)
          ∨ c = .openingProgramOutcome (.timedOut left) ∧ (∃ q, o.purpose = .opening q)
          ∨ c = .tailMarkOutcome (.timedOut left) ∧ o.purpose = .tailMark
          ∨ c = .retireMarkOutcome (.timedOut left) ∧ (o.purpose = .retireMark ∨ o.purpose = .eraseMark)
          ∨ c = .drainProgramOutcome (.timedOut left) ∧ o.purpose = .drainProgram
          ∨ c = .settingsAppendOutcome (.timedOut left) ∧ o.purpose = .settings
          ∨ c = .mountRepairProgramOutcome (.timedOut left) ∧ (o.purpose = .mountHeader ∨ o.purpose = .mountTail)) →
        exec c s = exec (.operationTimeout left) s)

/-! ### Inputs -/

/-- WP# (R106, R194): a change of level is taken with the edge of WRITE_PERMIT, which raises WP_CHANGE as EDGES
selects; the same level changes nothing. When WP# is asserted a settings append that waits for its grant completes with
MEDIA (R179), a WIPE in progress is cut (R187), and a WRITE that waits in the checking or the hand-over phase in RUN
ends with ERROR, WRITE_PROTECTED, the request's byte address and its store line (R8, R13). An opening that the drain has
requested at that moment waits (R159); that one counts as requested while DRAINING when the head is PENDING and can be
numbered, no block is OPEN, the drain's gate holds and no opening is in flight is the model's choice (R156, R76; log 65). -/
def Obligations.WriteProtectIsTaken : Prop :=
  (∀ (s t : State) (b : Bool), s.power = .on → s.array.wp = !b → s.port.request = none →
      t = (if (if b then s.mgmt.edgeWp.falling else s.mgmt.edgeWp.rising) then
          State.raise { s with
            array := { s.array with wp := b },
            blocks := { s.blocks with drainOpening := s.blocks.drainOpening || b && s.drainOpeningAsked } } .wpChange
        else { s with
          array := { s.array with wp := b },
          blocks := { s.blocks with drainOpening := s.blocks.drainOpening || b && s.drainOpeningAsked } }) →
      ((b = false ∨ s.mgmt.command = .zero) → exec (.wpInputChange b) s = .next t.settle)
      ∧ (∀ c new, b = true → s.mgmt.command = .active (.append c new false) →
        exec (.wpInputChange b) s = .next (t.complete .media (match c with
          | .zlck => [s.mgmt.settings.locks]
          | .xchg => [if s.mgmt.settings.exchange then 1 else 0,
              if s.mgmt.settings.exchange = s.port.exchange then 0 else 1]
          | _ => [])).settle)
      ∧ (∀ step cut, b = true → s.mgmt.command = .active (.wipe step cut) →
        exec (.wpInputChange b) s
          = .next ({ t with mgmt := { t.mgmt with command := .active (.wipe step true) } } : State).settle))
    ∧ (∀ s : State, s.drainOpeningAsked = true ↔ s.mgmt.mode = .drain ∧ s.drain.phase = .draining
        ∧ (∃ q qs, s.queue.entries = q :: qs ∧ q.programming = false
          ∧ ∀ e, q = .line e → e.origin = none → s.queue.nextOrigin < 4294967295)
        ∧ s.openBlock = none ∧ s.blocks.nextSeq < 4294967295 ∧ 1 ≤ s.erasedCount
        ∧ ∀ o r, s.array.op = some o → o.purpose ≠ .opening r)
    ∧ (∀ s : State, s.power = .on → exec (.wpInputChange s.array.wp) s = .next s.settle)
    ∧ (∀ (s : State) (r : Request), s.power = .on → s.array.wp = false → s.mgmt.mode = .run → s.degraded = false →
        s.commandHold = false → s.port.request = some r → r.write = true →
        (r.phase = .handOver ∨ r.phase = .checking) →
        ∃ t, exec (.wpInputChange true) s = .next t
          ∧ t.array.wp = true
          ∧ t.port = { s.port with request := none, response := some { cause := some .writeProtected, data := [] } }
          ∧ (s.mgmt.fault = none → s.mgmt.command = .zero → t.mgmt.fault = some
              { cause := .writeProtected, addr := some r.addr, line := s.lineOfAddr r.addr, block := none, slot := none,
                window := none }))

/-- PFW# (R154, R162). Asserted in RUN or READONLY it begins the drain, with that mode as the return mode and
MODE_CHANGE, here with every window IDLE; a tail mark owed becomes the drain's (R77), an SVCE in progress completes
with CUT (R183) and a settings append that waits for its grant with MODE (R179). An ARMED or OPEN window is IDLE after
it (R127), a COMMITTING one past its commit point stays, and a WRITE that waits in RUN ends with ERROR, DRAINING (R13).
Asserted in DRAINING it clears the release-pending flag; in SERVICE it cuts a WIPE in progress (R187); in MOUNT, HALTED
and otherwise in SERVICE it is only sampled. Deasserted in DRAINED it ends the drain in the return mode, in DRAINING it
leaves the release pending. -/
def Obligations.PowerFailWarningBeginsAndEndsTheDrain : Prop :=
  (∀ s t : State, s.power = .on → s.drain.pfw = false → (s.mgmt.mode = .run ∨ s.mgmt.mode = .readonly) →
      s.port.request = none → (∀ w < 4, (s.window w).state = .idle) →
      t = State.raise { s with
        drain := { phase := .draining, returnMode := some s.mgmt.mode, releasePending := false, pfw := true },
        blocks := { s.blocks with tailOwed := s.blocks.tailOwed.map fun _ => .drain },
        mgmt := { s.mgmt with mode := .drain } } .modeChange →
      ((∀ d, s.mgmt.command ≠ .active (.svce d)) → (∀ c new, s.mgmt.command ≠ .active (.append c new false)) →
        exec .pfwAsserted s = .next t.settle)
      ∧ (∀ d, s.mgmt.command = .active (.svce d) → exec .pfwAsserted s = .next (t.complete .cut []).settle)
      ∧ (∀ c new, s.mgmt.command = .active (.append c new false) →
        exec .pfwAsserted s = .next (t.complete .mode (match c with
          | .zlck => [s.mgmt.settings.locks]
          | .xchg => [if s.mgmt.settings.exchange then 1 else 0,
              if s.mgmt.settings.exchange = s.port.exchange then 0 else 1]
          | _ => [])).settle))
    ∧ (∀ s : State, s.power = .on → s.drain.pfw = false → (s.mgmt.mode = .run ∨ s.mgmt.mode = .readonly) →
        s.windows.windows.length = 4 →
        ∃ t : State, exec .pfwAsserted s = .next t.settle ∧ t.mgmt.mode = .drain ∧ t.eventSet .modeChange = true
          ∧ t.drain = { phase := .draining, returnMode := some s.mgmt.mode, releasePending := false, pfw := true }
          ∧ (∀ w < 4, ((s.window w).state = .armed ∨ (s.window w).state = .opened) → (t.window w).state = .idle)
          ∧ (∀ w < 4, (s.window w).state = .opened → t.eventSet .groupDrop = true)
          ∧ (∀ w < 4, (s.window w).state = .committing →
              s.pastCommitPoint { window := w, group := (s.window w).group.getD 0 } = true → t.window w = s.window w))
    ∧ (∀ (s : State) (r : Request), s.power = .on → s.drain.pfw = false → s.mgmt.mode = .run → s.mgmt.command = .zero →
        s.port.request = some r → r.write = true → (r.phase = .handOver ∨ r.phase = .checking) →
        ∃ t, exec .pfwAsserted s = .next t
          ∧ t.port = { s.port with request := none, response := some { cause := some .draining, data := [] } }
          ∧ (s.mgmt.fault = none → s.queue.entries = [] → (∀ w, (s.window w).awaiting = false) → t.mgmt.fault = some
              { cause := .draining, addr := some r.addr, line := s.lineOfAddr r.addr, block := none, slot := none,
                window := none }))
    ∧ (∀ s : State, s.power = .on → s.drain.pfw = false → s.mgmt.mode = .drain →
        exec .pfwAsserted s
          = .next ({ s with drain := { s.drain with releasePending := false, pfw := true } } : State).settle)
    ∧ (∀ (s : State) (step : WipeStep) (cut : Bool), s.power = .on → s.drain.pfw = false → s.mgmt.mode = .service →
        s.mgmt.command = .active (.wipe step cut) →
        exec .pfwAsserted s = .next ({ s with
          drain := { s.drain with pfw := true },
          mgmt := { s.mgmt with command := .active (.wipe step true) } } : State).settle)
    ∧ (∀ s : State, s.power = .on → s.drain.pfw = false →
        (s.mgmt.mode = .mount ∨ s.mgmt.mode = .halted ∨ s.mgmt.mode = .service ∧ s.activity = none) →
        exec .pfwAsserted s = .next ({ s with drain := { s.drain with pfw := true } } : State).settle)
    ∧ (∀ (s : State) (m : Mode), s.power = .on → s.drain.pfw = true → s.drain.phase = .drained →
        s.drain.returnMode = some m → (m = .run ∨ m = .readonly) → s.port.request = none →
        (∀ w < 4, (s.window w).state = .idle) →
        exec .pfwDeasserted s = .next (State.raise { s with
          drain := { phase := .inactive, returnMode := none, releasePending := false, pfw := false },
          mgmt := { s.mgmt with mode := m } } .modeChange).settle)
    ∧ (∀ s : State, s.power = .on → s.drain.pfw = true → s.drain.phase = .draining →
        exec .pfwDeasserted s
          = .next ({ s with drain := { s.drain with releasePending := true, pfw := false } } : State).settle)

/-- The resets and power (R18, R21, R134, R195): a power-on reset, and the end of a hardware reset, start the machine from
the samples of the straps and inputs with every volatile value at its reset value; while RESET# is asserted and while
power is off no request and no read transfer is answered and IRQ# is deasserted, and a reset cuts short the operation in flight, which is the
only thing that can change the flash. What the state holds while RESET# is asserted or power is off, the level of IRQ#
included, is the model's choice (log 10, log 64). -/
def Obligations.ResetsKeepOnlyTheFlash : Prop :=
  (∀ (s : State) (pins : Pins) (cut : Remnant),
      exec (.powerOnReset pins cut) s = .next (State.poweredUp (s.cutFlash cut) pins s.pending))
    ∧ (∀ (s : State) (pins : Pins), s.power = .held →
        exec (.resetDeasserted pins) s = .next (State.poweredUp s.flash pins s.pending))
    ∧ (∀ (s : State) (cut : Remnant), s.power = .on →
        ∃ t, exec (.resetAsserted cut) s = .next t ∧ t.power = .held ∧ t.flash = s.cutFlash cut
          ∧ t.port.request = none ∧ t.queue.entries = [] ∧ t.ready = false ∧ t.irq = false ∧ ∀ n, readTransfer t n = none)
    ∧ (∀ (s : State) (cut : Remnant),
        ∃ t, exec (.powerLoss cut) s = .next t ∧ t.power = .off ∧ t.flash = s.cutFlash cut
          ∧ t.port.request = none ∧ t.queue.entries = [] ∧ t.ready = false ∧ t.irq = false ∧ ∀ n, readTransfer t n = none)
    ∧ (∀ (s : State) (cut : Remnant), s.array.op = none → s.array.erase = none → s.cutFlash cut = s.flash)
    ∧ (∀ (s : State) (c : Code), s.power ≠ .on → exec c.instr s = .next s ∧ exec .arbiterGrant s = .next s)

/-! ### Mount -/

/-- Mount completion (R151, R152): table, queue counter, block table, group register and counters, settings and half
exchange are what the scan found; MOUNTED is raised, REPAIRED exactly when a repair was made, and MODE_CHANGE; the mode
is SERVICE under the SVC strap, otherwise READONLY on a degrade condition of R191 and RUN without one, except that with
PFW# asserted the machine is DRAINED with that mode as its return mode, and DRAIN_DONE is raised. After the loss of the
flash, or with block 0 unusable (R136, R139, R152), the mode is HALTED whatever the strap, PFW# and the counts: the
settings and the half exchange are installed all the same; with the flash lost the table, the queue and the windows
stay as the entry to MOUNT left them, and the block table holds of each block classified its erase count and a state
from its class, of every other block FULL with erase count 0; with block 0 unusable everything is loaded. That an RSTS
waiting for mount ends there is the model's reading (log 18); that after the loss of the flash the settings sequence counter
and the next settings slot are the engine's and the other counters keep their values is its choice (log 19); that a block
classified before the loss without a valid first part has the highest count among
those classified by then is the model's choice (log 68). -/
def Obligations.MountCompletionChoosesTheMode : Prop :=
  (∀ (s : State) (m : Mount) (d : Bool), s.power = .on → s.mgmt.mode = .mount → s.mount = some m →
    s.array.op = none → s.array.erase = none → m.step = .repairs → m.repairs = [] → s.commandHold = false →
    m.flashLost = false → m.block0Unusable = false →
    d = (decide (255 - (m.blockTable.filter fun c => decide (c.2.state = .retired)).length < 104)
          || atLast m.nextOrigin || atLast m.nextGroup || atLast m.nextBlockSeq) →
    ∃ t : State, exec .mountCompletion s = .next t.settle
      ∧ t.mgmt.mode = (if m.strap then .service else if s.drain.pfw then .drain else if d then .readonly else .run)
      ∧ t.drain = (if m.strap = false ∧ s.drain.pfw = true then
            { phase := .drained, returnMode := some (if d then .readonly else .run), releasePending := false, pfw := true }
          else s.drain)
      ∧ t.table = m.table ∧ t.queue = { entries := [], requests := [], nextOrigin := m.nextOrigin }
      ∧ t.blocks = { BlockManager.reset with table := m.blockTable, nextSeq := m.nextBlockSeq }
      ∧ t.windows = { WindowUnit.reset with register := m.register, nextGroup := m.nextGroup }
      ∧ t.port.exchange = m.settings.exchange ∧ t.mgmt.settings = m.settings ∧ t.mgmt.nextSettingsSeq = m.nextSeq
      ∧ t.mgmt.nextSettingsSlot = m.nextSlot ∧ t.mount = none ∧ t.flash = s.flash ∧ t.health = s.health
      ∧ (∀ v : Event, t.eventSet v = (s.eventSet v || decide (v = .mounted ∨ v = .modeChange)
          || decide (v = .repaired ∧ m.repairMade = true)
          || decide (v = .drainDone ∧ m.strap = false ∧ s.drain.pfw = true))))
    ∧ (∀ (s : State) (m : Mount), s.power = .on → s.mgmt.mode = .mount → s.mount = some m → s.array.erase = none →
        (∀ w < 4, (s.window w).state = .idle) →
        (m.flashLost = true ∨ m.flashLost = false ∧ m.block0Unusable = true ∧ s.commandHold = false) →
        ∃ t : State, exec .mountCompletion s = .next t.settle ∧ t.mgmt.mode = .halted ∧ t.activity = none ∧ t.mount = none
          ∧ t.port.exchange = m.settings.exchange ∧ t.mgmt.settings = m.settings
          ∧ t.mgmt.nextSettingsSeq = m.nextSeq ∧ t.mgmt.nextSettingsSlot = m.nextSlot
          ∧ (m.flashLost = true → t.table = s.table ∧ t.queue = s.queue ∧ t.windows = s.windows
            ∧ t.blocks = { BlockManager.reset with table := m.lostTable })
          ∧ (m.flashLost = false → t.table = m.table
            ∧ t.queue = { entries := [], requests := [], nextOrigin := m.nextOrigin }
            ∧ t.blocks = { BlockManager.reset with table := m.blockTable, nextSeq := m.nextBlockSeq }
            ∧ t.windows = { WindowUnit.reset with register := m.register, nextGroup := m.nextGroup })
          ∧ t.array = s.array ∧ t.drain = s.drain ∧ t.flash = s.flash ∧ t.health = s.health
          ∧ (∀ v : Event, t.eventSet v = (s.eventSet v || decide (v = .mounted ∨ v = .modeChange)
              || decide (v = .repaired ∧ m.repairMade = true) || decide (v = .cmdDone ∧ s.activity.isSome = true))))
    ∧ (∀ m : Mount,
        ((m.scans.map (·.block)).Nodup → ∀ x ∈ m.scans, Sparse.get BlockEntry.unknown m.lostTable x.block =
          { state := (match x.cls with
              | .retired => .retired
              | .erased => .erased
              | .full | .unfinished | .invalid | .virgin => .full),
            eraseCount := if x.cls = .virgin then 0
              else x.eraseCount.getD ((m.scans.map fun y => y.eraseCount.getD 0).foldr max 0),
            blockSeq := (match x.cls with
              | .retired | .full | .unfinished => x.opening.map (·.1)
              | .erased | .invalid | .virgin => none),
            nextFree := 0, failures := 0 })
        ∧ (∀ b, (∀ x ∈ m.scans, x.block ≠ b) → Sparse.get BlockEntry.unknown m.lostTable b
            = { state := .full, eraseCount := 0, blockSeq := none, nextFree := 0, failures := 0 }))
end

