-- ==== Sys2Proof/Laws/State.lean ====
section
/-! SUPPORT. One law for each field under each named update of State: the field changed, and the fields left alone. -/

namespace Sys2Proof.Machine

/-! ### raise -/

@[simp] theorem raise_power (s : State) (e : Event) : (s.raise e).power = s.power := rfl
@[simp] theorem raise_flash (s : State) (e : Event) : (s.raise e).flash = s.flash := rfl
@[simp] theorem raise_port (s : State) (e : Event) : (s.raise e).port = s.port := rfl
@[simp] theorem raise_table (s : State) (e : Event) : (s.raise e).table = s.table := rfl
@[simp] theorem raise_queue (s : State) (e : Event) : (s.raise e).queue = s.queue := rfl
@[simp] theorem raise_blocks (s : State) (e : Event) : (s.raise e).blocks = s.blocks := rfl
@[simp] theorem raise_array (s : State) (e : Event) : (s.raise e).array = s.array := rfl
@[simp] theorem raise_windows (s : State) (e : Event) : (s.raise e).windows = s.windows := rfl
@[simp] theorem raise_mount (s : State) (e : Event) : (s.raise e).mount = s.mount := rfl
@[simp] theorem raise_drain (s : State) (e : Event) : (s.raise e).drain = s.drain := rfl
@[simp] theorem raise_health (s : State) (e : Event) : (s.raise e).health = s.health := rfl
@[simp] theorem raise_mgmt (s : State) (e : Event) : (s.raise e).mgmt = { s.mgmt with events := setEvent s.mgmt.events e } := rfl
@[simp] theorem raise_pending (s : State) (e : Event) : (s.raise e).pending = s.pending := rfl

/-! ### setEntry -/

@[simp] theorem setEntry_power (s : State) (line : Nat) (e : TableEntry) : (s.setEntry line e).power = s.power := rfl
@[simp] theorem setEntry_flash (s : State) (line : Nat) (e : TableEntry) : (s.setEntry line e).flash = s.flash := rfl
@[simp] theorem setEntry_port (s : State) (line : Nat) (e : TableEntry) : (s.setEntry line e).port = s.port := rfl
@[simp] theorem setEntry_table (s : State) (line : Nat) (e : TableEntry) : (s.setEntry line e).table = Sparse.set TableEntry.clear s.table line e := rfl
@[simp] theorem setEntry_queue (s : State) (line : Nat) (e : TableEntry) : (s.setEntry line e).queue = s.queue := rfl
@[simp] theorem setEntry_blocks (s : State) (line : Nat) (e : TableEntry) : (s.setEntry line e).blocks = s.blocks := rfl
@[simp] theorem setEntry_array (s : State) (line : Nat) (e : TableEntry) : (s.setEntry line e).array = s.array := rfl
@[simp] theorem setEntry_windows (s : State) (line : Nat) (e : TableEntry) : (s.setEntry line e).windows = s.windows := rfl
@[simp] theorem setEntry_mount (s : State) (line : Nat) (e : TableEntry) : (s.setEntry line e).mount = s.mount := rfl
@[simp] theorem setEntry_drain (s : State) (line : Nat) (e : TableEntry) : (s.setEntry line e).drain = s.drain := rfl
@[simp] theorem setEntry_health (s : State) (line : Nat) (e : TableEntry) : (s.setEntry line e).health = s.health := rfl
@[simp] theorem setEntry_mgmt (s : State) (line : Nat) (e : TableEntry) : (s.setEntry line e).mgmt = s.mgmt := rfl
@[simp] theorem setEntry_pending (s : State) (line : Nat) (e : TableEntry) : (s.setEntry line e).pending = s.pending := rfl

/-! ### setBlock -/

@[simp] theorem setBlock_power (s : State) (b : Nat) (e : BlockEntry) : (s.setBlock b e).power = s.power := rfl
@[simp] theorem setBlock_flash (s : State) (b : Nat) (e : BlockEntry) : (s.setBlock b e).flash = s.flash := rfl
@[simp] theorem setBlock_port (s : State) (b : Nat) (e : BlockEntry) : (s.setBlock b e).port = s.port := rfl
@[simp] theorem setBlock_table (s : State) (b : Nat) (e : BlockEntry) : (s.setBlock b e).table = s.table := rfl
@[simp] theorem setBlock_queue (s : State) (b : Nat) (e : BlockEntry) : (s.setBlock b e).queue = s.queue := rfl
@[simp] theorem setBlock_blocks (s : State) (b : Nat) (e : BlockEntry) : (s.setBlock b e).blocks = { s.blocks with table := Sparse.set BlockEntry.unknown s.blocks.table b e } := rfl
@[simp] theorem setBlock_array (s : State) (b : Nat) (e : BlockEntry) : (s.setBlock b e).array = s.array := rfl
@[simp] theorem setBlock_windows (s : State) (b : Nat) (e : BlockEntry) : (s.setBlock b e).windows = s.windows := rfl
@[simp] theorem setBlock_mount (s : State) (b : Nat) (e : BlockEntry) : (s.setBlock b e).mount = s.mount := rfl
@[simp] theorem setBlock_drain (s : State) (b : Nat) (e : BlockEntry) : (s.setBlock b e).drain = s.drain := rfl
@[simp] theorem setBlock_health (s : State) (b : Nat) (e : BlockEntry) : (s.setBlock b e).health = s.health := rfl
@[simp] theorem setBlock_mgmt (s : State) (b : Nat) (e : BlockEntry) : (s.setBlock b e).mgmt = s.mgmt := rfl
@[simp] theorem setBlock_pending (s : State) (b : Nat) (e : BlockEntry) : (s.setBlock b e).pending = s.pending := rfl

/-! ### setWindow -/

@[simp] theorem setWindow_power (s : State) (w : Nat) (x : Window) : (s.setWindow w x).power = s.power := rfl
@[simp] theorem setWindow_flash (s : State) (w : Nat) (x : Window) : (s.setWindow w x).flash = s.flash := rfl
@[simp] theorem setWindow_port (s : State) (w : Nat) (x : Window) : (s.setWindow w x).port = s.port := rfl
@[simp] theorem setWindow_table (s : State) (w : Nat) (x : Window) : (s.setWindow w x).table = s.table := rfl
@[simp] theorem setWindow_queue (s : State) (w : Nat) (x : Window) : (s.setWindow w x).queue = s.queue := rfl
@[simp] theorem setWindow_blocks (s : State) (w : Nat) (x : Window) : (s.setWindow w x).blocks = s.blocks := rfl
@[simp] theorem setWindow_array (s : State) (w : Nat) (x : Window) : (s.setWindow w x).array = s.array := rfl
@[simp] theorem setWindow_windows (s : State) (w : Nat) (x : Window) : (s.setWindow w x).windows = { s.windows with windows := s.windows.windows.set w x } := rfl
@[simp] theorem setWindow_mount (s : State) (w : Nat) (x : Window) : (s.setWindow w x).mount = s.mount := rfl
@[simp] theorem setWindow_drain (s : State) (w : Nat) (x : Window) : (s.setWindow w x).drain = s.drain := rfl
@[simp] theorem setWindow_health (s : State) (w : Nat) (x : Window) : (s.setWindow w x).health = s.health := rfl
@[simp] theorem setWindow_mgmt (s : State) (w : Nat) (x : Window) : (s.setWindow w x).mgmt = s.mgmt := rfl
@[simp] theorem setWindow_pending (s : State) (w : Nat) (x : Window) : (s.setWindow w x).pending = s.pending := rfl

/-! ### setReg -/

@[simp] theorem setReg_power (s : State) (i : Nat) (x : RegEntry) : (s.setReg i x).power = s.power := rfl
@[simp] theorem setReg_flash (s : State) (i : Nat) (x : RegEntry) : (s.setReg i x).flash = s.flash := rfl
@[simp] theorem setReg_port (s : State) (i : Nat) (x : RegEntry) : (s.setReg i x).port = s.port := rfl
@[simp] theorem setReg_table (s : State) (i : Nat) (x : RegEntry) : (s.setReg i x).table = s.table := rfl
@[simp] theorem setReg_queue (s : State) (i : Nat) (x : RegEntry) : (s.setReg i x).queue = s.queue := rfl
@[simp] theorem setReg_blocks (s : State) (i : Nat) (x : RegEntry) : (s.setReg i x).blocks = s.blocks := rfl
@[simp] theorem setReg_array (s : State) (i : Nat) (x : RegEntry) : (s.setReg i x).array = s.array := rfl
@[simp] theorem setReg_windows (s : State) (i : Nat) (x : RegEntry) : (s.setReg i x).windows = { s.windows with register := s.windows.register.set i x } := rfl
@[simp] theorem setReg_mount (s : State) (i : Nat) (x : RegEntry) : (s.setReg i x).mount = s.mount := rfl
@[simp] theorem setReg_drain (s : State) (i : Nat) (x : RegEntry) : (s.setReg i x).drain = s.drain := rfl
@[simp] theorem setReg_health (s : State) (i : Nat) (x : RegEntry) : (s.setReg i x).health = s.health := rfl
@[simp] theorem setReg_mgmt (s : State) (i : Nat) (x : RegEntry) : (s.setReg i x).mgmt = s.mgmt := rfl
@[simp] theorem setReg_pending (s : State) (i : Nat) (x : RegEntry) : (s.setReg i x).pending = s.pending := rfl

/-! ### setErase -/

@[simp] theorem setErase_power (s : State) (j : Option EraseJob) : (s.setErase j).power = s.power := rfl
@[simp] theorem setErase_flash (s : State) (j : Option EraseJob) : (s.setErase j).flash = s.flash := rfl
@[simp] theorem setErase_port (s : State) (j : Option EraseJob) : (s.setErase j).port = s.port := rfl
@[simp] theorem setErase_table (s : State) (j : Option EraseJob) : (s.setErase j).table = s.table := rfl
@[simp] theorem setErase_queue (s : State) (j : Option EraseJob) : (s.setErase j).queue = s.queue := rfl
@[simp] theorem setErase_blocks (s : State) (j : Option EraseJob) : (s.setErase j).blocks = s.blocks := rfl
@[simp] theorem setErase_array (s : State) (j : Option EraseJob) : (s.setErase j).array = { s.array with erase := j } := rfl
@[simp] theorem setErase_windows (s : State) (j : Option EraseJob) : (s.setErase j).windows = s.windows := rfl
@[simp] theorem setErase_mount (s : State) (j : Option EraseJob) : (s.setErase j).mount = s.mount := rfl
@[simp] theorem setErase_drain (s : State) (j : Option EraseJob) : (s.setErase j).drain = s.drain := rfl
@[simp] theorem setErase_health (s : State) (j : Option EraseJob) : (s.setErase j).health = s.health := rfl
@[simp] theorem setErase_mgmt (s : State) (j : Option EraseJob) : (s.setErase j).mgmt = s.mgmt := rfl
@[simp] theorem setErase_pending (s : State) (j : Option EraseJob) : (s.setErase j).pending = s.pending := rfl

/-! ### setRequest -/

@[simp] theorem setRequest_power (s : State) (r : Request) : (s.setRequest r).power = s.power := rfl
@[simp] theorem setRequest_flash (s : State) (r : Request) : (s.setRequest r).flash = s.flash := rfl
@[simp] theorem setRequest_port (s : State) (r : Request) : (s.setRequest r).port = { s.port with request := some r } := rfl
@[simp] theorem setRequest_table (s : State) (r : Request) : (s.setRequest r).table = s.table := rfl
@[simp] theorem setRequest_queue (s : State) (r : Request) : (s.setRequest r).queue = s.queue := rfl
@[simp] theorem setRequest_blocks (s : State) (r : Request) : (s.setRequest r).blocks = s.blocks := rfl
@[simp] theorem setRequest_array (s : State) (r : Request) : (s.setRequest r).array = s.array := rfl
@[simp] theorem setRequest_windows (s : State) (r : Request) : (s.setRequest r).windows = s.windows := rfl
@[simp] theorem setRequest_mount (s : State) (r : Request) : (s.setRequest r).mount = s.mount := rfl
@[simp] theorem setRequest_drain (s : State) (r : Request) : (s.setRequest r).drain = s.drain := rfl
@[simp] theorem setRequest_health (s : State) (r : Request) : (s.setRequest r).health = s.health := rfl
@[simp] theorem setRequest_mgmt (s : State) (r : Request) : (s.setRequest r).mgmt = s.mgmt := rfl
@[simp] theorem setRequest_pending (s : State) (r : Request) : (s.setRequest r).pending = s.pending := rfl

/-! ### select -/

@[simp] theorem select_power (s : State) (n : Nat) : (s.select n).power = s.power := rfl
@[simp] theorem select_flash (s : State) (n : Nat) : (s.select n).flash = s.flash := rfl
@[simp] theorem select_port (s : State) (n : Nat) : (s.select n).port = s.port := rfl
@[simp] theorem select_table (s : State) (n : Nat) : (s.select n).table = s.table := rfl
@[simp] theorem select_queue (s : State) (n : Nat) : (s.select n).queue = s.queue := rfl
@[simp] theorem select_blocks (s : State) (n : Nat) : (s.select n).blocks = s.blocks := rfl
@[simp] theorem select_array (s : State) (n : Nat) : (s.select n).array = s.array := rfl
@[simp] theorem select_windows (s : State) (n : Nat) : (s.select n).windows = s.windows := rfl
@[simp] theorem select_mount (s : State) (n : Nat) : (s.select n).mount = s.mount := rfl
@[simp] theorem select_drain (s : State) (n : Nat) : (s.select n).drain = s.drain := rfl
@[simp] theorem select_health (s : State) (n : Nat) : (s.select n).health = s.health := rfl
@[simp] theorem select_mgmt (s : State) (n : Nat) : (s.select n).mgmt = { s.mgmt with selected := n } := rfl
@[simp] theorem select_pending (s : State) (n : Nat) : (s.select n).pending = s.pending := rfl

/-! ### hold -/

@[simp] theorem hold_power (s : State) (a : Activity) : (s.hold a).power = s.power := rfl
@[simp] theorem hold_flash (s : State) (a : Activity) : (s.hold a).flash = s.flash := rfl
@[simp] theorem hold_port (s : State) (a : Activity) : (s.hold a).port = s.port := rfl
@[simp] theorem hold_table (s : State) (a : Activity) : (s.hold a).table = s.table := rfl
@[simp] theorem hold_queue (s : State) (a : Activity) : (s.hold a).queue = s.queue := rfl
@[simp] theorem hold_blocks (s : State) (a : Activity) : (s.hold a).blocks = s.blocks := rfl
@[simp] theorem hold_array (s : State) (a : Activity) : (s.hold a).array = s.array := rfl
@[simp] theorem hold_windows (s : State) (a : Activity) : (s.hold a).windows = s.windows := rfl
@[simp] theorem hold_mount (s : State) (a : Activity) : (s.hold a).mount = s.mount := rfl
@[simp] theorem hold_drain (s : State) (a : Activity) : (s.hold a).drain = s.drain := rfl
@[simp] theorem hold_health (s : State) (a : Activity) : (s.hold a).health = s.health := rfl
@[simp] theorem hold_mgmt (s : State) (a : Activity) : (s.hold a).mgmt = { s.mgmt with command := .active a } := rfl
@[simp] theorem hold_pending (s : State) (a : Activity) : (s.hold a).pending = s.pending := rfl

/-! ### setPfw -/

@[simp] theorem setPfw_power (s : State) (p : Bool) : (s.setPfw p).power = s.power := rfl
@[simp] theorem setPfw_flash (s : State) (p : Bool) : (s.setPfw p).flash = s.flash := rfl
@[simp] theorem setPfw_port (s : State) (p : Bool) : (s.setPfw p).port = s.port := rfl
@[simp] theorem setPfw_table (s : State) (p : Bool) : (s.setPfw p).table = s.table := rfl
@[simp] theorem setPfw_queue (s : State) (p : Bool) : (s.setPfw p).queue = s.queue := rfl
@[simp] theorem setPfw_blocks (s : State) (p : Bool) : (s.setPfw p).blocks = s.blocks := rfl
@[simp] theorem setPfw_array (s : State) (p : Bool) : (s.setPfw p).array = s.array := rfl
@[simp] theorem setPfw_windows (s : State) (p : Bool) : (s.setPfw p).windows = s.windows := rfl
@[simp] theorem setPfw_mount (s : State) (p : Bool) : (s.setPfw p).mount = s.mount := rfl
@[simp] theorem setPfw_drain (s : State) (p : Bool) : (s.setPfw p).drain = { s.drain with pfw := p } := rfl
@[simp] theorem setPfw_health (s : State) (p : Bool) : (s.setPfw p).health = s.health := rfl
@[simp] theorem setPfw_mgmt (s : State) (p : Bool) : (s.setPfw p).mgmt = s.mgmt := rfl
@[simp] theorem setPfw_pending (s : State) (p : Bool) : (s.setPfw p).pending = s.pending := rfl

/-! ### withMount -/

@[simp] theorem withMount_power (s : State) (f : Mount → Mount) : (s.withMount f).power = s.power := rfl
@[simp] theorem withMount_flash (s : State) (f : Mount → Mount) : (s.withMount f).flash = s.flash := rfl
@[simp] theorem withMount_port (s : State) (f : Mount → Mount) : (s.withMount f).port = s.port := rfl
@[simp] theorem withMount_table (s : State) (f : Mount → Mount) : (s.withMount f).table = s.table := rfl
@[simp] theorem withMount_queue (s : State) (f : Mount → Mount) : (s.withMount f).queue = s.queue := rfl
@[simp] theorem withMount_blocks (s : State) (f : Mount → Mount) : (s.withMount f).blocks = s.blocks := rfl
@[simp] theorem withMount_array (s : State) (f : Mount → Mount) : (s.withMount f).array = s.array := rfl
@[simp] theorem withMount_windows (s : State) (f : Mount → Mount) : (s.withMount f).windows = s.windows := rfl
@[simp] theorem withMount_mount (s : State) (f : Mount → Mount) : (s.withMount f).mount = s.mount.map f := rfl
@[simp] theorem withMount_drain (s : State) (f : Mount → Mount) : (s.withMount f).drain = s.drain := rfl
@[simp] theorem withMount_health (s : State) (f : Mount → Mount) : (s.withMount f).health = s.health := rfl
@[simp] theorem withMount_mgmt (s : State) (f : Mount → Mount) : (s.withMount f).mgmt = s.mgmt := rfl
@[simp] theorem withMount_pending (s : State) (f : Mount → Mount) : (s.withMount f).pending = s.pending := rfl

/-! ### opEnded -/

@[simp] theorem opEnded_power (s : State) : s.opEnded.power = s.power := rfl
@[simp] theorem opEnded_flash (s : State) : s.opEnded.flash = s.flash := rfl
@[simp] theorem opEnded_port (s : State) : s.opEnded.port = s.port := rfl
@[simp] theorem opEnded_table (s : State) : s.opEnded.table = s.table := rfl
@[simp] theorem opEnded_queue (s : State) : s.opEnded.queue = s.queue := rfl
@[simp] theorem opEnded_blocks (s : State) : s.opEnded.blocks = s.blocks := rfl
@[simp] theorem opEnded_array (s : State) : s.opEnded.array = { s.array with op := none, timeouts := 0 } := rfl
@[simp] theorem opEnded_windows (s : State) : s.opEnded.windows = s.windows := rfl
@[simp] theorem opEnded_mount (s : State) : s.opEnded.mount = s.mount := rfl
@[simp] theorem opEnded_drain (s : State) : s.opEnded.drain = s.drain := rfl
@[simp] theorem opEnded_health (s : State) : s.opEnded.health = s.health := rfl
@[simp] theorem opEnded_mgmt (s : State) : s.opEnded.mgmt = s.mgmt := rfl
@[simp] theorem opEnded_pending (s : State) : s.opEnded.pending = s.pending := rfl

/-! ### eraseEnded -/

@[simp] theorem eraseEnded_power (s : State) : s.eraseEnded.power = s.power := rfl
@[simp] theorem eraseEnded_flash (s : State) : s.eraseEnded.flash = s.flash := rfl
@[simp] theorem eraseEnded_port (s : State) : s.eraseEnded.port = s.port := rfl
@[simp] theorem eraseEnded_table (s : State) : s.eraseEnded.table = s.table := rfl
@[simp] theorem eraseEnded_queue (s : State) : s.eraseEnded.queue = s.queue := rfl
@[simp] theorem eraseEnded_blocks (s : State) : s.eraseEnded.blocks = s.blocks := rfl
@[simp] theorem eraseEnded_array (s : State) : s.eraseEnded.array = { s.array with timeouts := 0 } := rfl
@[simp] theorem eraseEnded_windows (s : State) : s.eraseEnded.windows = s.windows := rfl
@[simp] theorem eraseEnded_mount (s : State) : s.eraseEnded.mount = s.mount := rfl
@[simp] theorem eraseEnded_drain (s : State) : s.eraseEnded.drain = s.drain := rfl
@[simp] theorem eraseEnded_health (s : State) : s.eraseEnded.health = s.health := rfl
@[simp] theorem eraseEnded_mgmt (s : State) : s.eraseEnded.mgmt = s.mgmt := rfl
@[simp] theorem eraseEnded_pending (s : State) : s.eraseEnded.pending = s.pending := rfl

/-! ### disarm -/

@[simp] theorem disarm_power (s : State) : s.disarm.power = s.power := rfl
@[simp] theorem disarm_flash (s : State) : s.disarm.flash = s.flash := rfl
@[simp] theorem disarm_port (s : State) : s.disarm.port = s.port := rfl
@[simp] theorem disarm_table (s : State) : s.disarm.table = s.table := rfl
@[simp] theorem disarm_queue (s : State) : s.disarm.queue = s.queue := rfl
@[simp] theorem disarm_blocks (s : State) : s.disarm.blocks = s.blocks := rfl
@[simp] theorem disarm_array (s : State) : s.disarm.array = s.array := rfl
@[simp] theorem disarm_windows (s : State) : s.disarm.windows = s.windows := rfl
@[simp] theorem disarm_mount (s : State) : s.disarm.mount = s.mount := rfl
@[simp] theorem disarm_drain (s : State) : s.disarm.drain = s.drain := rfl
@[simp] theorem disarm_health (s : State) : s.disarm.health = { s.health with arm := .none } := rfl
@[simp] theorem disarm_mgmt (s : State) : s.disarm.mgmt = s.mgmt := rfl
@[simp] theorem disarm_pending (s : State) : s.disarm.pending = s.pending := rfl

/-! ### freeFault -/

@[simp] theorem freeFault_power (s : State) : s.freeFault.power = s.power := rfl
@[simp] theorem freeFault_flash (s : State) : s.freeFault.flash = s.flash := rfl
@[simp] theorem freeFault_port (s : State) : s.freeFault.port = s.port := rfl
@[simp] theorem freeFault_table (s : State) : s.freeFault.table = s.table := rfl
@[simp] theorem freeFault_queue (s : State) : s.freeFault.queue = s.queue := rfl
@[simp] theorem freeFault_blocks (s : State) : s.freeFault.blocks = s.blocks := rfl
@[simp] theorem freeFault_array (s : State) : s.freeFault.array = s.array := rfl
@[simp] theorem freeFault_windows (s : State) : s.freeFault.windows = s.windows := rfl
@[simp] theorem freeFault_mount (s : State) : s.freeFault.mount = s.mount := rfl
@[simp] theorem freeFault_drain (s : State) : s.freeFault.drain = s.drain := rfl
@[simp] theorem freeFault_health (s : State) : s.freeFault.health = s.health := rfl
@[simp] theorem freeFault_mgmt (s : State) : s.freeFault.mgmt = { s.mgmt with fault := none, further := false } := rfl
@[simp] theorem freeFault_pending (s : State) : s.freeFault.pending = s.pending := rfl

/-! ### dropHead -/

@[simp] theorem dropHead_power (s : State) : s.dropHead.power = s.power := rfl
@[simp] theorem dropHead_flash (s : State) : s.dropHead.flash = s.flash := rfl
@[simp] theorem dropHead_port (s : State) : s.dropHead.port = s.port := rfl
@[simp] theorem dropHead_table (s : State) : s.dropHead.table = s.table := rfl
@[simp] theorem dropHead_queue (s : State) : s.dropHead.queue = { s.queue with entries := s.queue.entries.tail } := rfl
@[simp] theorem dropHead_blocks (s : State) : s.dropHead.blocks = s.blocks := rfl
@[simp] theorem dropHead_array (s : State) : s.dropHead.array = s.array := rfl
@[simp] theorem dropHead_windows (s : State) : s.dropHead.windows = s.windows := rfl
@[simp] theorem dropHead_mount (s : State) : s.dropHead.mount = s.mount := rfl
@[simp] theorem dropHead_drain (s : State) : s.dropHead.drain = s.drain := rfl
@[simp] theorem dropHead_health (s : State) : s.dropHead.health = s.health := rfl
@[simp] theorem dropHead_mgmt (s : State) : s.dropHead.mgmt = s.mgmt := rfl
@[simp] theorem dropHead_pending (s : State) : s.dropHead.pending = s.pending := rfl

/-! ### setHead -/

@[simp] theorem setHead_power (s : State) (q : QEntry) : (s.setHead q).power = s.power := rfl
@[simp] theorem setHead_flash (s : State) (q : QEntry) : (s.setHead q).flash = s.flash := rfl
@[simp] theorem setHead_port (s : State) (q : QEntry) : (s.setHead q).port = s.port := rfl
@[simp] theorem setHead_table (s : State) (q : QEntry) : (s.setHead q).table = s.table := rfl
@[simp] theorem setHead_queue (s : State) (q : QEntry) : (s.setHead q).queue = { s.queue with entries := q :: s.queue.entries.tail } := rfl
@[simp] theorem setHead_blocks (s : State) (q : QEntry) : (s.setHead q).blocks = s.blocks := rfl
@[simp] theorem setHead_array (s : State) (q : QEntry) : (s.setHead q).array = s.array := rfl
@[simp] theorem setHead_windows (s : State) (q : QEntry) : (s.setHead q).windows = s.windows := rfl
@[simp] theorem setHead_mount (s : State) (q : QEntry) : (s.setHead q).mount = s.mount := rfl
@[simp] theorem setHead_drain (s : State) (q : QEntry) : (s.setHead q).drain = s.drain := rfl
@[simp] theorem setHead_health (s : State) (q : QEntry) : (s.setHead q).health = s.health := rfl
@[simp] theorem setHead_mgmt (s : State) (q : QEntry) : (s.setHead q).mgmt = s.mgmt := rfl
@[simp] theorem setHead_pending (s : State) (q : QEntry) : (s.setHead q).pending = s.pending := rfl

end Sys2Proof.Machine
end

