-- ==== Sys2Proof/Laws/Settle.lean ====
section
/-! SUPPORT. What the shared operations and the reactions leave alone: the standing part of a state. -/

namespace Sys2Proof.Machine

/-! ### Shared operations -/

@[simp] theorem standing_raise (s : State) (e : Event) : (s.raise e).standing = s.standing := rfl
@[simp] theorem standing_setEntry (s : State) (l : Nat) (e : TableEntry) : (s.setEntry l e).standing = s.standing := rfl
@[simp] theorem standing_setBlock (s : State) (b : Nat) (e : BlockEntry) : (s.setBlock b e).standing = s.standing := rfl
@[simp] theorem standing_setWindow (s : State) (w : Nat) (x : Window) : (s.setWindow w x).standing = s.standing := rfl
@[simp] theorem standing_setReg (s : State) (i : Nat) (x : RegEntry) : (s.setReg i x).standing = s.standing := rfl
@[simp] theorem standing_setErase (s : State) (j : Option EraseJob) : (s.setErase j).standing = s.standing := rfl
@[simp] theorem standing_setRequest (s : State) (r : Request) : (s.setRequest r).standing = s.standing := rfl
@[simp] theorem standing_setPiece (s : State) (r : Request) (i : Nat) (p : Piece) :
    (s.setPiece r i p).standing = s.standing := rfl

@[simp] theorem standing_losePiece (s : State) (i : Nat) : (s.losePiece i).standing = s.standing := by
  unfold State.losePiece; repeat' split
  all_goals rfl

@[simp] theorem standing_hold (s : State) (a : Activity) : (s.hold a).standing = s.standing := rfl
@[simp] theorem standing_complete (s : State) (r : Ret) (bs : List Byte) : (s.complete r bs).standing = s.standing := rfl
@[simp] theorem standing_withMount (s : State) (f : Mount → Mount) : (s.withMount f).standing = s.standing := rfl
@[simp] theorem standing_dropHead (s : State) : s.dropHead.standing = s.standing := rfl
@[simp] theorem standing_setHead (s : State) (q : QEntry) : (s.setHead q).standing = s.standing := rfl
@[simp] theorem standing_freeFault (s : State) : s.freeFault.standing = s.standing := rfl

@[simp] theorem standing_reportFault (s : State) (f : FaultReport) : (s.reportFault f).standing = s.standing := by
  unfold State.reportFault; split <;> rfl

@[simp] theorem standing_edge (s : State) (sel : EdgeSel) (e : Event) (a b : Bool) :
    (s.edge sel e a b).standing = s.standing := by
  unfold State.edge; split_ifs <;> simp

@[simp] theorem standing_wake (s : State) : s.wake.standing = s.standing := by
  unfold State.wake; split
  · rfl
  · split_ifs <;> rfl

/-! ### Windows and the group register -/

@[simp] theorem standing_askCommit (s : State) (r : CommitRequest) : (s.askCommit r).standing = s.standing := by
  unfold State.askCommit; split_ifs <;> rfl

@[simp] theorem standing_reserve (s : State) (w g i : Nat) : (s.reserve w g i).standing = s.standing := by
  simp [State.reserve]

@[simp] theorem standing_closeGroup (s : State) (w g : Nat) : (s.closeGroup w g).standing = s.standing := by
  unfold State.closeGroup; dsimp only; split <;> simp

@[simp] theorem standing_closeTrigger (s : State) (t : Tag) : (s.closeTrigger t).standing = s.standing := by
  unfold State.closeTrigger; split_ifs <;> simp

@[simp] theorem standing_offerRegister (s : State) : s.offerRegister.standing = s.standing := by
  unfold State.offerRegister; split <;> simp

@[simp] theorem standing_freeDeadGroups (s : State) : s.freeDeadGroups.standing = s.standing := rfl
@[simp] theorem standing_updateRelease (s : State) : s.updateRelease.standing = s.standing := rfl

@[simp] theorem standing_createShadow (s : State) (l w : Nat) : (s.createShadow l w).standing = s.standing := by
  unfold State.createShadow; split_ifs <;> rfl

@[simp] theorem standing_openGroup (s : State) (w : Nat) : (s.openGroup w).standing = s.standing := by
  unfold State.openGroup; split_ifs <;> rfl

@[simp] theorem standing_tagPiece (s : State) (p : Piece) : (s.tagPiece p).1.standing = s.standing := by
  unfold State.tagPiece
  split_ifs
  · split <;> simp
  · rfl

@[simp] theorem standing_tagPieces (s : State) (ps : List Piece) : (s.tagPieces ps).1.standing = s.standing := by
  induction ps generalizing s with
  | nil => rfl
  | cons p ps ih => simp [State.tagPieces, ih]

@[simp] theorem standing_commitCompletion (s : State) (w g i : Nat) (x : Slot) :
    (s.commitCompletion w g i x).standing = s.standing := by
  unfold State.commitCompletion
  simp only [standing_wake]
  split_ifs <;> simp <;> rfl

@[simp] theorem standing_revert (s : State) (x : ShadowEntry) : (s.revert x).standing = s.standing := by
  unfold State.revert; dsimp only; split_ifs <;> simp

theorem standing_foldl_revert (xs : List ShadowEntry) (s : State) : (xs.foldl State.revert s).standing = s.standing := by
  induction xs generalizing s with
  | nil => rfl
  | cons x xs ih => simp [ih]

@[simp] theorem standing_revertWindow (s : State) (w : Nat) : (s.revertWindow w).standing = s.standing :=
  standing_foldl_revert _ s

@[simp] theorem standing_freeRegisterOf (s : State) (x : Window) : (s.freeRegisterOf x).standing = s.standing := by
  unfold State.freeRegisterOf; split <;> simp

@[simp] theorem standing_queueAbort (s : State) (t : Tag) : (s.queueAbort t).standing = s.standing := rfl

@[simp] theorem standing_abortGroup (s : State) (w : Nat) : (s.abortGroup w).standing = s.standing := by
  unfold State.abortGroup; dsimp only; split <;> simp

@[simp] theorem standing_lostCommit (s : State) (w : Nat) : (s.lostCommit w).standing = s.standing := by
  simp [State.lostCommit]

@[simp] theorem standing_disarmWindow (s : State) (w : Nat) : (s.disarmWindow w).standing = s.standing := rfl

@[simp] theorem standing_stopWindow (s : State) (w : Nat) : (s.stopWindow w).standing = s.standing := by
  unfold State.stopWindow; dsimp only
  split <;> (try split_ifs) <;> simp

@[simp] theorem standing_stopWindows (s : State) : s.stopWindows.standing = s.standing := by
  simp [State.stopWindows]

/-! ### Modes and the drain -/

@[simp] theorem standing_setMode (s : State) (m : Mode) : (s.setMode m).standing = s.standing := by
  unfold State.setMode
  simp only [standing_wake, standing_raise]
  cases m <;> first | rfl | exact standing_stopWindows s

@[simp] theorem standing_degrade (s : State) : s.degrade.standing = s.standing := by
  unfold State.degrade
  split_ifs
  · split <;> first | rfl | exact standing_setMode _ _
  · rfl

@[simp] theorem standing_endDrain (s : State) : s.endDrain.standing = s.standing := by
  unfold State.endDrain; simp; rfl

@[simp] theorem standing_reachDrained (s : State) : s.reachDrained.standing = s.standing := by
  unfold State.reachDrained; dsimp only
  split_ifs
  · simp; rfl
  · rfl

@[simp] theorem standing_noteDiscard (s : State) (b : Bool) : (s.noteDiscard b).standing = s.standing := by
  unfold State.noteDiscard
  split_ifs
  · split <;> simp
  · rfl

@[simp] theorem standing_discardEffects (s : State) (q : QEntry) (x : Option Slot) :
    (s.discardEffects q x).standing = s.standing := by
  unfold State.discardEffects
  cases q <;> simp

@[simp] theorem standing_discardStuck (n : Nat) (s : State) : (s.discardStuck n).standing = s.standing := by
  induction n generalizing s with
  | zero => rfl
  | succ n ih =>
    unfold State.discardStuck
    split_ifs
    · split
      · simp [ih]
      · rfl
    · rfl

theorem standing_foldl_discard (qs : List QEntry) (s : State) :
    (qs.foldl (fun t q => t.discardEffects q none) s).standing = s.standing := by
  induction qs generalizing s with
  | nil => rfl
  | cons q qs ih => simp [ih]

@[simp] theorem standing_discardAll (s : State) : s.discardAll.standing = s.standing := by
  unfold State.discardAll
  exact standing_foldl_discard _ _

@[simp] theorem standing_drainStep (s : State) : s.drainStep.standing = s.standing := by
  unfold State.drainStep; dsimp only
  split_ifs <;> simp

/-! ### The port -/

@[simp] theorem standing_abandonRead (s : State) : s.abandonRead.standing = s.standing := by
  unfold State.abandonRead
  split
  · rfl
  · split <;> rfl

@[simp] theorem standing_respond (s : State) (c : Option Cause) (d : List Byte) :
    (s.respond c d).standing = s.standing := by
  unfold State.respond State.abandonRead
  split
  · rfl
  · split <;> rfl

@[simp] theorem standing_refuse (s : State) (f : FaultReport) (d : List Byte) : (s.refuse f d).standing = s.standing := by
  simp [State.refuse]

@[simp] theorem standing_endRequest (s : State) (r : Request) (c : Cause) : (s.endRequest r c).standing = s.standing := by
  simp [State.endRequest]

@[simp] theorem standing_waitChecking (s : State) (r : Request) : (s.waitChecking r).standing = s.standing := by
  simp [State.waitChecking]

@[simp] theorem standing_enterHandOver (s : State) (r : Request) : (s.enterHandOver r).standing = s.standing := by
  unfold State.enterHandOver
  split <;> simp

@[simp] theorem standing_checkWindows (s : State) (r : Request) : (s.checkWindows r).standing = s.standing := by
  unfold State.checkWindows
  split_ifs
  · simp
  · split <;> simp

@[simp] theorem standing_checkRange (s : State) (r : Request) : (s.checkRange r).standing = s.standing := by
  unfold State.checkRange
  split
  · simp
  all_goals (split <;> simp)

@[simp] theorem standing_checkWrite (s : State) (r : Request) : (s.checkWrite r).standing = s.standing := by
  unfold State.checkWrite
  split_ifs
  · simp
  all_goals (split <;> simp)

@[simp] theorem standing_stepHandOver (s : State) (r : Request) : (s.stepHandOver r).standing = s.standing := by
  unfold State.stepHandOver
  split_ifs
  · simp
  all_goals (split <;> simp)

@[simp] theorem standing_answerRead (s : State) (r : Request) : (s.answerRead r).standing = s.standing := by
  unfold State.answerRead; dsimp only
  split_ifs
  · split
    · simp
    · split <;> simp
  · simp

@[simp] theorem standing_stepRead (s : State) (r : Request) : (s.stepRead r).standing = s.standing := by
  unfold State.stepRead
  split <;> (try split_ifs) <;> simp

@[simp] theorem standing_checkRead (s : State) (r : Request) : (s.checkRead r).standing = s.standing := by
  unfold State.checkRead
  split <;> simp

@[simp] theorem standing_portStep (s : State) : s.portStep.standing = s.standing := by
  unfold State.portStep
  split
  · rfl
  · split <;> (try split_ifs) <;> simp

/-! ### Erases, mount and WIPE -/

@[simp] theorem standing_passTurn (s : State) (k : JobKind) : (s.passTurn k).standing = s.standing := by
  unfold State.passTurn; split <;> rfl

@[simp] theorem standing_endReclaim (s : State) (b : Nat) : (s.endReclaim b).standing = s.standing := by
  unfold State.endReclaim
  split_ifs
  · simp; rfl
  · rfl

@[simp] theorem standing_reportRetired (s : State) (b : Nat) : (s.reportRetired b).standing = s.standing := by
  simp [State.reportRetired]

@[simp] theorem standing_retireErased (s : State) (j : EraseJob) : (s.retireErased j).standing = s.standing := by
  unfold State.retireErased; dsimp only
  cases j.owner <;> simp

@[simp] theorem standing_setCopy (s : State) (k : JobKind) (c : Option CopyWork) :
    (s.setCopy k c).standing = s.standing := by
  unfold State.setCopy; split <;> rfl

@[simp] theorem standing_startReclaimErase (s : State) : s.startReclaimErase.standing = s.standing := by
  unfold State.startReclaimErase
  split
  · dsimp only
    split_ifs
    · simp only [standing_setErase]
      split
      · split_ifs <;> simp
      · rfl
    · rfl
  · rfl
  · rfl

@[simp] theorem standing_releaseHeader (s : State) : s.releaseHeader.standing = s.standing := by
  unfold State.releaseHeader
  split
  · rfl
  · split_ifs <;> simp

@[simp] theorem standing_settleErase (s : State) : s.settleErase.standing = s.standing := by
  unfold State.settleErase
  split
  · rfl
  · split_ifs <;> simp

@[simp] theorem standing_skipErase (s : State) (j : EraseJob) : (s.skipErase j).standing = s.standing := by
  unfold State.skipErase
  split <;> (try split_ifs) <;> simp

@[simp] theorem standing_skipRepairs (s : State) : s.skipRepairs.standing = s.standing := by
  unfold State.skipRepairs
  split
  · rfl
  · split_ifs
    · split
      · simp
      · dsimp only
        split
        · simp
        · split_ifs <;> simp
    · rfl

@[simp] theorem standing_settleCut (s : State) : s.settleCut.standing = s.standing := by
  unfold State.settleCut
  split <;> try rfl
  dsimp only
  split_ifs
  · split
    · simp
    · split_ifs <;> simp
  · rfl

@[simp] theorem standing_settleSpace (s : State) : s.settleSpace.standing = s.standing := by
  simp [State.settleSpace]; rfl

/-! ### The whole -/

@[simp] theorem standing_settleGroups (s : State) : s.settleGroups.standing = s.standing := by
  simp [State.settleGroups]

@[simp] theorem standing_settleRound (s : State) : s.settleRound.standing = s.standing := by
  simp [State.settleRound]

/-- Nothing that follows an event changes the standing part. -/
@[simp] theorem standing_settle (s : State) : s.settle.standing = s.standing := by
  simp [State.settle]

/-! ### The fields of the standing part -/

theorem flash_of_standing {s t : State} (h : t.standing = s.standing) : t.flash = s.flash :=
  congrArg Standing.flash h
theorem power_of_standing {s t : State} (h : t.standing = s.standing) : t.power = s.power :=
  congrArg Standing.power h
theorem pending_of_standing {s t : State} (h : t.standing = s.standing) : t.pending = s.pending :=
  congrArg Standing.pending h
theorem health_of_standing {s t : State} (h : t.standing = s.standing) : t.health = s.health :=
  congrArg Standing.health h
theorem wp_of_standing {s t : State} (h : t.standing = s.standing) : t.array.wp = s.array.wp :=
  congrArg Standing.wp h
theorem timeouts_of_standing {s t : State} (h : t.standing = s.standing) : t.array.timeouts = s.array.timeouts :=
  congrArg Standing.timeouts h
theorem uncertain_of_standing {s t : State} (h : t.standing = s.standing) : t.array.uncertain = s.array.uncertain :=
  congrArg Standing.uncertain h
theorem pfw_of_standing {s t : State} (h : t.standing = s.standing) : t.drain.pfw = s.drain.pfw :=
  congrArg Standing.pfw h
theorem exchange_of_standing {s t : State} (h : t.standing = s.standing) : t.port.exchange = s.port.exchange :=
  congrArg Standing.exchange h
theorem nextOrigin_of_standing {s t : State} (h : t.standing = s.standing) : t.queue.nextOrigin = s.queue.nextOrigin :=
  congrArg Standing.nextOrigin h
theorem nextBlockSeq_of_standing {s t : State} (h : t.standing = s.standing) : t.blocks.nextSeq = s.blocks.nextSeq :=
  congrArg Standing.nextBlockSeq h
theorem reclaimCounter_of_standing {s t : State} (h : t.standing = s.standing) : t.blocks.reclaimCounter = s.blocks.reclaimCounter :=
  congrArg Standing.reclaimCounter h
theorem settings_of_standing {s t : State} (h : t.standing = s.standing) : t.mgmt.settings = s.mgmt.settings :=
  congrArg Standing.settings h
theorem nextSettingsSeq_of_standing {s t : State} (h : t.standing = s.standing) : t.mgmt.nextSettingsSeq = s.mgmt.nextSettingsSeq :=
  congrArg Standing.nextSettingsSeq h
theorem nextSettingsSlot_of_standing {s t : State} (h : t.standing = s.standing) : t.mgmt.nextSettingsSlot = s.mgmt.nextSettingsSlot :=
  congrArg Standing.nextSettingsSlot h
theorem mask_of_standing {s t : State} (h : t.standing = s.standing) : t.mgmt.mask = s.mgmt.mask :=
  congrArg Standing.mask h
theorem edgeSpace_of_standing {s t : State} (h : t.standing = s.standing) : t.mgmt.edgeSpace = s.mgmt.edgeSpace :=
  congrArg Standing.edgeSpace h
theorem edgeWp_of_standing {s t : State} (h : t.standing = s.standing) : t.mgmt.edgeWp = s.mgmt.edgeWp :=
  congrArg Standing.edgeWp h
theorem selected_of_standing {s t : State} (h : t.standing = s.standing) : t.mgmt.selected = s.mgmt.selected :=
  congrArg Standing.selected h
theorem target_of_standing {s t : State} (h : t.standing = s.standing) : t.mgmt.target = s.mgmt.target :=
  congrArg Standing.target h

@[simp] theorem settle_flash (s : State) : s.settle.flash = s.flash := flash_of_standing (standing_settle s)
@[simp] theorem settle_power (s : State) : s.settle.power = s.power := power_of_standing (standing_settle s)
@[simp] theorem settle_pending (s : State) : s.settle.pending = s.pending := pending_of_standing (standing_settle s)
@[simp] theorem settle_health (s : State) : s.settle.health = s.health := health_of_standing (standing_settle s)
@[simp] theorem settle_wp (s : State) : s.settle.array.wp = s.array.wp := wp_of_standing (standing_settle s)
@[simp] theorem settle_timeouts (s : State) : s.settle.array.timeouts = s.array.timeouts := timeouts_of_standing (standing_settle s)
@[simp] theorem settle_uncertain (s : State) : s.settle.array.uncertain = s.array.uncertain := uncertain_of_standing (standing_settle s)
@[simp] theorem settle_pfw (s : State) : s.settle.drain.pfw = s.drain.pfw := pfw_of_standing (standing_settle s)
@[simp] theorem settle_exchange (s : State) : s.settle.port.exchange = s.port.exchange := exchange_of_standing (standing_settle s)
@[simp] theorem settle_nextOrigin (s : State) : s.settle.queue.nextOrigin = s.queue.nextOrigin := nextOrigin_of_standing (standing_settle s)
@[simp] theorem settle_nextBlockSeq (s : State) : s.settle.blocks.nextSeq = s.blocks.nextSeq := nextBlockSeq_of_standing (standing_settle s)
@[simp] theorem settle_reclaimCounter (s : State) : s.settle.blocks.reclaimCounter = s.blocks.reclaimCounter := reclaimCounter_of_standing (standing_settle s)
@[simp] theorem settle_settings (s : State) : s.settle.mgmt.settings = s.mgmt.settings := settings_of_standing (standing_settle s)
@[simp] theorem settle_nextSettingsSeq (s : State) : s.settle.mgmt.nextSettingsSeq = s.mgmt.nextSettingsSeq := nextSettingsSeq_of_standing (standing_settle s)
@[simp] theorem settle_nextSettingsSlot (s : State) : s.settle.mgmt.nextSettingsSlot = s.mgmt.nextSettingsSlot := nextSettingsSlot_of_standing (standing_settle s)
@[simp] theorem settle_mask (s : State) : s.settle.mgmt.mask = s.mgmt.mask := mask_of_standing (standing_settle s)
@[simp] theorem settle_edgeSpace (s : State) : s.settle.mgmt.edgeSpace = s.mgmt.edgeSpace := edgeSpace_of_standing (standing_settle s)
@[simp] theorem settle_edgeWp (s : State) : s.settle.mgmt.edgeWp = s.mgmt.edgeWp := edgeWp_of_standing (standing_settle s)
@[simp] theorem settle_selected (s : State) : s.settle.mgmt.selected = s.mgmt.selected := selected_of_standing (standing_settle s)
@[simp] theorem settle_target (s : State) : s.settle.mgmt.target = s.mgmt.target := target_of_standing (standing_settle s)

end Sys2Proof.Machine
end

