-- ==== Sys2Proof/Laws/Calm.lean ====
section
/-! SUPPORT. What follows an event that leads to a calm state: dead groups are freed, the request at the port moves, the
SPACE_LOW status follows its causes; at rest nothing follows. -/

namespace Sys2Proof.Machine

/-- Freeing entries does not raise the number of COMMITTED ones. -/
theorem length_filter_mapIdx_le (p : RegEntry → Bool) (f : Nat → RegEntry → RegEntry) (l : List RegEntry)
    (hf : ∀ i e, p (f i e) = true → p e = true) : ((l.mapIdx f).filter p).length ≤ (l.filter p).length := by
  induction l generalizing f with
  | nil => simp
  | cons e l ih =>
    have h := ih (fun i => f (i + 1)) fun i e => hf (i + 1) e
    simp only [List.mapIdx_cons, List.filter_cons]
    by_cases h0 : p (f 0 e) = true
    · have := hf 0 e h0
      simp [h0, this]; exact h
    · by_cases he : p e = true
      · simp [h0, he]; omega
      · simp [h0, he]; exact h

/-- Freeing dead groups keeps a state calm. -/
theorem calm_freeDeadGroups (s : State) (h : s.calm = true) : s.freeDeadGroups.calm = true := by
  have hc : s.freeDeadGroups.committedCount ≤ s.committedCount := by
    refine length_filter_mapIdx_le _ _ _ ?_
    intro i e he
    cases e with
    | committed w g x => rfl
    | free => exact he
    | reserved w g => exact he
  simp only [State.calm, Bool.and_eq_true, decide_eq_true_eq] at h ⊢
  obtain ⟨⟨⟨⟨⟨⟨⟨⟨⟨⟨h1, h2⟩, h3⟩, h4⟩, h5⟩, h6⟩, h7⟩, h8⟩, h9⟩, h10⟩, h11⟩ := h
  exact ⟨⟨⟨⟨⟨⟨⟨⟨⟨⟨h1, h2⟩, h3⟩, h4⟩, h5⟩, h6⟩, h7⟩, le_trans hc h8⟩, h9⟩, h10⟩, h11⟩

/-- Outside HALTED a piece is as the read path resolves it (R14, R38). -/
theorem servePiece_of_mode (s : State) (p : Piece) (h : s.mgmt.mode ≠ .halted) : s.servePiece p = s.resolvePiece p := by
  simp [State.servePiece, h]

/-- A forwarded piece is served OK from its entry in every mode (R15, R38, R39). -/
theorem servePiece_forwarded (s : State) (p : Piece) (e : LineEntry) (h : s.newestUsable (s.lineOf p) = some e) :
    s.servePiece p = p.ended (p.bytesOf e.image) none := by
  simp [State.servePiece, State.resolvePiece, h]

/-- In HALTED a piece that is not forwarded ends with fill bytes and FLASH_LOST (R15). -/
theorem servePiece_lost (s : State) (p : Piece) (h : s.mgmt.mode = .halted) (hn : s.newestUsable (s.lineOf p) = none) :
    s.servePiece p = p.ended (s.fillBytes p.length) (some .flashLost) := by
  simp only [State.servePiece, State.resolvePiece, hn, h, and_self, if_true]
  cases (s.entry (s.lineOf p)).current <;> rfl

/-- In HALTED every piece is served at once (R15): no flash is needed. -/
theorem servePiece_halted (s : State) (p : Piece) (h : s.mgmt.mode = .halted) : (s.servePiece p).result.isSome = true := by
  cases hn : s.newestUsable (s.lineOf p) with
  | none => rw [servePiece_lost s p h hn]; rfl
  | some e => rw [servePiece_forwarded s p e hn]; rfl

/-- A calm state takes no degrade condition. -/
theorem degrade_of_calm (s : State) (h : s.calm = true) : s.degrade = s := by
  simp only [State.calm, Bool.and_eq_true, decide_eq_true_eq] at h
  obtain ⟨⟨⟨⟨⟨⟨⟨⟨⟨⟨h1, h2⟩, h3⟩, h4⟩, h5⟩, h6⟩, h7⟩, h8⟩, h9⟩, h10⟩, h11⟩ := h
  unfold State.degrade
  split_ifs with hd
  · simp only [hd, Bool.not_true, Bool.false_or] at h2
    split <;> simp_all [Mode.settled]
  · rfl

/-- A list in which no entry passes a test yields none. -/
theorem foldl_awaiting_none (s : State) (ws : List Nat) (h : ∀ w ∈ ws, (s.window w).awaiting = false) :
    ws.foldl (fun acc w =>
      if (s.window w).awaiting then
        match acc with
        | none => some w
        | some v => if (s.window w).group.getD 0 < (s.window v).group.getD 0 then some w else acc
      else acc) none = none := by
  induction ws with
  | nil => rfl
  | cons w ws ih =>
    have hw := h w (by simp)
    simp only [List.foldl_cons, hw]
    exact ih fun v hv => h v (by simp [hv])

/-- A register entry is offered to nobody while no window awaits one. -/
theorem offerRegister_of_none (s : State) (h : ∀ w ∈ List.range Config.windowCount, (s.window w).awaiting = false) :
    s.offerRegister = s := by
  have hn : s.nextAwaiting = none := foldl_awaiting_none s _ h
  unfold State.offerRegister
  rw [hn]
  cases s.freeRegister <;> rfl

/-- No window of a calm state awaits a register entry. -/
theorem calm_awaiting (s : State) (h : s.calm = true) :
    ∀ w ∈ List.range Config.windowCount, (s.window w).awaiting = false := by
  simp only [State.calm, Bool.and_eq_true, decide_eq_true_eq] at h
  obtain ⟨⟨⟨⟨⟨⟨⟨⟨⟨⟨h1, h2⟩, h3⟩, h4⟩, h5⟩, h6⟩, h7⟩, h8⟩, h9⟩, h10⟩, h11⟩ := h
  intro w hw
  have := List.all_eq_true.mp h3 w hw
  simpa using this

/-- In a calm state the register is only freed of dead groups. -/
theorem settleGroups_of_calm (s : State) (h : s.calm = true) : s.settleGroups = s.freeDeadGroups := by
  have ho := offerRegister_of_none s.freeDeadGroups (calm_awaiting _ (calm_freeDeadGroups s h))
  simp [State.settleGroups, ho]

/-- No drain goes on in a calm state. -/
theorem drainStep_of_calm (s : State) (h : s.calm = true) : s.drainStep = s := by
  simp only [State.calm, Bool.and_eq_true, decide_eq_true_eq] at h
  obtain ⟨⟨⟨⟨⟨⟨⟨⟨⟨⟨h1, h2⟩, h3⟩, h4⟩, h5⟩, h6⟩, h7⟩, h8⟩, h9⟩, h10⟩, h11⟩ := h
  have hd : ¬(s.mgmt.mode = .drain ∧ s.drain.phase = .draining) := by
    rintro ⟨ha, hb⟩
    simp [ha, hb] at h4
  unfold State.drainStep
  rw [if_neg hd]

/-- One round of reactions from a calm state. -/
theorem settleRound_of_calm (s : State) (h : s.calm = true) : s.settleRound = s.freeDeadGroups.portStep := by
  rw [State.settleRound, degrade_of_calm s h, settleGroups_of_calm s h, drainStep_of_calm _ (calm_freeDeadGroups s h)]

/-- The reactions of the block manager, the array port, mount and WIPE do nothing in a calm state. -/
theorem rest_of_calm (s : State) (h : s.calm = true) :
    (((s.startReclaimErase.updateRelease).releaseHeader.settleErase).skipRepairs).settleCut = s := by
  have ha := calm_awaiting s h
  simp only [State.calm, Bool.and_eq_true, decide_eq_true_eq] at h
  obtain ⟨⟨⟨⟨⟨⟨⟨⟨⟨⟨h1, h2⟩, h3⟩, h4⟩, h5⟩, h6⟩, h7⟩, h8⟩, h9⟩, h10⟩, h11⟩ := h
  have e1 : s.startReclaimErase = s := by unfold State.startReclaimErase; rw [h5]
  have e2 : s.updateRelease = s := by
    have hp : ((List.range Config.windowCount).any fun w => (s.window w).awaiting) = false := by
      rw [List.any_eq_false]; intro w hw; simp [ha w hw]
    have hw : s.releaseWanted = none := by
      unfold State.releaseWanted
      simp only [hp, Bool.false_or]
      have : ¬ (Config.releaseThreshold < s.committedCount) := by omega
      simp [this]
    unfold State.updateRelease
    rw [hw, h7]
    obtain ⟨p, f, po, t, q, bl, ar, wi, mo, dr, he, mg, pe⟩ := s
    simp only at h7 h9
    obtain ⟨ws, sh, re, ng, rl⟩ := wi
    obtain ⟨b1, b2, b3, b4, b5, b6, b7, b8, b9, b10, b11⟩ := bl
    simp only at h7 h9
    subst h7 h9
    rfl
  have e3 : s.releaseHeader = s := by unfold State.releaseHeader; rw [h6]
  have e4 : s.settleErase = s := by unfold State.settleErase; rw [h6]
  have e5 : s.skipRepairs = s := by unfold State.skipRepairs; rw [h10]
  have e6 : s.settleCut = s := by
    unfold State.settleCut
    unfold State.wipeCut at h11
    split <;> simp_all
  rw [e1, e2, e3, e4, e5, e6]

/-- What follows an event that leads to a calm state `s`, when its two rounds of reactions keep it calm. -/
theorem settle_of_calm (s : State) (h : s.calm = true) (h1 : s.freeDeadGroups.portStep.calm = true)
    (h2 : s.freeDeadGroups.portStep.freeDeadGroups.portStep.calm = true) :
    s.settle = s.freeDeadGroups.portStep.freeDeadGroups.portStep.settleSpace := by
  unfold State.settle
  dsimp only
  rw [settleRound_of_calm s h, settleRound_of_calm _ h1, rest_of_calm _ h2]

/-- Freeing dead groups twice is freeing them once. -/
theorem freeDeadGroups_twice (s : State) : s.freeDeadGroups.freeDeadGroups = s.freeDeadGroups := by
  have hl : ∀ i, s.freeDeadGroups.liveTagged i = s.liveTagged i := fun i => rfl
  unfold State.freeDeadGroups at hl ⊢
  simp only [hl, List.mapIdx_mapIdx]
  congr 2
  apply List.mapIdx_eq_mapIdx_iff.mpr
  intro i hi
  simp only [Function.comp]
  cases s.windows.register[i] with
  | committed w g x => simp only; split_ifs <;> simp_all
  | free => rfl
  | reserved w g => rfl

/-- The port does nothing without a request. -/
theorem portStep_of_none (s : State) (h : s.port.request = none) : s.portStep = s := by
  unfold State.portStep; rw [h]

/-- What follows an event that leads to a calm state with no request at the port. -/
theorem settle_of_calm_idle (s : State) (h : s.calm = true) (hr : s.port.request = none) :
    s.settle = s.freeDeadGroups.settleSpace := by
  have hp := portStep_of_none s.freeDeadGroups hr
  have hc := calm_freeDeadGroups s h
  rw [settle_of_calm s h (by rw [hp]; exact hc) (by rw [hp, freeDeadGroups_twice, hp]; exact hc), hp,
    freeDeadGroups_twice, hp]

/-- At rest nothing follows. -/
theorem settle_of_atRest (s : State) (h : s.atRest = true) : s.settle = s := by
  simp only [State.atRest, Bool.and_eq_true, decide_eq_true_eq] at h
  obtain ⟨⟨⟨⟨hc, hr⟩, _⟩, hd⟩, hs⟩ := h
  rw [settle_of_calm_idle s hc hr, hd]
  have hn : s.spaceLowNow = s.mgmt.spaceLow := by
    simp [State.spaceLowNow, State.writeStalled, hr, hs]
  have he : ∀ (t : State) (b : Bool), t.edge t.mgmt.edgeSpace .spaceLow b b = t := by
    intro t b
    unfold State.edge
    cases b <;> simp
  have hu : { s with mgmt := { s.mgmt with spaceLow := s.mgmt.spaceLow } } = s := rfl
  unfold State.settleSpace
  dsimp only
  rw [hn, hu, he s s.mgmt.spaceLow]

/-- Calmness looks at the management unit only for the mode and a cut WIPE, and not at all at the health counter, the
flash and the commands that wait. -/
theorem calm_of_mgmt (s : State) (m : Mgmt) (hl : Health) (hm : m.mode = s.mgmt.mode)
    (hw : { s with mgmt := m, health := hl }.wipeCut = false) (h : s.calm = true) :
    { s with mgmt := m, health := hl }.calm = true := by
  simp only [State.calm, Bool.and_eq_true, decide_eq_true_eq] at h ⊢
  obtain ⟨⟨⟨⟨⟨⟨⟨⟨⟨⟨h1, h2⟩, h3⟩, h4⟩, h5⟩, h6⟩, h7⟩, h8⟩, h9⟩, h10⟩, h11⟩ := h
  refine ⟨⟨⟨⟨⟨⟨⟨⟨⟨⟨h1, ?_⟩, h3⟩, ?_⟩, h5⟩, h6⟩, h7⟩, h8⟩, h9⟩, h10⟩, ?_⟩
  · rw [hm]; exact h2
  · rw [hm]; exact h4
  · simp [hw]

/-- A state at rest stays so when the management unit changes in anything but the mode, the SPACE_LOW status and a cut
WIPE, and when the health counter changes. -/
theorem atRest_of_mgmt (s : State) (m : Mgmt) (hl : Health) (hm : m.mode = s.mgmt.mode)
    (hs : m.spaceLow = s.mgmt.spaceLow) (hw : { s with mgmt := m, health := hl }.wipeCut = false)
    (h : s.atRest = true) : { s with mgmt := m, health := hl }.atRest = true := by
  simp only [State.atRest, Bool.and_eq_true, decide_eq_true_eq] at h ⊢
  obtain ⟨⟨⟨⟨hc, hr⟩, hi⟩, hd⟩, hp⟩ := h
  refine ⟨⟨⟨⟨calm_of_mgmt s m hl hm hw hc, hr⟩, hi⟩, ?_⟩, ?_⟩
  · have : ({ s with mgmt := m, health := hl } : State).freeDeadGroups
        = { s.freeDeadGroups with mgmt := m, health := hl } := rfl
    rw [this, hd]
  · have : ({ s with mgmt := m, health := hl } : State).headStalled = s.headStalled := by
      show (m.mode.working && s.headReady && s.nextSlot.isNone && decide (s.erasedCount < Config.hostGate)) = _
      rw [hm]; rfl
    rw [this]
    show m.spaceLow = s.headStalled
    rw [hs, hp]

/-- Power is on in a state at rest. -/
theorem atRest_power (s : State) (h : s.atRest = true) : s.power = .on := by
  simp only [State.atRest, State.calm, Bool.and_eq_true, decide_eq_true_eq] at h
  exact h.1.1.1.1.1.1.1.1.1.1.1.1.1.1

/-- An event taken with power on has its effect and what follows it. -/
theorem taken_on (s : State) (f : State → State) (h : s.power = .on) : s.taken f = .next (f s).settle := by
  unfold State.taken; rw [h]

/-- An event that leads to a state at rest answers that state. -/
theorem taken_of_atRest (s : State) (f : State → State) (h : s.power = .on) (hr : (f s).atRest = true) :
    s.taken f = .next (f s) := by
  rw [taken_on s f h, settle_of_atRest _ hr]

/-- A code that is taken runs its body with COMMAND selected (R174, R176). -/
theorem command_of_takes (s : State) (c : Code) (body : State → State) (h : s.takes c = true) :
    s.command c body = body (s.select 2) := by
  simp only [State.takes, Bool.and_eq_true] at h
  obtain ⟨⟨_, ha⟩, ht⟩ := h
  have ha' : (s.select 2).activity = none := by
    have : (s.select 2).activity = s.activity := rfl
    rw [this]; simpa using ha
  have ht' : c.takenIn (s.select 2).mgmt.mode = true := ht
  unfold State.command
  simp only [ha', ht', if_true]

/-- A code that is taken answers what its body makes of the state, with what follows at once. -/
theorem taken_command (s : State) (c : Code) (body : State → State) (h : s.takes c = true) :
    s.taken (fun s => s.command c body) = .next (body (s.select 2)).settle := by
  have hb := command_of_takes s c body h
  simp only [State.takes, Bool.and_eq_true, decide_eq_true_eq] at h
  rw [taken_on s _ h.1.1, hb]

/-- A command in progress that is not a cut WIPE. -/
theorem wipeCut_of_zero (s : State) (h : s.mgmt.command = .zero) : s.wipeCut = false := by
  unfold State.wipeCut; rw [h]

/-- A command's completion leaves a state at rest (R176). -/
theorem atRest_complete (s : State) (r : Ret) (bs : List Byte) (h : s.atRest = true) :
    (s.complete r bs).atRest = true := atRest_of_mgmt s _ s.health rfl rfl rfl h

/-- Selecting an item leaves a state at rest. -/
theorem atRest_select (s : State) (n : Nat) (h : s.atRest = true) : (s.select n).atRest = true := by
  refine atRest_of_mgmt s _ s.health rfl rfl ?_ h
  have : s.wipeCut = false := by
    simp only [State.atRest, State.calm, Bool.and_eq_true] at h
    simpa using h.1.1.1.1.2
  exact this

/-- Nothing is abandoned when no read is in flight for the request. -/
theorem abandonRead_of_none (s : State) (h : s.readInFlight = false) : s.abandonRead = s := by
  obtain ⟨po, fl, pt, tb, qu, bl, ⟨op, er, ti, un, wp⟩, wi, mo, dr, he, mg, pe⟩ := s
  cases op with
  | none => rfl
  | some o =>
    obtain ⟨pu, b, of, l, by_, ru, sw, ab⟩ := o
    cases pu <;> first | rfl | (simp [State.readInFlight] at h; subst h; rfl)

/-- What follows when a state at rest is given a port state that the port brings to a stand in one move. -/
theorem settle_of_port (s u : State) (p : Port) (h : s.atRest = true)
    (hp : ({ s with port := p } : State).portStep = u) (hc : u.calm = true) (hd : u.freeDeadGroups = u)
    (hu : u.portStep = u) (hs : u.spaceLowNow = u.mgmt.spaceLow) : ({ s with port := p } : State).settle = u := by
  simp only [State.atRest, Bool.and_eq_true, decide_eq_true_eq] at h
  obtain ⟨⟨⟨⟨hcs, _⟩, _⟩, hds⟩, _⟩ := h
  have hf : ({ s with port := p } : State).freeDeadGroups = { s with port := p } := by
    have : ({ s with port := p } : State).freeDeadGroups = { s.freeDeadGroups with port := p } := rfl
    rw [this, hds]
  have hcs' : ({ s with port := p } : State).calm = true := hcs
  rw [settle_of_calm _ hcs' (by rw [hf, hp]; exact hc) (by rw [hf, hp, hd, hu]; exact hc), hf, hp, hd, hu]
  have he : ∀ (t : State) (b : Bool), t.edge t.mgmt.edgeSpace .spaceLow b b = t := by
    intro t b
    unfold State.edge
    cases b <;> simp
  have hu' : { u with mgmt := { u.mgmt with spaceLow := u.mgmt.spaceLow } } = u := rfl
  unfold State.settleSpace
  dsimp only
  rw [hs, hu', he u u.mgmt.spaceLow]

/-- The parts of a state at rest. -/
theorem atRest_parts (s : State) (h : s.atRest = true) :
    s.calm = true ∧ s.port.request = none ∧ s.readInFlight = false ∧ s.freeDeadGroups = s
      ∧ s.mgmt.spaceLow = s.headStalled := by
  simp only [State.atRest, Bool.and_eq_true, decide_eq_true_eq] at h
  obtain ⟨⟨⟨⟨h1, h2⟩, h3⟩, h4⟩, h5⟩ := h
  exact ⟨h1, h2, by simpa using h3, h4, h5⟩

/-- A response given leads a state at rest, apart from its request, back to rest. -/
theorem settle_of_answer (s u : State) (p : Port) (h : s.atRest = true)
    (hp : ({ s with port := p } : State).portStep = u) (hu : u.atRest = true) :
    ({ s with port := p } : State).settle = u := by
  obtain ⟨hc, hr, _, hd, hs⟩ := atRest_parts u hu
  refine settle_of_port s u p h hp hc hd (portStep_of_none u hr) ?_
  simp [State.spaceLowNow, State.writeStalled, hr, hs]

end Sys2Proof.Machine
end

