-- ==== Sys2Proof/Laws/Frames.lean ====
section
/-! SUPPORT. Which parts of the state the reactions leave alone: those of the group register (R130, R132), and those of the
block manager, the array port, mount, WIPE and SPACE_LOW, which follow the port. -/

namespace Sys2Proof.Machine

/-! ### The group register -/

@[simp] theorem freeDeadGroups_table (s : State) : s.freeDeadGroups.table = s.table := rfl
@[simp] theorem freeDeadGroups_port (s : State) : s.freeDeadGroups.port = s.port := rfl
@[simp] theorem freeDeadGroups_blocks (s : State) : s.freeDeadGroups.blocks = s.blocks := rfl
@[simp] theorem freeDeadGroups_array (s : State) : s.freeDeadGroups.array = s.array := rfl
@[simp] theorem freeDeadGroups_mount (s : State) : s.freeDeadGroups.mount = s.mount := rfl
@[simp] theorem freeDeadGroups_drain (s : State) : s.freeDeadGroups.drain = s.drain := rfl
@[simp] theorem freeDeadGroups_mgmt (s : State) : s.freeDeadGroups.mgmt = s.mgmt := rfl
@[simp] theorem freeDeadGroups_health (s : State) : s.freeDeadGroups.health = s.health := rfl
@[simp] theorem freeDeadGroups_power (s : State) : s.freeDeadGroups.power = s.power := rfl
@[simp] theorem freeDeadGroups_flash (s : State) : s.freeDeadGroups.flash = s.flash := rfl
@[simp] theorem freeDeadGroups_pending (s : State) : s.freeDeadGroups.pending = s.pending := rfl
@[simp] theorem freeDeadGroups_queue (s : State) : s.freeDeadGroups.queue = s.queue := rfl
@[simp] theorem offerRegister_table (s : State) : s.offerRegister.table = s.table := by
  unfold State.offerRegister State.reserve State.askCommit
  split
  · dsimp only; split_ifs <;> rfl
  all_goals rfl
@[simp] theorem offerRegister_port (s : State) : s.offerRegister.port = s.port := by
  unfold State.offerRegister State.reserve State.askCommit
  split
  · dsimp only; split_ifs <;> rfl
  all_goals rfl
@[simp] theorem offerRegister_blocks (s : State) : s.offerRegister.blocks = s.blocks := by
  unfold State.offerRegister State.reserve State.askCommit
  split
  · dsimp only; split_ifs <;> rfl
  all_goals rfl
@[simp] theorem offerRegister_array (s : State) : s.offerRegister.array = s.array := by
  unfold State.offerRegister State.reserve State.askCommit
  split
  · dsimp only; split_ifs <;> rfl
  all_goals rfl
@[simp] theorem offerRegister_mount (s : State) : s.offerRegister.mount = s.mount := by
  unfold State.offerRegister State.reserve State.askCommit
  split
  · dsimp only; split_ifs <;> rfl
  all_goals rfl
@[simp] theorem offerRegister_drain (s : State) : s.offerRegister.drain = s.drain := by
  unfold State.offerRegister State.reserve State.askCommit
  split
  · dsimp only; split_ifs <;> rfl
  all_goals rfl
@[simp] theorem offerRegister_mgmt (s : State) : s.offerRegister.mgmt = s.mgmt := by
  unfold State.offerRegister State.reserve State.askCommit
  split
  · dsimp only; split_ifs <;> rfl
  all_goals rfl
@[simp] theorem offerRegister_health (s : State) : s.offerRegister.health = s.health := by
  unfold State.offerRegister State.reserve State.askCommit
  split
  · dsimp only; split_ifs <;> rfl
  all_goals rfl
@[simp] theorem offerRegister_power (s : State) : s.offerRegister.power = s.power := by
  unfold State.offerRegister State.reserve State.askCommit
  split
  · dsimp only; split_ifs <;> rfl
  all_goals rfl
@[simp] theorem offerRegister_flash (s : State) : s.offerRegister.flash = s.flash := by
  unfold State.offerRegister State.reserve State.askCommit
  split
  · dsimp only; split_ifs <;> rfl
  all_goals rfl
@[simp] theorem offerRegister_pending (s : State) : s.offerRegister.pending = s.pending := by
  unfold State.offerRegister State.reserve State.askCommit
  split
  · dsimp only; split_ifs <;> rfl
  all_goals rfl
@[simp] theorem settleGroups_table (s : State) : s.settleGroups.table = s.table := by simp [State.settleGroups]
@[simp] theorem settleGroups_port (s : State) : s.settleGroups.port = s.port := by simp [State.settleGroups]
@[simp] theorem settleGroups_blocks (s : State) : s.settleGroups.blocks = s.blocks := by simp [State.settleGroups]
@[simp] theorem settleGroups_array (s : State) : s.settleGroups.array = s.array := by simp [State.settleGroups]
@[simp] theorem settleGroups_mount (s : State) : s.settleGroups.mount = s.mount := by simp [State.settleGroups]
@[simp] theorem settleGroups_drain (s : State) : s.settleGroups.drain = s.drain := by simp [State.settleGroups]
@[simp] theorem settleGroups_mgmt (s : State) : s.settleGroups.mgmt = s.mgmt := by simp [State.settleGroups]
@[simp] theorem settleGroups_health (s : State) : s.settleGroups.health = s.health := by simp [State.settleGroups]
@[simp] theorem settleGroups_power (s : State) : s.settleGroups.power = s.power := by simp [State.settleGroups]
@[simp] theorem settleGroups_flash (s : State) : s.settleGroups.flash = s.flash := by simp [State.settleGroups]
@[simp] theorem settleGroups_pending (s : State) : s.settleGroups.pending = s.pending := by simp [State.settleGroups]

/-! ### The reactions that follow the port -/

/-- The reactions of settle after its two rounds. -/
def State.settleTail (s : State) : State :=
  (((s.startReclaimErase.updateRelease).releaseHeader.settleErase).skipRepairs.settleCut).settleSpace

/-- The reactions are two rounds and the tail. -/
theorem settle_eq (s : State) : s.settle = s.settleRound.settleRound.settleTail := rfl

@[simp] theorem startReclaimErase_table (s : State) : s.startReclaimErase.table = s.table := by
  unfold State.startReclaimErase
  split
  · dsimp only
    split_ifs
    · simp only [setErase_table]
      split
      · split_ifs <;> rfl
      · rfl
    · rfl
  all_goals rfl
@[simp] theorem updateRelease_table (s : State) : s.updateRelease.table = s.table := rfl
@[simp] theorem releaseHeader_table (s : State) : s.releaseHeader.table = s.table := by
  unfold State.releaseHeader
  split
  · rfl
  · split_ifs <;> rfl
@[simp] theorem settleErase_table (s : State) : s.settleErase.table = s.table := by
  unfold State.settleErase
  split
  · rfl
  · split_ifs <;> rfl
@[simp] theorem reportFault_table (s : State) (r : FaultReport) : (s.reportFault r).table = s.table := by
  unfold State.reportFault; split <;> rfl
@[simp] theorem edge_table (s : State) (sel : EdgeSel) (e : Event) (a b : Bool) : (s.edge sel e a b).table = s.table := by
  unfold State.edge; split_ifs <;> rfl
@[simp] theorem endReclaim_table (s : State) (b : Nat) : (s.endReclaim b).table = s.table := by
  unfold State.endReclaim; split_ifs <;> rfl
@[simp] theorem retireErased_table (s : State) (j : EraseJob) : (s.retireErased j).table = s.table := by
  unfold State.retireErased State.reportRetired; dsimp only
  cases j.owner <;> simp [State.setBlock]
@[simp] theorem skipErase_table (s : State) (j : EraseJob) : (s.skipErase j).table = s.table := by
  unfold State.skipErase
  split <;> (try split_ifs) <;> simp
@[simp] theorem skipRepairs_table (s : State) : s.skipRepairs.table = s.table := by
  unfold State.skipRepairs
  split
  · rfl
  · split_ifs
    · split
      · rfl
      · dsimp only
        split
        · simp
        · split_ifs <;> simp
    · rfl
@[simp] theorem settleCut_table (s : State) : s.settleCut.table = s.table := by
  unfold State.settleCut
  split <;> try rfl
  dsimp only
  split_ifs
  · split
    · rfl
    · split_ifs
      · exact retireErased_table s _
      · rfl
  · rfl
@[simp] theorem settleSpace_table (s : State) : s.settleSpace.table = s.table := by
  unfold State.settleSpace; simp
@[simp] theorem settleTail_table (s : State) : s.settleTail.table = s.table := by
  simp [State.settleTail]

@[simp] theorem startReclaimErase_queue (s : State) : s.startReclaimErase.queue = s.queue := by
  unfold State.startReclaimErase
  split
  · dsimp only
    split_ifs
    · simp only [setErase_queue]
      split
      · split_ifs <;> rfl
      · rfl
    · rfl
  all_goals rfl
@[simp] theorem updateRelease_queue (s : State) : s.updateRelease.queue = s.queue := rfl
@[simp] theorem releaseHeader_queue (s : State) : s.releaseHeader.queue = s.queue := by
  unfold State.releaseHeader
  split
  · rfl
  · split_ifs <;> rfl
@[simp] theorem settleErase_queue (s : State) : s.settleErase.queue = s.queue := by
  unfold State.settleErase
  split
  · rfl
  · split_ifs <;> rfl
@[simp] theorem reportFault_queue (s : State) (r : FaultReport) : (s.reportFault r).queue = s.queue := by
  unfold State.reportFault; split <;> rfl
@[simp] theorem edge_queue (s : State) (sel : EdgeSel) (e : Event) (a b : Bool) : (s.edge sel e a b).queue = s.queue := by
  unfold State.edge; split_ifs <;> rfl
@[simp] theorem endReclaim_queue (s : State) (b : Nat) : (s.endReclaim b).queue = s.queue := by
  unfold State.endReclaim; split_ifs <;> rfl
@[simp] theorem retireErased_queue (s : State) (j : EraseJob) : (s.retireErased j).queue = s.queue := by
  unfold State.retireErased State.reportRetired; dsimp only
  cases j.owner <;> simp [State.setBlock]
@[simp] theorem skipErase_queue (s : State) (j : EraseJob) : (s.skipErase j).queue = s.queue := by
  unfold State.skipErase
  split <;> (try split_ifs) <;> simp
@[simp] theorem skipRepairs_queue (s : State) : s.skipRepairs.queue = s.queue := by
  unfold State.skipRepairs
  split
  · rfl
  · split_ifs
    · split
      · rfl
      · dsimp only
        split
        · simp
        · split_ifs <;> simp
    · rfl
@[simp] theorem settleCut_queue (s : State) : s.settleCut.queue = s.queue := by
  unfold State.settleCut
  split <;> try rfl
  dsimp only
  split_ifs
  · split
    · rfl
    · split_ifs
      · exact retireErased_queue s _
      · rfl
  · rfl
@[simp] theorem settleSpace_queue (s : State) : s.settleSpace.queue = s.queue := by
  unfold State.settleSpace; simp
@[simp] theorem settleTail_queue (s : State) : s.settleTail.queue = s.queue := by
  simp [State.settleTail]

@[simp] theorem startReclaimErase_port (s : State) : s.startReclaimErase.port = s.port := by
  unfold State.startReclaimErase
  split
  · dsimp only
    split_ifs
    · simp only [setErase_port]
      split
      · split_ifs <;> rfl
      · rfl
    · rfl
  all_goals rfl
@[simp] theorem updateRelease_port (s : State) : s.updateRelease.port = s.port := rfl
@[simp] theorem releaseHeader_port (s : State) : s.releaseHeader.port = s.port := by
  unfold State.releaseHeader
  split
  · rfl
  · split_ifs <;> rfl
@[simp] theorem settleErase_port (s : State) : s.settleErase.port = s.port := by
  unfold State.settleErase
  split
  · rfl
  · split_ifs <;> rfl
@[simp] theorem reportFault_port (s : State) (r : FaultReport) : (s.reportFault r).port = s.port := by
  unfold State.reportFault; split <;> rfl
@[simp] theorem edge_port (s : State) (sel : EdgeSel) (e : Event) (a b : Bool) : (s.edge sel e a b).port = s.port := by
  unfold State.edge; split_ifs <;> rfl
@[simp] theorem endReclaim_port (s : State) (b : Nat) : (s.endReclaim b).port = s.port := by
  unfold State.endReclaim; split_ifs <;> rfl
@[simp] theorem retireErased_port (s : State) (j : EraseJob) : (s.retireErased j).port = s.port := by
  unfold State.retireErased State.reportRetired; dsimp only
  cases j.owner <;> simp [State.setBlock]
@[simp] theorem skipErase_port (s : State) (j : EraseJob) : (s.skipErase j).port = s.port := by
  unfold State.skipErase
  split <;> (try split_ifs) <;> simp
@[simp] theorem skipRepairs_port (s : State) : s.skipRepairs.port = s.port := by
  unfold State.skipRepairs
  split
  · rfl
  · split_ifs
    · split
      · rfl
      · dsimp only
        split
        · simp
        · split_ifs <;> simp
    · rfl
@[simp] theorem settleCut_port (s : State) : s.settleCut.port = s.port := by
  unfold State.settleCut
  split <;> try rfl
  dsimp only
  split_ifs
  · split
    · rfl
    · split_ifs
      · exact retireErased_port s _
      · rfl
  · rfl
@[simp] theorem settleSpace_port (s : State) : s.settleSpace.port = s.port := by
  unfold State.settleSpace; simp
@[simp] theorem settleTail_port (s : State) : s.settleTail.port = s.port := by
  simp [State.settleTail]

@[simp] theorem startReclaimErase_drain (s : State) : s.startReclaimErase.drain = s.drain := by
  unfold State.startReclaimErase
  split
  · dsimp only
    split_ifs
    · simp only [setErase_drain]
      split
      · split_ifs <;> rfl
      · rfl
    · rfl
  all_goals rfl
@[simp] theorem updateRelease_drain (s : State) : s.updateRelease.drain = s.drain := rfl
@[simp] theorem releaseHeader_drain (s : State) : s.releaseHeader.drain = s.drain := by
  unfold State.releaseHeader
  split
  · rfl
  · split_ifs <;> rfl
@[simp] theorem settleErase_drain (s : State) : s.settleErase.drain = s.drain := by
  unfold State.settleErase
  split
  · rfl
  · split_ifs <;> rfl
@[simp] theorem reportFault_drain (s : State) (r : FaultReport) : (s.reportFault r).drain = s.drain := by
  unfold State.reportFault; split <;> rfl
@[simp] theorem edge_drain (s : State) (sel : EdgeSel) (e : Event) (a b : Bool) : (s.edge sel e a b).drain = s.drain := by
  unfold State.edge; split_ifs <;> rfl
@[simp] theorem endReclaim_drain (s : State) (b : Nat) : (s.endReclaim b).drain = s.drain := by
  unfold State.endReclaim; split_ifs <;> rfl
@[simp] theorem retireErased_drain (s : State) (j : EraseJob) : (s.retireErased j).drain = s.drain := by
  unfold State.retireErased State.reportRetired; dsimp only
  cases j.owner <;> simp [State.setBlock]
@[simp] theorem skipErase_drain (s : State) (j : EraseJob) : (s.skipErase j).drain = s.drain := by
  unfold State.skipErase
  split <;> (try split_ifs) <;> simp
@[simp] theorem skipRepairs_drain (s : State) : s.skipRepairs.drain = s.drain := by
  unfold State.skipRepairs
  split
  · rfl
  · split_ifs
    · split
      · rfl
      · dsimp only
        split
        · simp
        · split_ifs <;> simp
    · rfl
@[simp] theorem settleCut_drain (s : State) : s.settleCut.drain = s.drain := by
  unfold State.settleCut
  split <;> try rfl
  dsimp only
  split_ifs
  · split
    · rfl
    · split_ifs
      · exact retireErased_drain s _
      · rfl
  · rfl
@[simp] theorem settleSpace_drain (s : State) : s.settleSpace.drain = s.drain := by
  unfold State.settleSpace; simp
@[simp] theorem settleTail_drain (s : State) : s.settleTail.drain = s.drain := by
  simp [State.settleTail]

/-! ### Rounds outside RUN and DRAIN -/

/-- No degrade condition and no drain in MOUNT, READONLY, SERVICE and HALTED: a round frees and offers register entries and
moves the request at the port. -/
theorem settleRound_of_settled (s : State) (h : s.mgmt.mode.settled = true) :
    s.settleRound = s.settleGroups.portStep := by
  have hd : s.degrade = s := by
    unfold State.degrade
    split_ifs
    · split <;> simp_all [Mode.settled]
    · rfl
  have hm : ¬(s.settleGroups.mgmt.mode = .drain ∧ s.settleGroups.drain.phase = .draining) := by
    rw [settleGroups_mgmt]
    rintro ⟨ha, _⟩
    rw [ha] at h
    simp [Mode.settled] at h
  have hs : s.settleGroups.drainStep = s.settleGroups := by
    unfold State.drainStep
    rw [if_neg hm]
  rw [State.settleRound, hd, hs]

/-! ### The port whose request no event takes up afresh -/

@[simp] theorem revertWindow_port (s : State) (w : Nat) : (s.revertWindow w).port = s.port := by
  have key : ∀ (xs : List ShadowEntry) (s : State), (xs.foldl State.revert s).port = s.port := by
    intro xs
    induction xs with
    | nil => intro s; rfl
    | cons x xs ih =>
      intro s
      rw [List.foldl_cons, ih]
      unfold State.revert; dsimp only; split_ifs <;> rfl
  exact key _ s

@[simp] theorem freeRegisterOf_port (s : State) (x : Window) : (s.freeRegisterOf x).port = s.port := by
  unfold State.freeRegisterOf; split <;> rfl

/-- No request of the port waits in the checking phase: no event takes one up afresh (R13). -/
def Port.unwoken (p : Port) : Prop := ∀ r, p.request = some r → r.phase ≠ .checking

theorem Port.unwoken_of_none (p : Port) (h : p.request = none) : p.unwoken := by
  intro r hr; rw [h] at hr; cases hr

theorem Port.unwoken_of_eq {p q : Port} (e : q = p) (h : p.unwoken) : q.unwoken := e ▸ h

/-- Nothing is taken up afresh then. -/
theorem wake_of_unwoken (s : State) (h : s.port.unwoken) : s.wake = s := by
  unfold State.wake
  split
  · rfl
  · rename_i r hr; rw [if_neg (h r hr)]

theorem abortGroup_port (s : State) (w : Nat) (h : s.port.unwoken) : (s.abortGroup w).port = s.port := by
  unfold State.abortGroup
  dsimp only
  rw [wake_of_unwoken]
  · split <;> simp [State.queueAbort]
  · split <;> simp [State.queueAbort, h]

theorem lostCommit_port (s : State) (w : Nat) (h : s.port.unwoken) : (s.lostCommit w).port = s.port := by
  unfold State.lostCommit
  dsimp only
  rw [wake_of_unwoken]
  · simp
  · simp [h]

theorem stopWindow_port (s : State) (w : Nat) (h : s.port.unwoken) : (s.stopWindow w).port = s.port := by
  unfold State.stopWindow
  dsimp only
  split
  · rfl
  · rfl
  · exact abortGroup_port s w h
  · split_ifs
    · rfl
    · exact abortGroup_port s w h

theorem stopWindows_port (s : State) (h : s.port.unwoken) : s.stopWindows.port = s.port := by
  unfold State.stopWindows
  have h0 := stopWindow_port s 0 h
  have h1 := stopWindow_port _ 1 (Port.unwoken_of_eq h0 h)
  have h2 := stopWindow_port _ 2 (Port.unwoken_of_eq (h1.trans h0) h)
  have h3 := stopWindow_port _ 3 (Port.unwoken_of_eq (h2.trans (h1.trans h0)) h)
  exact h3.trans (h2.trans (h1.trans h0))

theorem setMode_port (s : State) (m : Mode) (h : s.port.unwoken) : (s.setMode m).port = s.port := by
  have hs := stopWindows_port s h
  unfold State.setMode
  dsimp only
  cases m
  all_goals
    rw [wake_of_unwoken]
    · first | rfl | exact hs
    · first | exact h | exact Port.unwoken_of_eq hs h

theorem degrade_port (s : State) (h : s.port.unwoken) : s.degrade.port = s.port := by
  unfold State.degrade
  split_ifs
  · split <;> first | rfl | exact setMode_port s _ h
  · rfl

@[simp] theorem noteDiscard_port (s : State) (b : Bool) : (s.noteDiscard b).port = s.port := by
  unfold State.noteDiscard
  split_ifs
  · split <;> rfl
  · rfl

theorem discardEffects_port (s : State) (q : QEntry) (x : Option Slot) (h : s.port.unwoken) :
    (s.discardEffects q x).port = s.port := by
  unfold State.discardEffects
  cases q with
  | line e => simp
  | commit e =>
    dsimp only
    rw [reportFault_port, lostCommit_port, noteDiscard_port]
    simp [h]

theorem discardStuck_port (n : Nat) (s : State) (h : s.port.unwoken) : (s.discardStuck n).port = s.port := by
  induction n generalizing s with
  | zero => rfl
  | succ n ih =>
    unfold State.discardStuck
    split_ifs
    · split
      · rename_i q _
        have hd := discardEffects_port s.dropHead q none h
        rw [ih _ (Port.unwoken_of_eq hd h), hd]
        rfl
      · rfl
    · rfl

theorem discardAll_port (s : State) (h : s.port.unwoken) : s.discardAll.port = s.port := by
  have key : ∀ (qs : List QEntry) (t : State), t.port.unwoken →
      (qs.foldl (fun t q => t.discardEffects q none) t).port = t.port := by
    intro qs
    induction qs with
    | nil => intro t _; rfl
    | cons q qs ih =>
      intro t ht
      have hd := discardEffects_port t q none ht
      rw [List.foldl_cons, ih _ (Port.unwoken_of_eq hd ht), hd]
  exact key _ { s with queue := { s.queue with entries := s.queue.entries.filter QEntry.programming } } h

theorem endDrain_port (s : State) (h : s.port.unwoken) : s.endDrain.port = s.port :=
  setMode_port
    { s with drain := { s.drain with phase := .inactive, returnMode := none, releasePending := false } }
    (s.drain.returnMode.getD .run) h

theorem reachDrained_port (s : State) (h : s.port.unwoken) : s.reachDrained.port = s.port := by
  unfold State.reachDrained
  dsimp only
  split_ifs
  · exact endDrain_port ({ s with drain := { s.drain with phase := .drained } }.raise .drainDone) h
  · rfl

theorem drainStep_port (s : State) (h : s.port.unwoken) : s.drainStep.port = s.port := by
  unfold State.drainStep
  dsimp only
  have ha := discardAll_port s h
  have hb := discardStuck_port s.queue.entries.length s h
  split_ifs
  · exact (reachDrained_port _ (Port.unwoken_of_eq ha h)).trans ha
  · exact ha
  · exact (reachDrained_port _ (Port.unwoken_of_eq hb h)).trans hb
  · exact hb
  · rfl

/-! ### The port without a request -/

theorem settleRound_port (s : State) (h : s.port.request = none) : s.settleRound.port = s.port := by
  have hu := Port.unwoken_of_none _ h
  have h1 := degrade_port s hu
  have h2 : s.degrade.settleGroups.port = s.port := (settleGroups_port _).trans h1
  have h3 := (drainStep_port _ (Port.unwoken_of_eq h2 hu)).trans h2
  unfold State.settleRound
  rw [portStep_of_none _ ((congrArg Port.request h3).trans h), h3]

/-- With no request at the port the reactions leave the port alone. -/
theorem settle_port_of_none (s : State) (h : s.port.request = none) : s.settle.port = s.port := by
  have h1 := settleRound_port s h
  have h2 := (settleRound_port _ ((congrArg Port.request h1).trans h)).trans h1
  rw [settle_eq, settleTail_port, h2]

end Sys2Proof.Machine
end

