-- ==== Sys2Proof/Laws/Memory.lean ====
section
/-! SUPPORT. Laws of the sparse maps and of the flash as memory: what a lookup finds after a change, and that every
operation keeps the canonical form. -/

namespace Sys2Proof.Machine

section Sparse
variable {α : Type} [DecidableEq α] (d : α)

/-- What the canonical form says of a map with a first entry. -/
theorem Sparse.wf_cons (k : Nat) (v : α) (m : Sparse α) :
    Sparse.wf d ((k, v) :: m) = true ↔ v ≠ d ∧ (∀ c ∈ m, k < c.1) ∧ Sparse.wf d m = true := by
  simp [Sparse.wf, and_assoc]

omit [DecidableEq α] in
/-- A key below every listed key reads as the default. -/
theorem Sparse.get_below (m : Sparse α) (a : Nat) (h : ∀ c ∈ m, a < c.1) : Sparse.get d m a = d := by
  induction m with
  | nil => rfl
  | cons c m ih =>
    have hc := h c (by simp)
    have hne : a ≠ c.1 := by omega
    simp only [Sparse.get, hne, if_false]
    exact ih fun x hx => h x (by simp [hx])

/-- The keys after a change: the changed key and former keys. -/
theorem Sparse.mem_set (m : Sparse α) (a : Nat) (v : α) (c : Nat × α) (h : c ∈ Sparse.set d m a v) :
    c = (a, v) ∨ c ∈ m := by
  induction m with
  | nil =>
    simp only [Sparse.set] at h
    split at h <;> simp_all
  | cons e m ih =>
    simp only [Sparse.set] at h
    split at h
    · split at h <;> simp_all
    · split at h
      · rename_i heq
        subst heq
        split at h
        · simp [h]
        · rcases List.mem_cons.mp h with h | h <;> simp [h]
      · rcases List.mem_cons.mp h with h | h
        · simp [h]
        · rcases ih h with h | h <;> simp [h]

/-- A change keeps the canonical form. -/
theorem Sparse.wf_set (m : Sparse α) (a : Nat) (v : α) (h : Sparse.wf d m = true) :
    Sparse.wf d (Sparse.set d m a v) = true := by
  induction m with
  | nil =>
    simp only [Sparse.set]
    split <;> simp_all [Sparse.wf]
  | cons e m ih =>
    obtain ⟨k, w⟩ := e
    obtain ⟨hw, hk, hm⟩ := (Sparse.wf_cons d k w m).mp h
    simp only [Sparse.set]
    split
    · split
      · exact h
      · rename_i hlt hv
        refine (Sparse.wf_cons d _ _ _).mpr ⟨hv, ?_, h⟩
        intro c hc
        rcases List.mem_cons.mp hc with rfl | hc
        · exact hlt
        · exact lt_trans hlt (hk c hc)
    · split
      · split
        · exact hm
        · rename_i heq hv
          exact (Sparse.wf_cons d _ _ _).mpr ⟨hv, fun c hc => heq ▸ hk c hc, hm⟩
      · rename_i hlt hne
        refine (Sparse.wf_cons d _ _ _).mpr ⟨hw, ?_, ih hm⟩
        intro c hc
        rcases Sparse.mem_set d m a v c hc with rfl | hc
        · simp; omega
        · exact hk c hc

/-- The value put at a key is found there. -/
theorem Sparse.get_set_same (m : Sparse α) (a : Nat) (v : α) (h : Sparse.wf d m = true) :
    Sparse.get d (Sparse.set d m a v) a = v := by
  induction m with
  | nil =>
    simp only [Sparse.set]
    split <;> simp_all [Sparse.get]
  | cons e m ih =>
    obtain ⟨k, w⟩ := e
    obtain ⟨_, hk, hm⟩ := (Sparse.wf_cons d k w m).mp h
    simp only [Sparse.set]
    split
    · rename_i hlt
      split
      · rename_i hv
        rw [hv]
        apply Sparse.get_below
        intro c hc
        rcases List.mem_cons.mp hc with rfl | hc
        · exact hlt
        · exact lt_trans hlt (hk c hc)
      · simp [Sparse.get]
    · split
      · rename_i heq
        split
        · rename_i hv
          rw [hv]
          exact Sparse.get_below d m a fun c hc => heq ▸ hk c hc
        · simp [Sparse.get]
      · rename_i hne
        simp only [Sparse.get, hne, if_false]
        exact ih hm

/-- Every other key keeps its value. -/
theorem Sparse.get_set_other (m : Sparse α) (a b : Nat) (v : α) (hab : b ≠ a) (h : Sparse.wf d m = true) :
    Sparse.get d (Sparse.set d m a v) b = Sparse.get d m b := by
  induction m with
  | nil =>
    simp only [Sparse.set]
    split <;> simp [Sparse.get, hab]
  | cons e m ih =>
    obtain ⟨k, w⟩ := e
    obtain ⟨_, hk, hm⟩ := (Sparse.wf_cons d k w m).mp h
    simp only [Sparse.set]
    split
    · split
      · rfl
      · simp [Sparse.get, hab]
    · split
      · rename_i heq
        subst heq
        split
        · simp [Sparse.get, hab]
        · simp [Sparse.get, hab]
      · simp only [Sparse.get]
        split
        · rfl
        · exact ih hm

/-- Leaving entries out keeps the canonical form. -/
theorem Sparse.wf_filter (m : Sparse α) (p : Nat × α → Bool) (h : Sparse.wf d m = true) :
    Sparse.wf d (m.filter p) = true := by
  induction m with
  | nil => rfl
  | cons e m ih =>
    obtain ⟨k, w⟩ := e
    obtain ⟨hw, hk, hm⟩ := (Sparse.wf_cons d k w m).mp h
    rw [List.filter_cons]
    split
    · exact (Sparse.wf_cons d _ _ _).mpr ⟨hw, fun c hc => hk c (List.mem_filter.mp hc).1, ih hm⟩
    · exact ih hm

/-- Changing values to values other than the default keeps the canonical form. -/
theorem Sparse.wf_map (m : Sparse α) (f : Nat × α → α) (hf : ∀ c ∈ m, f c ≠ d) (h : Sparse.wf d m = true) :
    Sparse.wf d (m.map fun c => (c.1, f c)) = true := by
  induction m with
  | nil => rfl
  | cons e m ih =>
    obtain ⟨k, w⟩ := e
    obtain ⟨_, hk, hm⟩ := (Sparse.wf_cons d k w m).mp h
    rw [List.map_cons]
    refine (Sparse.wf_cons d _ _ _).mpr ⟨hf (k, w) (by simp), ?_, ih (fun c hc => hf c (by simp [hc])) hm⟩
    intro c hc
    obtain ⟨x, hx, rfl⟩ := List.mem_map.mp hc
    exact hk x hx

omit [DecidableEq α] in
/-- A lookup in a map with entries left out: what was listed there, if the predicate keeps it. -/
theorem Sparse.get_filter (m : Sparse α) (p : Nat → Bool) (a : Nat) :
    Sparse.get d (m.filter fun c => p c.1) a = if p a then Sparse.get d m a else d := by
  induction m with
  | nil => simp [Sparse.get]
  | cons e m ih =>
    obtain ⟨k, w⟩ := e
    rw [List.filter_cons]
    by_cases hk : p k = true
    · simp only [hk, if_true, Sparse.get]
      by_cases ha : a = k
      · subst ha; simp [hk]
      · simp only [ha, if_false]; exact ih
    · simp only [hk, Sparse.get]
      by_cases ha : a = k
      · subst ha; simp [hk] at ih ⊢; exact ih
      · simp only [ha, if_false]; exact ih

end Sparse

/-! ### The flash -/

/-- A stored run of bytes keeps the canonical form. -/
theorem wf_flashWrite (f : List Host.Cell) (a : Nat) (bs : List Byte) (h : Memory.wf f = true) :
    Memory.wf (flashWrite f a bs) = true := by
  induction bs generalizing f a with
  | nil => exact h
  | cons b bs ih => exact ih _ _ (Sparse.wf_set blankByte f a b h)

/-- Replaced bytes keep the canonical form. -/
theorem wf_flashPatch (f : List Host.Cell) (b o len : Nat) (u : Upset) (h : Memory.wf f = true) :
    Memory.wf (flashPatch f b o len u) = true := by
  induction u generalizing f with
  | nil => exact h
  | cons c u ih =>
    simp only [flashPatch]
    split
    · exact ih _ (Sparse.wf_set blankByte f _ _ h)
    · exact ih _ h

/-- A blanked block keeps the canonical form. -/
theorem wf_flashErase (f : List Host.Cell) (b : Nat) (h : Memory.wf f = true) : Memory.wf (flashErase f b) = true :=
  Sparse.wf_filter blankByte f _ h

/-- What a program leaves keeps the canonical form. -/
theorem wf_leaveProgram (f : List Host.Cell) (b o : Nat) (bs : List Byte) (r : Remnant) (h : Memory.wf f = true) :
    Memory.wf (leaveProgram f b o bs r) = true := by
  cases r with
  | untouched => exact h
  | whole => exact wf_flashWrite f _ bs h
  | partly cells => exact wf_flashPatch f _ _ _ _ h

/-- What an erase leaves keeps the canonical form. -/
theorem wf_leaveErase (f : List Host.Cell) (b : Nat) (r : Remnant) (h : Memory.wf f = true) :
    Memory.wf (leaveErase f b r) = true := by
  cases r with
  | untouched => exact h
  | whole => exact wf_flashErase f b h
  | partly cells => exact wf_flashPatch f _ _ _ _ h

/-- A program's end keeps the canonical form. -/
theorem wf_endProgram (f : List Host.Cell) (b o : Nat) (bs : List Byte) (e : ProgramEnd) (h : Memory.wf f = true) :
    Memory.wf (endProgram f b o bs e).1 = true := by
  cases e with
  | ended stored readBack => exact wf_flashWrite f _ _ h
  | timedOut left => exact wf_leaveProgram f b o bs left h

/-- A byte outside a stored run reads as before. -/
theorem flashByte_flashWrite_outside (f : List Host.Cell) (a : Nat) (bs : List Byte) (x : Nat)
    (hx : x < a ∨ a + bs.length ≤ x) (h : Memory.wf f = true) : flashByte (flashWrite f a bs) x = flashByte f x := by
  induction bs generalizing f a with
  | nil => rfl
  | cons b bs ih =>
    simp only [List.length_cons] at hx
    rw [flashWrite, ih _ _ (by omega) (Sparse.wf_set blankByte f a b h)]
    exact Sparse.get_set_other blankByte f a x b (by omega) h

/-- A byte inside a stored run reads as the byte stored there. -/
theorem flashByte_flashWrite_inside (f : List Host.Cell) (a : Nat) (bs : List Byte) (i : Nat) (hi : i < bs.length)
    (h : Memory.wf f = true) : flashByte (flashWrite f a bs) (a + i) = bs[i] := by
  induction bs generalizing f a i with
  | nil => simp at hi
  | cons b bs ih =>
    rw [flashWrite]
    cases i with
    | zero =>
      rw [Nat.add_zero, flashByte_flashWrite_outside _ _ _ _ (by omega) (Sparse.wf_set blankByte f a b h)]
      exact Sparse.get_set_same blankByte f a b h
    | succ i =>
      have hi' : i < bs.length := by simpa using hi
      have := ih (Sparse.set blankByte f a b) (a + 1) i hi' (Sparse.wf_set blankByte f a b h)
      rw [show a + (i + 1) = a + 1 + i by omega, this]
      rfl

/-- A byte outside the erased block reads as before; a byte inside it is blank. -/
theorem flashByte_flashErase (f : List Host.Cell) (b x : Nat) :
    flashByte (flashErase f b) x
      = if blockBase b ≤ x ∧ x < blockBase b + Config.blockBytes then blankByte else flashByte f x := by
  have := Sparse.get_filter blankByte f
    (fun a => !(decide (blockBase b ≤ a) && decide (a < blockBase b + Config.blockBytes))) x
  simp only [flashByte, flashErase, this]
  by_cases h : blockBase b ≤ x ∧ x < blockBase b + Config.blockBytes <;> simp [h]

/-- A byte outside the block of replaced bytes reads as before. -/
theorem flashByte_flashPatch_outside (f : List Host.Cell) (b o len : Nat) (u : Upset) (x : Nat)
    (hx : x < flashAddr b o ∨ flashAddr b (o + len) ≤ x) (h : Memory.wf f = true) :
    flashByte (flashPatch f b o len u) x = flashByte f x := by
  induction u generalizing f with
  | nil => rfl
  | cons c u ih =>
    obtain ⟨i, v⟩ := c
    simp only [flashPatch]
    split
    · rw [ih _ (Sparse.wf_set blankByte f _ _ h)]
      refine Sparse.get_set_other blankByte f _ x v ?_ h
      simp only [flashAddr] at *
      omega
    · exact ih _ h

end Sys2Proof.Machine
end

