-- ==== Sys2Proof/Laws/Mount.lean ====
section
/-! SUPPORT. What the views of mount's steps 1 and 4 to 8 hold (R137, R143 to R147): the best settings record and the highest
slot, the winner of each line, the allowed groups, the group register, the table, the counters, the OPEN block. -/

namespace Sys2Proof.Machine

/-! ### Sparse maps by their entries -/

section Entries
variable {α : Type} [DecidableEq α] (d : α)

/-- An entry of a map in canonical form is what the map holds there. -/
theorem Sparse.get_of_mem (m : Sparse α) (a : Nat) (v : α) (h : Sparse.wf d m = true) (hm : (a, v) ∈ m) :
    Sparse.get d m a = v := by
  induction m with
  | nil => simp at hm
  | cons c m ih =>
    obtain ⟨k, x⟩ := c
    rw [Sparse.wf_cons] at h
    unfold Sparse.get
    rcases List.mem_cons.mp hm with e | e
    · obtain ⟨rfl, rfl⟩ := Prod.mk.inj e
      rw [if_pos rfl]
    · have := h.2.1 _ e
      rw [if_neg (by simp only at this; omega)]
      exact ih h.2.2 e

omit [DecidableEq α] in
/-- What a map holds other than its default is one of its entries. -/
theorem Sparse.mem_of_get (m : Sparse α) (a : Nat) (v : α) (h : Sparse.get d m a = v) (hv : v ≠ d) : (a, v) ∈ m := by
  induction m with
  | nil => exact absurd h.symm hv
  | cons c m ih =>
    obtain ⟨k, x⟩ := c
    unfold Sparse.get at h
    split_ifs at h with e
    · subst e; subst h; exact List.mem_cons_self
    · exact List.mem_cons_of_mem _ (ih h)

end Entries

/-! ### The winner of each line (R143) -/

/-- The order of the candidates of a line: not beaten means at most as high in origin, block sequence and slot. -/
theorem not_beats_iff (q r : RecInfo) :
    q.beats r = false ↔ q.origin < r.origin ∨ q.origin = r.origin
      ∧ (q.blockSeq < r.blockSeq ∨ q.blockSeq = r.blockSeq ∧ q.slot ≤ r.slot) := by
  simp only [RecInfo.beats, RecInfo.later, Bool.or_eq_false_iff, Bool.and_eq_false_iff, decide_eq_false_iff_not]
  omega

/-- One record taken into the resolution keeps the form, changes only its own line, and leaves there the better of two. -/
theorem addWinner_spec (ws : Sparse (Option RecInfo)) (r : RecInfo) (h : Sparse.wf none ws = true) :
    Sparse.wf none (addWinner ws r) = true
      ∧ (∀ l, l ≠ r.line → Sparse.get none (addWinner ws r) l = Sparse.get none ws l)
      ∧ ∃ x, Sparse.get none (addWinner ws r) r.line = some x ∧ r.beats x = false
          ∧ (x = r ∨ Sparse.get none ws r.line = some x)
          ∧ ∀ y, Sparse.get none ws r.line = some y → y.beats x = false := by
  have hs : ∀ v, Sparse.get none (Sparse.set none ws r.line (some v)) r.line = some v := fun v =>
    Sparse.get_set_same none ws r.line (some v) h
  have ho : ∀ v l, l ≠ r.line → Sparse.get none (Sparse.set none ws r.line (some v)) l = Sparse.get none ws l := fun v l hl =>
    Sparse.get_set_other none ws r.line l (some v) hl h
  have hrr : ∀ x : RecInfo, x.beats x = false := by intro x; rw [not_beats_iff]; omega
  unfold addWinner
  cases hg : Sparse.get none ws r.line with
  | none =>
    refine ⟨Sparse.wf_set none ws _ _ h, fun l hl => ho r l hl, r, hs r, hrr r, Or.inl rfl, ?_⟩
    intro y hy; exact absurd hy (by simp)
  | some q =>
    dsimp only
    by_cases hb : r.beats q = true
    · rw [if_pos hb]
      refine ⟨Sparse.wf_set none ws _ _ h, fun l hl => ho r l hl, r, hs r, hrr r, Or.inl rfl, ?_⟩
      intro y hy
      obtain rfl : q = y := by simpa using hy
      rw [not_beats_iff]
      simp only [RecInfo.beats, RecInfo.later, Bool.or_eq_true, Bool.and_eq_true, decide_eq_true_eq] at hb
      omega
    · rw [if_neg hb]
      refine ⟨h, fun l _ => rfl, q, hg, by simpa using hb, Or.inr rfl, ?_⟩
      intro y hy
      obtain rfl : q = y := by simpa using hy
      exact hrr q

/-- What the resolution of a list of accepted records holds, taken over a resolution that stood before. -/
theorem foldl_addWinner_spec (rs : List RecInfo) (ws : Sparse (Option RecInfo)) (h : Sparse.wf none ws = true) :
    Sparse.wf none (rs.foldl addWinner ws) = true
      ∧ (∀ l r, Sparse.get none (rs.foldl addWinner ws) l = some r →
          (r ∈ rs ∧ r.line = l ∨ Sparse.get none ws l = some r)
          ∧ (∀ q ∈ rs, q.line = l → q.beats r = false)
          ∧ ∀ q, Sparse.get none ws l = some q → q.beats r = false)
      ∧ (∀ l, (Sparse.get none ws l).isSome = true ∨ (∃ q ∈ rs, q.line = l) →
          (Sparse.get none (rs.foldl addWinner ws) l).isSome = true) := by
  have htr : ∀ a b c : RecInfo, a.beats b = false → b.beats c = false → a.beats c = false := by
    intro a b c h1 h2; rw [not_beats_iff] at *; omega
  induction rs generalizing ws with
  | nil =>
    refine ⟨h, fun l r hr => ⟨Or.inr hr, by simp, fun q hq => ?_⟩, fun l hl => ?_⟩
    · have : q = r := by have := hq.symm.trans hr; simpa using this
      subst this; rw [not_beats_iff]; omega
    · rcases hl with hl | ⟨q, hq, _⟩
      · exact hl
      · simp at hq
  | cons a rs ih =>
    obtain ⟨h1, h2, x, hx, hax, hxo, hxb⟩ := addWinner_spec ws a h
    obtain ⟨i1, i2, i3⟩ := ih (addWinner ws a) h1
    refine ⟨i1, fun l r hr => ?_, fun l hl => i3 l ?_⟩
    · obtain ⟨j1, j2, j3⟩ := i2 l r hr
      by_cases hl : l = a.line
      · subst hl
        refine ⟨?_, ?_, fun q hq => htr _ _ _ (hxb q hq) (j3 x hx)⟩
        · rcases j1 with ⟨k1, k2⟩ | k
          · exact Or.inl ⟨List.mem_cons_of_mem _ k1, k2⟩
          · have e : x = r := by have := hx.symm.trans k; simpa using this
            subst e
            rcases hxo with e | e
            · subst e; exact Or.inl ⟨List.mem_cons_self, rfl⟩
            · exact Or.inr e
        · intro q hq hql
          rcases List.mem_cons.mp hq with e | e
          · subst e; exact htr _ _ _ hax (j3 x hx)
          · exact j2 q e hql
      · rw [h2 l hl] at j1 j3
        refine ⟨?_, ?_, j3⟩
        · rcases j1 with ⟨k1, k2⟩ | k
          · exact Or.inl ⟨List.mem_cons_of_mem _ k1, k2⟩
          · exact Or.inr k
        · intro q hq hql
          rcases List.mem_cons.mp hq with e | e
          · subst e; exact absurd hql.symm hl
          · exact j2 q e hql
    · by_cases hla : l = a.line
      · subst hla; left; rw [hx]; rfl
      · rw [h2 l hla]
        rcases hl with hl | ⟨q, hq, hql⟩
        · exact Or.inl hl
        · rcases List.mem_cons.mp hq with e | e
          · subst e; exact absurd hql.symm hla
          · exact Or.inr ⟨q, e, hql⟩

/-- The resolution is in canonical form. -/
theorem wf_resolve (rs : List RecInfo) (allowed : List Tag) : Sparse.wf none (resolve rs allowed) = true :=
  (foldl_addWinner_spec _ _ (by rfl)).1

/-- A winner is an accepted record of its line that no accepted record of the line beats (R143). -/
theorem resolve_sound (rs : List RecInfo) (allowed : List Tag) (l : Nat) (r : RecInfo)
    (h : Sparse.get none (resolve rs allowed) l = some r) :
    r ∈ rs ∧ r.accepted allowed = true ∧ r.line = l
      ∧ ∀ q ∈ rs, q.accepted allowed = true → q.line = l → q.beats r = false := by
  obtain ⟨h1, h2, _⟩ := (foldl_addWinner_spec (rs.filter (RecInfo.accepted allowed)) [] (by rfl)).2.1 l r h
  rcases h1 with ⟨k1, k2⟩ | k
  · have := List.mem_filter.mp k1
    exact ⟨this.1, this.2, k2, fun q hq ha hl => h2 q (List.mem_filter.mpr ⟨hq, ha⟩) hl⟩
  · simp [Sparse.get] at k

/-- Every line with an accepted record has a winner (R143). -/
theorem resolve_complete (rs : List RecInfo) (allowed : List Tag) (q : RecInfo) (hq : q ∈ rs)
    (ha : q.accepted allowed = true) : (Sparse.get none (resolve rs allowed) q.line).isSome = true :=
  (foldl_addWinner_spec (rs.filter (RecInfo.accepted allowed)) [] (by rfl)).2.2 q.line
    (Or.inr ⟨q, List.mem_filter.mpr ⟨hq, ha⟩, rfl⟩)

/-! ### The qualifying groups and the removals (R144) -/

/-- A tag put into a list is there, with what was there before. -/
theorem mem_insertTag (t u : Tag) (us : List Tag) : u ∈ insertTag t us ↔ u = t ∨ u ∈ us := by
  induction us with
  | nil => simp [insertTag]
  | cons v vs ih =>
    unfold insertTag
    split_ifs with h1 h2
    · subst h1; simp
    · simp
    · simp only [List.mem_cons, ih]; tauto

/-- A tag put into a list in rising order of group sequence keeps the order. -/
theorem sorted_insertTag (t : Tag) (us : List Tag) (h : us.Pairwise fun a b => a.group ≤ b.group) :
    (insertTag t us).Pairwise fun a b => a.group ≤ b.group := by
  induction us with
  | nil => simp [insertTag]
  | cons v vs ih =>
    unfold insertTag
    rw [List.pairwise_cons] at h
    split_ifs with h1 h2
    · exact List.pairwise_cons.mpr h
    · refine List.pairwise_cons.mpr ⟨fun a ha => ?_, List.pairwise_cons.mpr h⟩
      rcases List.mem_cons.mp ha with rfl | ha
      · omega
      · have := h.1 a ha; omega
    · refine List.pairwise_cons.mpr ⟨fun a ha => ?_, ih h.2⟩
      rcases (mem_insertTag t a vs).mp ha with rfl | ha
      · omega
      · exact h.1 a ha

/-- The groups collected from a list of winners, over those collected before. -/
theorem foldl_insertTag (rs : List RecInfo) (acc : List Tag) (h : acc.Pairwise fun a b => a.group ≤ b.group) :
    (rs.foldl (fun acc r => if r.kind = .tentative then insertTag r.tag acc else acc) acc).Pairwise
        (fun a b => a.group ≤ b.group)
      ∧ ∀ t, t ∈ rs.foldl (fun acc r => if r.kind = .tentative then insertTag r.tag acc else acc) acc
          ↔ t ∈ acc ∨ ∃ r ∈ rs, r.kind = .tentative ∧ r.tag = t := by
  induction rs generalizing acc with
  | nil => simp [h]
  | cons r rs ih =>
    simp only [List.foldl_cons]
    by_cases hk : r.kind = .tentative
    · rw [if_pos hk]
      obtain ⟨i1, i2⟩ := ih _ (sorted_insertTag r.tag acc h)
      refine ⟨i1, fun t => ?_⟩
      rw [i2, mem_insertTag]
      constructor
      · rintro ((e | e) | ⟨q, hq, hh⟩)
        · exact Or.inr ⟨r, by simp, hk, e.symm⟩
        · exact Or.inl e
        · exact Or.inr ⟨q, by simp [hq], hh⟩
      · rintro (e | ⟨q, hq, hh⟩)
        · exact Or.inl (Or.inr e)
        · rcases List.mem_cons.mp hq with rfl | hq
          · exact Or.inl (Or.inl hh.2.symm)
          · exact Or.inr ⟨q, hq, hh⟩
    · rw [if_neg hk]
      obtain ⟨i1, i2⟩ := ih acc h
      refine ⟨i1, fun t => ?_⟩
      rw [i2]
      constructor
      · rintro (e | ⟨q, hq, hh⟩)
        · exact Or.inl e
        · exact Or.inr ⟨q, by simp [hq], hh⟩
      · rintro (e | ⟨q, hq, hh⟩)
        · exact Or.inl e
        · rcases List.mem_cons.mp hq with rfl | hq
          · exact absurd hh.1 hk
          · exact Or.inr ⟨q, hq, hh⟩

/-- The qualifying groups stand in rising group sequence (R144). -/
theorem sorted_qualifying (ws : Sparse (Option RecInfo)) : (qualifying ws).Pairwise fun a b => a.group ≤ b.group :=
  (foldl_insertTag _ [] List.Pairwise.nil).1

/-- A group qualifies when some line's winner is a TENTATIVE record of it (R144). -/
theorem mem_qualifying (ws : Sparse (Option RecInfo)) (h : Sparse.wf none ws = true) (t : Tag) :
    t ∈ qualifying ws ↔ ∃ l r, Sparse.get none ws l = some r ∧ r.kind = .tentative ∧ r.tag = t := by
  have h1 := (foldl_insertTag (ws.filterMap (·.2)) [] List.Pairwise.nil).2 t
  unfold qualifying
  rw [h1]
  constructor
  · rintro (e | ⟨r, hr, hk, ht⟩)
    · simp at e
    · obtain ⟨c, hc, hcr⟩ := List.mem_filterMap.mp hr
      obtain ⟨l, x⟩ := c
      exact ⟨l, r, by rw [Sparse.get_of_mem none ws l x h hc]; exact hcr, hk, ht⟩
  · rintro ⟨l, r, hr, hk, ht⟩
    exact Or.inr ⟨r, List.mem_filterMap.mpr ⟨(l, some r), Sparse.mem_of_get none ws l _ hr (by simp), rfl⟩, hk, ht⟩

/-- A tag put into a list in rising order stands in it once. -/
theorem nodup_insertTag (t : Tag) (us : List Tag) (hs : us.Pairwise fun a b => a.group ≤ b.group) (h : us.Nodup) :
    (insertTag t us).Nodup := by
  induction us with
  | nil => simp [insertTag]
  | cons u us ih =>
    obtain ⟨h1, h2⟩ := List.pairwise_cons.mp hs
    obtain ⟨h3, h4⟩ := List.nodup_cons.mp h
    unfold insertTag
    split_ifs with ha hb
    · exact h
    · refine List.nodup_cons.mpr ⟨?_, h⟩
      intro hc
      rcases List.mem_cons.mp hc with hc | hc
      · exact ha hc
      · have := h1 t hc; omega
    · refine List.nodup_cons.mpr ⟨?_, ih h2 h4⟩
      rw [mem_insertTag]
      rintro (rfl | hc)
      · exact ha rfl
      · exact h3 hc

/-- The groups collected from a list of winners stand once each. -/
theorem nodup_foldl_insertTag (rs : List RecInfo) (acc : List Tag) (hs : acc.Pairwise fun a b => a.group ≤ b.group)
    (h : acc.Nodup) :
    (rs.foldl (fun acc r => if r.kind = .tentative then insertTag r.tag acc else acc) acc).Nodup := by
  induction rs generalizing acc with
  | nil => exact h
  | cons r rs ih =>
    rw [List.foldl_cons]
    split_ifs
    · exact ih _ (sorted_insertTag _ _ hs) (nodup_insertTag _ _ hs h)
    · exact ih _ hs h

/-- The qualifying groups stand once each (R144). -/
theorem nodup_qualifying (ws : Sparse (Option RecInfo)) : (qualifying ws).Nodup :=
  nodup_foldl_insertTag _ [] List.Pairwise.nil List.nodup_nil

/-- A qualifying group of a resolution is one of the allowed groups. -/
theorem allowed_of_qualifying (rs : List RecInfo) (allowed : List Tag) (t : Tag)
    (h : t ∈ qualifying (resolve rs allowed)) : t ∈ allowed := by
  obtain ⟨l, r, hr, hk, ht⟩ := (mem_qualifying _ (wf_resolve rs allowed) t).mp h
  have ha := (resolve_sound rs allowed l r hr).2.1
  unfold RecInfo.accepted at ha
  rw [hk] at ha
  subst ht
  simpa using ha

/-- The removals only remove (R144). -/
theorem reduceGroups_subset (rs : List RecInfo) (n : Nat) (allowed : List Tag) (k : Nat) (t : Tag)
    (h : t ∈ (reduceGroups rs n allowed k).1) : t ∈ allowed := by
  induction n generalizing allowed k with
  | zero => exact h
  | succ n ih =>
    unfold reduceGroups at h
    cases hq : qualifying (resolve rs allowed) with
    | nil => rw [hq] at h; exact h
    | cons u us =>
      rw [hq] at h
      dsimp only at h
      split_ifs at h
      · exact h
      · exact (List.mem_filter.mp (ih _ _ h)).1

/-- After the removals at most 16 groups qualify (R144). -/
theorem reduceGroups_bound (rs : List RecInfo) (n : Nat) (allowed : List Tag) (k : Nat) (h : allowed.length ≤ n) :
    (qualifying (resolve rs (reduceGroups rs n allowed k).1)).length ≤ Config.registerPlaces := by
  induction n generalizing allowed k with
  | zero =>
    have he : allowed = [] := List.eq_nil_of_length_eq_zero (by omega)
    subst he
    have : qualifying (resolve rs []) = [] := by
      cases hq : qualifying (resolve rs []) with
      | nil => rfl
      | cons t ts => exact absurd (allowed_of_qualifying rs [] t (by rw [hq]; simp)) (by simp)
    show (qualifying (resolve rs [])).length ≤ _
    rw [this]; exact Nat.zero_le _
  | succ n ih =>
    unfold reduceGroups
    cases hq : qualifying (resolve rs allowed) with
    | nil => dsimp only; rw [hq]; exact Nat.zero_le _
    | cons t ts =>
      dsimp only
      split_ifs with hl
      · dsimp only; rw [hq]; exact hl
      · refine ih _ _ ?_
        have ht : t ∈ allowed := allowed_of_qualifying rs allowed t (by rw [hq]; simp)
        have : (allowed.filter fun u => !decide (u = t)).length < allowed.length :=
          List.length_filter_lt_length_iff_exists.mpr ⟨t, ht, by simp⟩
        omega

/-- Each removal of R144 takes the qualifying group with the lowest group sequence, while more than 16 qualify. -/
theorem reduceGroups_removals (rs : List RecInfo) (n : Nat) (allowed : List Tag) (k : Nat) :
    ∃ gone : List Tag, (reduceGroups rs n allowed k).2 = k + gone.length
      ∧ (reduceGroups rs n allowed k).1 = allowed.filter (fun u => !gone.contains u)
      ∧ ∀ i t, gone[i]? = some t → ∃ ts,
          qualifying (resolve rs (allowed.filter fun u => !(gone.take i).contains u)) = t :: ts ∧ 16 ≤ ts.length := by
  induction n generalizing allowed k with
  | zero => exact ⟨[], by simp [reduceGroups], by simp [reduceGroups], by simp⟩
  | succ n ih =>
    unfold reduceGroups
    cases hq : qualifying (resolve rs allowed) with
    | nil => exact ⟨[], by simp, by simp, by simp⟩
    | cons t ts =>
      dsimp only
      split_ifs with hl
      · exact ⟨[], by simp, by simp, by simp⟩
      · obtain ⟨gone, h1, h2, h3⟩ := ih (allowed.filter fun u => !decide (u = t)) (k + 1)
        have key : ∀ gs : List Tag, (allowed.filter fun u => !decide (u = t)).filter (fun u => !gs.contains u)
            = allowed.filter fun u => !(t :: gs).contains u := by
          intro gs
          rw [List.filter_filter]
          congr 1
          funext u
          rw [List.contains_cons]
          cases gs.contains u <;> by_cases h : u = t <;> simp [h]
        refine ⟨t :: gone, ?_, ?_, ?_⟩
        · rw [h1, List.length_cons]; omega
        · rw [h2, key]
        · intro i u hi
          cases i with
          | zero =>
            simp at hi
            subst hi
            refine ⟨ts, ?_, ?_⟩
            · simpa using hq
            · unfold Config.registerPlaces at hl; omega
          | succ i =>
            have := h3 i u (by simpa using hi)
            rw [key] at this
            simpa using this

/-- A group qualifies when it is one of the qualifying groups of the resolution (R144). -/
theorem qualifies_iff (m : Mount) (keys : List Tag) (t : Tag) :
    m.Qualifies keys t ↔ t ∈ qualifying (resolve m.records keys) := by
  rw [mem_qualifying _ (wf_resolve _ _)]; rfl

/-- The engine after the last slot of block `b`, or with 0 after the last header: what `AfterBlock` says (R142, R148). -/
theorem afterBlock_eq (m t : Mount) (b : Nat) (h : m.AfterBlock t b) :
    (if (m.afterBlock b).step = .repairs then (m.afterBlock b).beginRepairs else m.afterBlock b) = t := by
  unfold Mount.afterBlock nextScanned
  rcases h with ⟨before, y, after, hs, hb, hc, hn, rfl⟩ | ⟨hn, rfl⟩
  · have : (m.scans.find? fun x => decide (b < x.block) && (decide (x.cls = .full) || decide (x.cls = .unfinished)))
        = some y := by
      rw [hs, List.find?_append, List.find?_eq_none.mpr (by intro z hz; simpa using hn z hz), List.find?_cons]
      have hx : (decide (y.cls = .full) || decide (y.cls = .unfinished)) = true := by
        rcases hc with hc | hc <;> simp [hc]
      simp [hb, hx]
    rw [this]
    simp
  · rw [List.find?_eq_none.mpr (by intro z hz; simpa using hn z hz)]
    simp only [Option.map_none, if_true]
    refine congrArg (fun rs => ({ m with
      step := .repairs, repairMade := m.repairMade || decide (0 < m.allowed.2), repairs := rs } : Mount)) ?_
    unfold Mount.repairList Mount.blocksOf
    simp only [List.map_map, List.filter_map, List.filter_filter]
    congr 1
    congr 1
    refine congrArg _ (List.filter_congr fun x _ => ?_)
    exact Bool.and_comm ..

/-- Every allowed group has a COMMIT record (R143, R144). -/
theorem commit_of_allowed (m : Mount) (t : Tag) (h : t ∈ m.allowed.1) :
    ∃ c ∈ m.records, c.kind = .commit ∧ c.window = t.window ∧ c.group = t.group := by
  have h1 := reduceGroups_subset _ _ _ _ _ h
  unfold commitKeys at h1
  obtain ⟨c, hc, rfl⟩ := List.mem_map.mp h1
  have := List.mem_filter.mp hc
  exact ⟨c, this.1, by simpa using this.2, rfl, rfl⟩

/-- At most 16 groups qualify (R144). -/
theorem qualifying_winners_bound (m : Mount) : (qualifying m.winners).length ≤ 16 := by
  refine reduceGroups_bound _ _ _ _ ?_
  unfold commitKeys
  rw [List.length_map]
  exact List.length_filter_le _ _

/-- The winner of a line (R143). -/
theorem winners_sound (m : Mount) (l : Nat) (r : RecInfo) (h : Sparse.get none m.winners l = some r) :
    r ∈ m.records ∧ r.accepted m.allowed.1 = true ∧ r.line = l
      ∧ ∀ q ∈ m.records, q.accepted m.allowed.1 = true → q.line = l → q.beats r = false :=
  resolve_sound _ _ l r h

/-- A record is accepted when it is PLAIN, or TENTATIVE of an allowed group (R143). -/
theorem accepted_iff (r : RecInfo) (allowed : List Tag) :
    r.accepted allowed = true
      ↔ r.kind = .plain ∨ r.kind = .tentative ∧ ({ window := r.window, group := r.group } : Tag) ∈ allowed := by
  unfold RecInfo.accepted RecInfo.tag
  cases r.kind <;> simp

/-! ### The group register and the table (R144, R49) -/

/-- The commit slot of a group is that of its latest COMMIT record (R143). -/
theorem commitSlotOf_spec (rs : List RecInfo) (t : Tag) (h : ∃ c ∈ rs, c.kind = .commit ∧ c.tag = t) :
    ∃ c, commitSlotOf rs t = some c ∧ c ∈ rs ∧ c.kind = .commit ∧ c.tag = t
      ∧ ∀ q ∈ rs, q.kind = .commit → q.tag = t → q.later c = false := by
  have key : ∀ (xs : List RecInfo) (acc : Option RecInfo),
      (acc = none → xs ≠ []) →
      ∃ c, xs.foldl (fun acc r => match acc with
          | none => some r
          | some q => if r.later q then some r else acc) acc = some c
        ∧ (c ∈ xs ∨ acc = some c) ∧ (∀ q ∈ xs, q.later c = false) ∧ ∀ q, acc = some q → q.later c = false := by
    intro xs
    have hl : ∀ q r : RecInfo, q.later r = false ↔ q.blockSeq < r.blockSeq ∨ q.blockSeq = r.blockSeq ∧ q.slot ≤ r.slot := by
      intro q r
      simp only [RecInfo.later, Bool.or_eq_false_iff, Bool.and_eq_false_iff, decide_eq_false_iff_not]
      omega
    induction xs with
    | nil =>
      intro acc ha
      cases acc with
      | none => exact absurd rfl (ha rfl)
      | some c =>
        refine ⟨c, rfl, Or.inr rfl, by simp, fun q hq => ?_⟩
        obtain rfl : c = q := by simpa using hq
        rw [hl]; omega
    | cons x xs ih =>
      intro acc _
      simp only [List.foldl_cons]
      cases acc with
      | none =>
        obtain ⟨c, c1, c2, c3, c4⟩ := ih (some x) (by simp)
        refine ⟨c, c1, ?_, ?_, by simp⟩
        · rcases c2 with e | e
          · exact Or.inl (by simp [e])
          · obtain rfl : x = c := by simpa using e
            exact Or.inl (by simp)
        · intro q hq
          rcases List.mem_cons.mp hq with rfl | hq
          · exact c4 _ rfl
          · exact c3 q hq
      | some y =>
        dsimp only
        by_cases hb : x.later y = true
        · rw [if_pos hb]
          obtain ⟨c, c1, c2, c3, c4⟩ := ih (some x) (by simp)
          have hx := c4 x rfl
          refine ⟨c, c1, ?_, ?_, ?_⟩
          · rcases c2 with e | e
            · exact Or.inl (by simp [e])
            · obtain rfl : x = c := by simpa using e
              exact Or.inl (by simp)
          · intro q hq
            rcases List.mem_cons.mp hq with rfl | hq
            · exact hx
            · exact c3 q hq
          · intro q hq
            obtain rfl : y = q := by simpa using hq
            simp only [RecInfo.later, Bool.or_eq_true, Bool.and_eq_true, decide_eq_true_eq] at hb
            rw [hl] at hx ⊢; omega
        · rw [if_neg hb]
          obtain ⟨c, c1, c2, c3, c4⟩ := ih (some y) (by simp)
          have hy := c4 y rfl
          refine ⟨c, c1, ?_, ?_, ?_⟩
          · rcases c2 with e | e
            · exact Or.inl (by simp [e])
            · exact Or.inr e
          · intro q hq
            rcases List.mem_cons.mp hq with rfl | hq
            · have hb' : q.later y = false := by simpa using hb
              rw [hl] at hb' hy ⊢; omega
            · exact c3 q hq
          · intro q hq
            exact c4 q hq
  obtain ⟨c0, hc0, hk0, ht0⟩ := h
  have hmem : ∀ q, q ∈ rs.filter (fun r => decide (r.kind = .commit) && decide (r.tag = t))
      ↔ q ∈ rs ∧ q.kind = .commit ∧ q.tag = t := by intro q; simp
  obtain ⟨c, c1, c2, c3, _⟩ := key (rs.filter fun r => decide (r.kind = .commit) && decide (r.tag = t)) none
    (fun _ e => by have := (hmem c0).mpr ⟨hc0, hk0, ht0⟩; rw [e] at this; simp at this)
  have hc : c ∈ rs.filter (fun r => decide (r.kind = .commit) && decide (r.tag = t)) := by
    rcases c2 with e | e
    · exact e
    · simp at e
  have := (hmem c).mp hc
  exact ⟨c, c1, this.1, this.2.1, this.2.2, fun q hq hk ht => c3 q ((hmem q).mpr ⟨hq, hk, ht⟩)⟩

/-- The register entry made for the qualifying group of index `i` (R144). -/
theorem register_get (m : Mount) (i : Nat) (t : Tag) (h : (qualifying m.winners)[i]? = some t) :
    ∃ c, m.register[i]? = some (.committed t.window t.group { block := c.block, slot := c.slot })
      ∧ c ∈ m.records ∧ c.kind = .commit ∧ c.tag = t
      ∧ ∀ q ∈ m.records, q.kind = .commit → q.tag = t → q.later c = false := by
  have hlen := qualifying_winners_bound m
  have hi : i < (qualifying m.winners).length := (List.getElem?_eq_some_iff.mp h).1
  have ht : t ∈ qualifying m.winners := List.mem_of_getElem? h
  obtain ⟨c0, h0, k0, w0, g0⟩ := commit_of_allowed m t (allowed_of_qualifying _ _ _ ht)
  obtain ⟨c, c1, c2, c3, c4, c5⟩ := commitSlotOf_spec m.records t ⟨c0, h0, k0, by
    cases t; simp only at w0 g0; simp [RecInfo.tag, w0, g0]⟩
  refine ⟨c, ?_, c2, c3, c4, c5⟩
  unfold Mount.register
  dsimp only
  rw [List.getElem?_take_of_lt (by simp only [Config.registerPlaces]; omega),
    List.getElem?_append_left (by simpa using hi), List.getElem?_map, h]
  simp only [Option.map_some, c1]
  rfl

/-- Beyond the qualifying groups the register is free (R144). -/
theorem register_free (m : Mount) (i : Nat) (hi : i < 16) (h : (qualifying m.winners)[i]? = none) :
    m.register[i]? = some .free := by
  have hl : (qualifying m.winners).length ≤ i := by simpa using h
  unfold Mount.register
  dsimp only
  rw [List.getElem?_take_of_lt (by simpa [Config.registerPlaces] using hi),
    List.getElem?_append_right (by simpa using hl), List.getElem?_replicate]
  rw [if_pos (by simp only [List.length_map, Config.registerPlaces]; omega)]

/-- The register has 16 entries (R129). -/
theorem length_register (m : Mount) : m.register.length = 16 := by
  unfold Mount.register
  simp [Config.registerPlaces]

/-- The index of a group in a list that holds it. -/
theorem indexOf_spec (t : Tag) (us : List Tag) (n : Nat) (h : t ∈ us) :
    ∃ i, indexOf t us n = some (n + i) ∧ us[i]? = some t := by
  induction us generalizing n with
  | nil => simp at h
  | cons u us ih =>
    unfold indexOf
    by_cases e : u = t
    · subst e; exact ⟨0, by rw [if_pos rfl]; rfl, rfl⟩
    · rw [if_neg e]
      have : t ∈ us := by
        rcases List.mem_cons.mp h with h | h
        · exact absurd h.symm e
        · exact h
      obtain ⟨i, i1, i2⟩ := ih (n + 1) this
      exact ⟨i + 1, by rw [i1]; congr 1; omega, by simpa using i2⟩

/-- The mount load, line by line (R49): a line with a winner names its slot, and its group's register index. -/
theorem table_get (m : Mount) (l : Nat) :
    Sparse.get TableEntry.clear m.table l
      = match Sparse.get none m.winners l with
        | some r => loadEntry (qualifying m.winners) r
        | none => TableEntry.clear := by
  have key : ∀ (ws : Sparse (Option RecInfo)) (f : RecInfo → TableEntry), Sparse.wf none ws = true →
      Sparse.get TableEntry.clear (ws.filterMap fun c => c.2.map fun r => (c.1, f r)) l
        = match Sparse.get none ws l with
          | some r => f r
          | none => TableEntry.clear := by
    intro ws f hw
    induction ws with
    | nil => rfl
    | cons c ws ih =>
      obtain ⟨k, v⟩ := c
      rw [Sparse.wf_cons] at hw
      cases v with
      | none => exact absurd rfl hw.1
      | some r =>
        simp only [List.filterMap_cons, Option.map_some, Sparse.get]
        split_ifs
        · rfl
        · exact ih hw.2.2
  exact key _ _ (wf_resolve _ _)

/-! ### The counters (R146) -/

/-- The greatest of two lists of numbers, the second read through a partial map. -/
theorem maxOf_eq (xs : List Nat) : maxOf xs = xs.foldr max 0 := by
  have key : ∀ (xs : List Nat) (a : Nat), xs.foldl max a = max a (xs.foldr max 0) := by
    intro xs
    induction xs with
    | nil => intro a; simp
    | cons x xs ih => intro a; simp only [List.foldl_cons, List.foldr_cons, ih]; omega
  unfold maxOf
  rw [key]; omega

/-- A counter as the greatest number found in records and opening fields, one place on (R146). -/
theorem counter_eq (xs : List Nat) (ys : List BlockScan) (f : Nat × Nat × Nat → Nat) :
    max (maxOf xs) (maxOf (ys.map fun x => (x.opening.map f).getD 0))
      = (xs ++ ys.filterMap fun x => x.opening.map f).foldr max 0 := by
  rw [maxOf_eq, maxOf_eq]
  have h1 : ∀ (a b : List Nat), (a ++ b).foldr max 0 = max (a.foldr max 0) (b.foldr max 0) := by
    intro a b
    induction a with
    | nil => simp
    | cons x a ih => simp only [List.cons_append, List.foldr_cons, ih]; omega
  have h2 : (ys.map fun x => (x.opening.map f).getD 0).foldr max 0
      = (ys.filterMap fun x => x.opening.map f).foldr max 0 := by
    induction ys with
    | nil => rfl
    | cons y ys ih =>
      cases ho : y.opening with
      | none => simp [ho, ih]
      | some o => simp [ho, ih]
  rw [h1, h2]

/-! ### The block table (R145) -/

/-- A table made by setting one entry after another, of distinct keys. -/
theorem foldl_set_get (xs : List BlockScan) (f : BlockScan → BlockEntry) (t : Sparse BlockEntry)
    (ht : Sparse.wf BlockEntry.unknown t = true) (hn : (xs.map (·.block)).Nodup) :
    (∀ x ∈ xs, Sparse.get BlockEntry.unknown
        (xs.foldl (fun t x => Sparse.set BlockEntry.unknown t x.block (f x)) t) x.block = f x)
      ∧ ∀ b, (∀ x ∈ xs, x.block ≠ b) → Sparse.get BlockEntry.unknown
          (xs.foldl (fun t x => Sparse.set BlockEntry.unknown t x.block (f x)) t) b = Sparse.get BlockEntry.unknown t b := by
  induction xs generalizing t with
  | nil => exact ⟨by simp, fun b _ => rfl⟩
  | cons a xs ih =>
    rw [List.map_cons, List.nodup_cons] at hn
    obtain ⟨i1, i2⟩ := ih _ (Sparse.wf_set BlockEntry.unknown t a.block (f a) ht) hn.2
    refine ⟨fun x hx => ?_, fun b hb => ?_⟩
    · rcases List.mem_cons.mp hx with rfl | hx
      · rw [List.foldl_cons, i2 _ fun y hy e => hn.1 (by rw [← e]; exact List.mem_map_of_mem hy)]
        exact Sparse.get_set_same BlockEntry.unknown t _ _ ht
      · exact i1 x hx
    · rw [List.foldl_cons, i2 b fun y hy => hb y (by simp [hy])]
      exact Sparse.get_set_other BlockEntry.unknown t a.block b (f a) (fun e => hb a (by simp) e.symm) ht

/-! ### The OPEN block (R147) -/

/-- The newest unfinished block, if there is one (R147). -/
theorem newestUnfinished_spec (xs : List BlockScan) :
    (∀ x, newestUnfinished xs = some x → x ∈ xs ∧ x.cls = .unfinished
        ∧ ∀ y ∈ xs, y.cls = .unfinished → y.seq.getD 0 ≤ x.seq.getD 0)
      ∧ (newestUnfinished xs = none → ∀ y ∈ xs, y.cls ≠ .unfinished) := by
  induction xs with
  | nil => simp [newestUnfinished]
  | cons a xs ih =>
    obtain ⟨i1, i2⟩ := ih
    unfold newestUnfinished
    cases hn : newestUnfinished xs with
    | none =>
      have hno := i2 hn
      dsimp only
      by_cases ha : a.cls = .unfinished
      · rw [if_pos ha]
        refine ⟨fun x hx => ?_, by simp⟩
        obtain rfl : a = x := by simpa using hx
        refine ⟨by simp, ha, fun y hy hc => ?_⟩
        rcases List.mem_cons.mp hy with rfl | hy
        · exact le_refl _
        · exact absurd hc (hno y hy)
      · rw [if_neg ha]
        refine ⟨by simp, fun _ y hy => ?_⟩
        rcases List.mem_cons.mp hy with rfl | hy
        · exact ha
        · exact hno y hy
    | some z =>
      obtain ⟨z1, z2, z3⟩ := i1 z hn
      dsimp only
      by_cases hc : a.cls = .unfinished ∧ z.seq.getD 0 < a.seq.getD 0
      · rw [if_pos hc]
        refine ⟨fun x hx => ?_, by simp⟩
        obtain rfl : a = x := by simpa using hx
        refine ⟨by simp, hc.1, fun y hy hy2 => ?_⟩
        rcases List.mem_cons.mp hy with rfl | hy
        · exact le_refl _
        · have := z3 y hy hy2; omega
      · rw [if_neg hc]
        refine ⟨fun x hx => ?_, by simp⟩
        obtain rfl : z = x := by simpa using hx
        refine ⟨by simp [z1], z2, fun y hy hy2 => ?_⟩
        rcases List.mem_cons.mp hy with rfl | hy
        · by_contra hlt; exact hc ⟨hy2, by omega⟩
        · exact z3 y hy hy2

/-! ### Slots as read (R137, R142) -/

/-- A blank slot holds no record. -/
theorem parseRecord_of_blank (bs : List Byte) (h : isBlank bs = true) : parseRecord bs = none := by
  have hk : kindOfCode (bs.getD 0 0) = none := by
    cases bs with
    | nil => rfl
    | cons b bs =>
      have hb : b = blankByte := by
        unfold isBlank at h
        simpa using (List.all_eq_true.mp h) b (by simp)
      subst hb; rfl
  unfold parseRecord
  rw [hk]

/-- The bytes of slot `n` of a block. -/
theorem slotBytesOf_eq (bs : List Byte) (n : Nat) : slotBytesOf bs n = (bs.drop (48 * n)).take 48 := rfl

/-! ### Step 1 (R137) -/

/-- The settings in force after step 1: a valid settings record that none exceeds in settings sequence (R137). -/
theorem bestSettings_spec (bs : List Byte) :
    (∀ x, bestSettings bs = some x → (∃ n ∈ recordSlots, parseSettings (slotBytesOf bs n) = some x)
        ∧ ∀ n ∈ recordSlots, ∀ y, parseSettings (slotBytesOf bs n) = some y → y.seq ≤ x.seq)
      ∧ (bestSettings bs = none → ∀ n ∈ recordSlots, parseSettings (slotBytesOf bs n) = none) := by
  have key : ∀ (ns : List Nat) (acc : Option Settings),
      let r := ns.foldl (fun acc n =>
        match parseSettings (slotBytesOf bs n) with
        | none => acc
        | some x =>
          match acc with
          | none => some x
          | some y => if y.seq < x.seq then some x else acc) acc
      (∀ x, r = some x → ((∃ n ∈ ns, parseSettings (slotBytesOf bs n) = some x) ∨ acc = some x)
          ∧ (∀ n ∈ ns, ∀ y, parseSettings (slotBytesOf bs n) = some y → y.seq ≤ x.seq)
          ∧ ∀ y, acc = some y → y.seq ≤ x.seq)
        ∧ (r = none → (∀ n ∈ ns, parseSettings (slotBytesOf bs n) = none) ∧ acc = none) := by
    intro ns
    induction ns with
    | nil =>
      intro acc
      refine ⟨fun x hx => ⟨Or.inr hx, by simp, fun y hy => ?_⟩, fun h => ⟨by simp, h⟩⟩
      obtain rfl : y = x := by have := hy.symm.trans hx; simpa using this
      exact le_refl _
    | cons n ns ih =>
      intro acc
      simp only [List.foldl_cons]
      cases hp : parseSettings (slotBytesOf bs n) with
      | none =>
        obtain ⟨i1, i2⟩ := ih acc
        refine ⟨fun x hx => ?_, fun h => ?_⟩
        · obtain ⟨a1, a2, a3⟩ := i1 x hx
          refine ⟨?_, ?_, a3⟩
          · rcases a1 with ⟨k, hk, hh⟩ | e
            · exact Or.inl ⟨k, by simp [hk], hh⟩
            · exact Or.inr e
          · intro k hk y hy
            rcases List.mem_cons.mp hk with rfl | hk
            · rw [hp] at hy; simp at hy
            · exact a2 k hk y hy
        · obtain ⟨b1, b2⟩ := i2 h
          refine ⟨fun k hk => ?_, b2⟩
          rcases List.mem_cons.mp hk with rfl | hk
          · exact hp
          · exact b1 k hk
      | some v =>
        cases acc with
        | none =>
          dsimp only
          obtain ⟨i1, i2⟩ := ih (some v)
          refine ⟨fun x hx => ?_, fun h => ?_⟩
          · obtain ⟨a1, a2, a3⟩ := i1 x hx
            refine ⟨?_, ?_, by simp⟩
            · rcases a1 with ⟨k, hk, hh⟩ | e
              · exact Or.inl ⟨k, by simp [hk], hh⟩
              · exact Or.inl ⟨n, by simp, by rw [hp]; exact e⟩
            · intro k hk y hy
              rcases List.mem_cons.mp hk with rfl | hk
              · rw [hp] at hy; exact a3 y hy
              · exact a2 k hk y hy
          · exact absurd (i2 h).2 (by simp)
        | some u =>
          dsimp only
          by_cases hlt : u.seq < v.seq
          · rw [if_pos hlt]
            obtain ⟨i1, i2⟩ := ih (some v)
            refine ⟨fun x hx => ?_, fun h => absurd (i2 h).2 (by simp)⟩
            obtain ⟨a1, a2, a3⟩ := i1 x hx
            refine ⟨?_, ?_, ?_⟩
            · rcases a1 with ⟨k, hk, hh⟩ | e
              · exact Or.inl ⟨k, by simp [hk], hh⟩
              · exact Or.inl ⟨n, by simp, by rw [hp]; exact e⟩
            · intro k hk y hy
              rcases List.mem_cons.mp hk with rfl | hk
              · rw [hp] at hy; exact a3 y hy
              · exact a2 k hk y hy
            · intro y hy
              obtain rfl : u = y := by simpa using hy
              have := a3 v rfl; omega
          · rw [if_neg hlt]
            obtain ⟨i1, i2⟩ := ih (some u)
            refine ⟨fun x hx => ?_, fun h => absurd (i2 h).2 (by simp)⟩
            obtain ⟨a1, a2, a3⟩ := i1 x hx
            refine ⟨?_, ?_, a3⟩
            · rcases a1 with ⟨k, hk, hh⟩ | e
              · exact Or.inl ⟨k, by simp [hk], hh⟩
              · exact Or.inr e
            · intro k hk y hy
              rcases List.mem_cons.mp hk with rfl | hk
              · rw [hp] at hy
                obtain rfl : v = y := by simpa using hy
                have := a3 u rfl; omega
              · exact a2 k hk y hy
  obtain ⟨k1, k2⟩ := key recordSlots none
  refine ⟨fun x hx => ?_, fun h => (k2 h).1⟩
  obtain ⟨a1, a2, _⟩ := k1 x hx
  rcases a1 with e | e
  · exact ⟨e, a2⟩
  · simp at e

/-- The last slot of a run of slots, from `a` on, that is not blank; `z` when all are. -/
theorem lastUsed_spec (bs : List Byte) (k a z : Nat) (hz : z < a) :
    ((List.range' a k).foldl (fun acc n => if isBlank (slotBytesOf bs n) then acc else n) z = z
        ∨ ∃ y, (List.range' a k).foldl (fun acc n => if isBlank (slotBytesOf bs n) then acc else n) z = y
            ∧ a ≤ y ∧ y < a + k ∧ isBlank (slotBytesOf bs y) = false)
      ∧ ∀ n, a ≤ n → (List.range' a k).foldl (fun acc n => if isBlank (slotBytesOf bs n) then acc else n) z < n →
          n < a + k → isBlank (slotBytesOf bs n) = true := by
  induction k generalizing a z with
  | zero => exact ⟨Or.inl rfl, fun n _ _ _ => by omega⟩
  | succ k ih =>
    simp only [List.range'_succ, List.foldl_cons]
    by_cases hb : isBlank (slotBytesOf bs a) = true
    · rw [if_pos hb]
      obtain ⟨i1, i2⟩ := ih (a + 1) z (by omega)
      refine ⟨?_, fun n h1 h2 h3 => ?_⟩
      · rcases i1 with e | ⟨y, e, e1, e2, e3⟩
        · exact Or.inl e
        · exact Or.inr ⟨y, e, by omega, by omega, e3⟩
      · by_cases hn : n = a
        · subst hn; exact hb
        · exact i2 n (by omega) h2 (by omega)
    · rw [if_neg hb]
      obtain ⟨i1, i2⟩ := ih (a + 1) a (by omega)
      refine ⟨?_, fun n h1 h2 h3 => ?_⟩
      · rcases i1 with e | ⟨y, e, e1, e2, e3⟩
        · exact Or.inr ⟨a, e, by omega, by omega, by simpa using hb⟩
        · exact Or.inr ⟨y, e, by omega, by omega, e3⟩
      · refine i2 n ?_ h2 (by omega)
        rcases i1 with e | ⟨y, e, e1, e2, e3⟩
        · rw [e] at h2; omega
        · rw [e] at h2; omega

/-- The highest non-blank slot (R137): it is not blank, and every slot above it is. -/
theorem highestSlot_spec (bs : List Byte) :
    highestSlot bs ≤ 84 ∧ (1 ≤ highestSlot bs → isBlank (slotBytesOf bs (highestSlot bs)) = false)
      ∧ ∀ n, highestSlot bs < n → n ≤ 84 → isBlank (slotBytesOf bs n) = true := by
  obtain ⟨k1, k2⟩ := lastUsed_spec bs 84 1 0 (by omega)
  have hd : highestSlot bs = (List.range' 1 84).foldl (fun acc n => if isBlank (slotBytesOf bs n) then acc else n) 0 :=
    rfl
  rw [← hd] at k1 k2
  refine ⟨?_, fun h1 => ?_, fun n h1 h2 => k2 n (by omega) h1 (by omega)⟩
  · rcases k1 with e | ⟨y, e, e1, e2, _⟩ <;> omega
  · rcases k1 with e | ⟨y, e, _, _, e3⟩
    · omega
    · rw [e]; exact e3

end Sys2Proof.Machine
end

