-- ==== Sys2Proof/Laws/Grants.lean ====
section
/-! SUPPORT. What a grant does (R97, R98, R100): the order of the requests, and when a job or the queue's head is the
arbiter's choice. -/

namespace Sys2Proof.Machine

/-- What stands at a grant below rank 1. -/
theorem State.atGrant_spec (s : State) (h : s.atGrant = true) :
    s.power = .on ∧ s.array.op = none ∧ s.array.timeouts < 3 ∧ s.eraseBusy = false ∧ s.rankOne = none := by
  unfold State.atGrant at h
  simp only [Bool.and_eq_true, decide_eq_true_eq, Bool.not_eq_true'] at h
  tauto

/-- A grant takes what the arbiter chooses, if anything. -/
theorem grant_eq (s : State) (h : s.atGrant = true) : s.grant = s.arbiterChoice.getD s := by
  obtain ⟨h1,h2,h3,h4,h5⟩ := State.atGrant_spec s h
  unfold State.grant
  rw [if_neg, h4]
  · rfl
  · have : ¬ (3 ≤ s.array.timeouts) := by omega
    simp [h2, State.flashLost, Config.lostTimeouts, this]

/-- The command is the choice, taken. -/
theorem arbiterGrant_of_choice (s t : State) (h : s.atGrant = true) (e : s.arbiterChoice = some t) :
    exec .arbiterGrant s = .next t.settle := by
  show s.taken _ = _
  rw [taken_on _ _ (State.atGrant_spec s h).1]
  show Host.Outcome.next s.grant.settle = _
  rw [grant_eq s h, e]; rfl

/-- A read piece or a merge read that timed out is not granted again at once when its request has ended, or when no erase waits
for it with its blank check (R41, R44, R96). -/
theorem readTimedOut_eq (s : State) (o : Op)
    (h : o.abandoned = true ∨ ∀ j, s.array.erase = some j → j.part ≠ .finished) : s.readTimedOut o = s := by
  unfold State.readTimedOut
  split
  · rename_i j hj
    rcases h with h | h
    · simp [h]
    · simp [h j hj]
  · rfl

/-- The read served before a blank check put off is granted again when it has timed out, if it still waits (R100, log 72). -/
theorem readTimedOut_finished (s : State) (o : Op) (j : EraseJob) (hj : s.array.erase = some j) (hp : j.part = .finished)
    (ha : o.abandoned = false) (hop : s.array.op = none) (ht : s.array.timeouts < 3) :
    s.readTimedOut o = s.grantRead.getD s := by
  have hl : s.flashLost = false := decide_eq_false (by simp only [Config.lostTimeouts]; omega)
  have hb : s.eraseBusy = true := by simp [State.eraseBusy, hj, hp, ErasePart.busy]
  unfold State.readTimedOut State.grant
  simp [hj, hp, ha, hop, hl, hb, ErasePart.readsOnly]

/-- Short of the loss of the flash, a read piece that timed out is requested again as any read is (R41). -/
theorem pieceTimedOut_again (s : State) (o : Op) (i : Nat) (h : o.abandoned = true ∨ s.array.timeouts < 3) :
    s.pieceTimedOut o i = s.readTimedOut o := by
  unfold State.pieceTimedOut
  rw [if_neg]
  rintro ⟨hl, ha⟩
  rcases h with h | h
  · simp [h] at ha
  · have : Config.lostTimeouts ≤ s.array.timeouts := of_decide_eq_true hl
    simp only [Config.lostTimeouts] at this; omega

/-- The Timeout that loses the flash ends the piece with fill bytes and FLASH_LOST (R15, R41). -/
theorem pieceTimedOut_lost (s : State) (o : Op) (i : Nat) (r : Request) (p : Piece) (hl : s.flashLost = true)
    (ha : o.abandoned = false) (hr : s.port.request = some r) (hp : r.pieces[i]? = some p) :
    s.pieceTimedOut o i = s.setPiece r i (p.ended (s.fillBytes p.length) (some .flashLost)) := by
  simp [State.pieceTimedOut, State.losePiece, hl, ha, hr, hp]

/-- No read of rank 1 or 2 is granted then. -/
theorem grantRead_none (s : State) (h : s.atGrant = true) : s.grantRead = none := by
  unfold State.grantRead; rw [(State.atGrant_spec s h).2.2.2.2]; rfl

/-- In RUN and READONLY the working requests follow the reads (R97). -/
theorem arbiterChoice_working (s : State) (h : s.jobsAsk = true) :
    s.arbiterChoice = (s.grantRead <|> s.workingRequest) ∧ s.holdsBack = false := by
  unfold State.jobsAsk at h
  simp only [Bool.and_eq_true, Bool.not_eq_true'] at h
  refine ⟨?_, h.2⟩
  unfold State.arbiterChoice
  cases hm : s.mgmt.mode <;> simp_all [Mode.working]

/-- The order of ranks 3 to 6, with the queue above rank 5 while three blocks are ERASED (R97). -/
theorem arbiterChoice_ranks (s : State) (h : s.atGrant = true) (hj : s.jobsAsk = true) : s.arbiterChoice = (s.rankThree
      <|> (match s.blocks.tailOwed with
           | some .drain => s.tailRequest 4
           | some .queue | some (.job _) | some .priorityRelease | none => none)
      <|> s.drainOpeningRequest
      <|> (if Config.hostGate ≤ s.erasedCount then s.queueRequest <|> s.rankFive
           else s.rankFive <|> s.queueRequest)
      <|> s.settingsRequest) := by
  rw [(arbiterChoice_working s hj).1, grantRead_none s h]
  unfold State.workingRequest
  rw [(arbiterChoice_working s hj).2]
  cases s.blocks.tailOwed with
  | none => rfl
  | some r => cases r <;> rfl

/-- No tail mark is owed. -/
theorem tailRequest_none (s : State) (n : Nat) (h : s.blocks.tailOwed = none) : s.tailRequest n = none := by
  unfold State.tailRequest; rw [h]

/-- Where none can be granted, the drain's waiting opening asks nothing (R159). -/
theorem drainOpeningRequest_none (s : State) (h : s.noDrainOpening = true) : s.drainOpeningRequest = none := by
  unfold State.noDrainOpening at h
  unfold State.drainOpeningRequest State.gateHolds State.canOpen
  cases hb : s.openBlock <;> simp_all
  rcases h with h | h <;> simp [h]

/-- With an OPEN block the drain's waiting opening asks nothing (R76, R159). -/
theorem noDrainOpening_of_open (s : State) (b : Nat) (h : s.openBlock = some b) : s.noDrainOpening = true := by
  unfold State.noDrainOpening; rw [h]; simp

/-- Rank 3 asks nothing without a tail mark, a RETIRING block and a priority release (R97). -/
theorem rankThree_none (s : State) (h : s.blocks.tailOwed = none) (hr : s.blocks.retiring = [])
    (hp : ∀ j, s.blocks.release = some j → j.priority = false) : s.rankThree = none := by
  unfold State.rankThree State.retirementRequest State.releaseRequestAt
  rw [tailRequest_none s 3 h, if_pos hr]
  cases hb : s.blocks.release with
  | none => rfl
  | some j => simp [hp j hb]

/-- The drain's waiting opening is the choice once WP# permits it: at rank 4, in DRAIN and after the return of the mode
(R159). -/
theorem arbiterChoice_of_drainOpening (s : State) (h : s.atGrant = true) (ht : s.blocks.tailOwed = none)
    (hw : s.array.wp = false) (hd : s.blocks.drainOpening = true) (hg : s.gateHolds .drain = true)
    (hc : s.mgmt.mode = .drain ∨ s.jobsAsk = true ∧ s.blocks.retiring = []
      ∧ ∀ j, s.blocks.release = some j → j.priority = false) :
    s.arbiterChoice = some (s.startOpening .drain) := by
  have hr : s.drainOpeningRequest = some (s.startOpening .drain) := by
    unfold State.drainOpeningRequest; simp [hd, hw, hg]
  rcases hc with hm | ⟨hj, h1, h2⟩
  · unfold State.arbiterChoice
    rw [hm, grantRead_none s h]
    unfold State.drainRequest
    rw [tailRequest_none s 4 ht, hr]; rfl
  · rw [arbiterChoice_ranks s h hj, rankThree_none s ht h1 h2, ht, hr]; rfl

/-- An empty queue asks nothing. -/
theorem queueRequest_none {s : State} :
    s.queue.entries = [] → s.blocks.tailOwed = none → s.queueRequest = none := by
  intro h h2
  unfold State.queueRequest State.headRequest
  rw [tailRequest_none s 4 h2]
  simp [State.headReady, State.head, h]

/-- The copy of the release job. -/
theorem copyOf_release (s : State) : s.copyOf .release = s.blocks.release.bind (·.copy) := rfl

/-- The request of the job that is next is the choice (R97, R98). -/
theorem arbiterChoice_of_job (s : State) (k : JobKind) (h : s.atGrant = true) (hj : s.jobsAsk = true)
    (hk : s.jobIsNext k = true) (t : State) (e : s.jobRequest k = some t) : s.arbiterChoice = some t := by
  rw [arbiterChoice_ranks s h hj]
  cases k with
  | retirement =>
    simp only [State.jobIsNext, Bool.and_eq_true, decide_eq_true_eq, Bool.not_eq_true', List.all_eq_true] at hk
    obtain ⟨⟨h1, h2⟩, h3⟩ := hk
    have hne : s.blocks.retiring ≠ [] := by intro hc; rw [hc] at h2; simp at h2
    have hm : s.retireMarkRequest = none := by
      unfold State.retireMarkRequest
      have : s.blocks.retiring.find? (fun b => decide (s.liveCount b = 0)) = none := by
        rw [List.find?_eq_none]; intro x hx; have := h3 x hx; simp; omega
      rw [this]; simp
    unfold State.rankThree State.retirementRequest
    rw [tailRequest_none s 3 h1, if_neg hne, hm, e]; rfl
  | release =>
    simp only [State.jobIsNext, Bool.and_eq_true, decide_eq_true_eq, List.isEmpty_iff] at hk
    obtain ⟨⟨h1, h2⟩, h3⟩ := hk
    cases hb : s.blocks.release with
    | none => rw [hb] at h3; simp at h3
    | some j =>
      rw [hb] at h3
      dsimp only at h3
      by_cases hp : j.priority = true
      · unfold State.rankThree State.retirementRequest State.releaseRequestAt
        rw [tailRequest_none s 3 h1, if_pos h2, hb]
        simp [hp, e]
      · have hp' : j.priority = false := by simpa using hp
        rw [rankThree_none s h1 h2 (by intro j' hj'; rw [hb] at hj'; cases hj'; exact hp'), h1]
        have h5 : s.rankFive = some t := by
          unfold State.rankFive
          rw [tailRequest_none s 5 h1]
          have hrel : s.releaseRequestAt false = some t := by
            unfold State.releaseRequestAt; rw [hb]; simp [hp', e]
          rw [hp'] at h3
          simp only [Bool.false_or, Bool.and_eq_true, Bool.or_eq_true, decide_eq_true_eq] at h3
          rcases h3.2 with ht | ⟨⟨ha, hb'⟩, hc⟩
          · rw [ht]; simp [hrel]
          · have : s.reclaimRequest = none := by
              unfold State.reclaimRequest; rw [hc]; dsimp only; rw [if_pos h2]
              unfold State.jobRequest
              have : s.copyOf .reclaim = none := hb'
              rw [this]; simp [State.nextSource, ha]
            rw [this, hrel]; simp
        have h6 : s.rankFiveFirst = true := by
          rw [hp'] at h3; simp at h3; exact h3.1
        unfold State.rankFiveFirst at h6
        simp only [Bool.and_eq_true, Bool.or_eq_true, decide_eq_true_eq] at h6
        obtain ⟨h6, h7⟩ := h6
        rw [drainOpeningRequest_none s h7]
        by_cases hg : Config.hostGate ≤ s.erasedCount
        · rw [if_pos hg]
          rcases h6 with h6 | h6
          · unfold Config.hostGate at hg; omega
          · rw [queueRequest_none h6 h1, h5]; rfl
        · rw [if_neg hg, h5]; rfl
  | reclaim =>
    simp only [State.jobIsNext, Bool.and_eq_true, decide_eq_true_eq, List.isEmpty_iff] at hk
    obtain ⟨⟨⟨⟨⟨h1, h2⟩, h3⟩, h4⟩, h6⟩, h7⟩ := hk
    have hnp : ∀ j, s.blocks.release = some j → j.priority = false := by
      intro j hj'; unfold State.reclaimFirst at h7; rw [hj'] at h7; simp at h7; exact h7.1
    have hrec : s.reclaimRequest = some t := by
      unfold State.reclaimRequest; rw [h3]; dsimp only; rw [if_pos h2, e]
    have h5 : s.rankFive = some t := by
      unfold State.rankFive
      rw [tailRequest_none s 5 h1]
      unfold State.reclaimFirst at h7
      cases hb : s.blocks.release with
      | none => unfold State.releaseRequestAt; rw [hb]; simp [hrec]
      | some j => rw [hb] at h7; simp at h7; rw [h7.2]; simp [hrec]
    rw [rankThree_none s h1 h2 hnp, h1]
    unfold State.rankFiveFirst at h6
    simp only [Bool.and_eq_true, Bool.or_eq_true, decide_eq_true_eq] at h6
    obtain ⟨h6, h8⟩ := h6
    rw [drainOpeningRequest_none s h8]
    by_cases hg : Config.hostGate ≤ s.erasedCount
    · rw [if_pos hg]
      rcases h6 with h6 | h6
      · unfold Config.hostGate at hg; omega
      · rw [queueRequest_none h6 h1, h5]; rfl
    · rw [if_neg hg, h5]; rfl

/-- What the start of an operation sets. -/
theorem startOp_eq (s : State) (p b o l bs) :
    s.startOp p b o l bs = { s with array := { s.array with op := some (s.opFor p b o l bs) } } := rfl

/-- The request of a PENDING head with a slot left (R61). -/
theorem headRequest_eq (s : State) (p : Purpose) (r : Requester) (q : QEntry) (qs : List QEntry)
    (b n : Nat) (hw : s.array.wp = false) (hq : s.queue.entries = q :: qs) (hp : q.programming = false)
    (hu : s.headUnnumberable = false) (ho : s.openBlock = some b) (hn : (s.block b).nextFree = n) (h84 : n ≤ 84) :
    s.headRequest p r = some (s.issueHead p ⟨b, n⟩) := by
  unfold State.headRequest
  have : s.headReady = true := by unfold State.headReady State.head; rw [hq]; simp [hp, hu]
  rw [hw, this]
  have hs : s.nextSlot = some ⟨b,n⟩ := by unfold State.nextSlot; rw [ho]; dsimp only; rw [hn]; exact if_pos h84
  rw [hs]; rfl

/-- The request of the head of the queue is taken where nothing stands above it (R97, R156, R159). -/
theorem arbiterGrant_of_head (s : State) (t : State) (p : Purpose) (r : Requester) (h : s.atGrant = true)
    (ht : s.blocks.tailOwed = none) (hn : s.noDrainOpening = true)
    (hc : s.jobsAsk = true ∧ p = .queueProgram ∧ r = .queue ∧ s.blocks.retiring = []
        ∧ (∀ j, s.blocks.release = some j → j.priority = false)
        ∧ (3 ≤ s.erasedCount
          ∨ s.blocks.release = none ∧ s.blocks.victim = none ∧ s.blocks.reclaimCopy = none
            ∧ s.array.erase = none)
      ∨ s.mgmt.mode = .drain ∧ s.drain.phase = .draining ∧ p = .drainProgram ∧ r = .drain)
    (e : s.headRequest p r = some t) : exec .arbiterGrant s = .next t.settle := by
  apply arbiterGrant_of_choice s t h
  rcases hc with ⟨hj, rfl, rfl, h1, h2, h3⟩ | ⟨h1, h2, rfl, rfl⟩
  · rw [arbiterChoice_ranks s h hj, rankThree_none s ht h1 h2, ht, drainOpeningRequest_none s hn]
    have hqr : s.queueRequest = some t := by
      unfold State.queueRequest; rw [tailRequest_none s 4 ht, e]; rfl
    rw [hqr]
    by_cases hg : Config.hostGate ≤ s.erasedCount
    · rw [if_pos hg]; rfl
    · rw [if_neg hg]
      rcases h3 with h3 | ⟨ha, hb, hc, hd⟩
      · unfold Config.hostGate at hg; omega
      · have : s.rankFive = none := by
          unfold State.rankFive State.releaseRequestAt State.reclaimRequest State.jobRequest
          have hcc : s.copyOf .reclaim = none := hc
          rw [tailRequest_none s 5 ht, ha, hd]
          simp [h1, hcc, State.nextSource, hb]
        rw [this]; rfl
  · unfold State.arbiterChoice
    rw [h1, grantRead_none s h]
    unfold State.drainRequest
    rw [tailRequest_none s 4 ht, drainOpeningRequest_none s hn, if_pos h2, e]; rfl

/-- `distinct` keeps every member. -/
theorem mem_distinct (xs : List Slot) (x : Slot) : x ∈ distinct xs ↔ x ∈ xs := by
  induction xs with
  | nil => simp [distinct]
  | cons y ys ih =>
    unfold distinct
    split
    · rename_i h; rw [ih]; simp at h ⊢; intro e; subst e; exact h
    · simp [ih]

/-- The live records of a block. -/
theorem mem_liveSlots (s : State) (x : Slot) (b : Nat) : x ∈ s.liveSlots b ↔ s.live x = true ∧ x.block = b := by
  unfold State.liveSlots State.live; simp [mem_distinct]

/-- The record in the lowest slot of a list. -/
theorem lowestSlot_spec (xs : List Slot) :
    (lowestSlot xs = none ↔ xs = [])
      ∧ ∀ x, lowestSlot xs = some x → x ∈ xs ∧ ∀ y ∈ xs, x.slot ≤ y.slot := by
  induction xs with
  | nil => simp [lowestSlot]
  | cons z zs ih =>
    unfold lowestSlot
    cases h : lowestSlot zs with
    | none => have := ih.1.mp h; subst this; simp
    | some y =>
      obtain ⟨i1, i2⟩ := ih.2 y h
      dsimp only
      split
      · simp only [reduceCtorEq]; refine ⟨by simp, ?_⟩
        intro x hx; cases hx; refine ⟨by simp, ?_⟩; intro w hw
        rcases List.mem_cons.mp hw with rfl | hw
        · exact Nat.le_refl _
        · have := i2 w hw; omega
      · refine ⟨by simp, ?_⟩
        intro x hx; cases hx; refine ⟨by simp [i1], ?_⟩; intro w hw
        rcases List.mem_cons.mp hw with rfl | hw
        · omega
        · exact i2 w hw

/-- The live record in the lowest slot of a block (R82). -/
theorem lowestSlot_liveSlots (s : State) (x : Slot) (h : s.live x = true)
    (hm : ∀ y, s.live y = true → y.block = x.block → x.slot ≤ y.slot) :
    lowestSlot (s.liveSlots x.block) = some x := by
  have hx : x ∈ s.liveSlots x.block := (mem_liveSlots s x _).mpr ⟨h, rfl⟩
  cases hl : lowestSlot (s.liveSlots x.block) with
  | none => have := (lowestSlot_spec _).1.mp hl; rw [this] at hx; simp at hx
  | some y =>
    obtain ⟨h1, h2⟩ := (lowestSlot_spec _).2 y hl
    have hy := (mem_liveSlots s y _).mp h1
    have a := h2 x hx
    have b := hm y hy.1 hy.2
    have : y = x := by
      have e : y.slot = x.slot := by omega
      cases y; cases x; simp at e hy ⊢; exact ⟨hy.2, e⟩
    rw [this]

/-- The least worn of a list (R76): the lowest erase count, the lowest number on a tie. -/
theorem leastWorn_eq (s : State) (bs : List Nat) (b : Nat) (hb : b ∈ bs)
    (hm : ∀ d ∈ bs, (s.block b).eraseCount < (s.block d).eraseCount
      ∨ (s.block b).eraseCount = (s.block d).eraseCount ∧ b ≤ d) :
    leastWorn s bs = some b := by
  have key : ∀ (bs : List Nat), (leastWorn s bs = none → bs = []) ∧ ∀ x, leastWorn s bs = some x → x ∈ bs
      ∧ ∀ d ∈ bs, (s.block x).eraseCount < (s.block d).eraseCount
        ∨ (s.block x).eraseCount = (s.block d).eraseCount ∧ x ≤ d := by
    intro bs
    induction bs with
    | nil => simp [leastWorn]
    | cons c cs ih =>
      unfold leastWorn
      cases h : leastWorn s cs with
      | none => have := ih.1 h; subst this; simp
      | some y =>
        obtain ⟨i1, i2⟩ := ih.2 y h
        dsimp only
        by_cases hl : lessWorn s y c = true
        · rw [if_pos hl]
          refine ⟨by simp, ?_⟩
          intro x hx; cases hx
          refine ⟨by simp [i1], ?_⟩
          intro d hd
          rcases List.mem_cons.mp hd with rfl | hd
          · simp [lessWorn] at hl; omega
          · exact i2 d hd
        · rw [if_neg hl]
          refine ⟨by simp, ?_⟩
          intro x hx; cases hx
          refine ⟨by simp, ?_⟩
          intro d hd
          rcases List.mem_cons.mp hd with rfl | hd
          · omega
          · have := i2 d hd
            simp [lessWorn] at hl
            omega
  cases h : leastWorn s bs with
  | none => have := (key bs).1 h; subst this; simp at hb
  | some y =>
    obtain ⟨h1, h2⟩ := (key bs).2 y h
    have a := h2 b hb
    have c := hm y h1
    congr 1; omega

/-- The block an opening takes (R76): the least worn ERASED block. -/
theorem blockToOpen_eq (s : State) (b : Nat) (hw : Sparse.wf BlockEntry.unknown s.blocks.table = true)
    (hb : (s.block b).state = .erased)
    (hm : ∀ d, (s.block d).state = .erased → (s.block b).eraseCount < (s.block d).eraseCount
      ∨ (s.block b).eraseCount = (s.block d).eraseCount ∧ b ≤ d) :
    s.blockToOpen = some b := by
  unfold State.blockToOpen
  refine leastWorn_eq s _ b ?_ ?_
  · refine List.mem_map.mpr ⟨(b, s.block b), List.mem_filter.mpr ⟨?_, by simpa using hb⟩, rfl⟩
    refine Sparse.mem_of_get _ _ _ _ rfl ?_
    intro hc
    have : (s.block b).state = .full := by rw [hc]; rfl
    rw [hb] at this
    cases this
  · intro d hd
    obtain ⟨⟨k, e⟩, he, rfl⟩ := List.mem_map.mp hd
    obtain ⟨h1, h2⟩ := List.mem_filter.mp he
    have hg : s.block k = e := Sparse.get_of_mem _ _ _ _ hw h1
    exact hm k (by rw [hg]; simpa using h2)

end Sys2Proof.Machine
end

