-- ==== Sys2Proof/Laws/Rounds.lean ====
section
/-! SUPPORT. What the rounds of reactions (R13, R130, R132, R158, R159, R161, R191) leave alone beside the standing part: the
block manager, the mount engine, the erase in hand, the release request, the SPACE_LOW status, whether an operation is in
flight, command hold and the cut of WIPE. -/

namespace Sys2Proof.Machine

/-- What the rounds leave to the tail of the reactions. -/
structure Works where
  blocks : BlockManager
  mount : Option Mount
  erase : Option EraseJob
  release : Option ReleaseRequest
  spaceLow : Bool
  flying : Bool
  held : Bool
  cut : Bool

/-- The part of a state that the rounds leave alone. -/
def State.works (s : State) : Works :=
  { blocks := s.blocks, mount := s.mount, erase := s.array.erase, release := s.windows.release,
    spaceLow := s.mgmt.spaceLow, flying := s.array.op.isSome, held := s.commandHold, cut := s.wipeCut }

/-! ### Shared operations -/

@[simp] theorem works_raise (s : State) (e : Event) : (s.raise e).works = s.works := rfl
@[simp] theorem works_setEntry (s : State) (l : Nat) (e : TableEntry) : (s.setEntry l e).works = s.works := rfl
@[simp] theorem works_setWindow (s : State) (w : Nat) (x : Window) : (s.setWindow w x).works = s.works := rfl
@[simp] theorem works_setReg (s : State) (i : Nat) (x : RegEntry) : (s.setReg i x).works = s.works := rfl
@[simp] theorem works_setRequest (s : State) (r : Request) : (s.setRequest r).works = s.works := rfl
@[simp] theorem works_dropHead (s : State) : s.dropHead.works = s.works := rfl
@[simp] theorem works_setHead (s : State) (q : QEntry) : (s.setHead q).works = s.works := rfl
@[simp] theorem works_freeFault (s : State) : s.freeFault.works = s.works := rfl

@[simp] theorem works_reportFault (s : State) (f : FaultReport) : (s.reportFault f).works = s.works := by
  unfold State.reportFault; split <;> rfl

@[simp] theorem works_edge (s : State) (sel : EdgeSel) (e : Event) (a b : Bool) :
    (s.edge sel e a b).works = s.works := by
  unfold State.edge; split_ifs <;> simp

@[simp] theorem works_wake (s : State) : s.wake.works = s.works := by
  unfold State.wake; split
  · rfl
  · split_ifs <;> rfl

/-! ### Windows and the group register -/

@[simp] theorem works_askCommit (s : State) (r : CommitRequest) : (s.askCommit r).works = s.works := by
  unfold State.askCommit; split_ifs <;> rfl

@[simp] theorem works_reserve (s : State) (w g i : Nat) : (s.reserve w g i).works = s.works := by
  simp [State.reserve]

@[simp] theorem works_closeGroup (s : State) (w g : Nat) : (s.closeGroup w g).works = s.works := by
  unfold State.closeGroup; dsimp only; split <;> simp

@[simp] theorem works_closeTrigger (s : State) (t : Tag) : (s.closeTrigger t).works = s.works := by
  unfold State.closeTrigger; split_ifs <;> simp

@[simp] theorem works_offerRegister (s : State) : s.offerRegister.works = s.works := by
  unfold State.offerRegister; split <;> simp

@[simp] theorem works_freeDeadGroups (s : State) : s.freeDeadGroups.works = s.works := rfl

@[simp] theorem works_createShadow (s : State) (l w : Nat) : (s.createShadow l w).works = s.works := by
  unfold State.createShadow; split_ifs <;> rfl

@[simp] theorem works_openGroup (s : State) (w : Nat) : (s.openGroup w).works = s.works := by
  unfold State.openGroup; split_ifs <;> rfl

@[simp] theorem works_tagPiece (s : State) (p : Piece) : (s.tagPiece p).1.works = s.works := by
  unfold State.tagPiece
  split_ifs
  · split <;> simp
  · rfl

@[simp] theorem works_tagPieces (s : State) (ps : List Piece) : (s.tagPieces ps).1.works = s.works := by
  induction ps generalizing s with
  | nil => rfl
  | cons p ps ih => simp [State.tagPieces, ih]

@[simp] theorem works_commitCompletion (s : State) (w g i : Nat) (x : Slot) :
    (s.commitCompletion w g i x).works = s.works := by
  unfold State.commitCompletion
  simp only [works_wake]
  split_ifs <;> simp <;> rfl

@[simp] theorem works_revert (s : State) (x : ShadowEntry) : (s.revert x).works = s.works := by
  unfold State.revert; dsimp only; split_ifs <;> simp

theorem works_foldl_revert (xs : List ShadowEntry) (s : State) : (xs.foldl State.revert s).works = s.works := by
  induction xs generalizing s with
  | nil => rfl
  | cons x xs ih => simp [ih]

@[simp] theorem works_revertWindow (s : State) (w : Nat) : (s.revertWindow w).works = s.works :=
  works_foldl_revert _ s

@[simp] theorem works_freeRegisterOf (s : State) (x : Window) : (s.freeRegisterOf x).works = s.works := by
  unfold State.freeRegisterOf; split <;> simp

@[simp] theorem works_queueAbort (s : State) (t : Tag) : (s.queueAbort t).works = s.works := rfl

@[simp] theorem works_abortGroup (s : State) (w : Nat) : (s.abortGroup w).works = s.works := by
  unfold State.abortGroup; dsimp only; split <;> simp

@[simp] theorem works_lostCommit (s : State) (w : Nat) : (s.lostCommit w).works = s.works := by
  simp [State.lostCommit]

@[simp] theorem works_disarmWindow (s : State) (w : Nat) : (s.disarmWindow w).works = s.works := rfl

@[simp] theorem works_stopWindow (s : State) (w : Nat) : (s.stopWindow w).works = s.works := by
  unfold State.stopWindow; dsimp only
  split <;> (try split_ifs) <;> simp

@[simp] theorem works_stopWindows (s : State) : s.stopWindows.works = s.works := by
  simp [State.stopWindows]

/-! ### Modes and the drain -/

@[simp] theorem works_setMode (s : State) (m : Mode) : (s.setMode m).works = s.works := by
  unfold State.setMode
  simp only [works_wake, works_raise]
  cases m <;> first | rfl | exact works_stopWindows s

@[simp] theorem works_degrade (s : State) : s.degrade.works = s.works := by
  unfold State.degrade
  split_ifs
  · split <;> first | rfl | exact works_setMode _ _
  · rfl

@[simp] theorem works_endDrain (s : State) : s.endDrain.works = s.works := by
  unfold State.endDrain; simp; rfl

@[simp] theorem works_reachDrained (s : State) : s.reachDrained.works = s.works := by
  unfold State.reachDrained; dsimp only
  split_ifs
  · simp; rfl
  · rfl

@[simp] theorem works_noteDiscard (s : State) (b : Bool) : (s.noteDiscard b).works = s.works := by
  unfold State.noteDiscard
  split_ifs
  · split <;> first | rfl | (rename_i h; simp [State.works, State.commandHold, State.wipeCut, State.hold, h])
  · rfl

@[simp] theorem works_discardEffects (s : State) (q : QEntry) (x : Option Slot) :
    (s.discardEffects q x).works = s.works := by
  unfold State.discardEffects
  cases q <;> simp

@[simp] theorem works_discardStuck (n : Nat) (s : State) : (s.discardStuck n).works = s.works := by
  induction n generalizing s with
  | zero => rfl
  | succ n ih =>
    unfold State.discardStuck
    split_ifs
    · split
      · simp [ih]
      · rfl
    · rfl

theorem works_foldl_discard (qs : List QEntry) (s : State) :
    (qs.foldl (fun t q => t.discardEffects q none) s).works = s.works := by
  induction qs generalizing s with
  | nil => rfl
  | cons q qs ih => simp [ih]

@[simp] theorem works_discardAll (s : State) : s.discardAll.works = s.works := by
  unfold State.discardAll
  exact works_foldl_discard _ _

@[simp] theorem works_drainStep (s : State) : s.drainStep.works = s.works := by
  unfold State.drainStep; dsimp only
  split_ifs <;> simp

/-! ### The port -/

@[simp] theorem works_abandonRead (s : State) : s.abandonRead.works = s.works := by
  unfold State.abandonRead
  split
  · rfl
  · rename_i h
    split <;> first | rfl | simp [State.works, State.commandHold, State.wipeCut, h]

@[simp] theorem works_respond (s : State) (c : Option Cause) (d : List Byte) :
    (s.respond c d).works = s.works := works_abandonRead s

@[simp] theorem works_refuse (s : State) (f : FaultReport) (d : List Byte) : (s.refuse f d).works = s.works := by
  simp [State.refuse]

@[simp] theorem works_endRequest (s : State) (r : Request) (c : Cause) : (s.endRequest r c).works = s.works := by
  simp [State.endRequest]

@[simp] theorem works_waitChecking (s : State) (r : Request) : (s.waitChecking r).works = s.works := by
  simp [State.waitChecking]

@[simp] theorem works_enterHandOver (s : State) (r : Request) : (s.enterHandOver r).works = s.works := by
  unfold State.enterHandOver
  split <;> simp

@[simp] theorem works_checkWindows (s : State) (r : Request) : (s.checkWindows r).works = s.works := by
  unfold State.checkWindows
  split_ifs
  · simp
  · split <;> simp

@[simp] theorem works_checkRange (s : State) (r : Request) : (s.checkRange r).works = s.works := by
  unfold State.checkRange
  split
  · simp
  all_goals (split <;> simp)

@[simp] theorem works_checkWrite (s : State) (r : Request) : (s.checkWrite r).works = s.works := by
  unfold State.checkWrite
  split_ifs
  · simp
  all_goals (split <;> simp)

@[simp] theorem works_stepHandOver (s : State) (r : Request) : (s.stepHandOver r).works = s.works := by
  unfold State.stepHandOver
  split_ifs
  · simp
  all_goals (split <;> simp)

@[simp] theorem works_answerRead (s : State) (r : Request) : (s.answerRead r).works = s.works := by
  unfold State.answerRead; dsimp only
  split_ifs
  · split
    · simp
    · split <;> simp
  · simp

@[simp] theorem works_stepRead (s : State) (r : Request) : (s.stepRead r).works = s.works := by
  unfold State.stepRead
  split <;> (try split_ifs) <;> simp

@[simp] theorem works_checkRead (s : State) (r : Request) : (s.checkRead r).works = s.works := by
  unfold State.checkRead
  split <;> simp

@[simp] theorem works_portStep (s : State) : s.portStep.works = s.works := by
  unfold State.portStep
  split
  · rfl
  · split <;> (try split_ifs) <;> simp

/-! ### The rounds -/

@[simp] theorem works_settleGroups (s : State) : s.settleGroups.works = s.works := by
  simp [State.settleGroups]

@[simp] theorem works_settleRound (s : State) : s.settleRound.works = s.works := by
  simp [State.settleRound]

theorem works_flying (s : State) : s.works.flying = s.array.op.isSome := rfl
theorem works_held (s : State) : s.works.held = s.commandHold := rfl
theorem works_cut (s : State) : s.works.cut = s.wipeCut := rfl

@[simp] theorem settleRound_blocks (s : State) : s.settleRound.blocks = s.blocks :=
  congrArg Works.blocks (works_settleRound s)

@[simp] theorem settleRound_mount (s : State) : s.settleRound.mount = s.mount :=
  congrArg Works.mount (works_settleRound s)

@[simp] theorem settleRound_erase (s : State) : s.settleRound.array.erase = s.array.erase :=
  congrArg Works.erase (works_settleRound s)

@[simp] theorem settleRound_release (s : State) : s.settleRound.windows.release = s.windows.release :=
  congrArg Works.release (works_settleRound s)

@[simp] theorem settleRound_spaceLow (s : State) : s.settleRound.mgmt.spaceLow = s.mgmt.spaceLow :=
  congrArg Works.spaceLow (works_settleRound s)

@[simp] theorem settleRound_op_isSome (s : State) : s.settleRound.array.op.isSome = s.array.op.isSome := by
  rw [← works_flying, works_settleRound, works_flying]

@[simp] theorem settleRound_commandHold (s : State) : s.settleRound.commandHold = s.commandHold := by
  rw [← works_held, works_settleRound, works_held]

@[simp] theorem settleRound_wipeCut (s : State) : s.settleRound.wipeCut = s.wipeCut := by
  rw [← works_cut, works_settleRound, works_cut]

end Sys2Proof.Machine
end

