-- ==== Sys2Proof/Laws/Halted.lean ====
section
/-! SUPPORT. What the entry to HALTED (R105, R160, R190) does: the mode, MODE_CHANGE and the command in progress; and that it
leaves the flash, the array port, mount and the fault pending alone, and the port when no event takes its request up
afresh. -/

namespace Sys2Proof.Machine

/-- The flash, the array port, the drain, the fault pending and mount. -/
def State.keeps (s : State) : List Host.Cell × ArrayPort × Drain × Option FaultReport × Option Mount :=
  (s.flash, s.array, s.drain, s.mgmt.fault, s.mount)

/-! ### Shared operations -/

@[simp] theorem keeps_raise (s : State) (e : Event) : (s.raise e).keeps = s.keeps := rfl
@[simp] theorem keeps_setEntry (s : State) (l : Nat) (e : TableEntry) : (s.setEntry l e).keeps = s.keeps := rfl
@[simp] theorem keeps_setWindow (s : State) (w : Nat) (x : Window) : (s.setWindow w x).keeps = s.keeps := rfl
@[simp] theorem keeps_setReg (s : State) (i : Nat) (x : RegEntry) : (s.setReg i x).keeps = s.keeps := rfl
@[simp] theorem keeps_setRequest (s : State) (r : Request) : (s.setRequest r).keeps = s.keeps := rfl
@[simp] theorem keeps_setPiece (s : State) (r : Request) (i : Nat) (p : Piece) : (s.setPiece r i p).keeps = s.keeps := rfl

@[simp] theorem keeps_losePiece (s : State) (i : Nat) : (s.losePiece i).keeps = s.keeps := by
  unfold State.losePiece; repeat' split
  all_goals rfl

@[simp] theorem keeps_hold (s : State) (a : Activity) : (s.hold a).keeps = s.keeps := rfl
@[simp] theorem keeps_complete (s : State) (r : Ret) (bs : List Byte) : (s.complete r bs).keeps = s.keeps := rfl
@[simp] theorem keeps_dropHead (s : State) : s.dropHead.keeps = s.keeps := rfl
@[simp] theorem keeps_setHead (s : State) (q : QEntry) : (s.setHead q).keeps = s.keeps := rfl

@[simp] theorem keeps_edge (s : State) (sel : EdgeSel) (e : Event) (a b : Bool) :
    (s.edge sel e a b).keeps = s.keeps := by
  unfold State.edge; split_ifs <;> simp

@[simp] theorem keeps_wake (s : State) : s.wake.keeps = s.keeps := by
  unfold State.wake; split
  · rfl
  · split_ifs <;> rfl

/-! ### Windows and the group register -/

@[simp] theorem keeps_askCommit (s : State) (r : CommitRequest) : (s.askCommit r).keeps = s.keeps := by
  unfold State.askCommit; split_ifs <;> rfl

@[simp] theorem keeps_reserve (s : State) (w g i : Nat) : (s.reserve w g i).keeps = s.keeps := by
  simp [State.reserve]

@[simp] theorem keeps_closeGroup (s : State) (w g : Nat) : (s.closeGroup w g).keeps = s.keeps := by
  unfold State.closeGroup; dsimp only; split <;> simp

@[simp] theorem keeps_closeTrigger (s : State) (t : Tag) : (s.closeTrigger t).keeps = s.keeps := by
  unfold State.closeTrigger; split_ifs <;> simp

@[simp] theorem keeps_offerRegister (s : State) : s.offerRegister.keeps = s.keeps := by
  unfold State.offerRegister; split <;> simp

@[simp] theorem keeps_freeDeadGroups (s : State) : s.freeDeadGroups.keeps = s.keeps := rfl

@[simp] theorem keeps_createShadow (s : State) (l w : Nat) : (s.createShadow l w).keeps = s.keeps := by
  unfold State.createShadow; split_ifs <;> rfl

@[simp] theorem keeps_openGroup (s : State) (w : Nat) : (s.openGroup w).keeps = s.keeps := by
  unfold State.openGroup; split_ifs <;> rfl

@[simp] theorem keeps_tagPiece (s : State) (p : Piece) : (s.tagPiece p).1.keeps = s.keeps := by
  unfold State.tagPiece
  split_ifs
  · split <;> simp
  · rfl

@[simp] theorem keeps_tagPieces (s : State) (ps : List Piece) : (s.tagPieces ps).1.keeps = s.keeps := by
  induction ps generalizing s with
  | nil => rfl
  | cons p ps ih => simp [State.tagPieces, ih]

@[simp] theorem keeps_commitCompletion (s : State) (w g i : Nat) (x : Slot) :
    (s.commitCompletion w g i x).keeps = s.keeps := by
  unfold State.commitCompletion
  simp only [keeps_wake]
  split_ifs <;> simp <;> rfl

@[simp] theorem keeps_revert (s : State) (x : ShadowEntry) : (s.revert x).keeps = s.keeps := by
  unfold State.revert; dsimp only; split_ifs <;> simp

theorem keeps_foldl_revert (xs : List ShadowEntry) (s : State) : (xs.foldl State.revert s).keeps = s.keeps := by
  induction xs generalizing s with
  | nil => rfl
  | cons x xs ih => simp [ih]

@[simp] theorem keeps_revertWindow (s : State) (w : Nat) : (s.revertWindow w).keeps = s.keeps :=
  keeps_foldl_revert _ s

@[simp] theorem keeps_freeRegisterOf (s : State) (x : Window) : (s.freeRegisterOf x).keeps = s.keeps := by
  unfold State.freeRegisterOf; split <;> simp

@[simp] theorem keeps_queueAbort (s : State) (t : Tag) : (s.queueAbort t).keeps = s.keeps := rfl

@[simp] theorem keeps_abortGroup (s : State) (w : Nat) : (s.abortGroup w).keeps = s.keeps := by
  unfold State.abortGroup; dsimp only; split <;> simp

@[simp] theorem keeps_lostCommit (s : State) (w : Nat) : (s.lostCommit w).keeps = s.keeps := by
  simp [State.lostCommit]

@[simp] theorem keeps_disarmWindow (s : State) (w : Nat) : (s.disarmWindow w).keeps = s.keeps := rfl

@[simp] theorem keeps_stopWindow (s : State) (w : Nat) : (s.stopWindow w).keeps = s.keeps := by
  unfold State.stopWindow; dsimp only
  split <;> (try split_ifs) <;> simp

@[simp] theorem keeps_stopWindows (s : State) : s.stopWindows.keeps = s.keeps := by
  simp [State.stopWindows]

/-! ### Modes and the drain -/

@[simp] theorem keeps_setMode (s : State) (m : Mode) : (s.setMode m).keeps = s.keeps := by
  unfold State.setMode
  simp only [keeps_wake, keeps_raise]
  cases m <;> first | rfl | exact keeps_stopWindows s


/-! ### The entry to HALTED -/

@[simp] theorem keeps_completeAppend (s : State) (c : Code) (r : Ret) : (s.completeAppend c r).keeps = s.keeps := by
  unfold State.completeAppend; simp

@[simp] theorem keeps_haltCommand (s : State) : s.haltCommand.keeps = s.keeps := by
  unfold State.haltCommand; split <;> simp

/-- A wake leaves the management unit alone. -/
theorem wake_mgmt (s : State) : s.wake.mgmt = s.mgmt := by
  unfold State.wake; split
  · rfl
  · split_ifs <;> rfl

/-- Where a command in progress ends with HALTED, none is left; the mode stays, and a set event stays set. -/
theorem haltCommand_spec (z : State) :
    z.haltCommand.mgmt.mode = z.mgmt.mode ∧ (z.eventSet .modeChange = true → z.haltCommand.eventSet .modeChange = true)
      ∧ z.haltCommand.activity = none := by
  have hc : ∀ r bs, (z.complete r bs).mgmt.mode = z.mgmt.mode
      ∧ (z.eventSet .modeChange = true → (z.complete r bs).eventSet .modeChange = true)
      ∧ (z.complete r bs).mgmt.command = .zero := by
    intro r bs
    refine ⟨rfl, fun h => ?_, rfl⟩
    show (setEvent z.mgmt.events .cmdDone).getLsbD _ = true
    unfold State.eventSet at h
    unfold setEvent
    simp [h]
  have hw : ∀ r bs, (z.complete r bs).wake.mgmt.mode = z.mgmt.mode
      ∧ (z.eventSet .modeChange = true → (z.complete r bs).wake.eventSet .modeChange = true)
      ∧ (z.complete r bs).wake.mgmt.command = .zero := by
    intro r bs
    unfold State.eventSet
    rw [wake_mgmt]
    exact hc r bs
  unfold State.haltCommand State.activity
  cases h : z.mgmt.command with
  | zero => exact ⟨rfl, id, by rw [h]⟩
  | unkn => exact ⟨rfl, id, by rw [h]⟩
  | active a =>
    cases a with
    | sync d =>
      have := hc (if d || z.marksRemain then .media else .done) []
      exact ⟨this.1, this.2.1, by rw [this.2.2]⟩
    | svce d => have := hw .media []; exact ⟨this.1, this.2.1, by rw [this.2.2]⟩
    | rsts d => have := hw .media []; exact ⟨this.1, this.2.1, by rw [this.2.2]⟩
    | append c n i =>
      have := hw .media (z.appendResults c)
      exact ⟨this.1, this.2.1, by unfold State.completeAppend; rw [this.2.2]⟩
    | wipe c d => have := hc .media []; exact ⟨this.1, this.2.1, by rw [this.2.2]⟩

/-- The entry to HALTED (R105, R160): a drain ends without finishing, MODE_CHANGE is raised, no command is left; the flash,
the array port, mount and the fault pending stay. -/
theorem enterHalted_spec (s : State) :
    s.enterHalted.flash = s.flash ∧ s.enterHalted.array = s.array
      ∧ s.enterHalted.drain = { s.drain with phase := .inactive, returnMode := none, releasePending := false }
      ∧ s.enterHalted.mgmt.fault = s.mgmt.fault ∧ s.enterHalted.mount = s.mount
      ∧ s.enterHalted.mgmt.mode = .halted ∧ s.enterHalted.eventSet .modeChange = true
      ∧ s.enterHalted.activity = none := by
  have h : s.enterHalted.keeps = ({ s with
      drain := { s.drain with phase := .inactive, returnMode := none, releasePending := false } } : State).keeps := by
    unfold State.enterHalted; simp
  unfold State.keeps at h
  simp only [Prod.mk.injEq] at h
  have hm : ∀ z : State, (z.setMode .halted).mgmt.mode = .halted ∧ (z.setMode .halted).eventSet .modeChange = true := by
    intro z
    unfold State.eventSet State.setMode
    rw [wake_mgmt]
    refine ⟨rfl, ?_⟩
    show (setEvent _ _).getLsbD _ = true
    unfold setEvent; simp [Event.bit]
  refine ⟨h.1, h.2.1, h.2.2.1, h.2.2.2.1, h.2.2.2.2, ?_, ?_, ?_⟩
  · exact (haltCommand_spec _).1.trans (hm _).1
  · exact (haltCommand_spec _).2.1 (hm _).2
  · exact (haltCommand_spec _).2.2

/-- The end of the command in progress leaves a port alone whose request no event takes up afresh. -/
theorem haltCommand_port (s : State) (h : s.port.unwoken) : s.haltCommand.port = s.port := by
  have hw : ∀ r bs, (s.complete r bs).wake.port = s.port := fun r bs => by
    rw [wake_of_unwoken (s.complete r bs) h]; rfl
  unfold State.haltCommand
  split <;> first | rfl | exact hw _ _

/-- So does the entry to HALTED. -/
theorem enterHalted_port (s : State) (h : s.port.unwoken) : s.enterHalted.port = s.port := by
  have hm := setMode_port
    { s with drain := { s.drain with phase := .inactive, returnMode := none, releasePending := false } } .halted h
  exact (haltCommand_port _ (Port.unwoken_of_eq hm h)).trans hm

end Sys2Proof.Machine
end

