-- ==== Sys2Proof/Laws/Outcomes.lean ====
section
/-! SUPPORT. What the shared operations of the array port's outcomes do, said once: how an end of a program, a read or a limit is
taken, what a failure makes of its block, what a report and a fault leave alone, the tail mark owed, windows that stop, a
close, a revert. -/

namespace Sys2Proof.Machine

/-! ### An event taken -/

/-- An event taken with power on answers its effect with what follows at once. -/
theorem taken_eq (s : State) (f : State → State) (x : State) (h : s.power = .on) (e : f s = x) :
    s.taken f = .next x.settle := by
  rw [taken_on s f h, e]

/-- A program that ended, of a purpose the event is for, hands its outcome to its requester (R96, R104). -/
theorem taken_programEnd (s : State) (is : State → Purpose → Bool) (o : Op) (stored readBack : Upset) (h : s.power = .on)
    (ho : s.array.op = some o) (hi : is s o.purpose = true) (hs : o.statusWait = false) :
    s.taken (fun s => s.programEnd (is s) (.ended stored readBack))
      = .next ((s.endOp o stored readBack).1.takeOutcome o (s.endOp o stored readBack).2).settle := by
  refine taken_eq s _ _ h ?_
  simp [State.programEnd, ho, hi, hs]

/-- A read that completed, of a purpose the event is for, is taken with the flash free (R104). -/
theorem taken_readEnd (s : State) (is : Purpose → Bool) (take : State → Op → State) (o : Op) (h : s.power = .on)
    (ho : s.array.op = some o) (hi : is o.purpose = true) (hs : o.statusWait = false) :
    s.taken (fun s => s.readEnd is take) = .next (take s.opEnded o).settle := by
  refine taken_eq s _ _ h ?_
  simp [State.readEnd, ho, hi, hs]

/-- The limit of the operation in flight expires (R102). -/
theorem taken_timeOut (s : State) (o : Op) (left : Remnant) (h : s.power = .on) (ho : s.array.op = some o) :
    s.taken (fun s => s.timeOut left) = .next (s.opTimeout o left).settle := by
  refine taken_eq s _ _ h ?_
  simp [State.timeOut, ho]

/-- The limit of a part of an erase in flight expires (R102). -/
theorem taken_eraseTimeout (s : State) (j : EraseJob) (left : Remnant) (h : s.power = .on) (ho : s.array.op = none)
    (hj : s.array.erase = some j) (ht : j.part.timed = true) :
    s.taken (fun s => s.timeOut left) = .next (s.eraseTimeout j left).settle := by
  refine taken_eq s _ _ h ?_
  simp [State.timeOut, ho, hj, ht]

/-! ### The array port under a completed read (R41, R50) -/

/-- A report of a media event leaves the array port alone. -/
@[simp] theorem report_array (s : State) (c : HealthClass) : (s.report c).array = s.array := by
  unfold State.report; split_ifs <;> rfl

/-- A fault report leaves the array port alone. -/
@[simp] theorem reportFault_array (s : State) (f : FaultReport) : (s.reportFault f).array = s.array := by
  unfold State.reportFault; split <;> rfl

/-- A failed record check leaves the array port alone (R42). -/
@[simp] theorem checkFailure_array (s : State) (line : Nat) (x : Slot) : (s.checkFailure line x).array = s.array := by
  unfold State.checkFailure
  split_ifs <;> simp

/-- With no operation in flight the end of a request leaves the array port alone (R44). -/
theorem refuse_array (s : State) (f : FaultReport) (data : List Byte) (h : s.array.op = none) :
    (s.refuse f data).array = s.array := by
  unfold State.refuse State.respond State.abandonRead
  rw [reportFault_array, h]

/-- A completed read piece leaves the array port as its end has it (R41, R104). -/
theorem takePiece_array (s : State) (o : Op) (received : Upset) : (State.takePiece received s o).array = s.array := by
  unfold State.takePiece
  split_ifs
  · rfl
  · split
    · unfold State.pieceRead
      split
      · rfl
      · dsimp only [State.setPiece]
        split_ifs <;> simp
    · rfl

/-- A completed merge read leaves the array port as its end has it (R50, R104). -/
theorem takeMerge_array (s : State) (o : Op) (received : Upset) (h : s.array.op = none) :
    (State.takeMerge received s o).array = s.array := by
  unfold State.takeMerge
  split_ifs
  · rfl
  · split
    · unfold State.mergeDone
      split
      · rfl
      · dsimp only [State.setPiece]
        split_ifs
        · rfl
        · rw [refuse_array _ _ _ (by simpa using h), checkFailure_array]
    · rfl

/-! ### The outcome of a program (R96) -/

/-- The machine with the flash free and what a program stored in it. -/
def State.programmed (s : State) (o : Op) (stored : Upset) : State :=
  { s with
    flash := flashWrite s.flash (4096 * o.block + o.offset) (overlay o.bytes stored),
    array := { s.array with op := none, timeouts := 0 } }

/-- Without a VERIFY arm that fits, the outcome is what the read-back says (R96). -/
theorem endOp_of_unarmed (s : State) (o : Op) (stored readBack : Upset)
    (h : ¬(s.health.arm = .verify ∧ o.block ≠ 0 ∧ o.length = 48 ∧ isLineRecord o.bytes = true)) :
    s.endOp o stored readBack
      = (s.programmed o stored, if overlay (overlay o.bytes stored) readBack = o.bytes then .pass else .fail) :=
  (if_neg h).trans rfl

/-- A VERIFY arm that fits makes the outcome a Fail and is consumed (R170). -/
theorem endOp_of_armed (s : State) (o : Op) (stored readBack : Upset)
    (h : s.health.arm = .verify ∧ o.block ≠ 0 ∧ o.length = 48 ∧ isLineRecord o.bytes = true) :
    s.endOp o stored readBack = ((s.programmed o stored).disarm, .fail) := (if_pos h).trans rfl

/-- The tail mark owed, as a record update (R77). -/
theorem oweTailMark_eq (s : State) (x : Slot) (r : Requester) :
    s.oweTailMark x r = { s with blocks := { s.blocks with
      tailOwed := if x.slot = 84 ∧ (s.block x.block).state = .opened then
          some (if s.mgmt.mode = .drain then .drain else r) else s.blocks.tailOwed } } := by
  unfold State.oweTailMark
  by_cases h : x.slot = 84 ∧ (s.block x.block).state = .opened
  · rw [if_pos h]; exact if_pos h
  · rw [if_neg h]; exact if_neg h

/-! ### Blocks under a failure (R87, R90) -/

/-- A block entry set is the one read. -/
theorem block_setBlock (s : State) (b : Nat) (e : BlockEntry) (h : Sparse.wf BlockEntry.unknown s.blocks.table = true) :
    (s.setBlock b e).block b = e := Sparse.get_set_same _ _ _ _ h

/-- Setting an entry twice is setting it once. -/
theorem Sparse.set_set {α : Type} [DecidableEq α] (d : α) (m : Sparse α) (a : Nat) (v w : α)
    (h : Sparse.wf d m = true) : Sparse.set d (Sparse.set d m a v) a w = Sparse.set d m a w := by
  have key : ∀ (m : Sparse α), (∀ c ∈ m, a < c.1) → ∀ w, Sparse.set d m a w = if w = d then m else (a, w) :: m := by
    intro m hm w
    cases m with
    | nil => rfl
    | cons c m =>
      obtain ⟨k, x⟩ := c
      have : a < k := hm (k, x) (by simp)
      unfold Sparse.set; rw [if_pos this]
  induction m with
  | nil =>
    have e1 : ∀ z, Sparse.set d [] a z = if z = d then [] else [(a, z)] := fun _ => rfl
    rw [e1, e1]
    by_cases hv : v = d
    · rw [if_pos hv, e1]
    · rw [if_neg hv, Sparse.set, if_neg (by omega), if_pos rfl]
  | cons c m ih =>
    obtain ⟨k, x⟩ := c
    rw [Sparse.wf_cons] at h
    by_cases h1 : a < k
    · have hc : ∀ c ∈ (k, x) :: m, a < c.1 := by
        intro c hc
        rcases List.mem_cons.mp hc with rfl | hc
        · exact h1
        · have := h.2.1 c hc; omega
      rw [key _ hc v, key _ hc w]
      by_cases hv : v = d
      · rw [if_pos hv, key _ hc w]
      · rw [if_neg hv]; unfold Sparse.set; rw [if_neg (by omega), if_pos rfl]
    · by_cases h2 : a = k
      · subst h2
        have hm : ∀ c ∈ m, a < c.1 := h.2.1
        have e1 : ∀ z, Sparse.set d ((a, x) :: m) a z = if z = d then m else (a, z) :: m := by
          intro z; rw [Sparse.set, if_neg (by omega), if_pos rfl]
        rw [e1, e1]
        by_cases hv : v = d
        · rw [if_pos hv, key _ hm w]
        · rw [if_neg hv]; rw [Sparse.set, if_neg (by omega), if_pos rfl]
      · have e1 : ∀ (m) (z), Sparse.set d ((k, x) :: m) a z = (k, x) :: Sparse.set d m a z := by
          intro m z; rw [Sparse.set, if_neg h1, if_neg h2]
        rw [e1, e1, e1, ih h.2.2]

/-- A failure short of the third in a row adds one (R87). -/
theorem blockFailed_of_le (s : State) (b : Nat) (h : (s.block b).failures ≤ 1) :
    s.blockFailed b = s.setBlock b { s.block b with failures := (s.block b).failures + 1 } := by
  have : min ((s.block b).failures + 1) Config.blockFailures = (s.block b).failures + 1 := by
    simp only [Config.blockFailures]; omega
  unfold State.blockFailed
  dsimp only
  rw [this, if_neg (by simp only [Config.blockFailures]; omega)]

/-- A block in OPEN or FULL enters RETIRING (R90). -/
theorem retireBlock_eq (s : State) (b : Nat) (h : (s.block b).state = .opened ∨ (s.block b).state = .full) :
    s.retireBlock b = (({ s with blocks := { s.blocks with
        table := Sparse.set BlockEntry.unknown s.blocks.table b { s.block b with state := .retiring, nextFree := 0 },
        retiring := s.blocks.retiring ++ [b],
        tailOwed := if (s.block b).state = .opened then none else s.blocks.tailOwed } } : State).raise
          .blockRetired).reportFault { faultOf .blockRetired with block := some b } := by
  unfold State.retireBlock; dsimp only; rw [if_pos h]; rfl

/-- A block in any other state does not (R90). -/
theorem retireBlock_of_other (s : State) (b : Nat)
    (h : ¬((s.block b).state = .opened ∨ (s.block b).state = .full)) : s.retireBlock b = s := by
  unfold State.retireBlock; dsimp only; rw [if_neg h]

/-- The third failure in a row of an OPEN or FULL block (R87, R90). -/
theorem blockFailed_third (s : State) (b : Nat) (hw : Sparse.wf BlockEntry.unknown s.blocks.table = true)
    (h2 : (s.block b).failures = 2) (h : (s.block b).state = .opened ∨ (s.block b).state = .full) :
    s.blockFailed b = (({ s with blocks := { s.blocks with
        table := Sparse.set BlockEntry.unknown s.blocks.table b
          { s.block b with state := .retiring, nextFree := 0, failures := 3 },
        retiring := s.blocks.retiring ++ [b],
        tailOwed := if (s.block b).state = .opened then none else s.blocks.tailOwed } } : State).raise
          .blockRetired).reportFault { faultOf .blockRetired with block := some b } := by
  have hm : min ((s.block b).failures + 1) Config.blockFailures = 3 := by rw [h2]; rfl
  have hb := block_setBlock s b { s.block b with failures := 3 } hw
  unfold State.blockFailed
  dsimp only
  rw [hm, if_pos (by simp [Config.blockFailures]), retireBlock_eq _ _ (by rw [hb]; exact h), hb]
  unfold State.setBlock
  dsimp only
  rw [Sparse.set_set _ _ _ _ _ hw]

/-! ### Reports and faults beside other changes (R165, R188) -/

/-- A media report changes the health counter and the events alone. -/
theorem report_eq (s : State) (c : HealthClass) :
    s.report c = { s with health := (s.report c).health,
                          mgmt := { s.mgmt with events := (s.report c).mgmt.events } } := by
  unfold State.report; dsimp only; split_ifs <;> rfl

/-- A media report depends on the health counter and the events alone, so it may be taken before or after any change that
leaves the health counter and the management unit alone. -/
theorem report_comm (s : State) (c : HealthClass) (f : State → State)
    (h : ∀ (x : Health) (m : Mgmt), f { s with health := x, mgmt := m } = { f s with health := x, mgmt := m }) :
    f (s.report c) = (f s).report c := by
  have h0 : f s = { f s with health := s.health, mgmt := s.mgmt } := h s.health s.mgmt
  have h1 : (f s).health = s.health := by rw [h0]
  have h2 : (f s).mgmt = s.mgmt := by rw [h0]
  unfold State.report
  rw [h1]
  split_ifs
  · refine (h _ _).trans ?_
    simp only [State.raise, h2]
  · refine (h _ _).trans ?_
    rw [← h2]
  · rfl

/-- A fault report depends on the management unit alone, so it may be taken before or after any change that leaves it
alone. -/
theorem reportFault_comm (s : State) (r : FaultReport) (f : State → State)
    (h : ∀ m : Mgmt, f { s with mgmt := m } = { f s with mgmt := m }) : f (s.reportFault r) = (f s).reportFault r := by
  have h0 : f s = { f s with mgmt := s.mgmt } := h s.mgmt
  have h2 : (f s).mgmt = s.mgmt := by rw [h0]
  unfold State.reportFault
  rw [h2]
  cases s.mgmt.fault with
  | none => exact h _
  | some v => exact h _

/-- An event may be raised before or after any change that leaves the management unit alone. -/
theorem raise_comm (s : State) (e : Event) (f : State → State)
    (h : ∀ m : Mgmt, f { s with mgmt := m } = { f s with mgmt := m }) : f (s.raise e) = (f s).raise e := by
  have h0 : f s = { f s with mgmt := s.mgmt } := h s.mgmt
  have h2 : (f s).mgmt = s.mgmt := by rw [h0]
  unfold State.raise
  rw [h2]
  exact h _

/-- A media report leaves the blocks, the queue and the mode alone. -/
theorem report_frame (s : State) (c : HealthClass) :
    (s.report c).blocks = s.blocks ∧ (s.report c).mgmt.mode = s.mgmt.mode ∧ (s.report c).queue = s.queue
      ∧ (s.report c).windows = s.windows ∧ (s.report c).port = s.port ∧ (s.report c).table = s.table
      ∧ (s.report c).mgmt.fault = s.mgmt.fault ∧ (s.report c).mgmt.command = s.mgmt.command
      ∧ (s.report c).flash = s.flash ∧ (s.report c).array = s.array ∧ (s.report c).drain = s.drain
      ∧ (s.report c).mount = s.mount := by
  unfold State.report; dsimp only
  split_ifs <;> exact ⟨rfl, rfl, rfl, rfl, rfl, rfl, rfl, rfl, rfl, rfl, rfl, rfl⟩

/-- A fault report leaves all but the fault record and the events alone. -/
theorem reportFault_frame (s : State) (r : FaultReport) :
    (s.reportFault r).blocks = s.blocks ∧ (s.reportFault r).mgmt.mode = s.mgmt.mode ∧ (s.reportFault r).queue = s.queue
      ∧ (s.reportFault r).windows = s.windows ∧ (s.reportFault r).port = s.port ∧ (s.reportFault r).table = s.table
      ∧ (s.reportFault r).mgmt.command = s.mgmt.command ∧ (s.reportFault r).flash = s.flash
      ∧ (s.reportFault r).array = s.array ∧ (s.reportFault r).drain = s.drain ∧ (s.reportFault r).mount = s.mount
      ∧ (s.reportFault r).health = s.health := by
  unfold State.reportFault
  split <;> exact ⟨rfl, rfl, rfl, rfl, rfl, rfl, rfl, rfl, rfl, rfl, rfl, rfl⟩

/-- Steps 2 and 3 of R67 for a Fail short of the third in the block and in a row. -/
theorem failedProgram_of_le (s : State) (b n : Nat) (h : (s.block b).failures ≤ 1) (hn : n ≤ 2) :
    s.failedProgram b n .fail
      = (s.setBlock b { s.block b with failures := (s.block b).failures + 1 }).report .program := by
  unfold State.failedProgram
  rw [blockFailed_of_le s b h]
  dsimp only
  rw [if_pos rfl, if_neg (by show ¬ 3 ≤ n; omega)]

/-- The same for a Timeout, which is no media event (R67, R103). -/
theorem failedProgram_timeout_of_le (s : State) (b n : Nat) (h : (s.block b).failures ≤ 1) (hn : n ≤ 2) :
    s.failedProgram b n .timeout = s.setBlock b { s.block b with failures := (s.block b).failures + 1 } := by
  unfold State.failedProgram
  rw [blockFailed_of_le s b h]
  dsimp only
  rw [if_neg (by show ¬ 3 ≤ n; omega), if_neg (by simp)]

/-! ### Windows (R54, R116, R118, R127) -/

/-- Windows that are IDLE stay as they are (R127). -/
theorem stopWindows_of_idle (s : State) (h : ∀ w < 4, (s.window w).state = .idle) : s.stopWindows = s := by
  have h1 : ∀ w < 4, s.stopWindow w = s := by
    intro w hw; unfold State.stopWindow; dsimp only; rw [h w hw]
  unfold State.stopWindows
  rw [h1 0 (by decide), h1 1 (by decide), h1 2 (by decide), h1 3 (by decide)]

/-- A window set is the one read. -/
theorem window_setWindow (s : State) (w : Nat) (x : Window) (h : w < s.windows.windows.length) :
    (s.setWindow w x).window w = x := by
  show (s.windows.windows.set w x).getD w _ = _
  simp [List.getD, h]

/-- Another window set leaves this one alone. -/
theorem window_setWindow_other (s : State) (v w : Nat) (x : Window) (h : v ≠ w) :
    (s.setWindow w x).window v = s.window v := by
  show (s.windows.windows.set w x).getD v _ = s.windows.windows.getD v _
  simp [List.getD, h.symm]

/-- The lowest free register entry. -/
theorem freeRegister_of (s : State) (i : Nat) (hi : i < 16) (hf : s.reg i = .free) (hl : ∀ j < i, s.reg j ≠ .free) :
    s.freeRegister = some i := by
  unfold State.freeRegister
  rw [List.find?_range_eq_some]
  exact ⟨by simpa using hf, by simpa [Config.registerPlaces] using hi, fun j hj => by simpa using hl j hj⟩

/-- No register entry is free. -/
theorem freeRegister_none (s : State) (h : ∀ j < 16, s.reg j ≠ .free) : s.freeRegister = none := by
  unfold State.freeRegister
  rw [List.find?_eq_none]
  intro j hj
  have := h j (by simpa [Config.registerPlaces] using hj)
  simp [this]

/-- A close with a free register entry (R116, R118): the window is COMMITTING, the entry RESERVED, the COMMIT entry asked
for. -/
theorem closeGroup_of_free (s : State) (w g i : Nat) (hw : w < s.windows.windows.length) (hi : i < 16)
    (hf : s.reg i = .free) (hl : ∀ j < i, s.reg j ≠ .free) :
    s.closeGroup w g = State.askCommit { s with windows := { s.windows with
        windows := s.windows.windows.set w { s.window w with state := .committing, register := some i, awaiting := false },
        register := s.windows.register.set i (.reserved w g) } }
      { window := w, group := g, register := i, syncMark := false } := by
  unfold State.closeGroup
  dsimp only
  rw [freeRegister_of (s.setWindow w { s.window w with state := .committing }) i hi hf hl]
  dsimp only
  unfold State.reserve
  dsimp only
  have e : ((s.setWindow w { s.window w with state := .committing }).setReg i (.reserved w g)).window w
      = { s.window w with state := .committing } := window_setWindow s w _ hw
  rw [e]
  congr 1
  show State.mk .. = State.mk ..
  congr 1
  show WindowUnit.mk .. = WindowUnit.mk ..
  congr 1
  exact List.set_set ..

/-- A close with no free register entry (R118): the window is COMMITTING and awaits one. -/
theorem closeGroup_of_none (s : State) (w g : Nat) (hw : w < s.windows.windows.length) (h : ∀ j < 16, s.reg j ≠ .free) :
    s.closeGroup w g = { s with windows := { s.windows with
      windows := s.windows.windows.set w { s.window w with state := .committing, awaiting := true } } } := by
  unfold State.closeGroup
  dsimp only
  rw [freeRegister_none (s.setWindow w { s.window w with state := .committing }) h]
  dsimp only
  rw [window_setWindow s w _ hw]
  show State.mk .. = State.mk ..
  congr 1
  show WindowUnit.mk .. = WindowUnit.mk ..
  congr 1
  exact List.set_set ..

/-- A COMMIT request that finds a place and none waiting becomes an entry at once (R54). -/
theorem askCommit_of_place (s : State) (r : CommitRequest) (hr : s.queue.requests = [])
    (hl : s.queue.entries.length ≤ 15) (he : 1 ≤ s.erasedCount) :
    s.askCommit r = { s with queue := { s.queue with entries := s.queue.entries ++ [.commit (commitEntryOf r)] } } := by
  have hg : s.gateAdmits 1 = true := by simp [State.gateAdmits, hr, Config.queuePlaces, he]; omega
  unfold State.askCommit
  rw [if_pos ⟨hg, hr⟩]

/-- A COMMIT request that finds none, or others waiting, waits behind them (R54). -/
theorem askCommit_of_none (s : State) (r : CommitRequest)
    (h : s.queue.requests ≠ [] ∨ 16 ≤ s.queue.entries.length ∨ s.erasedCount = 0) :
    s.askCommit r = { s with queue := { s.queue with requests := s.queue.requests ++ [r] } } := by
  unfold State.askCommit
  rw [if_neg]
  rintro ⟨hg, hr⟩
  simp only [State.gateAdmits, Bool.and_eq_true, decide_eq_true_eq, hr, List.length_nil, Config.queuePlaces] at hg
  rcases h with h | h | h
  · exact h hr
  · omega
  · omega

/-! ### Reverts (R125) -/

/-- A revert of one shadow entry restores its line and leaves every other line alone (R125). -/
theorem revert_spec (s : State) (x : ShadowEntry) (h : Sparse.wf TableEntry.clear s.table = true) :
    s.revert x = { s with table := (s.revert x).table } ∧ Sparse.wf TableEntry.clear (s.revert x).table = true
      ∧ (s.revert x).entry x.line
          = (if (s.entry x.line).current = x.committed ∧ (s.entry x.line).group = x.committedGroup.map GroupRef.register then
              s.entry x.line
            else { current := x.committed, group := x.committedGroup.map GroupRef.register, checkFailed := false })
      ∧ ∀ l, l ≠ x.line → (s.revert x).entry l = s.entry l := by
  unfold State.revert
  dsimp only
  by_cases hc : (s.entry x.line).current = x.committed ∧ (s.entry x.line).group = x.committedGroup.map GroupRef.register
  · rw [if_pos hc, if_pos hc]
    exact ⟨rfl, h, rfl, fun l _ => rfl⟩
  · rw [if_neg hc, if_neg hc]
    exact ⟨rfl, Sparse.wf_set _ _ _ _ h, Sparse.get_set_same _ _ _ _ h, fun l hl => Sparse.get_set_other _ _ _ _ _ hl h⟩

/-- The reverts of shadow entries of distinct lines (R125). -/
theorem foldl_revert_spec (xs : List ShadowEntry) (s : State) (h : Sparse.wf TableEntry.clear s.table = true)
    (hn : (xs.map (·.line)).Nodup) :
    xs.foldl State.revert s = { s with table := (xs.foldl State.revert s).table }
      ∧ Sparse.wf TableEntry.clear (xs.foldl State.revert s).table = true
      ∧ (∀ x ∈ xs, (xs.foldl State.revert s).entry x.line
          = (if (s.entry x.line).current = x.committed ∧ (s.entry x.line).group = x.committedGroup.map GroupRef.register then
              s.entry x.line
            else { current := x.committed, group := x.committedGroup.map GroupRef.register, checkFailed := false }))
      ∧ ∀ l, (∀ x ∈ xs, x.line ≠ l) → (xs.foldl State.revert s).entry l = s.entry l := by
  induction xs generalizing s with
  | nil => exact ⟨rfl, h, by simp, fun l _ => rfl⟩
  | cons a xs ih =>
    rw [List.map_cons, List.nodup_cons] at hn
    obtain ⟨r1, r2, r3, r4⟩ := revert_spec s a h
    obtain ⟨i1, i2, i3, i4⟩ := ih (s.revert a) r2 hn.2
    have hne : ∀ x ∈ xs, x.line ≠ a.line := fun x hx e => hn.1 (by rw [← e]; exact List.mem_map_of_mem hx)
    simp only [List.foldl_cons]
    refine ⟨?_, i2, fun x hx => ?_, fun l hl => ?_⟩
    · rw [i1, r1]
    · rcases List.mem_cons.mp hx with rfl | hx
      · rw [i4 _ fun y hy => hne y hy, r3]
      · rw [i3 x hx, r4 _ (hne x hx)]
    · rw [i4 l fun y hy => hl y (by simp [hy]), r4 l fun e => hl a (by simp) e.symm]

/-- The reverts of a window's shadow entries (R123, R124, R125): each of its lines is restored, the shadow entries are
released, every other line and everything else stays. -/
theorem revertWindow_spec (s : State) (w : Nat) (h : Sparse.wf TableEntry.clear s.table = true)
    (hn : (s.windows.shadow.map (·.line)).Nodup) :
    s.revertWindow w = { s with
        table := (s.revertWindow w).table,
        windows := { s.windows with shadow := s.windows.shadow.filter fun e => !decide (e.window = w) } }
      ∧ (∀ x ∈ s.windows.shadow, x.window = w → (s.revertWindow w).entry x.line
          = (if (s.entry x.line).current = x.committed ∧ (s.entry x.line).group = x.committedGroup.map GroupRef.register then
              s.entry x.line
            else { current := x.committed, group := x.committedGroup.map GroupRef.register, checkFailed := false }))
      ∧ ∀ l, (∀ x ∈ s.windows.shadow, x.window = w → x.line ≠ l) → (s.revertWindow w).entry l = s.entry l := by
  have hs : (s.windows.shadow.filter fun e => decide (e.window = w)).Sublist s.windows.shadow := List.filter_sublist
  obtain ⟨f1, _, f3, f4⟩ := foldl_revert_spec (s.windows.shadow.filter fun e => decide (e.window = w)) s h
    (hn.sublist (hs.map _))
  refine ⟨?_, fun x hx hw => ?_, fun l hl => ?_⟩
  · unfold State.revertWindow
    dsimp only
    rw [f1]
  · exact f3 x (List.mem_filter.mpr ⟨hx, by simpa using hw⟩)
  · refine f4 l fun x hx => ?_
    have := List.mem_filter.mp hx
    exact hl x this.1 (by simpa using this.2)

end Sys2Proof.Machine
end

