-- ==== Sys2Proof/Laws/Tail.lean ====
section
/-! SUPPORT. What the tail of the reactions (R88, R92, R100, R106, R150, R187, R194) leaves alone, and what its steps do to the
release request, the release job, the erase in hand and the mount engine. -/

namespace Sys2Proof.Machine

/-- What the tail of the reactions leaves alone beside the standing part. -/
structure Beside where
  table : Sparse TableEntry
  queue : WriteQueue
  port : Port
  drain : Drain
  mode : Mode
  windows : List Window
  shadow : List ShadowEntry
  register : List RegEntry
  nextGroup : Nat
  op : Option Op

/-- The part of a state that the tail leaves alone. -/
def State.beside (s : State) : Beside :=
  { table := s.table, queue := s.queue, port := s.port, drain := s.drain, mode := s.mgmt.mode,
    windows := s.windows.windows, shadow := s.windows.shadow, register := s.windows.register,
    nextGroup := s.windows.nextGroup, op := s.array.op }

@[simp] theorem beside_raise (s : State) (e : Event) : (s.raise e).beside = s.beside := rfl
@[simp] theorem beside_setErase (s : State) (j : Option EraseJob) : (s.setErase j).beside = s.beside := rfl
@[simp] theorem beside_setBlock (s : State) (b : Nat) (e : BlockEntry) : (s.setBlock b e).beside = s.beside := rfl
@[simp] theorem beside_withMount (s : State) (f : Mount → Mount) : (s.withMount f).beside = s.beside := rfl
@[simp] theorem beside_complete (s : State) (r : Ret) (bs : List Byte) : (s.complete r bs).beside = s.beside := rfl
@[simp] theorem beside_updateRelease (s : State) : s.updateRelease.beside = s.beside := rfl

@[simp] theorem beside_setCopy_reclaim (s : State) (c : Option CopyWork) : (s.setCopy .reclaim c).beside = s.beside := rfl

@[simp] theorem beside_reportFault (s : State) (f : FaultReport) : (s.reportFault f).beside = s.beside := by
  unfold State.reportFault; split <;> rfl

@[simp] theorem beside_edge (s : State) (sel : EdgeSel) (e : Event) (a b : Bool) :
    (s.edge sel e a b).beside = s.beside := by
  unfold State.edge; split_ifs <;> rfl

@[simp] theorem beside_endReclaim (s : State) (b : Nat) : (s.endReclaim b).beside = s.beside := by
  unfold State.endReclaim; split_ifs <;> rfl

@[simp] theorem beside_retireErased (s : State) (j : EraseJob) : (s.retireErased j).beside = s.beside := by
  unfold State.retireErased State.reportRetired; dsimp only
  cases j.owner <;> simp

@[simp] theorem beside_startReclaimErase (s : State) : s.startReclaimErase.beside = s.beside := by
  unfold State.startReclaimErase
  split
  · dsimp only
    split_ifs
    · rw [beside_setErase]
      split
      · split_ifs <;> rfl
      · rfl
    · rfl
  all_goals rfl

@[simp] theorem beside_releaseHeader (s : State) : s.releaseHeader.beside = s.beside := by
  unfold State.releaseHeader
  split
  · rfl
  · split_ifs <;> rfl

@[simp] theorem beside_settleErase (s : State) : s.settleErase.beside = s.beside := by
  unfold State.settleErase
  split
  · rfl
  · split_ifs <;> rfl

@[simp] theorem beside_skipErase (s : State) (j : EraseJob) : (s.skipErase j).beside = s.beside := by
  unfold State.skipErase
  split <;> (try split_ifs) <;> simp

@[simp] theorem beside_skipRepairs (s : State) : s.skipRepairs.beside = s.beside := by
  unfold State.skipRepairs
  split
  · rfl
  · split_ifs
    · split
      · simp
      · dsimp only
        split
        · simp
        · split_ifs <;> simp
    · rfl

@[simp] theorem beside_settleCut (s : State) : s.settleCut.beside = s.beside := by
  unfold State.settleCut
  split <;> try rfl
  dsimp only
  split_ifs
  · split
    · simp
    · split_ifs <;> simp
  · rfl

@[simp] theorem beside_settleSpace (s : State) : s.settleSpace.beside = s.beside := by
  unfold State.settleSpace; simp; rfl

@[simp] theorem beside_settleTail (s : State) : s.settleTail.beside = s.beside := by
  simp [State.settleTail]

@[simp] theorem settleTail_mode (s : State) : s.settleTail.mgmt.mode = s.mgmt.mode :=
  congrArg Beside.mode (beside_settleTail s)
@[simp] theorem settleTail_windows (s : State) : s.settleTail.windows.windows = s.windows.windows :=
  congrArg Beside.windows (beside_settleTail s)
@[simp] theorem settleTail_shadow (s : State) : s.settleTail.windows.shadow = s.windows.shadow :=
  congrArg Beside.shadow (beside_settleTail s)
@[simp] theorem settleTail_register (s : State) : s.settleTail.windows.register = s.windows.register :=
  congrArg Beside.register (beside_settleTail s)
@[simp] theorem settleTail_op (s : State) : s.settleTail.array.op = s.array.op :=
  congrArg Beside.op (beside_settleTail s)

/-! ### The release request and the release job (R131, R92) -/

/-- The release request and the release job. -/
def State.releases (s : State) : Option ReleaseRequest × Option ReleaseJob := (s.windows.release, s.blocks.release)

@[simp] theorem releases_setErase (s : State) (j : Option EraseJob) : (s.setErase j).releases = s.releases := rfl
@[simp] theorem releases_setBlock (s : State) (b : Nat) (e : BlockEntry) : (s.setBlock b e).releases = s.releases := rfl
@[simp] theorem releases_withMount (s : State) (f : Mount → Mount) : (s.withMount f).releases = s.releases := rfl
@[simp] theorem releases_complete (s : State) (r : Ret) (bs : List Byte) : (s.complete r bs).releases = s.releases := rfl
@[simp] theorem releases_raise (s : State) (e : Event) : (s.raise e).releases = s.releases := rfl

@[simp] theorem releases_reportFault (s : State) (f : FaultReport) : (s.reportFault f).releases = s.releases := by
  unfold State.reportFault; split <;> rfl

@[simp] theorem releases_edge (s : State) (sel : EdgeSel) (e : Event) (a b : Bool) :
    (s.edge sel e a b).releases = s.releases := by
  unfold State.edge; split_ifs <;> rfl

@[simp] theorem releases_endReclaim (s : State) (b : Nat) : (s.endReclaim b).releases = s.releases := by
  unfold State.endReclaim; split_ifs <;> rfl

@[simp] theorem releases_retireErased (s : State) (j : EraseJob) : (s.retireErased j).releases = s.releases := by
  unfold State.retireErased State.reportRetired; dsimp only
  cases j.owner <;> simp

@[simp] theorem releases_startReclaimErase (s : State) : s.startReclaimErase.releases = s.releases := by
  unfold State.startReclaimErase
  split
  · dsimp only
    split_ifs
    · rw [releases_setErase]
      split
      · split_ifs <;> rfl
      · rfl
    · rfl
  all_goals rfl

@[simp] theorem releases_releaseHeader (s : State) : s.releaseHeader.releases = s.releases := by
  unfold State.releaseHeader
  split
  · rfl
  · split_ifs <;> rfl

@[simp] theorem releases_settleErase (s : State) : s.settleErase.releases = s.releases := by
  unfold State.settleErase
  split
  · rfl
  · split_ifs <;> rfl

@[simp] theorem releases_skipErase (s : State) (j : EraseJob) : (s.skipErase j).releases = s.releases := by
  unfold State.skipErase
  split <;> (try split_ifs) <;> simp

@[simp] theorem releases_skipRepairs (s : State) : s.skipRepairs.releases = s.releases := by
  unfold State.skipRepairs
  split
  · rfl
  · split_ifs
    · split
      · simp
      · dsimp only
        split
        · simp
        · split_ifs <;> simp
    · rfl

@[simp] theorem releases_settleCut (s : State) : s.settleCut.releases = s.releases := by
  unfold State.settleCut
  split <;> try rfl
  dsimp only
  split_ifs
  · split
    · simp
    · split_ifs <;> simp
  · rfl

@[simp] theorem releases_settleSpace (s : State) : s.settleSpace.releases = s.releases := by
  unfold State.settleSpace; simp; rfl

/-- The release request that stands depends on the windows, the register and the request that stood. -/
theorem releaseWanted_congr {s t : State} (h1 : t.windows.windows = s.windows.windows)
    (h2 : t.windows.register = s.windows.register) (h3 : t.windows.release = s.windows.release) :
    t.releaseWanted = s.releaseWanted := by
  unfold State.releaseWanted State.window State.reg State.committedCount
  rw [h1, h2, h3]

/-- The tail's release request and release job (R131, R92). -/
theorem settleTail_releases (s : State) :
    s.settleTail.releases = (s.releaseWanted, nextReleaseJob s.blocks.release s.releaseWanted) := by
  have hb := beside_startReclaimErase s
  have hr := releases_startReclaimErase s
  have hw : s.startReclaimErase.releaseWanted = s.releaseWanted :=
    releaseWanted_congr (congrArg Beside.windows hb) (congrArg Beside.register hb) (congrArg Prod.fst hr)
  have hj : s.startReclaimErase.blocks.release = s.blocks.release := congrArg Prod.snd hr
  unfold State.settleTail
  rw [releases_settleSpace, releases_settleCut, releases_skipRepairs, releases_settleErase, releases_releaseHeader]
  show (s.startReclaimErase.releaseWanted, nextReleaseJob s.startReclaimErase.blocks.release _) = _
  rw [hw, hj]

/-- The release request that stands after the reactions, and the release job that follows it (R131, R92). -/
theorem settle_releases (s u : State) (hw : u.windows.windows = s.settle.windows.windows)
    (hr : u.windows.register = s.settle.windows.register) (h : u.windows.release = s.windows.release) :
    s.settle.windows.release = u.releaseWanted
      ∧ s.settle.blocks.release = nextReleaseJob s.blocks.release u.releaseWanted := by
  rw [settle_eq] at *
  generalize hv : s.settleRound.settleRound = v at *
  have h0 := settleTail_releases v
  have h3 : u.releaseWanted = v.releaseWanted :=
    releaseWanted_congr (by rw [hw, settleTail_windows]) (by rw [hr, settleTail_register]) (by rw [h, ← hv]; simp)
  have h4 : v.blocks.release = s.blocks.release := by rw [← hv]; simp
  rw [h3, ← h4]
  exact ⟨congrArg Prod.fst h0, congrArg Prod.snd h0⟩

/-! ### Suspension and resumption -/

/-- Which rank-1 read waits is a matter of the port, the table and the queue alone (R40, R50, R58). -/
theorem rankOne_congr {s t : State} (hp : t.port = s.port) (ht : t.table = s.table) (hq : t.queue = s.queue) :
    t.rankOne = s.rankOne := by
  unfold State.rankOne State.mergeMissing State.needsMerge State.newestUsable State.lineOf State.entry
  rw [hp, ht, hq]

/-- An erase that had finished before its SUSPEND takes its blank check whatever reads wait (R100). -/
theorem react_finished (j : EraseJob) (waits : Bool) (h : j.part = .finished) :
    j.react waits = { j with part := .blankCheck, clock := 0 } := by
  unfold EraseJob.react; rw [h]

/-- With the flash free of reads, the erase in hand takes the part that follows from whether a rank-1 read waits at the end
(R100, R101): nothing after that reaction touches it. -/
theorem settleTail_react (u : State) (j : EraseJob) (hop : u.array.op.isSome = false) (herase : u.array.erase = some j)
    (htime : u.array.timeouts < 3) (hj : j.part = .erasing ∨ j.part = .suspended ∨ j.part = .finished) :
    u.settleTail.array.erase = some (j.react u.settleTail.rankOne.isSome) := by
  have hr : u.settleTail.rankOne = u.rankOne := rankOne_congr (by simp) (by simp) (by simp)
  rw [hr]
  have hstart : u.startReclaimErase = u := by
    unfold State.startReclaimErase; rw [herase]; cases u.blocks.victim <;> rfl
  have hheld : (u.updateRelease).releaseHeader = u.updateRelease := by
    unfold State.releaseHeader
    rw [show u.updateRelease.array.erase = some j from herase]
    rcases hj with h | h | h <;> simp [h]
  have hw : (u.updateRelease).rankOne = u.rankOne := rankOne_congr rfl rfl rfl
  have hreact : (u.updateRelease).settleErase = (u.updateRelease).setErase (some (j.react u.rankOne.isSome)) := by
    unfold State.settleErase
    rw [show u.updateRelease.array.erase = some j from herase]
    have : (u.updateRelease.array.op.isSome || u.updateRelease.flashLost) = false := by
      rw [show u.updateRelease.array.op = u.array.op from rfl, hop]
      simp [State.flashLost, show u.updateRelease.array.timeouts = u.array.timeouts from rfl, Config.lostTimeouts]
      omega
    simp only [this, State.readWaits, hw]
    rfl
  have hbusy : (j.react u.rankOne.isSome).part.busy = true ∧ (j.react u.rankOne.isSome).part ≠ .header := by
    unfold EraseJob.react
    rcases hj with h | h | h <;> rw [h] <;> dsimp only <;> (try split_ifs) <;> simp [ErasePart.busy, h]
  generalize j.react u.rankOne.isSome = k at *
  have hskip : ((u.updateRelease).setErase (some k)).skipRepairs.array.erase = some k := by
    unfold State.skipRepairs
    cases hm : ((u.updateRelease).setErase (some k)).mount with
    | none => rfl
    | some m =>
      dsimp only
      split_ifs
      · have : ((u.updateRelease).setErase (some k)).skipErase k = (u.updateRelease).setErase (some k) := by
          unfold State.skipErase
          cases hk : k.part <;> simp_all [ErasePart.busy]
        simp only [State.setErase] at this ⊢
        rw [this]
        cases hk : k.part <;> simp_all [ErasePart.busy]
      · rfl
  have hcut : ∀ v : State, v.array.erase = some k → v.settleCut = v := by
    intro v hv
    unfold State.settleCut State.eraseBusy
    rw [hv]
    split <;> simp [hbusy.1]
  unfold State.settleTail
  rw [hstart, hheld, hreact, hcut _ hskip]
  unfold State.settleSpace State.edge
  dsimp only
  split_ifs <;> simpa [State.raise] using hskip

/-- The same of all that follows an event. -/
theorem settle_react (s : State) (j : EraseJob) (hop : s.array.op = none) (herase : s.array.erase = some j)
    (htime : s.array.timeouts < 3) (hj : j.part = .erasing ∨ j.part = .suspended ∨ j.part = .finished) :
    s.settle.array.erase = some (j.react s.settle.rankOne.isSome) := by
  obtain ⟨u, hu⟩ : ∃ u, u = s.settleRound.settleRound := ⟨_, rfl⟩
  rw [settle_eq, ← hu]
  refine settleTail_react u j ?_ ?_ ?_ hj
  · rw [hu, settleRound_op_isSome, settleRound_op_isSome, hop]; rfl
  · rw [hu, settleRound_erase, settleRound_erase, herase]
  · have h : u.standing = s.standing := by rw [hu, standing_settleRound, standing_settleRound]
    rw [timeouts_of_standing h]; exact htime

/-- Nothing that follows an event issues an operation (R97). -/
theorem settle_op_none (s : State) (h : s.array.op = none) : s.settle.array.op = none := by
  have h1 := (settleRound_op_isSome s.settleRound).trans (settleRound_op_isSome s)
  rw [settle_eq, settleTail_op]
  exact Option.not_isSome_iff_eq_none.mp (by rw [h1, h]; simp)

/-- The read served before a blank check put off has ended: the blank check is made (R100). -/
theorem settle_finished (s : State) (j : EraseJob) (hop : s.array.op = none) (herase : s.array.erase = some j)
    (htime : s.array.timeouts < 3) (hj : j.part = .finished) :
    s.settle.array.erase = some { j with part := .blankCheck, clock := 0 } := by
  rw [settle_react s j hop herase htime (.inr (.inr hj)), react_finished j _ hj]

end Sys2Proof.Machine
end

