-- ==== Sys2Proof/Tests/Slice0.lean ====
section
/-! SUPPORT. Tests: each check of WellFormed refuses an ill-formed term, structures of the flash image written out byte by
byte, a few steps on small states, and for every statement with hypotheses a state and operands that meet them. -/

open Sys2Proof Sys2Proof.Machine

namespace Sys2Proof.Tests

set_option Elab.async false

/-! ### Well-formed commands -/

/-- The checks of WellFormed accept the boundary and refuse the first value beyond it. -/
theorem test_wellformed_requests :
    Instr.wf (.readRequest 0 1) = true ∧ Instr.wf (.readRequest 0 32) = true ∧ Instr.wf (.readRequest 0 0) = false
      ∧ Instr.wf (.readRequest 0 33) = false ∧ Instr.wf (.writeRequest 0 []) = false
      ∧ Instr.wf (.writeRequest 0 (List.replicate 33 0)) = false := by decide

theorem test_wellformed_reads :
    Instr.wf (.readPieceCompletion [(47, 0)]) = true ∧ Instr.wf (.readPieceCompletion [(48, 0)]) = false
      ∧ Instr.wf (.mergeReadCompletion [(48, 0)]) = false ∧ Instr.wf (.relocationReadCompletion [(48, 0)]) = false
      ∧ Instr.wf (.mountScanReadCompletion [(4095, 0)]) = true ∧ Instr.wf (.mountScanReadCompletion [(4096, 0)]) = false
      ∧ Instr.wf (.retireMarkAreaReadCompletion [(8, 0)]) = false
      ∧ Instr.wf (.wipeBlock0ReadCompletion [(16, 0)]) = false := by decide

theorem test_wellformed_programs :
    Instr.wf (.queueProgramOutcome (.ended [(47, 0)] [])) = true
      ∧ Instr.wf (.queueProgramOutcome (.ended [(48, 0)] [])) = false
      ∧ Instr.wf (.copyProgramOutcome (.ended [] [(48, 0)])) = false
      ∧ Instr.wf (.openingProgramOutcome (.timedOut (.partly [(4096, 0)]))) = false
      ∧ Instr.wf (.tailMarkOutcome (.ended [(48, 0)] [])) = false
      ∧ Instr.wf (.retireMarkOutcome (.ended [(48, 0)] [])) = false
      ∧ Instr.wf (.drainProgramOutcome (.ended [(48, 0)] [])) = false
      ∧ Instr.wf (.settingsAppendOutcome (.ended [(48, 0)] [])) = false
      ∧ Instr.wf (.mountRepairProgramOutcome (.ended [(48, 0)] [])) = false
      ∧ Instr.wf (.wipeProgramOutcome (.ended [(48, 0)] [])) = false
      ∧ Instr.wf (.headerProgramEnd (.ended [(48, 0)] [])) = false := by decide

theorem test_wellformed_erases_and_cuts :
    Instr.wf (.eraseFinished [(4096, 0)]) = false ∧ Instr.wf (.blankCheckEnd [(4096, 0)]) = false
      ∧ Instr.wf (.eraseSuspended (some [(4096, 0)])) = false
      ∧ Instr.wf (.operationTimeout (.partly [(4096, 0)])) = false
      ∧ Instr.wf (.powerOnReset Pins.quiet (.partly [(4096, 0)])) = false
      ∧ Instr.wf (.resetAsserted (.partly [(4096, 0)])) = false
      ∧ Instr.wf (.powerLoss (.partly [(4096, 0)])) = false := by decide

/-! ### The flash image -/

/-- The check of the nine characters "123456789" (Table 2-2). -/
theorem test_check_value : checkValue [0x31, 0x32, 0x33, 0x34, 0x35, 0x36, 0x37, 0x38, 0x39] = 0xCBF43926 := by
  decide +kernel

/-- The bytes of Table 2-3 and Table 2-5 before their checks. -/
theorem test_layouts :
    (firstPart kindData 5).take 12 = [0x7E, 0x1C, 0xA5, 0x39, 0xD4, 0, 0, 0, 5, 0, 0, 0]
      ∧ (openingField 1 2 0x03020100).take 12 = [1, 0, 0, 0, 2, 0, 0, 0, 0, 1, 2, 3]
      ∧ (tailMarkBytes 1).take 12 = [0xE2, 0x47, 0x0B, 0x9D, 1, 0, 0, 0, 0xFE, 0xFF, 0xFF, 0xFF]
      ∧ (Record.encode (plainRecord 0x1FFF 7 zeroLine)).take 12 = [0x3C, 0, 0xFF, 0x1F, 7, 0, 0, 0, 0, 0, 0, 0]
      ∧ (Settings.encode Settings.default).take 12 = [0xC3, 0, 0, 0xFF, 1, 0, 200, 0, 1, 0, 0, 0] := by decide +kernel

/-- A line of data. -/
def sample : List Byte := (List.range 32).map fun i => BitVec.ofNat 8 (i + 1)

/-- FlashImageStructuresReadBack at the ends of the ranges. -/
theorem witness_FlashImageStructuresReadBack :
    parseRecord (plainRecord 8191 4294967294 sample).encode = some (plainRecord 8191 4294967294 sample)
      ∧ parseRecord (tentativeRecord ⟨3, 1⟩ 0 1 sample).encode = some (tentativeRecord ⟨3, 1⟩ 0 1 sample)
      ∧ parseRecord (commitRecord ⟨3, 4294967294⟩).encode = some (commitRecord ⟨3, 4294967294⟩)
      ∧ (let x : Settings := { seq := 84, locks := 0xFF, exchange := true, fill := 0, strict := true, stall := 1000 }
         parseSettings x.encode = some x)
      ∧ (let x : Settings := { seq := 1, locks := 0, exchange := false, fill := 0xFF, strict := false, stall := 10 }
         parseSettings x.encode = some x)
      ∧ parseFirstPart (firstPart kindSettings 4294967294) = some (kindSettings, 4294967294)
      ∧ parseOpening (openingField 1 4294967294 1) = some (1, 4294967294, 1)
      ∧ parseRecord (plainRecord 8192 1 sample).encode = none := by decide +kernel

/-! ### Small states -/

/-- RUN at rest: block 1 is OPEN with slot 3 next, blocks 2 to 6 are ERASED, the others FULL and empty. -/
def rested : State :=
  { State.reset with
    mount := none,
    mgmt := { Mgmt.reset 72 with mode := .run, events := 0 },
    blocks := { BlockManager.reset with
      table := [(1, { bareEntry .opened 0 with blockSeq := some 1, nextFree := 3 }), (2, bareEntry .erased 0),
        (3, bareEntry .erased 0), (4, bareEntry .erased 0), (5, bareEntry .erased 0), (6, bareEntry .erased 0)],
      nextSeq := 2 } }

/-- A state in another mode. -/
def inMode (m : Mode) (s : State) : State := { s with mgmt := { s.mgmt with mode := m } }

/-- DRAINED at rest. -/
def drained : State :=
  { inMode .drain rested with
    drain := { phase := .drained, returnMode := some .run, releasePending := false, pfw := true } }

/-- WP# asserted. -/
def protect (s : State) : State := { s with array := { s.array with wp := true } }

/-- An operation in flight. -/
def opOf (p : Purpose) (b o n : Nat) (bs : List Byte) : Op :=
  { purpose := p, block := b, offset := o, length := n, bytes := bs, running := 0, statusWait := false,
    abandoned := false }

/-- A state with an operation in flight. -/
def flying (o : Op) (s : State) : State := { s with array := { s.array with op := some o } }

/-- A state with an erase in hand. -/
def erasing (j : EraseJob) (s : State) : State := { s with array := { s.array with erase := some j } }

/-- An erase of block 9 in a given part. -/
def jobOf (o : EraseOwner) (p : ErasePart) (n : Nat) : EraseJob :=
  { owner := o, block := 9, attempts := n, newCount := 4, part := p, running := 0, clock := 0, suspends := 0,
    statusWait := false, virgin := false }

/-- The victim of the reclaim in progress is block 9. -/
def withVictim (s : State) : State := { s with blocks := { s.blocks with victim := some 9 } }

/-- Store line 5 has its record in block 9, slot 1, which holds it in the flash. -/
def stored (s : State) : State :=
  { s with table := [(5, { current := some ⟨9, 1⟩, group := none, checkFailed := false })],
           flash := flashWrite [] (4096 * 9 + 48) (plainRecord 5 1 sample).encode }

/-- A read of one byte of bus line 5, its piece waiting for the flash. -/
def readOfLine5 : Request :=
  { write := false, addr := 160, count := 1, limit := 200, elapsed := 0, phase := .reading, retake := false,
    pieces := splitRequest 160 1 [] }

/-- A write of one byte of bus line 5 in the hand-over phase. -/
def writeOfLine5 : Request :=
  { write := true, addr := 160, count := 1, limit := 200, elapsed := 0, phase := .handOver, retake := false,
    pieces := splitRequest 160 1 [0x77] }

/-- A write of all of bus line 5 in the hand-over phase. -/
def fullWrite : Request := { writeOfLine5 with count := 32, pieces := splitRequest 160 32 sample }

/-- A state with a request at the port. -/
def asking (r : Request) (s : State) : State := { s with port := { s.port with request := some r } }

/-- A PENDING LINE entry of store line 5. -/
def entry5 : LineEntry := newLineEntry 5 sample none

/-- A PROGRAMMING LINE entry of store line 5 after `n` attempts. -/
def issued5 (n : Nat) : LineEntry :=
  { entry5 with state := .programming, origin := some 1, attempts := n, target := some ⟨1, 3⟩ }

/-- A state with entries in the queue. -/
def queued (qs : List QEntry) (s : State) : State := { s with queue := { s.queue with entries := qs } }

/-- A state whose DATA bytes from byte 1 on are as given. -/
def given (bs : List Byte) (s : State) : State := { s with mgmt := { s.mgmt with data := putData s.mgmt.data 1 bs } }

/-- A state with a command in progress. -/
def doing (a : Activity) (s : State) : State := { s with mgmt := { s.mgmt with command := .active a } }

/-- Window 1 over lines 8 to 15, in a given state, with group 1 unless ARMED. -/
def windowed (st : WinState) (reg : Option Nat) (s : State) : State :=
  s.setWindow 1
    { state := st, first := 8, last := 15, repeats := 2, group := if st = .armed then none else some 1, register := reg,
      awaiting := false }

/-- A state with a mount engine at a given step. -/
def mounting (m : Mount) (s : State) : State := { inMode .mount s with mount := some m }

/-- The state after a step that goes on. -/
def nextOf (o : Host.Outcome State Fault Refusal) (d : State) : State :=
  match o with
  | .next t => t
  | _ => d

/-- The state after commands, each taken by one step. -/
def afterAll (cs : List Instr) (s : State) : State :=
  cs.foldl (fun s c => nextOf (step { s with pending := [c] }) s) s

/-- An outcome is a next state. -/
def goesOn (o : Host.Outcome State Fault Refusal) : Bool :=
  match o with
  | .next _ => true
  | _ => false

/-! ### Steps on small states -/

/-- A line written, accepted, programmed and read back. -/
theorem test_line_written_and_read :
    (afterAll [.writeRequest 160 sample, .writeAcceptance, .arbiterGrant, .queueProgramOutcome (.ended [] []),
        .readRequest 162 3, .arbiterGrant, .readPieceCompletion []] rested).port.response
      = some { cause := none, data := [3, 4, 5] } := by decide +kernel

/-- A flash that answers wrongly is caught by the record's check (R41, R42). -/
theorem test_wrong_read_is_caught :
    (afterAll [.readRequest 160 2, .arbiterGrant, .readPieceCompletion [(13, 0)]] (stored rested)).port.response
      = some { cause := some .readCheck, data := [1, 0] } := by decide +kernel

/-- A window armed, written, closed and committed: the record of the line is held by register entry 0 (R120). -/
theorem test_group_commits :
    (let t := afterAll [.warm, .writeRequest 256 sample, .writeAcceptance, .arbiterGrant,
        .queueProgramOutcome (.ended [] []), .itemWrite 3 [0, 1], .wend, .arbiterGrant,
        .queueProgramOutcome (.ended [] [])] (given [1, 8, 0, 15, 0, 1] rested)
     (t.entry 8, t.reg 0, (t.window 1).state, t.eventSet .groupCommit))
      = ({ current := some ⟨1, 3⟩, group := some (.register 0), checkFailed := false }, .committed 1 1 ⟨1, 4⟩, .idle,
          true) := by decide +kernel

/-- PFW# in RUN with an empty queue reaches DRAINED at once, and its release returns to RUN (R154, R161, R162). -/
theorem test_drain :
    (let t := afterAll [.pfwAsserted] rested
     let u := afterAll [.pfwDeasserted] t
     (t.mgmt.mode, t.drain.phase, t.eventSet .drainDone, u.mgmt.mode, u.drain.phase))
      = (.drain, .drained, true, .run, .inactive) := by decide +kernel

/-- The first scan reads of mount on a blank flash: block 0 is virgin and the header of block 1 follows (R138, R140). -/
theorem test_mount_begins :
    (afterAll [.arbiterGrant, .mountScanReadCompletion []] State.reset).mount.map (fun m => (m.step, m.virgin))
      = some (.header 1, true) := by decide +kernel

/-- RESET# ends an operation with what it left in the flash and nothing else survives (R18, R21). -/
theorem test_reset_cuts_a_program :
    (let t := afterAll [.writeRequest 160 sample, .writeAcceptance, .arbiterGrant, .resetAsserted (.partly [(0, 0x3C)]),
        .resetDeasserted Pins.quiet] rested
     (t.flash, t.queue.entries, t.mgmt.mode)) = ([(4096 + 144, 0x3C)], [], .mount) := by decide +kernel

/-! ### Witnesses: states that meet the hypotheses of each statement, clause by clause -/

theorem witness_StepRunsTheCommandAtTheFront :
    State.reset.pending = [] ∧ rested.power = .on ∧ ({ rested with power := .held } : State).power ≠ .on
      ∧ (let t := (flying { opOf .mountRead 1 0 48 [] with running := 999 } (asking readOfLine5 rested)).tick
         t.port.request.map (·.elapsed) = some 1 ∧ t.health.elapsed = 1 ∧ t.array.op.map (·.running) = some 1000
           ∧ t.tick.array.op.map (·.running) = some 1000) := by decide

theorem witness_invariants_of_steps :
    Memory.wf (stored rested).flash = true ∧ Sparse.wf TableEntry.clear (stored rested).table = true
      ∧ Sparse.wf BlockEntry.unknown (stored rested).blocks.table = true
      ∧ goesOn (step { stored rested with pending := [.readRequest 160 1] }) = true := by decide +kernel

theorem witness_EveryStepKeepsTheModesInAgreement : rested.ModesAgree ∧ goesOn (step rested) = true := by
  refine ⟨⟨?_, ?_, ?_, ?_, ?_, ?_, ?_⟩, by decide +kernel⟩
  · decide
  · decide
  · intro m h; cases h
  · decide
  · intro step cut h; cases h
  · intro j h; cases h
  · intro j h; cases h

theorem witness_EveryStepKeepsSizesAndRanges : rested.SizesHold ∧ goesOn (step rested) = true := by
  exact ⟨⟨rfl, rfl, rfl, by decide, by decide, by decide, by decide, fun _ => rfl, by decide, by decide, by decide, by decide⟩,
    by decide +kernel⟩

theorem witness_FlashChangesOnlyWhereAnOperationWorks :
    (let o := opOf .tailMark 1 4080 16 (tailMarkBytes 1)
     let s := erasing (jobOf .manager .suspended 0) (flying o (stored rested))
     Memory.wf s.flash = true ∧ goesOn (step { s with pending := [.tailMarkOutcome (.ended [] [])] }) = true
       ∧ o.purpose.isProgram = true ∧ 4096 * o.block + o.offset + o.bytes.length ≤ 8192 ∧ 8192 < 4096 * 9) := by
  decide +kernel

theorem witness_at_rest : rested.atRest = true ∧ drained.atRest = true ∧ (protect rested).atRest = true := by
  decide +kernel

theorem witness_RequestsWaitInMount :
    State.reset.power = .on ∧ State.reset.mgmt.mode = .mount ∧ State.reset.port.request = none
      ∧ sample.length = 32 := by decide

theorem witness_ReadServedFromQueueOrFill :
    (∀ s ∈ [queued [.line entry5] rested, queued [.line entry5] (inMode .readonly rested),
        queued [.line entry5] (inMode .halted rested)],
      s.atRest = true ∧ ∀ p ∈ splitRequest 160 2 [], p.inRange = true ∧ (s.newestUsable (s.lineOf p)).isSome = true)
      ∧ drained.atRest = true ∧ drained.mgmt.mode = .drain
      ∧ (∀ p ∈ splitRequest 191 2 [], p.inRange = true ∧ (rested.entry (rested.lineOf p)).current = none)
      ∧ (stored rested).atRest = true
      ∧ (∃ q p, splitRequest 158 4 [] = [q] ++ p :: [] ∧ q.inRange = true ∧ p.inRange = true
          ∧ ((stored rested).entry ((stored rested).lineOf q)).current = none
          ∧ (stored rested).newestUsable ((stored rested).lineOf p) = none
          ∧ ((stored rested).entry ((stored rested).lineOf p)).current.isSome = true) :=
  ⟨by decide +kernel, by decide +kernel, by decide +kernel, by decide +kernel, by decide +kernel,
    ⟨_, _, rfl, by decide +kernel⟩⟩

/-- In HALTED a read of a line without a record ends with FLASH_LOST (R15, log 33). -/
theorem test_halted_read_without_record :
    (nextOf (exec (.readRequest 160 1) (inMode .halted rested)) rested).port.response
      = some { cause := some .flashLost, data := [0xFF] } := by decide +kernel

theorem witness_ReadsOutOfRangeAndInService :
    rested.atRest = true ∧ 262144 ≤ (262144 : BitVec 24).toNat ∧ rested.mgmt.mode = .run
      ∧ (inMode .readonly rested).atRest = true ∧ (inMode .halted rested).atRest = true
      ∧ (inMode .service rested).atRest = true ∧ (inMode .service rested).mgmt.mode = .service
      ∧ (let s := stored (inMode .halted rested)
         s.atRest = true ∧ s.mgmt.mode = .halted ∧ (∀ p ∈ splitRequest 158 4 [], p.inRange = true)
           ∧ ∃ p ∈ splitRequest 158 4 [], s.newestUsable (s.lineOf p) = none
             ∧ (s.entry (s.lineOf p)).current.isSome = true)
      ∧ (∃ p q, splitRequest 262142 4 [] = [p, q] ∧ p.inRange = true ∧ q.inRange = false
          ∧ (rested.entry (rested.lineOf p)).current = none ∧ rested.newestUsable (rested.lineOf p) = none
          ∧ (let s := (inMode .halted rested).setEntry 8191 ((stored rested).entry 5)
             s.atRest = true ∧ s.mgmt.mode = .halted ∧ s.newestUsable (s.lineOf p) = none
               ∧ (s.entry (s.lineOf p)).current.isSome = true)
          ∧ ((queued [.line (newLineEntry 8191 sample none)] rested).newestUsable
              ((queued [.line (newLineEntry 8191 sample none)] rested).lineOf p)).isSome = true) :=
  ⟨by decide +kernel, by decide, rfl, by decide +kernel, by decide +kernel, by decide +kernel, rfl, by decide +kernel,
    ⟨_, _, rfl, by decide +kernel⟩⟩

/-- A state under other settings. -/
def under (x : Settings) (s : State) : State := { s with mgmt := { s.mgmt with settings := x } }

/-- Shadow entries of window 0 for `n` lines that nothing else uses. -/
def shadows (n : Nat) (s : State) : State :=
  { s with windows := { s.windows with
      shadow := (List.range n).map fun i => { line := 1000 + i, window := 0, committed := none, committedGroup := none } } }

theorem witness_RefusedWriteChangesNothing :
    (inMode .readonly rested).atRest = true ∧ drained.atRest = true ∧ (inMode .service rested).atRest = true
      ∧ (inMode .halted rested).atRest = true ∧ (protect rested).atRest = true ∧ (protect rested).commandHold = false
      ∧ (protect rested).mgmt.mode = .run ∧ (protect rested).array.wp = true
      ∧ (let s := under { Settings.default with locks := 0x02 } rested
         s.atRest = true ∧ s.commandHold = false ∧ s.array.wp = false
           ∧ (∀ q ∈ splitRequest 32767 2 [1, 2], q.inRange = true)
           ∧ ((splitRequest 32767 2 [1, 2]).find? fun q => s.mgmt.settings.locks.getLsbD (s.lineOf q / 1024)).isSome
             = true)
      ∧ (let s := under { Settings.default with strict := true } rested
         s.atRest = true ∧ s.mgmt.settings.strict = true
           ∧ ((splitRequest 262143 2 [1, 2]).find? fun q => !q.inRange).isSome = true)
      ∧ rested.mgmt.settings.strict = false
      ∧ (let s := shadows 63 (windowed .armed none rested)
         let p := { busLine := 9, offset := 0, length := 1, data := [2], tag := none, merge := none, result := none }
         s.atRest = true ∧ s.windowAt [.armed, .opened] p.busLine = some 1
           ∧ (∀ q ∈ splitRequest 287 2 [1, 2], q.inRange = true
             ∧ s.mgmt.settings.locks.getLsbD (s.lineOf q / 1024) = false ∧ s.windowAt [.committing] q.busLine = none)
           ∧ ((splitRequest 287 2 [1, 2]).filter fun q =>
               (s.windowAt [.armed, .opened] q.busLine).isSome && (s.shadowOf (s.lineOf q)).isNone)[64
                 - s.windows.shadow.length]? = some p) := by decide +kernel

/-- Window 2 over lines 16 to 20, in a given state, with group 7 unless ARMED. -/
def secondWindow (st : WinState) (s : State) : State :=
  s.setWindow 2
    { state := st, first := 16, last := 20, repeats := 2, group := if st = .armed then none else some 7,
      register := none, awaiting := false }

theorem witness_WriteEntersHandOver :
    rested.atRest = true ∧ rested.commandHold = false ∧ rested.mgmt.mode = .run ∧ rested.array.wp = false
      ∧ (∃ p ∈ splitRequest 262143 2 [1, 2], p.inRange = true)
      ∧ (∀ p ∈ splitRequest 262143 2 [1, 2], p.inRange = true
          ∧ rested.mgmt.settings.locks.getLsbD (rested.lineOf p / 1024) = false
          ∧ rested.windowAt [.armed, .opened] p.busLine = none ∧ rested.windowAt [.committing] p.busLine = none
        ∨ p.inRange = false ∧ rested.mgmt.settings.strict = false)
      ∧ rested.queue.entries.length + rested.queue.requests.length ≤ 14 ∧ 1 ≤ rested.erasedCount
      ∧ (∃ p, splitRequest 480 32 sample = [p] ∧ p.inRange = true ∧ rested.lineOf p / 1024 = 0
          ∧ (∀ s ∈ [windowed .armed none rested, windowed .opened none rested, shadows 63 (windowed .opened none rested)],
            s.atRest = true ∧ s.windowAt [.armed, .opened] p.busLine = some 1
              ∧ s.windowAt [.committing] p.busLine = none ∧ s.windows.shadow.length < 64))
      ∧ ((windowed .armed none rested).window 1).state = .armed
      ∧ (windowed .armed none rested).windows.nextGroup < 4294967294
      ∧ ((windowed .opened none rested).window 1).group = some 1
      ∧ (doing (.svce false) rested).atRest = true ∧ (doing (.svce false) rested).commandHold = true
      ∧ (let s := windowed .committing none rested
         s.atRest = true ∧ s.commandHold = false ∧ s.mgmt.mode = .run ∧ s.array.wp = false
           ∧ (∀ p ∈ splitRequest 254 6 [1, 2, 3, 4, 5, 6], p.inRange = true
             ∧ s.mgmt.settings.locks.getLsbD (s.lineOf p / 1024) = false)
           ∧ (∃ p ∈ splitRequest 254 6 [1, 2, 3, 4, 5, 6], (s.windowAt [.committing] p.busLine).isSome = true))
      ∧ (∃ p q, splitRequest 509 6 [1, 2, 3, 4, 5, 6] = [p, q] ∧ ∀ st ∈ [WinState.armed, .opened],
          let s := secondWindow st (windowed st none rested)
          s.atRest = true ∧ s.commandHold = false ∧ s.mgmt.mode = .run ∧ s.array.wp = false
            ∧ (∀ x ∈ [p, q], x.inRange = true ∧ s.mgmt.settings.locks.getLsbD (s.lineOf x / 1024) = false
              ∧ s.windowAt [.committing] x.busLine = none)
            ∧ s.windows.windows.length = 4 ∧ s.windows.nextGroup < 4294967293
            ∧ (∀ w < 4, (s.window w).state = .opened → (s.window w).group.isSome = true)
            ∧ s.windowAt [.armed, .opened] p.busLine = some 1 ∧ s.windowAt [.armed, .opened] q.busLine = some 2
            ∧ s.windows.shadow.length ≤ 62) :=
  ⟨by decide +kernel, by decide +kernel, by decide +kernel, by decide +kernel, by decide +kernel, by decide +kernel,
    by decide +kernel, by decide +kernel, ⟨_, rfl, by decide +kernel⟩, by decide +kernel, by decide +kernel,
    by decide +kernel, by decide +kernel, by decide +kernel, by decide +kernel, ⟨_, _, rfl, by decide +kernel⟩⟩

theorem witness_StallExpiryEndsTheRequest :
    (asking readOfLine5 rested).power = .on ∧ (asking readOfLine5 rested).port.request = some readOfLine5 := by decide

theorem witness_RequestsSplitIntoPieces :
    (splitRequest 160 32 sample).length = 1 ∧ (splitRequest 191 2 [1, 2]).length = 2 ∧ ([] : List Byte).length = 0
      ∧ 32 < (sample ++ [0]).length := by decide +kernel

/-- A piece of one byte at the last line of window 1, tagged with its group. -/
def lastPiece : Piece :=
  { busLine := 15, offset := 3, length := 1, data := [7], tag := some { window := 1, group := 1 }, merge := none,
    result := none }

theorem witness_WritesAreAccepted :
    (∃ p, (fullWrite.pieces.filter fun q => q.inRange) = [p] ∧ p.offset = 0 ∧ p.length = 32 ∧ p.data.length = 32
        ∧ p.tag = none ∧ rested.newestUsable (rested.lineOf p) = none ∧ rested.lineOf p = entry5.line)
      ∧ fullWrite.phase = .handOver ∧ rested.queue.requests = []
      ∧ (queued (List.replicate 15 (.line { entry5 with line := 6 })) rested).atRest = true
      ∧ 3 ≤ rested.erasedCount ∧ (queued [.line entry5] rested).atRest = true
      ∧ (∃ p, (writeOfLine5.pieces.filter fun q => q.inRange) = [p] ∧ p.tag = none
          ∧ (rested.entry (rested.lineOf p)).current = none ∧ p.length ≠ 32)
      ∧ entry5.dropped = false ∧ entry5.state = .pending ∧ entry5.origin = none ∧ entry5.tag = none
      ∧ (queued [.line (issued5 0)] rested).newestUsable 5 = some (issued5 0) ∧ (issued5 0).state = .programming
      ∧ ({ entry5 with tag := some { window := 1, group := 1 } } : LineEntry).tag ≠ none
      ∧ ((stored rested).entry 5).current = some ⟨9, 1⟩
      ∧ (∀ q ∈ [List.replicate 14 (QEntry.line entry5), List.replicate 15 (.line entry5)],
          let s := queued q (windowed .opened none rested)
          s.newestUsable (s.lineOf lastPiece) = none ∧ (s.entry (s.lineOf lastPiece)).current = none
            ∧ lastPiece.inRange = true ∧ lastPiece.busLine = (s.window 1).last ∧ (s.window 1).state = .opened
            ∧ (s.window 1).group = some 1 ∧ s.reg 0 = .free ∧ s.windows.windows.length = 4 ∧ s.readInFlight = false)
      ∧ (∀ n ∈ [14, 15],
          let e := newLineEntry 15 sample (some { window := 1, group := 1 })
          let s := queued (List.replicate n (.line entry5) ++ .line e :: []) (windowed .opened none rested)
          s.atRest = true ∧ e.line = s.lineOf lastPiece ∧ e.dropped = false ∧ e.state = .pending ∧ e.origin = none
            ∧ e.tag = lastPiece.tag ∧ lastPiece.busLine = (s.window 1).last ∧ s.reg 0 = .free ∧ s.queue.requests = []
            ∧ { lastPiece with busLine := 14 }.busLine ≠ (s.window 1).last)
      ∧ (∃ p q, ((splitRequest 191 2 [1, 2]).filter fun q => q.inRange) = [p, q] ∧ rested.lineOf p ≠ rested.lineOf q
          ∧ p.length ≠ 32 ∧ q.length ≠ 32 ∧ p.tag = none ∧ q.tag = none) :=
  ⟨⟨_, rfl, by decide +kernel⟩, by decide, by decide, by decide +kernel, by decide +kernel, by decide +kernel,
    ⟨_, rfl, by decide +kernel⟩, by decide, by decide, by decide, by decide, by decide +kernel, by decide, by decide,
    by decide, by decide +kernel, by decide +kernel, ⟨_, _, rfl, by decide +kernel⟩⟩

theorem witness_WritesAreAccepted_waits :
    (let e := { entry5 with origin := some 1 }
     let s := asking writeOfLine5 (queued [.line e] rested)
     (∃ p, writeOfLine5.pieces = [p] ∧ p.inRange = true ∧ s.newestUsable (s.lineOf p) = some e)
       ∧ e.state = .pending ∧ e.origin.isSome = true
       ∧ (nextOf (exec .writeAcceptance s) rested).queue = s.queue)
      ∧ (∀ s ∈ [queued (List.replicate 16 (.line { entry5 with line := 6 })) rested,
            { rested with blocks := { rested.blocks with table := [(1, rested.block 1)] } }],
          s.atRest = true ∧ s.mgmt.mode = .run ∧ s.array.wp = false ∧ s.commandHold = false ∧ fullWrite.write = true
            ∧ (∃ p, fullWrite.pieces = [p] ∧ p.inRange = true ∧ p.full = true ∧ p.tag = none ∧ p.merge = none
              ∧ s.newestUsable (s.lineOf p) = none)
            ∧ (16 ≤ s.queue.entries.length + s.queue.requests.length ∨ s.erasedCount = 0)
            ∧ (nextOf (exec .writeAcceptance (asking fullWrite s)) rested).mgmt.spaceLow = true) :=
  ⟨⟨⟨_, rfl, by decide +kernel⟩, by decide +kernel⟩, by
    intro s hs
    simp only [List.mem_cons, List.not_mem_nil, or_false] at hs
    rcases hs with rfl | rfl <;>
      exact ⟨by decide +kernel, rfl, rfl, rfl, rfl, ⟨_, rfl, by decide +kernel⟩, by decide +kernel, by decide +kernel⟩⟩

/-- A scanned block. -/
def scanned (b : Nat) (c : BlockClass) (highest : Nat) : BlockScan :=
  { block := b, cls := c, eraseCount := some 0, opening := some (b, 1, 1), highest := highest }

theorem witness_ArbiterGrantsTheWaitingReadFirst :
    (flying (opOf .mountRead 1 0 48 []) State.reset).array.op.isSome = true
      ∧ ({ rested with array := { rested.array with timeouts := 3 } } : State).array.timeouts = 3
      ∧ (asking readOfLine5 (stored rested)).mgmt.mode = .run ∧ (stored rested).array.op = none
      ∧ (stored rested).eraseBusy = false
      ∧ (∃ p, readOfLine5.pieces = [] ++ p :: [] ∧ p.result = none
          ∧ ((stored rested).entry ((stored rested).lineOf p)).current = some ⟨9, 1⟩)
      ∧ (∃ p, writeOfLine5.pieces = [] ++ p :: [] ∧ p.inRange = true ∧ p.full = false
          ∧ (stored rested).newestUsable ((stored rested).lineOf p) = none ∧ p.merge.map (·.slot) ≠ some ⟨9, 1⟩)
      ∧ (let m := { Mount.start false with step := .repairs, repairs := [Repair.tailMark 9], scans := [scanned 9 .unfinished 84] }
         let s := mounting m rested
         s.atGrant = true ∧ s.commandHold = false ∧ s.array.wp = false ∧ s.drain.pfw = false ∧ s.array.erase = none)
      ∧ (∀ p ∈ [ErasePart.waiting, .firstPart, .record],
          (erasing (jobOf .mount p 1) (mounting { Mount.start false with step := .repairs } rested)).atGrant = true
            ∧ (erasing (jobOf .wipe p 1) (doing (.wipe .format false) (inMode .service rested))).atGrant = true)
      ∧ (let s := doing (.wipe (.data 255) false) (inMode .service rested)
         s.atGrant = true ∧ s.array.erase = none ∧ (∀ d ∈ dataBlocks, 255 ≤ d → d < 255 → False)
           ∧ (s.block 255).state ≠ .retired
           ∧ ((s.setBlock 255 (bareEntry .retired 0)).block 255).state = .retired) :=
  ⟨rfl, rfl, rfl, rfl, rfl, ⟨_, rfl, by decide +kernel⟩, ⟨_, rfl, by decide +kernel⟩, by decide +kernel, by decide +kernel,
    by decide +kernel, by decide +kernel, by intro d _ h1 h2; omega, by decide +kernel, by decide +kernel⟩

/-- Block 1 with slot 84 next. -/
def s84 : State := rested.setBlock 1 { bareEntry .opened 0 with blockSeq := some 1, nextFree := 84 }

/-- A copy of line 5's record that waits for its program. -/
def heldCopy : CopyWork :=
  { source := ⟨9, 1⟩, stage := .held, bytes := (plainRecord 5 1 sample).encode, failed := false, built := none }

/-- The origin sequence at its last value, a degrade condition (R191). -/
def outOfOrigins (s : State) : State := { s with queue := { s.queue with nextOrigin := 4294967295 } }

/-- DRAINING with an empty queue, its release pending or not. -/
def draining (release : Bool) (s : State) : State :=
  { inMode .drain s with
    drain := { phase := .draining, returnMode := some .run, releasePending := release, pfw := !release } }

theorem witness_ReactionsFollowTheirRules_modes :
    (outOfOrigins rested).degraded = true ∧ (outOfOrigins rested).settle.mgmt.mode = .readonly
      ∧ (outOfOrigins drained).degraded = true ∧ (outOfOrigins drained).settle.drain.returnMode = some .readonly
      ∧ (∀ b ∈ [false, true], (draining b rested).queue.entries = []
          ∧ (∀ w < 4, ((draining b rested).window w).awaiting = false)
          ∧ (draining b rested).settle.eventSet .drainDone = true)
      ∧ (draining false rested).settle.drain.phase = .drained ∧ (draining true rested).settle.mgmt.mode = .run
      ∧ (let s := doing (.wipe .read0 true) (inMode .service rested)
         s.array.op = none ∧ s.array.erase = none ∧ s.settle.mgmt.command = .zero ∧ s.settle.mgmt.data[0]? = some 8) := by
  decide +kernel

theorem witness_ReactionsFollowTheirRules_writes :
    (asking fullWrite (queued (List.replicate 16 (.line { entry5 with line := 6 })) rested)).settle.mgmt.spaceLow = true
      ∧ (asking fullWrite (queued (List.replicate 15 (.line { entry5 with line := 6 })) rested)).settle.mgmt.spaceLow
        = false
      ∧ (let s := queued [.line entry5] { rested with blocks := { rested.blocks with
           table := [(2, bareEntry .erased 0), (3, bareEntry .erased 0)] } }
         s.settle.mgmt.spaceLow = true ∧ s.settle.eventSet .spaceLow = true)
      ∧ fullWrite.write = true ∧ fullWrite.phase = .handOver
      ∧ (∀ x ∈ [(inMode .readonly rested, Cause.readOnly), (drained, .draining), (inMode .service rested, .notReady),
          (inMode .halted rested, .flashLost), (outOfOrigins rested, .readOnly), (protect rested, .writeProtected)],
          x.1.commandHold = false ∧ (asking fullWrite x.1).settle.port.response
            = some { cause := some x.2, data := [] }) := by decide +kernel

/-- Every register entry COMMITTED by groups `9` to `24`, each but entry `dead` with a line of its own in the table. -/
def fullRegister (dead : Nat) (s : State) : State :=
  { s with
    table := ((List.range 16).filter fun i => decide (i ≠ dead)).map fun i =>
      (i, { current := some ⟨9, i + 1⟩, group := some (.register i), checkFailed := false }),
    windows := { s.windows with register := (List.range 16).map fun i => .committed 0 (i + 9) ⟨9, i + 30⟩ } }

/-- Window 1 COMMITTING group 25, perhaps awaiting a register entry. -/
def awaitingEntry (awaiting : Bool) (s : State) : State :=
  s.setWindow 1
    { state := .committing, first := 8, last := 15, repeats := 2, group := some 25, register := none,
      awaiting := awaiting }

theorem witness_ReactionsFollowTheirRules_groups :
    (∀ i ∈ [0, 15],
      let s := awaitingEntry true (fullRegister i rested)
      s.degraded = false ∧ s.windows.windows.length = 4 ∧ s.windows.register.length = 16
        ∧ (s.window 1).awaiting = true ∧ (∀ v < 4, (s.window v).awaiting = true → v = 1)
        ∧ s.reg i = .committed 0 (i + 9) ⟨9, i + 30⟩ ∧ s.liveTagged i = 0 ∧ (∀ j < i, s.reg j ≠ .free)
        ∧ (∀ j < i, s.liveTagged j ≠ 0)
        ∧ s.settle.reg i = .reserved 1 25 ∧ (s.settle.window 1).register = some i ∧ s.settle.queue.entries.length = 1
        ∧ (queued (List.replicate 16 (.line entry5)) s).settle.queue.requests.length = 1)
      ∧ (let s := awaitingEntry true (fullRegister 16 rested)
         s.settle.windows.release = some { register := 0, priority := true }
           ∧ s.settle.blocks.release = some { register := 0, priority := true, copy := none })
      ∧ (let s := fullRegister 16 rested
         s.settle.committedCount = 16 ∧ s.settle.windows.release = some { register := 0, priority := false })
      ∧ (let s : State := { rested with
           windows := { rested.windows with release := some { register := 3, priority := false } },
           blocks := { rested.blocks with release := some { register := 3, priority := false, copy := some heldCopy } } }
         s.settle.windows.release = none ∧ s.settle.blocks.release = none) := by decide +kernel

theorem witness_ReactionsFollowTheirRules_erases :
    (let s := withVictim (rested.setBlock 9 (bareEntry .victim 7))
     (s.block 9).state = .victim ∧ s.mount = none ∧ s.wipeCut = false ∧ s.commandHold = false
       ∧ (∀ x ∈ s.settle.named, x.block ≠ 9) ∧ (s.settle.block 9).state = .erasing
       ∧ s.settle.array.erase = some (newErase .manager 9 8) ∧ ((protect s).settle.block 9).state = .victim)
      ∧ (let s := erasing (jobOf .manager .headerHeld 1) rested
         s.array.op = none ∧ s.array.timeouts < 3 ∧ s.drain.returnMode = none
           ∧ s.settle.array.erase = some (jobOf .manager .header 1)
           ∧ (protect s).settle.array.erase = some (jobOf .manager .headerHeld 1))
      ∧ (let m := { Mount.start false with
           step := .repairs, repairs := [Repair.virginHeader 1, .eraseBlock 255, .tailMark 3, .repairBlock0] }
         let s := protect (mounting m rested)
         s.drain.pfw = false ∧ (s.settle.mount.map fun k => (k.repairs, k.results)) = some ([], [])
           ∧ (erasing (jobOf .mount .waiting 1) s).settle.array.erase = none
           ∧ (erasing (jobOf .mount .headerHeld 0) s).settle.array.erase = some (jobOf .mount .headerHeld 0)) := by
  decide +kernel

/-- Block 9 holds line 5's record, and a job of a given kind works on it, perhaps with a copy in hand. -/
def working (c : Option CopyWork) (k : JobKind) : State :=
  let s := stored rested
  match k with
  | .reclaim =>
    { s with blocks := { s.blocks with
      table := Sparse.set BlockEntry.unknown s.blocks.table 9 (bareEntry .victim 0), victim := some 9, reclaimCopy := c } }
  | .retirement =>
    { s with blocks := { s.blocks with
      table := Sparse.set BlockEntry.unknown s.blocks.table 9 (bareEntry .retiring 0), retiring := [9], retireCopy := c } }
  | .release =>
    { s with
      table := [(5, { current := some ⟨9, 1⟩, group := some (.register 0), checkFailed := false })],
      blocks := { s.blocks with release := some { register := 0, priority := true, copy := c } } }

theorem witness_GrantIssuesTheQueueHead :
    (∀ e ∈ [QEntry.line entry5, .commit (commitEntryOf { window := 1, group := 1, register := 0, syncMark := false })],
      let s := queued [e] rested
      let t := queued [e] { inMode .drain rested with
        drain := { phase := .draining, returnMode := some .run, releasePending := false, pfw := true } }
      s.atGrant = true ∧ s.jobsAsk = true ∧ s.array.wp = false ∧ s.blocks.tailOwed = none ∧ s.blocks.retiring = []
        ∧ s.blocks.release = none ∧ 3 ≤ s.erasedCount ∧ s.openBlock = some 1 ∧ (s.block 1).nextFree = 3
        ∧ s.queue.nextOrigin < 4294967295 ∧ t.atGrant = true ∧ t.mgmt.mode = .drain ∧ t.openBlock = some 1)
      ∧ entry5.state = .pending ∧ s84.openBlock = some 1 ∧ (s84.block 1).nextFree ≤ 84
      ∧ (let s := queued [.line entry5] (rested.setBlock 1 (bareEntry .full 0))
         s.atGrant = true ∧ s.openBlock = none ∧ s.blocks.nextSeq < 4294967295 ∧ 3 ≤ s.erasedCount
           ∧ Sparse.wf BlockEntry.unknown s.blocks.table = true ∧ (s.block 2).state = .erased
           ∧ (∀ c ∈ s.blocks.table, c.2.state = .erased → (s.block 2).eraseCount = c.2.eraseCount ∧ 2 ≤ c.1)
           ∧ BlockEntry.unknown.state ≠ .erased)
      ∧ (∀ k ∈ [JobKind.reclaim, .retirement, .release],
          let s := working none k
          let t := working (some heldCopy) k
          s.atGrant = true ∧ s.jobsAsk = true ∧ s.jobIsNext k = true ∧ s.copyOf k = none
            ∧ s.nextSource k = some ⟨9, 1⟩ ∧ t.jobIsNext k = true ∧ t.copyOf k = some heldCopy
            ∧ t.live ⟨9, 1⟩ = true ∧ t.openBlock = some 1 ∧ t.queue.entries.length + 1 ≤ t.freeSlots
            ∧ ({ t with table := [], windows := .reset } : State).live ⟨9, 1⟩ = false
            ∧ heldCopy.stage = .held ∧ parseRecord heldCopy.bytes = some (plainRecord 5 1 sample))
      ∧ (∀ p ∈ [ErasePart.waiting, .markRead, .mark],
          let s := withVictim (erasing (jobOf .manager p 1) rested)
          s.atGrant = true ∧ s.jobsAsk = true ∧ s.rankFiveFirst = true ∧ s.reclaimFirst = true)
      ∧ (let s : State := { stored rested with blocks := { (stored rested).blocks with
           table := Sparse.set BlockEntry.unknown (Sparse.set BlockEntry.unknown rested.blocks.table 9 (bareEntry .retiring 0)) 8
             (bareEntry .retiring 0), retiring := [9, 8] } }
         s.atGrant = true ∧ s.jobsAsk = true ∧ s.liveCount 9 ≠ 0 ∧ s.liveCount 8 = 0)
      ∧ (∀ r ∈ [Requester.queue, .drain, .job .reclaim, .job .release, .job .retirement, .priorityRelease],
          let s : State := { rested with blocks := { rested.blocks with tailOwed := some r } }
          s.atGrant = true ∧ s.jobsAsk = true ∧ s.openBlock = some 1 ∧ s.rankFiveFirst = true ∧ 3 ≤ s.erasedCount)
      ∧ (let s := doing (.append .zlck Settings.default false) rested
         s.atGrant = true ∧ s.jobsAsk = true ∧ s.queue.entries = [] ∧ s.blocks.release = none ∧ s.blocks.victim = none
           ∧ s.blocks.reclaimCopy = none ∧ s.array.erase = none) :=
  ⟨by decide +kernel, rfl, rfl, by decide, by decide +kernel, by decide +kernel, by decide +kernel, by decide +kernel,
    by decide +kernel, by decide +kernel⟩

theorem witness_GrantIssuesTheDrainOpening :
    (let b : BlockManager := { rested.blocks with table := [(2, bareEntry .erased 0)], drainOpening := true }
     Sparse.wf BlockEntry.unknown b.table = true
       ∧ ∀ s ∈ [{ drained with blocks := b }, { rested with blocks := b }],
         s.atGrant = true ∧ s.array.wp = false ∧ s.blocks.tailOwed = none ∧ s.openBlock = none
           ∧ s.blocks.nextSeq < 4294967295 ∧ 1 ≤ s.erasedCount ∧ (s.mgmt.mode = .drain ∨ s.jobsAsk = true)
           ∧ s.blocks.retiring = [] ∧ s.blocks.release = none ∧ (s.block 2).state = .erased
           ∧ ((nextOf (exec .arbiterGrant s) s).array.op.map fun o => o.purpose) = some (.opening .drain)
           ∧ (nextOf (exec .arbiterGrant s) s).blocks.drainOpening = false) := by decide +kernel

/-- The bytes a read of block 9's slot 1 returns. -/
def slotBytesOfLine5 (u : Upset) : List Byte := (stored rested).received (opOf (.readPiece 0) 9 48 48 []) u

theorem witness_ReadPieceIsTested :
    (let s := asking readOfLine5 (flying (opOf (.readPiece 0) 9 48 48 []) (stored rested))
     (∃ p, readOfLine5.pieces[0]? = some p ∧ s.lineOf p = 5)
       ∧ s.health.arm ≠ .read ∧ parseRecord (slotBytesOfLine5 []) = some (plainRecord 5 1 sample)
       ∧ (plainRecord 5 1 sample).kind ≠ .commit ∧ (plainRecord 5 1 sample).line = 5
       ∧ parseRecord (slotBytesOfLine5 [(20, 0)]) = none
       ∧ ({ s with health := { s.health with arm := .read } } : State).health.arm = .read
       ∧ ({ opOf (.readPiece 0) 9 48 48 [] with abandoned := true } : Op).abandoned = true) :=
  ⟨⟨_, rfl, by decide +kernel⟩, by decide +kernel⟩

theorem witness_MergeReadIsTested :
    (let s := asking writeOfLine5 (flying (opOf (.mergeRead 0) 9 48 48 []) (stored rested))
     (∃ p, writeOfLine5.pieces[0]? = some p ∧ s.lineOf p = 5)
       ∧ s.array.op = some (opOf (.mergeRead 0) 9 48 48 []) ∧ s.port.request = some writeOfLine5) :=
  ⟨⟨_, rfl, by decide +kernel⟩, rfl, rfl⟩

theorem witness_RelocationReadIsHeld :
    (let c : CopyWork := { source := ⟨9, 1⟩, stage := .reading, bytes := [], failed := false, built := none }
     let s := flying (opOf (.relocRead .reclaim) 9 48 48 []) (stored rested)
     let t : State := { s with blocks := { s.blocks with
       reclaimCopy := some c, retireCopy := some c, release := some { register := 0, priority := true, copy := some c } } }
     t.blocks.reclaimCopy = some c ∧ t.blocks.retireCopy = some c ∧ t.blocks.release.bind (·.copy) = some c
       ∧ t.live c.source = true ∧ t.sourcePasses c.source (slotBytesOfLine5 []) = true
       ∧ t.sourcePasses c.source (slotBytesOfLine5 [(20, 0)]) = false
       ∧ ({ t with table := [] } : State).live c.source = false) := by decide +kernel

theorem witness_RelocationReadIsHeld_sources :
    (let x : Slot := ⟨9, 1⟩
     let line := (plainRecord 5 1 sample).encode
     let s := stored rested
     let t : State := { rested with windows := { rested.windows with
       shadow := [{ line := 5, window := 1, committed := some x, committedGroup := none }] } }
     let u : State := { rested with windows := { rested.windows with
       register := (List.replicate 16 RegEntry.free).set 3 (.committed 2 7 x) } }
     s.lineNaming x = some 5 ∧ t.lineNaming x = some 5 ∧ u.lineNaming x = none
       ∧ s.sourcePasses x line = true ∧ t.sourcePasses x line = true ∧ u.sourcePasses x line = false
       ∧ s.sourcePasses x (plainRecord 6 1 sample).encode = false
       ∧ u.sourcePasses x (commitRecord { window := 2, group := 7 }).encode = true
       ∧ s.sourcePasses x (commitRecord { window := 2, group := 7 }).encode = false
       ∧ u.sourcePasses x (commitRecord { window := 2, group := 8 }).encode = false) := by decide +kernel

/-- The header of a data block with erase count 3, its opening field blank or given. -/
def headerBytes (opening : List Byte) : List Byte := firstPart kindData 3 ++ opening ++ List.replicate 16 0xFF

/-- What step 3 collected of `n` groups, each with a COMMIT record in block 1 and one line in block 2. -/
def groups (n : Nat) : Mount :=
  { Mount.start false with
    records := ((List.range n).map fun g => recInfo 1 1 (g + 1) (commitRecord ⟨0, g + 1⟩))
      ++ (List.range n).map fun g => recInfo 2 2 (g + 1) (tentativeRecord ⟨0, g + 1⟩ g (g + 1) sample) }

theorem witness_MountScanCollects :
    (let m := { Mount.start false with step := .header 254 }
     let s := mounting m (flying (opOf .mountRead 254 0 48 []) State.reset)
     s.mount = some m ∧ isBlank (((s.received (opOf .mountRead 254 0 48 []) [(32, 0x6C)]).drop 32).take 8) = false
       ∧ isBlank (((s.received (opOf .mountRead 254 0 48 []) []).drop 32).take 8) = true
       ∧ isBlank ((s.received (opOf .mountRead 254 0 48 []) []).take 16) = true)
      ∧ (let m := { Mount.start false with step := .slot 9 1, scans := [scanned 9 .full 0] }
         parseRecord ((mounting m (stored rested)).received (opOf .mountRead 9 48 48 []) [])
             = some (plainRecord 5 1 sample)
           ∧ parseRecord ((mounting m (stored rested)).received (opOf .mountRead 9 48 48 []) [(20, 0)]) = none
           ∧ (m.scans.find? fun y => decide (y.block = 9)) = some (scanned 9 .full 0))
      ∧ (Mount.start true).step = .settings
      ∧ (let bs := headerBytes (openingField 7 1 1)
         isBlank ((bs.drop 32).take 8) = true ∧ parseFirstPart (bs.take 16) = some (kindData, 3)
           ∧ (parseOpening ((bs.drop 16).take 16)).isSome = true)
      ∧ (let bs := headerBytes (List.replicate 16 0xFF)
         parseFirstPart (bs.take 16) = some (kindData, 3) ∧ parseOpening ((bs.drop 16).take 16) = none
           ∧ isBlank ((bs.drop 16).take 16) = true)
      ∧ (let bs := headerBytes (List.replicate 16 0)
         parseOpening ((bs.drop 16).take 16) = none ∧ isBlank ((bs.drop 16).take 16) = false)
      ∧ parseFirstPart (firstPart kindSettings 3) = some (kindSettings, 3) ∧ parseFirstPart (List.replicate 16 0) = none
      ∧ (let m := { Mount.start false with step := .slot 9 84, scans := [scanned 9 .full 0, scanned 11 .unfinished 84] }
         m.AfterBlock { m with step := .slot 11 1 } 9 ∧ m.AfterHeader { m with step := .slot 9 1 } 255
           ∧ m.AfterHeader { m with step := .header 255 } 254
           ∧ (∀ z ∈ m.scans, ¬(11 < z.block ∧ (z.cls = .full ∨ z.cls = .unfinished)))
           ∧ m.results = [] ∧ (m.scans.map (·.block)).Nodup ∧ m.openBlock = none)
      ∧ ({ Mount.start false with scans := [scanned 9 .full 0, scanned 11 .unfinished 83] } : Mount).openBlock = some 11
      ∧ ((groups 17).allowed.2 = 1 ∧ (groups 17).allowed.1.length = 16 ∧ (groups 16).allowed.2 = 0
        ∧ (groups 17).allowed.1.contains { window := 0, group := 1 } = false) :=
  ⟨by decide +kernel, by decide +kernel, rfl, by decide +kernel, by decide +kernel, by decide +kernel, by decide +kernel,
    by decide +kernel,
    ⟨Or.inl ⟨[scanned 9 .full 0], _, [], rfl, by decide, by decide, by decide, rfl⟩,
      Or.inr ⟨rfl, Or.inl ⟨[], _, _, rfl, by decide, by decide, by decide, rfl⟩⟩, Or.inl ⟨by decide, rfl⟩,
      by decide +kernel, rfl, by decide, by decide +kernel⟩,
    by decide +kernel, by decide +kernel⟩

theorem witness_MarkAreaAndBlock0Reads :
    (let o := opOf .markRead 9 32 8 []
     let s := withVictim (erasing (jobOf .manager .markRead 3) (flying o rested))
     isBlank (s.received o []) = true ∧ isBlank (s.received o [(7, 0)]) = false ∧ s.blocks.victim = some 9)
      ∧ (doing (.wipe .read0 false) (inMode .service rested)).mgmt.command = .active (.wipe .read0 false) := by
  decide +kernel

/-- The program of line 5's entry into slot `n` of block 1, in flight. -/
def lineProgram (p : Purpose) (n : Nat) : Op := opOf p 1 (48 * n) 48 (plainRecord 5 1 sample).encode

theorem witness_QueueProgramPasses :
    (let s := flying (lineProgram .queueProgram 84) (queued [.line (issued5 0)] rested)
     s.power = .on ∧ s.health.arm ≠ .verify ∧ Sparse.wf BlockEntry.unknown s.blocks.table = true
       ∧ (issued5 0).dropped = false ∧ ({ issued5 0 with dropped := true } : LineEntry).dropped = true
       ∧ overlay (overlay (lineProgram .queueProgram 84).bytes [(0, 1)]) [(0, 0x3C)]
         = (lineProgram .queueProgram 84).bytes) := by decide +kernel

/-- Block 1 has failed a number of times in a row. -/
def failing (n : Nat) (s : State) : State := s.setBlock 1 { s.block 1 with failures := n }

theorem witness_QueueProgramFails :
    (let s := flying (lineProgram .queueProgram 3) (queued [.line (issued5 4)] (failing 1 rested))
     Sparse.wf BlockEntry.unknown s.blocks.table = true ∧ (s.block 1).failures ≤ 1 ∧ (issued5 4).attempts ≤ 4
       ∧ (issued5 5).attempts = 5 ∧ (issued5 5).syncMark = false ∧ (issued5 4).lastBlock ≠ some 1
       ∧ (issued5 4).dropped = false ∧ s.health.arm ≠ .verify
       ∧ overlay (overlay (lineProgram .queueProgram 3).bytes []) [(0, 0)] ≠ (lineProgram .queueProgram 3).bytes
       ∧ isLineRecord (lineProgram .queueProgram 3).bytes = true
       ∧ ((failing 2 rested).block 1).failures = 2 ∧ ((failing 2 rested).block 1).state = .opened
       ∧ ({ issued5 4 with lastBlock := some 1, blockAttempts := 2 } : LineEntry).blockAttempts = 2) := by decide +kernel

/-- The COMMIT entry of window 1's group, PROGRAMMING after `n` attempts. -/
def issuedCommit (n : Nat) : CommitEntry :=
  { commitEntryOf { window := 1, group := 1, register := 0, syncMark := false } with
    state := .programming, attempts := n, target := some ⟨1, 3⟩ }

/-- The program of that COMMIT record in flight. -/
def committing (p : Purpose) (n : Nat) (s : State) : State :=
  flying (opOf p 1 144 48 (commitRecord ⟨1, 1⟩).encode) (queued [.commit (issuedCommit n)] (windowed .committing (some 0) s))

theorem witness_CommitRecordPasses :
    (let s := committing .queueProgram 5 rested
     let bs := (commitRecord ⟨1, 1⟩).encode
     s.queue.entries = .commit (issuedCommit 5) :: [] ∧ s.port.request = none ∧ isLineRecord bs = false
       ∧ overlay (overlay bs []) [] = bs ∧ overlay (overlay bs []) [(47, 0x55)] ≠ bs ∧ (s.block 1).failures ≤ 1
       ∧ (issuedCommit 4).attempts ≤ 4 ∧ (issuedCommit 5).syncMark = false
       ∧ Sparse.wf TableEntry.clear s.table = true ∧ (s.windows.shadow.map (·.line)).Nodup
       ∧ Sparse.wf BlockEntry.unknown s.blocks.table = true) := by decide +kernel

theorem witness_ReclaimCopyOutcome :
    (let o := lineProgram (.copyProgram .reclaim) 3
     let c : CopyWork := { source := ⟨9, 1⟩, stage := .programming, bytes := o.bytes, failed := false, built := some o.bytes }
     let s := flying o (withVictim (stored rested))
     let t : State := { s with blocks := { s.blocks with
       reclaimCopy := some c, retireCopy := some c, release := some { register := 0, priority := true, copy := some c } } }
     t.health.arm ≠ .verify ∧ t.blocks.reclaimCopy = some c ∧ t.blocks.retireCopy = some c
       ∧ t.blocks.release.bind (·.copy) = some c ∧ c.built = some o.bytes
       ∧ overlay (overlay o.bytes []) [] = o.bytes ∧ overlay (overlay o.bytes []) [(0, 0)] ≠ o.bytes
       ∧ o.block ≠ 0 ∧ o.length = 48 ∧ isLineRecord o.bytes = true
       ∧ (t.block o.block).failures ≤ 1 ∧ Sparse.wf BlockEntry.unknown t.blocks.table = true
       ∧ ((failing 2 rested).block 1).failures = 2 ∧ ((failing 2 rested).block 1).state = .opened
       ∧ Sparse.wf BlockEntry.unknown (failing 2 rested).blocks.table = true) := by decide +kernel

theorem witness_BlockMarksChangeTheBlock :
    (flying (opOf (.opening .queue) 2 16 16 (openingField 2 1 1)) rested).power = .on
      ∧ (opOf .tailMark 1 4080 16 (tailMarkBytes 1)).length = 16
      ∧ (opOf .retireMark 4 32 8 retireMarkBytes).length = 8
      ∧ (let s := flying (opOf .eraseMark 9 32 8 retireMarkBytes) (withVictim (erasing (jobOf .manager .mark 3) rested))
         s.array.erase = some (jobOf .manager .mark 3) ∧ (jobOf .manager .mark 3).owner = .manager
           ∧ s.blocks.victim = some 9) := by decide +kernel

/-- DRAINING with entries in the queue and no slot to be had. -/
def stuck (qs : List QEntry) : State :=
  { queued qs (inMode .drain rested) with
    blocks := .reset,
    drain := { phase := .draining, returnMode := some .run, releasePending := false, pfw := true } }

theorem witness_DrainProgramIsTriedOnce :
    (let o := lineProgram .drainProgram 84
     let s := flying o (queued [.line (issued5 0)] drained)
     s.health.arm ≠ .verify ∧ overlay (overlay o.bytes []) [] = o.bytes
       ∧ overlay (overlay o.bytes []) [(0, 0)] ≠ o.bytes ∧ (s.block o.block).failures ≤ 1
       ∧ (issued5 0).syncMark = false ∧ (issued5 0).lastBlock ≠ some o.block
       ∧ Sparse.wf BlockEntry.unknown s.blocks.table = true)
      ∧ (let s := committing .drainProgram 0 drained
         s.mgmt.mode = .drain ∧ s.queue.entries = [.commit (issuedCommit 0)] ∧ s.port.request = none
           ∧ isLineRecord (commitRecord ⟨1, 1⟩).encode = false)
      ∧ (let s := stuck [.line entry5, .line entry5]
         s.mgmt.mode = .drain ∧ s.drain.phase = .draining ∧ s.drain.releasePending = false ∧ s.array.wp = false
           ∧ s.nextSlot = none ∧ s.opening = false ∧ s.erasedCount = 0 ∧ s.mgmt.fault = none
           ∧ entry5.state = .pending ∧ entry5.syncMark = false)
      ∧ (let s := protect (stuck [.line (issued5 0), .line entry5])
         s.array.wp = true ∧ (s.queue.entries.filter fun q => !q.programming) = .line entry5 :: []) := by decide +kernel

theorem witness_SettingsAppendOutcome :
    (let s := flying (opOf .settings 0 96 48 Settings.default.encode) (doing (.append .xchg Settings.default true) rested)
     s.power = .on ∧ s.mgmt.command = .active (.append .xchg Settings.default true) ∧ s.port.request = none) := by
  decide +kernel

theorem witness_MountAndWipeProgramsPass :
    (opOf .mountHeader 7 0 16 (firstPart kindData 0)).length = 16
      ∧ (opOf .block0Header 0 0 16 (firstPart kindSettings 0)).length = 16
      ∧ (opOf .mountTail 7 4080 16 (tailMarkBytes 7)).length = 16
      ∧ overlay (overlay (firstPart kindData 0) []) [(15, 0x55)] ≠ firstPart kindData 0
      ∧ (jobOf .wipe .firstPart 0).part = .firstPart ∧ (inMode .service rested).mgmt.mode = .service
      ∧ (jobOf .wipe .record 0).owner = .wipe ∧ (jobOf .mount .record 0).owner = .mount ∧ State.reset.mgmt.mode = .mount
      ∧ (doing (.wipe .format false) rested).mgmt.command ≠ .active (.wipe .format true)
      ∧ (doing (.wipe .format true) rested).mgmt.command = .active (.wipe .format true)
      ∧ (∀ j ∈ [virginBlock0, { jobOf .mount .record 1 with block := 0 }, { jobOf .mount .record 2 with block := 0 },
          { jobOf .wipe .firstPart 2 with block := 0 }],
          let o := opOf .block0Record 0 48 48 Settings.default.encode
          let s := erasing j (flying o rested)
          s.array.erase = some j ∧ j.block = 0 ∧ (j.virgin = true ∨ j.attempts ≤ 1 ∨ j.attempts = 2)
            ∧ overlay (overlay o.bytes []) [(0, 0)] ≠ o.bytes)
      ∧ rested.array.op = none ∧ rested.array.erase = none := by decide +kernel

theorem witness_commands_are_taken :
    rested.takes .warm = true ∧ rested.takes .wend = true ∧ rested.takes .wdrp = true ∧ rested.takes .zlck = true
      ∧ rested.takes .xchg = true ∧ rested.takes .poly = true ∧ rested.takes .sync = true ∧ rested.takes .svce = true
      ∧ rested.takes .rsts = true ∧ (inMode .service rested).takes .wipe = true
      ∧ (inMode .service rested).takes .svcx = true ∧ rested.takes .info = true ∧ rested.takes .blkq = true
      ∧ rested.takes .line = true ∧ rested.takes .wsta = true ∧ rested.takes .hcfg = true ∧ rested.takes .taly = true
      ∧ rested.takes .injt = true ∧ rested.takes .fack = true ∧ (∀ w < 4, (rested.window w).state = .idle) := by
  decide +kernel

theorem witness_WendClosesAnOpenGroup :
    (let s := given [1] (windowed .opened none rested)
     s.takes .wend = true ∧ s.windows.windows.length = 4 ∧ s.param 1 1 = 1 ∧ (s.window 1).state = .opened
       ∧ (s.window 1).group = some 1 ∧ s.reg 0 = .free ∧ s.queue.requests = [])
      ∧ (let s : State := { rested with queue := { rested.queue with
           requests := [{ window := 0, group := 1, register := 1, syncMark := false }] } }
         s.queue.requests ≠ [])
      ∧ (given [4] rested).param 1 1 = 4 ∧ ((given [1] rested).window 1).state = .idle
      ∧ ((windowed .armed none rested).window 1).state = .armed
      ∧ (let s : State := { rested with windows := { rested.windows with
           register := List.replicate 15 (.reserved 0 1) ++ [.free] } }
         s.reg 15 = .free ∧ ∀ j < 15, s.reg j ≠ .free)
      ∧ (let s : State := { rested with windows := { rested.windows with register := List.replicate 16 (.reserved 0 1) } }
         ∀ j < 16, s.reg j ≠ .free) ∧ State.reset.activity = none ∧ State.reset.mgmt.mode ≠ .run := by decide +kernel

theorem witness_WdrpDropsTheWindow :
    (let s := given [1] (windowed .opened none rested)
     s.takes .wdrp = true ∧ Sparse.wf TableEntry.clear s.table = true ∧ (s.windows.shadow.map (·.line)).Nodup
       ∧ s.param 1 1 = 1 ∧ (s.window 1).group = some 1 ∧ (s.window 1).state = .opened)
      ∧ (windowed .committing (some 0) rested).pastCommitPoint { window := 1, group := 1 } = false
      ∧ (let e := commitEntryOf { window := 1, group := 1, register := 0, syncMark := false }
         (queued [.commit { e with state := .programming }] (windowed .committing (some 0) rested)).pastCommitPoint
           { window := 1, group := ((windowed .committing (some 0) rested).window 1).group.getD 0 } = true)
      ∧ ((windowed .armed none rested).window 1).state = .armed := by decide +kernel

theorem witness_PolyParameters :
    (let s := given [0, 2, 0xE8, 0x03] rested
     s.param 1 1 = 0 ∧ s.param 2 1 = 2 ∧ s.param 3 2 = 1000)
      ∧ (let s := given [255, 1, 9, 0] rested
         s.param 1 1 = 255 ∧ s.param 3 2 < 10) := by decide +kernel

theorem witness_SyncMarksAndCompletes :
    rested.queue.entries = [] ∧ (queued [.line entry5] rested).queue.entries ≠ [] ∧ rested.degraded = false
      ∧ (doing (.sync false) rested).mgmt.command = .active (.sync false)
      ∧ (∀ q ∈ (queued [.line entry5] rested).queue.entries, q.marked = false) := by decide +kernel

theorem witness_SyncMarksAndCompletes_media :
    (∀ s ∈ [inMode .halted rested, outOfOrigins rested,
        { rested with blocks := { rested.blocks with table := [], nextSeq := 4294967295 } }],
      (queued [.line entry5] s).takes .sync = true
        ∧ (nextOf (exec .sync (queued [.line entry5] s)) s).mgmt.data[0]? = some 6)
      ∧ (∀ s ∈ [outOfOrigins rested,
          { rested with blocks := { rested.blocks with table := [], nextSeq := 4294967295 } }],
        (nextOf (exec .syncCompletion (doing (.sync false) (queued [.line { entry5 with syncMark := true }] s))) s
          ).mgmt.data[0]? = some 6) := by decide +kernel

theorem witness_SvcxAndRstsEnterMount :
    (let s := doing (.rsts true) State.reset
     s.power = .on ∧ s.mgmt.command = .active (.rsts true) ∧ s.mgmt.mode = .mount ∧ s.array.timeouts < 3
       ∧ s.array.op = none ∧ s.eraseBusy = false ∧ s.queue.entries = []) := by decide +kernel

theorem witness_ServiceIsEntered :
    (let s := doing (.svce false) rested
     s.mgmt.mode = .run ∧ s.array.op = none ∧ s.eraseBusy = false ∧ s.queue.requests = []) := by decide +kernel

theorem witness_ServiceIsEntered_discards :
    (let c := QEntry.commit (commitEntryOf { window := 1, group := 1, register := 0, syncMark := false })
     let last : State := { rested with blocks := { rested.blocks with table := [], nextSeq := 4294967295 } }
     ∀ s ∈ [queued [.line { entry5 with syncMark := true }, c] (outOfOrigins rested), queued [c, .line entry5] last],
       s.array.op = none ∧ s.eraseBusy = false ∧ s.windows.windows.length = 4 ∧ s.mgmt.fault = none
         ∧ (let t := nextOf (exec .serviceEntry (doing (.svce false) s)) s
            t.mgmt.mode = .service ∧ t.queue.entries = [] ∧ t.mgmt.further = true ∧ t.eventSet .groupDrop = true))
      ∧ (let s := withVictim (erasing (jobOf .manager .mark 3) (doing (.svce false)
           (rested.setBlock 9 (bareEntry .erasing 3))))
         s.eraseBusy = false ∧ s.array.erase ≠ none ∧ ((nextOf (exec .serviceEntry s) s).block 9).state = .erasing) := by
  decide +kernel

theorem witness_CommitRequestIsAppended :
    (queued (List.replicate 15 (.line entry5)) rested).queue.entries.length < 16 ∧ 1 ≤ rested.erasedCount := by
  decide +kernel

/-- Window 0 ARMED, 1 OPEN with a shadow entry, 2 COMMITTING before its commit point, 3 past it. -/
def manyWindows : State :=
  let s := windowed .opened none (shadows 1 rested)
  { s with
    windows := { s.windows with
      windows := [{ Window.idle with state := .armed, last := 3, repeats := 1 }, s.window 1,
        { Window.idle with state := .committing, first := 20, last := 23, repeats := 1, group := some 2, register := some 2 },
        { Window.idle with state := .committing, first := 30, last := 33, repeats := 1, group := some 3, register := some 3 }],
      shadow := [{ line := 8, window := 1, committed := some ⟨9, 2⟩, committedGroup := none },
        { line := 30, window := 3, committed := none, committedGroup := none }],
      register := (List.replicate 16 RegEntry.free).set 2 (.reserved 2 2) |>.set 3 (.reserved 3 3) },
    table := [(8, { current := some ⟨9, 1⟩, group := some (.openIn 1), checkFailed := true })],
    queue := { s.queue with
      entries := [.commit { commitEntryOf { window := 3, group := 3, register := 3, syncMark := false } with attempts := 1 },
        .line { entry5 with tag := some { window := 1, group := 1 } }, .line entry5],
      requests := [{ window := 2, group := 2, register := 2, syncMark := false }] } }

/-- The windows of `manyWindows` whose groups an abort takes. -/
def gone (w : Nat) : Bool := w == 1 || w == 2

theorem witness_ServiceCommandsBegin :
    manyWindows.takes .svce = true ∧ manyWindows.takes .rsts = true ∧ manyWindows.windows.windows.length = 4
      ∧ Sparse.wf TableEntry.clear manyWindows.table = true ∧ (manyWindows.windows.shadow.map (·.line)).Nodup
      ∧ (∀ w < 4, gone w = (decide (w < 4) && (decide ((manyWindows.window w).state = .opened)
          || decide ((manyWindows.window w).state = .committing)
              && !manyWindows.pastCommitPoint { window := w, group := (manyWindows.window w).group.getD 0 })))
      ∧ (∀ w < 4, gone w = true → (manyWindows.window w).group.isSome = true)
      ∧ (protect (inMode .service rested)).takes .wipe = true := by decide +kernel

theorem witness_VictimHasTheFewestLiveRecords :
    (let s : State := { rested with blocks := { rested.blocks with
       table := [(1, { bareEntry .opened 0 with blockSeq := some 1, nextFree := 3 }), (2, bareEntry .erased 0)],
       reclaimCounter := 62 } }
     s.power = .on ∧ s.reclaimDue = true ∧ s.holdsBack = false ∧ s.blocks.reclaimCounter < 63 ∧ 255 ∈ dataBlocks
       ∧ s.candidate 255 = true)
      ∧ (∀ n ∈ [31, 32],
         let s : State := { rested with blocks := { rested.blocks with
           table := [(1, { bareEntry .opened n with blockSeq := some 1, nextFree := 3 }), (2, bareEntry .erased 0)],
           reclaimCounter := 63 } }
         s.reclaimDue = true ∧ s.holdsBack = false ∧ s.blocks.reclaimCounter = 63 ∧ s.candidate 3 = true
           ∧ (∀ d ∈ dataBlocks, s.candidate d = true → (s.block 3).eraseCount < (s.block d).eraseCount
             ∨ ((s.block 3).eraseCount = (s.block d).eraseCount ∧ 3 ≤ d))
           ∧ ((s.block 3).eraseCount + 32 ≤ (s.block 1).eraseCount ↔ n = 32)
           ∧ (n = 31 → ∀ d ∈ dataBlocks, (s.block d).eraseCount < (s.block 3).eraseCount + 32)) := by decide +kernel

theorem witness_VictimHasTheFewestLiveRecords_candidates :
    (∀ n ∈ [3, 4], ({ rested with blocks := { rested.blocks with
        table := (List.range n).map fun i => (i + 1, bareEntry .erased 0) } } : State).reclaimDue = decide (n < 4))
      ∧ (∀ n ∈ [83, 84], ({ rested with table := (List.range n).map fun i =>
          (i, { current := some ⟨9, i + 1⟩, group := none, checkFailed := false }) } : State).candidate 9
            = decide (n < 84))
      ∧ (∀ n ∈ [84, 85], ({ stored rested with blocks := { rested.blocks with
          table := [(1, { bareEntry .opened 0 with blockSeq := some 1, nextFree := n }), (2, bareEntry .erased 0)] } }
            : State).candidate 9 = decide (n < 85))
      ∧ (rested.setBlock 9 { bareEntry .full 0 with blockSeq := some 2 }).candidate 9 = false
      ∧ ({ rested with flash := flashWrite [] (4096 * 9 + 16) (openingField 1 1 1) } : State).candidate 9 = false := by
  decide +kernel

theorem witness_CompletionFillsDataAndRaisesCmdDone : rested.mgmt.data.length = 64 := by decide

theorem witness_CommandWritesAreCheckedFirst :
    rested.activity = none ∧ Code.takenIn .wipe rested.mgmt.mode = false
      ∧ (doing (.sync false) rested).activity.isSome = true := by decide +kernel

theorem witness_HealthCommandsConfigureTheCounter :
    (let s := given [4, 1, 60] rested
     s.param 1 1 = HealthClass.code .media ∧ s.param 2 1 ≤ 1 ∧ s.param 3 1 = 60)
      ∧ (given [0, 0, 1] rested).param 3 1 = 1 ∧ 60 < (given [0, 0, 61] rested).param 3 1
      ∧ (given [3] rested).param 1 1 = Arm.code .erase ∧ 3 < (given [4] rested).param 1 1
      ∧ State.reset.mgmt.mode = .mount := by decide +kernel

theorem witness_HealthWindowCloses :
    rested.takes .taly = true ∧ rested.health.auto = true
      ∧ ({ rested with health := { rested.health with auto := false } } : State).health.auto = false
      ∧ rested.health.elapsed < 1000000 * rested.health.interval
      ∧ 1000000 * rested.health.interval
          ≤ ({ rested with health := { rested.health with elapsed := 1000000 } } : State).health.elapsed := by decide +kernel

theorem witness_FaultRecordKeepsTheFirst :
    rested.mgmt.fault = none ∧ (rested.reportFault (faultOf .readCheck)).mgmt.fault ≠ none
      ∧ (rested.reportFault (faultOf .readCheck)).takes .fack = true ∧ rested.takes .fack = true := by decide +kernel

/-- The running count stands at `n`. -/
def counted (n : Nat) (s : State) : State := { s with health := { s.health with count := n } }

theorem witness_MediaEventsAreCounted :
    rested.health.cls = .media ∧ (counted 65533 rested).health.count < 65534
      ∧ (counted 65534 rested).health.count = 65534 ∧ (counted 65535 rested).health.count = 65535
      ∧ (rested.health.cls ≠ .suspend ∧ ¬(rested.health.cls = .media ∧ HealthClass.suspend ≠ .suspend)) := by decide

theorem witness_IrqFollowsEventsAndMask :
    (let s : State := { rested with power := .held }
     s.power = .held ∧ goesOn (exec (.resetDeasserted Pins.quiet) s) = true)
      ∧ goesOn (exec (.powerOnReset Pins.quiet .untouched) rested) = true ∧ State.reset.irq = true := by decide +kernel

theorem witness_ItemsAreReadAndWritten :
    rested.mgmt.data.length = 64 ∧ rested.activity = none ∧ (255 : Byte).toNat ≥ 10 := by decide

theorem witness_ItemsAreReadAndWritten_fault :
    (let s := rested.reportFault { faultOf .readCheck with block := some 9, slot := some 84 }
     s.mgmt.mode ≠ .mount ∧ s.mgmt.fault ≠ none
       ∧ readItem s 8 = [9, 12, 0, 0, 0, 0, 0, 9, 84, 0, 0, 0, 0, 0, 0, 0]
       ∧ readTransfer ({ s with mgmt := { s.mgmt with selected := 1 } } : State) 3 = some [1, 0, 0]
       ∧ readItem (inMode .mount s) 8 = List.replicate 16 0) := by decide +kernel

theorem witness_EraseLeadsToErased :
    (let s := withVictim (erasing (jobOf .manager .blankCheck 0) rested)
     s.array.erase = some (jobOf .manager .blankCheck 0) ∧ s.health.arm ≠ .erase
       ∧ isBlank (flashReceived s.flash 9 0 4096 []) = true ∧ s.blocks.victim = some 9
       ∧ overlay (overlay (firstPart kindData 4) []) [] = firstPart kindData 4) := by decide +kernel

theorem witness_EraseLeadsToErased_others :
    (let j := { jobOf .mount .blankCheck 0 with block := 0 }
     let s := erasing j (mounting (Mount.start false) rested)
     s.array.erase = some j ∧ isBlank (flashReceived s.flash 0 0 4096 []) = true
       ∧ (nextOf (exec (.blankCheckEnd []) s) s).array.erase = some { j with part := .firstPart })
      ∧ (let s := erasing (jobOf .mount .header 0) (mounting (Mount.start false) rested)
         ((nextOf (exec (.headerProgramEnd (.ended [] [])) s) s).mount.map fun m => m.results)
           = some [(9, bareEntry .erased 4)])
      ∧ (∀ s ∈ [erasing (jobOf .manager .header 0) rested,
            erasing (jobOf .wipe .header 0) (doing (.wipe (.data 10) false) (inMode .service rested))],
          s.blocks.victim ≠ some 9
            ∧ (nextOf (exec (.headerProgramEnd (.ended [] [])) s) s).block 9 = bareEntry .erased 4) := by
  decide +kernel

theorem witness_FailedEraseAttemptIsCounted :
    (let s := withVictim (erasing (jobOf .manager .blankCheck 2) rested)
     isBlank (flashReceived s.flash 9 0 4096 [(4095, 0)]) = false
       ∧ isBlank (((flashReceived s.flash 9 0 4096 [(4095, 0)]).drop 32).take 8) = true
       ∧ isBlank (((flashReceived s.flash 9 0 4096 [(39, 0)]).drop 32).take 8) = false
       ∧ (jobOf .manager .blankCheck 1).attempts ≤ 1 ∧ (jobOf .manager .blankCheck 2).virgin = false
       ∧ s.blocks.victim = some 9 ∧ s.mgmt.mode ≠ .drain ∧ drained.mgmt.mode = .drain)
      ∧ (∀ o ∈ [EraseOwner.mount, .wipe], ∀ n ∈ [1, 2],
          let j := { jobOf o .blankCheck n with block := 0 }
          let s := erasing j (doing (.wipe .format false) rested)
          s.array.erase = some j ∧ j.owner ≠ .manager ∧ j.block = 0 ∧ j.virgin = false
            ∧ s.mgmt.command = .active (.wipe .format false)
            ∧ isBlank (flashReceived s.flash 0 0 4096 [(0, 0)]) = false) := by decide +kernel

theorem witness_FailedEraseAttemptIsCounted_header :
    overlay (overlay (firstPart kindData 4) []) [(15, 0)] ≠ firstPart kindData 4
      ∧ (∀ n ∈ [1, 2],
        let s := withVictim (erasing (jobOf .manager .header n) rested)
        let t := nextOf (exec (.headerProgramEnd (.ended [] [(15, 0)])) s) s
        s.blocks.releaseTurn = false ∧ t.blocks.releaseTurn = decide (n = 1) ∧ t.health.count = 1
          ∧ (t.array.erase.map fun j => j.part) = some (if n = 1 then .waiting else .mark)) := by decide +kernel

theorem witness_SuspendedEraseLetsTheReadRun :
    (let s := erasing { jobOf .manager .suspending 0 with block := 8 } (asking readOfLine5 (stored rested))
     s.array.op = none ∧ s.array.timeouts < 3 ∧ s.rankOne = some (.readPiece 0, ⟨9, 1⟩)) := by decide +kernel

theorem witness_SuspendedEraseLetsTheReadRun_reads :
    (let j (p : ErasePart) (n : Nat) : EraseJob := { jobOf .manager p 0 with block := 8, suspends := n }
     (∀ n ∈ [7, 8], ∀ wait ∈ [false, true],
       let k := { j .erasing n with statusWait := wait }
       let s := erasing k (asking readOfLine5 (stored rested))
       s.array.op = none ∧ s.array.timeouts < 3 ∧ s.settle.rankOne.isSome = true
         ∧ s.settle.array.erase = some (if n = 7 ∧ wait = false then { k with part := .suspending } else k))
       ∧ (∀ p ∈ [ErasePart.suspended, .finished],
         let t := erasing (j p 1) (asking readOfLine5 (stored rested))
         t.settle.rankOne.isSome = true
           ∧ t.settle.array.erase = some (j (if p = .suspended then .suspended else .blankCheck) 1)
           ∧ (erasing (j p 1) rested).settle.rankOne = none
           ∧ (erasing (j p 1) rested).settle.array.erase
             = some (j (if p = .suspended then .erasing else .blankCheck) 1))
       ∧ (asking writeOfLine5 (stored rested)).rankOne = some (.mergeRead 0, ⟨9, 1⟩)) := by decide +kernel

/-- A read of the last byte of bus line 5 and the first of line 6, both pieces waiting for the flash. -/
def readOfLines5And6 : Request :=
  { write := false, addr := 191, count := 2, limit := 200, elapsed := 0, phase := .reading, retake := false,
    pieces := splitRequest 191 2 [] }

/-- The read of piece 0 of a request in flight, before the blank check of an erase of block 8 that had finished. -/
def servedFirst (p : Purpose) (abandoned : Bool) (r : Request) : State :=
  flying { opOf p 9 48 48 [] with abandoned := abandoned }
    (erasing { jobOf .manager .finished 0 with block := 8 } (asking r { stored rested with
      table := [5, 6].map fun l => (l, { current := some ⟨9, l - 4⟩, group := none, checkFailed := false }) }))

/-- One read is served before the blank check put off, though the second piece of its request waits (R100). -/
theorem witness_SuspendedEraseLetsTheReadRun_blankCheckNext :
    (let s := servedFirst (.readPiece 0) false readOfLines5And6
     let t := nextOf (exec (.readPieceCompletion []) s) s
     s.power = .on ∧ t.rankOne = some (.readPiece 1, ⟨9, 2⟩) ∧ t.array.op = none
       ∧ t.array.erase = some { jobOf .manager .blankCheck 0 with block := 8 })
      ∧ (let s := servedFirst (.mergeRead 0) false writeOfLine5
         let t := nextOf (exec (.mergeReadCompletion []) s) s
         t.rankOne = none ∧ t.array.erase = some { jobOf .manager .blankCheck 0 with block := 8 }) := by decide +kernel

/-- A read that timed out before the blank check put off is granted again while its request stands, and not otherwise. -/
theorem witness_SuspendedEraseLetsTheReadRun_timeout :
    (∀ abandoned ∈ [false, true],
      let s := servedFirst (.readPiece 0) abandoned readOfLines5And6
      let t := nextOf (exec (.operationTimeout .untouched) s) s
      s.array.timeouts ≤ 1 ∧ s.rankOne = some (.readPiece 0, ⟨9, 1⟩) ∧ t.array.timeouts = 1
        ∧ (t.array.op.map fun o => (o.purpose, o.statusWait))
          = (if abandoned then none else some (.readPiece 0, true))
        ∧ (t.array.erase.map fun j => j.part) = some (if abandoned then .blankCheck else .finished))
      ∧ (servedFirst (.readPiece 0) false { readOfLine5 with pieces := [] }).rankOne = none := by decide +kernel

theorem witness_TimeoutsLeadToTheLossOfTheFlash :
    (let s := flying (opOf (.readPiece 0) 9 48 48 []) rested
     s.array.timeouts ≤ 1 ∧ Sparse.wf BlockEntry.unknown s.blocks.table = true
       ∧ ({ s with array := { s.array with timeouts := 2 } } : State).array.timeouts = 2 ∧ s.mgmt.mode = .run
       ∧ (Purpose.readPiece 0).isProgram = false ∧ Purpose.mountRead.isProgram = false ∧ s.array.erase = none
       ∧ ({ opOf (.readPiece 0) 9 48 48 [] with statusWait := true } : Op).statusWait = true)
      ∧ (issued5 0).dropped = false ∧ ({ issued5 0 with dropped := true } : LineEntry).dropped = true
      ∧ (issued5 5).attempts = 5 ∧ (issued5 5).syncMark = false ∧ (rested.block 1).failures ≤ 1
      ∧ drained.mgmt.mode = .drain ∧ (lineProgram (.copyProgram .retirement) 83).offset / 48 < 84
      ∧ (doing (.append .zlck Settings.default true) rested).port.request = none
      ∧ (mounting (Mount.start false) rested).mount = some (Mount.start false)
      ∧ (∀ p ∈ [ErasePart.erasing, .suspending, .blankCheck, .header],
          (erasing (jobOf .manager p 1) rested).array.op = none ∧ (jobOf .manager p 1).attempts ≤ 1
            ∧ (jobOf .wipe p 2).attempts = 2 ∧ (jobOf .wipe p 2).virgin = false ∧ (jobOf .wipe p 2).block ≠ 0
            ∧ (jobOf .manager p 1).statusWait = false)
      ∧ (let s := committing .queueProgram 5 rested
         s.queue.entries = .commit (issuedCommit 5) :: [] ∧ (s.block 1).failures ≤ 1 ∧ (issuedCommit 4).attempts ≤ 4
           ∧ (issuedCommit 5).syncMark = false ∧ s.port.request = none ∧ (issuedCommit 5).lastBlock ≠ some 1)
      ∧ ((failing 2 rested).block 1).failures = 2 ∧ ((failing 2 rested).block 1).state = .opened
      ∧ ({ issued5 4 with lastBlock := some 1, blockAttempts := 2 } : LineEntry).lastBlock = some 1
      ∧ virginBlock0.virgin = true ∧ virginBlock0.block = 0 ∧ virginBlock0.owner ≠ .manager
      ∧ { jobOf .wipe .record 2 with block := 0 }.owner = .wipe
      ∧ (doing (.wipe .format false) (inMode .service rested)).mgmt.command = .active (.wipe .format false)
      ∧ (withVictim (erasing (jobOf .manager .mark 3) rested)).blocks.victim = some 9
      ∧ (let s := flying (lineProgram .queueProgram 84) (queued [.line (issued5 4)] rested)
         s.array.erase = none ∧ (s.block 1).failures ≤ 1 ∧ (lineProgram .queueProgram 84).offset < 4080
           ∧ 4080 ≤ (opOf .tailMark 1 4080 16 []).offset)
      ∧ (∀ m ∈ [Mode.readonly, .drain, .service, .mount], (inMode m rested).mgmt.mode = m) := by decide +kernel

theorem witness_TimeoutsLeadToTheLossOfTheFlash_erases :
    (let lost (p : ErasePart) : State :=
       let s := erasing (jobOf .manager p 1) rested
       { s with array := { s.array with timeouts := 2 } }
     ∀ p ∈ [ErasePart.erasing, .suspending, .blankCheck, .header],
       let t := nextOf (exec (.operationTimeout .untouched) (lost p)) (lost p)
       t.mgmt.mode = .halted ∧ t.array.erase = none
         ∧ t.mgmt.fault = some { faultOf .flashLost with block := some 9 })
      ∧ (let j := { jobOf .manager .erasing 1 with statusWait := true }
         let s := erasing j { rested with array := { rested.array with uncertain := true } }
         s.array.op = none
           ∧ (nextOf (exec .flashReportsReady s) s).array
             = { rested.array with erase := some (jobOf .manager .erasing 1) }) := by decide +kernel

theorem witness_TimeoutsLeadToTheLossOfTheFlash_read :
    (let lost := { flying (opOf (.readPiece 0) 9 48 48 []) (asking readOfLine5 (stored rested)) with
                   array := { (flying (opOf (.readPiece 0) 9 48 48 []) rested).array with timeouts := 2 } }
     lost.power = .on ∧ lost.mgmt.mode = .run ∧ lost.array.op = some (opOf (.readPiece 0) 9 48 48 [])
       ∧ lost.port.request = some readOfLine5 ∧ readOfLine5.pieces.length = 1
       ∧ (nextOf (exec (.operationTimeout .untouched) lost) lost).port.response
         = some { cause := some .flashLost, data := [0xFF] }) := by decide +kernel

theorem witness_WriteProtectIsTaken :
    rested.array.wp = (!true) ∧ (protect rested).array.wp = (!false) ∧ rested.mgmt.command = .zero
      ∧ rested.port.request = none
      ∧ (doing (.append .poly Settings.default false) rested).mgmt.command
          = .active (.append .poly Settings.default false)
      ∧ (doing (.wipe .read0 false) (inMode .service rested)).mgmt.command = .active (.wipe .read0 false)
      ∧ (asking writeOfLine5 rested).mgmt.mode = .run ∧ (asking writeOfLine5 rested).degraded = false
      ∧ (asking writeOfLine5 rested).commandHold = false ∧ writeOfLine5.write = true ∧ writeOfLine5.phase = .handOver
      ∧ rested.mgmt.fault = none := by decide +kernel

theorem witness_WriteProtectKeepsTheDrainOpening :
    (let b : BlockManager := { rested.blocks with table := [(2, bareEntry .erased 0)] }
     let s := queued [.line entry5] { draining false rested with blocks := b }
     s.drainOpeningAsked = true ∧ s.array.wp = false
       ∧ (let t := nextOf (exec (.wpInputChange true) s) s
          t.blocks.drainOpening = true ∧ t.queue.entries = [] ∧ t.drain.phase = .drained
            ∧ (let u := nextOf (exec (.wpInputChange false) t) t
               ((nextOf (exec .arbiterGrant u) u).array.op.map fun o => (o.purpose, o.block))
                 = some (.opening .drain, 2)))
       ∧ ({ s with blocks := { b with table := [] } } : State).drainOpeningAsked = false
       ∧ ({ s with blocks := { b with nextSeq := 4294967295 } } : State).drainOpeningAsked = false
       ∧ (outOfOrigins s).drainOpeningAsked = false
       ∧ ({ s with blocks := rested.blocks } : State).drainOpeningAsked = false
       ∧ (flying (opOf (.opening .drain) 2 16 16 []) s).drainOpeningAsked = false
       ∧ (inMode .run s).drainOpeningAsked = false) := by decide +kernel

theorem witness_PowerFailWarningBeginsAndEndsTheDrain :
    rested.drain.pfw = false ∧ rested.mgmt.mode = .run ∧ rested.port.request = none
      ∧ (∀ w < 4, (rested.window w).state = .idle)
      ∧ (doing (.svce false) rested).mgmt.command = .active (.svce false)
      ∧ (doing (.append .zlck Settings.default false) rested).mgmt.command
          = .active (.append .zlck Settings.default false)
      ∧ manyWindows.mgmt.mode = .run ∧ (manyWindows.window 0).state = .armed ∧ (manyWindows.window 1).state = .opened
      ∧ manyWindows.windows.windows.length = 4 ∧ (manyWindows.window 3).state = .committing
      ∧ manyWindows.pastCommitPoint { window := 3, group := (manyWindows.window 3).group.getD 0 } = true
      ∧ writeOfLine5.write = true ∧ writeOfLine5.phase = .handOver ∧ rested.queue.entries = []
      ∧ (∀ w < 4, (rested.window w).awaiting = false)
      ∧ ({ drained with drain := { drained.drain with pfw := false } } : State).mgmt.mode = .drain
      ∧ (doing (.wipe .read0 false) (inMode .service rested)).mgmt.command = .active (.wipe .read0 false)
      ∧ (inMode .service rested).activity = none ∧ State.reset.mgmt.mode = .mount ∧ State.reset.drain.pfw = false
      ∧ drained.drain.pfw = true ∧ drained.drain.phase = .drained ∧ drained.drain.returnMode = some .run
      ∧ ({ drained with drain := { drained.drain with phase := .draining } } : State).drain.phase = .draining := by
  decide +kernel

theorem witness_ResetsKeepOnlyTheFlash :
    ({ rested with power := .held } : State).power = .held ∧ rested.array.op = none ∧ rested.array.erase = none
      ∧ ({ rested with power := .off } : State).power ≠ .on := by decide +kernel

theorem witness_ResetsKeepOnlyTheFlash_irq :
    State.reset.irq = true ∧ (nextOf (exec (.resetAsserted .untouched) State.reset) rested).irq = false
      ∧ (nextOf (exec (.powerLoss .untouched) State.reset) rested).irq = false := by decide +kernel

theorem witness_MountCompletionChoosesTheMode :
    (let m := { Mount.start true with step := .repairs }
     let s := mounting m rested
     s.power = .on ∧ s.mgmt.mode = .mount ∧ s.mount = some m ∧ m.repairs = [] ∧ s.commandHold = false
       ∧ m.flashLost = false ∧ m.block0Unusable = false ∧ atLast m.nextOrigin = false)
      ∧ (∀ m ∈ [{ Mount.start true with step := .ended, flashLost := true },
          { Mount.start false with step := .ended, block0Unusable := true }],
          let s := mounting m { rested with table := [], blocks := .reset }
          s.mount = some m ∧ s.array.erase = none ∧ s.commandHold = false ∧ (∀ w < 4, (s.window w).state = .idle)
            ∧ (m.flashLost = true ∨ m.flashLost = false ∧ m.block0Unusable = true))
      ∧ (doing (.rsts false) (mounting { Mount.start true with flashLost := true } rested)).activity.isSome = true
      ∧ (([scanned 9 .full 0, scanned 11 .virgin 0]).map (·.block)).Nodup
      ∧ (∀ x ∈ [scanned 9 .full 0, scanned 11 .virgin 0], x.block ≠ 10) := by decide +kernel

end Sys2Proof.Tests
end

section
/-! The health counter by command and by its report timer (R166 to R169): HCFG, INJT, TALY, HEALTH_TIMER_EXPIRY. -/

namespace Sys2Proof.Machine

/-! ### A code written to COMMAND (R176, R177) -/

/-- Every row of Table 11-1 is the one shared command with that code's body. -/
theorem exec_instr (c : Code) (s : State) : exec c.instr s = s.taken fun t => t.command c c.run := by
  cases c <;> rfl

/-- A code that is taken answers what its body makes of the state with COMMAND selected, with what follows at once. -/
theorem exec_instr_of_takes {c : Code} {s t : State} (h : s.takes c = true) (hrun : c.run (s.select 2) = t) :
    exec c.instr s = .next t.settle := by
  rw [exec_instr, taken_command s c c.run h, hrun]

theorem command_of_not_takenIn {s : State} {c : Code} (body : State → State) (hidle : s.activity = none)
    (hmode : c.takenIn s.mgmt.mode = false) : s.command c body = (s.select 2).complete .mode [] := by
  have hidle' : (s.select 2).activity = none := hidle
  simp [State.command, hidle', hmode]

theorem exec_instr_of_not_takenIn {c : Code} {s : State} (hon : s.power = .on) (hidle : s.activity = none)
    (hmode : c.takenIn s.mgmt.mode = false) : exec c.instr s = .next ((s.select 2).complete .mode []).settle := by
  rw [exec_instr, taken_on s _ hon, command_of_not_takenIn c.run hidle hmode]

/-! ### The codes of classes and arms (R168, R169) -/

@[simp] theorem HealthClass.ofCode_code (c : HealthClass) : HealthClass.ofCode c.code = some c := by
  cases c <;> rfl

theorem HealthClass.ofCode_of_lt : {n : Nat} → 4 < n → HealthClass.ofCode n = none
  | 0, h | 1, h | 2, h | 3, h | 4, h => absurd h (by decide)
  | _ + 5, _ => rfl

@[simp] theorem Arm.ofCode_code (a : Arm) : Arm.ofCode a.code = some a := by
  cases a <;> rfl

theorem Arm.ofCode_of_lt : {n : Nat} → 3 < n → Arm.ofCode n = Option.none
  | 0, h | 1, h | 2, h | 3, h => absurd h (by decide)
  | _ + 4, _ => rfl

/-! ### HCFG (R168) -/

theorem healthConfig_of_inRange (c : HealthClass) {mode interval : Nat} (hmode : mode ≤ 1) (hlow : 1 ≤ interval)
    (hhigh : interval ≤ 60) : healthConfig c.code mode interval = some (c, decide (mode = 0), interval) := by
  simp [healthConfig, hmode, hlow, hhigh]

theorem healthConfig_of_outOfRange {cls mode interval : Nat}
    (h : 4 < cls ∨ 1 < mode ∨ interval < 1 ∨ 60 < interval) :
    healthConfig cls mode interval = none := by
  rcases h with hcls | hvalues
  · simp [healthConfig, HealthClass.ofCode_of_lt hcls]
  · have hout : ¬(mode ≤ 1 ∧ 1 ≤ interval ∧ interval ≤ 60) := by omega
    unfold healthConfig
    split
    · rfl
    · exact if_neg hout

theorem runHcfg_of_config {s : State} {c : HealthClass} {auto : Bool} {interval : Nat}
    (h : healthConfig (s.param 1 1) (s.param 2 1) (s.param 3 1) = some (c, auto, interval)) :
    s.runHcfg =
      if s.health.cls = c ∧ s.health.auto = auto ∧ s.health.interval = interval then s.complete .done []
      else
        { s with health :=
          { s.health with cls := c, auto := auto, interval := interval }.restart }.complete .done [] := by
  simp only [State.runHcfg, h]

theorem runHcfg_of_outOfRange {s : State}
    (h : 4 < s.param 1 1 ∨ 1 < s.param 2 1 ∨ s.param 3 1 < 1 ∨ 60 < s.param 3 1) :
    s.runHcfg = s.complete .param [] := by
  simp only [State.runHcfg, healthConfig_of_outOfRange h]

/-! ### INJT (R169) -/

theorem runInjt_of_code {s : State} {a : Arm} (h : s.param 1 1 = a.code) :
    s.runInjt = { s with health := { s.health with arm := a } }.complete .done (byte1 s.health.arm.code) := by
  simp only [State.runInjt, h, Arm.ofCode_code]

theorem runInjt_of_outOfRange {s : State} (h : 3 < s.param 1 1) : s.runInjt = s.complete .param [] := by
  simp only [State.runInjt, Arm.ofCode_of_lt h]

/-- Settles O46: each clause is the shared command at HCFG or INJT, then the code's body on its parameters. -/
theorem healthCommandsConfigureTheCounter : Obligations.HealthCommandsConfigureTheCounter := by
  refine ⟨?hcfgInRange, ?hcfgOutOfRange, ?hcfgInMount, ?injtInRange, ?injtOutOfRange⟩
  case hcfgInRange =>
    intro s c htakes hcls hmode hlow hhigh
    have hconfig : healthConfig (s.param 1 1) (s.param 2 1) (s.param 3 1)
        = some (c, decide (s.param 2 1 = 0), s.param 3 1) := by
      rw [hcls, healthConfig_of_inRange c hmode hlow hhigh]
    exact exec_instr_of_takes (c := .hcfg) htakes (runHcfg_of_config hconfig)
  case hcfgOutOfRange =>
    intro s htakes hout
    exact exec_instr_of_takes (c := .hcfg) htakes (runHcfg_of_outOfRange hout)
  case hcfgInMount =>
    intro s hon hidle hmount
    exact exec_instr_of_not_takenIn (c := .hcfg) hon hidle (by rw [hmount]; rfl)
  case injtInRange =>
    intro s a htakes hcode
    exact exec_instr_of_takes (c := .injt) htakes (runInjt_of_code hcode)
  case injtOutOfRange =>
    intro s htakes hout
    exact exec_instr_of_takes (c := .injt) htakes (runInjt_of_outOfRange hout)

/-! ### The close of a window (R166, R167) -/

theorem closeHealthWindow_eq (s : State) :
    s.closeHealthWindow = State.raise { s with health := { s.health with
      snapCount := s.health.count, snapSaturated := decide (s.health.count = 65535), snapClass := s.health.cls,
      count := 0, saturated := false, elapsed := 0 } } .healthReport := rfl

theorem runTaly_of_auto {s : State} (h : s.health.auto = true) : s.runTaly = s.complete .state [] := by
  simp [State.runTaly, h]

theorem runTaly_of_manual {s : State} (h : s.health.auto = false) :
    s.runTaly = s.closeHealthWindow.complete .done [] := by
  simp [State.runTaly, h]

theorem healthExpiry_of_expired {s : State} (hauto : s.health.auto = true)
    (hexpired : 1000000 * s.health.interval ≤ s.health.elapsed) : s.healthExpiry = s.closeHealthWindow :=
  if_pos ⟨hauto, hexpired⟩

theorem healthExpiry_of_overtaken {s : State}
    (h : s.health.auto = false ∨ s.health.elapsed < 1000000 * s.health.interval) : s.healthExpiry = s := by
  refine if_neg ?_
  rintro ⟨hauto, hexpired⟩
  rcases h with hmanual | hearly
  · simp [hmanual] at hauto
  · exact absurd hexpired (Nat.not_le.mpr hearly)

theorem exec_healthTimerExpiry_on {s : State} (hon : s.power = .on) :
    exec .healthTimerExpiry s = .next s.healthExpiry.settle :=
  taken_on s State.healthExpiry hon

/-- Settles O47: TALY in MANUAL and an expiry in AUTO both end in `State.closeHealthWindow`; the other clauses do not
reach it. -/
theorem healthWindowCloses : Obligations.HealthWindowCloses := by
  refine ⟨?talyInMount, ?talyInAuto, ?talyInManual, ?noExpiry, ?expiry⟩
  case talyInMount =>
    intro s hon hidle hmount
    exact exec_instr_of_not_takenIn (c := .taly) hon hidle (by rw [hmount]; rfl)
  case talyInAuto =>
    intro s htakes hauto
    exact exec_instr_of_takes (c := .taly) htakes (runTaly_of_auto hauto)
  case talyInManual =>
    intro s htakes hmanual
    exact exec_instr_of_takes (c := .taly) htakes (runTaly_of_manual hmanual)
  case noExpiry =>
    intro s hon hnone
    rw [exec_healthTimerExpiry_on hon, healthExpiry_of_overtaken hnone]
  case expiry =>
    intro s hon hauto hexpired
    rw [exec_healthTimerExpiry_on hon, healthExpiry_of_expired hauto hexpired, closeHealthWindow_eq]

end Sys2Proof.Machine
end

section
/-! The fault record with FACK, which frees it (R188, R189), and IRQ# with MASK (R193). -/

namespace Sys2Proof.Machine

/-! ### The fault record (R188) -/

theorem reportFault_of_free {s : State} (f : FaultReport) (hfree : s.mgmt.fault = none) :
    s.reportFault f = { s with mgmt := { s.mgmt with
      fault := some f, further := false, events := setEvent s.mgmt.events .fault } } := by
  simp only [State.reportFault, hfree]

theorem reportFault_of_held {s : State} (f : FaultReport) (hheld : s.mgmt.fault ≠ none) :
    s.reportFault f = { s with mgmt := { s.mgmt with further := true } } := by
  obtain ⟨first, hfirst⟩ := Option.ne_none_iff_exists'.mp hheld
  simp only [State.reportFault, hfirst]

/-! ### FACK (R189) -/

theorem runFack_eq (s : State) :
    s.runFack = s.freeFault.complete .done (byte1 (if s.mgmt.further then 1 else 0)) := by
  unfold State.runFack
  cases s.mgmt.further <;> rfl

theorem exec_fack_of_takes {s : State} (htakes : s.takes .fack = true) :
    exec .fack s
      = .next ((s.select 2).freeFault.complete .done (byte1 (if s.mgmt.further then 1 else 0))).settle :=
  exec_instr_of_takes (c := .fack) htakes (runFack_eq (s.select 2))

theorem freeFault_of_free {s : State} (hfree : s.mgmt.fault = none) (hfurther : s.mgmt.further = false) :
    s.freeFault = s := by
  have hmgmt : { s.mgmt with fault := none, further := false } = s.mgmt := by rw [← hfree, ← hfurther]
  simp only [State.freeFault, hmgmt]

/-- Settles O48: a report goes by whether the record is free, FACK by the flag that stands; a free record has none, so
FACK leaves it as it is. -/
theorem faultRecordKeepsTheFirst : Obligations.FaultRecordKeepsTheFirst := by
  refine ⟨?freeRecord, ?heldRecord, ?fack, ?fackOfFreeRecord⟩
  case freeRecord => exact fun s f hfree => reportFault_of_free f hfree
  case heldRecord => exact fun s f hheld => reportFault_of_held f hheld
  case fack => exact fun s htakes => exec_fack_of_takes htakes
  case fackOfFreeRecord =>
    intro s htakes hsizes hfree
    have hfurther : s.mgmt.further = false := hsizes.further hfree
    have hfreed : (s.select 2).freeFault = s.select 2 := freeFault_of_free hfree hfurther
    rw [exec_fack_of_takes htakes, hfreed, hfurther]
    rfl

/-! ### The events are the bits of EVENTS (R192) -/

theorem Event.exists_bit_eq {i : Nat} (h : i < 16) : ∃ e : Event, e.bit = i := by
  interval_cases i
  exacts [⟨.mounted, rfl⟩, ⟨.repaired, rfl⟩, ⟨.cmdDone, rfl⟩, ⟨.cmdReject, rfl⟩, ⟨.groupCommit, rfl⟩,
    ⟨.groupDrop, rfl⟩, ⟨.windowEnd, rfl⟩, ⟨.fault, rfl⟩, ⟨.readCheck, rfl⟩, ⟨.blockRetired, rfl⟩,
    ⟨.healthReport, rfl⟩, ⟨.healthSaturated, rfl⟩, ⟨.drainDone, rfl⟩, ⟨.modeChange, rfl⟩, ⟨.spaceLow, rfl⟩,
    ⟨.wpChange, rfl⟩]

/-- A word of event bits is nonzero exactly when it holds some event. -/
theorem ne_zero_iff_exists_event (v : BitVec 16) : v ≠ 0 ↔ ∃ e : Event, v.getLsbD e.bit = true := by
  constructor
  · intro hne
    by_contra hnone
    refine hne (BitVec.eq_of_getLsbD_eq fun i hi => ?_)
    obtain ⟨e, rfl⟩ := Event.exists_bit_eq hi
    simpa using not_exists.mp hnone e
  · rintro ⟨e, he⟩ rfl
    simp at he

/-! ### IRQ# and MASK (R193) -/

theorem irq_iff (s : State) :
    s.irq = true ↔ ∃ e : Event, s.eventSet e = true ∧ s.mgmt.mask.getLsbD e.bit = true :=
  calc s.irq = true
    _ ↔ s.mgmt.events &&& s.mgmt.mask ≠ 0 := decide_eq_true_iff
    _ ↔ ∃ e : Event, (s.mgmt.events &&& s.mgmt.mask).getLsbD e.bit = true := ne_zero_iff_exists_event _
    _ ↔ ∃ e : Event, s.eventSet e = true ∧ s.mgmt.mask.getLsbD e.bit = true := by
      simp only [BitVec.getLsbD_and, Bool.and_eq_true, State.eventSet]

theorem exec_maskWrite_on {s : State} (v : BitVec 16) (hon : s.power = .on) :
    exec (.maskWrite v) s = .next (s.writeMask v).settle :=
  taken_on s (State.writeMask v) hon

theorem exec_powerOnReset (s : State) (pins : Pins) (cut : Remnant) :
    exec (.powerOnReset pins cut) s = .next (State.poweredUp (s.cutFlash cut) pins s.pending) := rfl

theorem exec_resetDeasserted_held {s : State} (pins : Pins) (hheld : s.power = .held) :
    exec (.resetDeasserted pins) s = .next (State.poweredUp s.flash pins s.pending) := by
  show execResetDeasserted pins s = _
  simp only [execResetDeasserted, hheld]

/-- Both resets lead to the powered-up state (R195). -/
theorem poweredUp_of_reset {s t : State} {pins : Pins} {cut : Remnant}
    (h : exec (.powerOnReset pins cut) s = .next t ∨ (s.power = .held ∧ exec (.resetDeasserted pins) s = .next t)) :
    ∃ flash, t = State.poweredUp flash pins s.pending := by
  rcases h with hpower | ⟨hheld, hreset⟩
  · rw [exec_powerOnReset] at hpower
    cases hpower
    exact ⟨_, rfl⟩
  · rw [exec_resetDeasserted_held pins hheld] at hreset
    cases hreset
    exact ⟨_, rfl⟩

@[simp] theorem poweredUp_mask (flash : List Host.Cell) (pins : Pins) (pending : List Instr) :
    (State.poweredUp flash pins pending).mgmt.mask = maskReset := rfl

theorem maskReset_getLsbD_bit (e : Event) : maskReset.getLsbD e.bit
    = decide (e = .mounted ∨ e = .fault ∨ e = .blockRetired ∨ e = .modeChange ∨ e = .drainDone) := by
  cases e <;> rfl

/-- Settles O51: every bit of EVENTS is an event, so IRQ# sees each one, and both resets load `maskReset`. -/
theorem irqFollowsEventsAndMask : Obligations.IrqFollowsEventsAndMask := by
  refine ⟨irq_iff, ?maskWrite, ?reset⟩
  case maskWrite => exact fun s v hon => exec_maskWrite_on v hon
  case reset =>
    intro s t pins cut hreset e
    obtain ⟨flash, rfl⟩ := poweredUp_of_reset hreset
    rw [poweredUp_mask, maskReset_getLsbD_bit]

end Sys2Proof.Machine
end

section
/-! What an operation may do to a state, said once for the invariants of every step (R19 to R21, R35, R74, R109, R134, R148,
R153, R186): the relations, and the change of one part of the state. -/

namespace Sys2Proof.Machine

/-- A window that is OPEN or COMMITTING has a group (R109). -/
def Window.Fits (x : Window) : Prop := x.state = .opened ∨ x.state = .committing → x.group.isSome = true

/-- The window unit's share of `State.SizesHold`. -/
structure WindowUnit.Fits (u : WindowUnit) : Prop where
  windows : u.windows.length = 4
  register : u.register.length = 16
  shadow : u.shadow.length ≤ 64
  lines : (u.shadow.map (·.line)).Nodup
  groups : ∀ x ∈ u.windows, x.Fits

/-- The health counter's share of `State.SizesHold` (R165). -/
def Health.Fits (h : Health) : Prop := h.count ≤ 65535 ∧ h.snapCount ≤ 65535

/-- The management unit's share of `State.SizesHold` (R175, R188). -/
def Mgmt.Fits (m : Mgmt) : Prop := m.data.length = 64 ∧ (m.fault = none → m.further = false)

/-- The erase in hand of a state works for the owner and on the block of `j`. -/
def State.Erases (s : State) (j : EraseJob) : Prop :=
  ∃ k, s.array.erase = some k ∧ j.owner = k.owner ∧ j.block = k.block

/-- WIPE is in progress (R186). -/
def State.Wiping (s : State) : Prop := ∃ step cut, s.mgmt.command = .active (.wipe step cut)

/-- From `s` to `t` the flash is left alone, and sizes and canonical forms are kept. -/
structure Tidy (s t : State) : Prop where
  flash : t.flash = s.flash
  table : Sparse.wf TableEntry.clear s.table = true → Sparse.wf TableEntry.clear t.table = true
  blockTable : Sparse.wf BlockEntry.unknown s.blocks.table = true → Sparse.wf BlockEntry.unknown t.blocks.table = true
  reclaim : s.blocks.reclaimCounter ≤ 63 → t.blocks.reclaimCounter ≤ 63
  timeouts : s.array.timeouts ≤ 3 → t.array.timeouts ≤ 3
  windows : s.windows.Fits → t.windows.Fits
  queue : s.queue.entries.length ≤ 16 → t.queue.entries.length ≤ 16
  health : s.health.Fits → t.health.Fits
  mgmt : s.mgmt.Fits → t.mgmt.Fits

/-- Tidy, and drain, mount engine, WIPE and the erase in hand stand where they stood; the mode may differ. -/
structure Still (s t : State) : Prop extends Tidy s t where
  phase : t.drain.phase = s.drain.phase
  returnMode : t.drain.returnMode = s.drain.returnMode
  mount : t.mount.isSome = s.mount.isSome
  wipe : t.Wiping → s.Wiping
  erase : ∀ j, t.array.erase = some j → s.Erases j

/-- Still, in the same mode. -/
structure Quiet (s t : State) : Prop extends Still s t where
  mode : t.mgmt.mode = s.mgmt.mode

/-- Tidy, and modes that agree go on agreeing. -/
structure Good (s t : State) : Prop extends Tidy s t where
  agree : s.ModesAgree → t.ModesAgree

theorem sizesHold_iff (s : State) : s.SizesHold ↔ s.windows.Fits ∧ s.mgmt.Fits ∧ s.health.Fits ∧ s.array.timeouts ≤ 3
    ∧ s.blocks.reclaimCounter ≤ 63 ∧ s.queue.entries.length ≤ 16 := by
  constructor
  · intro h
    exact ⟨⟨h.windows, h.register, h.shadow, h.shadowLines, h.groups⟩, ⟨h.data, h.further⟩, ⟨h.count, h.snapshot⟩,
      h.timeouts, h.reclaim, h.queue⟩
  · rintro ⟨hw, hm, hh, ht, hr, hq⟩
    exact ⟨hw.windows, hw.register, hm.1, hh.1, hh.2, ht, hr, hm.2, hw.shadow, hw.lines, hw.groups, hq⟩

theorem Tidy.sizesHold {s t : State} (h : Tidy s t) (hs : s.SizesHold) : t.SizesHold := by
  rw [sizesHold_iff] at hs ⊢
  obtain ⟨hw, hm, hh, ht, hr, hq⟩ := hs
  exact ⟨h.windows hw, h.mgmt hm, h.health hh, h.timeouts ht, h.reclaim hr, h.queue hq⟩

theorem Tidy.mapsCanonical {s t : State} (h : Tidy s t) (hs : s.MapsCanonical) : t.MapsCanonical :=
  ⟨h.table hs.1, h.blockTable hs.2⟩

theorem Tidy.refl (s : State) : Tidy s s := ⟨rfl, id, id, id, id, id, id, id, id⟩

theorem Tidy.trans {s t u : State} (h : Tidy s t) (k : Tidy t u) : Tidy s u :=
  ⟨k.flash.trans h.flash, k.table ∘ h.table, k.blockTable ∘ h.blockTable, k.reclaim ∘ h.reclaim, k.timeouts ∘ h.timeouts,
    k.windows ∘ h.windows, k.queue ∘ h.queue, k.health ∘ h.health, k.mgmt ∘ h.mgmt⟩

theorem State.erases_of_eq {s : State} {j : EraseJob} (h : s.array.erase = some j) : s.Erases j := ⟨j, h, rfl, rfl⟩

theorem Still.erases {s t : State} (h : Still s t) {j : EraseJob} (hj : t.Erases j) : s.Erases j := by
  obtain ⟨k, hk, ho, hb⟩ := hj
  obtain ⟨l, hl, ho', hb'⟩ := h.erase k hk
  exact ⟨l, hl, ho.trans ho', hb.trans hb'⟩

theorem Still.trans {s t u : State} (h : Still s t) (k : Still t u) : Still s u :=
  ⟨h.toTidy.trans k.toTidy, k.phase.trans h.phase, k.returnMode.trans h.returnMode, k.mount.trans h.mount, h.wipe ∘ k.wipe,
    fun j hj => h.erases (k.erase j hj)⟩

@[simp] theorem Quiet.refl (s : State) : Quiet s s :=
  ⟨⟨Tidy.refl s, rfl, rfl, rfl, id, fun _ hj => State.erases_of_eq hj⟩, rfl⟩

theorem Quiet.trans {s t u : State} (h : Quiet s t) (k : Quiet t u) : Quiet s u :=
  ⟨h.toStill.trans k.toStill, k.mode.trans h.mode⟩

/-- The modes of a state agree when mode `m` is entered in a state that is ready for it. -/
theorem Still.modesAgree {s t : State} (h : Still s t) {m : Mode} (hm : t.mgmt.mode = m)
    (phase : s.drain.phase = .inactive ↔ m ≠ .drain) (returns : s.drain.returnMode.isSome ↔ m = .drain)
    (returnMode : ∀ r, s.drain.returnMode = some r → r = .run ∨ r = .readonly)
    (mount : s.mount.isSome ↔ m = .mount) (wipe : t.Wiping → m = .service)
    (erase : ∀ j, s.array.erase = some j → (j.owner = .wipe → m = .service) ∧ (j.owner = .mount → m = .mount)) :
    t.ModesAgree := by
  subst hm
  refine ⟨h.phase ▸ phase, h.returnMode ▸ returns, h.returnMode ▸ returnMode, h.mount ▸ mount, ?_, ?_, ?_⟩
  · exact fun step cut hc => wipe ⟨step, cut, hc⟩
  · intro j hj ho
    obtain ⟨k, hk, hko, _⟩ := h.erase j hj
    exact (erase k hk).1 (hko ▸ ho)
  · intro j hj ho
    obtain ⟨k, hk, hko, _⟩ := h.erase j hj
    exact (erase k hk).2 (hko ▸ ho)

theorem State.ModesAgree.service_of_wiping {s : State} (a : s.ModesAgree) (h : s.Wiping) : s.mgmt.mode = .service := by
  obtain ⟨step, cut, hc⟩ := h
  exact a.wipe step cut hc

theorem Quiet.good {s t : State} (h : Quiet s t) : Good s t :=
  ⟨h.toTidy, fun a => h.toStill.modesAgree h.mode a.phase a.returns a.returnMode a.mount
    (a.service_of_wiping ∘ h.wipe) fun j hj => ⟨a.wipeErase j hj, a.mountErase j hj⟩⟩

theorem Good.refl (s : State) : Good s s := (Quiet.refl s).good

theorem Good.trans {s t u : State} (h : Good s t) (k : Good t u) : Good s u :=
  ⟨h.toTidy.trans k.toTidy, k.agree ∘ h.agree⟩

/-! ### One part of the state changed -/

section
variable {s t : State}

@[simp] theorem quiet_power (h : Quiet s t) (p : Power) : Quiet s { t with power := p } := { h with flash := h.flash }
@[simp] theorem quiet_pending (h : Quiet s t) (q : List Instr) : Quiet s { t with pending := q } := { h with flash := h.flash }
@[simp] theorem quiet_port (h : Quiet s t) (p : Port) : Quiet s { t with port := p } := { h with flash := h.flash }

theorem quiet_table (h : Quiet s t) {m : Sparse TableEntry}
    (hm : Sparse.wf TableEntry.clear t.table = true → Sparse.wf TableEntry.clear m = true) :
    Quiet s { t with table := m } := { h with table := hm ∘ h.table }

theorem quiet_queue (h : Quiet s t) {q : WriteQueue} (hq : t.queue.entries.length ≤ 16 → q.entries.length ≤ 16) :
    Quiet s { t with queue := q } := { h with queue := hq ∘ h.queue }

theorem quiet_blocks (h : Quiet s t) {b : BlockManager}
    (ht : Sparse.wf BlockEntry.unknown t.blocks.table = true → Sparse.wf BlockEntry.unknown b.table = true)
    (hr : t.blocks.reclaimCounter ≤ 63 → b.reclaimCounter ≤ 63) : Quiet s { t with blocks := b } :=
  { h with blockTable := ht ∘ h.blockTable, reclaim := hr ∘ h.reclaim }

theorem quiet_array (h : Quiet s t) {a : ArrayPort} (ht : t.array.timeouts ≤ 3 → a.timeouts ≤ 3)
    (he : ∀ j, a.erase = some j → t.Erases j) : Quiet s { t with array := a } :=
  { h with timeouts := ht ∘ h.timeouts, erase := fun j hj => h.erases (he j hj) }

theorem quiet_windows (h : Quiet s t) {u : WindowUnit} (hu : t.windows.Fits → u.Fits) :
    Quiet s { t with windows := u } := { h with windows := hu ∘ h.windows }

theorem quiet_mount (h : Quiet s t) {m : Option Mount} (hm : m.isSome = t.mount.isSome) : Quiet s { t with mount := m } :=
  { h with mount := hm.trans h.mount }

theorem quiet_drain (h : Quiet s t) {d : Drain} (hp : d.phase = t.drain.phase) (hr : d.returnMode = t.drain.returnMode) :
    Quiet s { t with drain := d } :=
  { h with phase := hp.trans h.phase, returnMode := hr.trans h.returnMode }

theorem quiet_health (h : Quiet s t) {x : Health} (hx : t.health.Fits → x.Fits) : Quiet s { t with health := x } :=
  { h with health := hx ∘ h.health }

theorem quiet_mgmt (h : Quiet s t) {m : Mgmt} (hm : t.mgmt.Fits → m.Fits) (hmode : m.mode = t.mgmt.mode)
    (hw : ∀ step cut, m.command = .active (.wipe step cut) → t.Wiping) : Quiet s { t with mgmt := m } :=
  { h with mgmt := hm ∘ h.mgmt, mode := hmode.trans h.mode,
           wipe := fun ⟨step, cut, hc⟩ => h.wipe (hw step cut hc) }

theorem quiet_ite {c : Prop} [Decidable c] {u : State} (ht : Quiet s t) (hu : Quiet s u) :
    Quiet s (if c then t else u) := by
  split_ifs <;> assumption

end

end Sys2Proof.Machine
end

section
/-! The shared operations of flags, views, windows and queue keep the sizes, the canonical forms and the modes. -/

namespace Sys2Proof.Machine

section
variable {s t : State}

/-! ### Flags and DATA (R165, R176, R188, R192) -/

theorem wiping_of_eq {step : WipeStep} {cut : Bool} (h : t.mgmt.command = .active (.wipe step cut)) : t.Wiping :=
  ⟨step, cut, h⟩

@[simp] theorem quiet_raise (h : Quiet s t) (e : Event) : Quiet s (t.raise e) :=
  quiet_mgmt h id rfl fun _ _ => wiping_of_eq

@[simp] theorem quiet_select (h : Quiet s t) (n : Nat) : Quiet s (t.select n) :=
  quiet_mgmt h id rfl fun _ _ => wiping_of_eq

@[simp] theorem quiet_edge (h : Quiet s t) (sel : EdgeSel) (e : Event) (a b : Bool) : Quiet s (t.edge sel e a b) := by
  unfold State.edge; split_ifs <;> simp [h]

@[simp] theorem quiet_reportFault (h : Quiet s t) (f : FaultReport) : Quiet s (t.reportFault f) := by
  unfold State.reportFault
  split
  case h_1 => exact quiet_mgmt h (fun hm => ⟨hm.1, fun hf => by simp at hf⟩) rfl fun _ _ => wiping_of_eq
  case h_2 r hr => exact quiet_mgmt h (fun hm => ⟨hm.1, fun hf => by simp [hr] at hf⟩) rfl fun _ _ => wiping_of_eq

@[simp] theorem quiet_freeFault (h : Quiet s t) : Quiet s t.freeFault :=
  quiet_mgmt h (fun hm => ⟨hm.1, fun _ => rfl⟩) rfl fun _ _ => wiping_of_eq

theorem Health.Fits.bump {x : Health} (h : x.Fits) : x.bump.Fits := by
  obtain ⟨hcount, hsnap⟩ := h
  unfold Health.bump
  split_ifs with hlt
  · exact ⟨Nat.lt_iff_add_one_le.mp hlt, hsnap⟩
  · exact ⟨hcount, hsnap⟩

@[simp] theorem quiet_report (h : Quiet s t) (c : HealthClass) : Quiet s (t.report c) := by
  have hbump : Quiet s { t with health := t.health.bump } := quiet_health h Health.Fits.bump
  unfold State.report; dsimp only
  split_ifs <;> simp [h, hbump]

@[simp] theorem quiet_closeHealthWindow (h : Quiet s t) : Quiet s t.closeHealthWindow :=
  quiet_raise (quiet_health h fun hx => ⟨Nat.zero_le _, hx.1⟩) _

@[simp] theorem quiet_disarm (h : Quiet s t) : Quiet s t.disarm := quiet_health h id

theorem length_putData (d bs : List Byte) (h : d.length = 64) : (putData d 0 bs).length = 64 := by
  simp [putData, h]; omega

theorem Mgmt.Fits.putData {m : Mgmt} (h : m.Fits) (bs : List Byte) :
    (Machine.putData m.data 0 bs).length = 64 := length_putData _ _ h.1

@[simp] theorem quiet_complete (h : Quiet s t) (r : Ret) (bs : List Byte) : Quiet s (t.complete r bs) :=
  quiet_mgmt h (fun hm => ⟨hm.putData _, hm.2⟩) rfl fun _ _ hc => by simp at hc

/-- A command other than WIPE is held. -/
theorem quiet_hold (h : Quiet s t) (a : Activity) (ha : ∀ step cut, a = .wipe step cut → t.Wiping) :
    Quiet s (t.hold a) :=
  quiet_mgmt h id rfl fun step cut hc => ha step cut (by simpa using hc)

/-! ### Entries (R36, R74, R109, R129) -/

@[simp] theorem quiet_setEntry (h : Quiet s t) (line : Nat) (e : TableEntry) : Quiet s (t.setEntry line e) :=
  quiet_table h (Sparse.wf_set TableEntry.clear t.table line e)

@[simp] theorem quiet_setBlock (h : Quiet s t) (b : Nat) (e : BlockEntry) : Quiet s (t.setBlock b e) :=
  quiet_blocks h (Sparse.wf_set BlockEntry.unknown t.blocks.table b e) id

theorem WindowUnit.Fits.window {u : WindowUnit} (h : u.Fits) (w : Nat) : (u.windows.getD w Window.idle).Fits := by
  rw [List.getD_eq_getElem?_getD]
  cases hw : u.windows[w]? with
  | none => simp [Window.Fits, Window.idle]
  | some x => exact h.groups x (List.mem_of_getElem? hw)

/-- Window `w` is replaced by one that fits. -/
theorem quiet_setWindow (h : Quiet s t) (w : Nat) {x : Window} (hx : (t.window w).Fits → x.Fits) :
    Quiet s (t.setWindow w x) := by
  refine quiet_windows h fun hu => { hu with windows := by simp [hu.windows], groups := fun y hy => ?_ }
  rcases List.mem_or_eq_of_mem_set hy with hy | rfl
  · exact hu.groups y hy
  · exact hx (hu.window w)

@[simp] theorem quiet_setReg (h : Quiet s t) (i : Nat) (x : RegEntry) : Quiet s (t.setReg i x) :=
  quiet_windows h fun hu => { hu with register := by simp [hu.register] }

@[simp] theorem quiet_setRequest (h : Quiet s t) (r : Request) : Quiet s (t.setRequest r) := quiet_port h _

@[simp] theorem quiet_setPiece (h : Quiet s t) (r : Request) (i : Nat) (p : Piece) : Quiet s (t.setPiece r i p) :=
  quiet_port h _

@[simp] theorem quiet_wake (h : Quiet s t) : Quiet s t.wake := by
  unfold State.wake
  split
  · exact h
  · split_ifs <;> simp [h]

/-! ### COMMIT requests and reservations (R54, R118, R130 to R132) -/

@[simp] theorem quiet_askCommit (h : Quiet s t) (r : CommitRequest) : Quiet s (t.askCommit r) := by
  unfold State.askCommit
  split_ifs with hc
  · refine quiet_queue h fun _ => ?_
    have hplaces : t.queue.entries.length + t.queue.requests.length + 1 ≤ 16 := by
      simpa [State.gateAdmits, Config.queuePlaces] using (Bool.and_eq_true_iff.mp hc.1).1
    simp; omega
  · exact quiet_queue h id

@[simp] theorem quiet_appendWaitingCommit (h : Quiet s t) : Quiet s t.appendWaitingCommit := by
  unfold State.appendWaitingCommit
  split
  · exact h
  · split_ifs with hc
    · exact quiet_queue h fun _ => by
        have hplace : t.queue.entries.length < 16 := hc.1
        simpa using hplace
    · exact h

@[simp] theorem quiet_reserve (h : Quiet s t) (w g i : Nat) : Quiet s (t.reserve w g i) :=
  quiet_askCommit (quiet_setWindow (quiet_setReg h _ _) w (by exact id)) _

theorem quiet_closeGroup (h : Quiet s t) (w g : Nat) (hg : t.windows.Fits → (t.window w).group.isSome = true) :
    Quiet s (t.closeGroup w g) := by
  have hclosed : Quiet s (t.setWindow w { t.window w with state := .committing }) :=
    quiet_windows h fun hu => { hu with
      windows := by simp [hu.windows]
      groups := fun y hy => by
        rcases List.mem_or_eq_of_mem_set hy with hy | rfl
        · exact hu.groups y hy
        · exact fun _ => hg hu }
  unfold State.closeGroup; dsimp only
  split
  · exact quiet_reserve hclosed _ _ _
  · exact quiet_setWindow hclosed w (by exact id)

@[simp] theorem quiet_closeTrigger (h : Quiet s t) (g : Tag) : Quiet s (t.closeTrigger g) := by
  unfold State.closeTrigger
  split_ifs with hc
  · exact quiet_closeGroup h _ _ fun _ => by simp [hc.2]
  · exact h

@[simp] theorem quiet_offerRegister (h : Quiet s t) : Quiet s t.offerRegister := by
  unfold State.offerRegister; split <;> simp [h]

@[simp] theorem quiet_freeDeadGroups (h : Quiet s t) : Quiet s t.freeDeadGroups :=
  quiet_windows h fun hu => { hu with register := by simp [hu.register] }

@[simp] theorem quiet_settleGroups (h : Quiet s t) : Quiet s t.settleGroups :=
  quiet_offerRegister (quiet_offerRegister (quiet_offerRegister (quiet_offerRegister (quiet_freeDeadGroups h))))

@[simp] theorem quiet_updateRelease (h : Quiet s t) : Quiet s t.updateRelease :=
  quiet_blocks (quiet_windows h (u := { t.windows with release := t.releaseWanted })
    fun hu => { hu with groups := hu.groups }) id id

/-! ### Reverts, aborts, commit completions (R120 to R127) -/

theorem Window.Fits.of_idle {x : Window} (h : x.state = .idle ∨ x.state = .armed) : x.Fits := by
  rintro (ho | hc) <;> simp_all

theorem Window.dropped_fits (x : Window) : x.dropped.Fits := .of_idle (.inl rfl)

theorem Window.afterCommit_fits (x : Window) (m : Mode) : (x.afterCommit m).1.Fits := by
  unfold Window.afterCommit; dsimp only
  split_ifs
  · exact .of_idle (.inr rfl)
  · exact .of_idle (.inl rfl)

theorem WindowUnit.Fits.filterShadow {u : WindowUnit} (h : u.Fits) (p : ShadowEntry → Bool) :
    WindowUnit.Fits { u with shadow := u.shadow.filter p } :=
  { h with shadow := (List.length_filter_le _ _).trans h.shadow
           lines := h.lines.sublist (List.filter_sublist.map _) }

theorem WindowUnit.Fits.mapShadow {u : WindowUnit} (h : u.Fits) (f : ShadowEntry → ShadowEntry)
    (hf : ∀ e, (f e).line = e.line) : WindowUnit.Fits { u with shadow := u.shadow.map f } :=
  { h with shadow := by simpa using h.shadow
           lines := by
             rw [List.map_map, show (fun e : ShadowEntry => e.line) ∘ f = (·.line) from funext hf]
             exact h.lines }

@[simp] theorem quiet_filterShadow (h : Quiet s t) (p : ShadowEntry → Bool) :
    Quiet s { t with windows := { t.windows with shadow := t.windows.shadow.filter p } } :=
  quiet_windows h fun hu => hu.filterShadow p

theorem commitTo_ne_clear (w i : Nat) (e : TableEntry) (h : e ≠ .clear) : e.commitTo w i ≠ .clear := by
  unfold TableEntry.commitTo
  split_ifs with hg
  · intro hc; simpa [TableEntry.clear] using congrArg TableEntry.group hc
  · exact h

theorem Sparse.ne_of_mem {α : Type} [DecidableEq α] {d : α} {m : Sparse α} (h : Sparse.wf d m = true) {c : Nat × α}
    (hc : c ∈ m) : c.2 ≠ d := by
  induction m with
  | nil => simp at hc
  | cons e m ih =>
    obtain ⟨hv, _, hm⟩ := (Sparse.wf_cons d e.1 e.2 m).mp h
    rcases List.mem_cons.mp hc with rfl | hc
    · exact hv
    · exact ih hm hc

/-- Every listed entry of the table is changed, none to the clear one. -/
theorem quiet_mapTable (h : Quiet s t) (f : TableEntry → TableEntry) (hf : ∀ e, e ≠ .clear → f e ≠ .clear) :
    Quiet s { t with table := t.table.map fun (c : Nat × TableEntry) => (c.1, f c.2) } :=
  quiet_table h fun ht =>
    Sparse.wf_map TableEntry.clear t.table (fun c => f c.2) (fun _ hc => hf _ (Sparse.ne_of_mem ht hc)) ht

@[simp] theorem quiet_commitCompletion (h : Quiet s t) (w g i : Nat) (x : Slot) :
    Quiet s (t.commitCompletion w g i x) := by
  unfold State.commitCompletion; dsimp only
  refine quiet_wake ?_
  have hreg := quiet_setReg h i (if t.members w = 0 then .free else .committed w g x)
  have htable := quiet_mapTable hreg (TableEntry.commitTo w i) (commitTo_ne_clear w i)
  have hshadow := quiet_filterShadow htable fun e => !decide (e.window = w)
  refine quiet_ite (quiet_raise ?_ _) ?_ <;>
    exact quiet_raise (quiet_setWindow hshadow w fun _ => Window.afterCommit_fits _ _) _

@[simp] theorem quiet_revert (h : Quiet s t) (x : ShadowEntry) : Quiet s (t.revert x) := by
  unfold State.revert; dsimp only; split_ifs <;> simp [h]

theorem quiet_foldl {α : Type} {f : State → α → State} (hf : ∀ {t : State}, Quiet s t → ∀ a, Quiet s (f t a))
    (xs : List α) (h : Quiet s t) : Quiet s (xs.foldl f t) := by
  induction xs generalizing t with
  | nil => exact h
  | cons x xs ih => exact ih (hf h x)

@[simp] theorem quiet_revertWindow (h : Quiet s t) (w : Nat) : Quiet s (t.revertWindow w) :=
  quiet_filterShadow (quiet_foldl quiet_revert _ h) _

@[simp] theorem quiet_freeRegisterOf (h : Quiet s t) (x : Window) : Quiet s (t.freeRegisterOf x) := by
  unfold State.freeRegisterOf; split <;> simp [h]

@[simp] theorem quiet_queueAbort (h : Quiet s t) (g : Tag) : Quiet s (t.queueAbort g) :=
  quiet_queue h (List.length_filterMap_le _ _).trans

theorem quiet_drop (h : Quiet s t) (w : Nat) (x : Window) : Quiet s (t.setWindow w x.dropped) :=
  quiet_setWindow h w fun _ => x.dropped_fits

@[simp] theorem quiet_abortGroup (h : Quiet s t) (w : Nat) : Quiet s (t.abortGroup w) := by
  unfold State.abortGroup; dsimp only
  refine quiet_wake (quiet_raise (quiet_drop (quiet_freeRegisterOf (quiet_revertWindow ?_ _) _) _ _) _)
  split <;> simp [h]

@[simp] theorem quiet_lostCommit (h : Quiet s t) (w : Nat) : Quiet s (t.lostCommit w) :=
  quiet_wake (quiet_raise (quiet_drop (quiet_freeRegisterOf (quiet_revertWindow h _) _) _ _) _)

@[simp] theorem quiet_disarmWindow (h : Quiet s t) (w : Nat) : Quiet s (t.disarmWindow w) := quiet_drop h _ _

@[simp] theorem quiet_stopWindow (h : Quiet s t) (w : Nat) : Quiet s (t.stopWindow w) := by
  unfold State.stopWindow; dsimp only
  split <;> (try split_ifs) <;> simp [h]

@[simp] theorem quiet_stopWindows (h : Quiet s t) : Quiet s t.stopWindows :=
  quiet_stopWindow (quiet_stopWindow (quiet_stopWindow (quiet_stopWindow h _) _) _) _

/-! ### Tagging (R8, R112, R113) -/

@[simp] theorem quiet_openGroup (h : Quiet s t) (w : Nat) : Quiet s (t.openGroup w) := by
  unfold State.openGroup
  split_ifs
  · exact quiet_windows (quiet_setWindow h w fun _ _ => rfl) fun hu => { hu with groups := hu.groups }
  · exact h

end

end Sys2Proof.Machine
end

section
/-! The write queue, the block manager and the port keep the sizes, the canonical forms and the modes. -/

namespace Sys2Proof.Machine

section
variable {s t : State}

/-! ### The array port's operation in flight -/

/-- The array port gets another operation in flight or none. -/
theorem quiet_op (h : Quiet s t) (o : Option Op) : Quiet s { t with array := { t.array with op := o } } :=
  quiet_array h id fun _ hj => State.erases_of_eq hj

@[simp] theorem quiet_startOp (h : Quiet s t) (p : Purpose) (b o len : Nat) (bs : List Byte) :
    Quiet s (t.startOp p b o len bs) := quiet_op h _

@[simp] theorem quiet_abandonRead (h : Quiet s t) : Quiet s t.abandonRead := by
  unfold State.abandonRead
  split
  · exact h
  · split
    · exact quiet_op h _
    · exact quiet_op h _
    all_goals exact h

/-! ### Outcomes of record programs (R45, R47, R65 to R70, R77, R87, R90) -/

@[simp] theorem quiet_startRecord (h : Quiet s t) (p : Purpose) (x : Slot) (bs : List Byte) :
    Quiet s (t.startRecord p x bs) := quiet_startOp (quiet_setBlock h _ _) _ _ _ _ _

@[simp] theorem quiet_issueHead (h : Quiet s t) (p : Purpose) (x : Slot) : Quiet s (t.issueHead p x) := by
  unfold State.issueHead
  split
  case h_1 e qs hq => exact quiet_startRecord (quiet_queue h fun hl => by simpa [hq] using hl) _ _ _
  case h_2 e qs hq => exact quiet_startRecord (quiet_queue h fun hl => by simpa [hq] using hl) _ _ _
  case h_3 => exact h

@[simp] theorem quiet_retireBlock (h : Quiet s t) (b : Nat) : Quiet s (t.retireBlock b) := by
  unfold State.retireBlock; dsimp only
  split_ifs
  · refine quiet_reportFault (quiet_raise ?_ _) _
    exact quiet_blocks (quiet_setBlock h b _) id id
  · refine quiet_reportFault (quiet_raise ?_ _) _
    exact quiet_blocks (quiet_setBlock h b _) id id
  · exact h

@[simp] theorem quiet_blockPassed (h : Quiet s t) (b : Nat) : Quiet s (t.blockPassed b) := quiet_setBlock h _ _

@[simp] theorem quiet_blockFailed (h : Quiet s t) (b : Nat) : Quiet s (t.blockFailed b) :=
  quiet_ite (quiet_retireBlock (quiet_setBlock h _ _) _) (quiet_setBlock h _ _)

@[simp] theorem quiet_oweTailMark (h : Quiet s t) (x : Slot) (r : Requester) : Quiet s (t.oweTailMark x r) := by
  unfold State.oweTailMark
  exact quiet_ite (quiet_blocks h id id) h

@[simp] theorem quiet_programCompletion (h : Quiet s t) (line : Nat) (tag : Option Tag) (x : Slot) :
    Quiet s (t.programCompletion line tag x) := by
  unfold State.programCompletion; dsimp only
  split
  · exact quiet_setEntry h _ _
  · refine quiet_windows (quiet_setEntry h _ _) fun hu => hu.mapShadow _ fun e => ?_
    unfold ShadowEntry.takePlain
    split_ifs <;> rfl

theorem takeCopy_ne_clear (src dst : Slot) (plain failed : Bool) (e : TableEntry) (h : e ≠ .clear) :
    e.takeCopy src dst plain failed ≠ .clear := by
  unfold TableEntry.takeCopy
  split_ifs
  all_goals first
    | exact h
    | (intro hc; simpa [TableEntry.clear] using congrArg TableEntry.current hc)

theorem WindowUnit.Fits.mapRegister {u : WindowUnit} (h : u.Fits) (f : RegEntry → RegEntry) :
    WindowUnit.Fits { u with register := u.register.map f } :=
  { h with register := by simpa using h.register }

@[simp] theorem quiet_copyCompletion (h : Quiet s t) (src dst : Slot) (plain failed : Bool) :
    Quiet s (t.copyCompletion src dst plain failed) := by
  have htable := quiet_mapTable h (TableEntry.takeCopy src dst plain failed) (takeCopy_ne_clear src dst plain failed)
  refine quiet_port (quiet_windows htable fun hu => (hu.mapShadow _ fun e => ?_).mapRegister _) _
  unfold ShadowEntry.takeCopy
  split_ifs <;> rfl

@[simp] theorem quiet_noteDiscard (h : Quiet s t) (marked : Bool) : Quiet s (t.noteDiscard marked) := by
  unfold State.noteDiscard
  split_ifs
  · split
    case h_1 => exact quiet_hold h _ fun _ _ hw => by cases hw
    case h_2 => exact quiet_hold h _ fun _ _ hw => by cases hw
    case h_3 => exact quiet_hold h _ fun _ _ hw => by cases hw
    all_goals exact h
  · exact h

@[simp] theorem quiet_dropHead (h : Quiet s t) : Quiet s t.dropHead :=
  quiet_queue h fun hl => by simp; omega

@[simp] theorem quiet_setHead (h : Quiet s t) (q : QEntry) : Quiet s (t.setHead q) :=
  quiet_queue h fun hl => by simp; omega

@[simp] theorem quiet_failedProgram (h : Quiet s t) (b n : Nat) (res : ProgResult) :
    Quiet s (t.failedProgram b n res) := by
  have hblock := quiet_blockFailed h b
  unfold State.failedProgram; dsimp only
  refine quiet_ite (quiet_retireBlock ?_ b) ?_ <;> exact quiet_ite (quiet_report hblock _) hblock

@[simp] theorem quiet_lineOutcome (h : Quiet s t) (e : LineEntry) (x : Slot) (res : ProgResult) :
    Quiet s (t.lineOutcome e x res) := by
  have hdrop := quiet_dropHead h
  unfold State.lineOutcome; dsimp only
  refine quiet_ite ?dropped ?kept
  case dropped => cases res <;> simp [hdrop]
  case kept =>
    cases res
    case pass => simp [hdrop]
    all_goals
      have hfailed := quiet_failedProgram h x.block (e.failed x.block).blockAttempts
      refine quiet_ite (quiet_setHead (hfailed _) _) ?_
      exact quiet_reportFault (quiet_noteDiscard (quiet_dropHead (hfailed _)) _) _

@[simp] theorem quiet_commitOutcome (h : Quiet s t) (e : CommitEntry) (x : Slot) (res : ProgResult) :
    Quiet s (t.commitOutcome e x res) := by
  have hdrop := quiet_dropHead h
  unfold State.commitOutcome; dsimp only
  cases res
  case pass => simp [hdrop]
  all_goals
    have hfailed := quiet_failedProgram h x.block (e.failed x.block).blockAttempts
    refine quiet_ite (quiet_setHead (hfailed _) _) (quiet_lostCommit ?_ _)
    exact quiet_reportFault (quiet_noteDiscard (quiet_dropHead (hfailed _)) _) _

@[simp] theorem quiet_queueOutcome (h : Quiet s t) (x : Slot) (res : ProgResult) : Quiet s (t.queueOutcome x res) := by
  unfold State.queueOutcome; split <;> simp [h]

@[simp] theorem quiet_markAll (h : Quiet s t) : Quiet s t.markAll := quiet_queue h fun hl => by simpa using hl

/-! ### The block manager (R76 to R92) -/

@[simp] theorem quiet_startOpening (h : Quiet s t) (r : Requester) : Quiet s (t.startOpening r) := by
  unfold State.startOpening
  split
  · exact h
  · refine quiet_startOp ?_ _ _ _ _ _
    exact quiet_blocks (quiet_setBlock h _ _) id id

@[simp] theorem quiet_openingOutcome (h : Quiet s t) (b : Nat) (res : ProgResult) :
    Quiet s (t.openingOutcome b res) := by
  unfold State.openingOutcome; split <;> simp [h]

@[simp] theorem quiet_startTailMark (h : Quiet s t) : Quiet s t.startTailMark := by
  unfold State.startTailMark; split <;> simp [h]

@[simp] theorem quiet_tailOutcome (h : Quiet s t) (b : Nat) (res : ProgResult) : Quiet s (t.tailOutcome b res) := by
  have howed : Quiet s { t.setBlock b { t.block b with state := .full, nextFree := 0 } with
      blocks := { (t.setBlock b { t.block b with state := .full, nextFree := 0 }).blocks with tailOwed := none } } :=
    quiet_blocks (quiet_setBlock h _ _) id id
  exact quiet_ite (quiet_report howed _) howed

@[simp] theorem quiet_takeVictim (h : Quiet s t) (b : Nat) : Quiet s (t.takeVictim b) := by
  refine quiet_blocks (quiet_setBlock h _ _) id fun _ => ?_
  show nextReclaim _ ≤ 63
  unfold nextReclaim
  split_ifs <;> omega

@[simp] theorem quiet_setCopy (h : Quiet s t) (k : JobKind) (c : Option CopyWork) : Quiet s (t.setCopy k c) := by
  cases k <;> exact quiet_blocks h id id

@[simp] theorem quiet_passTurn (h : Quiet s t) (k : JobKind) : Quiet s (t.passTurn k) := by
  cases k
  case retirement => exact h
  all_goals exact quiet_blocks h id id

@[simp] theorem quiet_takeTurn (h : Quiet s t) (k : JobKind) : Quiet s (t.takeTurn k) := by
  cases k
  case retirement => exact h
  all_goals exact quiet_ite h (quiet_passTurn h _)

@[simp] theorem quiet_startRelocRead (h : Quiet s t) (k : JobKind) (x : Slot) : Quiet s (t.startRelocRead k x) :=
  quiet_startOp (quiet_setCopy (quiet_takeTurn h k) k _) _ _ _ _ _

@[simp] theorem quiet_relocReadDone (h : Quiet s t) (k : JobKind) (c : CopyWork) (bs : List Byte) :
    Quiet s (t.relocReadDone k c bs) := by
  have hcopy := fun c' => quiet_setCopy h k c'
  exact quiet_ite (quiet_ite (hcopy _) (quiet_report (quiet_reportFault (hcopy _) _) _)) (quiet_passTurn (hcopy _) _)

@[simp] theorem quiet_issueCopy (h : Quiet s t) (k : JobKind) (x : Slot) : Quiet s (t.issueCopy k x) := by
  have hcopy := fun c => quiet_setCopy h k c
  unfold State.issueCopy
  split
  · exact h
  · exact quiet_ite (quiet_startRecord (hcopy _) _ _ _) (quiet_passTurn (hcopy _) _)

@[simp] theorem quiet_copyOutcome (h : Quiet s t) (k : JobKind) (x : Slot) (res : ProgResult) :
    Quiet s (t.copyOutcome k x res) := by
  unfold State.copyOutcome
  split
  · exact h
  · refine (?_ : Quiet s (match res with | .pass => _ | .fail => _ | .timeout => _))
    split
    · refine quiet_oweTailMark (quiet_passTurn (quiet_setCopy ?_ _ _) _) _ _
      exact quiet_blockPassed (quiet_copyCompletion h _ _ _ _) _
    · exact quiet_oweTailMark (quiet_report (quiet_blockFailed (quiet_setCopy h _ _) _) _) _ _
    · exact quiet_oweTailMark (quiet_blockFailed (quiet_setCopy h _ _) _) _ _

@[simp] theorem quiet_startRetireMark (h : Quiet s t) (b : Nat) : Quiet s (t.startRetireMark b) := by
  refine quiet_startOp ?_ _ _ _ _ _
  exact quiet_blocks h id id

@[simp] theorem quiet_retireMarkOutcome (h : Quiet s t) (b : Nat) (res : ProgResult) :
    Quiet s (t.retireMarkOutcome b res) := by
  unfold State.retireMarkOutcome; dsimp only
  refine quiet_ite (quiet_report ?_ _) ?_ <;> exact quiet_blocks (quiet_setBlock h _ _) id id

@[simp] theorem quiet_completeAppend (h : Quiet s t) (c : Code) (r : Ret) : Quiet s (t.completeAppend c r) :=
  quiet_wake (quiet_complete h _ _)

@[simp] theorem quiet_appendOutcome (h : Quiet s t) (c : Code) (new : Settings) (res : ProgResult) :
    Quiet s (t.appendOutcome c new res) := by
  cases res
  case pass =>
    refine quiet_completeAppend ?_ _ _
    exact quiet_mgmt h id rfl fun _ _ => wiping_of_eq
  case fail => exact quiet_completeAppend (quiet_report h _) _ _
  case timeout => exact quiet_completeAppend h _ _

@[simp] theorem quiet_startAppend (h : Quiet s t) (c : Code) (new : Settings) : Quiet s (t.startAppend c new) := by
  refine quiet_startOp ?_ _ _ _ _ _
  exact quiet_mgmt h id rfl fun _ _ hc => by simp at hc

/-! ### The port (R2, R8 to R14, R38 to R42) -/

@[simp] theorem quiet_respond (h : Quiet s t) (c : Option Cause) (d : List Byte) : Quiet s (t.respond c d) :=
  quiet_port (quiet_abandonRead h) _

@[simp] theorem quiet_refuse (h : Quiet s t) (f : FaultReport) (d : List Byte) : Quiet s (t.refuse f d) :=
  quiet_reportFault (quiet_respond h _ _) _

@[simp] theorem quiet_endRequest (h : Quiet s t) (r : Request) (c : Cause) : Quiet s (t.endRequest r c) :=
  quiet_refuse h _ _

@[simp] theorem quiet_waitChecking (h : Quiet s t) (r : Request) : Quiet s (t.waitChecking r) :=
  quiet_setRequest (quiet_abandonRead h) _

/-! ### The shadow list under check 6 (R8, R113) -/

theorem windowAt_openGroup (t : State) (w : Nat) (line : Nat) :
    (t.openGroup w).windowAt [.armed, .opened] line = t.windowAt [.armed, .opened] line := by
  unfold State.openGroup
  split_ifs with ha
  · unfold State.windowAt
    congr 1
    funext v
    by_cases hv : v = w ∧ w < t.windows.windows.length
    · obtain ⟨rfl, hlt⟩ := hv
      have hnew := window_setWindow t v { t.window v with state := .opened, group := some t.windows.nextGroup } hlt
      simp only [State.window] at hnew ha ⊢
      rw [hnew, ha]
      rfl
    · have hsame : (t.setWindow w { t.window w with state := .opened, group := some t.windows.nextGroup }).window v
          = t.window v := by
        by_cases hvw : v = w
        · subst hvw
          have hge : t.windows.windows.length ≤ v := by simpa using hv
          simp [State.setWindow, State.window, List.set_eq_of_length_le hge]
        · exact window_setWindow_other t v w _ hvw
      simp only [State.window] at hsame ⊢
      rw [hsame]
  · rfl

theorem shadowOf_createShadow {t : State} {line l w : Nat} (h : (t.createShadow l w).shadowOf line = none) :
    t.shadowOf line = none := by
  unfold State.createShadow at h
  split_ifs at h
  · exact h
  · unfold State.shadowOf at h ⊢
    rw [List.find?_append] at h
    exact (Option.or_eq_none_iff.mp h).1

theorem shadowNeed_of_created {t : State} {p : Piece} {w : Nat} (hr : p.inRange = true)
    (hs : t.shadowOf (t.lineOf p) = none) (hw : t.windowAt [.armed, .opened] p.busLine = some w) :
    t.shadowNeed p = some (p, w) := by
  simp [State.shadowNeed, hr, hs, hw]

/-- A piece that needs no shadow entry needs none after another piece has been tagged. -/
theorem shadowNeed_tagPiece {t : State} (p q : Piece) (h : ((t.tagPiece p).1.shadowNeed q).isSome = true) :
    (t.shadowNeed q).isSome = true := by
  unfold State.tagPiece at h
  split_ifs at h
  · split at h
    · exact h
    · rename_i w hw
      have hline : ((t.openGroup w).createShadow (t.lineOf p) w).lineOf q = t.lineOf q := by
        simp only [State.lineOf]
        rw [exchange_of_standing ((standing_createShadow _ _ _).trans (standing_openGroup t w))]
      have hwindow : ((t.openGroup w).createShadow (t.lineOf p) w).windowAt [.armed, .opened] q.busLine
          = t.windowAt [.armed, .opened] q.busLine := by
        rw [← windowAt_openGroup t w]
        unfold State.createShadow
        split_ifs <;> rfl
      have hshadow : (t.openGroup w).shadowOf (t.lineOf q) = t.shadowOf (t.lineOf q) := by
        unfold State.openGroup; split_ifs <;> rfl
      simp only [State.shadowNeed, hline, hwindow] at h ⊢
      by_cases hq : q.inRange = true ∧ t.shadowOf (t.lineOf q) = none
      · simp only [hq.1, hq.2] at h ⊢
        revert h
        cases t.windowAt [.armed, .opened] q.busLine <;> simp
      · exfalso
        split_ifs at h with hc
        · simp only [Bool.and_eq_true, Option.isNone_iff_eq_none] at hc
          exact hq ⟨hc.1, hshadow ▸ shadowOf_createShadow hc.2⟩
        · simp at h
  · exact h

/-- A shadow entry is created where the list has a place left. -/
theorem quiet_createShadow (h : Quiet s t) (line w : Nat)
    (hplace : s.windows.Fits → t.shadowOf line = none → t.windows.shadow.length + 1 ≤ 64) :
    Quiet s (t.createShadow line w) := by
  unfold State.createShadow
  split_ifs with hc
  · exact h
  · have hnone : t.shadowOf line = none := by simpa using hc
    refine { h with windows := fun hs => ?_ }
    have hu := h.windows hs
    refine { hu with shadow := by simpa using hplace hs hnone, lines := ?_ }
    simp only [List.map_append, List.map_cons, List.map_nil]
    refine List.nodup_append.mpr ⟨hu.lines, by simp, fun l hl m hm => ?_⟩
    obtain ⟨e, he, rfl⟩ := List.mem_map.mp hl
    have hne := List.find?_eq_none.mp hnone e he
    simp at hm hne
    exact hm ▸ hne

theorem openGroup_shadow (t : State) (w : Nat) : (t.openGroup w).windows.shadow = t.windows.shadow := by
  unfold State.openGroup; split_ifs <;> rfl

theorem length_createShadow (t : State) (line w : Nat) : (t.createShadow line w).windows.shadow.length
    = t.windows.shadow.length + if t.shadowOf line = none then 1 else 0 := by
  unfold State.createShadow
  cases hc : t.shadowOf line <;> simp

/-- A piece is tagged (R112): its shadow entry finds a place, and the list grows by one at most where it needs one. -/
theorem quiet_tagPiece (h : Quiet s t) (p : Piece)
    (hplace : s.windows.Fits → (t.shadowNeed p).isSome = true → t.windows.shadow.length + 1 ≤ 64) :
    Quiet s (t.tagPiece p).1 ∧ (t.tagPiece p).1.windows.shadow.length
      ≤ t.windows.shadow.length + if (t.shadowNeed p).isSome = true then 1 else 0 := by
  unfold State.tagPiece
  by_cases hr : p.inRange = true
  case neg => rw [if_neg hr]; exact ⟨h, by simp⟩
  case pos =>
    rw [if_pos hr]
    cases hw : t.windowAt [.armed, .opened] p.busLine with
    | none => exact ⟨h, Nat.le_add_right _ _⟩
    | some w =>
      have hlist := openGroup_shadow t w
      have hfind : (t.openGroup w).shadowOf (t.lineOf p) = t.shadowOf (t.lineOf p) := by
        simp only [State.shadowOf, hlist]
      constructor
      · refine quiet_createShadow (quiet_openGroup h w) _ _ fun hs hnone => ?_
        rw [hlist]
        exact hplace hs (by rw [shadowNeed_of_created hr (hfind ▸ hnone) hw]; rfl)
      · show ((t.openGroup w).createShadow (t.lineOf p) w).windows.shadow.length ≤ _
        rw [length_createShadow, hlist, hfind]
        by_cases hnone : t.shadowOf (t.lineOf p) = none
        · simp [hnone, shadowNeed_of_created hr hnone hw]
        · simp [hnone]

/-- The pieces of a write may be tagged when the shadow list has a place for each that needs one. -/
theorem quiet_tagPieces (ps : List Piece) (h : Quiet s t)
    (hplaces : s.windows.Fits → t.windows.shadow.length + ps.countP (fun p => (t.shadowNeed p).isSome) ≤ 64) :
    Quiet s (t.tagPieces ps).1 := by
  induction ps generalizing t with
  | nil => exact h
  | cons p ps ih =>
    have hcount : ps.countP (fun q => ((t.tagPiece p).1.shadowNeed q).isSome)
        ≤ ps.countP (fun q => (t.shadowNeed q).isSome) :=
      List.countP_mono_left fun q _ => shadowNeed_tagPiece p q
    simp only [List.countP_cons] at hplaces
    obtain ⟨hquiet, hlength⟩ := quiet_tagPiece h p fun hs hneed => by
      have hall := hplaces hs
      rw [if_pos hneed] at hall
      omega
    refine ih hquiet fun hs => ?_
    have hall := hplaces hs
    omega

theorem shadowNeed_untagged (t : State) (p : Piece) :
    (t.shadowNeed p.untagged).isSome = (t.shadowNeed p).isSome := by
  have hin : p.untagged.inRange = p.inRange := rfl
  have hline : t.lineOf p.untagged = t.lineOf p := rfl
  have hbus : p.untagged.busLine = p.busLine := rfl
  unfold State.shadowNeed
  rw [hin, hline, hbus]
  split_ifs <;> simp

@[simp] theorem quiet_checkWindows (h : Quiet s t) (r : Request) : Quiet s (t.checkWindows r) := by
  unfold State.checkWindows
  split_ifs
  · exact quiet_waitChecking h r
  · split
    case h_1 => exact quiet_refuse h _ _
    case h_2 hnone =>
      unfold State.enterHandOver
      split
      · exact quiet_respond h _ _
      · refine quiet_setRequest (quiet_abandonRead (quiet_tagPieces _ h fun hs => ?_)) _
        have hlist := (h.windows hs).shadow
        have hneeds := List.getElem?_eq_none_iff.mp hnone
        rw [List.length_filterMap_eq_countP] at hneeds
        rw [List.countP_map]
        simp only [Function.comp_def, shadowNeed_untagged]
        simp only [Config.shadowPlaces] at hneeds
        omega

@[simp] theorem quiet_checkRange (h : Quiet s t) (r : Request) : Quiet s (t.checkRange r) := by
  unfold State.checkRange
  split
  · exact quiet_refuse h _ _
  all_goals (split <;> simp [h])

@[simp] theorem quiet_checkWrite (h : Quiet s t) (r : Request) : Quiet s (t.checkWrite r) := by
  unfold State.checkWrite
  refine quiet_ite (quiet_waitChecking h r) ?_
  split
  · exact quiet_endRequest h r _
  · exact quiet_ite (quiet_endRequest h r _) (quiet_checkRange h r)

@[simp] theorem quiet_stepHandOver (h : Quiet s t) (r : Request) : Quiet s (t.stepHandOver r) := by
  unfold State.stepHandOver
  refine quiet_ite (quiet_waitChecking h r) ?_
  split
  · exact quiet_endRequest h r _
  · exact quiet_ite (quiet_endRequest h r _) (quiet_ite (quiet_setRequest h _) (quiet_checkWindows h _))

/-! ### Acceptance (R12, R55 to R59) -/

theorem length_changeNewest {line : Nat} {f : LineEntry → LineEntry} {qs rs : List QEntry}
    (h : changeNewest line f qs = some rs) : rs.length = qs.length := by
  induction qs generalizing rs with
  | nil => cases h
  | cons q qs ih =>
    simp only [changeNewest] at h
    split at h
    case h_1 qs' hqs =>
      cases h
      simp [ih hqs]
    case h_2 hqs =>
      split at h <;> cases h
      rfl

/-- Accepted pieces change the queue's entries alone; each fresh one may lengthen the queue by one. -/
theorem foldl_acceptPiece (ps : List (Piece × Treatment)) (t : State) :
    ∃ es, ps.foldl State.acceptPiece t = { t with queue := { t.queue with entries := es } }
      ∧ es.length ≤ t.queue.entries.length + ps.countP fun p => decide (p.2 = .fresh) := by
  induction ps generalizing t with
  | nil => exact ⟨t.queue.entries, rfl, by simp⟩
  | cons p ps ih =>
    have hone : ∃ es, t.acceptPiece p = { t with queue := { t.queue with entries := es } }
        ∧ es.length ≤ t.queue.entries.length + if decide (p.2 = .fresh) = true then 1 else 0 := by
      unfold State.acceptPiece; dsimp only
      cases p.2 with
      | behind => exact ⟨_, rfl, by simp⟩
      | fresh => exact ⟨_, rfl, by simp⟩
      | coalesce =>
        dsimp only
        split
        case h_1 qs hqs => exact ⟨qs, rfl, by simp [length_changeNewest hqs]⟩
        case h_2 => exact ⟨_, rfl, by simp⟩
    obtain ⟨es, hes, hlen⟩ := hone
    obtain ⟨fs, hfs, hlen'⟩ := ih (t.acceptPiece p)
    refine ⟨fs, by rw [List.foldl_cons, hfs, hes], ?_⟩
    rw [hes] at hlen'
    simp only [List.countP_cons] at hlen' ⊢
    omega

@[simp] theorem quiet_pieceTrigger (h : Quiet s t) (p : Piece) : Quiet s (t.pieceTrigger p) := by
  unfold State.pieceTrigger
  split
  · exact h
  · exact quiet_ite (quiet_closeTrigger h _) h

theorem quiet_accept (h : Quiet s t) (r : Request) (hc : t.canAccept r.handed = true) : Quiet s (t.accept r) := by
  obtain ⟨es, hes, hlen⟩ := foldl_acceptPiece (r.handed.map fun p => (p, t.treat p)) t
  have hqueue : Quiet s { t with queue := { t.queue with entries := es } } := quiet_queue h fun hl => by
    have hfresh : (r.handed.map fun p => (p, t.treat p)).countP (fun p => decide (p.2 = .fresh))
        = t.freshCount r.handed := by
      rw [List.countP_map, State.freshCount, ← List.countP_eq_length_filter]
      rfl
    rw [hfresh] at hlen
    have hroom : t.freshCount r.handed = 0 ∨ t.queue.entries.length + t.freshCount r.handed ≤ 16 := by
      simp only [State.canAccept, State.gateAdmits, Config.queuePlaces, Bool.and_eq_true, Bool.or_eq_true] at hc
      refine hc.2.imp of_decide_eq_true fun hgate => ?_
      have hplaces := of_decide_eq_true hgate.1.1
      omega
    show es.length ≤ 16
    omega
  unfold State.accept
  rw [hes]
  exact quiet_foldl quiet_pieceTrigger _ (quiet_respond hqueue _ _)

@[simp] theorem quiet_tryAccept (h : Quiet s t) : Quiet s t.tryAccept := by
  unfold State.tryAccept
  split
  · exact h
  · split_ifs with hc
    · exact quiet_accept h _ hc.2
    · exact h

/-! ### Reads (R14, R38 to R42, R50) -/

@[simp] theorem quiet_answerRead (h : Quiet s t) (r : Request) : Quiet s (t.answerRead r) := by
  unfold State.answerRead; dsimp only
  refine quiet_ite ?_ (quiet_setRequest h r)
  split
  · exact quiet_respond h _ _
  · split
    · exact quiet_respond h _ _
    all_goals exact quiet_refuse h _ _

@[simp] theorem quiet_stepRead (h : Quiet s t) (r : Request) : Quiet s (t.stepRead r) := by
  unfold State.stepRead
  split
  · exact quiet_endRequest h r _
  · exact quiet_setRequest h _
  all_goals exact quiet_ite (quiet_setRequest h r) (quiet_answerRead h _)

@[simp] theorem quiet_checkRead (h : Quiet s t) (r : Request) : Quiet s (t.checkRead r) := by
  unfold State.checkRead; split <;> simp [h]

@[simp] theorem quiet_portStep (h : Quiet s t) : Quiet s t.portStep := by
  unfold State.portStep
  split
  · exact h
  · split
    · exact quiet_ite (quiet_ite (quiet_checkWrite h _) (quiet_checkRead h _)) h
    · exact quiet_stepHandOver h _
    · exact quiet_stepRead h _

@[simp] theorem quiet_takeRequest (h : Quiet s t) (write : Bool) (addr count : Nat) (data : List Byte) :
    Quiet s (t.takeRequest write addr count data) := quiet_setRequest h _

@[simp] theorem quiet_checkFailure (h : Quiet s t) (line : Nat) (x : Slot) : Quiet s (t.checkFailure line x) := by
  unfold State.checkFailure; dsimp only
  exact quiet_report (quiet_raise (quiet_ite (quiet_setEntry h _ _) h) _) _

@[simp] theorem quiet_pieceRead (h : Quiet s t) (r : Request) (i : Nat) (x : Slot) (bs : List Byte) :
    Quiet s (t.pieceRead r i x bs) := by
  unfold State.pieceRead; dsimp only
  split
  · exact h
  · refine quiet_ite (quiet_setPiece ?_ _ _ _) (quiet_setPiece (quiet_checkFailure ?_ _ _) _ _ _) <;>
      exact quiet_ite (quiet_disarm h) h

@[simp] theorem quiet_mergeDone (h : Quiet s t) (r : Request) (i : Nat) (x : Slot) (bs : List Byte) :
    Quiet s (t.mergeDone r i x bs) := by
  unfold State.mergeDone; dsimp only
  split
  · exact h
  · exact quiet_ite (quiet_setPiece h _ _ _) (quiet_refuse (quiet_checkFailure h _ _) _ _)

@[simp] theorem quiet_stallExpired (h : Quiet s t) : Quiet s t.stallExpired := by
  unfold State.stallExpired; split <;> simp [h]

@[simp] theorem quiet_losePiece (h : Quiet s t) (i : Nat) : Quiet s (t.losePiece i) := by
  unfold State.losePiece
  split
  · exact h
  · split <;> simp [h]

end

end Sys2Proof.Machine
end

section
/-! The mode controller, the drain, mount, erases and what follows an event keep the sizes, the canonical forms and the
agreement of the modes. -/

namespace Sys2Proof.Machine

/-- Good, and an erase in hand works for the owner and on the block of the one before. -/
structure Lasting (s t : State) : Prop extends Good s t where
  erase : ∀ j, t.array.erase = some j → s.Erases j

theorem Quiet.lasting {s t : State} (h : Quiet s t) : Lasting s t := { h.good with erase := h.erase }

theorem Lasting.trans {s t u : State} (h : Lasting s t) (k : Lasting t u) : Lasting s u := by
  refine { h.toGood.trans k.toGood with erase := fun j hj => ?_ }
  obtain ⟨i, hi, ho, hb⟩ := k.erase j hj
  obtain ⟨l, hl, ho', hb'⟩ := h.erase i hi
  exact ⟨l, hl, ho.trans ho', hb.trans hb'⟩

/-- An operation in which no erase is left in hand. -/
theorem Good.lasting {s t : State} (h : Good s t) (he : t.array.erase = none) : Lasting s t :=
  { h with erase := fun j hj => by simp [he] at hj }

/-! ### Modes (R190, R191) -/

section
variable {s t : State}

theorem still_mode (h : Still s t) (m : Mode) : Still s { t with mgmt := { t.mgmt with mode := m } } :=
  { h with mgmt := h.mgmt }

theorem still_setMode (h : Still s t) (m : Mode) : Still s (t.setMode m) := by
  have hstop : Still s t.stopWindows := h.trans (quiet_stopWindows (Quiet.refl t)).toStill
  have hentered : ∀ u, Still s u → Still s ({ u with mgmt := { u.mgmt with mode := m } }.raise .modeChange).wake :=
    fun u hu => (still_mode hu m).trans (quiet_wake (quiet_raise (Quiet.refl _) _)).toStill
  cases m
  case run | mount => exact hentered t h
  all_goals exact hentered _ hstop

@[simp] theorem setMode_mode (t : State) (m : Mode) : (t.setMode m).mgmt.mode = m := by
  unfold State.setMode
  rw [wake_mgmt]
  rfl

theorem tidy_setMode (h : Tidy s t) (m : Mode) : Tidy s (t.setMode m) :=
  h.trans (still_setMode (Quiet.refl t).toStill m).toTidy

theorem State.ModesAgree.mount_none (a : s.ModesAgree) (h : s.mgmt.mode ≠ .mount) : s.mount.isSome = false := by
  by_contra hm
  exact h (a.mount.mp (Bool.not_eq_false _ ▸ hm))

theorem State.ModesAgree.erase_of_ne (a : s.ModesAgree) (hs : s.mgmt.mode ≠ .service) (hm : s.mgmt.mode ≠ .mount)
    {j : EraseJob} (hj : s.array.erase = some j) : j.owner = .manager := by
  cases ho : j.owner with
  | manager => rfl
  | mount => exact absurd (a.mountErase j hj ho) hm
  | wipe => exact absurd (a.wipeErase j hj ho) hs

theorem good_degrade (s : State) : Good s s.degrade := by
  unfold State.degrade
  split_ifs
  · split
    case h_1 hrun =>
      have hstill := still_setMode (Quiet.refl s).toStill .readonly
      refine ⟨hstill.toTidy, fun a => hstill.modesAgree (setMode_mode s _) (by simp [a.phase, hrun])
        (by simp [a.returns, hrun]) a.returnMode ?_ ?_ ?_⟩
      · simp [a.mount_none (by simp [hrun])]
      · intro hw
        simpa [hrun] using a.service_of_wiping (hstill.wipe hw)
      · intro j hj
        simp [a.erase_of_ne (by simp [hrun]) (by simp [hrun]) hj]
    case h_2 hdrain =>
      exact ⟨{ Tidy.refl s with flash := rfl }, fun a => { a with
        returns := by simp [hdrain]
        returnMode := fun m hm => by cases hm; exact .inr rfl }⟩
    all_goals exact Good.refl s
  · exact Good.refl s

/-! ### The drain (R154 to R162) -/

@[simp] theorem quiet_discardEffects (h : Quiet s t) (q : QEntry) (x : Option Slot) :
    Quiet s (t.discardEffects q x) := by
  cases q
  case line => exact quiet_reportFault (quiet_noteDiscard h _) _
  case commit => exact quiet_reportFault (quiet_lostCommit (quiet_noteDiscard h _) _) _

theorem quiet_discardStuck (n : Nat) (h : Quiet s t) : Quiet s (t.discardStuck n) := by
  induction n generalizing t with
  | zero => exact h
  | succ n ih =>
    unfold State.discardStuck
    refine quiet_ite ?_ h
    split
    · exact ih (quiet_discardEffects (quiet_dropHead h) _ _)
    · exact h

theorem quiet_discardAll (h : Quiet s t) : Quiet s t.discardAll := by
  unfold State.discardAll
  refine quiet_foldl (fun h q => quiet_discardEffects h q none) _ ?_
  exact quiet_queue h (List.length_filter_le _ _).trans

@[simp] theorem quiet_drainOutcome (h : Quiet s t) (x : Slot) (res : ProgResult) : Quiet s (t.drainOutcome x res) := by
  have hdrop := quiet_dropHead h
  have hfailed := fun b n res => quiet_dropHead (quiet_failedProgram h b n res)
  unfold State.drainOutcome
  split
  · cases res
    case pass => exact quiet_oweTailMark (quiet_blockPassed (quiet_programCompletion hdrop _ _ _) _) _ _
    all_goals exact quiet_oweTailMark (quiet_discardEffects (hfailed _ _ _) _ _) _ _
  · cases res
    case pass => exact quiet_oweTailMark (quiet_commitCompletion (quiet_blockPassed hdrop _) _ _ _ _) _ _
    all_goals exact quiet_oweTailMark (quiet_discardEffects (hfailed _ _ _) _ _) _ _
  · exact h

/-- The drain controller changes; sizes and canonical forms do not see it. -/
theorem tidy_drain (h : Tidy s t) (d : Drain) : Tidy s { t with drain := d } := { h with flash := h.flash }

theorem good_endDrain (s : State) (hm : s.mgmt.mode = .drain) : Good s s.endDrain := by
  unfold State.endDrain; dsimp only
  refine ⟨tidy_setMode (tidy_drain (Tidy.refl s) _) _, fun a => ?_⟩
  obtain ⟨m, hret⟩ := Option.isSome_iff_exists.mp (a.returns.mpr hm)
  have hworks := a.returnMode m hret
  have hstill := still_setMode (Quiet.refl { s with drain :=
    { s.drain with phase := .inactive, returnMode := none, releasePending := false } }).toStill (s.drain.returnMode.getD .run)
  have hmode : s.drain.returnMode.getD .run = m := by simp [hret]
  refine hstill.modesAgree (setMode_mode _ _) ?_ ?_ ?_ ?_ ?_ ?_
  · rcases hworks with rfl | rfl <;> simp [hmode]
  · rcases hworks with rfl | rfl <;> simp [hmode]
  · intro r hr; simp at hr
  · have hmount : s.mount.isSome = false := a.mount_none (by simp [hm])
    rcases hworks with rfl | rfl <;> simp [hmode, hmount]
  · intro hw
    have hwiping : s.Wiping := hstill.wipe hw
    simp [a.service_of_wiping hwiping] at hm
  · intro j hj
    have howner : j.owner = .manager := a.erase_of_ne (by simp [hm]) (by simp [hm]) hj
    simp [howner]

theorem good_reachDrained (s : State) (hm : s.mgmt.mode = .drain) : Good s s.reachDrained := by
  have hdrained : Good s ({ s with drain := { s.drain with phase := .drained } }.raise .drainDone) := by
    refine Good.trans ⟨tidy_drain (Tidy.refl s) _, fun a => ?_⟩ (quiet_raise (Quiet.refl _) _).good
    exact { a with phase := by simp [hm] }
  unfold State.reachDrained; dsimp only
  split_ifs
  · exact hdrained.trans (good_endDrain _ hm)
  · exact hdrained

theorem good_drainStep (s : State) : Good s s.drainStep := by
  unfold State.drainStep; dsimp only
  split_ifs with hd hw he he
  · have hq := quiet_discardAll (Quiet.refl s)
    exact hq.good.trans (good_reachDrained _ (hq.mode.trans hd.1))
  · exact (quiet_discardAll (Quiet.refl s)).good
  · have hq := quiet_discardStuck s.queue.entries.length (Quiet.refl s)
    exact hq.good.trans (good_reachDrained _ (hq.mode.trans hd.1))
  · exact (quiet_discardStuck _ (Quiet.refl s)).good
  · exact Good.refl s

@[simp] theorem quiet_drainCommands (h : Quiet s t) : Quiet s t.drainCommands := by
  unfold State.drainCommands
  split
  · exact quiet_wake (quiet_complete h _ _)
  · exact quiet_completeAppend h _ _
  all_goals exact h

theorem good_beginDrain (s : State) (hm : s.mgmt.mode = .run ∨ s.mgmt.mode = .readonly) : Good s s.beginDrain := by
  have hentered := still_setMode (Quiet.refl { s with drain :=
    { s.drain with phase := .draining, returnMode := some s.mgmt.mode, releasePending := false } }).toStill .drain
  have hcommands := quiet_drainCommands (Quiet.refl (State.setMode { s with drain :=
    { s.drain with phase := .draining, returnMode := some s.mgmt.mode, releasePending := false } } .drain))
  have hbegun : Quiet _ s.beginDrain := quiet_blocks hcommands id id
  have hstill := hentered.trans hbegun.toStill
  have hmode : s.beginDrain.mgmt.mode = .drain := hbegun.mode.trans (setMode_mode _ _)
  refine ⟨(tidy_drain (Tidy.refl s) _).trans hstill.toTidy, fun a => hstill.modesAgree hmode ?_ ?_ ?_ ?_ ?_ ?_⟩
  · simp
  · simp
  · intro r hr
    obtain rfl : s.mgmt.mode = r := by simpa using hr
    exact hm
  · have hmount : s.mount.isSome = false := a.mount_none (by rcases hm with h | h <;> simp [h])
    simp [hmount]
  · intro hw
    have hwiping : s.Wiping := hstill.wipe hw
    rcases hm with h | h <;> simp [a.service_of_wiping hwiping] at h
  · intro j hj
    have howner : j.owner = .manager :=
      a.erase_of_ne (by rcases hm with h | h <;> simp [h]) (by rcases hm with h | h <;> simp [h]) hj
    simp [howner]

/-! ### HALTED (R105, R160) -/

@[simp] theorem quiet_haltCommand (h : Quiet s t) : Quiet s t.haltCommand := by
  unfold State.haltCommand
  split
  · exact quiet_complete h _ _
  · exact quiet_wake (quiet_complete h _ _)
  · exact quiet_wake (quiet_complete h _ _)
  · exact quiet_completeAppend h _ _
  · exact quiet_complete h _ _
  all_goals exact h

theorem not_wiping_of_idle (h : t.activity = none) : ¬t.Wiping := by
  rintro ⟨step, cut, hc⟩
  simp [State.activity, hc] at h

theorem tidy_enterHalted (s : State) : Tidy s s.enterHalted :=
  (tidy_setMode (tidy_drain (Tidy.refl s) _) _).trans (quiet_haltCommand (Quiet.refl _)).toTidy

theorem modesAgree_enterHalted (s : State) (hmount : s.mount.isSome = false) (herase : s.array.erase = none) :
    s.enterHalted.ModesAgree := by
  have hstill := (still_setMode (Quiet.refl { s with drain :=
    { s.drain with phase := .inactive, returnMode := none, releasePending := false } }).toStill .halted).trans
      (quiet_haltCommand (Quiet.refl _)).toStill
  have hmode : s.enterHalted.mgmt.mode = .halted := (haltCommand_spec _).1.trans (setMode_mode _ _)
  refine hstill.modesAgree hmode (by simp) (by simp) (by simp) (by simp [hmount]) ?_ (by simp [herase])
  exact fun hw => absurd hw (not_wiping_of_idle (haltCommand_spec _).2.2)

theorem good_loseFlash (s : State) (block slot : Option Nat) : Good s (s.loseFlash block slot) := by
  have hquiet : Quiet s { s.reportFault { faultOf .flashLost with block := block, slot := slot } with
      array := { (s.reportFault { faultOf .flashLost with block := block, slot := slot }).array with
        op := none, erase := none } } :=
    quiet_array (quiet_reportFault (Quiet.refl s) _) id (by simp)
  unfold State.loseFlash; dsimp only
  split
  case h_1 => exact (quiet_mount hquiet (by simp)).good
  case h_6 => exact hquiet.good
  all_goals
    rename_i hm
    refine hquiet.good.trans ⟨tidy_enterHalted _, fun a => modesAgree_enterHalted _ (a.mount_none ?_) rfl⟩
    rw [hm]
    simp

/-! ### The entry to MOUNT (R134, R184, R185) -/

theorem windowUnit_reset_fits : WindowUnit.reset.Fits where
  windows := rfl
  register := rfl
  shadow := Nat.zero_le _
  lines := List.nodup_nil
  groups x hx := by
    obtain rfl : x = Window.idle := by simpa [WindowUnit.reset] using hx
    exact Window.Fits.of_idle (.inl rfl)

theorem good_enterMount_complete (s : State) (r : Ret) (bs : List Byte) : Good s (s.enterMount.complete r bs) where
  flash := rfl
  table _ := rfl
  blockTable _ := rfl
  reclaim _ := Nat.zero_le _
  timeouts _ := Nat.zero_le _
  windows _ := windowUnit_reset_fits
  queue _ := Nat.zero_le _
  health := id
  mgmt hm := ⟨hm.putData _, hm.2⟩
  agree _ :=
    { phase := by simp [State.enterMount, State.complete, State.raise, Drain.reset]
      returns := by simp [State.enterMount, State.complete, State.raise, Drain.reset]
      returnMode := by simp [State.enterMount, State.complete, State.raise, Drain.reset]
      mount := by simp [State.enterMount, State.complete, State.raise]
      wipe := by simp [State.complete]
      wipeErase := by simp [State.enterMount, State.complete, State.raise, ArrayPort.reset]
      mountErase := by simp [State.enterMount, State.complete, State.raise, ArrayPort.reset] }

theorem good_softReset (s : State) (r : Ret) : Good s (s.softReset r) := by
  have hcleared : Quiet s { s with mgmt := { s.mgmt with events := 0 } } :=
    quiet_mgmt (Quiet.refl s) id rfl fun _ _ => wiping_of_eq
  have hfreed := quiet_freeFault hcleared
  have hfits : s.health.Fits → Health.Fits { s.health.restart with arm := .none } := fun hx => ⟨Nat.zero_le _, hx.2⟩
  have hhealth := quiet_health hfreed hfits
  exact hhealth.good.trans (good_enterMount_complete _ r [])

/-! ### Mount (R134 to R152) -/

@[simp] theorem quiet_withMount (h : Quiet s t) (f : Mount → Mount) : Quiet s (t.withMount f) :=
  quiet_mount h (by simp)

theorem quiet_takeScan (h : Quiet s t) {m : Mount} (hm : t.mount = some m) (bs : List Byte) :
    Quiet s (t.takeScan m bs) := by
  have hread : Quiet s { t with mount := some (m.takeRead bs) } := quiet_mount h (by simp [hm])
  exact quiet_ite (quiet_reportFault hread _) hread

theorem Sparse.wf_foldl_set {α β : Type} [DecidableEq α] (d : α) (xs : List β) (k : β → Nat) (v : β → α) (m : Sparse α)
    (h : Sparse.wf d m = true) : Sparse.wf d (xs.foldl (fun t x => Sparse.set d t (k x) (v x)) m) = true := by
  induction xs generalizing m with
  | nil => exact h
  | cons x xs ih => exact ih _ (Sparse.wf_set d m (k x) (v x) h)

theorem wf_blockTable (m : Mount) : Sparse.wf BlockEntry.unknown m.blockTable = true :=
  Sparse.wf_foldl_set _ _ Prod.fst Prod.snd _ (Sparse.wf_foldl_set _ _ (·.block) m.classEntry [] rfl)

theorem wf_lostTable (m : Mount) : Sparse.wf BlockEntry.unknown m.lostTable = true :=
  Sparse.wf_foldl_set _ _ (·.block) m.lostEntry [] rfl

/-- A map of present values gives a map in canonical form. -/
theorem Sparse.wf_filterMap {α β : Type} [DecidableEq α] [DecidableEq β] (d : β) (f : α → β) (hf : ∀ x, f x ≠ d)
    (m : Sparse (Option α)) (h : Sparse.wf none m = true) :
    Sparse.wf d (m.filterMap fun c => c.2.map fun x => (c.1, f x)) = true := by
  induction m with
  | nil => rfl
  | cons e m ih =>
    obtain ⟨k, v⟩ := e
    obtain ⟨_, hk, hm⟩ := (Sparse.wf_cons none k v m).mp h
    cases v with
    | none => exact ih hm
    | some x =>
      refine (Sparse.wf_cons d k (f x) _).mpr ⟨hf x, fun c hc => ?_, ih hm⟩
      obtain ⟨e, he, hce⟩ := List.mem_filterMap.mp hc
      obtain ⟨y, _, rfl⟩ := Option.map_eq_some_iff.mp hce
      exact hk e he

theorem wf_mountTable (m : Mount) : Sparse.wf TableEntry.clear m.table = true := by
  refine Sparse.wf_filterMap _ _ (fun r hr => ?_) _ (wf_resolve _ _)
  simpa [loadEntry, TableEntry.clear] using congrArg TableEntry.current hr

@[simp] theorem quiet_installMount (h : Quiet s t) (m : Mount) : Quiet s (t.installMount m) := by
  have hend : ∀ u, Quiet s u → Quiet s { u with
      port := { u.port with exchange := m.settings.exchange }
      mgmt := { u.mgmt with
        settings := m.settings, nextSettingsSeq := m.nextSeq, nextSettingsSlot := m.nextSlot } } :=
    fun u hu => { hu with flash := hu.flash }
  have hblocks : ∀ b : BlockManager, Sparse.wf BlockEntry.unknown b.table = true → b.reclaimCounter = 0 →
      Quiet s { t with blocks := b } := fun b hb hr => quiet_blocks h (fun _ => hb) (fun _ => by omega)
  unfold State.installMount; dsimp only
  refine hend _ ?_
  split_ifs
  · exact hblocks _ (wf_lostTable m) rfl
  · refine quiet_windows (quiet_queue (quiet_table (hblocks { BlockManager.reset with
      table := m.blockTable, nextSeq := m.nextBlockSeq } (wf_blockTable m) rfl) fun _ => wf_mountTable m) fun _ => ?_)
      fun _ => ?_
    · exact Nat.zero_le _
    · exact { windowUnit_reset_fits with register := length_register m }

theorem tidy_setErase (s : State) (j : Option EraseJob) : Tidy s (s.setErase j) := { Tidy.refl s with flash := rfl }

theorem tidy_adoptHeldErase (s : State) : Tidy s s.adoptHeldErase := by
  unfold State.adoptHeldErase
  split
  · exact Tidy.refl s
  · exact (quiet_setBlock (Quiet.refl s) _ _).toTidy.trans (tidy_setErase _ _)

/-- A held erase is the block manager's from then on; what else the modes look at stays. -/
theorem adoptHeldErase_spec (s : State) : s.adoptHeldErase.drain = s.drain
    ∧ s.adoptHeldErase.mgmt = s.mgmt ∧ ∀ j, s.adoptHeldErase.array.erase = some j → j.owner = .manager := by
  unfold State.adoptHeldErase
  split
  case h_1 hnone => exact ⟨rfl, rfl, by simp [hnone]⟩
  case h_2 => exact ⟨rfl, rfl, fun j hj => by cases hj; rfl⟩

/-- Mount never chooses MOUNT or DRAIN, and works in RUN or READONLY (R152). -/
theorem chosenMode_cases (s : State) (m : Mount) : s.chosenMode m = .halted ∨ s.chosenMode m = .service
    ∨ s.chosenMode m = .readonly ∨ s.chosenMode m = .run := by
  unfold State.chosenMode; split_ifs <;> simp

theorem working_iff (m : Mode) : m.working = true ↔ m = .run ∨ m = .readonly := by
  cases m <;> simp [Mode.working]

theorem good_completeMount (s : State) (m : Mount) (hm : s.mgmt.mode = .mount) : Good s (s.completeMount m) := by
  have hinstalled := quiet_installMount (Quiet.refl s) m
  obtain ⟨hdrain, hmgmt, hmanager⟩ := adoptHeldErase_spec (s.installMount m)
  have hadopted := hinstalled.toTidy.trans (tidy_adoptHeldErase _)
  generalize hchosen : (s.installMount m).adoptHeldErase.chosenMode m = chosen
  have hcases := hchosen ▸ chosenMode_cases (s.installMount m).adoptHeldErase m
  generalize hbase : { (s.installMount m).adoptHeldErase with mount := none } = base
  have htidy : Tidy s base := by
    subst hbase
    exact { hadopted with flash := hadopted.flash }
  have hdrain' : base.drain.phase = s.drain.phase ∧ base.drain.returnMode = s.drain.returnMode := by
    subst hbase
    exact ⟨hdrain ▸ hinstalled.phase, hdrain ▸ hinstalled.returnMode⟩
  have hmount : base.mount = none := by subst hbase; rfl
  have hwipe : base.Wiping → s.Wiping := by
    subst hbase
    rintro ⟨step, cut, hc⟩
    exact hinstalled.wipe ⟨step, cut, by rw [← hmgmt]; exact hc⟩
  have herase : ∀ j, base.array.erase = some j → j.owner = .manager := by subst hbase; exact hmanager
  have hraised : Quiet base (if m.repairMade then (base.raise .mounted).raise .repaired else base.raise .mounted) :=
    quiet_ite (quiet_raise (quiet_raise (Quiet.refl base) _) _) (quiet_raise (Quiet.refl base) _)
  unfold State.completeMount; dsimp only
  rw [hchosen, hbase]
  generalize (if m.repairMade then (base.raise .mounted).raise .repaired else base.raise .mounted) = raised at hraised
  split_ifs with hpfw
  · have hstill := still_setMode hraised.toStill .drain
    refine ⟨htidy.trans (hstill.toTidy.trans ((tidy_drain (Tidy.refl _) _).trans (quiet_raise (Quiet.refl _) _).toTidy)),
      fun a => ?_⟩
    have hnowipe : ¬(raised.setMode .drain).Wiping := fun hw => by
      have hservice := a.service_of_wiping (hwipe (hstill.wipe hw))
      simp [hm] at hservice
    have howner : ∀ j, (raised.setMode .drain).array.erase = some j → j.owner = .manager := fun j hj => by
      obtain ⟨k, hk, ho, _⟩ := hstill.erase j hj
      exact ho.trans (herase k hk)
    exact {
      phase := by simp
      returns := by simp
      returnMode := fun r hr => by
        obtain rfl : chosen = r := by simpa using hr
        exact (working_iff _).mp hpfw.2
      mount := by simpa [hmount] using hstill.mount
      wipe := fun step cut hc => absurd ⟨step, cut, hc⟩ hnowipe
      wipeErase := fun j hj ho => by simp [howner j hj] at ho
      mountErase := fun j hj ho => by simp [howner j hj] at ho }
  · have hstill := still_setMode hraised.toStill chosen
    refine ⟨htidy.trans hstill.toTidy, fun a => hstill.modesAgree (setMode_mode _ _) ?_ ?_ ?_ ?_ ?_ ?_⟩
    · have hinactive : s.drain.phase = .inactive := a.phase.mpr (by simp [hm])
      rcases hcases with rfl | rfl | rfl | rfl <;> simp [hdrain'.1, hinactive]
    · have hreturn : ¬s.drain.returnMode.isSome = true := fun h => by simp [a.returns.mp h] at hm
      rw [hdrain'.2]
      rcases hcases with rfl | rfl | rfl | rfl <;> simpa using hreturn
    · rw [hdrain'.2]; exact a.returnMode
    · rcases hcases with rfl | rfl | rfl | rfl <;> simp [hmount]
    · intro hw
      have hservice := a.service_of_wiping (hwipe (hstill.wipe hw))
      simp [hm] at hservice
    · intro j hj
      simp [herase j hj]

theorem good_tryMount (s : State) : Good s s.tryMount := by
  unfold State.tryMount
  split
  case h_1 m hmode hmount =>
    split_ifs
    · refine (good_completeMount s m hmode).trans ?_
      exact (quiet_ite (quiet_haltCommand (Quiet.refl _)) (Quiet.refl _)).good
    · exact Good.refl s
  case h_2 => exact Good.refl s

/-! ### SERVICE (R183) -/

@[simp] theorem quiet_setErase_none (h : Quiet s t) : Quiet s (t.setErase none) := quiet_array h id (by simp)

@[simp] theorem quiet_discardRest (h : Quiet s t) : Quiet s t.discardRest := by
  unfold State.discardRest
  refine quiet_foldl (fun h q => ?_) _ (quiet_queue h fun _ => Nat.zero_le _)
  cases q
  case line => exact quiet_reportFault h _
  case commit => exact quiet_reportFault (quiet_lostCommit h _) _

theorem good_enterService (s : State) (discarded : Bool) (hm : s.mgmt.mode.working = true) :
    Good s (s.enterService discarded) := by
  have hcleared := quiet_setErase_none (quiet_discardRest (Quiet.refl s))
  have hstill := (still_setMode hcleared.toStill .service).trans (quiet_complete (Quiet.refl _)
    (if discarded || s.marksRemain then .media else .done) []).toStill
  have hworks := (working_iff _).mp hm
  have hne : s.mgmt.mode ≠ .drain ∧ s.mgmt.mode ≠ .mount := by rcases hworks with h | h <;> simp [h]
  refine ⟨hstill.toTidy, fun a => hstill.modesAgree (setMode_mode _ _) ?_ ?_ a.returnMode ?_ ?_ ?_⟩
  · simp [a.phase, hne.1]
  · simp [a.returns, hne.1]
  · simp [a.mount_none hne.2]
  · exact fun hw => absurd hw (not_wiping_of_idle rfl)
  · intro j hj
    have howner := a.erase_of_ne (by rcases hworks with h | h <;> simp [h]) hne.2 hj
    simp [howner]

theorem good_tryService (s : State) : Good s s.tryService := by
  unfold State.tryService
  split
  · split_ifs with hc
    · exact good_enterService s _ hc.1
    · exact Good.refl s
  all_goals exact Good.refl s

theorem good_trySoftReset (s : State) : Good s s.trySoftReset := by
  unfold State.trySoftReset
  split
  · split
    · exact good_softReset s _
    · exact Good.refl s
  all_goals exact Good.refl s

end

end Sys2Proof.Machine
end

section
/-! Erases, the arbiter and what follows an event keep the sizes, the canonical forms and the agreement of the modes. -/

namespace Sys2Proof.Machine

section
variable {s t : State}

/-! ### Erases (R88, R89, R99 to R101, R138, R139, R148, R186) -/

/-- The erase in hand is changed, its owner and its block are not. -/
theorem quiet_setErase (h : Quiet s t) {j k : EraseJob} (hj : t.Erases j) (howner : k.owner = j.owner)
    (hblock : k.block = j.block) : Quiet s (t.setErase (some k)) :=
  quiet_array h id fun l hl => by
    cases hl
    obtain ⟨i, hi, ho, hb⟩ := hj
    exact ⟨i, hi, howner.trans ho, hblock.trans hb⟩

theorem erases_of_array_eq (h : t.array.erase = s.array.erase) {j : EraseJob} (hj : s.Erases j) : t.Erases j := by
  obtain ⟨k, hk, hob⟩ := hj
  exact ⟨k, h.trans hk, hob⟩

@[simp] theorem quiet_opEnded (h : Quiet s t) : Quiet s t.opEnded :=
  quiet_array h (fun _ => Nat.zero_le _) fun _ hj => State.erases_of_eq hj

@[simp] theorem quiet_eraseEnded (h : Quiet s t) : Quiet s t.eraseEnded :=
  quiet_array h (fun _ => Nat.zero_le _) fun _ hj => State.erases_of_eq hj

@[simp] theorem quiet_endReclaim (h : Quiet s t) (b : Nat) : Quiet s (t.endReclaim b) := by
  unfold State.endReclaim
  refine quiet_ite (quiet_passTurn ?_ _) h
  exact quiet_blocks h id id

@[simp] theorem quiet_reportRetired (h : Quiet s t) (b : Nat) : Quiet s (t.reportRetired b) :=
  quiet_reportFault (quiet_raise h _) _

theorem quiet_eraseSucceeded (h : Quiet s t) (j : EraseJob) : Quiet s (t.eraseSucceeded j) := by
  have hended := quiet_setErase_none (quiet_eraseEnded h)
  unfold State.eraseSucceeded; dsimp only
  split
  · exact quiet_endReclaim (quiet_setBlock hended _ _) _
  · exact quiet_withMount hended _
  · exact quiet_setBlock hended _ _

@[simp] theorem quiet_retireErased (h : Quiet s t) (j : EraseJob) : Quiet s (t.retireErased j) := by
  have hended := quiet_setErase_none h
  unfold State.retireErased; dsimp only
  refine quiet_reportRetired ?_ _
  split
  · exact quiet_endReclaim (quiet_setBlock hended _ _) _
  · exact quiet_setBlock hended _ _
  · exact quiet_withMount hended _

theorem quiet_thirdFailure (h : Quiet s t) {j : EraseJob} (hj : t.Erases j) (mark : Option Bool) :
    Quiet s (t.thirdFailure j mark) := by
  unfold State.thirdFailure; dsimp only
  refine quiet_ite (quiet_retireErased h _) ?_
  split
  · exact quiet_setErase h hj rfl rfl
  · exact quiet_retireErased h _
  · exact quiet_setErase h hj rfl rfl

theorem lasting_block0Lost (s : State) {j : EraseJob} (hj : s.Erases j) : Lasting s (s.block0Lost j) := by
  have hended := quiet_setErase_none (Quiet.refl s)
  obtain ⟨k, hk, howner, _⟩ := hj
  unfold State.block0Lost; dsimp only
  split
  case h_1 => exact (quiet_withMount hended _).lasting
  case h_3 => exact hended.lasting
  case h_2 ho =>
    split_ifs
    · exact hended.lasting
    · have hnone : (s.setErase none).enterHalted.array.erase = none :=
        congrArg ArrayPort.erase (enterHalted_spec (s.setErase none)).2.1
      refine Good.lasting ⟨hended.toTidy.trans (tidy_enterHalted _), fun a => ?_⟩ hnone
      refine modesAgree_enterHalted _ (a.mount_none ?_) rfl
      rw [a.wipeErase k hk (howner ▸ ho)]
      simp

@[simp] theorem quiet_eraseTurn (h : Quiet s t) (j : EraseJob) : Quiet s (t.eraseTurn j) := by
  unfold State.eraseTurn; split <;> simp [h]

theorem lasting_countFailure (s : State) {j : EraseJob} (hj : s.Erases j) (mark : Option Bool) :
    Lasting s (s.countFailure j mark) := by
  have hrefl := Quiet.refl s
  unfold State.countFailure
  split_ifs
  · exact Quiet.lasting (quiet_setErase hrefl hj rfl rfl)
  · have hnext : Quiet s (s.setErase (some (j.again (j.attempts + 1)))) := quiet_setErase hrefl hj rfl rfl
    exact (quiet_eraseTurn hnext j).lasting
  · exact lasting_block0Lost s hj
  · exact (quiet_thirdFailure hrefl hj mark).lasting

theorem lasting_attemptFailed (s : State) {j : EraseJob} (hj : s.Erases j) (mark : Option Bool) :
    Lasting s (s.attemptFailed j mark) :=
  (quiet_report (Quiet.refl s) _).lasting.trans
    (lasting_countFailure _ (erases_of_array_eq (by rw [report_array]) hj) mark)

theorem quiet_afterBlankCheck (h : Quiet s t) {j : EraseJob} (hj : t.Erases j) : Quiet s (t.afterBlankCheck j) :=
  quiet_ite (quiet_setErase (quiet_eraseEnded h) hj rfl rfl) (quiet_ite (quiet_setErase h hj rfl rfl) (quiet_setErase h hj rfl rfl))

theorem lasting_blankCheckEnded (s : State) {j : EraseJob} (hj : s.Erases j) (received : Upset) :
    Lasting s (s.blankCheckEnded j received) := by
  have hended := quiet_eraseEnded (Quiet.refl s)
  have hdisarmed := quiet_eraseEnded (quiet_disarm (Quiet.refl s))
  unfold State.blankCheckEnded; dsimp only
  split_ifs
  · exact hdisarmed.lasting.trans (lasting_attemptFailed s.disarm.eraseEnded (erases_of_array_eq rfl hj) _)
  · exact (quiet_afterBlankCheck (Quiet.refl s) hj).lasting
  · exact hended.lasting.trans (lasting_attemptFailed s.eraseEnded (erases_of_array_eq rfl hj) _)

theorem quiet_markAreaRead (h : Quiet s t) {j : EraseJob} (hj : t.Erases j) (bs : List Byte) :
    Quiet s (t.markAreaRead j bs) := quiet_ite (quiet_setErase h hj rfl rfl) (quiet_retireErased h j)

theorem quiet_eraseMarkOutcome (h : Quiet s t) (j : EraseJob) (res : ProgResult) : Quiet s (t.eraseMarkOutcome j res) :=
  quiet_retireErased (quiet_ite (quiet_report h _) h) j

theorem quiet_useSlotOne (h : Quiet s t) (j : EraseJob) : Quiet s (t.useSlotOne j) := quiet_ite (quiet_withMount h _) h

theorem useSlotOne_array (s : State) (j : EraseJob) : (s.useSlotOne j).array = s.array := by
  unfold State.useSlotOne; split_ifs <;> rfl

theorem lasting_block0Outcome (s : State) {j : EraseJob} (hj : s.Erases j) (res : ProgResult) :
    Lasting s (s.block0Outcome j res) := by
  have hslot := quiet_useSlotOne (Quiet.refl s) j
  have hslotErases : (s.useSlotOne j).Erases j := erases_of_array_eq (by rw [useSlotOne_array]) hj
  have hended := quiet_setErase_none (Quiet.refl s)
  unfold State.block0Outcome
  cases res
  case fail =>
    refine (quiet_report hslot .program).lasting.trans (lasting_countFailure _ ?_ none)
    exact erases_of_array_eq (by rw [report_array]) hslotErases
  case timeout => exact hslot.lasting.trans (lasting_countFailure _ hslotErases none)
  case pass =>
    dsimp only
    split
    · exact Quiet.lasting (quiet_setErase (Quiet.refl s) hj rfl rfl)
    all_goals
      split
      · exact (quiet_withMount hended _).lasting
      · split_ifs
        · exact hended.lasting
        · exact (hended.good.trans (good_enterMount_complete _ _ _)).lasting rfl
      · exact hended.lasting

theorem quiet_virginHeaderOutcome (h : Quiet s t) (b : Nat) (res : ProgResult) :
    Quiet s (t.virginHeaderOutcome b res) := by
  unfold State.virginHeaderOutcome; split <;> simp [h]

/-! ### Requests and grants (R97, R98) -/

theorem quiet_startErase (h : Quiet s t) {j : EraseJob} (hj : t.Erases j) : Quiet s (t.startErase j) :=
  quiet_setErase h hj rfl rfl

/-- An erase begins for an owner that may have one in the mode. -/
theorem good_setErase (h : Quiet s t) (j : EraseJob) (hw : j.owner = .wipe → t.mgmt.mode = .service)
    (hm : j.owner = .mount → t.mgmt.mode = .mount) : Good s (t.setErase (some j)) := by
  refine h.good.trans ⟨tidy_setErase t _, fun a => { a with wipeErase := ?_, mountErase := ?_ }⟩
  · intro k hk
    cases hk
    exact hw
  · intro k hk
    cases hk
    exact hm

theorem quiet_grantRead {u : State} (hu : s.grantRead = some u) : Quiet s u := by
  obtain ⟨q, _, rfl⟩ := Option.map_eq_some_iff.mp hu
  exact quiet_startOp (Quiet.refl s) _ _ _ _ _

theorem quiet_eraseRequest (h : Quiet s t) {j : EraseJob} (hj : t.Erases j) {u : State}
    (hu : t.eraseRequest j = some u) : Quiet s u := by
  unfold State.eraseRequest at hu
  split at hu
  all_goals (try split_ifs at hu)
  all_goals (try cases hu)
  all_goals first
    | exact quiet_startErase h hj
    | exact quiet_startOp h _ _ _ _ _

theorem good_startRepair (s : State) {m : Mount} (hm : s.mgmt.mode = .mount) (hs : s.mount = some m) (r : Repair)
    (rest : List Repair) : Good s (s.startRepair m r rest) := by
  have hmount : ∀ n : Mount, Quiet s { s with mount := some n } := fun n => quiet_mount (Quiet.refl s) (by simp [hs])
  unfold State.startRepair
  split
  · exact (quiet_startOp (hmount _) _ _ _ _ _).good
  · exact good_setErase (hmount _) _ (by simp [newErase]) fun _ => hm
  · exact (quiet_startOp (hmount _) _ _ _ _ _).good
  · exact good_setErase (quiet_startOp (hmount _) _ _ _ _ _) _ (by simp [virginBlock0, newErase]) fun _ => hm
  · exact good_setErase (hmount _) _ (by simp [newErase]) fun _ => hm

theorem good_repairRequest {m : Mount} (hm : s.mgmt.mode = .mount) (hs : s.mount = some m) {u : State}
    (hu : s.repairRequest m = some u) : Good s u := by
  unfold State.repairRequest at hu
  split at hu
  case h_1 j hj =>
    split_ifs at hu
    have hnoted : Quiet s (s.noteRepair j) := quiet_ite (quiet_withMount (Quiet.refl s) _) (Quiet.refl s)
    refine (quiet_eraseRequest hnoted (State.erases_of_eq ?_) hu).good
    unfold State.noteRepair
    split_ifs <;> exact hj
  case h_2 =>
    split_ifs at hu
    split at hu
    · cases hu
    · cases hu
      exact good_startRepair s hm hs _ _

theorem good_mountRequest (hm : s.mgmt.mode = .mount) {u : State} (hu : s.mountRequest = some u) : Good s u := by
  unfold State.mountRequest at hu
  split_ifs at hu
  split at hu
  · cases hu
  case h_2 m hs =>
    split at hu
    · cases hu
      exact (quiet_startOp (Quiet.refl s) _ _ _ _ _).good
    · split_ifs at hu
      exact good_repairRequest hm hs hu

theorem quiet_copyRequest {k : JobKind} {u : State} (hu : s.copyRequest k = some u) : Quiet s u := by
  unfold State.copyRequest at hu
  split at hu
  · cases hu
  · split at hu <;> split_ifs at hu <;> cases hu
    · exact quiet_issueCopy (Quiet.refl s) _ _
    · exact quiet_startOpening (Quiet.refl s) _

theorem quiet_jobRequest {k : JobKind} {u : State} (hu : s.jobRequest k = some u) : Quiet s u := by
  unfold State.jobRequest at hu
  split at hu
  · split_ifs at hu
    exact quiet_copyRequest hu
  · obtain ⟨x, _, rfl⟩ := Option.map_eq_some_iff.mp hu
    exact quiet_startRelocRead (Quiet.refl s) _ _

/-- Of two requests in rank order one is granted. -/
theorem of_orElse {P : State → Prop} {a b : Option State} (ha : ∀ u, a = some u → P u) (hb : ∀ u, b = some u → P u)
    (u : State) (hu : (a <|> b) = some u) : P u := by
  cases a with
  | none => exact hb u hu
  | some v => exact ha u hu

theorem quiet_retirementRequest (u : State) (hu : s.retirementRequest = some u) : Quiet s u := by
  unfold State.retirementRequest State.retireMarkRequest at hu
  split_ifs at hu
  · exact quiet_jobRequest hu
  · refine of_orElse (fun v hv => ?_) (fun v hv => quiet_jobRequest hv) u hu
    obtain ⟨b, _, rfl⟩ := Option.map_eq_some_iff.mp hv
    exact quiet_startRetireMark (Quiet.refl s) b

theorem quiet_releaseRequestAt {p : Bool} (u : State) (hu : s.releaseRequestAt p = some u) : Quiet s u := by
  unfold State.releaseRequestAt at hu
  split at hu
  · split_ifs at hu
    exact quiet_jobRequest hu
  · cases hu

theorem quiet_reclaimRequest (u : State) (hu : s.reclaimRequest = some u) : Quiet s u := by
  unfold State.reclaimRequest at hu
  split at hu
  case h_1 j hj =>
    split_ifs at hu
    exact quiet_eraseRequest (Quiet.refl s) (State.erases_of_eq hj) hu
  case h_2 =>
    split_ifs at hu
    exact quiet_jobRequest hu

theorem quiet_tailRequest {n : Nat} (u : State) (hu : s.tailRequest n = some u) : Quiet s u := by
  unfold State.tailRequest at hu
  split at hu
  · split_ifs at hu
    cases hu
    exact quiet_startTailMark (Quiet.refl s)
  · cases hu

theorem quiet_headRequest {p : Purpose} {r : Requester} (u : State) (hu : s.headRequest p r = some u) : Quiet s u := by
  unfold State.headRequest at hu
  split at hu
  · cases hu
  · split at hu
    · cases hu
      exact quiet_issueHead (Quiet.refl s) _ _
    · split_ifs at hu
      cases hu
      exact quiet_startOpening (Quiet.refl s) _

theorem quiet_drainOpeningRequest (u : State) (hu : s.drainOpeningRequest = some u) : Quiet s u := by
  unfold State.drainOpeningRequest at hu
  split_ifs at hu
  cases hu
  exact quiet_startOpening (Quiet.refl s) _

theorem quiet_rankFive (u : State) (hu : s.rankFive = some u) : Quiet s u := by
  refine of_orElse quiet_tailRequest (fun v hv => ?_) u hu
  split_ifs at hv
  · exact of_orElse quiet_releaseRequestAt quiet_reclaimRequest v hv
  · exact of_orElse quiet_reclaimRequest quiet_releaseRequestAt v hv

theorem quiet_settingsRequest (u : State) (hu : s.settingsRequest = some u) : Quiet s u := by
  unfold State.settingsRequest at hu
  split at hu
  · split_ifs at hu
    cases hu
    exact quiet_startAppend (Quiet.refl s) _ _
  all_goals cases hu

theorem quiet_queueRequest (u : State) (hu : s.queueRequest = some u) : Quiet s u :=
  of_orElse quiet_tailRequest quiet_headRequest u hu

theorem quiet_workingRequest (u : State) (hu : s.workingRequest = some u) : Quiet s u := by
  unfold State.workingRequest at hu
  split_ifs at hu
  all_goals
    refine of_orElse (of_orElse quiet_tailRequest (of_orElse quiet_retirementRequest quiet_releaseRequestAt))
      (of_orElse (fun v hv => ?_) (of_orElse quiet_drainOpeningRequest (of_orElse ?_ quiet_settingsRequest))) u hu
    · split at hv
      · exact quiet_tailRequest v hv
      all_goals cases hv
  · exact of_orElse quiet_queueRequest quiet_rankFive
  · exact of_orElse quiet_rankFive quiet_queueRequest

theorem quiet_drainRequest (u : State) (hu : s.drainRequest = some u) : Quiet s u := by
  refine of_orElse quiet_tailRequest (of_orElse quiet_drainOpeningRequest fun v hv => ?_) u hu
  split_ifs at hv
  exact quiet_headRequest v hv

theorem good_wipeRequest (hm : s.mgmt.mode = .service) (u : State) (hu : s.wipeRequest = some u) : Good s u := by
  unfold State.wipeRequest at hu
  split at hu
  case h_1 step hc =>
    have hhold : ∀ x, Quiet s (s.hold (.wipe x false)) := fun x =>
      quiet_hold (Quiet.refl s) _ fun _ _ _ => ⟨step, false, hc⟩
    split at hu
    case h_1 j hj =>
      split_ifs at hu
      exact (quiet_eraseRequest (Quiet.refl s) (State.erases_of_eq hj) hu).good
    case h_2 =>
      unfold State.nextFormat at hu
      split at hu
      · split at hu
        · split_ifs at hu
          cases hu
          exact good_setErase (hhold _) _ (fun _ => hm) (by simp [newErase])
        · cases hu
          exact (quiet_startOp (hhold _) _ _ _ _ _).good
      · cases hu
        exact (quiet_startOp (Quiet.refl s) _ _ _ _ _).good
      · cases hu
  all_goals cases hu

theorem good_arbiterChoice (u : State) (hu : s.arbiterChoice = some u) : Good s u := by
  have hread : ∀ v, s.grantRead = some v → Quiet s v := fun v hv => quiet_grantRead hv
  unfold State.arbiterChoice at hu
  split at hu
  case h_1 hm => exact good_mountRequest hm hu
  case h_2 | h_3 => exact (of_orElse hread quiet_workingRequest u hu).good
  case h_4 => exact (of_orElse hread quiet_drainRequest u hu).good
  case h_5 hm => exact good_wipeRequest hm u hu
  case h_6 => cases hu

theorem quiet_grantRead_getD (s : State) : Quiet s (s.grantRead.getD s) := by
  cases hu : s.grantRead with
  | none => exact Quiet.refl s
  | some u => exact quiet_grantRead hu

theorem good_grant (s : State) : Good s s.grant := by
  unfold State.grant
  split_ifs
  · exact Good.refl s
  · split
    · exact (quiet_ite (quiet_grantRead_getD s) (Quiet.refl s)).good
    · exact Good.refl s
  · cases hu : s.arbiterChoice with
    | none => exact Good.refl s
    | some u => exact good_arbiterChoice u hu

/-- An erase that has the flash lets rank-1 reads be granted only (R97, R100). -/
theorem quiet_grant_of_busy (s : State) (h : s.eraseBusy = true) : Quiet s s.grant := by
  unfold State.grant
  rw [if_pos h]
  refine quiet_ite (Quiet.refl s) ?_
  split
  · exact quiet_ite (quiet_grantRead_getD s) (Quiet.refl s)
  · exact Quiet.refl s

theorem quiet_readTimedOut (s : State) (o : Op) : Quiet s (s.readTimedOut o) := by
  unfold State.readTimedOut
  split
  case h_1 j hj =>
    split_ifs with hc
    · exact quiet_grant_of_busy s (by simp [State.eraseBusy, hj, hc.1, ErasePart.busy])
    · exact Quiet.refl s
  case h_2 => exact Quiet.refl s

theorem quiet_pieceTimedOut (s : State) (o : Op) (i : Nat) : Quiet s (s.pieceTimedOut o i) :=
  quiet_ite (quiet_losePiece (Quiet.refl s) i) (quiet_readTimedOut s o)

/-- The requester of an operation takes its outcome (R104). -/
theorem lasting_takeOutcome (s : State) (o : Op) (res : ProgResult) : Lasting s (s.takeOutcome o res) := by
  have hrefl := Quiet.refl s
  unfold State.takeOutcome
  split
  · exact (quiet_queueOutcome hrefl _ _).lasting
  · exact (quiet_drainOutcome hrefl _ _).lasting
  · exact (quiet_copyOutcome hrefl _ _ _).lasting
  · exact (quiet_openingOutcome hrefl _ _).lasting
  · exact (quiet_tailOutcome hrefl _ _).lasting
  · exact (quiet_retireMarkOutcome hrefl _ _).lasting
  · split
    · exact (quiet_eraseMarkOutcome hrefl _ _).lasting
    · exact hrefl.lasting
  · split
    · exact (quiet_appendOutcome hrefl _ _ _).lasting
    all_goals exact hrefl.lasting
  · exact (quiet_virginHeaderOutcome hrefl _ _).lasting
  · exact (quiet_ite (quiet_report hrefl _) hrefl).lasting
  · split
    case h_1 j hj => exact lasting_block0Outcome s (State.erases_of_eq hj) res
    case h_2 => exact hrefl.lasting
  · split
    case h_1 j hj => exact lasting_block0Outcome s (State.erases_of_eq hj) res
    case h_2 => exact hrefl.lasting
  · exact (quiet_ite (quiet_pieceTimedOut s o _) hrefl).lasting
  · exact (quiet_ite (quiet_readTimedOut s o) hrefl).lasting
  · exact hrefl.lasting
  · exact hrefl.lasting
  · exact hrefl.lasting
  · exact (quiet_ite (quiet_setCopy hrefl _ _) hrefl).lasting

/-! ### What follows an event (log 13) -/

theorem good_startReclaimErase (s : State) : Good s s.startReclaimErase := by
  unfold State.startReclaimErase
  split
  case h_1 b hb hnone =>
    dsimp only
    split_ifs
    · have hblock := quiet_setBlock (Quiet.refl s) b { s.block b with state := .erasing, nextFree := 0 }
      split
      · exact good_setErase (quiet_ite (quiet_setCopy hblock _ _) hblock) _ (by simp [newErase]) (by simp [newErase])
      · exact good_setErase hblock _ (by simp [newErase]) (by simp [newErase])
    · exact Good.refl s
  all_goals exact Good.refl s

theorem quiet_releaseHeader (h : Quiet s t) : Quiet s t.releaseHeader := by
  unfold State.releaseHeader
  split
  · exact h
  case h_2 j hj => exact quiet_ite (quiet_setErase h (State.erases_of_eq hj) rfl rfl) h

theorem react_owner_block (j : EraseJob) (waits : Bool) : (j.react waits).owner = j.owner
    ∧ (j.react waits).block = j.block := by
  unfold EraseJob.react
  split
  · split_ifs <;> exact ⟨rfl, rfl⟩
  · split_ifs <;> exact ⟨rfl, rfl⟩
  all_goals exact ⟨rfl, rfl⟩

theorem quiet_settleErase (h : Quiet s t) : Quiet s t.settleErase := by
  unfold State.settleErase
  split
  · exact h
  case h_2 j hj =>
    refine quiet_ite h (quiet_setErase h (State.erases_of_eq hj) ?_ ?_)
    · exact (react_owner_block j _).1
    · exact (react_owner_block j _).2

theorem quiet_skipErase (h : Quiet s t) (j : EraseJob) : Quiet s (t.skipErase j) := by
  have hended := quiet_setErase_none h
  unfold State.skipErase
  split
  · exact quiet_ite hended (quiet_withMount hended _)
  · exact hended
  · exact hended
  · exact quiet_retireErased h j
  all_goals exact h

theorem quiet_skipRepairs (h : Quiet s t) : Quiet s t.skipRepairs := by
  unfold State.skipRepairs
  split
  · exact h
  · refine quiet_ite ?_ h
    split
    · exact quiet_withMount h _
    · have hskip := quiet_skipErase h
      dsimp only
      split
      · exact quiet_withMount (hskip _) _
      · exact quiet_ite (quiet_withMount (hskip _) _) (hskip _)

theorem quiet_settleCut (h : Quiet s t) : Quiet s t.settleCut := by
  unfold State.settleCut
  split
  case h_1 =>
    refine quiet_ite (quiet_complete ?_ _ _) h
    split
    · exact h
    · exact quiet_ite (quiet_retireErased h _) (quiet_setErase_none h)
  all_goals exact h

theorem quiet_settleSpace (h : Quiet s t) : Quiet s t.settleSpace := by
  unfold State.settleSpace; dsimp only
  refine quiet_edge ?_ _ _ _ _
  exact quiet_mgmt h id rfl fun _ _ => wiping_of_eq

theorem good_settleRound (s : State) : Good s s.settleRound :=
  ((good_degrade s).trans (quiet_settleGroups (Quiet.refl _)).good).trans
    ((good_drainStep _).trans (quiet_portStep (Quiet.refl _)).good)

theorem good_settle (s : State) : Good s s.settle := by
  have htail : Quiet s.settleRound.settleRound.startReclaimErase s.settle :=
    quiet_settleSpace (quiet_settleCut (quiet_skipRepairs (quiet_settleErase (quiet_releaseHeader
      (quiet_updateRelease (Quiet.refl _))))))
  exact ((good_settleRound s).trans (good_settleRound _)).trans ((good_startReclaimErase _).trans htail.good)

end

end Sys2Proof.Machine
end

section
/-! The invariants of every step: the flash changes only where an operation works, canonical forms, sizes and the agreement
of the modes are kept (R19 to R21, R35, R74, R109, R134, R148, R153, R186). -/

namespace Sys2Proof.Machine

/-! ### What an operation may make of the flash (R19 to R21, R95) -/

/-- Address `a` lies in no area of a program in flight and in no block of an erase in hand. -/
def State.Untouched (s : State) (a : Nat) : Prop :=
  (∀ o, s.array.op = some o → o.purpose.isProgram = true →
      a < flashAddr o.block o.offset ∨ flashAddr o.block o.offset + o.bytes.length ≤ a)
    ∧ ∀ j, s.array.erase = some j → a < blockBase j.block ∨ blockBase j.block + Config.blockBytes ≤ a

/-- The flash may be left as `f` by the operation in flight and the erase in hand. -/
def State.MayLeave (s : State) (f : List Host.Cell) : Prop :=
  Memory.wf s.flash = true → Memory.wf f = true ∧ ∀ a, s.Untouched a → flashByte f a = flashByte s.flash a

/-- One event: the flash is left as the operations in hand may leave it, what else changes is good. -/
def State.Works (s t : State) : Prop := ∃ f, s.MayLeave f ∧ Good { s with flash := f } t

section
variable {s t : State}

theorem mayLeave_same (s : State) : s.MayLeave s.flash := fun h => ⟨h, fun _ _ => rfl⟩

theorem good_ite {c : Prop} [Decidable c] {u : State} (ht : Good s t) (hu : Good s u) :
    Good s (if c then t else u) := by
  split_ifs <;> assumption

theorem Good.works (h : Good s t) : s.Works t := ⟨s.flash, mayLeave_same s, h⟩

theorem State.Works.trans_good {u : State} (h : s.Works t) (k : Good t u) : s.Works u := by
  obtain ⟨f, hf, hg⟩ := h
  exact ⟨f, hf, hg.trans k⟩

theorem length_overlay (bs : List Byte) (u : Upset) : (overlay bs u).length = bs.length := by
  suffices h : ∀ i, (overlayFrom u i bs).length = bs.length from h 0
  induction bs with
  | nil => intro i; rfl
  | cons b bs ih => intro i; simp [overlayFrom, ih]

theorem flashByte_leaveProgram_outside (f : List Host.Cell) (b o : Nat) (bs : List Byte) (left : Remnant) (a : Nat)
    (ha : a < flashAddr b o ∨ flashAddr b o + bs.length ≤ a) (h : Memory.wf f = true) :
    flashByte (leaveProgram f b o bs left) a = flashByte f a := by
  cases left with
  | untouched => rfl
  | whole => exact flashByte_flashWrite_outside f _ bs a ha h
  | partly cells =>
    refine flashByte_flashPatch_outside f b o bs.length cells a ?_ h
    simp only [flashAddr] at *
    omega

theorem flashByte_flashErase_outside (f : List Host.Cell) (b a : Nat)
    (ha : a < blockBase b ∨ blockBase b + Config.blockBytes ≤ a) : flashByte (flashErase f b) a = flashByte f a := by
  rw [flashByte_flashErase, if_neg (by omega)]

theorem flashByte_leaveErase_outside (f : List Host.Cell) (b : Nat) (left : Remnant) (a : Nat)
    (ha : a < blockBase b ∨ blockBase b + Config.blockBytes ≤ a) (h : Memory.wf f = true) :
    flashByte (leaveErase f b left) a = flashByte f a := by
  cases left with
  | untouched => rfl
  | whole => exact flashByte_flashErase_outside f b a ha
  | partly cells =>
    refine flashByte_flashPatch_outside f b 0 _ _ a ?_ h
    simp only [flashAddr] at *
    omega

theorem length_withCheck (bs : List Byte) : (withCheck bs).length = bs.length + 4 := by
  simp [withCheck, le]

theorem length_headerBytes (j : EraseJob) : j.headerBytes.length = 16 := by
  simp [EraseJob.headerBytes, firstPart, length_withCheck, headerMarker, le]

/-- What an erase that was not completed leaves lies in its block. -/
theorem leaveJob_spec (s : State) (j : EraseJob) (left : Remnant) (h : Memory.wf s.flash = true) :
    Memory.wf (s.leaveJob j left) = true ∧ ∀ a, a < blockBase j.block ∨ blockBase j.block + Config.blockBytes ≤ a →
      flashByte (s.leaveJob j left) a = flashByte s.flash a := by
  have hsame : Memory.wf s.flash = true ∧ ∀ a, a < blockBase j.block ∨ blockBase j.block + Config.blockBytes ≤ a →
      flashByte s.flash a = flashByte s.flash a := ⟨h, fun _ _ => rfl⟩
  have herase : Memory.wf (leaveErase s.flash j.block left) = true ∧
      ∀ a, a < blockBase j.block ∨ blockBase j.block + Config.blockBytes ≤ a →
        flashByte (leaveErase s.flash j.block left) a = flashByte s.flash a :=
    ⟨wf_leaveErase _ _ _ h, fun a ha => flashByte_leaveErase_outside _ _ _ a ha h⟩
  unfold State.leaveJob
  split
  · split_ifs <;> assumption
  · exact herase
  · exact herase
  · split_ifs
    · exact hsame
    · refine ⟨wf_leaveProgram _ _ _ _ _ h, fun a ha => flashByte_leaveProgram_outside _ _ _ _ _ a ?_ h⟩
      rw [length_headerBytes]
      simp only [flashAddr, Config.blockBytes] at *
      omega
  all_goals exact hsame

theorem mayLeave_leaveOp {o : Op} (ho : s.array.op = some o) (left : Remnant) : s.MayLeave (s.leaveOp o left) := by
  unfold State.leaveOp
  split_ifs with hc
  · rw [Bool.and_eq_true] at hc
    exact fun h => ⟨wf_leaveProgram _ _ _ _ _ h, fun a ha =>
      flashByte_leaveProgram_outside _ _ _ _ _ a (ha.1 o ho hc.1) h⟩
  · exact mayLeave_same s

theorem mayLeave_leaveJob {j : EraseJob} (hj : s.array.erase = some j) (left : Remnant) :
    s.MayLeave (s.leaveJob j left) := fun h => by
  obtain ⟨hwf, hbyte⟩ := leaveJob_spec s j left h
  exact ⟨hwf, fun a ha => hbyte a (ha.2 j hj)⟩

theorem mayLeave_cutFlash (s : State) (cut : Remnant) : s.MayLeave (s.cutFlash cut) := by
  unfold State.cutFlash
  split
  case h_1 o j ho hj =>
    split_ifs
    · exact mayLeave_leaveOp ho cut
    · exact mayLeave_leaveJob hj cut
  case h_2 o ho _ => exact mayLeave_leaveOp ho cut
  case h_3 j _ hj => exact mayLeave_leaveJob hj cut
  case h_4 => exact mayLeave_same s

/-! ### Events of the array port -/

/-- The flash is no part of what good changes look at. -/
theorem Good.withFlash {f : List Host.Cell} (h : Good { s with flash := f } t) (g : List Host.Cell) :
    Good { s with flash := g } { t with flash := g } :=
  { h with
    flash := rfl
    agree := fun a => { h.agree { a with phase := a.phase } with } }

theorem works_checkLost {f : List Host.Cell} (hf : s.MayLeave f) (h : Lasting { s with flash := f } t)
    (block slot : Option Nat) (left : Remnant) : s.Works (t.checkLost block slot left) := by
  unfold State.checkLost
  split_ifs
  · split
    case h_1 k hk =>
      obtain ⟨j, hj, _, hblock⟩ := h.erase k hk
      refine ⟨t.leaveJob k left, fun hwf => ?_, (h.toGood.withFlash _).trans (good_loseFlash _ _ _)⟩
      obtain ⟨hwf', hbyte'⟩ := hf hwf
      obtain ⟨hwf'', hbyte''⟩ := leaveJob_spec t k left (h.flash ▸ hwf')
      refine ⟨hwf'', fun a ha => ?_⟩
      rw [hbyte'' a (hblock ▸ ha.2 j hj), h.flash]
      exact hbyte' a ha
    case h_2 => exact ⟨f, hf, h.toGood.trans (good_loseFlash _ _ _)⟩
  · exact ⟨f, hf, h.toGood⟩

@[simp] theorem quiet_countTimeout (h : Quiet s t) : Quiet s t.countTimeout :=
  quiet_array h (fun _ => min_le_right _ _) fun _ hj => State.erases_of_eq hj

theorem works_opTimeout {o : Op} (ho : s.array.op = some o) (left : Remnant) : s.Works (s.opTimeout o left) :=
  works_checkLost (mayLeave_leaveOp ho left)
    ((quiet_countTimeout (quiet_op (Quiet.refl { s with flash := s.leaveOp o left }) none)).lasting.trans
      (lasting_takeOutcome _ o .timeout)) _ _ _

theorem works_eraseTimeout {j : EraseJob} (hj : s.array.erase = some j) (left : Remnant) :
    s.Works (s.eraseTimeout j left) := by
  have hcounted := quiet_countTimeout (Quiet.refl { s with flash := s.leaveJob j left })
  have hcountedErases : State.countTimeout { s with flash := s.leaveJob j left } |>.Erases j := State.erases_of_eq hj
  exact works_checkLost (mayLeave_leaveJob hj left)
    (hcounted.lasting.trans (lasting_attemptFailed _ hcountedErases _)) _ _ _

theorem works_timeOut (s : State) (left : Remnant) : s.Works (s.timeOut left) := by
  unfold State.timeOut
  split
  case h_1 o ho => exact works_opTimeout ho left
  case h_2 =>
    split
    case h_1 j hj =>
      split_ifs
      · exact works_eraseTimeout hj left
      · exact (Good.refl s).works
    case h_2 => exact (Good.refl s).works

theorem works_endOp {o : Op} (ho : s.array.op = some o) (hp : o.purpose.isProgram = true) (stored readBack : Upset) :
    s.Works (s.endOp o stored readBack).1 := by
  refine ⟨flashWrite s.flash (flashAddr o.block o.offset) (overlay o.bytes stored), fun h => ?_, ?_⟩
  · refine ⟨wf_flashWrite _ _ _ h, fun a ha => flashByte_flashWrite_outside _ _ _ a ?_ h⟩
    rw [length_overlay]
    exact ha.1 o ho hp
  · have hended := quiet_opEnded (Quiet.refl { s with
      flash := flashWrite s.flash (flashAddr o.block o.offset) (overlay o.bytes stored) })
    unfold State.endOp; dsimp only
    split_ifs
    · exact (quiet_disarm hended).good
    · exact hended.good

theorem works_programEnd (s : State) {is : Purpose → Bool} (his : ∀ p, is p = true → p.isProgram = true)
    (e : ProgramEnd) : s.Works (s.programEnd is e) := by
  unfold State.programEnd
  split
  · exact (Good.refl s).works
  case h_2 o ho =>
    by_cases hp : is o.purpose = true
    · rw [if_pos hp]
      cases e with
      | timedOut left => exact works_opTimeout ho left
      | ended stored readBack =>
        dsimp only
        split_ifs
        · exact (Good.refl s).works
        · exact (works_endOp ho (his _ hp) _ _).trans_good (lasting_takeOutcome _ _ _).toGood
    · rw [if_neg hp]
      exact (Good.refl s).works

theorem works_eraseEvent (s : State) (part : ErasePart) {take : State → EraseJob → State}
    (htake : ∀ j, s.array.erase = some j → s.Works (take s j)) : s.Works (s.eraseEvent part take) := by
  unfold State.eraseEvent
  split
  · exact (Good.refl s).works
  case h_2 j hj =>
    split_ifs
    · exact htake j hj
    · exact (Good.refl s).works

theorem works_eraseDone {j : EraseJob} (hj : s.array.erase = some j) (residue : Upset) (part : ErasePart) :
    s.Works (s.eraseDone j residue part) := by
  have hflash : Quiet { s with
      flash := flashPatch (flashErase s.flash j.block) j.block 0 Config.blockBytes residue } (s.eraseDone j residue part) :=
    quiet_setErase (Quiet.refl _) (State.erases_of_eq hj) rfl rfl
  refine ⟨_, fun h => ?_, hflash.good⟩
  have hwf := wf_flashErase s.flash j.block h
  refine ⟨wf_flashPatch _ _ _ _ _ hwf, fun a ha => ?_⟩
  have hout := ha.2 j hj
  rw [flashByte_flashPatch_outside _ _ _ _ _ a (by simp only [flashAddr] at *; omega) hwf,
    flashByte_flashErase_outside _ _ a hout]

theorem works_takeHeaderEnd {j : EraseJob} (hj : s.array.erase = some j) (e : ProgramEnd) :
    s.Works (State.takeHeaderEnd e s j) := by
  cases e with
  | timedOut left => exact works_eraseTimeout hj left
  | ended stored readBack =>
    refine ⟨flashWrite s.flash (flashAddr j.block 0) (overlay j.headerBytes stored), fun h => ?_, ?_⟩
    · refine ⟨wf_flashWrite _ _ _ h, fun a ha => flashByte_flashWrite_outside _ _ _ a ?_ h⟩
      have hout := ha.2 j hj
      rw [length_overlay, length_headerBytes]
      simp only [flashAddr, Config.blockBytes] at *
      omega
    · have hrefl := Quiet.refl { s with flash := flashWrite s.flash (flashAddr j.block 0) (overlay j.headerBytes stored) }
      show Good _ (s.headerEnded j stored readBack)
      have hended := quiet_eraseEnded hrefl
      have hendedErases : State.eraseEnded { s with
          flash := flashWrite s.flash (flashAddr j.block 0) (overlay j.headerBytes stored) } |>.Erases j :=
        State.erases_of_eq hj
      unfold State.headerEnded endProgram; dsimp only
      refine good_ite (quiet_eraseSucceeded hrefl j).good ?_
      exact (hended.lasting.trans (lasting_attemptFailed _ hendedErases _)).toGood

theorem works_takeSuspended {j : EraseJob} (hj : s.array.erase = some j) (finished : Option Upset) :
    s.Works (State.takeSuspended finished s j) := by
  cases finished with
  | none =>
    have hsuspended : Quiet s (s.setErase (some { j with part := .suspended, suspends := j.suspends + 1 })) :=
      quiet_setErase (Quiet.refl s) (State.erases_of_eq hj) rfl rfl
    exact ((quiet_report hsuspended _).good.trans (good_grant _)).works
  | some residue => exact (works_eraseDone hj residue .finished).trans_good (good_grant _)

/-! ### Reads and the other events of the array port -/

theorem good_readEnd (s : State) {is : Purpose → Bool} {take : State → Op → State}
    (htake : ∀ o, Good s.opEnded (take s.opEnded o)) : Good s (s.readEnd is take) := by
  unfold State.readEnd
  split
  · exact Good.refl s
  · split_ifs
    · exact (quiet_opEnded (Quiet.refl s)).good.trans (htake _)
    · exact Good.refl s

theorem quiet_takePiece (received : Upset) (s : State) (o : Op) : Quiet s (State.takePiece received s o) := by
  unfold State.takePiece
  refine quiet_ite (Quiet.refl s) ?_
  split
  · exact quiet_pieceRead (Quiet.refl s) _ _ _ _
  · exact Quiet.refl s

theorem quiet_takeMerge (received : Upset) (s : State) (o : Op) : Quiet s (State.takeMerge received s o) := by
  unfold State.takeMerge
  refine quiet_ite (Quiet.refl s) ?_
  split
  · exact quiet_mergeDone (Quiet.refl s) _ _ _ _
  · exact Quiet.refl s

theorem quiet_takeReloc (received : Upset) (s : State) (o : Op) : Quiet s (State.takeReloc received s o) := by
  unfold State.takeReloc
  split
  · split
    · exact quiet_relocReadDone (Quiet.refl s) _ _ _
    · exact Quiet.refl s
  · exact Quiet.refl s

theorem quiet_takeMountRead (received : Upset) (s : State) (o : Op) : Quiet s (State.takeMountRead received s o) := by
  unfold State.takeMountRead
  split
  case h_1 m hm => exact quiet_takeScan (Quiet.refl s) hm _
  case h_2 => exact Quiet.refl s

theorem quiet_takeMarkRead (received : Upset) (s : State) (o : Op) : Quiet s (State.takeMarkRead received s o) := by
  unfold State.takeMarkRead
  split
  case h_1 j hj => exact quiet_markAreaRead (Quiet.refl s) (State.erases_of_eq hj) _
  case h_2 => exact Quiet.refl s

theorem good_takeWipeRead (received : Upset) (s : State) (o : Op) : Good s (State.takeWipeRead received s o) := by
  unfold State.takeWipeRead
  split
  case h_1 step cut hc =>
    have hhold : Quiet s (s.hold (.wipe .format cut)) := quiet_hold (Quiet.refl s) _ fun _ _ _ => ⟨step, cut, hc⟩
    refine hhold.good.trans ⟨tidy_setErase _ _, fun a => { a with wipeErase := ?_, mountErase := ?_ }⟩
    · intro k hk _
      exact a.service_of_wiping ⟨.format, cut, rfl⟩
    · intro k hk ho
      cases hk
      simp [newErase] at ho
  case h_2 => exact Good.refl s

theorem quiet_flashReady (s : State) : Quiet s s.flashReady := by
  unfold State.flashReady
  split
  · refine quiet_ite ?_ (Quiet.refl s)
    exact quiet_array (Quiet.refl s) id fun _ hj => State.erases_of_eq hj
  · split
    case h_1 j hj =>
      refine quiet_ite (quiet_array (Quiet.refl s) id fun k hk => ?_) (Quiet.refl s)
      cases hk
      exact ⟨j, hj, rfl, rfl⟩
    case h_2 => exact Quiet.refl s

/-! ### Inputs and the report timer -/

theorem quiet_cutWipe (h : Quiet s t) : Quiet s t.cutWipe := by
  unfold State.cutWipe
  split
  case h_1 step cut hc => exact quiet_hold h _ fun _ _ _ => ⟨step, cut, hc⟩
  all_goals exact h

theorem quiet_refuseAppend (h : Quiet s t) : Quiet s t.refuseAppend := by
  unfold State.refuseAppend
  split
  · exact quiet_completeAppend h _ _
  all_goals exact h

theorem quiet_wpChange (asserted : Bool) (s : State) : Quiet s (State.wpChange asserted s) := by
  unfold State.wpChange
  refine quiet_ite (Quiet.refl s) ?_
  have hkept : Quiet s (if asserted then s.keepDrainOpening else s) :=
    quiet_ite (quiet_blocks (Quiet.refl s) id id) (Quiet.refl s)
  have hwp : ∀ u, Quiet s u → Quiet s { u with array := { u.array with wp := asserted } } :=
    fun u hu => quiet_array hu id fun _ hj => State.erases_of_eq hj
  refine quiet_ite (quiet_cutWipe (quiet_refuseAppend (quiet_wake (quiet_edge ?_ _ _ _ _))))
    (quiet_wake (quiet_edge ?_ _ _ _ _)) <;> exact hwp _ hkept

theorem good_pfwAssert (s : State) : Good s s.pfwAssert := by
  have hpfw : Quiet s (s.setPfw true) := quiet_drain (Quiet.refl s) rfl rfl
  unfold State.pfwAssert; dsimp only
  split_ifs
  · exact Good.refl s
  · split
    case h_1 hm => exact hpfw.good.trans (good_beginDrain _ (.inl hm))
    case h_2 hm => exact hpfw.good.trans (good_beginDrain _ (.inr hm))
    case h_3 =>
      have hheld : Quiet s { s.setPfw true with drain := { (s.setPfw true).drain with releasePending := false } } :=
        quiet_drain hpfw rfl rfl
      exact hheld.good
    case h_4 => exact (quiet_cutWipe hpfw).good
    all_goals exact hpfw.good

theorem good_pfwDeassert (s : State) : Good s s.pfwDeassert := by
  have hpfw : Quiet s (s.setPfw false) := quiet_drain (Quiet.refl s) rfl rfl
  unfold State.pfwDeassert; dsimp only
  split_ifs
  · split
    case h_1 hphase =>
      refine hpfw.good.trans ⟨(tidy_setMode (tidy_drain (Tidy.refl _) _) _), fun a => ?_⟩
      have hm : (s.setPfw false).mgmt.mode = .drain := by
        by_contra hne
        rw [a.phase.mpr hne] at hphase
        cases hphase
      exact (good_endDrain _ hm).agree a
    case h_2 =>
      have howed : Quiet s { s.setPfw false with drain := { (s.setPfw false).drain with releasePending := true } } :=
        quiet_drain hpfw rfl rfl
      exact howed.good
    case h_3 => exact hpfw.good
  · exact Good.refl s

theorem good_poweredUp (s : State) (pins : Pins) (p : Power) (m : Mgmt)
    (hm : m.mode = .mount ∧ m.command = .zero ∧ m.Fits) (q : List Instr) :
    Good s { State.poweredUp s.flash pins q with power := p, mgmt := m } where
  flash := rfl
  table _ := rfl
  blockTable _ := rfl
  reclaim _ := Nat.zero_le _
  timeouts _ := Nat.zero_le _
  windows _ := windowUnit_reset_fits
  queue _ := Nat.zero_le _
  health _ := ⟨Nat.zero_le _, Nat.zero_le _⟩
  mgmt _ := hm.2.2
  agree _ :=
    { phase := by simp [State.poweredUp, Drain.reset, hm.1]
      returns := by simp [State.poweredUp, Drain.reset, hm.1]
      returnMode := by simp [State.poweredUp, Drain.reset]
      mount := by simp [State.poweredUp, hm.1]
      wipe := by simp [hm.2.1]
      wipeErase := by simp [State.poweredUp, ArrayPort.reset]
      mountErase := by simp [State.poweredUp, ArrayPort.reset] }

theorem mgmt_reset_fits (target : Nat) : (Mgmt.reset target).Fits := ⟨by simp [Mgmt.reset], fun _ => rfl⟩

theorem works_poweredUp (s : State) (pins : Pins) (cut : Remnant) (q : List Instr) :
    s.Works (State.poweredUp (s.cutFlash cut) pins q) :=
  ⟨s.cutFlash cut, mayLeave_cutFlash s cut, good_poweredUp { s with flash := s.cutFlash cut } pins .on
    (.reset (targetAddress pins.addr1 pins.addr0)) ⟨rfl, rfl, mgmt_reset_fits _⟩ q⟩

theorem works_stopped (s : State) (p : Power) (cut : Remnant) : s.Works (s.stopped p cut) :=
  ⟨s.cutFlash cut, mayLeave_cutFlash s cut, good_poweredUp { s with flash := s.cutFlash cut } Pins.quiet p
    { Mgmt.reset (targetAddress Pins.quiet.addr1 Pins.quiet.addr0) with events := 0 }
    ⟨rfl, rfl, mgmt_reset_fits (targetAddress Pins.quiet.addr1 Pins.quiet.addr0)⟩ s.pending⟩

theorem quiet_healthExpiry (s : State) : Quiet s s.healthExpiry :=
  quiet_ite (quiet_closeHealthWindow (Quiet.refl s)) (Quiet.refl s)

end

end Sys2Proof.Machine
end

section
/-! Every command keeps the invariants; the obligations about them. -/

namespace Sys2Proof.Machine

section
variable {s t : State}

/-! ### The port, the bridge's own events and the passing time -/

theorem quiet_readArrives (addr : BitVec 24) (count : Nat) (s : State) : Quiet s (State.readArrives addr count s) :=
  quiet_ite (Quiet.refl s) (quiet_takeRequest (Quiet.refl s) _ _ _ _)

theorem quiet_writeArrives (addr : BitVec 24) (data : List Byte) (s : State) :
    Quiet s (State.writeArrives addr data s) :=
  quiet_ite (Quiet.refl s) (quiet_takeRequest (Quiet.refl s) _ _ _ _)

theorem quiet_endSync (s : State) : Quiet s s.endSync := by
  have hrefl := Quiet.refl s
  unfold State.endSync
  split
  · exact quiet_ite (quiet_complete hrefl _ _) (quiet_ite (quiet_complete hrefl _ _) hrefl)
  all_goals exact hrefl

theorem quiet_tryVictim (s : State) : Quiet s s.tryVictim := by
  have hrefl := Quiet.refl s
  unfold State.tryVictim
  refine quiet_ite ?_ hrefl
  split
  · exact quiet_takeVictim hrefl _
  · exact hrefl

theorem EraseJob.tick_owner_block (j : EraseJob) : j.tick.owner = j.owner ∧ j.tick.block = j.block := by
  unfold EraseJob.tick
  dsimp only
  split_ifs
  · exact ⟨rfl, rfl⟩
  · split <;> exact ⟨rfl, rfl⟩

theorem quiet_tick (s : State) : Quiet s s.tick := by
  unfold State.tick
  split
  · have htimed : Quiet s { s with health := s.health.tick } := quiet_health (Quiet.refl s) fun hx => by
      unfold Health.tick
      split_ifs
      · exact ⟨hx.1, hx.2⟩
      · exact hx
    refine quiet_array (quiet_port htimed _) id fun j hj => ?_
    obtain ⟨k, hk, rfl⟩ := Option.map_eq_some_iff.mp hj
    exact ⟨k, hk, k.tick_owner_block.1, k.tick_owner_block.2⟩
  all_goals exact Quiet.refl s

/-! ### The commands (R110, R117, R126, R167 to R169, R178 to R186, R189) -/

/-- A command is rejected, refused, or carried out in a mode listed for it (R176, R177). -/
theorem good_command (s : State) (c : Code) {body : State → State}
    (hbody : ∀ u : State, c.takenIn u.mgmt.mode = true → Good u (body u)) : Good s (s.command c body) := by
  have hselected := quiet_select (Quiet.refl s) 2
  unfold State.command; dsimp only
  split
  · exact (quiet_raise hselected _).good
  · split_ifs with hmode
    · exact hselected.good.trans (hbody _ hmode)
    · exact (quiet_complete hselected _ _).good

theorem quiet_askAppend (s : State) (c : Code) (new : Settings) : Quiet s (s.askAppend c new) :=
  have hrefl := Quiet.refl s
  quiet_ite (quiet_completeAppend hrefl _ _) <| quiet_ite (quiet_completeAppend hrefl _ _) <|
    quiet_hold hrefl _ fun _ _ h => by cases h

theorem quiet_runWarm (s : State) : Quiet s s.runWarm := by
  have hrefl := Quiet.refl s
  have harmed : ∀ w f l r, Quiet s (s.setWindow w (armedWindow f l r)) := fun w f l r =>
    quiet_setWindow hrefl w fun _ => .of_idle (.inr rfl)
  exact quiet_ite (quiet_complete hrefl _ _) <| quiet_ite (quiet_complete hrefl _ _) <|
    quiet_ite (quiet_complete hrefl _ _) <| quiet_ite (quiet_complete hrefl _ _) <| quiet_complete (harmed _ _ _ _) _ _

theorem quiet_runWend (s : State) : Quiet s s.runWend := by
  have hrefl := Quiet.refl s
  unfold State.runWend
  refine quiet_ite (quiet_complete hrefl _ _) ?_
  split
  case h_4 hopen => exact quiet_complete (quiet_closeGroup hrefl _ _ fun hu => hu.window _ (.inl hopen)) _ _
  all_goals exact quiet_complete hrefl _ _

theorem quiet_runWdrp (s : State) : Quiet s s.runWdrp := by
  have hrefl := Quiet.refl s
  unfold State.runWdrp
  refine quiet_ite (quiet_complete hrefl _ _) ?_
  split
  · exact quiet_complete hrefl _ _
  · exact quiet_complete (quiet_disarmWindow hrefl _) _ _
  · exact quiet_complete (quiet_abortGroup hrefl _) _ _
  · exact quiet_ite (quiet_complete hrefl _ _) (quiet_complete (quiet_abortGroup hrefl _) _ _)

theorem quiet_runPoly (s : State) : Quiet s s.runPoly :=
  have hrefl := Quiet.refl s
  quiet_ite (quiet_completeAppend hrefl _ _) (quiet_ite (quiet_completeAppend hrefl _ _) (quiet_askAppend s _ _))

theorem quiet_runHcfg (s : State) : Quiet s s.runHcfg := by
  have hrefl := Quiet.refl s
  unfold State.runHcfg
  split
  · exact quiet_complete hrefl _ _
  · refine quiet_ite (quiet_complete hrefl _ _) (quiet_complete ?_ _ _)
    exact quiet_health hrefl fun hx => ⟨Nat.zero_le _, hx.2⟩

theorem quiet_runInjt (s : State) : Quiet s s.runInjt := by
  have hrefl := Quiet.refl s
  unfold State.runInjt
  split
  · exact quiet_complete hrefl _ _
  · refine quiet_complete ?_ _ _
    exact quiet_health hrefl fun hx => ⟨hx.1, hx.2⟩

theorem quiet_runSync (s : State) : Quiet s s.runSync := by
  have hmarked := quiet_markAll (Quiet.refl s)
  exact quiet_ite (quiet_complete (Quiet.refl s) _ _) <|
    quiet_ite (quiet_complete hmarked _ _) (quiet_hold hmarked _ fun _ _ h => by cases h)

theorem quiet_stopAndMark (s : State) (a : Activity) (ha : ∀ step cut, a ≠ .wipe step cut) :
    Quiet s (((s.hold a).stopWindows).markAll) :=
  quiet_markAll (quiet_stopWindows (quiet_hold (Quiet.refl s) a fun step cut h => absurd h (ha step cut)))

/-- WIPE is held in SERVICE only, and no erase is in hand when it begins (R186). -/
theorem good_runWipe (s : State) (hm : s.mgmt.mode = .service) : Good s s.runWipe := by
  have hrefl := Quiet.refl s
  refine good_ite (quiet_complete hrefl _ _).good (good_ite (quiet_complete hrefl _ _).good ?_)
  exact { Tidy.refl s with
    flash := rfl
    agree := fun a => { a with
      wipe := fun _ _ _ => hm
      wipeErase := fun j hj => by cases hj
      mountErase := fun j hj => by cases hj } }

theorem good_codeRun (c : Code) (s : State) (hc : c.takenIn s.mgmt.mode = true) : Good s (c.run s) := by
  have hrefl := Quiet.refl s
  cases c with
  | info => exact (quiet_complete hrefl _ _).good
  | sync => exact (quiet_runSync s).good
  | warm => exact (quiet_runWarm s).good
  | wend => exact (quiet_runWend s).good
  | wdrp => exact (quiet_runWdrp s).good
  | wsta => exact (quiet_ite (quiet_complete hrefl _ _) (quiet_complete hrefl _ _)).good
  | line => exact (quiet_ite (quiet_complete hrefl _ _) (quiet_complete hrefl _ _)).good
  | blkq => exact (quiet_ite (quiet_complete hrefl _ _) (quiet_complete hrefl _ _)).good
  | zlck => exact (quiet_ite (quiet_completeAppend hrefl _ _) (quiet_askAppend s _ _)).good
  | xchg => exact (quiet_askAppend s _ _).good
  | poly => exact (quiet_runPoly s).good
  | hcfg => exact (quiet_runHcfg s).good
  | taly => exact (quiet_ite (quiet_complete hrefl _ _) (quiet_complete (quiet_closeHealthWindow hrefl) _ _)).good
  | injt => exact (quiet_runInjt s).good
  | svce => exact (quiet_stopAndMark s (.svce false) (by simp)).good
  | svcx => exact good_enterMount_complete s _ _
  | wipe => exact good_runWipe s (by simpa [Code.takenIn] using hc)
  | rsts => exact (quiet_stopAndMark s (.rsts false) (by simp)).good
  | fack => exact (quiet_complete (quiet_freeFault hrefl) _ _).good

theorem good_runCommand (s : State) (c : Code) : Good s (s.command c c.run) := good_command s c (good_codeRun c)

/-! ### Writes to the management items (R174 to R176, R192 to R194) -/

theorem quiet_unknownCode (s : State) : Quiet s s.unknownCode := by
  have hselected := quiet_select (Quiet.refl s) 2
  unfold State.unknownCode; dsimp only
  split
  · exact quiet_raise hselected _
  · exact quiet_mgmt hselected (fun hm => ⟨hm.putData _, hm.2⟩) rfl fun _ _ hc => by cases hc

theorem quiet_rejectWrite (toData : Bool) (s : State) : Quiet s (s.rejectWrite toData) := by
  unfold State.rejectWrite
  split
  · exact quiet_raise (quiet_select (Quiet.refl s) _) _
  · exact Quiet.refl s

theorem quiet_writeMask (value : BitVec 16) (h : Quiet s t) : Quiet s (t.writeMask value) :=
  quiet_mgmt h id rfl fun _ _ => wiping_of_eq

theorem quiet_writeClear (value : BitVec 16) (h : Quiet s t) : Quiet s (t.writeClear value) :=
  quiet_mgmt h id rfl fun _ _ => wiping_of_eq

theorem quiet_writeEdges (b : Byte) (h : Quiet s t) : Quiet s (t.writeEdges b) :=
  quiet_mgmt h id rfl fun _ _ => wiping_of_eq

theorem quiet_writeData (bs : List Byte) (h : Quiet s t) : Quiet s (t.writeData bs) := by
  unfold State.writeData
  split
  · exact quiet_raise h _
  · exact quiet_mgmt h (fun hm => ⟨hm.putData _, hm.2⟩) rfl fun _ _ => wiping_of_eq

theorem good_writeCommand (bs : List Byte) (s : State) : Good s (s.writeCommand bs) := by
  have hrefl := Quiet.refl s
  unfold State.writeCommand
  split
  · exact (quiet_raise hrefl _).good
  · refine good_ite (Good.refl s) (good_ite ?_ ?_)
    · have hzero : Quiet s { s with mgmt := { s.mgmt with command := .zero } } :=
        quiet_mgmt hrefl id rfl fun _ _ hc => by cases hc
      exact hzero.good
    · split
      · exact good_runCommand s _
      · exact (quiet_unknownCode s).good

theorem good_writeItem (item : Nat) (bs : List Byte) (s : State) : Good s (s.writeItem item bs) := by
  have hrefl := Quiet.refl s
  unfold State.writeItem
  split
  · exact Good.refl s
  · exact good_writeCommand _ s
  · exact (quiet_writeData _ hrefl).good
  · exact (quiet_writeMask _ hrefl).good
  · exact (quiet_writeClear _ hrefl).good
  · exact (quiet_writeEdges _ hrefl).good
  · exact Good.refl s

theorem good_takeTransfer (item : Byte) (bs : List Byte) (s : State) : Good s (s.takeTransfer item bs) :=
  (quiet_select (Quiet.refl s) _).good.trans (good_writeItem _ bs _)

/-! ### Every step -/

/-- What is taken works as the operation on the state does; what follows at once is good. -/
theorem works_of_taken {f : State → State} (hf : s.Works (f s)) (h : s.taken f = .next t) : s.Works t := by
  unfold State.taken at h
  split at h <;> obtain rfl := Host.Outcome.next.inj h
  · exact hf.trans_good (good_settle _)
  all_goals exact (Good.refl s).works

theorem Purpose.isCopy_isProgram (p : Purpose) (h : p.isCopy = true) : p.isProgram = true := by
  cases p <;> simp_all [Purpose.isCopy, Purpose.isProgram]

theorem Purpose.isOpening_isProgram (p : Purpose) (h : p.isOpening = true) : p.isProgram = true := by
  cases p <;> simp_all [Purpose.isOpening, Purpose.isProgram]

theorem Purpose.isBlock0_isProgram (p : Purpose) (h : p.isBlock0 = true) : p.isProgram = true := by
  cases p <;> simp_all [Purpose.isBlock0, Purpose.isProgram]

theorem State.isRepair_isProgram (s : State) (p : Purpose) (h : s.isRepair p = true) : p.isProgram = true := by
  cases p <;> simp_all [State.isRepair, Purpose.isBlock0, Purpose.isProgram]

theorem isProgram_of_decide (q p : Purpose) (hq : q.isProgram = true) (h : decide (p = q) = true) :
    p.isProgram = true := by
  rw [of_decide_eq_true h]
  exact hq

theorem works_resetAsserted (cut : Remnant) (h : execResetAsserted cut s = .next t) : s.Works t := by
  unfold execResetAsserted at h
  split at h <;> cases h
  · exact works_stopped s _ cut
  all_goals exact (Good.refl s).works

theorem works_resetDeasserted (pins : Pins) (h : execResetDeasserted pins s = .next t) : s.Works t := by
  unfold execResetDeasserted at h
  split at h <;> cases h
  · exact (good_poweredUp s pins .on (.reset (targetAddress pins.addr1 pins.addr0))
      ⟨rfl, rfl, mgmt_reset_fits _⟩ s.pending).works
  all_goals exact (Good.refl s).works

theorem works_readRequest {addr : BitVec 24} {count : Nat} (h : execReadRequest addr count s = .next t) :
    s.Works t := by
  unfold execReadRequest at h
  split_ifs at h
  exact works_of_taken (quiet_readArrives addr count s).good.works h

theorem works_writeRequest {addr : BitVec 24} {data : List Byte} (h : execWriteRequest addr data s = .next t) :
    s.Works t := by
  unfold execWriteRequest at h
  split_ifs at h
  exact works_of_taken (quiet_writeArrives addr data s).good.works h

theorem works_ofCommand (c : Code) (h : (s.taken fun s => s.command c c.run) = .next t) : s.Works t :=
  works_of_taken (f := fun s => s.command c c.run) (good_runCommand s c).works h

theorem works_ofProgramEnd {is : State → Purpose → Bool} (his : ∀ p, is s p = true → p.isProgram = true)
    (e : ProgramEnd) (h : (s.taken fun s => s.programEnd (is s) e) = .next t) : s.Works t :=
  works_of_taken (f := fun s => s.programEnd (is s) e) (works_programEnd s his e) h

theorem works_ofRead {is : Purpose → Bool} {take : State → Op → State} (htake : ∀ u o, Good u (take u o))
    (h : (s.taken fun s => s.readEnd is take) = .next t) : s.Works t :=
  works_of_taken (f := fun s => s.readEnd is take) (good_readEnd s fun o => htake _ o).works h

theorem works_ofErase (part : ErasePart) {take : State → EraseJob → State}
    (htake : ∀ j, s.array.erase = some j → s.Works (take s j))
    (h : (s.taken fun s => s.eraseEvent part take) = .next t) : s.Works t :=
  works_of_taken (f := fun s => s.eraseEvent part take) (works_eraseEvent s part htake) h

/-- Every command works on the flash as the operations in hand may, and is good otherwise. -/
theorem works_of_exec (i : Instr) (h : exec i s = .next t) : s.Works t := by
  cases i with
  | readRequest addr count => exact works_readRequest h
  | writeRequest addr data => exact works_writeRequest h
  | writeAcceptance => exact works_of_taken (quiet_tryAccept (Quiet.refl s)).good.works h
  | stallExpiry => exact works_of_taken (quiet_stallExpired (Quiet.refl s)).good.works h
  | arbiterGrant => exact works_of_taken (good_grant s).works h
  | readPieceCompletion received => exact works_ofRead (fun u o => (quiet_takePiece received u o).good) h
  | mergeReadCompletion received => exact works_ofRead (fun u o => (quiet_takeMerge received u o).good) h
  | relocationReadCompletion received => exact works_ofRead (fun u o => (quiet_takeReloc received u o).good) h
  | mountScanReadCompletion received => exact works_ofRead (fun u o => (quiet_takeMountRead received u o).good) h
  | queueProgramOutcome e =>
    exact works_ofProgramEnd (is := fun _ p => decide (p = .queueProgram)) (isProgram_of_decide _ · rfl) e h
  | copyProgramOutcome e => exact works_ofProgramEnd (is := fun _ => Purpose.isCopy) Purpose.isCopy_isProgram e h
  | openingProgramOutcome e =>
    exact works_ofProgramEnd (is := fun _ => Purpose.isOpening) Purpose.isOpening_isProgram e h
  | tailMarkOutcome e =>
    exact works_ofProgramEnd (is := fun _ p => decide (p = .tailMark)) (isProgram_of_decide _ · rfl) e h
  | retireMarkOutcome e =>
    refine works_ofProgramEnd (is := fun _ p => decide (p = .retireMark) || decide (p = .eraseMark)) (fun p hp => ?_) e h
    rcases Bool.or_eq_true_iff.mp hp with hp | hp
    · exact isProgram_of_decide _ p rfl hp
    · exact isProgram_of_decide _ p rfl hp
  | drainProgramOutcome e =>
    exact works_ofProgramEnd (is := fun _ p => decide (p = .drainProgram)) (isProgram_of_decide _ · rfl) e h
  | settingsAppendOutcome e =>
    exact works_ofProgramEnd (is := fun _ p => decide (p = .settings)) (isProgram_of_decide _ · rfl) e h
  | mountRepairProgramOutcome e => exact works_ofProgramEnd (is := State.isRepair) s.isRepair_isProgram e h
  | wipeProgramOutcome e =>
    exact works_ofProgramEnd (is := fun s p => p.isBlock0 && decide (s.mgmt.mode = .service))
      (fun p hp => p.isBlock0_isProgram (Bool.and_eq_true_iff.mp hp).1) e h
  | eraseFinished residue =>
    exact works_ofErase (take := fun s j => s.eraseDone j residue .blankCheck) .erasing
      (fun j hj => works_eraseDone hj residue _) h
  | blankCheckEnd received =>
    exact works_ofErase (take := fun s j => s.blankCheckEnded j received) .blankCheck
      (fun j hj => (lasting_blankCheckEnded s (State.erases_of_eq hj) received).toGood.works) h
  | headerProgramEnd e => exact works_ofErase .header (fun j hj => works_takeHeaderEnd hj e) h
  | eraseSuspended finished => exact works_ofErase .suspending (fun j hj => works_takeSuspended hj finished) h
  | operationTimeout left => exact works_of_taken (f := fun s => s.timeOut left) (works_timeOut s left) h
  | wpInputChange asserted => exact works_of_taken (quiet_wpChange asserted s).good.works h
  | pfwAsserted => exact works_of_taken (good_pfwAssert s).works h
  | pfwDeasserted => exact works_of_taken (good_pfwDeassert s).works h
  | powerOnReset pins cut => cases h; exact works_poweredUp s pins cut _
  | resetAsserted cut => exact works_resetAsserted cut h
  | resetDeasserted pins => exact works_resetDeasserted pins h
  | healthTimerExpiry => exact works_of_taken (quiet_healthExpiry s).good.works h
  | info => exact works_ofCommand .info h
  | sync => exact works_ofCommand .sync h
  | warm => exact works_ofCommand .warm h
  | wend => exact works_ofCommand .wend h
  | wdrp => exact works_ofCommand .wdrp h
  | wsta => exact works_ofCommand .wsta h
  | line => exact works_ofCommand .line h
  | blkq => exact works_ofCommand .blkq h
  | zlck => exact works_ofCommand .zlck h
  | xchg => exact works_ofCommand .xchg h
  | poly => exact works_ofCommand .poly h
  | hcfg => exact works_ofCommand .hcfg h
  | taly => exact works_ofCommand .taly h
  | injt => exact works_ofCommand .injt h
  | svce => exact works_ofCommand .svce h
  | svcx => exact works_ofCommand .svcx h
  | wipe => exact works_ofCommand .wipe h
  | rsts => exact works_ofCommand .rsts h
  | fack => exact works_ofCommand .fack h
  | unkn => exact works_of_taken (quiet_unknownCode s).good.works h
  | commandWriteRejected toData => exact works_of_taken (quiet_rejectWrite toData s).good.works h
  | maskWrite value => exact works_of_taken (quiet_writeMask value (Quiet.refl s)).good.works h
  | clearWrite value => exact works_of_taken (quiet_writeClear value (Quiet.refl s)).good.works h
  | itemWrite item bytes => exact works_of_taken (good_takeTransfer item bytes s).works h
  | syncCompletion => exact works_of_taken (quiet_endSync s).good.works h
  | serviceEntry => exact works_of_taken (good_tryService s).works h
  | softReset => exact works_of_taken (good_trySoftReset s).works h
  | mountCompletion => exact works_of_taken (good_tryMount s).works h
  | commitEntryAppend => exact works_of_taken (quiet_appendWaitingCommit (Quiet.refl s)).good.works h
  | victimChoice => exact works_of_taken (quiet_tryVictim s).good.works h
  | powerLoss cut => cases h; exact works_stopped s _ cut
  | flashReportsReady => exact works_of_taken (quiet_flashReady s).good.works h
  | retireMarkAreaReadCompletion received => exact works_ofRead (fun u o => (quiet_takeMarkRead received u o).good) h
  | wipeBlock0ReadCompletion received => exact works_ofRead (fun u o => good_takeWipeRead received u o) h

/-- The queue of commands is no part of what a step works on. -/
theorem State.Works.ofPending {q : List Instr} (h : State.Works { s with pending := q } t) : s.Works t := by
  obtain ⟨f, hf, hgood⟩ := h
  refine ⟨f, hf, ?_⟩
  exact (quiet_pending (Quiet.refl { s with flash := f }) q).good.trans hgood

theorem works_of_step (h : step s = .next t) : s.Works t := by
  unfold step at h
  split at h
  · exact (works_of_exec _ h).ofPending
  · cases h
    exact (quiet_tick s).good.works

/-! ### The obligations -/

/-- The modes agree whatever the flash holds. -/
theorem State.ModesAgree.withFlash (a : s.ModesAgree) (f : List Host.Cell) : State.ModesAgree { s with flash := f } :=
  { a with phase := a.phase }

/-- Settles O3: nothing is in progress at a reset, and every part is of its reset size. -/
theorem invariantsHoldAtReset : Obligations.InvariantsHoldAtReset := by
  unfold Obligations.InvariantsHoldAtReset
  refine ⟨?modes, rfl, ⟨rfl, rfl⟩, ?sizes⟩
  case modes =>
    exact
      { phase := by decide
        returns := by decide
        returnMode := fun _ h => nomatch h
        mount := by decide
        wipe := fun _ _ h => nomatch h
        wipeErase := fun _ h => nomatch h
        mountErase := fun _ h => nomatch h }
  case sizes =>
    exact (sizesHold_iff _).mpr ⟨windowUnit_reset_fits, mgmt_reset_fits _, ⟨Nat.zero_le _, Nat.zero_le _⟩, Nat.zero_le _,
      Nat.zero_le _, Nat.zero_le _⟩

/-- Settles O4: the flash is left canonical by the operation at work, the two maps are set, filtered and mapped only. -/
theorem memoryStaysCanonical : Obligations.MemoryStaysCanonical := by
  intro s t hflash hmaps hstep
  obtain ⟨f, hleaves, hgood⟩ := works_of_step hstep
  have hmapsLeft : State.MapsCanonical { s with flash := f } := hmaps
  exact ⟨hgood.flash ▸ (hleaves hflash).1, hgood.toTidy.mapsCanonical hmapsLeft⟩

/-- Settles O5: each operation enters and leaves a mode together with what belongs to it. -/
theorem everyStepKeepsTheModesInAgreement : Obligations.EveryStepKeepsTheModesInAgreement := by
  intro s t hagree hstep
  obtain ⟨f, _, hgood⟩ := works_of_step hstep
  exact hgood.agree (hagree.withFlash f)

/-- Settles O6: each operation keeps the sizes of the part that it changes. -/
theorem everyStepKeepsSizesAndRanges : Obligations.EveryStepKeepsSizesAndRanges := by
  intro s t hsizes hstep
  obtain ⟨f, _, hgood⟩ := works_of_step hstep
  have hleft : State.SizesHold { s with flash := f } := (sizesHold_iff _).mpr ((sizesHold_iff s).mp hsizes)
  exact hgood.toTidy.sizesHold hleft

/-- Settles O7: what a step leaves in the flash is what the operation in flight or the erase in hand makes of its area. -/
theorem flashChangesOnlyWhereAnOperationWorks : Obligations.FlashChangesOnlyWhereAnOperationWorks := by
  intro s t a hflash hstep hop herase
  obtain ⟨f, hleaves, hgood⟩ := works_of_step hstep
  rw [hgood.flash]
  exact (hleaves hflash).2 a ⟨hop, herase⟩

end

end Sys2Proof.Machine
end

section
/-! The machine: a step, the reset values, and the structures of the flash image, which read back as they were encoded
(R19, R22 to R27). -/

namespace Sys2Proof.Machine

/-! ### Steps and clocks (R17, R102, R103, R166) -/

theorem EraseJob.tick_eq (j : EraseJob) : j.tick = { j with
    running := if j.statusWait = false ∧ (j.part = .erasing ∨ j.part = .suspending) ∧ j.running < 300000 then
        j.running + 1
      else j.running,
    clock := if (j.statusWait = true ∨ j.part = .suspending ∨ j.part = .blankCheck ∨ j.part = .header)
        ∧ j.clock < 1000 then j.clock + 1
      else j.clock } := by
  obtain ⟨owner, block, attempts, newCount, part, running, clock, suspends, statusWait, virgin⟩ := j
  cases statusWait
  case true => grind [EraseJob.tick, advance, Config.operationLimit]
  case false => cases part <;> grind [EraseJob.tick, advance, Config.operationLimit, Config.eraseLimit]

theorem Health.tick_eq (h : Health) : h.tick = { h with
    elapsed := if h.auto = true ∧ h.elapsed < 1000000 * h.interval then h.elapsed + 1 else h.elapsed } := by
  obtain ⟨cls, auto, interval, elapsed, count, saturated, snapCount, snapSaturated, snapClass, arm⟩ := h
  cases auto <;> grind [Health.tick, advance]

/-- Settles O1: `step` looks at the queue of commands, and each clock is one `advance`. -/
theorem stepRunsTheCommandAtTheFront : Obligations.StepRunsTheCommandAtTheFront := by
  unfold Obligations.StepRunsTheCommandAtTheFront
  refine ⟨?front, ?idle, ?off, ?on⟩
  case front => intro c s; rfl
  case idle =>
    intro s h
    unfold step
    rw [h]
  case off =>
    intro s h
    unfold State.tick
    split
    · contradiction
    all_goals rfl
  case on =>
    intro s h
    unfold State.tick
    rw [h]
    simp only [Health.tick_eq, funext EraseJob.tick_eq]
    rfl

/-- Settles O2: the reset state is written out in the model. -/
theorem powerOnResetValues : Obligations.PowerOnResetValues := by
  intro f pins q
  have hwindows : ∀ w < 4, ((State.poweredUp f pins q).window w).state = .idle
      ∧ ((State.poweredUp f pins q).window w).repeats = 0 ∧ ((State.poweredUp f pins q).window w).group = none
      ∧ ((State.poweredUp f pins q).window w).register = none
      ∧ ((State.poweredUp f pins q).window w).awaiting = false := by
    intro w hw
    interval_cases w <;> exact ⟨rfl, rfl, rfl, rfl, rfl⟩
  have hregister : ∀ i, (State.poweredUp f pins q).reg i = .free := by
    intro i
    simp [State.reg, State.poweredUp, WindowUnit.reset]
  have htarget : (State.poweredUp f pins q).mgmt.target
      = 72 + (if pins.addr1 then 2 else 0) + (if pins.addr0 then 1 else 0) := rfl
  have hevents : ∀ e : Event, (State.poweredUp f pins q).eventSet e = decide (e = .modeChange) := by
    intro e
    show (0x2000#16).getLsbD e.bit = decide (e = .modeChange)
    cases e <;> decide
  exact ⟨rfl, rfl, rfl, rfl, rfl, rfl, rfl, rfl, rfl, rfl, rfl, rfl, rfl, rfl, rfl, rfl, rfl, rfl, hwindows, rfl, rfl,
    hregister, ⟨_, rfl, rfl, rfl, rfl, rfl, rfl⟩, rfl, rfl, rfl, rfl, rfl, rfl, rfl, rfl, rfl, rfl, rfl, rfl, rfl,
    htarget, rfl, rfl, rfl, rfl, rfl, rfl, rfl, rfl, hevents⟩

/-! ### Numbers and checks (R19, R22, Table 2-2) -/

@[simp] theorem length_le (n v : Nat) : (le n v).length = n := by
  induction n generalizing v with
  | zero => rfl
  | succ n ih => simp [le, ih]

theorem unle_le (n v : Nat) : unle (le n v) = v % 256 ^ n := by
  induction n generalizing v with
  | zero => simp [le, unle, Nat.mod_one]
  | succ n ih =>
    simp only [le, unle, ih, BitVec.toNat_ofNat]
    rw [pow_succ' 256 n]
    exact Nat.mod_mul.symm

theorem checkBit_lt {c : Nat} (h : c < 2 ^ 32) : checkBit c < 2 ^ 32 := by
  unfold checkBit
  split_ifs
  · exact Nat.xor_lt_two_pow (by omega) (by norm_num)
  · omega

theorem checkByte_lt {c : Nat} (b : Byte) (h : c < 2 ^ 32) : checkByte c b < 2 ^ 32 := by
  have hstart : c ^^^ b.toNat < 2 ^ 32 := Nat.xor_lt_two_pow h (b.isLt.trans (by norm_num))
  exact checkBit_lt <| checkBit_lt <| checkBit_lt <| checkBit_lt <| checkBit_lt <| checkBit_lt <| checkBit_lt <|
    checkBit_lt hstart

theorem checkValue_lt (bs : List Byte) : checkValue bs < 2 ^ 32 := by
  have hfold : ∀ c < 2 ^ 32, bs.foldl checkByte c < 2 ^ 32 := by
    induction bs with
    | nil => exact fun _ h => h
    | cons b bs ih => exact fun c h => ih _ (checkByte_lt b h)
  exact Nat.xor_lt_two_pow (hfold _ (by norm_num)) (by norm_num)

theorem checkMatches_withCheck (bs : List Byte) (n : Nat) (h : n = bs.length + 4) :
    checkMatches (withCheck bs) n = true := by
  subst h
  have hvalue : unle (le 4 (checkValue bs)) = checkValue bs := by
    rw [unle_le]
    exact Nat.mod_eq_of_lt (checkValue_lt bs)
  have htake : (le 4 (checkValue bs)).take 4 = le 4 (checkValue bs) := List.take_of_length_le (by simp)
  simp [checkMatches, withCheck, field, hvalue, htake]

theorem givenValue_iff (n : Nat) : givenValue n = true ↔ 1 ≤ n ∧ n ≤ 4294967294 := by
  simp only [givenValue, Bool.and_eq_true, decide_eq_true_eq]
  rfl

/-! ### The structures (R22 to R27) -/

theorem kindOfCode_code (k : RecKind) : kindOfCode k.code = some k := by cases k <;> decide

theorem Record.ranges {r : Record} (h : r.fieldsValid = true) :
    r.window < 256 ∧ r.line < 65536 ∧ r.origin < 4294967296 ∧ r.group < 4294967296 := by
  unfold Record.fieldsValid at h
  split at h
  all_goals
    simp only [Bool.and_eq_true, decide_eq_true_eq, givenValue_iff] at h
    simp only [Config.storeLines, Config.windowCount] at h
    omega

theorem parseRecord_encode (r : Record) (hdata : r.data.length = 32) (hvalid : r.fieldsValid = true) :
    parseRecord r.encode = some r := by
  obtain ⟨hw, hl, ho, hg⟩ := Record.ranges hvalid
  have hcheck : checkMatches r.encode Config.slotBytes = true :=
    checkMatches_withCheck _ _ (by simp [hdata, Config.slotBytes])
  have hread : Record.mk r.kind (r.encode.getD 1 0).toNat (field r.encode 2 2) (field r.encode 4 4)
      (field r.encode 8 4) (dataField r.encode) = r := by
    obtain ⟨kind, window, line, origin, group, data⟩ := r
    simp only [Record.mk.injEq, true_and]
    simp only [] at hw hl ho hg hdata
    simp [Record.encode, withCheck, le, field, unle, dataField, Config.lineBytes, hdata]
    omega
  have hkind : kindOfCode (r.encode.getD 0 0) = some r.kind := kindOfCode_code r.kind
  simp only [parseRecord, hkind]
  rw [hread]
  simp [hcheck, hvalid]

theorem parseSettings_encode (x : Settings) (hfill : x.fill = 0 ∨ x.fill = 0xFF) (hlow : 10 ≤ x.stall)
    (hhigh : x.stall ≤ 1000) (hseq : 1 ≤ x.seq) (hlast : x.seq ≤ 84) : parseSettings x.encode = some x := by
  have hcheck : checkMatches x.encode Config.slotBytes = true :=
    checkMatches_withCheck _ _ (by simp [Config.slotBytes])
  have hstall : field x.encode 6 2 = x.stall := by
    simp [Settings.encode, withCheck, le, field, unle]; omega
  have hsequence : field x.encode 8 4 = x.seq := by
    simp [Settings.encode, withCheck, le, field, unle]; omega
  have hgap : (dataField x.encode).all (fun b => b == 0) = true := by
    simp [Settings.encode, withCheck, le, dataField, Config.lineBytes]
  have hbytes : x.encode.getD 0 0 = 0xC3 ∧ x.encode.getD 1 0 = x.locks
      ∧ x.encode.getD 2 0 = (if x.exchange then 1 else 0) ∧ x.encode.getD 3 0 = x.fill
      ∧ x.encode.getD 4 0 = (if x.strict then 2 else 1) ∧ x.encode.getD 5 0 = 0 := ⟨rfl, rfl, rfl, rfl, rfl, rfl⟩
  obtain ⟨hmark, hlocks, hexchange, hfillByte, hpolicy, hfive⟩ := hbytes
  simp only [parseSettings, hcheck, hstall, hsequence, hgap, hmark, hlocks, hexchange, hfillByte, hpolicy, hfive]
  obtain ⟨seq, locks, exchange, fill, strict, stall⟩ := x
  simp only [] at hfill hlow hhigh hseq hlast
  rcases hfill with rfl | rfl <;> cases exchange <;> cases strict <;>
    simp [hlow, hhigh, hseq, hlast, Config.lastSlot]

theorem parseFirstPart_firstPart (k : Byte) (n : Nat) (hk : k = kindData ∨ k = kindSettings) (hn : n ≤ 4294967294) :
    parseFirstPart (firstPart k n) = some (k, n) := by
  have hcheck : checkMatches (firstPart k n) 16 = true := checkMatches_withCheck _ _ (by simp [headerMarker])
  have hcount : field (firstPart k n) 8 4 = n := by
    simp [firstPart, withCheck, headerMarker, le, field, unle]; omega
  have hgap : field (firstPart k n) 5 3 = 0 := by simp [firstPart, withCheck, headerMarker, le, field, unle]
  simp only [parseFirstPart, hcheck, hcount, hgap]
  rcases hk with rfl | rfl <;> simp [firstPart, withCheck, headerMarker, Config.maxSequence, hn]

theorem parseOpening_openingField (b o g : Nat) (hb : 1 ≤ b ∧ b ≤ 4294967294) (ho : 1 ≤ o ∧ o ≤ 4294967294)
    (hg : 1 ≤ g ∧ g ≤ 4294967294) : parseOpening (openingField b o g) = some (b, o, g) := by
  have hcheck : checkMatches (openingField b o g) 16 = true := checkMatches_withCheck _ _ (by simp)
  have hfields : field (openingField b o g) 0 4 = b ∧ field (openingField b o g) 4 4 = o
      ∧ field (openingField b o g) 8 4 = g := by
    simp [openingField, withCheck, le, field, unle]; omega
  obtain ⟨hseq, horigin, hgroup⟩ := hfields
  simp only [parseOpening, hcheck, hseq, horigin, hgroup, (givenValue_iff _).mpr hb, (givenValue_iff _).mpr ho,
    (givenValue_iff _).mpr hg]
  rfl

/-- Settles O8: each field stands where its offset says, and the check is that of the bytes before it. -/
theorem flashImageStructuresReadBack : Obligations.FlashImageStructuresReadBack := by
  unfold Obligations.FlashImageStructuresReadBack
  refine ⟨?record, ?settings, ?firstPart, ?opening⟩
  case record => exact parseRecord_encode
  case settings => exact parseSettings_encode
  case firstPart => exact parseFirstPart_firstPart
  case opening =>
    intro b o g hb hb' ho ho' hg hg'
    exact parseOpening_openingField b o g ⟨hb, hb'⟩ ⟨ho, ho'⟩ ⟨hg, hg'⟩

end Sys2Proof.Machine
end

section
/-! The host bus: the split of a request (R1, R3), a request that waits in MOUNT (R14), the stall limit (R17), and reads that
are answered or wait for the flash (R6, R14, R15, R38). -/

namespace Sys2Proof.Machine

/-! ### The split (R3) -/

theorem splitRequest_eq (addr n : Nat) (data : List Byte) : splitRequest addr n data
    = if min n (32 - addr % 32) < n then
        [mkPiece (addr / 32) (addr % 32) (min n (32 - addr % 32)) (data.take (min n (32 - addr % 32))),
          mkPiece (addr / 32 + 1) 0 (n - min n (32 - addr % 32)) (data.drop (min n (32 - addr % 32)))]
      else [mkPiece (addr / 32) (addr % 32) (min n (32 - addr % 32)) (data.take (min n (32 - addr % 32)))] := rfl

theorem splitRequest_cases (addr n : Nat) (data : List Byte) :
    n ≤ 32 - addr % 32 ∧ splitRequest addr n data = [mkPiece (addr / 32) (addr % 32) n (data.take n)]
      ∨ 32 - addr % 32 < n ∧ splitRequest addr n data
        = [mkPiece (addr / 32) (addr % 32) (32 - addr % 32) (data.take (32 - addr % 32)),
            mkPiece (addr / 32 + 1) 0 (n - (32 - addr % 32)) (data.drop (32 - addr % 32))] := by
  rw [splitRequest_eq]
  rcases Nat.lt_or_ge (32 - addr % 32) n with h | h
  · exact .inr ⟨h, by rw [min_eq_right h.le, if_pos h]⟩
  · exact .inl ⟨h, by rw [min_eq_left h, if_neg (lt_irrefl n)]⟩

/-- A piece as the split makes it. -/
def Piece.fresh (p : Piece) : Prop := p.tag = none ∧ p.merge = none ∧ p.result = none

theorem fresh_of_mem_splitRequest {addr n : Nat} {data : List Byte} {p : Piece} (h : p ∈ splitRequest addr n data) :
    p.fresh := by
  rw [splitRequest_eq] at h
  split_ifs at h
  · rcases List.mem_pair.mp h with rfl | rfl <;> exact ⟨rfl, rfl, rfl⟩
  · rw [List.mem_singleton.mp h]
    exact ⟨rfl, rfl, rfl⟩

theorem Piece.fresh.untagged {p : Piece} (h : p.fresh) : p.untagged = p := by
  obtain ⟨htag, hmerge, _⟩ := h
  cases p
  simp_all [Piece.untagged]

theorem map_untagged_splitRequest (addr n : Nat) (data : List Byte) :
    (splitRequest addr n data).map Piece.untagged = splitRequest addr n data := by
  rw [List.map_congr_left fun p hp => (fresh_of_mem_splitRequest hp).untagged, List.map_id']

theorem splitRequest_ne_nil (addr n : Nat) (data : List Byte) : splitRequest addr n data ≠ [] := by
  rw [splitRequest_eq]
  split_ifs <;> simp

theorem sum_length_splitRequest (addr n : Nat) (data : List Byte) :
    ((splitRequest addr n data).map (·.length)).sum = n := by
  rcases splitRequest_cases addr n data with ⟨_, h⟩ | ⟨hlt, h⟩
  · simp [h, mkPiece]
  · simp [h, mkPiece]; omega

theorem head_splitRequest (addr n : Nat) (data : List Byte) :
    ∃ p, (splitRequest addr n data)[0]? = some p ∧ p.busLine = addr / 32 ∧ p.offset = addr % 32 := by
  rw [splitRequest_eq]
  split_ifs <;> exact ⟨_, rfl, rfl, rfl⟩

theorem inRange_iff (p : Piece) : p.inRange = true ↔ p.busLine < 8192 := decide_eq_true_iff

/-- Every piece of a request that begins behind the store lies out of range (R4, R6). -/
theorem splitRequest_outOfRange {addr n : Nat} {data : List Byte} (h : 262144 ≤ addr) {p : Piece}
    (hp : p ∈ splitRequest addr n data) : p.inRange = false := by
  have hline : addr / 32 ≤ p.busLine := by
    rw [splitRequest_eq] at hp
    split_ifs at hp
    · rcases List.mem_pair.mp hp with rfl | rfl
      · exact le_rfl
      · exact Nat.le_succ _
    · rw [List.mem_singleton.mp hp]
      exact le_rfl
  rw [Bool.eq_false_iff, Ne, inRange_iff]
  omega

/-! ### A request taken (R1) -/

theorem validCount_of {n : Nat} (h1 : 1 ≤ n) (h2 : n ≤ 32) : validCount n = true := by
  simp [validCount, h1, h2, Config.maxRequest]

theorem validCount_of_not {n : Nat} (h : n = 0 ∨ 32 < n) : validCount n = false := by
  rw [Bool.eq_false_iff, Ne, validCount, Bool.and_eq_true, decide_eq_true_eq, decide_eq_true_eq]
  show ¬(1 ≤ n ∧ n ≤ 32)
  omega

theorem exec_readRequest {s : State} {addr : BitVec 24} {n : Nat} (hon : s.power = .on) (hfree : s.port.request = none)
    (h1 : 1 ≤ n) (h2 : n ≤ 32) :
    exec (.readRequest addr n) s = .next (s.takeRequest false addr.toNat n []).settle := by
  show execReadRequest addr n s = _
  have harrives : State.readArrives addr n s = s.takeRequest false addr.toNat n [] := by simp [State.readArrives, hfree]
  rw [execReadRequest, if_pos (validCount_of h1 h2), taken_on s _ hon, harrives]

theorem exec_writeRequest {s : State} {addr : BitVec 24} {data : List Byte} (hon : s.power = .on)
    (hfree : s.port.request = none) (h1 : 1 ≤ data.length) (h2 : data.length ≤ 32) :
    exec (.writeRequest addr data) s = .next (s.takeRequest true addr.toNat data.length data).settle := by
  show execWriteRequest addr data s = _
  have harrives : State.writeArrives addr data s = s.takeRequest true addr.toNat data.length data := by
    simp [State.writeArrives, hfree]
  rw [execWriteRequest, if_pos (validCount_of h1 h2), taken_on s _ hon, harrives]

/-! ### Requests that wait in MOUNT (R14) -/

@[simp] theorem abandonRead_port (s : State) : s.abandonRead.port = s.port := by
  unfold State.abandonRead
  split
  · rfl
  · split <;> rfl

@[simp] theorem settleGroups_commandHold (s : State) : s.settleGroups.commandHold = s.commandHold :=
  congrArg Works.held (works_settleGroups s)

/-- In MOUNT the request at the port is taken up once and then stands still. -/
theorem settle_port_of_mount (s : State) (p : Port) (hm : s.mgmt.mode = .mount)
    (hfirst : ∀ u : State, u.port = s.port → u.mgmt.mode = .mount → u.portStep.port = p ∧ u.portStep.mgmt.mode = .mount)
    (hsecond : ∀ u : State, u.port = p → u.mgmt.mode = .mount → u.portStep.port = p) : s.settle.port = p := by
  have hround : s.settleRound = s.settleGroups.portStep := settleRound_of_settled s (by rw [hm]; rfl)
  obtain ⟨hport, hmode⟩ := hfirst s.settleGroups (settleGroups_port s) (by rw [settleGroups_mgmt, hm])
  have hround' : s.settleRound.settleRound = s.settleRound.settleGroups.portStep :=
    settleRound_of_settled _ (by rw [hround, hmode]; rfl)
  rw [settle_eq, settleTail_port, hround', hround]
  exact hsecond _ (by rw [settleGroups_port, hport]) (by rw [settleGroups_mgmt, hmode])

theorem portStep_of_waiting {s : State} {r : Request} (hr : s.port.request = some r) (hphase : r.phase = .checking)
    (hretake : r.retake = false) : s.portStep = s := by
  simp [State.portStep, hr, hphase, hretake]

theorem portStep_of_taken {s : State} {r : Request} (hr : s.port.request = some r) (hphase : r.phase = .checking)
    (hretake : r.retake = true) : s.portStep = if r.write then s.checkWrite r else s.checkRead r := by
  simp [State.portStep, hr, hphase, hretake]

theorem settle_port_of_taken_in_mount (s : State) (write : Bool) (addr n : Nat) (data : List Byte)
    (hm : s.mgmt.mode = .mount) :
    (s.takeRequest write addr n data).settle.port = { s.port with
      request := some
        { write := write, addr := addr, count := n, limit := s.mgmt.settings.stall, elapsed := 0,
          phase := .checking, retake := false, pieces := splitRequest addr n data } } := by
  refine settle_port_of_mount (s.takeRequest write addr n data) _ hm (fun u hu humode => ?_) fun u hu _ => ?_
  · have hr : u.port.request = some
        { write := write, addr := addr, count := n, limit := s.mgmt.settings.stall, elapsed := 0,
          phase := .checking, retake := true, pieces := splitRequest addr n data } := by rw [hu]; rfl
    rw [portStep_of_taken hr rfl rfl]
    cases write
    case false =>
      simp [State.checkRead, humode, State.setRequest, hu, State.takeRequest]
    case true =>
      have habandoned : u.abandonRead.mgmt = u.mgmt := by
        unfold State.abandonRead
        split
        · rfl
        · split <;> rfl
      simp [State.checkWrite, humode, State.waitChecking, State.setRequest, hu, State.takeRequest, habandoned,
        map_untagged_splitRequest]
  · rw [portStep_of_waiting (by rw [hu]) rfl rfl, hu]

/-- Settles O10: in MOUNT the port takes the request up once and leaves it in the checking phase. -/
theorem requestsWaitInMount : Obligations.RequestsWaitInMount := by
  unfold Obligations.RequestsWaitInMount
  refine ⟨?read, ?write⟩
  case read =>
    intro s addr n hon hm hfree h1 h2
    refine ⟨_, exec_readRequest hon hfree h1 h2, settle_port_of_taken_in_mount s _ _ _ _ hm, ?_⟩
    rw [standing_settle]
    rfl
  case write =>
    intro s addr data hon hm hfree h1 h2
    refine ⟨_, exec_writeRequest hon hfree h1 h2, settle_port_of_taken_in_mount s _ _ _ _ hm, ?_⟩
    rw [standing_settle]
    rfl

/-! ### The stall limit (R17) -/

theorem endRequest_port (s : State) (r : Request) (c : Cause) : (s.endRequest r c).port = { s.port with
    request := none
    response := some { cause := some c, data := if r.write then [] else List.replicate r.count s.mgmt.settings.fill } } := by
  simp [State.endRequest, State.refuse, State.respond, State.upstreamFault, faultOf, State.fillBytes]

/-- Settles O15: the request ends, and with none at the port nothing follows there. -/
theorem stallExpiryEndsTheRequest : Obligations.StallExpiryEndsTheRequest := by
  intro s r hon hr
  have hends : s.stallExpired = s.endRequest r (if s.mgmt.mode = .mount then .notReady else .stallTimeout) := by
    simp [State.stallExpired, hr]
  have hport := endRequest_port s r (if s.mgmt.mode = .mount then .notReady else .stallTimeout)
  refine ⟨_, taken_eq s State.stallExpired _ hon hends, ?port, ?standing⟩
  case port => rw [settle_port_of_none _ (by rw [hport]), hport]
  case standing => rw [standing_settle, standing_endRequest]

/-- Settles O16: the first piece ends with its line or with the request, the second has what is left. -/
theorem requestsSplitIntoPieces : Obligations.RequestsSplitIntoPieces := by
  unfold Obligations.RequestsSplitIntoPieces
  refine ⟨?pieces, ?reads, ?writes⟩
  case pieces =>
    intro addr data h1 h2
    rcases splitRequest_cases addr.toNat data.length data with ⟨hle, h⟩ | ⟨hlt, h⟩
    · rw [h]
      simp [mkPiece]
      omega
    · rw [h]
      simp [mkPiece]
      omega
  case reads =>
    intro s addr n h
    show execReadRequest addr n s = _
    rw [execReadRequest, validCount_of_not h]
    rfl
  case writes =>
    intro s addr data h
    show execWriteRequest addr data s = _
    rw [execWriteRequest, validCount_of_not h]
    rfl

/-! ### What a state at rest makes of a request (R14, R38) -/

theorem atRest_port {s : State} (p : Port) (h : s.atRest = true) (hp : p.request = none) :
    State.atRest { s with port := p } = true := by
  obtain ⟨hcalm, _, hidle, hdead, hspace⟩ := atRest_parts s h
  have hdead' : State.freeDeadGroups { s with port := p } = { s with port := p } := by
    have hcomm : State.freeDeadGroups { s with port := p } = { s.freeDeadGroups with port := p } := rfl
    rw [hcomm, hdead]
  have hcalm' : State.calm { s with port := p } = true := hcalm
  have hidle' : State.readInFlight { s with port := p } = false := hidle
  have hspace' : s.mgmt.spaceLow = State.headStalled { s with port := p } := hspace
  simp [State.atRest, hcalm', hp, hidle', hdead', hspace'.symm]

theorem atRest_wipeCut {s : State} (h : s.atRest = true) : s.wipeCut = false := by
  simp only [State.atRest, State.calm, Bool.and_eq_true] at h
  simpa using h.1.1.1.1.2

theorem atRest_reportFault {s : State} (f : FaultReport) (h : s.atRest = true) : (s.reportFault f).atRest = true := by
  have hcut := atRest_wipeCut h
  cases hf : s.mgmt.fault with
  | none =>
    rw [reportFault_of_free f hf]
    exact atRest_of_mgmt s _ s.health rfl rfl hcut h
  | some g =>
    rw [reportFault_of_held f (by simp [hf])]
    exact atRest_of_mgmt s _ s.health rfl rfl hcut h

/-- A response given to a request that arrived at rest. -/
def State.answered (s : State) (c : Option Cause) (data : List Byte) : State :=
  { s with port := { s.port with request := none, response := some { cause := c, data := data } } }

theorem atRest_answered {s : State} (c : Option Cause) (data : List Byte) (h : s.atRest = true) :
    (s.answered c data).atRest = true := atRest_port _ h rfl

theorem respond_of_rest {s : State} (h : s.atRest = true) (r : Request) (c : Option Cause) (data : List Byte) :
    (s.setRequest r).respond c data = s.answered c data := by
  have hidle : (s.setRequest r).readInFlight = false := (atRest_parts s h).2.2.1
  unfold State.respond
  rw [abandonRead_of_none _ hidle]
  rfl

/-- What a read piece is answered with, when no flash is needed (R6, R14, R15, R38). -/
def State.readResult (s : State) (p : Piece) : Option PieceResult :=
  if p.inRange then
    match s.newestUsable (s.lineOf p) with
    | some e => some { bytes := p.bytesOf e.image, cause := none }
    | none =>
      if s.mgmt.mode = .halted then some { bytes := s.fillBytes p.length, cause := some .flashLost }
      else
        match (s.entry (s.lineOf p)).current with
        | none => some { bytes := s.fillBytes p.length, cause := none }
        | some _ => none
  else some { bytes := s.fillBytes p.length, cause := if s.mgmt.settings.strict then some .outOfRange else none }

/-- A read piece with what it is answered with. -/
def State.readPiece (s : State) (p : Piece) : Piece := { p with result := s.readResult p }

theorem readResult_of_forwarded {s : State} {p : Piece} {e : LineEntry} (hin : p.inRange = true)
    (he : s.newestUsable (s.lineOf p) = some e) : s.readResult p = some { bytes := p.bytesOf e.image, cause := none } := by
  simp [State.readResult, hin, he]

theorem readResult_of_filled {s : State} {p : Piece} (hin : p.inRange = true)
    (he : s.newestUsable (s.lineOf p) = none) (hm : s.mgmt.mode ≠ .halted)
    (hc : (s.entry (s.lineOf p)).current = none) :
    s.readResult p = some { bytes := s.fillBytes p.length, cause := none } := by
  simp [State.readResult, hin, he, hm, hc]

theorem readResult_of_lost {s : State} {p : Piece} (hin : p.inRange = true)
    (he : s.newestUsable (s.lineOf p) = none) (hm : s.mgmt.mode = .halted) :
    s.readResult p = some { bytes := s.fillBytes p.length, cause := some .flashLost } := by
  simp [State.readResult, hin, he, hm]

theorem readResult_of_recorded {s : State} {p : Piece} (hin : p.inRange = true)
    (he : s.newestUsable (s.lineOf p) = none) (hm : s.mgmt.mode ≠ .halted)
    (hc : (s.entry (s.lineOf p)).current.isSome = true) : s.readResult p = none := by
  obtain ⟨x, hx⟩ := Option.isSome_iff_exists.mp hc
  simp [State.readResult, hin, he, hm, hx]

theorem readResult_of_outOfRange {s : State} {p : Piece} (hin : p.inRange = false) : s.readResult p
    = some { bytes := s.fillBytes p.length, cause := if s.mgmt.settings.strict then some .outOfRange else none } := by
  simp [State.readResult, hin]

theorem endOutOfRange_of_inRange {s : State} {p : Piece} (hin : p.inRange = true) : s.endOutOfRange p = p :=
  if_pos hin

theorem endOutOfRange_of_not {s : State} {p : Piece} (hin : p.inRange = false) : s.endOutOfRange p = s.readPiece p := by
  simp [State.endOutOfRange, State.readPiece, readResult_of_outOfRange hin, hin, Piece.ended]

theorem servePiece_eq_readPiece {s : State} {p : Piece} (hin : p.inRange = true) (hp : p.result = none) :
    s.servePiece p = s.readPiece p := by
  obtain ⟨busLine, offset, length, data, tag, merge, result⟩ := p
  obtain rfl : result = none := hp
  simp only [State.servePiece, State.readPiece, State.readResult, hin, State.resolvePiece]
  cases s.newestUsable (s.lineOf _) with
  | some e => simp [Piece.ended, Piece.bytesOf]
  | none =>
    by_cases hm : s.mgmt.mode = .halted
    · cases (s.entry (s.lineOf _)).current <;> simp [hm, Piece.ended]
    · cases (s.entry (s.lineOf _)).current <;> simp [hm, Piece.ended]

/-- Pieces that need no flash are all served at once. -/
theorem resolvePieces_of_served {s : State} {ps : List Piece}
    (h : ∀ p ∈ ps, p.result = none ∧ (s.readResult p).isSome = true) (rest : List Piece) :
    s.resolvePieces (ps.map s.endOutOfRange ++ rest) = ps.map s.readPiece ++ s.resolvePieces rest := by
  induction ps with
  | nil => rfl
  | cons p ps ih =>
    obtain ⟨hp, hresult⟩ := h p List.mem_cons_self
    have hrest := ih fun q hq => h q (List.mem_cons_of_mem p hq)
    have hread : (s.readPiece p).result.isSome = true := hresult
    cases hin : p.inRange with
    | true =>
      simp [endOutOfRange_of_inRange hin, State.resolvePieces, hp, servePiece_eq_readPiece hin hp, hread, hrest]
    | false => simp [endOutOfRange_of_not hin, State.resolvePieces, hread, hrest]

/-- Pieces already served stay as they are. -/
theorem resolvePieces_of_ended {s : State} {ps : List Piece} (h : ∀ p ∈ ps, p.result.isSome = true)
    (rest : List Piece) : s.resolvePieces (ps ++ rest) = ps ++ s.resolvePieces rest := by
  induction ps with
  | nil => rfl
  | cons p ps ih =>
    simp [State.resolvePieces, h p List.mem_cons_self, ih fun q hq => h q (List.mem_cons_of_mem p hq)]

/-- A piece that needs the flash stops the serving. -/
theorem resolvePieces_of_recorded {s : State} {p : Piece} (hin : p.inRange = true) (hp : p.result = none)
    (hresult : s.readResult p = none) (rest : List Piece) : s.resolvePieces (p :: rest) = p :: rest := by
  have hself : s.readPiece p = p := by
    unfold State.readPiece
    rw [hresult, ← hp]
  simp [State.resolvePieces, hp, servePiece_eq_readPiece hin hp, hself]

/-- Serving a piece does not look at the request at the port. -/
theorem resolvePieces_setRequest (s : State) (r : Request) (ps : List Piece) :
    (s.setRequest r).resolvePieces ps = s.resolvePieces ps := by
  induction ps with
  | nil => rfl
  | cons p ps ih =>
    have hserve : (s.setRequest r).servePiece p = s.servePiece p := rfl
    simp only [State.resolvePieces, ih, hserve]

/-- What follows the arrival of a request, when the port answers it. -/
theorem settle_of_takeRequest {s u : State} {write : Bool} {addr n : Nat} {data : List Byte} (h : s.atRest = true)
    (hport : (s.takeRequest write addr n data).portStep = u) (hu : u.atRest = true) :
    (s.takeRequest write addr n data).settle = u :=
  settle_of_answer s u (s.takeRequest write addr n data).port h hport hu

theorem respond_of_takeRequest {s : State} (h : s.atRest = true) (write : Bool) (addr n : Nat) (data : List Byte)
    (c : Option Cause) (bs : List Byte) : (s.takeRequest write addr n data).respond c bs = s.answered c bs :=
  respond_of_rest h _ c bs

/-- The request of a read that has been taken. -/
def State.readRequest (s : State) (addr n : Nat) (ps : List Piece) : Request :=
  { write := false, addr := addr, count := n, limit := s.mgmt.settings.stall, elapsed := 0, phase := .reading,
    retake := false, pieces := ps }

theorem portStep_of_read {s : State} (h : s.atRest = true) (addr n : Nat)
    (hm : s.mgmt.mode = .run ∨ s.mgmt.mode = .readonly ∨ s.mgmt.mode = .drain ∨ s.mgmt.mode = .halted) :
    (s.takeRequest false addr n []).portStep = (s.takeRequest false addr n []).answerRead
      (s.readRequest addr n (s.resolvePieces ((splitRequest addr n []).map s.endOutOfRange))) := by
  have hidle : (s.takeRequest false addr n []).readInFlight = false := (atRest_parts s h).2.2.1
  rw [portStep_of_taken (s := s.takeRequest false addr n []) rfl rfl rfl]
  have hmode : (s.takeRequest false addr n []).mgmt.mode = s.mgmt.mode := rfl
  have hresolve : ∀ ps, (s.takeRequest false addr n []).resolvePieces ps = s.resolvePieces ps :=
    resolvePieces_setRequest s _
  rcases hm with hm | hm | hm | hm <;>
    (simp only [State.checkRead, State.stepRead, hmode, hm, hidle, Bool.false_eq_true, if_false, hresolve]; rfl)

theorem answerRead_of_ok {s : State} {r : Request} (hall : r.pieces.all (fun p => p.result.isSome) = true)
    (hok : r.pieces.find? (fun p => p.cause.isSome) = none) :
    s.answerRead r = s.respond none (r.pieces.map Piece.served).flatten := by
  simp [State.answerRead, hall, hok]

theorem answerRead_of_failed {s : State} {r : Request} {p : Piece} {c : Cause}
    (hall : r.pieces.all (fun p => p.result.isSome) = true)
    (hfail : r.pieces.find? (fun p => p.cause.isSome) = some p) (hc : p.cause = some c) :
    s.answerRead r = s.refuse (s.upstreamFault c (if c = .outOfRange then p.addr else r.addr))
      (r.pieces.map Piece.served).flatten := by
  simp only [State.answerRead, hall, if_true, hfail, hc]
  cases c <;> rfl

theorem answerRead_of_waiting {s : State} {r : Request} (h : r.pieces.all (fun p => p.result.isSome) = false) :
    s.answerRead r = s.setRequest r := by
  simp [State.answerRead, h]

/-! ### A read that needs no flash -/

/-- What the pieces of a read are answered with. -/
def State.readData (s : State) (ps : List Piece) : List Byte := (ps.map fun p => (s.readPiece p).served).flatten

theorem resolvePieces_splitRequest {s : State} {addr n : Nat}
    (h : ∀ p ∈ splitRequest addr n [], (s.readResult p).isSome = true) :
    s.resolvePieces ((splitRequest addr n []).map s.endOutOfRange) = (splitRequest addr n []).map s.readPiece := by
  have hserved := resolvePieces_of_served (s := s)
    (fun p hp => ⟨(fresh_of_mem_splitRequest hp).2.2, h p hp⟩) []
  simpa [State.resolvePieces] using hserved

theorem all_readPiece {s : State} {ps : List Piece} (h : ∀ p ∈ ps, (s.readResult p).isSome = true) :
    (ps.map s.readPiece).all (fun p => p.result.isSome) = true := by
  simpa [State.readPiece] using h

/-- Every piece is served with OK: the read is answered at once. -/
theorem exec_readRequest_ok {s : State} {addr : BitVec 24} {n : Nat} (h : s.atRest = true) (h1 : 1 ≤ n) (h2 : n ≤ 32)
    (hm : s.mgmt.mode = .run ∨ s.mgmt.mode = .readonly ∨ s.mgmt.mode = .drain ∨ s.mgmt.mode = .halted)
    (hok : ∀ p ∈ splitRequest addr.toNat n [], ∃ bs, s.readResult p = some { bytes := bs, cause := none }) :
    exec (.readRequest addr n) s = .next (s.answered none (s.readData (splitRequest addr.toNat n []))) := by
  have hserved : ∀ p ∈ splitRequest addr.toNat n [], (s.readResult p).isSome = true := fun p hp => by
    obtain ⟨bs, hbs⟩ := hok p hp
    rw [hbs]; rfl
  have hnone : ((splitRequest addr.toNat n []).map s.readPiece).find? (fun p => p.cause.isSome) = none := by
    simp only [List.find?_eq_none, List.mem_map, forall_exists_index, and_imp, forall_apply_eq_imp_iff₂]
    intro p hp
    obtain ⟨bs, hbs⟩ := hok p hp
    simp [Piece.cause, State.readPiece, hbs]
  rw [exec_readRequest (atRest_power s h) (atRest_parts s h).2.1 h1 h2]
  refine congrArg Host.Outcome.next ?_
  refine settle_of_takeRequest h ?_ (atRest_answered none _ h)
  rw [portStep_of_read h _ _ hm, resolvePieces_splitRequest hserved,
    answerRead_of_ok (all_readPiece hserved) hnone, respond_of_takeRequest h]
  simp only [State.readRequest, State.readData, List.map_map, Function.comp_def]

/-- A piece ends in ERROR: the first such one names the cause. -/
theorem exec_readRequest_failed {s : State} {addr : BitVec 24} {n : Nat} {p : Piece} {c : Cause} (h : s.atRest = true)
    (h1 : 1 ≤ n) (h2 : n ≤ 32)
    (hm : s.mgmt.mode = .run ∨ s.mgmt.mode = .readonly ∨ s.mgmt.mode = .drain ∨ s.mgmt.mode = .halted)
    (hserved : ∀ p ∈ splitRequest addr.toNat n [], (s.readResult p).isSome = true)
    (hfail : (splitRequest addr.toNat n []).find? (fun p => (s.readPiece p).cause.isSome) = some p)
    (hc : (s.readPiece p).cause = some c) :
    exec (.readRequest addr n) s
      = .next ((s.answered (some c) (s.readData (splitRequest addr.toNat n []))).reportFault
          (s.upstreamFault c (if c = .outOfRange then p.addr else addr.toNat))) := by
  have hfail' : ((splitRequest addr.toNat n []).map s.readPiece).find? (fun p => p.cause.isSome)
      = some (s.readPiece p) := by
    rw [List.find?_map]
    simpa [Function.comp_def] using ⟨p, hfail, rfl⟩
  rw [exec_readRequest (atRest_power s h) (atRest_parts s h).2.1 h1 h2]
  refine congrArg Host.Outcome.next ?_
  refine settle_of_takeRequest h ?_ (atRest_reportFault _ (atRest_answered _ _ h))
  rw [portStep_of_read h _ _ hm, resolvePieces_splitRequest hserved,
    answerRead_of_failed (all_readPiece hserved) hfail' hc, State.refuse, respond_of_takeRequest h]
  simp only [State.readRequest, State.readData, List.map_map, Function.comp_def]
  rfl

/-! ### A read that waits for the flash -/

theorem portStep_of_reading {s : State} {r : Request} (hr : s.port.request = some r) (hphase : r.phase = .reading)
    (hm : s.mgmt.mode = .run ∨ s.mgmt.mode = .readonly ∨ s.mgmt.mode = .drain) (hidle : s.readInFlight = false) :
    s.portStep = s.answerRead { r with pieces := s.resolvePieces r.pieces } := by
  rcases hm with hm | hm | hm <;> simp [State.portStep, hr, hphase, State.stepRead, hm, hidle]

theorem all_served_false {before rest : List Piece} {p : Piece} (hp : p.result = none) :
    (before ++ p :: rest).all (fun p => p.result.isSome) = false := by
  simp [hp]

/-- A read whose next piece needs the flash stands still. -/
theorem portStep_of_waitingRead {s : State} {ps : List Piece} (h : s.atRest = true) (addr n : Nat)
    (hm : s.mgmt.mode = .run ∨ s.mgmt.mode = .readonly ∨ s.mgmt.mode = .drain) (hresolve : s.resolvePieces ps = ps)
    (hall : ps.all (fun p => p.result.isSome) = false) :
    (s.setRequest (s.readRequest addr n ps)).portStep = s.setRequest (s.readRequest addr n ps) := by
  have hidle : (s.setRequest (s.readRequest addr n ps)).readInFlight = false := (atRest_parts s h).2.2.1
  rw [portStep_of_reading (s := s.setRequest (s.readRequest addr n ps)) rfl rfl hm hidle, resolvePieces_setRequest]
  simp only [State.readRequest, hresolve]
  exact answerRead_of_waiting hall

theorem exec_readRequest_waits {s : State} {addr : BitVec 24} {n : Nat} {before after : List Piece} {p : Piece}
    (h : s.atRest = true) (h1 : 1 ≤ n) (h2 : n ≤ 32)
    (hm : s.mgmt.mode = .run ∨ s.mgmt.mode = .readonly ∨ s.mgmt.mode = .drain)
    (hsplit : splitRequest addr.toNat n [] = before ++ p :: after)
    (hbefore : ∀ q ∈ before, (s.readResult q).isSome = true) (hin : p.inRange = true) (hp : s.readResult p = none) :
    exec (.readRequest addr n) s = .next (s.setRequest
      (s.readRequest addr.toNat n (before.map s.readPiece ++ p :: after.map s.endOutOfRange))) := by
  have hfresh : ∀ q, q ∈ before ++ p :: after → q.fresh := fun q hq => fresh_of_mem_splitRequest (hsplit ▸ hq)
  have hpfresh : p.result = none := (hfresh p (by simp)).2.2
  have hmoves : (s.takeRequest false addr.toNat n []).portStep = s.setRequest
      (s.readRequest addr.toNat n (before.map s.readPiece ++ p :: after.map s.endOutOfRange)) := by
    have hserved := resolvePieces_of_served (s := s)
      (fun q hq => ⟨(hfresh q (List.mem_append_left _ hq)).2.2, hbefore q hq⟩) (p :: after.map s.endOutOfRange)
    have hm' : s.mgmt.mode = .run ∨ s.mgmt.mode = .readonly ∨ s.mgmt.mode = .drain ∨ s.mgmt.mode = .halted := by tauto
    rw [portStep_of_read h _ _ hm', hsplit, List.map_append, List.map_cons, endOutOfRange_of_inRange hin, hserved,
      resolvePieces_of_recorded hin hpfresh hp]
    exact answerRead_of_waiting (all_served_false hpfresh)
  have hended : ∀ q ∈ before.map s.readPiece, q.result.isSome = true := by
    intro q hq
    obtain ⟨x, hx, rfl⟩ := List.mem_map.mp hq
    exact hbefore x hx
  have hstands : (s.setRequest (s.readRequest addr.toNat n
      (before.map s.readPiece ++ p :: after.map s.endOutOfRange))).portStep = s.setRequest
        (s.readRequest addr.toNat n (before.map s.readPiece ++ p :: after.map s.endOutOfRange)) := by
    refine portStep_of_waitingRead h _ _ hm ?_ (all_served_false hpfresh)
    rw [resolvePieces_of_ended hended, resolvePieces_of_recorded hin hpfresh hp]
  obtain ⟨hcalm, _, _, hdead, hspace⟩ := atRest_parts s h
  rw [exec_readRequest (atRest_power s h) (atRest_parts s h).2.1 h1 h2]
  refine congrArg Host.Outcome.next ?_
  refine settle_of_port s _ _ h hmoves hcalm ?_ hstands ?_
  · exact congrArg (fun t : State => t.setRequest _) hdead
  · exact hspace.symm

/-- What the obligations write for the bytes of a piece that needs no flash. -/
theorem readPiece_served_of_ok {s : State} {p : Piece} (hin : p.inRange = true)
    (hp : (s.newestUsable (s.lineOf p)).isSome = true
      ∨ (s.entry (s.lineOf p)).current = none ∧ s.mgmt.mode ≠ .halted) :
    s.readResult p = some
      { bytes := (match s.newestUsable (s.lineOf p) with
          | some e => (e.image.drop p.offset).take p.length
          | none => List.replicate p.length s.mgmt.settings.fill), cause := none } := by
  cases he : s.newestUsable (s.lineOf p) with
  | some e => exact readResult_of_forwarded hin he
  | none =>
    rw [he] at hp
    obtain ⟨hc, hm⟩ := hp.resolve_left (by simp)
    exact readResult_of_filled hin he hm hc

/-- Settles O11: the pieces are served one after the other; all of them, or as far as the first that needs the flash. -/
theorem readServedFromQueueOrFill : Obligations.ReadServedFromQueueOrFill := by
  unfold Obligations.ReadServedFromQueueOrFill
  refine ⟨?served, ?waits⟩
  case served =>
    intro s addr n h h1 h2 hm hpieces
    have hresult : ∀ p ∈ splitRequest addr.toNat n [], s.readResult p = some
        { bytes := (match s.newestUsable (s.lineOf p) with
            | some e => (e.image.drop p.offset).take p.length
            | none => List.replicate p.length s.mgmt.settings.fill), cause := none } := by
      intro p hp
      obtain ⟨hin, hserved⟩ := hpieces p hp
      refine readPiece_served_of_ok hin ?_
      rcases hm with hm | hm | hm | ⟨_, hall⟩
      · exact hserved.imp_right fun hc => ⟨hc, by simp [hm]⟩
      · exact hserved.imp_right fun hc => ⟨hc, by simp [hm]⟩
      · exact hserved.imp_right fun hc => ⟨hc, by simp [hm]⟩
      · exact .inl (hall p hp)
    have hm' : s.mgmt.mode = .run ∨ s.mgmt.mode = .readonly ∨ s.mgmt.mode = .drain ∨ s.mgmt.mode = .halted := by tauto
    rw [exec_readRequest_ok h h1 h2 hm' fun p hp => ⟨_, hresult p hp⟩]
    have hdata : s.readData (splitRequest addr.toNat n []) = ((splitRequest addr.toNat n []).map fun p =>
        match s.newestUsable (s.lineOf p) with
        | some e => (e.image.drop p.offset).take p.length
        | none => List.replicate p.length s.mgmt.settings.fill).flatten := by
      refine congrArg List.flatten (List.map_congr_left fun p hp => ?_)
      simp only [Piece.served, State.readPiece, hresult p hp]
      rfl
    rw [hdata]
    rfl
  case waits =>
    intro s addr n before after p h h1 h2 hm hsplit hbefore hin he hc
    have hnot : s.mgmt.mode ≠ .halted := by rcases hm with hm | hm | hm <;> simp [hm]
    have hresult : ∀ q ∈ before, s.readResult q = some
        { bytes := (match s.newestUsable (s.lineOf q) with
            | some e => (e.image.drop q.offset).take q.length
            | none => List.replicate q.length s.mgmt.settings.fill), cause := none } := fun q hq =>
      readPiece_served_of_ok (hbefore q hq).1 ((hbefore q hq).2.imp_right fun hcq => ⟨hcq, hnot⟩)
    rw [exec_readRequest_waits h h1 h2 hm hsplit (fun q hq => by rw [hresult q hq]; rfl) hin
      (readResult_of_recorded hin he hnot hc)]
    have hserved : before.map s.readPiece = before.map fun q => { q with
        result := some
          { bytes := (match s.newestUsable (s.lineOf q) with
              | some e => (e.image.drop q.offset).take q.length
              | none => List.replicate q.length s.mgmt.settings.fill), cause := none } } :=
      List.map_congr_left fun q hq => by rw [State.readPiece, hresult q hq]
    rw [hserved]
    rfl

end Sys2Proof.Machine
end

section
/-! Reads out of range, in SERVICE and in HALTED (R6, R14, R15). -/

namespace Sys2Proof.Machine

theorem lineOfAddr_outOfRange (s : State) {addr : Nat} (h : 262144 ≤ addr) : s.lineOfAddr addr = none := by
  unfold State.lineOfAddr
  refine if_neg ?_
  show ¬addr / 32 < 8192
  omega

theorem upstreamFault_outOfRange (s : State) {addr : Nat} (h : 262144 ≤ addr) :
    s.upstreamFault .outOfRange addr = { faultOf .outOfRange with addr := some addr } := by
  simp [State.upstreamFault, lineOfAddr_outOfRange s h, faultOf]

theorem addr_head_splitRequest {addr n : Nat} {data : List Byte} {p : Piece}
    (h : (splitRequest addr n data)[0]? = some p) : p.addr = addr := by
  obtain ⟨q, hq, hline, hoffset⟩ := head_splitRequest addr n data
  obtain rfl : q = p := Option.some.inj (hq.symm.trans h)
  show q.busLine * 32 + q.offset = addr
  omega

/-- The second piece of a request that leaves the store begins behind its last byte (R4). -/
theorem addr_second_splitRequest {addr n : Nat} {data : List Byte} {p q : Piece}
    (h : splitRequest addr n data = [p, q]) (hp : p.inRange = true) (hq : q.inRange = false) : q.addr = 262144 := by
  rcases splitRequest_cases addr n data with ⟨_, hone⟩ | ⟨_, htwo⟩
  · simp [hone] at h
  · rw [htwo] at h
    obtain ⟨rfl, rfl⟩ : _ = p ∧ _ = q := by simpa using h
    rw [inRange_iff] at hp
    rw [Bool.eq_false_iff, Ne, inRange_iff] at hq
    simp only [mkPiece, Piece.addr, Config.lineBytes] at hp hq ⊢
    omega

theorem readPiece_cause {s : State} {p : Piece} {x : PieceResult} (h : s.readResult p = some x) :
    (s.readPiece p).cause = x.cause := by
  simp [Piece.cause, State.readPiece, h]

theorem readPiece_served {s : State} {p : Piece} {x : PieceResult} (h : s.readResult p = some x) :
    (s.readPiece p).served = x.bytes := by
  simp [Piece.served, State.readPiece, h]

theorem readData_outOfRange (s : State) {addr n : Nat} (h : 262144 ≤ addr) :
    s.readData (splitRequest addr n []) = List.replicate n s.mgmt.settings.fill := by
  have hserved : ∀ p ∈ splitRequest addr n [], (s.readPiece p).served = List.replicate p.length s.mgmt.settings.fill :=
    fun p hp => readPiece_served (readResult_of_outOfRange (splitRequest_outOfRange h hp))
  unfold State.readData
  rw [List.map_congr_left hserved]
  rcases splitRequest_cases addr n [] with ⟨_, heq⟩ | ⟨hlt, heq⟩
  · simp [heq, mkPiece]
  · simp only [heq, mkPiece, List.map_cons, List.map_nil, List.flatten_cons, List.flatten_nil, List.append_nil,
      List.replicate_append_replicate]
    congr 1
    omega

theorem portStep_of_read_in_service {s : State} (h : s.atRest = true) (hm : s.mgmt.mode = .service) (addr n : Nat) :
    (s.takeRequest false addr n []).portStep
      = (s.answered (some .notReady) (List.replicate n s.mgmt.settings.fill)).reportFault
          (s.upstreamFault .notReady addr) := by
  have hmode : (s.takeRequest false addr n []).mgmt.mode = .service := hm
  rw [portStep_of_taken (s := s.takeRequest false addr n []) rfl rfl rfl]
  simp only [Bool.false_eq_true, if_false, State.checkRead, hmode, State.endRequest, State.refuse,
    respond_of_takeRequest h]
  rfl

/-- In HALTED a piece ends in ERROR exactly when no usable entry holds it (R15). -/
theorem readPiece_cause_of_halted {s : State} {p : Piece} (hm : s.mgmt.mode = .halted) (hin : p.inRange = true) :
    (s.readPiece p).cause = if (s.newestUsable (s.lineOf p)).isSome then none else some .flashLost := by
  cases he : s.newestUsable (s.lineOf p) with
  | some e => rw [readPiece_cause (readResult_of_forwarded hin he)]; rfl
  | none => rw [readPiece_cause (readResult_of_lost hin he hm)]; rfl

theorem readPiece_served_of_inRange {s : State} {p : Piece} (hin : p.inRange = true)
    (hserved : (s.readResult p).isSome = true) :
    (s.readPiece p).served = match s.newestUsable (s.lineOf p) with
      | some e => (e.image.drop p.offset).take p.length
      | none => List.replicate p.length s.mgmt.settings.fill := by
  cases he : s.newestUsable (s.lineOf p) with
  | some e => exact readPiece_served (readResult_of_forwarded hin he)
  | none =>
    by_cases hm : s.mgmt.mode = .halted
    · exact readPiece_served (readResult_of_lost hin he hm)
    · cases hc : (s.entry (s.lineOf p)).current with
      | none => exact readPiece_served (readResult_of_filled hin he hm hc)
      | some x => simp [readResult_of_recorded hin he hm (by simp [hc])] at hserved

theorem readResult_isSome_of_halted {s : State} (p : Piece) (hm : s.mgmt.mode = .halted) :
    (s.readResult p).isSome = true := by
  cases hin : p.inRange with
  | false => rw [readResult_of_outOfRange hin]; rfl
  | true =>
    cases he : s.newestUsable (s.lineOf p) with
    | some e => rw [readResult_of_forwarded hin he]; rfl
    | none => rw [readResult_of_lost hin he hm]; rfl

/-- Settles O12: the first piece that ends in ERROR names the cause; its bytes, and the fill bytes, are carried all the
same. -/
theorem readsOutOfRangeAndInService : Obligations.ReadsOutOfRangeAndInService := by
  unfold Obligations.ReadsOutOfRangeAndInService
  refine ⟨?outOfRange, ?service, ?halted, ?crossing⟩
  case outOfRange =>
    intro s addr n h h1 h2 hout hm
    have hresult : ∀ p ∈ splitRequest addr.toNat n [], s.readResult p = some
        { bytes := s.fillBytes p.length, cause := if s.mgmt.settings.strict then some .outOfRange else none } :=
      fun p hp => readResult_of_outOfRange (splitRequest_outOfRange hout hp)
    obtain ⟨p, hp, _⟩ := head_splitRequest addr.toNat n []
    have hpmem : p ∈ splitRequest addr.toNat n [] := List.mem_of_getElem? hp
    cases hstrict : s.mgmt.settings.strict with
    | true =>
      have hcause : ∀ q ∈ splitRequest addr.toNat n [], (s.readPiece q).cause = some .outOfRange := fun q hq => by
        rw [readPiece_cause (hresult q hq), hstrict]; rfl
      have hfirst : (splitRequest addr.toNat n []).find? (fun q => (s.readPiece q).cause.isSome) = some p := by
        cases hsplit : splitRequest addr.toNat n [] with
        | nil => exact absurd hsplit (splitRequest_ne_nil _ _ _)
        | cons q qs =>
          obtain rfl : q = p := by simpa [hsplit] using hp
          rw [List.find?_cons_of_pos]
          rw [hcause q hpmem]; rfl
      rw [exec_readRequest_failed h h1 h2 hm (fun q hq => by rw [hresult q hq]; rfl) hfirst (hcause p hpmem),
        readData_outOfRange s hout, if_pos rfl, addr_head_splitRequest hp, upstreamFault_outOfRange s hout]
      rfl
    | false =>
      rw [exec_readRequest_ok h h1 h2 hm fun q hq => ⟨s.fillBytes q.length, by rw [hresult q hq, hstrict]; rfl⟩,
        readData_outOfRange s hout]
      rfl
  case service =>
    intro s addr n h h1 h2 hm
    rw [exec_readRequest (atRest_power s h) (atRest_parts s h).2.1 h1 h2]
    exact congrArg Host.Outcome.next (settle_of_takeRequest h (portStep_of_read_in_service h hm _ _)
      (atRest_reportFault _ (atRest_answered _ _ h)))
  case halted =>
    intro s addr n h h1 h2 hm hin hlost
    have hserved : ∀ p ∈ splitRequest addr.toNat n [], (s.readResult p).isSome = true :=
      fun p _ => readResult_isSome_of_halted p hm
    obtain ⟨p, hp⟩ : ∃ p, (splitRequest addr.toNat n []).find? (fun q => (s.readPiece q).cause.isSome) = some p := by
      refine Option.isSome_iff_exists.mp (List.find?_isSome.mpr ?_)
      obtain ⟨q, hq, hnone⟩ := hlost
      exact ⟨q, hq, by rw [readPiece_cause_of_halted hm (hin q hq), hnone]; rfl⟩
    have hcause : (s.readPiece p).cause = some .flashLost := by
      have hsome := List.find?_some hp
      rw [readPiece_cause_of_halted hm (hin p (List.mem_of_find?_eq_some hp))] at hsome ⊢
      split_ifs at hsome ⊢
      · simp at hsome
      · rfl
    have hdata : s.readData (splitRequest addr.toNat n []) = ((splitRequest addr.toNat n []).map fun p =>
        match s.newestUsable (s.lineOf p) with
        | some e => (e.image.drop p.offset).take p.length
        | none => List.replicate p.length s.mgmt.settings.fill).flatten :=
      congrArg List.flatten (List.map_congr_left fun q hq => readPiece_served_of_inRange (hin q hq) (hserved q hq))
    rw [exec_readRequest_failed h h1 h2 (by simp [hm]) hserved hp hcause, hdata]
    rfl
  case crossing =>
    intro s addr n p q bs h h1 h2 hm hsplit hin hout hbs
    have hq : s.readResult q = some
        { bytes := s.fillBytes q.length, cause := if s.mgmt.settings.strict then some .outOfRange else none } :=
      readResult_of_outOfRange hout
    have hdata : (s.readResult p).isSome = true → s.readData (splitRequest addr.toNat n []) = bs := by
      intro hserved
      rw [hbs, hsplit]
      simp only [State.readData, List.map_cons, List.map_nil, List.flatten_cons, List.flatten_nil, List.append_nil,
        readPiece_served hq, readPiece_served_of_inRange hin hserved, State.fillBytes]
        <;> rfl
    refine ⟨fun hok => ?_, fun hnone hhalted => ?_⟩
    · have hp := readPiece_served_of_ok hin hok
      have hserved : ∀ x ∈ splitRequest addr.toNat n [], (s.readResult x).isSome = true := by
        rw [hsplit]
        intro x hx
        rcases List.mem_pair.mp hx with rfl | rfl
        · rw [hp]; rfl
        · rw [hq]; rfl
      have hdata' := hdata (by rw [hp]; rfl)
      cases hstrict : s.mgmt.settings.strict with
      | true =>
        have hqcause : (s.readPiece q).cause = some .outOfRange := by rw [readPiece_cause hq, hstrict]; rfl
        have hfirst : (splitRequest addr.toNat n []).find? (fun x => (s.readPiece x).cause.isSome) = some q := by
          rw [hsplit, List.find?_cons_of_neg (by rw [readPiece_cause hp]; simp),
            List.find?_cons_of_pos (by rw [hqcause]; rfl)]
        rw [exec_readRequest_failed h h1 h2 hm hserved hfirst hqcause, hdata', if_pos rfl,
          addr_second_splitRequest hsplit hin hout, upstreamFault_outOfRange s le_rfl]
        rfl
      | false =>
        rw [exec_readRequest_ok h h1 h2 hm, hdata']
        · rfl
        · rw [hsplit]
          intro x hx
          rcases List.mem_pair.mp hx with rfl | rfl
          · exact ⟨_, hp⟩
          · exact ⟨s.fillBytes x.length, by rw [hq, hstrict]; rfl⟩
    · have hcause : (s.readPiece p).cause = some .flashLost := by
        rw [readPiece_cause_of_halted hhalted hin, hnone]; rfl
      have hfirst : (splitRequest addr.toNat n []).find? (fun x => (s.readPiece x).cause.isSome) = some p := by
        rw [hsplit, List.find?_cons_of_pos (by rw [hcause]; rfl)]
      rw [exec_readRequest_failed h h1 h2 hm (fun x _ => readResult_isSome_of_halted x hhalted) hfirst hcause,
        hdata (readResult_isSome_of_halted p hhalted)]
      rfl

end Sys2Proof.Machine
end

section
/-! Writes that a check refuses (R7 to R11). -/

namespace Sys2Proof.Machine

/-! ### The checks (R8) -/

/-- The request of a write that has been taken. -/
def State.writeRequest (s : State) (addr : Nat) (data : List Byte) (phase : Phase) (retake : Bool) (ps : List Piece) :
    Request :=
  { write := true, addr := addr, count := data.length, limit := s.mgmt.settings.stall, elapsed := 0, phase := phase,
    retake := retake, pieces := ps }

theorem takeRequest_write (s : State) (addr : Nat) (data : List Byte) : s.takeRequest true addr data.length data
    = s.setRequest (s.writeRequest addr data .checking true (splitRequest addr data.length data)) := rfl

theorem portStep_of_write (s : State) (addr : Nat) (data : List Byte) :
    (s.takeRequest true addr data.length data).portStep = (s.takeRequest true addr data.length data).checkWrite
      (s.writeRequest addr data .checking true (splitRequest addr data.length data)) :=
  portStep_of_taken (r := s.writeRequest addr data .checking true (splitRequest addr data.length data)) rfl rfl rfl

/-- What is made of a write that the port answers at once. -/
theorem exec_writeRequest_answered {s u : State} {addr : BitVec 24} {data : List Byte} (h : s.atRest = true)
    (h1 : 1 ≤ data.length) (h2 : data.length ≤ 32)
    (hport : (s.takeRequest true addr.toNat data.length data).checkWrite
      (s.writeRequest addr.toNat data .checking true (splitRequest addr.toNat data.length data)) = u)
    (hu : u.atRest = true) : exec (.writeRequest addr data) s = .next u := by
  rw [exec_writeRequest (atRest_power s h) (atRest_parts s h).2.1 h1 h2]
  exact congrArg Host.Outcome.next (settle_of_takeRequest h ((portStep_of_write s _ _).trans hport) hu)

theorem checkWrite_of_cause {s : State} {r : Request} {c : Cause} (hhold : s.commandHold = false)
    (hmount : s.mgmt.mode ≠ .mount) (hc : s.mgmt.mode.writeCause = some c) : s.checkWrite r = s.endRequest r c := by
  simp [State.checkWrite, hhold, hmount, hc]

theorem checkWrite_of_run {s : State} {r : Request} (hhold : s.commandHold = false) (hm : s.mgmt.mode = .run) :
    s.checkWrite r = if s.array.wp then s.endRequest r .writeProtected else s.checkRange r := by
  simp [State.checkWrite, hhold, hm, Mode.writeCause]

/-- Checks 1 and 2 pass in RUN without WP#. -/
theorem checkWrite_of_passed {s : State} {r : Request} (hhold : s.commandHold = false) (hm : s.mgmt.mode = .run)
    (hwp : s.array.wp = false) : s.checkWrite r = s.checkRange r := by
  rw [checkWrite_of_run hhold hm, hwp]
  rfl

theorem checkRange_of_outOfRange {s : State} {r : Request} {p : Piece} (hstrict : s.mgmt.settings.strict = true)
    (hp : (r.pieces.find? fun q => !q.inRange) = some p) :
    s.checkRange r = s.refuse (s.upstreamFault .outOfRange p.addr) [] := by
  simp only [State.checkRange, hstrict, hp]

/-- Check 3 passes: every piece is in range, or the policy is QUIET. -/
theorem checkRange_of_passed {s : State} {r : Request}
    (h : s.mgmt.settings.strict = false ∨ ∀ p ∈ r.pieces, p.inRange = true) :
    s.checkRange r = match r.handed.find? fun p => s.locked (s.lineOf p) with
      | some p => s.refuse (s.upstreamFault .zoneLocked p.addr) []
      | none => s.checkWindows r := by
  unfold State.checkRange
  cases hstrict : s.mgmt.settings.strict with
  | false => rfl
  | true =>
    have hnone : (r.pieces.find? fun p => !p.inRange) = none := by
      simpa using h.resolve_left (by simp [hstrict])
    simp only [hnone]
    <;> rfl

theorem checkRange_of_locked {s : State} {r : Request} {p : Piece}
    (h : s.mgmt.settings.strict = false ∨ ∀ p ∈ r.pieces, p.inRange = true)
    (hp : (r.handed.find? fun p => s.locked (s.lineOf p)) = some p) :
    s.checkRange r = s.refuse (s.upstreamFault .zoneLocked p.addr) [] := by
  rw [checkRange_of_passed h, hp]

theorem checkRange_of_unlocked {s : State} {r : Request}
    (h : s.mgmt.settings.strict = false ∨ ∀ p ∈ r.pieces, p.inRange = true)
    (hlocks : ∀ p ∈ r.pieces, p.inRange = true → s.mgmt.settings.locks.getLsbD (s.lineOf p / 1024) = false) :
    s.checkRange r = s.checkWindows r := by
  have hnone : (r.handed.find? fun p => s.locked (s.lineOf p)) = none := by
    rw [List.find?_eq_none]
    intro p hp
    obtain ⟨hmem, hin⟩ := List.mem_filter.mp hp
    have hunlocked : s.locked (s.lineOf p) = false := hlocks p hmem hin
    simp [hunlocked]
  rw [checkRange_of_passed h, hnone]

theorem handed_of_inRange {r : Request} (h : ∀ p ∈ r.pieces, p.inRange = true) : r.handed = r.pieces :=
  List.filter_eq_self.mpr h

/-- Checks 5 and 6, when no piece lies in the range of a COMMITTING window. -/
theorem checkWindows_of_noneCommitting {s : State} {r : Request}
    (h : ∀ p ∈ r.pieces, p.inRange = true → s.windowAt [.committing] p.busLine = none) :
    s.checkWindows r = match (r.pieces.filterMap s.shadowNeed)[64 - s.windows.shadow.length]? with
      | some (p, w) => s.refuse { s.upstreamFault .groupFull p.addr with window := some w } []
      | none => s.enterHandOver r := by
  have hnone : (r.pieces.any fun p => p.inRange && (s.windowAt [.committing] p.busLine).isSome) = false := by
    rw [List.any_eq_false]
    intro p hp
    cases hin : p.inRange with
    | false => simp
    | true => simp [h p hp hin]
  unfold State.checkWindows
  rw [hnone]
  rfl

theorem checkWindows_of_full {s : State} {r : Request} {p : Piece} {w : Nat}
    (h : ∀ p ∈ r.pieces, p.inRange = true → s.windowAt [.committing] p.busLine = none)
    (hp : (r.pieces.filterMap s.shadowNeed)[64 - s.windows.shadow.length]? = some (p, w)) :
    s.checkWindows r = s.refuse { s.upstreamFault .groupFull p.addr with window := some w } [] := by
  rw [checkWindows_of_noneCommitting h, hp]

/-- The pieces that need a new shadow entry, each with its window (R8 check 6). -/
theorem filterMap_shadowNeed {s : State} {ps : List Piece} (h : ∀ p ∈ ps, p.inRange = true) :
    ps.filterMap s.shadowNeed = (ps.filter fun q =>
      (s.windowAt [.armed, .opened] q.busLine).isSome && (s.shadowOf (s.lineOf q)).isNone).map
        fun q => (q, (s.windowAt [.armed, .opened] q.busLine).getD 0) := by
  induction ps with
  | nil => rfl
  | cons p ps ih =>
    have hrest := ih fun q hq => h q (List.mem_cons_of_mem p hq)
    have hin := h p List.mem_cons_self
    cases hs : s.shadowOf (s.lineOf p) with
    | some x => simp [State.shadowNeed, hin, hs, hrest]
    | none => cases hw : s.windowAt [.armed, .opened] p.busLine <;> simp [State.shadowNeed, hin, hs, hw, hrest]

/-! ### Fault addresses (R2) -/

theorem offset_lt_of_mem_splitRequest {addr n : Nat} {data : List Byte} {p : Piece}
    (h : p ∈ splitRequest addr n data) : p.offset < 32 := by
  rw [splitRequest_eq] at h
  have hfirst : addr % 32 < 32 := Nat.mod_lt _ (by norm_num)
  split_ifs at h
  · rcases List.mem_pair.mp h with rfl | rfl
    · exact hfirst
    · exact Nat.zero_lt_succ _
  · rw [List.mem_singleton.mp h]
    exact hfirst

theorem busLine_of_addr {p : Piece} (h : p.offset < 32) : p.addr / 32 = p.busLine := by
  show (p.busLine * 32 + p.offset) / 32 = p.busLine
  omega

theorem upstreamFault_of_inRange (s : State) (c : Cause) {p : Piece} (hin : p.inRange = true) (h : p.offset < 32) :
    s.upstreamFault c p.addr = { faultOf c with addr := some p.addr, line := some (s.lineOf p) } := by
  have hline : s.lineOfAddr p.addr = some (s.lineOf p) := by
    unfold State.lineOfAddr
    simp only [Config.lineBytes, Config.storeLines, busLine_of_addr h, (inRange_iff p).mp hin, if_true]
    rfl
  simp [State.upstreamFault, hline]

theorem upstreamFault_of_outOfRange (s : State) {p : Piece} (hin : p.inRange = false) :
    s.upstreamFault .outOfRange p.addr = { faultOf .outOfRange with addr := some p.addr } := by
  refine upstreamFault_outOfRange s ?_
  rw [Bool.eq_false_iff, Ne, inRange_iff] at hin
  show 262144 ≤ p.busLine * 32 + p.offset
  omega

/-- What a refused write leaves. -/
theorem exec_writeRequest_refused {s : State} {addr : BitVec 24} {data : List Byte} {c : Cause} {f : FaultReport}
    (h : s.atRest = true) (h1 : 1 ≤ data.length) (h2 : data.length ≤ 32) (hf : f.cause = c)
    (hport : (s.takeRequest true addr.toNat data.length data).checkWrite
        (s.writeRequest addr.toNat data .checking true (splitRequest addr.toNat data.length data))
      = (s.takeRequest true addr.toNat data.length data).refuse f []) :
    exec (.writeRequest addr data) s = .next ((s.answered (some c) []).reportFault f) := by
  subst hf
  refine exec_writeRequest_answered h h1 h2 (hport.trans ?_) (atRest_reportFault _ (atRest_answered _ _ h))
  rw [State.refuse, respond_of_takeRequest h]

/-- Settles O13: the first check that does not pass refuses the write, with its cause and the address at fault. -/
theorem refusedWriteChangesNothing : Obligations.RefusedWriteChangesNothing := by
  unfold Obligations.RefusedWriteChangesNothing
  refine ⟨?mode, ?zone, ?strict, ?quiet, ?group⟩
  case mode =>
    intro s addr data c h hhold h1 h2 hc
    have hends : (s.takeRequest true addr.toNat data.length data).checkWrite
        (s.writeRequest addr.toNat data .checking true (splitRequest addr.toNat data.length data))
        = (s.takeRequest true addr.toNat data.length data).endRequest
            (s.writeRequest addr.toNat data .checking true (splitRequest addr.toNat data.length data)) c := by
      have hhold' : (s.takeRequest true addr.toNat data.length data).commandHold = false := hhold
      rcases hc with ⟨hm, rfl⟩ | ⟨hm, rfl⟩ | ⟨hm, rfl⟩ | ⟨hm, rfl⟩ | ⟨hm, hwp, rfl⟩
      case inr.inr.inr.inr =>
        have hm' : (s.takeRequest true addr.toNat data.length data).mgmt.mode = .run := hm
        exact (checkWrite_of_run hhold' hm').trans (if_pos hwp)
      all_goals
        have hm' : (s.takeRequest true addr.toNat data.length data).mgmt.mode = s.mgmt.mode := rfl
        exact checkWrite_of_cause hhold' (by simp [hm', hm]) (by rw [hm', hm]; rfl)
    exact exec_writeRequest_refused h h1 h2 rfl hends
  case zone =>
    intro s addr data p h hhold h1 h2 hm hwp hin hp
    have hpmem := List.mem_of_find?_eq_some hp
    have hlocked : ((s.writeRequest addr.toNat data .checking true
        (splitRequest addr.toNat data.length data)).handed.find? fun q => s.locked (s.lineOf q)) = some p := by
      rw [handed_of_inRange hin]
      exact hp
    have hfault := upstreamFault_of_inRange s .zoneLocked (hin p hpmem) (offset_lt_of_mem_splitRequest hpmem)
    refine exec_writeRequest_refused h h1 h2 rfl ?_
    rw [checkWrite_of_passed (s := s.takeRequest true addr.toNat data.length data) hhold hm hwp,
      checkRange_of_locked (s := s.takeRequest true addr.toNat data.length data) (.inr hin) hlocked]
    exact congrArg (fun f => (s.takeRequest true addr.toNat data.length data).refuse f []) hfault
  case strict =>
    intro s addr data p h hhold h1 h2 hm hwp hstrict hp
    have hout : p.inRange = false := by simpa using List.find?_some hp
    refine exec_writeRequest_refused h h1 h2 rfl ?_
    rw [checkWrite_of_passed (s := s.takeRequest true addr.toNat data.length data) hhold hm hwp,
      checkRange_of_outOfRange (s := s.takeRequest true addr.toNat data.length data) hstrict hp]
    exact congrArg (fun f => (s.takeRequest true addr.toNat data.length data).refuse f [])
      (upstreamFault_of_outOfRange s hout)
  case quiet =>
    intro s addr data h hhold h1 h2 hm hwp hstrict hout
    have hnone : ∀ p ∈ splitRequest addr.toNat data.length data, p.inRange = false :=
      fun p hp => splitRequest_outOfRange hout hp
    have hhanded : (s.writeRequest addr.toNat data .checking true
        (splitRequest addr.toNat data.length data)).handed = [] := by
      refine List.filter_eq_nil_iff.mpr fun p hp => ?_
      simp [hnone p hp]
    have hneeds : (splitRequest addr.toNat data.length data).filterMap
        (s.takeRequest true addr.toNat data.length data).shadowNeed = [] := by
      rw [List.filterMap_eq_nil_iff]
      intro p hp
      simp [State.shadowNeed, hnone p hp]
    refine exec_writeRequest_answered h h1 h2 ?_ (atRest_answered none [] h)
    rw [checkWrite_of_passed (s := s.takeRequest true addr.toNat data.length data) hhold hm hwp,
      checkRange_of_unlocked (s := s.takeRequest true addr.toNat data.length data) (.inl hstrict) (fun p hp hin => by simp [hnone p hp] at hin),
      checkWindows_of_noneCommitting (s := s.takeRequest true addr.toNat data.length data) (fun p hp hin => by simp [hnone p hp] at hin)]
    simp only [State.writeRequest, hneeds, List.getElem?_nil, State.enterHandOver]
    simp only [State.writeRequest] at hhanded
    rw [hhanded]
    exact respond_of_takeRequest h _ _ _ _ none []
  case group =>
    intro s addr data p w h hhold h1 h2 hm hwp hpieces hp hw
    have hin : ∀ q ∈ splitRequest addr.toNat data.length data, q.inRange = true := fun q hq => (hpieces q hq).1
    have hpmem : p ∈ splitRequest addr.toNat data.length data := (List.mem_filter.mp (List.mem_of_getElem? hp)).1
    have hfault := upstreamFault_of_inRange s .groupFull (hin p hpmem) (offset_lt_of_mem_splitRequest hpmem)
    have hneed : ((splitRequest addr.toNat data.length data).filterMap s.shadowNeed)[64 - s.windows.shadow.length]?
        = some (p, w) := by
      rw [filterMap_shadowNeed hin, List.getElem?_map, hp]
      simp [hw]
    refine exec_writeRequest_refused (f := { s.upstreamFault .groupFull p.addr with window := some w }) h h1 h2 rfl ?_
      |>.trans ?_
    · rw [checkWrite_of_passed (s := s.takeRequest true addr.toNat data.length data) hhold hm hwp,
        checkRange_of_unlocked (s := s.takeRequest true addr.toNat data.length data) (.inr hin) (fun q hq _ => (hpieces q hq).2.1),
        checkWindows_of_full (s := s.takeRequest true addr.toNat data.length data)
          (r := s.writeRequest addr.toNat data .checking true (splitRequest addr.toNat data.length data)) (fun q hq _ => (hpieces q hq).2.2) hneed]
      rfl
    · rw [hfault]
      rfl

end Sys2Proof.Machine
end

section
/-! Writes that enter the hand-over phase or wait (R8, R12, R13, R16, R112, R113). -/

namespace Sys2Proof.Machine

/-! ### The window unit of a state at rest -/

/-- No COMMITTED register entry is dead (R130). -/
def State.NoDeadGroup (s : State) : Prop :=
  ∀ i w g x, s.windows.register[i]? = some (.committed w g x) → s.liveTagged i ≠ 0

theorem freeDeadGroups_eq_iff (s : State) : s.freeDeadGroups = s ↔ s.NoDeadGroup := by
  have hregister : s.freeDeadGroups = s ↔ s.freeDeadGroups.windows.register = s.windows.register :=
    ⟨fun h => by rw [h], fun h => by
      unfold State.freeDeadGroups at h ⊢
      simp only at h ⊢
      rw [h]⟩
  rw [hregister]
  constructor
  · intro h i w g x hi hdead
    have hfreed : s.freeDeadGroups.windows.register[i]? = some .free := by
      simp [State.freeDeadGroups, hi, hdead]
    rw [h, hi] at hfreed
    simp at hfreed
  · intro h
    refine List.ext_getElem? fun i => ?_
    simp only [State.freeDeadGroups, List.getElem?_mapIdx]
    cases hi : s.windows.register[i]? with
    | none => rfl
    | some e =>
      cases e with
      | committed w g x => simp [h i w g x hi]
      | free => rfl
      | reserved w g => rfl

/-- A state at rest stays so under another window unit of the same register, when nothing awaits there, no live reference
is lost and the group counter has a value left. -/
theorem atRest_of_windows {s : State} {u : WindowUnit} (h : s.atRest = true)
    (hregister : u.register = s.windows.register) (hrelease : u.release = s.windows.release)
    (hawaiting : ∀ v, (u.windows.getD v Window.idle).awaiting = (s.window v).awaiting)
    (hlive : ∀ i, s.liveTagged i ≤ State.liveTagged { s with windows := u } i)
    (hnext : u.nextGroup = s.windows.nextGroup ∨ u.nextGroup < 4294967295) :
    State.atRest { s with windows := u } = true := by
  have hdegraded : s.degraded = false → State.degraded { s with windows := u } = false := by
    intro hd
    simp only [State.degraded, Bool.or_eq_false_iff] at hd ⊢
    obtain ⟨⟨⟨hretired, horigin⟩, hgroup⟩, hblock⟩ := hd
    refine ⟨⟨⟨hretired, horigin⟩, ?_⟩, hblock⟩
    rcases hnext with hsame | hlt
    · rw [hsame]; exact hgroup
    · exact decide_eq_false (Nat.not_le.mpr hlt)
  have hcount : State.committedCount { s with windows := u } = s.committedCount := by
    simp only [State.committedCount, hregister]
  have hdead : State.freeDeadGroups { s with windows := u } = { s with windows := u } := by
    rw [freeDeadGroups_eq_iff]
    intro i w g x hi
    have hsome := (freeDeadGroups_eq_iff s).mp (atRest_parts s h).2.2.2.1 i w g x (hregister ▸ hi)
    have hle := hlive i
    omega
  simp only [State.atRest, State.calm, Bool.and_eq_true, decide_eq_true_eq] at h ⊢
  obtain ⟨⟨⟨⟨⟨⟨⟨⟨⟨⟨⟨⟨⟨⟨hon, hmode⟩, hwait⟩, hdrain⟩, hvictim⟩, herase⟩, hjob⟩, hcommitted⟩, hrel⟩, hmount⟩, hcut⟩, hport⟩,
    hidle⟩, _⟩, hspace⟩ := h
  refine ⟨⟨⟨⟨⟨⟨⟨⟨⟨⟨⟨⟨⟨⟨hon, ?_⟩, ?_⟩, hdrain⟩, hvictim⟩, herase⟩, hjob⟩, hcount ▸ hcommitted⟩, hrelease.trans hrel⟩,
    hmount⟩, hcut⟩, hport⟩, hidle⟩, hdead⟩, hspace⟩
  · rw [Bool.or_eq_true] at hmode ⊢
    exact hmode.imp_left fun hd => by simpa using hdegraded (by simpa using hd)
  · rw [List.all_eq_true] at hwait ⊢
    intro v hv
    have hsame : (State.window { s with windows := u } v).awaiting = (s.window v).awaiting := hawaiting v
    rw [hsame]
    exact hwait v hv

/-! ### Tagging (R112, R113) -/

/-- The group a piece of window `w` joins (R112). -/
def State.groupToJoin (s : State) (w : Nat) : Nat :=
  if (s.window w).state = .armed then s.windows.nextGroup else (s.window w).group.getD 0

/-- The shadow entry a line without one gets (R113). -/
def State.shadowFor (s : State) (line w : Nat) : ShadowEntry :=
  { line := line, window := w, committed := (s.entry line).current,
    committedGroup := match (s.entry line).group with
      | some (.register i) => some i
      | _ => none }

/-- The window unit with a piece of window `w` tagged. -/
def State.joined (s : State) (line w : Nat) : WindowUnit :=
  { s.windows with
    windows := s.windows.windows.set w { s.window w with state := .opened, group := some (s.groupToJoin w) },
    nextGroup := if (s.window w).state = .armed then s.windows.nextGroup + 1 else s.windows.nextGroup,
    shadow := if (s.shadowOf line).isSome = true then s.windows.shadow
      else s.windows.shadow ++ [s.shadowFor line w] }

theorem createShadow_eq (s : State) (line w : Nat) : s.createShadow line w = { s with windows := { s.windows with
    shadow := if (s.shadowOf line).isSome = true then s.windows.shadow
      else s.windows.shadow ++ [s.shadowFor line w] } } := by
  unfold State.createShadow
  split_ifs
  · rfl
  · simp only [State.shadowFor]
    cases (s.entry line).group with
    | none => rfl
    | some g => cases g <;> rfl

theorem window_lt_of_ne_idle {s : State} {w : Nat} (h : (s.window w).state ≠ .idle) : w < s.windows.windows.length := by
  by_contra hge
  refine h ?_
  simp [State.window, Nat.not_lt.mp hge, Window.idle]

theorem setWindow_self {s : State} {w : Nat} {x : Window} (h : s.window w = x) : s.windows.windows.set w x
    = s.windows.windows := by
  subst h
  refine List.ext_getElem? fun i => ?_
  rw [List.getElem?_set]
  split_ifs with hi hlt
  · subst hi
    simp [State.window, List.getElem?_eq_getElem hlt]
  · subst hi
    simp [Nat.not_lt.mp hlt]
  · rfl

/-- What tagging a piece that lies in the range of a window does (R112, R113). -/
theorem tagPiece_of_window {s : State} {p : Piece} {w : Nat} (hin : p.inRange = true)
    (hw : s.windowAt [.armed, .opened] p.busLine = some w) (hnext : (s.window w).state = .armed → s.windows.nextGroup < 4294967295)
    (hgroup : (s.window w).state = .opened → (s.window w).group.isSome = true) :
    s.tagPiece p = ({ s with windows := s.joined (s.lineOf p) w },
      { p with tag := some { window := w, group := s.groupToJoin w }, merge := none }) := by
  have hstate : (s.window w).state = .armed ∨ (s.window w).state = .opened := by
    have hfound := List.find?_some hw
    simp only [Bool.and_eq_true, List.contains_eq_mem, List.mem_cons, List.not_mem_nil, or_false,
      decide_eq_true_eq] at hfound
    exact hfound.1
  have hlt : w < s.windows.windows.length := window_lt_of_ne_idle (by rcases hstate with h | h <;> simp [h])
  have hopen : s.openGroup w = { s with windows := { s.windows with
      windows := s.windows.windows.set w { s.window w with state := .opened, group := some (s.groupToJoin w) },
      nextGroup := if (s.window w).state = .armed then s.windows.nextGroup + 1 else s.windows.nextGroup } } := by
    unfold State.openGroup State.groupToJoin
    rcases hstate with h | h
    · simp [h, nextSequence, Config.lastSequence, hnext h, State.setWindow]
    · obtain ⟨g, hg⟩ := Option.isSome_iff_exists.mp (hgroup h)
      have hself : s.windows.windows.set w { s.window w with state := .opened, group := some g } = s.windows.windows := by
        refine setWindow_self ?_
        rw [← h, ← hg]
      simp [h, hg, hself]
  have hnew : ((s.openGroup w).window w).group = some (s.groupToJoin w) := by
    rw [hopen]
    simp [State.window, hlt]
  have hshadow : (s.openGroup w).shadowOf (s.lineOf p) = s.shadowOf (s.lineOf p) := by rw [hopen]; rfl
  have hfor : (s.openGroup w).shadowFor (s.lineOf p) w = s.shadowFor (s.lineOf p) w := by rw [hopen]; rfl
  simp only [State.tagPiece, hin, if_true, hw, createShadow_eq, hshadow, hfor, hnew, Option.getD_some]
  rw [hopen]
  rfl

theorem tagPiece_of_none {s : State} {p : Piece} (hp : p.fresh)
    (hw : p.inRange = true → s.windowAt [.armed, .opened] p.busLine = none) : s.tagPiece p = (s, p) := by
  obtain ⟨htag, hmerge, _⟩ := hp
  unfold State.tagPiece
  split_ifs with hin
  · rw [hw hin]
    obtain ⟨busLine, offset, length, data, tag, merge, result⟩ := p
    simp_all
  · rfl

theorem tagPieces_of_none {s : State} {ps : List Piece} (hp : ∀ p ∈ ps, p.fresh)
    (hw : ∀ p ∈ ps, p.inRange = true → s.windowAt [.armed, .opened] p.busLine = none) : s.tagPieces ps = (s, ps) := by
  induction ps with
  | nil => rfl
  | cons p ps ih =>
    simp only [State.tagPieces, tagPiece_of_none (hp p List.mem_cons_self) (hw p List.mem_cons_self),
      ih (fun q hq => hp q (List.mem_cons_of_mem p hq)) (fun q hq => hw q (List.mem_cons_of_mem p hq))]

theorem atRest_joined {s : State} {line w : Nat} (h : s.atRest = true)
    (hnext : (s.window w).state = .armed → s.windows.nextGroup < 4294967294) :
    State.atRest { s with windows := s.joined line w } = true := by
  refine atRest_of_windows h rfl rfl (fun v => ?_) (fun i => ?_) ?_
  · show (State.window { s with windows := s.joined line w } v).awaiting = _
    by_cases hv : v = w
    · subst hv
      by_cases hlt : v < s.windows.windows.length
      · simp [State.joined, State.window, hlt]
      · simp [State.joined, State.window, Nat.not_lt.mp hlt]
    · simp [State.joined, State.window, Ne.symm hv]
  · simp only [State.liveTagged, State.joined]
    split_ifs
    · exact le_rfl
    · simp only [List.filter_append, List.length_append]
      omega
  · by_cases harmed : (s.window w).state = .armed
    · have hlt := hnext harmed
      exact .inr (by simp only [State.joined, harmed, if_true]; omega)
    · exact .inl (by simp only [State.joined, harmed, if_false])

/-- Tagging does not look at the request at the port. -/
theorem tagPiece_setRequest (s : State) (r : Request) (p : Piece) :
    (s.setRequest r).tagPiece p = ((s.tagPiece p).1.setRequest r, (s.tagPiece p).2) := by
  have hwindow : (s.setRequest r).windowAt [.armed, .opened] p.busLine = s.windowAt [.armed, .opened] p.busLine := rfl
  have hopen : ∀ w, (s.setRequest r).openGroup w = (s.openGroup w).setRequest r := fun w => by
    unfold State.openGroup
    have hsame : ((s.setRequest r).window w).state = (s.window w).state := rfl
    rw [hsame]
    split_ifs <;> rfl
  have hshadow : ∀ (t : State) l w, (t.setRequest r).createShadow l w = (t.createShadow l w).setRequest r :=
    fun t l w => by rw [createShadow_eq, createShadow_eq]; rfl
  unfold State.tagPiece
  split_ifs
  · rw [hwindow]
    split
    · rfl
    · dsimp only
      rw [hopen, hshadow]
      rfl
  · rfl

theorem tagPieces_setRequest (r : Request) (ps : List Piece) (s : State) :
    (s.setRequest r).tagPieces ps = ((s.tagPieces ps).1.setRequest r, (s.tagPieces ps).2) := by
  induction ps generalizing s with
  | nil => rfl
  | cons p ps ih => simp only [State.tagPieces, tagPiece_setRequest, ih]

/-! ### The hand-over phase (R12, R13) -/

theorem enterHandOver_of_handed {s : State} {r : Request} (h : r.handed ≠ []) : s.enterHandOver r
    = (s.tagPieces (r.pieces.map Piece.untagged)).1.abandonRead.setRequest
        { r with phase := .handOver, retake := false, pieces := (s.tagPieces (r.pieces.map Piece.untagged)).2 } := by
  unfold State.enterHandOver
  split
  · contradiction
  · rfl

/-- A write enters the hand-over phase with its pieces tagged. -/
theorem enterHandOver_of_takeRequest {s : State} {addr : Nat} {data : List Byte}
    (hin : ∃ p ∈ splitRequest addr data.length data, p.inRange = true)
    (htagged : (s.tagPieces (splitRequest addr data.length data)).1.atRest = true) :
    (s.takeRequest true addr data.length data).enterHandOver
        (s.writeRequest addr data .checking true (splitRequest addr data.length data))
      = (s.tagPieces (splitRequest addr data.length data)).1.setRequest
          (s.writeRequest addr data .handOver false (s.tagPieces (splitRequest addr data.length data)).2) := by
  have hhanded : (s.writeRequest addr data .checking true (splitRequest addr data.length data)).handed ≠ [] := by
    obtain ⟨p, hp, hrange⟩ := hin
    exact List.ne_nil_of_mem (List.mem_filter.mpr ⟨hp, hrange⟩)
  have hidle : ((s.tagPieces (splitRequest addr data.length data)).1.setRequest
      (s.writeRequest addr data .checking true (splitRequest addr data.length data))).readInFlight = false :=
    (atRest_parts _ htagged).2.2.1
  rw [enterHandOver_of_handed hhanded, takeRequest_write]
  simp only [State.writeRequest, map_untagged_splitRequest, tagPieces_setRequest] at hidle ⊢
  rw [abandonRead_of_none _ hidle]
  rfl

/-- A write in hand-over whose tags hold and which has no merge image stands still (R13). -/
theorem portStep_of_handOver {s : State} {r : Request} (hr : s.port.request = some r) (hphase : r.phase = .handOver)
    (hhold : s.commandHold = false) (hm : s.mgmt.mode = .run) (hwp : s.array.wp = false)
    (htags : ∀ p ∈ r.pieces, s.tagHolds p = true) (hmerge : ∀ p ∈ r.pieces, p.merge = none) : s.portStep = s := by
  have hrefresh : r.pieces.map s.refreshMerge = r.pieces := by
    rw [List.map_congr_left (g := id) fun p hp => by simp [State.refreshMerge, hmerge p hp], List.map_id]
  have hall : r.pieces.all s.tagHolds = true := List.all_eq_true.mpr htags
  calc s.portStep = s.stepHandOver r := by simp [State.portStep, hr, hphase]
    _ = s.setRequest { r with pieces := r.pieces.map s.refreshMerge } := by
      simp [State.stepHandOver, hhold, hm, Mode.writeCause, hwp, hall]
    _ = s := by
      rw [hrefresh]
      unfold State.setRequest
      rw [← hr]

theorem freshCount_le (s : State) (ps : List Piece) : s.freshCount ps ≤ ps.length := List.length_filter_le _ _

/-- The enqueue gate does not stall a request of two pieces when two places are free (R59). -/
theorem gateStalls_of_places {s : State} {ps : List Piece} (hps : ps.length ≤ 2)
    (hplaces : s.queue.entries.length + s.queue.requests.length ≤ 14) (herased : 1 ≤ s.erasedCount) :
    s.gateStalls ps = false := by
  have hfresh := freshCount_le s ps
  have hgate : s.gateAdmits (s.freshCount ps) = true := by
    simp only [State.gateAdmits, Bool.and_eq_true, decide_eq_true_eq]
    simp only [Config.queuePlaces]
    omega
  simp [State.gateStalls, hgate]

/-- What follows the arrival of a write that enters the hand-over phase. -/
theorem exec_writeRequest_handOver {s v : State} {addr : BitVec 24} {data : List Byte} {ps : List Piece}
    (h : s.atRest = true) (h1 : 1 ≤ data.length) (h2 : data.length ≤ 32) (hhold : s.commandHold = false)
    (hm : s.mgmt.mode = .run) (hwp : s.array.wp = false)
    (hrange : s.mgmt.settings.strict = false ∨ ∀ p ∈ splitRequest addr.toNat data.length data, p.inRange = true)
    (hpieces : ∀ p ∈ splitRequest addr.toNat data.length data, p.inRange = true →
      s.mgmt.settings.locks.getLsbD (s.lineOf p / 1024) = false ∧ s.windowAt [.committing] p.busLine = none)
    (hin : ∃ p ∈ splitRequest addr.toNat data.length data, p.inRange = true)
    (hneeds : ((splitRequest addr.toNat data.length data).filterMap s.shadowNeed).length
      ≤ 64 - s.windows.shadow.length)
    (htag : s.tagPieces (splitRequest addr.toNat data.length data) = (v, ps)) (hv : v.atRest = true)
    (hframe : v = { s with windows := v.windows }) (hps : ps.length ≤ 2) (htags : ∀ p ∈ ps, v.tagHolds p = true)
    (hmerge : ∀ p ∈ ps, p.merge = none) (hplaces : s.queue.entries.length + s.queue.requests.length ≤ 14)
    (herased : 1 ≤ s.erasedCount) :
    exec (.writeRequest addr data) s = .next (v.setRequest (s.writeRequest addr.toNat data .handOver false ps)) := by
  have hfull : ((splitRequest addr.toNat data.length data).filterMap
      (s.takeRequest true addr.toNat data.length data).shadowNeed)[64
        - (s.takeRequest true addr.toNat data.length data).windows.shadow.length]? = none :=
    List.getElem?_eq_none hneeds
  have henters : (s.takeRequest true addr.toNat data.length data).checkWrite
      (s.writeRequest addr.toNat data .checking true (splitRequest addr.toNat data.length data))
      = v.setRequest (s.writeRequest addr.toNat data .handOver false ps) := by
    rw [checkWrite_of_passed (s := s.takeRequest true addr.toNat data.length data) hhold hm hwp,
      checkRange_of_unlocked (s := s.takeRequest true addr.toNat data.length data)
          (r := s.writeRequest addr.toNat data .checking true (splitRequest addr.toNat data.length data)) hrange
        (fun p hp hr => (hpieces p hp hr).1),
      checkWindows_of_noneCommitting (s := s.takeRequest true addr.toNat data.length data)
          (r := s.writeRequest addr.toNat data .checking true (splitRequest addr.toNat data.length data))
        (fun p hp hr => (hpieces p hp hr).2)]
    simp only [State.writeRequest] at hfull ⊢
    rw [hfull]
    have henter := enterHandOver_of_takeRequest hin (by rw [htag]; exact hv)
    rw [htag] at henter
    exact henter
  obtain ⟨hcalm, _, _, hdead, hspace⟩ := atRest_parts v hv
  have hhold' : v.commandHold = false := by rw [hframe]; exact hhold
  have hm' : v.mgmt.mode = .run := by rw [hframe]; exact hm
  have hwp' : v.array.wp = false := by rw [hframe]; exact hwp
  have hplaces' : v.queue.entries.length + v.queue.requests.length ≤ 14 := by rw [hframe]; exact hplaces
  have herased' : 1 ≤ v.erasedCount := by rw [hframe]; exact herased
  rw [exec_writeRequest (atRest_power s h) (atRest_parts s h).2.1 h1 h2]
  refine congrArg Host.Outcome.next (settle_of_port s _ (s.takeRequest true addr.toNat data.length data).port h
    ((portStep_of_write s _ _).trans henters) hcalm ?_ ?_ ?_)
  · exact congrArg (fun t : State => t.setRequest _) hdead
  · exact portStep_of_handOver (s := v.setRequest (s.writeRequest addr.toNat data .handOver false ps)) rfl rfl hhold' hm'
      hwp' htags hmerge
  · have hstall : (v.setRequest (s.writeRequest addr.toNat data .handOver false ps)).writeStalled = false := by
      have hgate : (v.setRequest (s.writeRequest addr.toNat data .handOver false ps)).gateStalls
          (s.writeRequest addr.toNat data .handOver false ps).handed = false :=
        gateStalls_of_places ((List.length_filter_le _ _).trans hps) hplaces' herased'
      simp only [State.writeStalled, State.setRequest] at hgate ⊢
      simp [hgate]
    have hhead : (v.setRequest (s.writeRequest addr.toNat data .handOver false ps)).headStalled = v.headStalled := rfl
    rw [State.spaceLowNow, hstall, hhead, Bool.false_or]
    exact hspace.symm

end Sys2Proof.Machine
end

section
/-! Two pieces tagged one after the other (R112, R113), and the hand-over phase settled. -/

namespace Sys2Proof.Machine

/-! ### A window unit with a piece tagged -/

theorem window_joined {s : State} {line w : Nat} (hlt : w < s.windows.windows.length) (v : Nat) :
    State.window { s with windows := s.joined line w } v
      = if v = w then { s.window w with state := .opened, group := some (s.groupToJoin w) } else s.window v := by
  by_cases hv : v = w
  · subst hv
    simp [State.joined, State.window, hlt]
  · simp [State.joined, State.window, hv, Ne.symm hv]

theorem windowAt_state {s : State} {line w : Nat} (h : s.windowAt [.armed, .opened] line = some w) :
    ((s.window w).state = .armed ∨ (s.window w).state = .opened) ∧ w < 4 := by
  constructor
  · have hfound := List.find?_some h
    simp only [Bool.and_eq_true, List.contains_eq_mem, List.mem_cons, List.not_mem_nil, or_false,
      decide_eq_true_eq] at hfound
    exact hfound.1
  · exact List.mem_range.mp (List.mem_of_find?_eq_some h)

/-- The window unit with a piece tagged, in a window's range or outside every window. -/
def State.joinedAt (s : State) (line : Nat) : Option Nat → WindowUnit
  | none => s.windows
  | some w => s.joined line w

/-- The tag of a piece. -/
def State.tagOf (s : State) (ow : Option Nat) : Option Tag := ow.map fun w => { window := w, group := s.groupToJoin w }

theorem tagPiece_eq {s : State} {p : Piece} {ow : Option Nat} (hfresh : p.fresh) (hin : p.inRange = true)
    (how : s.windowAt [.armed, .opened] p.busLine = ow) (hnext : s.windows.nextGroup < 4294967295)
    (hgroup : ∀ w < 4, (s.window w).state = .opened → (s.window w).group.isSome = true) :
    s.tagPiece p = ({ s with windows := s.joinedAt (s.lineOf p) ow }, { p with tag := s.tagOf ow }) := by
  obtain ⟨htag, hmerge, hresult⟩ := hfresh
  cases ow with
  | none =>
    rw [tagPiece_of_none ⟨htag, hmerge, hresult⟩ fun _ => how]
    obtain ⟨busLine, offset, length, data, tag, merge, result⟩ := p
    simp_all [State.joinedAt, State.tagOf]
  | some w =>
    rw [tagPiece_of_window hin how (fun _ => hnext) (hgroup w (windowAt_state how).2)]
    obtain ⟨busLine, offset, length, data, tag, merge, result⟩ := p
    simp_all [State.joinedAt, State.tagOf]

theorem windowAt_joined {s : State} {line w l : Nat} (hlt : w < s.windows.windows.length)
    (hstate : (s.window w).state = .armed ∨ (s.window w).state = .opened) :
    State.windowAt { s with windows := s.joined line w } [.armed, .opened] l = s.windowAt [.armed, .opened] l := by
  unfold State.windowAt
  refine congrArg (List.find? · _) (funext fun v => ?_)
  rw [window_joined hlt]
  split_ifs with hv
  · subst hv
    rcases hstate with h | h <;> simp [h, Window.covers]
  · rfl

theorem shadowOf_joined {s : State} {line w l : Nat} (hl : l ≠ line) :
    State.shadowOf { s with windows := s.joined line w } l = s.shadowOf l := by
  unfold State.shadowOf State.joined
  dsimp only
  split_ifs
  · rfl
  · rw [List.find?_append]
    simp [State.shadowFor, hl.symm]

/-- A tagged piece holds its tag while other pieces are tagged (R13). -/
theorem tagHolds_joined {s : State} {line w : Nat} {p : Piece} (hlt : w < s.windows.windows.length)
    (h : s.tagHolds p = true) (hsame : ∀ t, p.tag = some t → t.window = w → s.groupToJoin w = t.group) :
    State.tagHolds { s with windows := s.joined line w } p = true := by
  unfold State.tagHolds at h ⊢
  cases htag : p.tag with
  | none => rfl
  | some t =>
    simp only [htag, Bool.and_eq_true, decide_eq_true_eq] at h ⊢
    rw [window_joined hlt]
    split_ifs with hw
    · exact ⟨rfl, congrArg some (hsame t htag hw)⟩
    · exact h

/-! ### The lines of two pieces (R3, R4) -/

theorem storeLine_injective {exchange : Bool} {a b : Nat} (ha : a < 8192) (hb : b < 8192)
    (h : storeLine exchange a = storeLine exchange b) : a = b := by
  grind [storeLine, Config.halfLines]

theorem lineOf_ne_of_splitRequest {s : State} {addr n : Nat} {data : List Byte} {p q : Piece}
    (h : splitRequest addr n data = [p, q]) (hp : p.inRange = true) (hq : q.inRange = true) :
    s.lineOf q ≠ s.lineOf p := by
  intro heq
  have hlines : q.busLine = p.busLine := storeLine_injective ((inRange_iff q).mp hq) ((inRange_iff p).mp hp) heq
  rcases splitRequest_cases addr n data with ⟨_, hone⟩ | ⟨_, htwo⟩
  · simp [hone] at h
  · rw [htwo] at h
    obtain ⟨rfl, rfl⟩ : _ = p ∧ _ = q := by simpa using h
    simp [mkPiece] at hlines

/-! ### A write that waits in the checking phase (R8, R16) -/

theorem waitChecking_of_takeRequest {s : State} {addr : Nat} {data : List Byte} (h : s.atRest = true) :
    (s.takeRequest true addr data.length data).waitChecking
        (s.writeRequest addr data .checking true (splitRequest addr data.length data))
      = s.setRequest (s.writeRequest addr data .checking false (splitRequest addr data.length data)) := by
  have hidle : (s.takeRequest true addr data.length data).readInFlight = false := (atRest_parts s h).2.2.1
  unfold State.waitChecking
  rw [abandonRead_of_none _ hidle]
  simp only [State.writeRequest, map_untagged_splitRequest]
  rfl

theorem exec_writeRequest_waits {s : State} {addr : BitVec 24} {data : List Byte} (h : s.atRest = true)
    (h1 : 1 ≤ data.length) (h2 : data.length ≤ 32)
    (hwaits : (s.takeRequest true addr.toNat data.length data).checkWrite
        (s.writeRequest addr.toNat data .checking true (splitRequest addr.toNat data.length data))
      = (s.takeRequest true addr.toNat data.length data).waitChecking
          (s.writeRequest addr.toNat data .checking true (splitRequest addr.toNat data.length data))) :
    exec (.writeRequest addr data) s = .next (s.setRequest
      (s.writeRequest addr.toNat data .checking false (splitRequest addr.toNat data.length data))) := by
  obtain ⟨hcalm, _, _, hdead, hspace⟩ := atRest_parts s h
  rw [exec_writeRequest (atRest_power s h) (atRest_parts s h).2.1 h1 h2]
  refine congrArg Host.Outcome.next (settle_of_port s _ (s.takeRequest true addr.toNat data.length data).port h
    ((portStep_of_write s _ _).trans (hwaits.trans (waitChecking_of_takeRequest h))) hcalm ?_ ?_ hspace.symm)
  · exact congrArg (fun t : State => t.setRequest _) hdead
  · exact portStep_of_waiting (s := s.setRequest
      (s.writeRequest addr.toNat data .checking false (splitRequest addr.toNat data.length data))) rfl rfl rfl

theorem checkWrite_of_hold {s : State} {r : Request} (h : s.commandHold = true) : s.checkWrite r = s.waitChecking r := by
  simp [State.checkWrite, h]

theorem checkWindows_of_committing {s : State} {r : Request}
    (h : ∃ p ∈ r.pieces, p.inRange = true ∧ (s.windowAt [.committing] p.busLine).isSome = true) :
    s.checkWindows r = s.waitChecking r := by
  have hany : (r.pieces.any fun p => p.inRange && (s.windowAt [.committing] p.busLine).isSome) = true := by
    obtain ⟨p, hp, hin, hw⟩ := h
    exact List.any_eq_true.mpr ⟨p, hp, by simp [hin, hw]⟩
  unfold State.checkWindows
  rw [if_pos hany]

/-- Check 3 passes when every piece is in range or dropped under QUIET. -/
theorem strict_or_inRange {s : State} {ps : List Piece}
    (h : ∀ p ∈ ps, p.inRange = true ∨ p.inRange = false ∧ s.mgmt.settings.strict = false) :
    s.mgmt.settings.strict = false ∨ ∀ p ∈ ps, p.inRange = true := by
  by_cases hstrict : s.mgmt.settings.strict = false
  · exact .inl hstrict
  · exact .inr fun p hp => (h p hp).resolve_right fun hc => hstrict hc.2

theorem length_splitRequest_le (addr n : Nat) (data : List Byte) : (splitRequest addr n data).length ≤ 2 := by
  rw [splitRequest_eq]
  split_ifs <;> simp

theorem filterMap_shadowNeed_of_none {s : State} {ps : List Piece}
    (h : ∀ p ∈ ps, p.inRange = true → s.windowAt [.armed, .opened] p.busLine = none) :
    ps.filterMap s.shadowNeed = [] := by
  rw [List.filterMap_eq_nil_iff]
  intro p hp
  unfold State.shadowNeed
  split_ifs with hc
  · rw [h p hp (Bool.and_eq_true_iff.mp hc).1]
    rfl
  · rfl

theorem tagHolds_of_tagOf {s : State} {line w : Nat} {p : Piece} (hlt : w < s.windows.windows.length)
    (hp : p.tag = some { window := w, group := s.groupToJoin w }) :
    State.tagHolds { s with windows := s.joined line w } p = true := by
  simp [State.tagHolds, hp, window_joined hlt]

/-- A write outside every window. -/
theorem exec_writeRequest_untagged {s : State} {addr : BitVec 24} {data : List Byte} (h : s.atRest = true)
    (hhold : s.commandHold = false) (h1 : 1 ≤ data.length) (h2 : data.length ≤ 32) (hm : s.mgmt.mode = .run)
    (hwp : s.array.wp = false) (hin : ∃ p ∈ splitRequest addr.toNat data.length data, p.inRange = true)
    (hpieces : ∀ p ∈ splitRequest addr.toNat data.length data, p.inRange = true
        ∧ s.mgmt.settings.locks.getLsbD (s.lineOf p / 1024) = false
        ∧ s.windowAt [.armed, .opened] p.busLine = none ∧ s.windowAt [.committing] p.busLine = none
      ∨ p.inRange = false ∧ s.mgmt.settings.strict = false)
    (hplaces : s.queue.entries.length + s.queue.requests.length ≤ 14) (herased : 1 ≤ s.erasedCount) :
    exec (.writeRequest addr data) s = .next (s.setRequest
      (s.writeRequest addr.toNat data .handOver false (splitRequest addr.toNat data.length data))) := by
  have hfresh : ∀ p ∈ splitRequest addr.toNat data.length data, p.fresh := fun p hp => fresh_of_mem_splitRequest hp
  have hpassed : ∀ p ∈ splitRequest addr.toNat data.length data, p.inRange = true →
      s.mgmt.settings.locks.getLsbD (s.lineOf p / 1024) = false
        ∧ s.windowAt [.armed, .opened] p.busLine = none ∧ s.windowAt [.committing] p.busLine = none := by
    intro p hp hr
    exact ((hpieces p hp).resolve_right (by simp [hr])).2
  have hnone : ∀ p ∈ splitRequest addr.toNat data.length data, p.inRange = true →
      s.windowAt [.armed, .opened] p.busLine = none := fun p hp hr => (hpassed p hp hr).2.1
  refine exec_writeRequest_handOver h h1 h2 hhold hm hwp
    (strict_or_inRange fun p hp => (hpieces p hp).imp_left And.left)
    (fun p hp hr => ⟨(hpassed p hp hr).1, (hpassed p hp hr).2.2⟩) hin ?_ (tagPieces_of_none hfresh hnone) h rfl
    (length_splitRequest_le _ _ _) (fun p hp => ?_) (fun p hp => (hfresh p hp).2.1) hplaces herased
  · rw [filterMap_shadowNeed_of_none hnone]
    exact Nat.zero_le _
  · simp [State.tagHolds, (hfresh p hp).1]

theorem nextGroup_lt_of_run {s : State} (h : s.atRest = true) (hm : s.mgmt.mode = .run) :
    s.windows.nextGroup < 4294967295 := by
  have hdegraded : s.degraded = false := by
    simp only [State.atRest, State.calm, Bool.and_eq_true] at h
    simpa [hm, Mode.settled] using h.1.1.1.1.1.1.1.1.1.1.1.1.1.2
  simp only [State.degraded, Bool.or_eq_false_iff] at hdegraded
  exact Nat.not_le.mp (of_decide_eq_false hdegraded.1.2)

theorem filterMap_shadowNeed_le {s : State} {ps : List Piece} (hin : ∀ p ∈ ps, p.inRange = true) :
    (ps.filterMap s.shadowNeed).length = (ps.filter fun q =>
      (s.windowAt [.armed, .opened] q.busLine).isSome && (s.shadowOf (s.lineOf q)).isNone).length := by
  rw [filterMap_shadowNeed hin, List.length_map]

/-- A write of one piece that lies in the range of an ARMED or OPEN window. -/
theorem exec_writeRequest_tagged {s : State} {addr : BitVec 24} {data : List Byte} {p : Piece} {w : Nat}
    (h : s.atRest = true) (hhold : s.commandHold = false) (h1 : 1 ≤ data.length) (h2 : data.length ≤ 32)
    (hm : s.mgmt.mode = .run) (hwp : s.array.wp = false) (hsplit : splitRequest addr.toNat data.length data = [p])
    (hin : p.inRange = true) (hlock : s.mgmt.settings.locks.getLsbD (s.lineOf p / 1024) = false)
    (hw : s.windowAt [.armed, .opened] p.busLine = some w) (hfree : s.windowAt [.committing] p.busLine = none)
    (hgroup : (s.window w).state = .opened → (s.window w).group.isSome = true)
    (hnext : (s.window w).state = .armed → s.windows.nextGroup < 4294967294)
    (hshadow : (s.shadowOf (s.lineOf p)).isSome = true ∨ s.windows.shadow.length < 64)
    (hplaces : s.queue.entries.length + s.queue.requests.length ≤ 14) (herased : 1 ≤ s.erasedCount) :
    exec (.writeRequest addr data) s = .next (State.setRequest { s with windows := s.joined (s.lineOf p) w }
      (s.writeRequest addr.toNat data .handOver false
        [{ p with tag := some { window := w, group := s.groupToJoin w } }])) := by
  have hfresh : p.fresh := fresh_of_mem_splitRequest (addr := addr.toNat) (n := data.length) (data := data)
    (hsplit ▸ List.mem_singleton_self p)
  obtain ⟨_, hmerge, _⟩ := hfresh
  have hstate := (windowAt_state hw).1
  have hlt : w < s.windows.windows.length := window_lt_of_ne_idle (by rcases hstate with hs | hs <;> simp [hs])
  have hall : ∀ q ∈ splitRequest addr.toNat data.length data, q = p := by rw [hsplit]; simp
  have htag : s.tagPieces (splitRequest addr.toNat data.length data)
      = ({ s with windows := s.joined (s.lineOf p) w },
        [{ p with tag := some { window := w, group := s.groupToJoin w } }]) := by
    have hp := tagPiece_of_window hin hw (fun harmed => (hnext harmed).trans (by norm_num)) hgroup
    rw [hsplit]
    simp only [State.tagPieces, hp]
    rw [← hmerge]
  have hneeds : ((splitRequest addr.toNat data.length data).filterMap s.shadowNeed).length
      ≤ 64 - s.windows.shadow.length := by
    rw [filterMap_shadowNeed_le (fun q hq => hall q hq ▸ hin), hsplit]
    rcases hshadow with hs | hs
    · obtain ⟨x, hx⟩ := Option.isSome_iff_exists.mp hs
      simp [hx]
    · refine (List.length_filter_le _ _).trans ?_
      simp
      omega
  refine exec_writeRequest_handOver h h1 h2 hhold hm hwp (.inr fun q hq => hall q hq ▸ hin)
    (fun q hq _ => hall q hq ▸ ⟨hlock, hfree⟩) ⟨p, by rw [hsplit]; simp, hin⟩ hneeds htag (atRest_joined h hnext) rfl
    (by simp) (fun q hq => ?_) (fun q hq => ?_) hplaces herased
  · rw [List.mem_singleton.mp hq]
    exact tagHolds_of_tagOf hlt rfl
  · rw [List.mem_singleton.mp hq]
    exact hmerge

end Sys2Proof.Machine
end

section
/-! Two pieces tagged one after the other (R112, R113), and the hand-over phase settled. -/

namespace Sys2Proof.Machine

/-- The state after a first piece has been tagged. -/
def State.afterFirst (s : State) (line : Nat) (ow : Option Nat) : State := { s with windows := s.joinedAt line ow }

/-- The state after two pieces have been tagged. -/
def State.afterBoth (s : State) (lp lq : Nat) (op oq : Option Nat) : State :=
  (s.afterFirst lp op).afterFirst lq oq

section
variable {s : State} {lp lq : Nat} {op oq : Option Nat}

theorem length_windows_afterFirst (h : s.windows.windows.length = 4) :
    (s.afterFirst lp op).windows.windows.length = 4 := by
  cases op <;> simp [State.afterFirst, State.joinedAt, State.joined, h]

theorem window_afterFirst (h4 : s.windows.windows.length = 4) (hop : ∀ w, op = some w → w < 4) (v : Nat) :
    (s.afterFirst lp op).window v
      = if op = some v then { s.window v with state := .opened, group := some (s.groupToJoin v) } else s.window v := by
  cases op with
  | none => rfl
  | some w =>
    have hlt : w < s.windows.windows.length := by rw [h4]; exact hop w rfl
    refine (window_joined (line := lp) hlt v).trans ?_
    by_cases hv : v = w
    · subst hv; simp
    · simp [hv, Ne.symm hv]

theorem nextGroup_afterFirst : (s.afterFirst lp op).windows.nextGroup
    = if op.any (fun w => decide ((s.window w).state = .armed)) then s.windows.nextGroup + 1
      else s.windows.nextGroup := by
  cases op <;> simp [State.afterFirst, State.joinedAt, State.joined]

theorem windowAt_afterFirst {line : Nat} (h4 : s.windows.windows.length = 4)
    (hop : s.windowAt [.armed, .opened] line = op) (l : Nat) :
    (s.afterFirst lp op).windowAt [.armed, .opened] l = s.windowAt [.armed, .opened] l := by
  cases op with
  | none => rfl
  | some w =>
    obtain ⟨hstate, hlt⟩ := windowAt_state hop
    exact windowAt_joined (h4 ▸ hlt) hstate

theorem shadowOf_afterFirst (h : lq ≠ lp) : (s.afterFirst lp op).shadowOf lq = s.shadowOf lq := by
  cases op with
  | none => rfl
  | some w => exact shadowOf_joined h

theorem atRest_afterFirst (h : s.atRest = true) (hnext : s.windows.nextGroup < 4294967294) :
    (s.afterFirst lp op).atRest = true := by
  cases op with
  | none => exact h
  | some w => exact atRest_joined h fun _ => hnext

/-- The group the second piece joins, with the first one tagged. -/
theorem groupToJoin_afterFirst (h4 : s.windows.windows.length = 4) (hop : ∀ w, op = some w → w < 4) (v : Nat) :
    (s.afterFirst lp op).groupToJoin v = if (s.window v).state = .armed then
        (if (s.tagOf op).any fun t => decide (t.window ≠ v) && decide ((s.window t.window).state = .armed) then
          s.windows.nextGroup + 1
        else s.windows.nextGroup)
      else (s.window v).group.getD 0 := by
  unfold State.groupToJoin
  rw [window_afterFirst h4 hop, nextGroup_afterFirst]
  cases op with
  | none => simp [State.tagOf]
  | some w =>
    by_cases hv : w = v
    · subst hv
      simp [State.tagOf, State.groupToJoin]
    · simp [State.tagOf, hv]

theorem tagHolds_afterFirst (h4 : s.windows.windows.length = 4) (hop : ∀ w, op = some w → w < 4) {p : Piece}
    (hp : p.tag = s.tagOf op) : (s.afterFirst lp op).tagHolds p = true := by
  cases op with
  | none => simp [State.tagHolds, hp, State.tagOf]
  | some w => simp [State.tagHolds, hp, State.tagOf, window_afterFirst h4 hop]

/-- A tag that holds goes on holding while another piece is tagged. -/
theorem tagHolds_afterFirst_of_holds (h4 : s.windows.windows.length = 4) (hop : ∀ w, op = some w → w < 4) {p : Piece}
    (h : s.tagHolds p = true) : (s.afterFirst lp op).tagHolds p = true := by
  unfold State.tagHolds at h ⊢
  cases htag : p.tag with
  | none => rfl
  | some t =>
    simp only [htag, Bool.and_eq_true, decide_eq_true_eq] at h ⊢
    obtain ⟨hopen, hgroup⟩ := h
    rw [window_afterFirst h4 hop]
    split_ifs
    · exact ⟨rfl, by simp [State.groupToJoin, hopen, hgroup]⟩
    · exact ⟨hopen, hgroup⟩

/-! ### Both pieces -/

theorem window_afterBoth (h4 : s.windows.windows.length = 4) (hop : ∀ w, op = some w → w < 4)
    (hoq : ∀ w, oq = some w → w < 4) (v : Nat) :
    (s.afterBoth lp lq op oq).window v
      = match [s.tagOf op, (s.afterFirst lp op).tagOf oq].findSome? fun x => x.filter fun y => decide (y.window = v) with
        | some y => { s.window v with state := .opened, group := some y.group }
        | none => s.window v := by
  unfold State.afterBoth
  rw [window_afterFirst (length_windows_afterFirst h4) hoq, window_afterFirst h4 hop]
  by_cases hq : oq = some v
  · subst hq
    by_cases hp : op = some v
    · subst hp
      simp [State.tagOf, State.groupToJoin, window_afterFirst h4 hop, Option.filter]
    · cases op with
      | none => simp [State.tagOf, Option.filter]
      | some w =>
        have hw : w ≠ v := fun hw => hp (congrArg some hw)
        simp [State.tagOf, hw, Option.filter]
  · by_cases hp : op = some v
    · subst hp
      simp [State.tagOf, hq, Option.filter]
    · have hpnone : (s.tagOf op).filter (fun y => decide (y.window = v)) = none := by
        cases op with
        | none => rfl
        | some w =>
          have hw : w ≠ v := fun hw => hp (congrArg some hw)
          simp [State.tagOf, hw]
      have hqnone : ((s.afterFirst lp op).tagOf oq).filter (fun y => decide (y.window = v)) = none := by
        cases oq with
        | none => rfl
        | some w =>
          have hw : w ≠ v := fun hw => hq (congrArg some hw)
          simp [State.tagOf, hw]
      simp [hp, hq, hpnone, hqnone]

/-- How many of the four windows satisfy `f` and are one of two. -/
theorem length_filter_windows (f : Nat → Bool) (hop : ∀ w, op = some w → w < 4) (hoq : ∀ w, oq = some w → w < 4) :
    ([0, 1, 2, 3].filter fun w => f w && (decide (op = some w) || decide (oq = some w))).length
      = (op.any f).toNat + (oq.any fun w => f w && !decide (op = some w)).toNat := by
  have hsum : ∀ g : Nat → Bool, ([0, 1, 2, 3].filter g).length
      = (g 0).toNat + (g 1).toNat + (g 2).toNat + (g 3).toNat := fun g => by
    simp only [List.filter_cons, List.filter_nil]
    cases g 0 <;> cases g 1 <;> cases g 2 <;> cases g 3 <;> rfl
  rw [hsum]
  have hcases : ∀ o : Option Nat, (∀ w, o = some w → w < 4) →
      o = none ∨ o = some 0 ∨ o = some 1 ∨ o = some 2 ∨ o = some 3 := by
    intro o ho
    cases o with
    | none => exact .inl rfl
    | some w =>
      have := ho w rfl
      simp only [Option.some.injEq, reduceCtorEq, false_or]
      omega
  rcases hcases op hop with rfl | rfl | rfl | rfl | rfl <;> rcases hcases oq hoq with rfl | rfl | rfl | rfl | rfl <;>
    simp <;> omega

theorem nextGroup_afterBoth (h4 : s.windows.windows.length = 4) (hop : ∀ w, op = some w → w < 4)
    (hoq : ∀ w, oq = some w → w < 4) :
    (s.afterBoth lp lq op oq).windows.nextGroup = s.windows.nextGroup
      + ([0, 1, 2, 3].filter fun w => decide ((s.window w).state = .armed)
          && (decide (op = some w) || decide (oq = some w))).length := by
  unfold State.afterBoth
  rw [nextGroup_afterFirst, nextGroup_afterFirst, length_filter_windows _ hop hoq]
  have hsecond : oq.any (fun w => decide (((s.afterFirst lp op).window w).state = .armed))
      = oq.any fun w => decide ((s.window w).state = .armed) && !decide (op = some w) := by
    refine congrArg (fun f => oq.any f) (funext fun w => ?_)
    rw [window_afterFirst h4 hop]
    by_cases hw : op = some w <;> simp [hw]
  rw [hsecond]
  cases op.any _ <;> cases oq.any _ <;> simp

theorem filterMap_pair {α β : Type} (f : α → Option β) (a b : α) :
    [a, b].filterMap f = (f a).toList ++ (f b).toList := by
  cases ha : f a <;> cases hb : f b <;> simp [ha, hb]

theorem shadow_afterBoth (h : lq ≠ lp) : (s.afterBoth lp lq op oq).windows.shadow = s.windows.shadow
    ++ ([(lp, op), (lq, oq)].filterMap fun x => x.2.bind fun w =>
      if (s.shadowOf x.1).isSome = true then none else some (s.shadowFor x.1 w)) := by
  have hfirst : (s.afterFirst lp op).windows.shadow = s.windows.shadow ++ (op.bind fun w =>
      if (s.shadowOf lp).isSome = true then none else some (s.shadowFor lp w)).toList := by
    cases op with
    | none => simp [State.afterFirst, State.joinedAt]
    | some w =>
      simp only [State.afterFirst, State.joinedAt, State.joined]
      split_ifs <;> simp [*]
  have hsecond : (s.afterBoth lp lq op oq).windows.shadow = (s.afterFirst lp op).windows.shadow ++ (oq.bind fun w =>
      if (s.shadowOf lq).isSome = true then none else some (s.shadowFor lq w)).toList := by
    unfold State.afterBoth
    cases oq with
    | none => simp [State.afterFirst, State.joinedAt]
    | some w =>
      have hsame : ((s.afterFirst lp op).shadowOf lq) = s.shadowOf lq := shadowOf_afterFirst h
      rw [State.afterFirst, State.joinedAt, State.joined, hsame]
      dsimp only [Option.bind_some]
      split_ifs
      · simp
      · rfl
  rw [hsecond, hfirst, filterMap_pair, List.append_assoc]

theorem afterBoth_frame : s.afterBoth lp lq op oq = { s with windows := { s.windows with
    windows := (s.afterBoth lp lq op oq).windows.windows
    nextGroup := (s.afterBoth lp lq op oq).windows.nextGroup
    shadow := (s.afterBoth lp lq op oq).windows.shadow } } := by
  cases op <;> cases oq <;> rfl

end

/-- Two pieces, each in a window's range or outside every window, tagged one after the other. -/
theorem tagPieces_pair {s : State} {p q : Piece} (hp : p.fresh) (hq : q.fresh) (hpin : p.inRange = true)
    (hqin : q.inRange = true) (h4 : s.windows.windows.length = 4)
    (hgroup : ∀ w < 4, (s.window w).state = .opened → (s.window w).group.isSome = true)
    (hnext : s.windows.nextGroup < 4294967293) :
    s.tagPieces [p, q]
      = (s.afterBoth (s.lineOf p) (s.lineOf q) (s.windowAt [.armed, .opened] p.busLine)
          (s.windowAt [.armed, .opened] q.busLine),
        [{ p with tag := s.tagOf (s.windowAt [.armed, .opened] p.busLine) },
         { q with
            tag := (s.afterFirst (s.lineOf p) (s.windowAt [.armed, .opened] p.busLine)).tagOf
              (s.windowAt [.armed, .opened] q.busLine) }]) := by
  have hlt : ∀ w, s.windowAt [.armed, .opened] p.busLine = some w → w < 4 := fun w hw => (windowAt_state hw).2
  have hfirst := tagPiece_eq hp hpin rfl (hnext.trans (by norm_num)) hgroup
  have hnext' : (s.afterFirst (s.lineOf p) (s.windowAt [.armed, .opened] p.busLine)).windows.nextGroup
      < 4294967295 := by
    rw [nextGroup_afterFirst]
    split_ifs <;> omega
  have hgroup' : ∀ w < 4, ((s.afterFirst (s.lineOf p) (s.windowAt [.armed, .opened] p.busLine)).window w).state = .opened
      → ((s.afterFirst (s.lineOf p) (s.windowAt [.armed, .opened] p.busLine)).window w).group.isSome = true := by
    intro w hw
    rw [window_afterFirst h4 hlt]
    split_ifs
    · exact fun _ => rfl
    · exact hgroup w hw
  have hsecond := tagPiece_eq (s := s.afterFirst (s.lineOf p) (s.windowAt [.armed, .opened] p.busLine)) hq hqin
    (windowAt_afterFirst h4 rfl q.busLine) hnext' hgroup'
  have hsame : s.afterFirst (s.lineOf p) (s.windowAt [.armed, .opened] p.busLine)
      = { s with windows := s.joinedAt (s.lineOf p) (s.windowAt [.armed, .opened] p.busLine) } := rfl
  simp only [State.tagPieces, hfirst]
  rw [← hsame, hsecond]
  rfl

end Sys2Proof.Machine
end

section
/-! Writes that enter the hand-over phase or wait: the obligation. -/

namespace Sys2Proof.Machine

theorem joined_of_group {s : State} {line w g : Nat} (hg : s.groupToJoin w = g) : s.joined line w = { s.windows with
    windows := s.windows.windows.set w { s.window w with state := .opened, group := some g },
    nextGroup := if (s.window w).state = .armed then s.windows.nextGroup + 1 else s.windows.nextGroup,
    shadow := if (s.shadowOf line).isSome = true then s.windows.shadow
      else s.windows.shadow ++ [s.shadowFor line w] } := by
  rw [State.joined, hg]

/-- A write of two pieces, each in a window's range or outside every window. -/
theorem exec_writeRequest_pair {s : State} {addr : BitVec 24} {data : List Byte} {p q : Piece} (h : s.atRest = true)
    (hhold : s.commandHold = false) (h1 : 1 ≤ data.length) (h2 : data.length ≤ 32) (hm : s.mgmt.mode = .run)
    (hwp : s.array.wp = false) (hsplit : splitRequest addr.toNat data.length data = [p, q])
    (hpieces : ∀ x, x = p ∨ x = q → x.inRange = true ∧ s.mgmt.settings.locks.getLsbD (s.lineOf x / 1024) = false
      ∧ s.windowAt [.committing] x.busLine = none)
    (h4 : s.windows.windows.length = 4)
    (hgroup : ∀ w < 4, (s.window w).state = .opened → (s.window w).group.isSome = true)
    (hnext : s.windows.nextGroup < 4294967293)
    (hshadow : s.windows.shadow.length + ([p, q].filter fun x => (s.windowAt [.armed, .opened] x.busLine).isSome
      && (s.shadowOf (s.lineOf x)).isNone).length ≤ 64)
    (hplaces : s.queue.entries.length + s.queue.requests.length ≤ 14) (herased : 1 ≤ s.erasedCount) :
    exec (.writeRequest addr data) s = .next
      ((s.afterBoth (s.lineOf p) (s.lineOf q) (s.windowAt [.armed, .opened] p.busLine)
          (s.windowAt [.armed, .opened] q.busLine)).setRequest
        (s.writeRequest addr.toNat data .handOver false
          [{ p with tag := s.tagOf (s.windowAt [.armed, .opened] p.busLine) },
           { q with
              tag := (s.afterFirst (s.lineOf p) (s.windowAt [.armed, .opened] p.busLine)).tagOf
                (s.windowAt [.armed, .opened] q.busLine) }])) := by
  obtain ⟨hpin, hplock, hpfree⟩ := hpieces p (.inl rfl)
  obtain ⟨hqin, hqlock, hqfree⟩ := hpieces q (.inr rfl)
  have hmem : ∀ x ∈ splitRequest addr.toNat data.length data, x = p ∨ x = q := by rw [hsplit]; simp
  have hpfresh : p.fresh := fresh_of_mem_splitRequest (addr := addr.toNat) (n := data.length) (data := data)
    (by rw [hsplit]; simp)
  have hqfresh : q.fresh := fresh_of_mem_splitRequest (addr := addr.toNat) (n := data.length) (data := data)
    (by rw [hsplit]; simp)
  have hlt : ∀ l w, s.windowAt [.armed, .opened] l = some w → w < 4 := fun l w hw => (windowAt_state hw).2
  have htag := tagPieces_pair hpfresh hqfresh hpin hqin h4 hgroup hnext
  have hfirst : (s.afterFirst (s.lineOf p) (s.windowAt [.armed, .opened] p.busLine)).windows.nextGroup
      < 4294967294 := by
    rw [nextGroup_afterFirst]
    split_ifs <;> omega
  have hrest : (s.afterBoth (s.lineOf p) (s.lineOf q) (s.windowAt [.armed, .opened] p.busLine)
      (s.windowAt [.armed, .opened] q.busLine)).atRest = true :=
    atRest_afterFirst (atRest_afterFirst h (hnext.trans (by norm_num))) hfirst
  refine exec_writeRequest_handOver h h1 h2 hhold hm hwp (.inr fun x hx => (hpieces x (hmem x hx)).1)
    (fun x hx _ => (hpieces x (hmem x hx)).2) ⟨p, by rw [hsplit]; simp, hpin⟩ ?_ (hsplit ▸ htag) hrest
    (by rw [afterBoth_frame]) (by simp) (fun x hx => ?_) (fun x hx => ?_) hplaces herased
  · rw [filterMap_shadowNeed_le (fun x hx => (hpieces x (hmem x hx)).1), hsplit]
    omega
  · rcases List.mem_pair.mp hx with rfl | rfl
    · exact tagHolds_afterFirst_of_holds (length_windows_afterFirst h4) (hlt _)
        (tagHolds_afterFirst h4 (hlt _) rfl)
    · exact tagHolds_afterFirst (length_windows_afterFirst h4) (hlt _) rfl
  · rcases List.mem_pair.mp hx with rfl | rfl
    · exact hpfresh.2.1
    · exact hqfresh.2.1

/-- Settles O14: the checks pass and the pieces are tagged one after the other, or a check makes the write wait. -/
theorem writeEntersHandOver : Obligations.WriteEntersHandOver := by
  unfold Obligations.WriteEntersHandOver
  refine ⟨?untagged, ?tagged, ?waits, ?pair⟩
  case untagged =>
    intro s addr data h hhold h1 h2 hm hwp hin hpieces hplaces herased
    exact exec_writeRequest_untagged h hhold h1 h2 hm hwp hin hpieces hplaces herased
  case tagged =>
    intro s addr data p w g h hhold h1 h2 hm hwp hsplit hin hlock _ hw hfree hg hshadow hplaces herased
    have hjoin : s.groupToJoin w = g := by
      rcases hg with ⟨harmed, rfl, _⟩ | ⟨hopen, hsome⟩
      · simp [State.groupToJoin, harmed]
      · simp [State.groupToJoin, hopen, hsome]
    have hgroup : (s.window w).state = .opened → (s.window w).group.isSome = true := by
      rcases hg with ⟨harmed, _⟩ | ⟨_, hsome⟩
      · simp [harmed]
      · simp [hsome]
    have hnext : (s.window w).state = .armed → s.windows.nextGroup < 4294967294 := by
      rcases hg with ⟨_, rfl, hlt⟩ | ⟨hopen, _⟩
      · exact fun _ => hlt
      · simp [hopen]
    rw [exec_writeRequest_tagged h hhold h1 h2 hm hwp hsplit hin hlock hw hfree hgroup hnext hshadow hplaces herased,
      hjoin, joined_of_group hjoin]
    rfl
  case waits =>
    intro s addr data h h1 h2 hwaits
    refine exec_writeRequest_waits h h1 h2 ?_
    rcases hwaits with hhold | ⟨hhold, hm, hwp, hpieces, hcommitting⟩
    · exact checkWrite_of_hold hhold
    · rw [checkWrite_of_passed (s := s.takeRequest true addr.toNat data.length data) hhold hm hwp,
        checkRange_of_unlocked (s := s.takeRequest true addr.toNat data.length data)
          (r := s.writeRequest addr.toNat data .checking true (splitRequest addr.toNat data.length data))
          (strict_or_inRange fun p hp => (hpieces p hp).imp_left And.left)
          (fun p hp hin => ((hpieces p hp).resolve_right (by simp [hin])).2),
        checkWindows_of_committing (s := s.takeRequest true addr.toNat data.length data)
          (r := s.writeRequest addr.toNat data .checking true (splitRequest addr.toNat data.length data)) hcommitting]
  case pair =>
    intro s addr data p q tp tq h hhold h1 h2 hm hwp hsplit hpieces h4 hgroup hnext htp htq hshadow hplaces herased
    have hlt : ∀ l w, s.windowAt [.armed, .opened] l = some w → w < 4 := fun l w hw => (windowAt_state hw).2
    have htp' : s.tagOf (s.windowAt [.armed, .opened] p.busLine) = tp := htp.symm
    have htq' : (s.afterFirst (s.lineOf p) (s.windowAt [.armed, .opened] p.busLine)).tagOf
        (s.windowAt [.armed, .opened] q.busLine) = tq := by
      rw [htq]
      refine congrArg (fun f => Option.map f _) (funext fun w => ?_)
      rw [groupToJoin_afterFirst h4 (hlt _), htp']
    have hwindows : tp.map (·.window) = s.windowAt [.armed, .opened] p.busLine
        ∧ tq.map (·.window) = s.windowAt [.armed, .opened] q.busLine := by
      constructor
      · rw [htp]
        cases s.windowAt [.armed, .opened] p.busLine <;> rfl
      · rw [htq]
        cases s.windowAt [.armed, .opened] q.busLine <;> rfl
    have hlines : s.lineOf q ≠ s.lineOf p :=
      lineOf_ne_of_splitRequest hsplit (hpieces p (.inl rfl)).1 (hpieces q (.inr rfl)).1
    refine ⟨_, exec_writeRequest_pair h hhold h1 h2 hm hwp hsplit hpieces h4 hgroup hnext hshadow hplaces herased,
      ?_, ?_, ?_, ?_, ?_, ?_⟩
    · rw [htp', htq', afterBoth_frame]
      rfl
    · exact length_windows_afterFirst (length_windows_afterFirst h4)
    · intro w _
      refine (window_afterBoth h4 (hlt _) (hlt _) w).trans ?_
      rw [htp', htq'] <;> rfl
    · refine (nextGroup_afterBoth h4 (hlt _) (hlt _)).trans ?_
      rw [hwindows.1, hwindows.2]
      refine congrArg (fun f => s.windows.nextGroup + ([0, 1, 2, 3].filter f).length) (funext fun w => ?_)
      rw [Bool.eq_iff_iff]
      simp
    · refine (shadow_afterBoth hlines).trans ?_
      rw [← hwindows.1, ← hwindows.2]
      refine congrArg _ ?_
      rw [filterMap_pair, filterMap_pair]
      cases tp <;> cases tq <;> rfl
    · rw [afterBoth_frame]
      rfl

end Sys2Proof.Machine
end

section
/-! The acceptance of a write by the queue (R12, R54 to R59, R116, R118, R194). -/

namespace Sys2Proof.Machine

/-! ### WRITE_ACCEPTANCE (R55) -/

theorem exec_writeAcceptance {s : State} (hon : s.power = .on) :
    exec .writeAcceptance s = .next s.tryAccept.settle := taken_on s State.tryAccept hon

theorem tryAccept_of_accepted {s : State} {r : Request} (hr : s.port.request = some r) (hphase : r.phase = .handOver)
    (hc : s.canAccept r.handed = true) : s.tryAccept = s.accept r := by
  simp [State.tryAccept, hr, hphase, hc]

theorem tryAccept_of_refused {s : State} {r : Request} (hr : s.port.request = some r)
    (hc : s.canAccept r.handed = false) : s.tryAccept = s := by
  simp [State.tryAccept, hr, hc]

/-! ### Treatments (R55) -/

theorem treat_of_none {s : State} {p : Piece} (h : s.newestUsable (s.lineOf p) = none) : s.treat p = .fresh := by
  simp [State.treat, h]

theorem treat_of_some {s : State} {p : Piece} {e : LineEntry} (h : s.newestUsable (s.lineOf p) = some e) : s.treat p
    = if e.state = .programming then .fresh else if e.origin.isSome then .behind
      else if e.tag = p.tag then .coalesce else .fresh := by
  simp only [State.treat, h]
  cases e.state <;> cases e.origin <;> simp

theorem mergeMissing_of_some {s : State} {p : Piece} {e : LineEntry} (h : s.newestUsable (s.lineOf p) = some e) :
    s.mergeMissing p = false := by
  simp [State.mergeMissing, State.needsMerge, h]

theorem mergeMissing_of_full {s : State} {p : Piece} (h : p.full = true) : s.mergeMissing p = false := by
  simp [State.mergeMissing, State.needsMerge, h]

theorem mergeMissing_of_unrecorded {s : State} {p : Piece} (h : (s.entry (s.lineOf p)).current = none) :
    s.mergeMissing p = false := by
  simp [State.mergeMissing, State.needsMerge, h]

theorem mergeMissing_of_merged {s : State} {p : Piece} {m : MergeImage} (hm : p.merge = some m)
    (h : (s.entry (s.lineOf p)).current = some m.slot) : s.mergeMissing p = false := by
  simp [State.mergeMissing, hm, h]

theorem gateAdmits_iff (s : State) (n : Nat) :
    s.gateAdmits n = true ↔ s.queue.entries.length + s.queue.requests.length + n ≤ 16 ∧ 1 ≤ s.erasedCount := by
  simp only [State.gateAdmits, Bool.and_eq_true, decide_eq_true_eq]
  rfl

theorem canAccept_of_fresh {s : State} {ps : List Piece} (hready : ∀ p ∈ ps, s.treat p = .fresh ∧ s.mergeMissing p = false)
    (hrequests : s.queue.requests = []) (hplaces : s.queue.entries.length + ps.length ≤ 16)
    (herased : 1 ≤ s.erasedCount) : s.canAccept ps = true := by
  have hpieces : s.piecesReady ps = true := by
    refine List.all_eq_true.mpr fun p hp => ?_
    obtain ⟨hfresh, hmerge⟩ := hready p hp
    simp [hfresh, hmerge]
  have hgate : s.gateAdmits (s.freshCount ps) = true := by
    have hle := freshCount_le s ps
    rw [gateAdmits_iff, hrequests]
    exact ⟨by simp only [List.length_nil]; omega, herased⟩
  simp [State.canAccept, hpieces, hgate, hrequests]

theorem canAccept_of_coalesced {s : State} {p : Piece} (ht : s.treat p = .coalesce) (hm : s.mergeMissing p = false) :
    s.canAccept [p] = true := by
  simp [State.canAccept, State.piecesReady, State.freshCount, ht, hm]

/-! ### Newest usable entries (R39, R56) -/

theorem foldl_usable_of_none {line : Nat} {qs : List QEntry} (h : ∀ q ∈ qs, q.usable line = none)
    (acc : Option LineEntry) :
    qs.foldl (fun acc q => match q.usable line with | some e => some e | none => acc) acc = acc := by
  induction qs generalizing acc with
  | nil => rfl
  | cons q qs ih =>
    simp only [List.foldl_cons, h q List.mem_cons_self]
    exact ih (fun x hx => h x (List.mem_cons_of_mem q hx)) acc

theorem newestUsable_of_split {s : State} {line : Nat} {before after : List QEntry} {e : LineEntry}
    (h : s.queue.entries = before ++ .line e :: after) (he : (QEntry.line e).usable line = some e)
    (hafter : ∀ q ∈ after, q.usable line = none) : s.newestUsable line = some e := by
  unfold State.newestUsable
  rw [h, List.foldl_append, List.foldl_cons]
  simp only [he]
  exact foldl_usable_of_none hafter _

theorem changeNewest_of_none {line : Nat} (f : LineEntry → LineEntry) {qs : List QEntry}
    (h : ∀ q ∈ qs, q.usable line = none) : changeNewest line f qs = none := by
  induction qs with
  | nil => rfl
  | cons q qs ih =>
    simp only [changeNewest, ih fun x hx => h x (List.mem_cons_of_mem q hx), h q List.mem_cons_self]

theorem changeNewest_of_split {line : Nat} (f : LineEntry → LineEntry) {before after : List QEntry} {e : LineEntry}
    (he : (QEntry.line e).usable line = some e) (hafter : ∀ q ∈ after, q.usable line = none) :
    changeNewest line f (before ++ .line e :: after) = some (before ++ .line (f e) :: after) := by
  induction before with
  | nil => simp only [List.nil_append, changeNewest, changeNewest_of_none f hafter, he]
  | cons q before ih => simp only [List.cons_append, changeNewest, ih]

/-! ### A piece accepted (R55 to R57) -/

theorem acceptPiece_fresh (s : State) (p : Piece) : s.acceptPiece (p, .fresh) = { s with queue := { s.queue with
    entries := s.queue.entries ++ [.line (newLineEntry (s.lineOf p) (p.layOver (s.imageSource p)) p.tag)] } } := rfl

theorem acceptPiece_coalesce {s : State} {p : Piece} {qs : List QEntry}
    (h : changeNewest (s.lineOf p) (fun e => { e with image := p.layOver e.image }) s.queue.entries = some qs) :
    s.acceptPiece (p, .coalesce) = { s with queue := { s.queue with entries := qs } } := by
  simp only [State.acceptPiece, h]

/-- The state after the queue has taken a write's pieces and OK has been answered. -/
def State.accepted (s : State) (es : List QEntry) : State :=
  { s with
    port := { s.port with request := none, response := some { cause := none, data := [] } }
    queue := { s.queue with entries := es } }

theorem accept_of_entries {s : State} {r : Request} {es : List QEntry} (hidle : s.readInFlight = false)
    (hes : (r.handed.map fun p => (p, s.treat p)).foldl State.acceptPiece s
      = { s with queue := { s.queue with entries := es } }) :
    s.accept r = r.handed.foldl State.pieceTrigger (s.accepted es) := by
  have hidle' : State.readInFlight { s with queue := { s.queue with entries := es } } = false := hidle
  have hrespond : State.respond { s with queue := { s.queue with entries := es } } none [] = s.accepted es := by
    unfold State.respond
    rw [abandonRead_of_none _ hidle']
    rfl
  simp only [State.accept, hes, hrespond]

theorem pieceTrigger_of_none {s : State} {p : Piece}
    (h : ∀ t, p.tag = some t → p.busLine ≠ (s.window t.window).last) : s.pieceTrigger p = s := by
  unfold State.pieceTrigger
  split
  · rfl
  case h_2 t ht => exact if_neg (h t ht)

theorem pieceTrigger_of_last {s : State} {p : Piece} {w g : Nat} (htag : p.tag = some { window := w, group := g })
    (hlast : p.busLine = (s.window w).last) (hopen : (s.window w).state = .opened) (hg : (s.window w).group = some g) :
    s.pieceTrigger p = s.closeGroup w g := by
  simp [State.pieceTrigger, htag, hlast, State.closeTrigger, hopen, hg]

theorem pieceTrigger_accepted_of_none {s : State} {p : Piece} (es : List QEntry)
    (h : ∀ t, p.tag = some t → p.busLine ≠ (s.window t.window).last) :
    (s.accepted es).pieceTrigger p = s.accepted es := pieceTrigger_of_none (s := s.accepted es) h

theorem pieceTrigger_accepted_of_last {s : State} {p : Piece} {w g : Nat} (es : List QEntry)
    (htag : p.tag = some { window := w, group := g }) (hlast : p.busLine = (s.window w).last)
    (hopen : (s.window w).state = .opened) (hg : (s.window w).group = some g) :
    (s.accepted es).pieceTrigger p = (s.accepted es).closeGroup w g :=
  pieceTrigger_of_last (s := s.accepted es) htag hlast hopen hg

/-! ### The state at rest but for the request -/

theorem idle_of_restWithout {s : State} (h : State.atRest { s with port := { s.port with request := none } } = true) :
    s.power = .on ∧ s.readInFlight = false ∧ s.calm = true ∧ s.freeDeadGroups = s ∧ s.mgmt.spaceLow = s.headStalled := by
  obtain ⟨hcalm, _, hidle, hdead, hspace⟩ := atRest_parts _ h
  have hon : s.power = .on := atRest_power { s with port := { s.port with request := none } } h
  refine ⟨hon, hidle, hcalm, ?_, hspace⟩
  rw [freeDeadGroups_eq_iff] at hdead ⊢
  exact hdead

/-- The queue's entries bear on rest by the stall of the head only. -/
theorem atRest_accepted {s : State} {es : List QEntry}
    (h : State.atRest { s with port := { s.port with request := none } } = true)
    (hhead : State.headStalled { s with queue := { s.queue with entries := es } } = s.headStalled) :
    (s.accepted es).atRest = true := by
  obtain ⟨_, hidle, hcalm, hdead, hspace⟩ := idle_of_restWithout h
  have hcalm' : (s.accepted es).calm = true := hcalm
  have hidle' : (s.accepted es).readInFlight = false := hidle
  have hdead' : (s.accepted es).freeDeadGroups = s.accepted es := by
    rw [freeDeadGroups_eq_iff] at hdead ⊢
    exact hdead
  have hspace' : (s.accepted es).mgmt.spaceLow = (s.accepted es).headStalled := hspace.trans hhead.symm
  have hport : (s.accepted es).port.request = none := rfl
  simp only [State.atRest, hcalm', hport, hidle', hdead', hspace']
  simp

theorem headStalled_of_erased {s : State} (h : 3 ≤ s.erasedCount) : s.headStalled = false := by
  have hgate : decide (s.erasedCount < Config.hostGate) = false := decide_eq_false (Nat.not_lt.mpr h)
  simp [State.headStalled, hgate]

/-- An entry changed in its image alone stalls the head as it did. -/
theorem headStalled_of_image {s : State} {before after : List QEntry} {e : LineEntry} (image : List Byte)
    (h : s.queue.entries = before ++ .line e :: after) :
    State.headStalled { s with queue := { s.queue with entries := before ++ .line { e with image := image } :: after } }
      = s.headStalled := by
  have hready : State.headReady
      { s with queue := { s.queue with entries := before ++ .line { e with image := image } :: after } }
      = s.headReady := by
    unfold State.headReady State.headUnnumberable State.head
    cases before with
    | nil => rw [h]; rfl
    | cons q before => rw [h]; rfl
  simp only [State.headStalled, hready]
  rfl

/-! ### The close trigger after an acceptance (R12, R116, R118) -/

theorem closeGroup_of_accepted {s : State} {es : List QEntry} {w g i : Nat} (h4 : s.windows.windows.length = 4)
    (hw : w < 4) (hi : i < 16) (hfree : s.reg i = .free) (hlowest : ∀ j < i, s.reg j ≠ .free)
    (hrequests : s.queue.requests = []) (herased : 1 ≤ s.erasedCount) :
    (s.accepted es).closeGroup w g = { s with
      port := { s.port with request := none, response := some { cause := none, data := [] } },
      windows := { s.windows with
        windows := s.windows.windows.set w
          { s.window w with state := .committing, register := some i, awaiting := false },
        register := s.windows.register.set i (.reserved w g) },
      queue := { s.queue with
        entries := es ++ (if es.length ≤ 15 then
            [.commit { window := w, group := g, register := i, state := .pending, attempts := 0, blockAttempts := 0,
                       lastBlock := none, target := none, syncMark := false }]
          else []),
        requests := if es.length ≤ 15 then []
          else [{ window := w, group := g, register := i, syncMark := false }] } } := by
  rw [closeGroup_of_free (s.accepted es) w g i (h4.symm ▸ hw) hi hfree hlowest]
  by_cases hplace : es.length ≤ 15
  · rw [askCommit_of_place]
    case hr => exact hrequests
    case hl => exact hplace
    case he => exact herased
    simp only [hplace, if_true, State.accepted, ← hrequests]
    rfl
  · rw [askCommit_of_none]
    case h => exact .inr (.inl (Nat.not_le.mp hplace))
    simp only [hplace, if_false, State.accepted, hrequests, List.append_nil]
    rfl

/-! ### One piece (R55 to R57) -/

section
variable {s : State} {r : Request} {p : Piece}

/-- A piece that needs a new entry is accepted. -/
theorem tryAccept_of_fresh (hr : s.port.request = some r) (hphase : r.phase = .handOver) (hidle : s.readInFlight = false)
    (hhanded : r.handed = [p]) (hfresh : s.treat p = .fresh) (hmerge : s.mergeMissing p = false)
    (hplaces : s.queue.entries.length ≤ 15) (hrequests : s.queue.requests = []) (herased : 1 ≤ s.erasedCount) :
    s.tryAccept = (s.accepted (s.queue.entries
      ++ [.line (newLineEntry (s.lineOf p) (p.layOver (s.imageSource p)) p.tag)])).pieceTrigger p := by
  have hc : s.canAccept r.handed = true := by
    rw [hhanded]
    refine canAccept_of_fresh (fun q hq => ?_) hrequests (by simp; omega) herased
    rw [List.mem_singleton.mp hq]
    exact ⟨hfresh, hmerge⟩
  have haccept := accept_of_entries (r := r) (es := s.queue.entries
    ++ [.line (newLineEntry (s.lineOf p) (p.layOver (s.imageSource p)) p.tag)]) hidle (by
      simp only [hhanded, List.map_cons, List.map_nil, List.foldl_cons, List.foldl_nil, hfresh, acceptPiece_fresh])
  rw [tryAccept_of_accepted hr hphase hc, haccept, hhanded]
  rfl

/-- A piece that coalesces is accepted. -/
theorem tryAccept_of_coalesce {before after : List QEntry} {e : LineEntry} (hr : s.port.request = some r)
    (hphase : r.phase = .handOver) (hidle : s.readInFlight = false) (hhanded : r.handed = [p])
    (hentries : s.queue.entries = before ++ .line e :: after) (hafter : ∀ q ∈ after, q.usable (s.lineOf p) = none)
    (hline : e.line = s.lineOf p) (hdropped : e.dropped = false) (hstate : e.state = .pending)
    (horigin : e.origin = none) (htag : e.tag = p.tag) :
    s.tryAccept = (s.accepted (before ++ .line { e with image := p.layOver e.image } :: after)).pieceTrigger p := by
  have husable : (QEntry.line e).usable (s.lineOf p) = some e := if_pos ⟨hline, hdropped⟩
  have hnewest := newestUsable_of_split hentries husable hafter
  have hcoalesce : s.treat p = .coalesce := by
    rw [treat_of_some hnewest]
    simp [hstate, horigin, htag]
  have hc : s.canAccept r.handed = true := by
    rw [hhanded]
    exact canAccept_of_coalesced hcoalesce (mergeMissing_of_some hnewest)
  have haccept := accept_of_entries (r := r) (es := before ++ .line { e with image := p.layOver e.image } :: after) hidle
    (by
      simp only [hhanded, List.map_cons, List.map_nil, List.foldl_cons, List.foldl_nil, hcoalesce]
      exact acceptPiece_coalesce (by rw [hentries]; exact changeNewest_of_split _ husable hafter))
  rw [tryAccept_of_accepted hr hphase hc, haccept, hhanded]
  rfl

theorem full_iff : p.full = true ↔ p.offset = 0 ∧ p.length = 32 := by
  simp only [Piece.full, Bool.and_eq_true, decide_eq_true_eq]
  rfl

/-- The source of a new entry's image, where no merge read is missing (R57). -/
theorem fresh_of_source {source : List Byte}
    (h : (∃ e, s.newestUsable (s.lineOf p) = some e ∧ source = e.image
          ∧ (e.state = .programming ∨ e.state = .pending ∧ e.origin = none ∧ e.tag ≠ p.tag))
      ∨ s.newestUsable (s.lineOf p) = none ∧ p.offset = 0 ∧ p.length = 32 ∧ source = p.data
      ∨ s.newestUsable (s.lineOf p) = none ∧ p.length ≠ 32 ∧ (s.entry (s.lineOf p)).current = none
        ∧ source = List.replicate 32 s.mgmt.settings.fill
      ∨ s.newestUsable (s.lineOf p) = none ∧ p.length ≠ 32
        ∧ ∃ m, p.merge = some m ∧ (s.entry (s.lineOf p)).current = some m.slot ∧ source = m.image) :
    s.treat p = .fresh ∧ s.mergeMissing p = false ∧ s.imageSource p = source := by
  rcases h with ⟨e, he, rfl, hstate⟩ | ⟨hnone, hoffset, hlength, rfl⟩ | ⟨hnone, hlength, hcurrent, rfl⟩
    | ⟨hnone, hlength, m, hm, hcurrent, rfl⟩
  · refine ⟨?_, mergeMissing_of_some he, by simp [State.imageSource, he]⟩
    rw [treat_of_some he]
    rcases hstate with hprogramming | ⟨hpending, horigin, htag⟩
    · simp [hprogramming]
    · simp [hpending, horigin, htag]
  · have hfull : p.full = true := full_iff.mpr ⟨hoffset, hlength⟩
    exact ⟨treat_of_none hnone, mergeMissing_of_full hfull, by simp [State.imageSource, hnone, hfull]⟩
  · have hpart : ¬p.full = true := fun hf => hlength (full_iff.mp hf).2
    exact ⟨treat_of_none hnone, mergeMissing_of_unrecorded hcurrent, by
      simp [State.imageSource, hnone, hpart, hcurrent, fillLine, Config.lineBytes]⟩
  · have hpart : ¬p.full = true := fun hf => hlength (full_iff.mp hf).2
    exact ⟨treat_of_none hnone, mergeMissing_of_merged hm hcurrent, by
      simp [State.imageSource, hnone, hpart, hcurrent, hm]⟩

end

/-! ### Writes that are not accepted (R55, R59) -/

theorem canAccept_of_behind {s : State} {ps : List Piece} {p : Piece} (hp : p ∈ ps) (h : s.treat p = .behind) :
    s.canAccept ps = false := by
  have hready : s.piecesReady ps = false := by
    rw [State.piecesReady, List.all_eq_false]
    exact ⟨p, hp, by simp [h]⟩
  simp [State.canAccept, hready]

theorem canAccept_of_gate {s : State} {ps : List Piece} (hfresh : 1 ≤ s.freshCount ps)
    (h : 16 < s.queue.entries.length + s.queue.requests.length + s.freshCount ps ∨ s.erasedCount = 0) :
    s.canAccept ps = false := by
  have hgate : s.gateAdmits (s.freshCount ps) = false := by
    rw [Bool.eq_false_iff, Ne, gateAdmits_iff]
    omega
  have hsome : ¬s.freshCount ps = 0 := by omega
  simp [State.canAccept, hgate, hsome]

/-- A piece does not coalesce. -/
def State.needsEntry (s : State) (p : Piece) : Bool :=
  !(match s.newestUsable (s.lineOf p) with
    | some e => decide (e.state = .pending) && decide (e.origin = none) && decide (e.tag = p.tag)
    | none => false)

theorem needsEntry_iff (s : State) (p : Piece) : s.needsEntry p = true ↔ s.treat p ≠ .coalesce := by
  unfold State.needsEntry
  cases he : s.newestUsable (s.lineOf p) with
  | none => simp [treat_of_none he]
  | some e =>
    rw [treat_of_some he]
    cases hs : e.state <;> cases ho : e.origin <;> by_cases htag : e.tag = p.tag <;> simp [hs, ho, htag]

/-- The pieces that do not coalesce are those that need new entries, when none waits behind a numbered entry. -/
theorem canAccept_of_needs {s : State} {ps : List Piece} (hneeds : 1 ≤ (ps.filter s.needsEntry).length)
    (h : 16 < s.queue.entries.length + s.queue.requests.length + (ps.filter s.needsEntry).length ∨ s.erasedCount = 0) :
    s.canAccept ps = false := by
  by_cases hbehind : ∃ p ∈ ps, s.treat p = .behind
  · obtain ⟨p, hp, hpb⟩ := hbehind
    exact canAccept_of_behind hp hpb
  · have hcount : s.freshCount ps = (ps.filter s.needsEntry).length := by
      refine congrArg List.length (List.filter_congr fun p hp => ?_)
      rw [Bool.eq_iff_iff, needsEntry_iff, decide_eq_true_eq]
      have hnot : s.treat p ≠ .behind := fun hpb => hbehind ⟨p, hp, hpb⟩
      cases ht : s.treat p <;> simp_all
    exact canAccept_of_gate (hcount ▸ hneeds) (hcount ▸ h)

/-- A write in hand-over that the gate stalls stands still; SPACE_LOW is true (R194). -/
theorem settle_of_stalled {s : State} {r : Request} (hr : s.port.request = some r)
    (hrest : State.atRest { s with port := { s.port with request := none } } = true) (hm : s.mgmt.mode = .run)
    (hwp : s.array.wp = false) (hhold : s.commandHold = false) (hphase : r.phase = .handOver)
    (hpieces : ∀ q ∈ r.pieces, q.tag = none ∧ q.merge = none) (hstall : s.gateStalls r.handed = true) :
    s.settle.port = s.port ∧ s.settle.queue = s.queue ∧ s.settle.mgmt.spaceLow = true := by
  obtain ⟨_, _, hcalm, hdead, _⟩ := idle_of_restWithout hrest
  have hstands : s.portStep = s := portStep_of_handOver hr hphase hhold hm hwp
    (fun q hq => by simp [State.tagHolds, (hpieces q hq).1]) (fun q hq => (hpieces q hq).2)
  have hsettle : s.settle = s.settleSpace := by
    rw [settle_of_calm s hcalm] <;> rw [hdead, hstands]
    · rw [hdead, hstands]
    · exact hcalm
    · rw [hdead, hstands]
      exact hcalm
  have hnow : s.spaceLowNow = true := by simp [State.spaceLowNow, State.writeStalled, hr, hphase, hstall]
  rw [hsettle]
  refine ⟨settleSpace_port s, settleSpace_queue s, ?_⟩
  have hedge : ∀ (t : State) a b, (t.edge t.mgmt.edgeSpace .spaceLow a b).mgmt.spaceLow = t.mgmt.spaceLow := by
    intro t a b
    unfold State.edge
    split_ifs <;> rfl
  exact (hedge _ _ _).trans hnow

/-- Settles O17: one lemma for a fresh piece and one for a piece that coalesces, each with the close trigger; a write that
is not accepted changes nothing. -/
theorem writesAreAccepted : Obligations.WritesAreAccepted := by
  unfold Obligations.WritesAreAccepted
  refine ⟨?full, ?coalesce, ?fresh, ?pair, ?behind, ?gate, ?stalled⟩
  case full =>
    intro s r p hr hrest hphase hhanded hoffset hlength hdata htag hnone hplaces hrequests herased
    obtain ⟨hon, hidle, _⟩ := idle_of_restWithout hrest
    have himage : p.layOver (s.imageSource p) = p.data := by
      have hfull : p.full = true := full_iff.mpr ⟨hoffset, hlength⟩
      simp [Piece.layOver, State.imageSource, hnone, hfull, hoffset]
    have haccept := tryAccept_of_fresh hr hphase hidle hhanded (treat_of_none hnone)
      (mergeMissing_of_full (full_iff.mpr ⟨hoffset, hlength⟩)) hplaces hrequests (by omega)
    rw [pieceTrigger_accepted_of_none _ (by simp [htag]), himage, htag] at haccept
    rw [exec_writeAcceptance hon, haccept, settle_of_atRest]
    · rfl
    · refine atRest_accepted hrest ?_
      rw [headStalled_of_erased herased]
      exact headStalled_of_erased herased
  case coalesce =>
    intro s r p e before after hr hrest hphase hhanded hentries hafter hline hdropped hstate horigin htag
    obtain ⟨hon, hidle, _⟩ := idle_of_restWithout hrest
    have haccept := tryAccept_of_coalesce hr hphase hidle hhanded hentries hafter hline hdropped hstate horigin htag
    refine ⟨fun hlast => ?_, fun w g i hptag hlast h4 hw hopen hg hi hfree hlowest hrequests herased => ?_⟩
    · rw [pieceTrigger_accepted_of_none _ hlast] at haccept
      rw [exec_writeAcceptance hon, haccept, settle_of_atRest]
      · rfl
      · exact atRest_accepted hrest (headStalled_of_image _ hentries)
    · rw [pieceTrigger_accepted_of_last _ hptag hlast hopen hg,
        closeGroup_of_accepted h4 hw hi hfree hlowest hrequests herased] at haccept
      have hlen : s.queue.entries.length
          = (before ++ QEntry.line { e with image := p.layOver e.image } :: after).length := by
        rw [hentries]
        simp
      rw [exec_writeAcceptance hon, haccept, hlen]
      rfl
  case fresh =>
    intro s r p source hon hidle hr hphase hhanded hplaces hrequests herased hsource
    obtain ⟨hfresh, hmerge, himage⟩ := fresh_of_source hsource
    have haccept := tryAccept_of_fresh hr hphase hidle hhanded hfresh hmerge hplaces hrequests herased
    rw [himage] at haccept
    refine ⟨fun hlast => ?_, fun w g i hptag hlast h4 hw hopen hg hi hfree hlowest => ?_⟩
    · rw [pieceTrigger_accepted_of_none _ hlast] at haccept
      rw [exec_writeAcceptance hon, haccept]
      rfl
    · rw [pieceTrigger_accepted_of_last _ hptag hlast hopen hg,
        closeGroup_of_accepted h4 hw hi hfree hlowest hrequests herased] at haccept
      have hroom : (s.queue.entries ++ [QEntry.line (newLineEntry (s.lineOf p) (p.layOver source) p.tag)]).length ≤ 15
          ↔ s.queue.entries.length ≤ 14 := by
        rw [List.length_append, List.length_singleton]
        omega
      simp only [hroom, List.append_assoc, List.singleton_append] at haccept
      rw [exec_writeAcceptance hon, haccept]
      rfl
  case pair =>
    intro s r p q hon hidle hr hphase hhanded hplaces hrequests herased hlines hpieces
    obtain ⟨hpnone, hpcurrent, hplength, hplast⟩ := hpieces p (.inl rfl)
    obtain ⟨hqnone, hqcurrent, hqlength, hqlast⟩ := hpieces q (.inr rfl)
    have hc : s.canAccept r.handed = true := by
      refine canAccept_of_fresh (fun x hx => ?_) hrequests (by rw [show r.handed = [p, q] from hhanded]; simp; omega)
        herased
      obtain ⟨hnone, hcurrent, _, _⟩ := hpieces x (by simpa [show r.handed = [p, q] from hhanded] using hx)
      exact ⟨treat_of_none hnone, mergeMissing_of_unrecorded hcurrent⟩
    have hsource : ∀ x : Piece, ∀ es, x.length ≠ 32 → (s.entry (s.lineOf x)).current = none →
        State.newestUsable { s with queue := { s.queue with entries := es } } (s.lineOf x) = none →
        State.imageSource { s with queue := { s.queue with entries := es } } x
          = List.replicate 32 s.mgmt.settings.fill := fun x es hlength hcurrent hnone => by
      have hcurrent' : (State.entry { s with queue := { s.queue with entries := es } } (s.lineOf x)).current = none :=
        hcurrent
      have hlineOf : State.lineOf { s with queue := { s.queue with entries := es } } x = s.lineOf x := rfl
      have hpart : ¬x.full = true := fun hf => hlength (full_iff.mp hf).2
      simp [State.imageSource, hlineOf, hnone, hpart, hcurrent', fillLine, Config.lineBytes]
    have hqnone' : State.newestUsable { s with queue := { s.queue with entries := s.queue.entries
        ++ [.line (newLineEntry (s.lineOf p) (p.layOver (s.imageSource p)) p.tag)] } } (s.lineOf q) = none := by
      simp only [State.newestUsable, List.foldl_append, List.foldl_cons, List.foldl_nil]
      have hother : (QEntry.line (newLineEntry (s.lineOf p) (p.layOver (s.imageSource p)) p.tag)).usable (s.lineOf q)
          = none := if_neg fun hc => hlines hc.1
      rw [hother]
      exact hqnone
    have hpsource := hsource p s.queue.entries hplength hpcurrent hpnone
    have hqsource := hsource q _ hqlength hqcurrent hqnone'
    have haccept := accept_of_entries (r := r) (es := s.queue.entries
      ++ [.line (newLineEntry (s.lineOf p) (p.layOver (List.replicate 32 s.mgmt.settings.fill)) p.tag),
          .line (newLineEntry (s.lineOf q) (q.layOver (List.replicate 32 s.mgmt.settings.fill)) q.tag)]) hidle (by
        have hpsource' : s.imageSource p = List.replicate 32 s.mgmt.settings.fill := hpsource
        rw [hpsource'] at hqsource
        rw [show r.handed = [p, q] from hhanded]
        simp only [List.map_cons, List.map_nil, List.foldl_cons, List.foldl_nil, treat_of_none hpnone,
          treat_of_none hqnone, acceptPiece_fresh, hpsource', hqsource, List.append_assoc, List.singleton_append]
        rfl)
    rw [exec_writeAcceptance hon, tryAccept_of_accepted hr hphase hc, haccept, show r.handed = [p, q] from hhanded,
      List.foldl_cons, List.foldl_cons, List.foldl_nil, pieceTrigger_accepted_of_none _ hplast, pieceTrigger_accepted_of_none _ hqlast]
    rfl
  case behind =>
    intro s r p e hon hr hphase hp hin he hstate horigin
    have hbehind : s.treat p = .behind := by
      rw [treat_of_some he]
      simp [hstate, horigin]
    rw [exec_writeAcceptance hon,
      tryAccept_of_refused hr (canAccept_of_behind (List.mem_filter.mpr ⟨hp, hin⟩) hbehind)]
  case gate =>
    intro s r n hon hr hphase hn hpos hgate
    have hcount : n = (r.handed.filter s.needsEntry).length := by
      rw [hn, Request.handed, List.filter_filter]
      refine congrArg List.length (List.filter_congr fun p _ => ?_)
      rw [Bool.and_comm]
      rfl
    rw [exec_writeAcceptance hon,
      tryAccept_of_refused hr (canAccept_of_needs (hcount ▸ hpos) (hcount ▸ hgate))]
  case stalled =>
    intro s r p hr hrest hm hwp hhold hwrite hphase hhanded hfull hnone hpieces hgate
    obtain ⟨hon, _⟩ := idle_of_restWithout hrest
    have hfresh : s.freshCount r.handed = 1 := by
      rw [show r.handed = [p] from hhanded]
      simp [State.freshCount, treat_of_none hnone]
    have hgate' : 16 < s.queue.entries.length + s.queue.requests.length + s.freshCount r.handed
        ∨ s.erasedCount = 0 := by omega
    have hstall : s.gateStalls r.handed = true := by
      have hclosed : s.gateAdmits (s.freshCount r.handed) = false := by
        rw [Bool.eq_false_iff, Ne, gateAdmits_iff]
        omega
      have hready : s.piecesReady r.handed = true := by
        rw [show r.handed = [p] from hhanded]
        simp [State.piecesReady, treat_of_none hnone, mergeMissing_of_full hfull]
      have hsome : ¬s.freshCount r.handed = 0 := by omega
      simp [State.gateStalls, hready, hclosed, hsome]
    refine ⟨_, ?_, settle_of_stalled hr hrest hm hwp hhold hphase hpieces hstall⟩
    rw [exec_writeAcceptance hon, tryAccept_of_refused hr (canAccept_of_gate (by omega) hgate')]

end Sys2Proof.Machine
end

section
/-! Events, media reports and faults as other proofs use them (R164, R165, R188, R192). -/

namespace Sys2Proof.Machine

/-! ### Events (R192) -/

theorem getLsbD_setEvent (events : BitVec 16) (e f : Event) :
    (setEvent events e).getLsbD f.bit = (events.getLsbD f.bit || decide (f = e)) := by
  have hbit : (1#16 <<< e.bit).getLsbD f.bit = decide (f = e) := by
    cases e <;> cases f <;> rfl
  rw [setEvent, BitVec.getLsbD_or, hbit]

@[simp] theorem eventSet_raise (s : State) (e f : Event) : (s.raise e).eventSet f = (s.eventSet f || decide (f = e)) :=
  getLsbD_setEvent s.mgmt.events e f

theorem eventSet_raise_same (s : State) (e : Event) : (s.raise e).eventSet e = true := by simp

/-! ### Media reports (R164, R165) -/

/-- A report counts when its class, or MEDIA for any class but SUSPEND, is selected. -/
theorem counts_iff (sel c : HealthClass) :
    sel.counts c = true ↔ sel = c ∨ sel = .media ∧ c ≠ .suspend := by
  simp only [HealthClass.counts, Bool.or_eq_true, Bool.and_eq_true, decide_eq_true_eq]

theorem report_of_uncounted {s : State} {c : HealthClass} (h : ¬s.health.cls.counts c = true) : s.report c = s := if_neg h

theorem report_of_counted {s : State} {c : HealthClass} (h : s.health.cls.counts c = true) :
    s.report c = if s.health.count = 65534 then State.raise { s with health := s.health.bump } .healthSaturated
      else { s with health := s.health.bump } := by
  have hmax : s.health.count + 1 = Config.healthMax ↔ s.health.count = 65534 := by
    simp only [Config.healthMax]
    omega
  unfold State.report
  simp only [h, if_true, hmax]

theorem report_health (s : State) (c : HealthClass) :
    (s.report c).health = if s.health.cls.counts c = true then s.health.bump else s.health := by
  by_cases h : s.health.cls.counts c = true
  · rw [report_of_counted h, if_pos h]
    split_ifs <;> rfl
  · rw [report_of_uncounted h, if_neg h]

theorem report_arm (s : State) (c : HealthClass) : (s.report c).health.arm = s.health.arm := by
  rw [report_health]
  unfold Health.bump
  split_ifs <;> rfl

theorem bump_eq (h : Health) : h.bump = if h.count < 65535 then
    { h with count := h.count + 1, saturated := h.saturated || decide (h.count = 65534) } else h := by
  have hmax : (h.count + 1 = Config.healthMax) = (h.count = 65534) := by
    simp only [Config.healthMax, eq_iff_iff]
    omega
  have hlt : (h.count < Config.healthMax) = (h.count < 65535) := rfl
  unfold Health.bump
  simp only [hmax, hlt]

theorem report_count (s : State) (c : HealthClass) :
    (s.report c).health.count
      = if s.health.cls.counts c = true ∧ s.health.count < 65535 then s.health.count + 1 else s.health.count := by
  rw [report_health]
  by_cases h : s.health.cls.counts c = true
  · rw [if_pos h, bump_eq]
    by_cases hlt : s.health.count < 65535
    · rw [if_pos hlt, if_pos ⟨h, hlt⟩]
    · rw [if_neg hlt, if_neg fun hc => hlt hc.2]
  · rw [if_neg h, if_neg fun hc => h hc.1]

theorem report_eventSet_of {s : State} {e : Event} (c : HealthClass) (h : s.eventSet e = true) :
    (s.report c).eventSet e = true := by
  by_cases hc : s.health.cls.counts c = true
  · rw [report_of_counted hc]
    have hsame : State.eventSet { s with health := s.health.bump } e = true := h
    split_ifs
    · rw [eventSet_raise, hsame, Bool.true_or]
    · exact h
  · rw [report_of_uncounted hc]
    exact h

theorem reportFault_eventSet_of {s : State} {e : Event} (f : FaultReport) (h : s.eventSet e = true) :
    (s.reportFault f).eventSet e = true := by
  unfold State.reportFault
  cases s.mgmt.fault with
  | none =>
    have hset := getLsbD_setEvent s.mgmt.events .fault e
    exact hset.trans (by rw [show s.mgmt.events.getLsbD e.bit = true from h, Bool.true_or])
  | some _ => exact h

end Sys2Proof.Machine
end
section
/-! The completions of the port's flash reads (R41, R42, R50, R171), and of those of a retire mark area and of block 0's
first part (R89, R186). -/

namespace Sys2Proof.Machine

/-! ### The test of a record (R41) -/

theorem passesLine_iff (bs : List Byte) (line : Nat) :
    passesLine bs line = true ↔ ∃ r, parseRecord bs = some r ∧ r.kind ≠ .commit ∧ r.line = line := by
  unfold passesLine
  cases parseRecord bs with
  | none => simp
  | some r => simp only [Bool.and_eq_true, decide_eq_true_eq, Option.some.injEq, exists_eq_left']

theorem passesCommit_iff (bs : List Byte) (t : Tag) :
    passesCommit bs t = true
      ↔ ∃ r, parseRecord bs = some r ∧ r.kind = .commit ∧ r.window = t.window ∧ r.group = t.group := by
  unfold passesCommit
  cases parseRecord bs with
  | none => simp
  | some r =>
    simp only [Bool.and_eq_true, decide_eq_true_eq, Option.some.injEq, exists_eq_left', and_assoc]

theorem passesLine_false {bs : List Byte} {line : Nat}
    (h : ∀ r, parseRecord bs = some r → r.kind = .commit ∨ r.line ≠ line) : passesLine bs line = false := by
  rw [Bool.eq_false_iff, Ne, passesLine_iff]
  rintro ⟨r, hr, hkind, hline⟩
  exact (h r hr).elim hkind fun hne => hne hline

/-! ### Which completion is taken (R41, R50, R104) -/

section
variable {s : State} {o : Op} {i : Nat} (u : Upset)

theorem exec_readPieceCompletion (hon : s.power = .on) (hop : s.array.op = some o) (hp : o.purpose = .readPiece i)
    (hstatus : o.statusWait = false) :
    exec (.readPieceCompletion u) s = .next (State.takePiece u s.opEnded o).settle :=
  taken_readEnd s Purpose.isPiece (State.takePiece u) o hon hop (by rw [hp]; rfl) hstatus

theorem exec_mergeReadCompletion (hon : s.power = .on) (hop : s.array.op = some o) (hp : o.purpose = .mergeRead i)
    (hstatus : o.statusWait = false) :
    exec (.mergeReadCompletion u) s = .next (State.takeMerge u s.opEnded o).settle :=
  taken_readEnd s Purpose.isMerge (State.takeMerge u) o hon hop (by rw [hp]; rfl) hstatus

theorem takePiece_of_abandoned (h : o.abandoned = true) : State.takePiece u s o = s := if_pos h

theorem takeMerge_of_abandoned (h : o.abandoned = true) : State.takeMerge u s o = s := if_pos h

theorem takePiece_of_wanted {r : Request} (h : o.abandoned = false) (hp : o.purpose = .readPiece i)
    (hr : s.port.request = some r) : State.takePiece u s o = s.pieceRead r i o.at (s.received o u) := by
  simp [State.takePiece, h, hp, hr]

theorem takeMerge_of_wanted {r : Request} (h : o.abandoned = false) (hp : o.purpose = .mergeRead i)
    (hr : s.port.request = some r) : State.takeMerge u s o = s.mergeDone r i o.at (s.received o u) := by
  simp [State.takeMerge, h, hp, hr]

end

/-! ### What a piece makes of the bytes read (R41, R42, R50, R171) -/

section
variable {s : State} {r : Request} {i : Nat} {p : Piece} {x : Slot} {bs : List Byte}

theorem pieceRead_passed (hp : r.pieces[i]? = some p) (hpass : passesLine bs (s.lineOf p) = true)
    (harm : s.health.arm ≠ .read) : s.pieceRead r i x bs = s.setPiece r i (p.ended (p.bytesOf (dataField bs)) none) := by
  simp [State.pieceRead, hp, hpass, harm]

/-- The state before the effects of a failed test: a READ arm is consumed (R171). -/
def State.consumeRead (s : State) : State := if s.health.arm = .read then s.disarm else s

theorem consumeRead_eq (s : State) :
    s.consumeRead = { s with health := { s.health with arm := if s.health.arm = .read then .none else s.health.arm } } := by
  unfold State.consumeRead
  split_ifs <;> rfl

theorem pieceRead_failed (hp : r.pieces[i]? = some p)
    (h : s.health.arm = .read ∨ passesLine bs (s.lineOf p) = false) :
    s.pieceRead r i x bs
      = (s.consumeRead.checkFailure (s.lineOf p) x).setPiece r i (p.ended (p.bytesOf (dataField bs)) (some .readCheck)) := by
  have harm : (if decide (s.health.arm = .read) = true then s.disarm else s) = s.consumeRead := by
    simp [State.consumeRead]
  have hnot : ¬(passesLine bs (s.lineOf p) && !decide (s.health.arm = .read)) = true := by
    rcases h with h | h <;> simp [h]
  simp only [State.pieceRead, hp, harm, hnot, if_false, Bool.false_eq_true]

theorem mergeDone_passed (hp : r.pieces[i]? = some p) (hpass : passesLine bs (s.lineOf p) = true) :
    s.mergeDone r i x bs = s.setPiece r i { p with merge := some { slot := x, image := dataField bs } } := by
  simp [State.mergeDone, hp, hpass]

theorem mergeDone_failed (hp : r.pieces[i]? = some p) (hfail : passesLine bs (s.lineOf p) = false) :
    s.mergeDone r i x bs = (s.checkFailure (s.lineOf p) x).refuse
      { faultOf .readCheck with addr := some r.addr, line := some (s.lineOf p) } [] := by
  simp [State.mergeDone, hp, hfail]

end

/-! ### A failed record check (R42) -/

/-- The table with the check-failed flag of a line set, if its entry still names the slot read. -/
def State.flagged (s : State) (line : Nat) (x : Slot) : Sparse TableEntry :=
  if (s.entry line).current = some x then
    Sparse.set TableEntry.clear s.table line { s.entry line with checkFailed := true }
  else s.table

theorem checkFailure_eq (s : State) (line : Nat) (x : Slot) :
    s.checkFailure line x = (State.raise { s with table := s.flagged line x } .readCheck).report .read := by
  unfold State.checkFailure State.flagged
  split_ifs <;> rfl

theorem checkFailure_frame (s : State) (line : Nat) (x : Slot) :
    (s.checkFailure line x).table = s.flagged line x ∧ (s.checkFailure line x).array = s.array
      ∧ (s.checkFailure line x).port = s.port ∧ (s.checkFailure line x).queue = s.queue
      ∧ (s.checkFailure line x).blocks = s.blocks ∧ (s.checkFailure line x).windows = s.windows
      ∧ (s.checkFailure line x).flash = s.flash ∧ (s.checkFailure line x).mgmt.fault = s.mgmt.fault := by
  rw [checkFailure_eq]
  obtain ⟨hblocks, _, hqueue, hwindows, hport, htable, hfault, _, hflash, harray, _, _⟩ :=
    report_frame (State.raise { s with table := s.flagged line x } .readCheck) .read
  exact ⟨htable, harray, hport, hqueue, hblocks, hwindows, hflash, hfault⟩

theorem checkFailure_eventSet (s : State) (line : Nat) (x : Slot) :
    (s.checkFailure line x).eventSet .readCheck = true := by
  rw [checkFailure_eq]
  exact report_eventSet_of _ (eventSet_raise_same _ _)

theorem checkFailure_health (s : State) (line : Nat) (x : Slot) :
    (s.checkFailure line x).health = if s.health.cls.counts .read = true then s.health.bump else s.health := by
  rw [checkFailure_eq, report_health]
  rfl

theorem counts_read_iff (h : Health) : h.cls.counts .read = true ↔ h.cls = .read ∨ h.cls = .media := by
  simp [counts_iff]

theorem checkFailure_count (s : State) (line : Nat) (x : Slot) :
    (s.checkFailure line x).health.count = if (s.health.cls = .read ∨ s.health.cls = .media) ∧ s.health.count < 65535 then
      s.health.count + 1 else s.health.count := by
  rw [checkFailure_eq, report_count]
  simp only [← counts_read_iff]
  rfl

theorem checkFailure_arm (s : State) (line : Nat) (x : Slot) : (s.checkFailure line x).health.arm = s.health.arm := by
  rw [checkFailure_eq, report_arm]
  rfl

theorem respond_of_idle {s : State} (cause : Option Cause) (data : List Byte) (h : s.array.op = none) :
    s.respond cause data
      = { s with port := { s.port with request := none, response := some { cause := cause, data := data } } } := by
  have habandon : s.abandonRead = s := by simp [State.abandonRead, h]
  unfold State.respond
  rw [habandon]

/-- Settles O20. -/
theorem readPieceIsTested : Obligations.ReadPieceIsTested := by
  unfold Obligations.ReadPieceIsTested
  refine ⟨?passed, ?failed, ?abandoned⟩
  case passed =>
    intro s o i u r p rec hon hop hpurpose hstatus hwanted hr hp harm hparse hkind hline
    have hpass : passesLine (s.received o u) (s.opEnded.lineOf p) = true :=
      (passesLine_iff _ _).mpr ⟨rec, hparse, hkind, hline⟩
    rw [exec_readPieceCompletion u hon hop hpurpose hstatus,
      takePiece_of_wanted (s := s.opEnded) u hwanted hpurpose hr]
    exact congrArg (fun t => Host.Outcome.next (State.settle t)) (pieceRead_passed (s := s.opEnded) hp hpass harm)
  case failed =>
    intro s o i u r p hon hop hpurpose hstatus hwanted hr hp hfail
    have hfail' : s.opEnded.health.arm = .read ∨ passesLine (s.received o u) (s.opEnded.lineOf p) = false :=
      hfail.imp_right passesLine_false
    have htaken : exec (.readPieceCompletion u) s = .next (State.settle
        ((s.opEnded.consumeRead.checkFailure (s.lineOf p) o.at).setPiece r i
          (p.ended (p.bytesOf (dataField (s.received o u))) (some .readCheck)))) := by
      rw [exec_readPieceCompletion u hon hop hpurpose hstatus,
        takePiece_of_wanted (s := s.opEnded) u hwanted hpurpose hr]
      exact congrArg (fun t => Host.Outcome.next (State.settle t)) (pieceRead_failed (s := s.opEnded) hp hfail')
    obtain ⟨htable, harray, hport, hqueue, hblocks, hwindows, hflash, _⟩ :=
      checkFailure_frame s.opEnded.consumeRead (s.lineOf p) o.at
    have harm := checkFailure_arm s.opEnded.consumeRead (s.lineOf p) o.at
    have hcount := checkFailure_count s.opEnded.consumeRead (s.lineOf p) o.at
    have hevent := checkFailure_eventSet s.opEnded.consumeRead (s.lineOf p) o.at
    rw [consumeRead_eq] at htable harray hport hqueue hblocks hwindows hflash harm hcount hevent htaken
    refine ⟨_, htaken, harray, ?_, htable, hevent, harm, hcount, hqueue, hblocks, hwindows, hflash⟩
    simp only [State.setPiece, State.setRequest, hport]
    rfl
  case abandoned =>
    intro s o i u hon hop hpurpose hstatus hgone
    rw [exec_readPieceCompletion u hon hop hpurpose hstatus, takePiece_of_abandoned u hgone]
    rfl

/-- Settles O21. -/
theorem mergeReadIsTested : Obligations.MergeReadIsTested := by
  unfold Obligations.MergeReadIsTested
  refine ⟨?passed, ?failed, ?abandoned⟩
  case passed =>
    intro s o i u r p rec hon hop hpurpose hstatus hwanted hr hp hparse hkind hline
    have hpass : passesLine (s.received o u) (s.opEnded.lineOf p) = true :=
      (passesLine_iff _ _).mpr ⟨rec, hparse, hkind, hline⟩
    rw [exec_mergeReadCompletion u hon hop hpurpose hstatus,
      takeMerge_of_wanted (s := s.opEnded) u hwanted hpurpose hr]
    exact congrArg (fun t => Host.Outcome.next (State.settle t)) (mergeDone_passed (s := s.opEnded) hp hpass)
  case failed =>
    intro s o i u r p hon hop hpurpose hstatus hwanted hr hp hfail
    have hfail' : passesLine (s.received o u) (s.opEnded.lineOf p) = false := passesLine_false hfail
    have htaken : exec (.mergeReadCompletion u) s = .next (State.settle
        ((s.opEnded.checkFailure (s.lineOf p) o.at).refuse
          { faultOf .readCheck with addr := some r.addr, line := some (s.lineOf p) } [])) := by
      rw [exec_mergeReadCompletion u hon hop hpurpose hstatus,
        takeMerge_of_wanted (s := s.opEnded) u hwanted hpurpose hr]
      exact congrArg (fun t => Host.Outcome.next (State.settle t)) (mergeDone_failed (s := s.opEnded) hp hfail')
    obtain ⟨htable, harray, hport, hqueue, hblocks, hwindows, hflash, hfault⟩ :=
      checkFailure_frame s.opEnded (s.lineOf p) o.at
    have hhealth := checkFailure_health s.opEnded (s.lineOf p) o.at
    have hevent := checkFailure_eventSet s.opEnded (s.lineOf p) o.at
    have hidle : (s.opEnded.checkFailure (s.lineOf p) o.at).array.op = none := by rw [harray]; rfl
    unfold State.refuse at htaken
    rw [respond_of_idle _ _ hidle] at htaken
    generalize s.opEnded.checkFailure (s.lineOf p) o.at = z at *
    refine ⟨_, htaken, ?_⟩
    obtain ⟨fblocks, _, fqueue, fwindows, fport, ftable, _, fflash, farray, _, _, fhealth⟩ :=
      reportFault_frame
        { z with port := { z.port with request := none, response := some { cause := some .readCheck, data := [] } } }
        { faultOf .readCheck with addr := some r.addr, line := some (s.lineOf p) }
    refine ⟨fport.trans ?_, ftable.trans htable, reportFault_eventSet_of _ hevent, fhealth.trans ?_, farray.trans harray,
      fun hfree => ?_, fqueue.trans hqueue, fblocks.trans hblocks, fwindows.trans hwindows, fflash.trans hflash⟩
    · simp only [hport]
      rfl
    · refine hhealth.trans ?_
      have hbump : s.health.bump = if s.health.count < 65535 then
          { s.health with
            count := s.health.count + 1, saturated := s.health.saturated || decide (s.health.count = 65534) }
          else s.health := bump_eq s.health
      show (if s.health.cls.counts .read = true then s.health.bump else s.health) = _
      rw [hbump]
      simp only [counts_read_iff, ite_and]
    · have hnone : z.mgmt.fault = none := hfault.trans hfree
      simp only [State.reportFault, hnone, faultOf]
  case abandoned =>
    intro s o i u hon hop hpurpose hstatus hgone
    rw [exec_mergeReadCompletion u hon hop hpurpose hstatus, takeMerge_of_abandoned u hgone]
    rfl

theorem parseFirstPart_le {bs : List Byte} {k : Byte} {n : Nat} (h : parseFirstPart bs = some (k, n)) :
    n ≤ 4294967294 := by
  unfold parseFirstPart at h
  dsimp only at h
  split at h
  next hvalid =>
    obtain ⟨_, hcount⟩ := Bool.and_eq_true_iff.mp hvalid
    obtain rfl : field bs 8 4 = n := congrArg Prod.snd (Option.some.inj h)
    exact of_decide_eq_true hcount
  next => exact absurd h (by simp)

theorem raiseEraseCount_eq {n : Nat} (h : n ≤ 4294967294) : raiseEraseCount n = min (n + 1) 4294967294 := by
  unfold raiseEraseCount
  split
  next hlt =>
    have hlt' : n < 4294967294 := hlt
    omega
  next hge =>
    have hge' : ¬n < 4294967294 := hge
    omega

/-- Settles O24. -/
theorem markAreaAndBlock0Reads : Obligations.MarkAreaAndBlock0Reads := by
  unfold Obligations.MarkAreaAndBlock0Reads
  refine ⟨?blank, ?marked, ?wipe⟩
  case blank =>
    intro s o j u hon hop hpurpose hstatus hj hblank
    refine (taken_readEnd s Purpose.isMarkRead (State.takeMarkRead u) o hon hop (by rw [hpurpose]; rfl) hstatus).trans ?_
    have hj' : s.opEnded.array.erase = some j := hj
    have hblank' : isBlank (s.opEnded.received o u) = true := hblank
    simp only [State.takeMarkRead, hj', State.markAreaRead, hblank', if_true]
    rfl
  case marked =>
    intro s o j u hon hop hpurpose hstatus hj howner hvictim hblank
    refine (taken_readEnd s Purpose.isMarkRead (State.takeMarkRead u) o hon hop (by rw [hpurpose]; rfl) hstatus).trans ?_
    have hj' : s.opEnded.array.erase = some j := hj
    have hblank' : isBlank (s.opEnded.received o u) = false := hblank
    have hends : ∀ e, ((s.opEnded.setErase none).setBlock j.block e).endReclaim j.block
        = { s with
            array := { s.array with op := none, timeouts := 0, erase := none },
            blocks := { s.blocks with
              table := Sparse.set BlockEntry.unknown s.blocks.table j.block e,
              victim := none, reclaimCopy := none, releaseTurn := true } } := fun e => if_pos hvictim
    simp only [State.takeMarkRead, hj', State.markAreaRead, hblank', Bool.false_eq_true, if_false, State.retireErased,
      howner, hends]
    rfl
  case wipe =>
    intro s o step cut u hon hop hpurpose hstatus hcommand
    refine (taken_readEnd s Purpose.isWipeRead (State.takeWipeRead u) o hon hop (by rw [hpurpose]; rfl) hstatus).trans ?_
    have hcommand' : s.opEnded.mgmt.command = .active (.wipe step cut) := hcommand
    have hcount : wipeCount (s.received o u) = (match parseFirstPart (s.received o u) with
        | some (_, n) => min (n + 1) 4294967294
        | none => 1) := by
      unfold wipeCount
      cases hfirst : parseFirstPart (s.received o u) with
      | none => rfl
      | some q =>
        obtain ⟨k, n⟩ := q
        exact raiseEraseCount_eq (parseFirstPart_le hfirst)
    simp only [State.takeWipeRead, hcommand']
    show Host.Outcome.next (State.settle ((s.opEnded.hold (.wipe .format cut)).setErase
      (some (newErase .wipe 0 (wipeCount (s.received o u)))))) = _
    rw [hcount]
    rfl

end Sys2Proof.Machine
end

section
/-! The completions of relocation reads (R82, R84, R85). -/

namespace Sys2Proof.Machine

/-! ### First elements -/

/-- The first element that passes stands behind elements that do not. -/
theorem find?_of_split {α : Type} {q : α → Bool} {xs before after : List α} {x : α} (h : xs = before ++ x :: after)
    (hx : q x = true) (hbefore : ∀ y ∈ before, q y = false) : xs.find? q = some x := by
  rw [h, List.find?_append, List.find?_eq_none.mpr fun y hy => by simp [hbefore y hy], List.find?_cons_of_pos hx]
  rfl

theorem findSome?_of_split {α β : Type} {f : α → Option β} {xs before after : List α} {x : α} {y : β}
    (h : xs = before ++ x :: after) (hx : f x = some y) (hbefore : ∀ z ∈ before, f z = none) :
    xs.findSome? f = some y := by
  rw [h, List.findSome?_append, List.findSome?_eq_none_iff.mpr hbefore, List.findSome?_cons, hx]
  rfl

/-! ### Which holder names a slot (R82) -/

section
variable {s : State} {x : Slot}

theorem lineNaming_of_table {before after : List (Nat × TableEntry)} {l : Nat} {e : TableEntry}
    (h : s.table = before ++ (l, e) :: after) (he : e.current = some x) (hbefore : ∀ y ∈ before, y.2.current ≠ some x) :
    s.lineNaming x = some l := by
  have hfind : (s.table.find? fun c => decide (c.2.current = some x)) = some (l, e) :=
    find?_of_split h (by simp [he]) fun y hy => by simp [hbefore y hy]
  simp [State.lineNaming, hfind]

theorem find?_table_none (h : ∀ y ∈ s.table, y.2.current ≠ some x) :
    (s.table.find? fun c => decide (c.2.current = some x)) = none :=
  List.find?_eq_none.mpr fun y hy => by simp [h y hy]

theorem find?_shadow_none (h : ∀ y ∈ s.windows.shadow, y.committed ≠ some x) :
    (s.windows.shadow.find? fun e => decide (e.committed = some x)) = none :=
  List.find?_eq_none.mpr fun y hy => by simp [h y hy]

theorem lineNaming_of_shadow {before after : List ShadowEntry} {e : ShadowEntry}
    (htable : ∀ y ∈ s.table, y.2.current ≠ some x) (h : s.windows.shadow = before ++ e :: after)
    (he : e.committed = some x) (hbefore : ∀ y ∈ before, y.committed ≠ some x) : s.lineNaming x = some e.line := by
  have hfind : (s.windows.shadow.find? fun e => decide (e.committed = some x)) = some e :=
    find?_of_split h (by simp [he]) fun y hy => by simp [hbefore y hy]
  simp [State.lineNaming, find?_table_none htable, hfind]

theorem lineNaming_of_none (htable : ∀ y ∈ s.table, y.2.current ≠ some x)
    (hshadow : ∀ y ∈ s.windows.shadow, y.committed ≠ some x) : s.lineNaming x = none := by
  simp [State.lineNaming, find?_table_none htable, find?_shadow_none hshadow]

theorem groupNaming_of_register {before after : List RegEntry} {w g : Nat}
    (h : s.windows.register = before ++ .committed w g x :: after) (hbefore : ∀ y ∈ before, y.commitSlot ≠ some x) :
    s.groupNaming x = some { window := w, group := g } := by
  refine findSome?_of_split h (by simp) fun y hy => ?_
  cases y with
  | committed v k z =>
    have hz : ¬z = x := fun hz => hbefore _ hy (congrArg some hz)
    simp [hz]
  | reserved v k => rfl
  | free => rfl

theorem sourcePasses_of_line {bs : List Byte} {l : Nat} (h : s.lineNaming x = some l) :
    s.sourcePasses x bs = passesLine bs l := by
  simp [State.sourcePasses, h]

theorem sourcePasses_of_group {bs : List Byte} {t : Tag} (hline : s.lineNaming x = none) (h : s.groupNaming x = some t) :
    s.sourcePasses x bs = passesCommit bs t := by
  simp [State.sourcePasses, hline, h]

end

/-! ### A relocation read ends (R82, R84, R85) -/

theorem copyOf_eq (s : State) (k : JobKind) : s.copyOf k = match k with
    | .reclaim => s.blocks.reclaimCopy
    | .retirement => s.blocks.retireCopy
    | .release => s.blocks.release.bind (·.copy) := by
  cases k <;> rfl

theorem exec_relocationReadCompletion {s : State} {o : Op} {k : JobKind} {c : CopyWork} (u : Upset) (hon : s.power = .on)
    (hop : s.array.op = some o) (hp : o.purpose = .relocRead k) (hstatus : o.statusWait = false)
    (hc : s.copyOf k = some c) :
    exec (.relocationReadCompletion u) s = .next (s.opEnded.relocReadDone k c (s.received o u)).settle := by
  refine (taken_readEnd s Purpose.isReloc (State.takeReloc u) o hon hop (by rw [hp]; rfl) hstatus).trans ?_
  have hc' : s.opEnded.copyOf k = some c := by
    cases k <;> exact hc
  simp only [State.takeReloc, hp, hc']
  rfl

theorem relocReadDone_of_dead {s : State} {k : JobKind} {c : CopyWork} {bs : List Byte} (h : s.live c.source = false) :
    s.relocReadDone k c bs = (s.setCopy k none).passTurn k := by
  simp [State.relocReadDone, h]

theorem relocReadDone_of_live {s : State} {k : JobKind} {c : CopyWork} {bs : List Byte} (h : s.live c.source = true)
    (t : State) (ht : t = s.setCopy k (some { c with stage := .held, bytes := bs, failed := !s.sourcePasses c.source bs })) :
    s.relocReadDone k c bs = if s.sourcePasses c.source bs = true then t
      else (t.reportFault { faultOf .relocateCheck with
        line := s.lineNaming c.source, block := some c.source.block, slot := some c.source.slot }).report .read := by
  subst ht
  unfold State.relocReadDone
  rw [if_pos h]

/-- Settles O22: the test of a source by the holder that names it, and the two ends of a relocation read. -/
theorem relocationReadIsHeld : Obligations.RelocationReadIsHeld := by
  unfold Obligations.RelocationReadIsHeld
  refine ⟨?ends, ?test⟩
  case ends =>
    intro s o k c u hon hop hp hstatus hc
    have hc' : s.copyOf k = some c := (copyOf_eq s k).trans (hc ▸ by cases k <;> rfl)
    have htaken := exec_relocationReadCompletion u hon hop hp hstatus hc'
    refine ⟨fun hdead => ?_, fun hlive failed t hfailed ht => ?_⟩
    · rw [htaken, relocReadDone_of_dead (s := s.opEnded) hdead]
      cases k <;> rfl
    · have ht' : t = s.opEnded.setCopy k (some { c with
          stage := .held, bytes := s.received o u, failed := !s.opEnded.sourcePasses c.source (s.received o u) }) := by
        have hfailed' : failed = !s.opEnded.sourcePasses c.source (s.received o u) := hfailed
        rw [ht, ← hfailed']
        cases k <;> rfl
      rw [htaken, relocReadDone_of_live (s := s.opEnded) hlive t ht']
      have hpasses : s.opEnded.sourcePasses c.source (s.received o u) = s.sourcePasses c.source (s.received o u) := rfl
      rw [hpasses]
      cases hpass : s.sourcePasses c.source (s.received o u) with
      | true => simp [hfailed, hpass]
      | false =>
        simp only [hfailed, hpass, Bool.not_false, if_true, Bool.false_eq_true, if_false]
        rfl
  case test =>
    intro s x bs
    refine ⟨fun before l e after htable he hbefore => ?_, fun before e after htable hshadow he hbefore => ?_,
      fun before w g after htable hshadow hregister hbefore => ?_⟩
    · have hline := lineNaming_of_table htable he hbefore
      exact ⟨hline, by rw [sourcePasses_of_line hline, passesLine_iff]⟩
    · have hline := lineNaming_of_shadow htable hshadow he hbefore
      exact ⟨hline, by rw [sourcePasses_of_line hline, passesLine_iff]⟩
    · have hline := lineNaming_of_none htable hshadow
      have hgroup := groupNaming_of_register hregister hbefore
      exact ⟨hline, by rw [sourcePasses_of_group hline hgroup, passesCommit_iff]⟩

end Sys2Proof.Machine
end

section
/-! The scan of mount's steps 1 to 3, read by read (R137, R138, R140, R142). -/

namespace Sys2Proof.Machine

/-! ### A scan read is taken -/

theorem exec_mountScanReadCompletion {s : State} {m : Mount} {o : Op} (u : Upset) (hon : s.power = .on)
    (hm : s.mount = some m) (hop : s.array.op = some o) (hp : o.purpose = .mountRead) (hstatus : o.statusWait = false) :
    exec (.mountScanReadCompletion u) s = .next (s.opEnded.takeScan m (s.received o u)).settle := by
  refine (taken_readEnd s Purpose.isScan (State.takeMountRead u) o hon hop (by rw [hp]; rfl) hstatus).trans ?_
  have hm' : s.opEnded.mount = some m := hm
  simp only [State.takeMountRead, hm']
  rfl

/-- Outside step 1 a scan read changes the mount engine alone. -/
theorem exec_mountScanRead_of_step {s : State} {m t : Mount} {o : Op} (u : Upset) (hon : s.power = .on)
    (hm : s.mount = some m) (hop : s.array.op = some o) (hp : o.purpose = .mountRead) (hstatus : o.statusWait = false)
    (hstep : m.step ≠ .settings) (ht : m.takeRead (s.received o u) = t) :
    exec (.mountScanReadCompletion u) s = .next ({ s with
      array := { s.array with op := none, timeouts := 0 }, mount := some t } : State).settle := by
  have hscan : s.opEnded.takeScan m (s.received o u) = { s with
      array := { s.array with op := none, timeouts := 0 }, mount := some t } := by
    unfold State.takeScan
    rw [ht, if_neg fun hc => hstep hc.1]
    rfl
  rw [exec_mountScanReadCompletion u hon hm hop hp hstatus, hscan]

/-- Where a read leads to step 9, the repair list is made (R148). -/
def Mount.entered (m : Mount) : Mount := if m.step = .repairs then m.beginRepairs else m

theorem entered_of_step {m : Mount} (h : m.step ≠ .repairs) : m.entered = m := if_neg h

theorem takeRead_header {m : Mount} {b : Nat} {bs : List Byte} (h : m.step = .header b) :
    m.takeRead bs = (m.takeHeader b bs).entered := by
  simp [Mount.takeRead, Mount.entered, h]

theorem takeRead_tail {m : Mount} {b : Nat} {bs : List Byte} (h : m.step = .tail b) :
    m.takeRead bs = (m.takeTail bs).entered := by
  simp [Mount.takeRead, Mount.entered, h]

theorem takeRead_body {m : Mount} {b : Nat} {bs : List Byte} (h : m.step = .body b) :
    m.takeRead bs = (m.takeBody bs).entered := by
  simp [Mount.takeRead, Mount.entered, h]

theorem takeRead_slot {m : Mount} {b n : Nat} {bs : List Byte} (h : m.step = .slot b n) :
    m.takeRead bs = (m.takeSlot b n bs).entered := by
  simp [Mount.takeRead, Mount.entered, h]

theorem entered_classified {m t : Mount} {x : BlockScan} {cls : BlockClass}
    (h : ({ m with candidate := none, scans := m.scans ++ [{ x with cls := cls }] } : Mount).AfterHeader t x.block) :
    (m.classified x cls).entered = t := by
  unfold Mount.classified
  rcases h with ⟨hlt, rfl⟩ | ⟨hlast, hafter⟩
  · rw [if_pos hlt]
    rfl
  · rw [if_neg (by omega)]
    exact afterBlock_eq _ _ _ hafter

/-! ### Headers (R140) -/

/-- What the header of block `b` says of it, before it is classified. -/
def headerScan (b : Nat) (bs : List Byte) : BlockScan :=
  { block := b, cls := .invalid, eraseCount := (parseFirstPart (bs.take 16)).map (·.2),
    opening := parseOpening ((bs.drop 16).take 16), highest := 0 }

section
variable {m : Mount} {b n : Nat} {bs : List Byte}

theorem takeHeader_of_marked (h : isBlank ((bs.drop 32).take 8) = false) :
    m.takeHeader b bs = m.classified (headerScan b bs) .retired := by
  simp [Mount.takeHeader, h, headerScan]

theorem takeHeader_of_blank_or_broken (h : isBlank ((bs.drop 32).take 8) = true)
    (hfirst : parseFirstPart (bs.take 16) = none) : m.takeHeader b bs
      = if isBlank (bs.take 16) && m.virgin then { m with candidate := some (headerScan b bs), step := .body b }
        else m.classified (headerScan b bs) .invalid := by
  simp [Mount.takeHeader, h, headerScan, hfirst]

theorem takeHeader_of_settings (h : isBlank ((bs.drop 32).take 8) = true)
    (hfirst : parseFirstPart (bs.take 16) = some (kindSettings, n)) :
    m.takeHeader b bs = m.classified (headerScan b bs) .invalid := by
  simp [Mount.takeHeader, h, headerScan, hfirst]

theorem takeHeader_of_opened (h : isBlank ((bs.drop 32).take 8) = true)
    (hfirst : parseFirstPart (bs.take 16) = some (kindData, n))
    (hopening : (parseOpening ((bs.drop 16).take 16)).isSome = true) :
    m.takeHeader b bs = { m with candidate := some (headerScan b bs), step := .tail b } := by
  obtain ⟨x, hx⟩ := Option.isSome_iff_exists.mp hopening
  have hkind : ¬kindData = kindSettings := by decide
  simp [Mount.takeHeader, h, headerScan, hfirst, hx, hkind]

theorem takeHeader_of_unopened (h : isBlank ((bs.drop 32).take 8) = true)
    (hfirst : parseFirstPart (bs.take 16) = some (kindData, n)) (hopening : parseOpening ((bs.drop 16).take 16) = none) :
    m.takeHeader b bs = if isBlank ((bs.drop 16).take 16) then
        { m with candidate := some (headerScan b bs), step := .body b }
      else m.classified (headerScan b bs) .invalid := by
  have hkind : ¬kindData = kindSettings := by decide
  simp [Mount.takeHeader, h, headerScan, hfirst, hopening, hkind]

end

/-! ### Slots (R142) -/

/-- The highest non-blank slot of block `b` becomes `n`. -/
def raiseHighest (b n : Nat) (scans : List BlockScan) : List BlockScan :=
  scans.map fun y => if y.block = b then { y with highest := n } else y

/-- What slot `n` of block `b` adds to the collection. -/
def collected (b n : Nat) (x : BlockScan) (bs : List Byte) : List RecInfo :=
  match parseRecord bs with
  | some r => [recInfo b ((x.opening.map (·.1)).getD 0) n r]
  | none => []

theorem takeSlot_eq {m : Mount} {b n : Nat} {bs : List Byte} {x : BlockScan}
    (hx : (m.scans.find? fun y => decide (y.block = b)) = some x) {t : Mount}
    (ht : t = { m with scans := if isBlank bs then m.scans else raiseHighest b n m.scans,
                       records := m.records ++ collected b n x bs }) :
    m.takeSlot b n bs = if n < 84 then { t with step := .slot b (n + 1) } else t.afterBlock b := by
  subst ht
  unfold Mount.takeSlot collected
  simp only [hx]
  cases hr : parseRecord bs <;> cases hb : isBlank bs <;> simp [raiseHighest, Config.lastSlot]

/-! ### Step 1 (R137) -/

theorem takeRead_settings {m : Mount} {bs : List Byte} (h : m.step = .settings) : m.takeRead bs = m.takeSettings bs := by
  have hstep : (m.takeSettings bs).step = .header 1 := by
    unfold Mount.takeSettings
    split <;> rfl
  simp [Mount.takeRead, h, hstep]

/-- What step 1 leaves: settings `x`, whether they were found, and the highest non-blank slot `used`. -/
def Mount.afterSettings (m : Mount) (bs : List Byte) (x : Settings) (found : Bool) (used : Nat) : Mount :=
  { m with
    step := .header 1, settings := x, settingsFound := found, virgin := isBlank bs,
    block0Count := (parseFirstPart (bs.take 16)).map (·.2), nextSeq := x.seq + 1, nextSlot := used + 1 }

theorem takeSettings_of_some {m : Mount} {bs : List Byte} {x : Settings} (h : bestSettings bs = some x) :
    m.takeSettings bs = m.afterSettings bs x true (highestSlot bs) := by
  unfold Mount.takeSettings Mount.afterSettings
  simp only [h]

theorem takeSettings_of_none {m : Mount} {bs : List Byte} (h : bestSettings bs = none) :
    m.takeSettings bs = m.afterSettings bs Settings.default false (highestSlot bs) := by
  unfold Mount.takeSettings Mount.afterSettings
  simp only [h]
  rfl

theorem mem_recordSlots (n : Nat) : n ∈ recordSlots ↔ 1 ≤ n ∧ n ≤ 84 := by
  simp only [recordSlots, List.mem_range'_1]
  omega

end Sys2Proof.Machine
end

section
/-! The views of mount's steps 4 to 8 (R143 to R147), and the scan as a whole. -/

namespace Sys2Proof.Machine

/-! ### Winners and allowed groups (R143, R144) -/

theorem not_later_iff (q c : RecInfo) :
    q.later c = false ↔ q.blockSeq < c.blockSeq ∨ q.blockSeq = c.blockSeq ∧ q.slot ≤ c.slot := by
  simp only [RecInfo.later, Bool.or_eq_false_iff, Bool.and_eq_false_iff, decide_eq_false_iff_not]
  omega

theorem mem_commitKeys (rs : List RecInfo) (t : Tag) :
    t ∈ commitKeys rs ↔ ∃ c ∈ rs, c.kind = .commit ∧ c.tag = t := by
  simp [commitKeys, and_assoc]

/-- Groups that qualify, each once, are no more than there are qualifying groups. -/
theorem length_le_of_qualify {m : Mount} {keys us : List Tag} (hn : us.Nodup) (hq : ∀ u ∈ us, m.Qualifies keys u) :
    us.length ≤ (qualifying (resolve m.records keys)).length :=
  (List.subperm_of_subset hn fun u hu => (qualifies_iff m keys u).mp (hq u hu)).length_le

theorem reduceGroups_of_bound (rs : List RecInfo) (n : Nat) (allowed : List Tag)
    (h : (qualifying (resolve rs allowed)).length ≤ 16) : reduceGroups rs n allowed 0 = (allowed, 0) := by
  cases n with
  | zero => rfl
  | succ n =>
    unfold reduceGroups
    cases hq : qualifying (resolve rs allowed) with
    | nil => rfl
    | cons t ts =>
      rw [hq, List.length_cons] at h
      have hlt : ts.length < Config.registerPlaces := by
        simp only [Config.registerPlaces]
        omega
      simp [hlt]

/-- One removal of R144: the group of lowest sequence goes, while more than sixteen qualify. -/
theorem removal_spec {m : Mount} {left ts : List Tag} {t : Tag} (hq : qualifying (resolve m.records left) = t :: ts)
    (hts : 16 ≤ ts.length) : m.Qualifies left t ∧ (∀ u, m.Qualifies left u → t.group ≤ u.group)
      ∧ ∃ us : List Tag, us.Nodup ∧ us.length = 17 ∧ ∀ u ∈ us, m.Qualifies left u := by
  refine ⟨(qualifies_iff m left t).mpr (by simp [hq]), fun u hu => ?_, (t :: ts).take 17, ?_, ?_, fun u hu => ?_⟩
  · have hmem : u ∈ t :: ts := hq ▸ (qualifies_iff m left u).mp hu
    have hsorted : (t :: ts).Pairwise fun a b => a.group ≤ b.group := hq ▸ sorted_qualifying (resolve m.records left)
    rcases List.mem_cons.mp hmem with rfl | hlater
    · exact le_refl _
    · exact List.rel_of_pairwise_cons hsorted hlater
  · exact (hq ▸ nodup_qualifying (resolve m.records left)).sublist (List.take_sublist _ _)
  · simp only [List.length_take, List.length_cons]
    omega
  · exact (qualifies_iff m left u).mpr (hq ▸ List.mem_of_mem_take hu)

/-! ### The register and the table (R144, R49) -/

theorem register_committed {m : Mount} {i w g : Nat} {x : Slot} (h : m.register[i]? = some (.committed w g x)) :
    (qualifying m.winners)[i]? = some { window := w, group := g }
      ∧ ∃ c ∈ m.records, c.kind = .commit ∧ c.tag = { window := w, group := g }
        ∧ x = { block := c.block, slot := c.slot }
        ∧ ∀ q ∈ m.records, q.kind = .commit → q.tag = { window := w, group := g } → q.later c = false := by
  have hi : i < 16 := by
    have hlt := (List.getElem?_eq_some_iff.mp h).1
    rwa [length_register] at hlt
  cases ht : (qualifying m.winners)[i]? with
  | none => simp [register_free m i hi ht] at h
  | some t =>
    obtain ⟨c, hc, hmem, hkind, htag, hlatest⟩ := register_get m i t ht
    obtain ⟨rfl, rfl, rfl⟩ : t.window = w ∧ t.group = g ∧ { block := c.block, slot := c.slot } = x := by
      simpa using hc.symm.trans h
    exact ⟨rfl, c, hmem, hkind, htag, rfl, hlatest⟩

theorem table_of_tentative {m : Mount} {l : Nat} {r : RecInfo} (h : Sparse.get none m.winners l = some r)
    (hkind : r.kind = .tentative) : ∃ i x, m.register[i]? = some (RegEntry.committed r.window r.group x)
      ∧ Sparse.get TableEntry.clear m.table l
          = { current := some { block := r.block, slot := r.slot }, group := some (.register i), checkFailed := false } := by
  have hmem : r.tag ∈ qualifying m.winners := (mem_qualifying _ (wf_resolve _ _) _).mpr ⟨l, r, h, hkind, rfl⟩
  obtain ⟨i, hindex, hi⟩ := indexOf_spec r.tag (qualifying m.winners) 0 hmem
  obtain ⟨c, hc, _⟩ := register_get m i r.tag hi
  refine ⟨i, _, hc, ?_⟩
  rw [table_get, h]
  simp [loadEntry, hkind, hindex, RecInfo.at]

theorem table_of_plain {m : Mount} {l : Nat} {r : RecInfo} (h : Sparse.get none m.winners l = some r)
    (hkind : r.kind = .plain) : Sparse.get TableEntry.clear m.table l
      = { current := some { block := r.block, slot := r.slot }, group := none, checkFailed := false } := by
  rw [table_get, h]
  simp [loadEntry, hkind, RecInfo.at]

/-! ### The block table and the OPEN block (R145, R147) -/

theorem blockTable_get {m : Mount} {x : BlockScan} (hresults : m.results = []) (hn : (m.scans.map (·.block)).Nodup)
    (hx : x ∈ m.scans) : Sparse.get BlockEntry.unknown m.blockTable x.block = m.classEntry x := by
  unfold Mount.blockTable
  rw [hresults]
  exact (foldl_set_get m.scans m.classEntry [] rfl hn).1 x hx

theorem countOf_eq (m : Mount) (x : BlockScan) :
    m.countOf x = if x.cls = .virgin then 0
      else x.eraseCount.getD ((m.scans.map fun y => y.eraseCount.getD 0).foldr max 0) := by
  rw [Mount.countOf, Mount.highestCount, maxOf_eq]

theorem openBlock_some {m : Mount} {b : Nat} (h : m.openBlock = some b) :
    ∃ x ∈ m.scans, x.block = b ∧ x.cls = .unfinished ∧ x.highest < 84
      ∧ ∀ y ∈ m.scans, y.cls = .unfinished → (y.opening.map (·.1)).getD 0 ≤ (x.opening.map (·.1)).getD 0 := by
  unfold Mount.openBlock at h
  cases hn : newestUnfinished m.scans with
  | none => simp [hn] at h
  | some x =>
    obtain ⟨hx, hcls, hnewest⟩ := (newestUnfinished_spec m.scans).1 x hn
    by_cases hlt : x.highest < Config.lastSlot
    · simp only [hn, hlt, if_true] at h
      exact ⟨x, hx, Option.some.inj h, hcls, hlt, hnewest⟩
    · simp [hn, hlt] at h

theorem openBlock_none {m : Mount} (h : m.openBlock = none) {x : BlockScan} (hx : x ∈ m.scans)
    (hcls : x.cls = .unfinished) : ∃ y ∈ m.scans, y.cls = .unfinished ∧ 84 ≤ y.highest
      ∧ (x.opening.map (·.1)).getD 0 ≤ (y.opening.map (·.1)).getD 0 := by
  unfold Mount.openBlock at h
  cases hn : newestUnfinished m.scans with
  | none => exact absurd hcls ((newestUnfinished_spec m.scans).2 hn x hx)
  | some y =>
    obtain ⟨hy, hycls, hnewest⟩ := (newestUnfinished_spec m.scans).1 y hn
    refine ⟨y, hy, hycls, Nat.not_lt.mp fun hlt => ?_, hnewest x hx hcls⟩
    have hlt' : y.highest < Config.lastSlot := hlt
    simp [hn, hlt'] at h

/-! ### The scan as a whole -/

/-- Settles O23: each read by its step, each view by its law. -/
theorem mountScanCollects : Obligations.MountScanCollects := by
  unfold Obligations.MountScanCollects
  refine ⟨?marked, ?record, ?settings, ?header, ?candidate, ?slot, ?groups, ?table, ?blocks, ?counters⟩
  case marked =>
    intro s m t o b u bs hon hm hop hp hstatus hstep hbs hmark hafter
    refine exec_mountScanRead_of_step u hon hm hop hp hstatus (by simp [hstep]) ?_
    rw [hbs, takeRead_header hstep, takeHeader_of_marked hmark]
    exact entered_classified hafter
  case record =>
    intro s m o b n u rec x hon hm hop hp hstatus hstep hn hrec hx
    refine exec_mountScanRead_of_step u hon hm hop hp hstatus (by simp [hstep]) ?_
    have hblank : isBlank (s.received o u) = false := by
      rw [Bool.eq_false_iff]
      intro hb
      simp [parseRecord_of_blank _ hb] at hrec
    rw [takeRead_slot hstep, takeSlot_eq hx rfl, if_pos hn, entered_of_step (by simp)]
    simp only [collected, hrec, hblank]
    rfl
  case settings =>
    intro s m o u bs hon hm hop hp hstatus hstep hbs
    obtain ⟨hused, hlast, hblank⟩ := highestSlot_spec bs
    obtain ⟨hbest, hno⟩ := bestSettings_spec bs
    have htaken : ∀ x found, m.takeSettings bs = m.afterSettings bs x found (highestSlot bs) →
        exec (.mountScanReadCompletion u) s = .next (if found = false ∧ isBlank bs = false then
          State.reportFault { s with
            array := { s.array with op := none, timeouts := 0 },
            mount := some (m.afterSettings bs x found (highestSlot bs)) }
            { cause := .settingsLost, addr := none, line := none, block := some 0, slot := none, window := none }
          else { s with
            array := { s.array with op := none, timeouts := 0 },
            mount := some (m.afterSettings bs x found (highestSlot bs)) }).settle := by
      intro x found h
      rw [exec_mountScanReadCompletion u hon hm hop hp hstatus, hbs]
      unfold State.takeScan
      rw [takeRead_settings hstep, h]
      simp only [Mount.afterSettings, hstep, true_and]
      rfl
    cases hb : bestSettings bs with
    | some x =>
      obtain ⟨⟨n, hn, hparse⟩, hall⟩ := hbest x hb
      refine ⟨x, true, highestSlot bs, _, htaken x true (takeSettings_of_some hb), rfl, fun _ => ?_, by simp, ?_, hused,
        ?_, ?_⟩
      · obtain ⟨h1, h84⟩ := (mem_recordSlots n).mp hn
        exact ⟨n, h1, h84, slotBytesOf_eq bs n ▸ hparse⟩
      · exact fun k y h1 h84 hy => ⟨rfl, hall k ((mem_recordSlots k).mpr ⟨h1, h84⟩) y (slotBytesOf_eq bs k ▸ hy)⟩
      · exact fun h1 => slotBytesOf_eq bs _ ▸ hlast h1
      · exact fun k hlt h84 => slotBytesOf_eq bs k ▸ hblank k hlt h84
    | none =>
      refine ⟨Settings.default, false, highestSlot bs, _, htaken _ false (takeSettings_of_none hb), rfl, by simp,
        fun _ => rfl, ?_, hused, ?_, ?_⟩
      · intro k y h1 h84 hy
        have hnone := hno hb k ((mem_recordSlots k).mpr ⟨h1, h84⟩)
        rw [slotBytesOf_eq, hy] at hnone
        exact absurd hnone (by simp)
      · exact fun h1 => slotBytesOf_eq bs _ ▸ hlast h1
      · exact fun k hlt h84 => slotBytesOf_eq bs k ▸ hblank k hlt h84
  case header =>
    intro s m t o b u bs x hon hm hop hp hstatus hstep hbs hmark hx
    have hx' : x = headerScan b bs := hx
    have htaken : ∀ k : Mount, (m.takeHeader b bs).entered = k → exec (.mountScanReadCompletion u) s = .next ({ s with
        array := { s.array with op := none, timeouts := 0 }, mount := some k } : State).settle := fun k hk =>
      exec_mountScanRead_of_step u hon hm hop hp hstatus (by simp [hstep]) (by rw [hbs, takeRead_header hstep, hk])
    refine ⟨fun hinvalid hafter => htaken t ?_, fun hdata hopening => htaken _ ?_, fun hblank => htaken _ ?_⟩
    · have hclass : m.takeHeader b bs = m.classified (headerScan b bs) .invalid := by
        rcases hinvalid with ⟨hfirst, hnot⟩ | ⟨n, hfirst⟩ | ⟨⟨n, hfirst⟩, hopening, hnot⟩
        · rw [takeHeader_of_blank_or_broken hmark hfirst, if_neg]
          rw [Bool.and_eq_true]
          rintro ⟨hb, hv⟩
          rcases hnot with hb' | hv' <;> simp_all
        · exact takeHeader_of_settings hmark hfirst
        · rw [hx'] at hopening
          rw [takeHeader_of_unopened hmark hfirst hopening, if_neg (by simp [hnot])]
      rw [hclass]
      refine entered_classified ?_
      rw [hx'] at hafter
      exact hafter
    · obtain ⟨n, hfirst⟩ := hdata
      rw [hx'] at hopening ⊢
      rw [takeHeader_of_opened hmark hfirst hopening]
      rfl
    · have hbody : m.takeHeader b bs = { m with candidate := some (headerScan b bs), step := .body b } := by
        rcases hblank with ⟨⟨n, hfirst⟩, hopening, hb⟩ | ⟨hfirst, hb, hv⟩
        · rw [hx'] at hopening
          rw [takeHeader_of_unopened hmark hfirst hopening, if_pos hb]
        · rw [takeHeader_of_blank_or_broken hmark hfirst, if_pos (by simp [hb, hv])]
      rw [hbody, hx']
      rfl
  case candidate =>
    intro s m t o b u x cls hon hm hop hp hstatus hx hcls hafter
    rcases hcls with ⟨hstep, rfl⟩ | ⟨hstep, rfl⟩
    · refine exec_mountScanRead_of_step u hon hm hop hp hstatus (by simp [hstep]) ?_
      rw [takeRead_tail hstep, ← entered_classified hafter]
      simp [Mount.takeTail, hx]
    · refine exec_mountScanRead_of_step u hon hm hop hp hstatus (by simp [hstep]) ?_
      rw [takeRead_body hstep, ← entered_classified hafter]
      cases hcount : x.eraseCount <;> simp [Mount.takeBody, hx, hcount]
  case slot =>
    intro s m t o b u bs x hon hm hop hp hstatus hbs hx
    refine ⟨fun n hn hstep hrec => ?_, fun hstep hafter => ?_⟩
    · refine exec_mountScanRead_of_step u hon hm hop hp hstatus (by simp [hstep]) ?_
      rw [hbs, takeRead_slot hstep, takeSlot_eq hx rfl, if_pos hn, entered_of_step (by simp)]
      simp only [collected, hrec, List.append_nil]
      rfl
    · refine exec_mountScanRead_of_step u hon hm hop hp hstatus (by simp [hstep]) ?_
      rw [hbs, takeRead_slot hstep, takeSlot_eq hx rfl, if_neg (by omega)]
      refine afterBlock_eq _ _ _ ?_
      unfold collected
      cases hrec : parseRecord bs <;> simp only [hrec] at hafter <;> exact hafter
  case groups =>
    intro m keys
    refine ⟨fun l r hr => ?_, fun q hq haccepted => ?_, mem_commitKeys m.records, rfl, ?_, fun us hn hq => ?_, fun h => ?_⟩
    · obtain ⟨hmem, haccepted, hline, hbest⟩ := resolve_sound _ _ _ _ hr
      exact ⟨hmem, hline, (accepted_iff r keys).mp haccepted, fun q hq hql haq =>
        (not_beats_iff q r).mp (hbest q hq ((accepted_iff q keys).mpr haq) hql)⟩
    · exact resolve_complete _ _ q hq ((accepted_iff q keys).mpr haccepted)
    · obtain ⟨gone, hcount, hallowed, hremovals⟩ :=
        reduceGroups_removals m.records m.records.length (commitKeys m.records) 0
      refine ⟨gone, by simpa [Mount.allowed] using hcount.symm, hallowed, fun i t left ht hleft => ?_⟩
      obtain ⟨ts, hq, hts⟩ := hremovals i t ht
      rw [← hleft] at hq
      exact removal_spec hq hts
    · exact (length_le_of_qualify hn hq).trans (qualifying_winners_bound m)
    · exact reduceGroups_of_bound _ _ _ (h _ (nodup_qualifying _) fun u hu => (qualifies_iff m _ u).mpr hu)
  case table =>
    intro m
    refine ⟨fun t ht => ?_, fun l hl => ?_, fun l r hr hkind => table_of_plain hr hkind,
      fun l r hr hkind => table_of_tentative hr hkind, length_register m, fun i w g x hi => ?_,
      fun i j w v g h x y hij hi hj => ?_⟩
    · obtain ⟨c, hc, hkind, hwindow, hgroup⟩ := commit_of_allowed m t ht
      exact ⟨c, hc, hkind, by rw [RecInfo.tag, hwindow, hgroup]⟩
    · rw [table_get, hl]
    · obtain ⟨hqual, c, hc, hkind, htag, hx, hlatest⟩ := register_committed hi
      obtain ⟨l, r, hr, hrkind, hrtag⟩ := (mem_qualifying _ (wf_resolve _ _) _).mp (List.mem_of_getElem? hqual)
      obtain ⟨hrw, hrg⟩ := Tag.mk.inj hrtag
      obtain ⟨hcw, hcg⟩ := Tag.mk.inj htag
      refine ⟨⟨l, r, hr, hrkind, hrw, hrg⟩, c, hc, hkind, hcw, hcg, hx, fun q hq hqkind hqw hqg => ?_⟩
      exact (not_later_iff q c).mp (hlatest q hq hqkind (by rw [RecInfo.tag, hqw, hqg]))
    · obtain ⟨hqi, _⟩ := register_committed hi
      obtain ⟨hqj, _⟩ := register_committed hj
      obtain ⟨hli, hgi⟩ := List.getElem?_eq_some_iff.mp hqi
      obtain ⟨hlj, hgj⟩ := List.getElem?_eq_some_iff.mp hqj
      have hsorted := List.pairwise_iff_getElem.mp (sorted_qualifying m.winners) i j hli hlj hij
      rwa [hgi, hgj] at hsorted
  case blocks =>
    intro m x hresults hn hx
    rw [blockTable_get hresults hn hx, Mount.classEntry, countOf_eq]
    cases hcls : x.cls with
    | unfinished =>
      by_cases hopen : m.openBlock = some x.block <;> simp [hopen, bareEntry, BlockScan.seq]
    | retired => simp [bareEntry, BlockScan.seq]
    | erased => simp [bareEntry]
    | full => simp [bareEntry, BlockScan.seq]
    | invalid => simp [bareEntry]
    | virgin => simp [bareEntry]
  case counters =>
    intro m
    refine ⟨fun b hb => openBlock_some hb, fun hnone x hx hcls => openBlock_none hnone hx hcls, ?_, ?_, ?_⟩
    · exact congrArg (· + 1) (counter_eq _ _ fun f => floorFound f.2.1)
    · exact congrArg (· + 1) (counter_eq _ _ fun f => floorFound f.2.2)
    · have hseq := counter_eq [] m.scans fun f => f.1
      rw [show maxOf [] = 0 from rfl, Nat.zero_max, List.nil_append] at hseq
      exact congrArg (· + 1) hseq

end Sys2Proof.Machine
end

section
/-! The outcomes of programs: what the end of one leaves (R96, R104, R170), what a failure makes of its block (R67, R87,
R90), and the tail mark owed after slot 84 (R77). -/

namespace Sys2Proof.Machine

/-! ### The end of a program (R96, R170) -/

/-- The state after a program that fails: as after any other, with a VERIFY arm consumed. -/
def State.programFailed (s : State) (o : Op) (stored : Upset) : State :=
  { s with
    flash := flashWrite s.flash (4096 * o.block + o.offset) (overlay o.bytes stored),
    array := { s.array with op := none, timeouts := 0 },
    health := { s.health with arm := if s.health.arm = .verify then .none else s.health.arm } }

theorem programFailed_of_unarmed {s : State} (o : Op) (stored : Upset) (h : s.health.arm ≠ .verify) :
    s.programFailed o stored = s.programmed o stored := by
  simp only [State.programFailed, if_neg h]
  rfl

theorem endOp_passed {s : State} {o : Op} {stored readBack : Upset}
    (harm : ¬(s.health.arm = .verify ∧ o.block ≠ 0 ∧ o.length = 48 ∧ isLineRecord o.bytes = true))
    (h : overlay (overlay o.bytes stored) readBack = o.bytes) :
    s.endOp o stored readBack = (s.programmed o stored, .pass) := by
  rw [endOp_of_unarmed s o stored readBack harm, if_pos h]

theorem endOp_unequal {s : State} {o : Op} {stored readBack : Upset}
    (harm : ¬(s.health.arm = .verify ∧ o.block ≠ 0 ∧ o.length = 48 ∧ isLineRecord o.bytes = true))
    (h : overlay (overlay o.bytes stored) readBack ≠ o.bytes) :
    s.endOp o stored readBack = (s.programmed o stored, .fail) := by
  rw [endOp_of_unarmed s o stored readBack harm, if_neg h]

theorem endOp_failed {s : State} {o : Op} {stored readBack : Upset}
    (h : s.health.arm = .verify ∧ o.block ≠ 0 ∧ o.length = 48 ∧ isLineRecord o.bytes = true
      ∨ s.health.arm ≠ .verify ∧ overlay (overlay o.bytes stored) readBack ≠ o.bytes) :
    s.endOp o stored readBack = (s.programFailed o stored, .fail) := by
  rcases h with harmed | ⟨hunarmed, hne⟩
  · rw [endOp_of_armed s o stored readBack harmed]
    simp only [State.programFailed, harmed.1, if_true]
    rfl
  · rw [endOp_unequal (fun hc => hunarmed hc.1) hne, programFailed_of_unarmed o stored hunarmed]

/-- The end of a program is taken with its outcome. -/
theorem taken_programEnd_of {s z : State} {o : Op} {stored readBack : Upset} {res : ProgResult}
    (is : State → Purpose → Bool) (hon : s.power = .on) (hop : s.array.op = some o) (hi : is s o.purpose = true)
    (hstatus : o.statusWait = false) (he : s.endOp o stored readBack = (z, res)) :
    s.taken (fun s => s.programEnd (is s) (.ended stored readBack)) = .next (z.takeOutcome o res).settle := by
  rw [taken_programEnd s is o stored readBack hon hop hi hstatus, he]

/-- A program whose length is no record's is never made to fail by a VERIFY arm. -/
theorem not_armed_of_length {s : State} {o : Op} {n : Nat} (h : o.length = n) (hn : n ≠ 48) :
    ¬(s.health.arm = .verify ∧ o.block ≠ 0 ∧ o.length = 48 ∧ isLineRecord o.bytes = true) :=
  fun hc => hn (h.symm.trans hc.2.2.1)

theorem not_armed_of_record {s : State} {o : Op} (h : s.health.arm ≠ .verify ∨ isLineRecord o.bytes = false) :
    ¬(s.health.arm = .verify ∧ o.block ≠ 0 ∧ o.length = 48 ∧ isLineRecord o.bytes = true) := fun hc =>
  h.elim (fun harm => harm hc.1) fun hrec => by simp [hrec] at hc

theorem not_armed_of_block0 {s : State} {o : Op} (h : o.block = 0) :
    ¬(s.health.arm = .verify ∧ o.block ≠ 0 ∧ o.length = 48 ∧ isLineRecord o.bytes = true) := fun hc => hc.2.1 h

/-! ### Blocks under reports -/

theorem block_of_blocks {s t : State} (h : t.blocks = s.blocks) (b : Nat) : t.block b = s.block b := by
  unfold State.block
  rw [h]

@[simp] theorem block_report (s : State) (c : HealthClass) (b : Nat) : (s.report c).block b = s.block b :=
  block_of_blocks (report_frame s c).1 b

@[simp] theorem block_reportFault (s : State) (f : FaultReport) (b : Nat) : (s.reportFault f).block b = s.block b :=
  block_of_blocks (reportFault_frame s f).1 b

@[simp] theorem block_raise (s : State) (e : Event) (b : Nat) : (s.raise e).block b = s.block b := rfl

/-! ### The tail mark owed (R77) -/

theorem oweTailMark_of_other {s : State} {x : Slot} {r : Requester} (h : (s.block x.block).state ≠ .opened) :
    s.oweTailMark x r = s := if_neg fun hc => h hc.2

/-- After the last change of its block, the tail mark owed goes by the state the block then has. -/
theorem oweTailMark_setBlock {s : State} {x : Slot} {e : BlockEntry} (r : Requester)
    (hw : Sparse.wf BlockEntry.unknown s.blocks.table = true) :
    (s.setBlock x.block e).oweTailMark x r = { s with blocks := { s.blocks with
      table := Sparse.set BlockEntry.unknown s.blocks.table x.block e,
      tailOwed := if x.slot = 84 ∧ e.state = .opened then some (if s.mgmt.mode = .drain then .drain else r)
        else s.blocks.tailOwed } } := by
  rw [oweTailMark_eq, block_setBlock s x.block e hw]
  rfl

theorem oweTailMark_report (s : State) (c : HealthClass) (x : Slot) (r : Requester) :
    (s.report c).oweTailMark x r = (s.oweTailMark x r).report c := by
  obtain ⟨_, hmode, _⟩ := report_frame s c
  unfold State.oweTailMark
  rw [block_report, hmode]
  by_cases h : x.slot = Config.lastSlot ∧ (s.block x.block).state = BlockState.opened
  · rw [if_pos h, if_pos h]
    exact report_comm s c (fun t => { t with blocks := { t.blocks with
      tailOwed := some (if s.mgmt.mode = .drain then .drain else r) } }) fun _ _ => rfl
  · rw [if_neg h, if_neg h]

theorem oweTailMark_reportFault (s : State) (f : FaultReport) (x : Slot) (r : Requester) :
    (s.reportFault f).oweTailMark x r = (s.oweTailMark x r).reportFault f := by
  obtain ⟨_, hmode, _⟩ := reportFault_frame s f
  unfold State.oweTailMark
  rw [block_reportFault, hmode]
  by_cases h : x.slot = Config.lastSlot ∧ (s.block x.block).state = BlockState.opened
  · rw [if_pos h, if_pos h]
    exact reportFault_comm s f (fun t => { t with blocks := { t.blocks with
      tailOwed := some (if s.mgmt.mode = .drain then .drain else r) } }) fun _ => rfl
  · rw [if_neg h, if_neg h]

/-! ### Failures of a block (R67, R87, R90) -/

theorem countBlock_of_other {last : Option Nat} {n b : Nat} (h : last = some b → n ≤ 1) : countBlock last n b ≤ 2 := by
  unfold countBlock
  split_ifs with hl
  · have := h hl
    omega
  · omega

/-- The state whose block `b` has entered RETIRING with the entry `e` (R90). -/
def State.retiring (s : State) (b : Nat) (e : BlockEntry) : State :=
  { s with blocks := { s.blocks with
      table := Sparse.set BlockEntry.unknown s.blocks.table b e,
      retiring := s.blocks.retiring ++ [b],
      tailOwed := if (s.block b).state = .opened then none else s.blocks.tailOwed } }

/-- BLOCK_RETIRED is raised and reported (R89, R90). -/
theorem reportRetired_eq (s : State) (b : Nat) : s.reportRetired b = (s.raise .blockRetired).reportFault
    { cause := .blockRetired, addr := none, line := none, block := some b, slot := none, window := none } := rfl

theorem blockFailed_retires {s : State} {b : Nat} (hw : Sparse.wf BlockEntry.unknown s.blocks.table = true)
    (h2 : (s.block b).failures = 2) (h : (s.block b).state = .opened ∨ (s.block b).state = .full) :
    s.blockFailed b
      = (s.retiring b { s.block b with state := .retiring, nextFree := 0, failures := 3 }).reportRetired b :=
  blockFailed_third s b hw h2 h

theorem block_retiring {s : State} {b : Nat} {e : BlockEntry} (hw : Sparse.wf BlockEntry.unknown s.blocks.table = true) :
    (s.retiring b e).block b = e := block_setBlock s b e hw

@[simp] theorem block_reportRetired (s : State) (b d : Nat) : (s.reportRetired b).block d = s.block d := by
  rw [reportRetired_eq, block_reportFault, block_raise]

/-- The third failure in a row retires the block, whatever the entry's own attempts in it. -/
theorem failedProgram_third {s : State} {b n : Nat} (hw : Sparse.wf BlockEntry.unknown s.blocks.table = true)
    (h2 : (s.block b).failures = 2) (h : (s.block b).state = .opened ∨ (s.block b).state = .full) :
    s.failedProgram b n .fail
      = ((s.retiring b { s.block b with state := .retiring, nextFree := 0, failures := 3 }).reportRetired b).report
          .program := by
  have hstate : ((((s.retiring b { s.block b with state := .retiring, nextFree := 0, failures := 3 }).reportRetired
      b).report .program).block b).state = .retiring := by
    rw [block_report, block_reportRetired, block_retiring hw]
  unfold State.failedProgram
  rw [blockFailed_retires hw h2 h]
  dsimp only
  rw [if_pos rfl]
  split_ifs
  · exact retireBlock_of_other _ b (by rw [hstate]; decide)
  · rfl

/-- The entry's own third attempt in a block asks for its retirement (R67 step 3). -/
theorem failedProgram_own {s : State} {b : Nat} (hw : Sparse.wf BlockEntry.unknown s.blocks.table = true)
    (h1 : (s.block b).failures ≤ 1) (h : (s.block b).state = .opened ∨ (s.block b).state = .full) :
    s.failedProgram b 3 .fail
      = ((s.retiring b { s.block b with
          state := .retiring, nextFree := 0, failures := (s.block b).failures + 1 }).report .program).reportRetired b := by
  have hblock : ((s.setBlock b { s.block b with failures := (s.block b).failures + 1 }).report .program).block b
      = { s.block b with failures := (s.block b).failures + 1 } := by
    rw [block_report, block_setBlock s b _ hw]
  have hblocks : ((s.setBlock b { s.block b with failures := (s.block b).failures + 1 }).report .program).blocks
      = (s.setBlock b { s.block b with failures := (s.block b).failures + 1 }).blocks := (report_frame _ _).1
  have hretire : (s.setBlock b { s.block b with failures := (s.block b).failures + 1 }).retiring b { s.block b with
          state := .retiring, nextFree := 0, failures := (s.block b).failures + 1 }
      = s.retiring b { s.block b with
          state := .retiring, nextFree := 0, failures := (s.block b).failures + 1 } := by
    unfold State.retiring
    rw [block_setBlock s b _ hw]
    simp only [State.setBlock, Sparse.set_set BlockEntry.unknown _ b _ _ hw]
  unfold State.failedProgram
  rw [blockFailed_of_le s b h1]
  dsimp only
  rw [if_pos rfl, if_pos (by simp [Config.blockFailures]), retireBlock_eq _ b (by rw [hblock]; exact h), hblock, hblocks,
    ← hretire]
  refine congrArg (fun t => State.reportRetired t b) ?_
  refine Eq.trans ?_ (report_comm (s.setBlock b { s.block b with failures := (s.block b).failures + 1 }) .program
    (fun t => { t with blocks := ((s.setBlock b { s.block b with failures := (s.block b).failures + 1 }).retiring b
      { s.block b with state := .retiring, nextFree := 0, failures := (s.block b).failures + 1 }).blocks })
      fun _ _ => rfl)
  unfold State.retiring
  rw [block_setBlock s b _ hw]

end Sys2Proof.Machine
end

section
/-! The outcomes of queue programs of LINE entries (R65, R67 to R70). -/

namespace Sys2Proof.Machine

section
variable {s z : State} {o : Op} {stored readBack : Upset} {res : ProgResult}

theorem exec_queueProgramOutcome (hon : s.power = .on) (hop : s.array.op = some o) (hp : o.purpose = .queueProgram)
    (hstatus : o.statusWait = false) (he : s.endOp o stored readBack = (z, res)) :
    exec (.queueProgramOutcome (.ended stored readBack)) s = .next (z.queueOutcome o.at res).settle := by
  have htaken := taken_programEnd_of (fun _ p => decide (p = .queueProgram)) hon hop (by simp [hp]) hstatus he
  simp only [State.takeOutcome, hp] at htaken
  exact htaken

end

section
variable {s : State} {e : LineEntry} {c : CommitEntry} {qs : List QEntry} {x : Slot} {res : ProgResult}

theorem queueOutcome_line (h : s.queue.entries = .line e :: qs) :
    s.queueOutcome x res = (s.lineOutcome e x res).oweTailMark x .queue := by
  simp [State.queueOutcome, h]

theorem queueOutcome_commit (h : s.queue.entries = .commit c :: qs) :
    s.queueOutcome x res = (s.commitOutcome c x res).oweTailMark x .queue := by
  simp [State.queueOutcome, h]

/-! ### A Pass (R65, R69, R70) -/

theorem programCompletion_eq (s : State) (line : Nat) (tag : Option Tag) (x : Slot) :
    s.programCompletion line tag x = { s with
      table := Sparse.set TableEntry.clear s.table line { current := some x, group := tagRef tag, checkFailed := false },
      windows := { s.windows with
        shadow := if tag = none then s.windows.shadow.map (ShadowEntry.takePlain line x) else s.windows.shadow } } := by
  cases tag <;> rfl

theorem lineOutcome_passed (h : e.dropped = false) : s.lineOutcome e x .pass
    = (s.dropHead.programCompletion e.line e.tag x).setBlock x.block { s.block x.block with failures := 0 } := by
  unfold State.lineOutcome
  rw [h, programCompletion_eq]
  rfl

theorem lineOutcome_passed_dropped (h : e.dropped = true) :
    s.lineOutcome e x .pass = s.dropHead.setBlock x.block { s.block x.block with failures := 0 } := by
  unfold State.lineOutcome
  rw [h]
  rfl

theorem dropHead_eq (h : ∃ q, s.queue.entries = q :: qs) :
    s.dropHead = { s with queue := { s.queue with entries := qs } } := by
  obtain ⟨q, hq⟩ := h
  unfold State.dropHead
  rw [hq, List.tail_cons]

theorem setHead_eq (q' : QEntry) (h : ∃ q, s.queue.entries = q :: qs) :
    s.setHead q' = { s with queue := { s.queue with entries := q' :: qs } } := by
  obtain ⟨q, hq⟩ := h
  unfold State.setHead
  rw [hq, List.tail_cons]

/-! ### A Fail (R67, R68, R70) -/

theorem lineOutcome_again (hdropped : e.dropped = false) (h : e.attempts ≤ 4) : s.lineOutcome e x .fail
    = (s.failedProgram x.block (e.failed x.block).blockAttempts .fail).setHead (.line (e.failed x.block)) := by
  have hlt : (e.failed x.block).attempts < Config.programAttempts := by
    show e.attempts + 1 < 6
    omega
  unfold State.lineOutcome
  rw [hdropped]
  exact if_pos hlt

theorem noteDiscard_of_unmarked (s : State) : s.noteDiscard false = s := rfl

theorem lineOutcome_sixth (hdropped : e.dropped = false) (h : e.attempts = 5) (hmark : e.syncMark = false) :
    s.lineOutcome e x .fail = (s.failedProgram x.block (e.failed x.block).blockAttempts .fail).dropHead.reportFault
      { cause := .programFail, addr := none, line := some e.line, block := some x.block, slot := some x.slot,
        window := e.tag.map (·.window) } := by
  have hlt : ¬(e.failed x.block).attempts < Config.programAttempts := by
    show ¬e.attempts + 1 < 6
    omega
  unfold State.lineOutcome
  rw [hdropped, hmark]
  exact if_neg hlt

theorem lineOutcome_failed_dropped (hdropped : e.dropped = true) :
    s.lineOutcome e x .fail = (s.dropHead.blockFailed x.block).report .program := by
  unfold State.lineOutcome
  rw [hdropped]
  rfl

end

/-! ### The queue under a failed program -/

theorem setHead_report (s : State) (c : HealthClass) (q : QEntry) : (s.report c).setHead q = (s.setHead q).report c :=
  report_comm s c (fun t => t.setHead q) fun _ _ => rfl

theorem dropHead_report (s : State) (c : HealthClass) : (s.report c).dropHead = s.dropHead.report c :=
  report_comm s c State.dropHead fun _ _ => rfl

theorem setHead_reportRetired (s : State) (b : Nat) (q : QEntry) :
    (s.reportRetired b).setHead q = (s.setHead q).reportRetired b :=
  (reportFault_comm _ _ (fun t => t.setHead q) fun _ => rfl).trans rfl

theorem dropHead_reportRetired (s : State) (b : Nat) : (s.reportRetired b).dropHead = s.dropHead.reportRetired b :=
  (reportFault_comm _ _ State.dropHead fun _ => rfl).trans rfl

theorem oweTailMark_reportRetired (s : State) (b : Nat) (x : Slot) (r : Requester) :
    (s.reportRetired b).oweTailMark x r = (s.oweTailMark x r).reportRetired b := by
  rw [reportRetired_eq, oweTailMark_reportFault]
  refine congrArg (fun t => State.reportFault t _) ?_
  unfold State.oweTailMark
  rw [block_raise]
  by_cases h : x.slot = Config.lastSlot ∧ (s.block x.block).state = BlockState.opened
  · rw [if_pos h, if_pos h]
    rfl
  · rw [if_neg h, if_neg h]

theorem setHead_setBlock (s : State) (b : Nat) (e : BlockEntry) (q : QEntry) :
    (s.setBlock b e).setHead q = (s.setHead q).setBlock b e := rfl

theorem dropHead_setBlock (s : State) (b : Nat) (e : BlockEntry) : (s.setBlock b e).dropHead = s.dropHead.setBlock b e :=
  rfl

theorem setHead_retiring (s : State) (b : Nat) (e : BlockEntry) (q : QEntry) :
    (s.retiring b e).setHead q = (s.setHead q).retiring b e := rfl

theorem dropHead_retiring (s : State) (b : Nat) (e : BlockEntry) : (s.retiring b e).dropHead = s.dropHead.retiring b e :=
  rfl

/-- A block that has entered RETIRING is owed no tail mark. -/
theorem oweTailMark_retiring {s : State} {x : Slot} {e : BlockEntry} (r : Requester)
    (hw : Sparse.wf BlockEntry.unknown s.blocks.table = true) (he : e.state = .retiring) :
    (s.retiring x.block e).oweTailMark x r = s.retiring x.block e := by
  refine oweTailMark_of_other ?_
  rw [block_retiring hw, he]
  decide

/-- Settles O25. -/
theorem queueProgramPasses : Obligations.QueueProgramPasses := by
  unfold Obligations.QueueProgramPasses
  intro s o e qs stored readBack hon hop hp hstatus harm hw hq hread
  have he := endOp_passed (s := s) (o := o) (fun hc => harm hc.1) hread
  have hz : (s.programmed o stored).queue.entries = .line e :: qs := hq
  have hwz : Sparse.wf BlockEntry.unknown (s.programmed o stored).blocks.table = true := hw
  refine ⟨fun hdropped => ?_, fun hdropped => ?_⟩
  · rw [exec_queueProgramOutcome hon hop hp hstatus he, queueOutcome_line hz, lineOutcome_passed hdropped,
      programCompletion_eq, dropHead_eq ⟨_, hz⟩, oweTailMark_setBlock _ (by exact hw)]
    rfl
  · rw [exec_queueProgramOutcome hon hop hp hstatus he, queueOutcome_line hz, lineOutcome_passed_dropped hdropped,
      dropHead_eq ⟨_, hz⟩, oweTailMark_setBlock _ (by exact hw)]
    rfl

/-- Settles O26: the failure of the block by its count, then the entry by its attempts. -/
theorem queueProgramFails : Obligations.QueueProgramFails := by
  unfold Obligations.QueueProgramFails
  intro s o e qs stored readBack hon hop hp hstatus hw hq hdropped hfail
  have he := endOp_failed hfail
  have hz : (s.programFailed o stored).queue.entries = .line e :: qs := hq
  have hexec : exec (.queueProgramOutcome (.ended stored readBack)) s
      = .next (((s.programFailed o stored).lineOutcome e o.at .fail).oweTailMark o.at .queue).settle := by
    rw [exec_queueProgramOutcome hon hop hp hstatus he, queueOutcome_line hz]
  refine ⟨fun hatt hf hb => ?_, fun hatt hf hb hmark => ?_, fun hatt hf hstate => ?_, fun hatt hf hmark hstate => ?_,
    fun hatt hf hlast hb hstate => ?_, fun d hd hf => ?_⟩
  · have hn : (e.failed o.at.block).blockAttempts ≤ 2 := countBlock_of_other hb
    rw [hexec, lineOutcome_again hdropped hatt, failedProgram_of_le _ _ _ (by exact hf) hn, setHead_report,
      oweTailMark_report, setHead_setBlock, oweTailMark_setBlock _ (by exact hw), setHead_eq _ ⟨_, hz⟩]
    rfl
  · have hn : (e.failed o.at.block).blockAttempts ≤ 2 := countBlock_of_other hb
    rw [hexec, lineOutcome_sixth hdropped hatt hmark, failedProgram_of_le _ _ _ (by exact hf) hn, dropHead_report,
      oweTailMark_reportFault, oweTailMark_report, dropHead_setBlock, oweTailMark_setBlock _ (by exact hw),
      dropHead_eq ⟨_, hz⟩]
    rfl
  · rw [hexec, lineOutcome_again hdropped hatt,
      failedProgram_third (by exact hw) (by exact hf) (by exact hstate), setHead_report,
      setHead_reportRetired, oweTailMark_report, oweTailMark_reportRetired, setHead_retiring,
      oweTailMark_retiring _ (by exact hw) rfl, setHead_eq _ ⟨_, hz⟩]
    rfl
  · rw [hexec, lineOutcome_sixth hdropped hatt hmark,
      failedProgram_third (by exact hw) (by exact hf) (by exact hstate), dropHead_report,
      dropHead_reportRetired, oweTailMark_reportFault, oweTailMark_report, oweTailMark_reportRetired, dropHead_retiring,
      oweTailMark_retiring _ (by exact hw) rfl, dropHead_eq ⟨_, hz⟩]
    rfl
  · have hn : (e.failed o.at.block).blockAttempts = 3 := by
      show countBlock e.lastBlock e.blockAttempts o.block = 3
      rw [countBlock, if_pos hlast, hb]
    have hfailed : e.failed o.at.block = { e with
        state := .pending, target := none, attempts := e.attempts + 1, blockAttempts := 3, lastBlock := some o.block } := by
      rw [← hn]
      rfl
    rw [hexec, lineOutcome_again hdropped hatt, hn, failedProgram_own (by exact hw) (by exact hf) (by exact hstate),
      setHead_reportRetired,
      setHead_report, oweTailMark_reportRetired, oweTailMark_report, setHead_retiring,
      oweTailMark_retiring _ (by exact hw) rfl, setHead_eq _ ⟨_, hz⟩, hfailed]
    rfl
  · have hdropped' : d.dropped = true := by rw [hd]
    have he' : State.endOp { s with queue := { s.queue with entries := .line d :: qs } } o stored readBack
        = (State.programFailed { s with queue := { s.queue with entries := .line d :: qs } } o stored, .fail) :=
      endOp_failed hfail
    rw [exec_queueProgramOutcome (s := { s with queue := { s.queue with entries := .line d :: qs } }) hon hop hp hstatus
      he', queueOutcome_line (e := d) (qs := qs) rfl, lineOutcome_failed_dropped hdropped', oweTailMark_report,
      blockFailed_of_le _ _ (by exact hf), oweTailMark_setBlock _ (by exact hw), dropHead_eq (qs := qs) ⟨_, rfl⟩]
    rfl

end Sys2Proof.Machine
end

section
/-! The outcomes of block marks (R76, R77, R89, R91), of settings appends (R179) and of copies (R86, R87). -/

namespace Sys2Proof.Machine

/-! ### Block marks (R76, R77, R89, R91) -/

section
variable {s z : State} {o : Op} {stored readBack : Upset} {res : ProgResult}

theorem exec_openingProgramOutcome {q : Requester} (hon : s.power = .on) (hop : s.array.op = some o)
    (hp : o.purpose = .opening q) (hstatus : o.statusWait = false) (he : s.endOp o stored readBack = (z, res)) :
    exec (.openingProgramOutcome (.ended stored readBack)) s = .next (z.openingOutcome o.block res).settle := by
  have htaken := taken_programEnd_of (fun _ => Purpose.isOpening) hon hop (by rw [hp]; rfl) hstatus he
  simp only [State.takeOutcome, hp] at htaken
  exact htaken

theorem exec_tailMarkOutcome (hon : s.power = .on) (hop : s.array.op = some o) (hp : o.purpose = .tailMark)
    (hstatus : o.statusWait = false) (he : s.endOp o stored readBack = (z, res)) :
    exec (.tailMarkOutcome (.ended stored readBack)) s = .next (z.tailOutcome o.block res).settle := by
  have htaken := taken_programEnd_of (fun _ p => decide (p = .tailMark)) hon hop (by simp [hp]) hstatus he
  simp only [State.takeOutcome, hp] at htaken
  exact htaken

theorem exec_retireMarkOutcome (hon : s.power = .on) (hop : s.array.op = some o) (hp : o.purpose = .retireMark)
    (hstatus : o.statusWait = false) (he : s.endOp o stored readBack = (z, res)) :
    exec (.retireMarkOutcome (.ended stored readBack)) s = .next (z.retireMarkOutcome o.block res).settle := by
  have htaken := taken_programEnd_of (fun _ p => decide (p = .retireMark) || decide (p = .eraseMark)) hon hop
    (by simp [hp]) hstatus he
  simp only [State.takeOutcome, hp] at htaken
  exact htaken

theorem exec_eraseMarkOutcome {j : EraseJob} (hon : s.power = .on) (hop : s.array.op = some o)
    (hp : o.purpose = .eraseMark) (hstatus : o.statusWait = false) (hj : z.array.erase = some j)
    (he : s.endOp o stored readBack = (z, res)) :
    exec (.retireMarkOutcome (.ended stored readBack)) s = .next (z.eraseMarkOutcome j res).settle := by
  have htaken := taken_programEnd_of (fun _ p => decide (p = .retireMark) || decide (p = .eraseMark)) hon hop
    (by simp [hp]) hstatus he
  simp only [State.takeOutcome, hp, hj] at htaken
  exact htaken

end

/-- The state in which the block of the block manager's erase `j` has been RETIRED and the reclaim has ended (R89). -/
def State.reclaimRetired (s : State) (j : EraseJob) : State :=
  { s with
    array := { s.array with erase := none },
    blocks := { s.blocks with
      table := Sparse.set BlockEntry.unknown s.blocks.table j.block { s.block j.block with state := .retired, nextFree := 0 },
      victim := none, reclaimCopy := none, releaseTurn := true } }

theorem retireErased_of_reclaim {s : State} {j : EraseJob} (howner : j.owner = .manager)
    (hvictim : s.blocks.victim = some j.block) : s.retireErased j = (s.reclaimRetired j).reportRetired j.block := by
  have hends : ∀ e, ((s.setErase none).setBlock j.block e).endReclaim j.block = _ := fun e => if_pos hvictim
  unfold State.retireErased
  simp only [howner, hends]
  rfl

theorem reclaimRetired_report (s : State) (c : HealthClass) (j : EraseJob) :
    (s.report c).reclaimRetired j = (s.reclaimRetired j).report c :=
  report_comm s c (fun t => t.reclaimRetired j) fun _ _ => rfl

/-- Settles O29. -/
theorem blockMarksChangeTheBlock : Obligations.BlockMarksChangeTheBlock := by
  unfold Obligations.BlockMarksChangeTheBlock
  refine ⟨?opening, ?tail, ?retire, ?erase⟩
  case opening =>
    intro s o q stored readBack hon hop hp hstatus hlen
    have harm := not_armed_of_length (s := s) hlen (by decide)
    by_cases hread : overlay (overlay o.bytes stored) readBack = o.bytes
    · rw [exec_openingProgramOutcome hon hop hp hstatus (endOp_passed harm hread), if_pos hread]
      rfl
    · rw [exec_openingProgramOutcome hon hop hp hstatus (endOp_unequal harm hread), if_neg hread]
      rfl
  case tail =>
    intro s t o stored readBack hon hop hp hstatus hlen ht
    have harm := not_armed_of_length (s := s) hlen (by decide)
    rw [ht]
    by_cases hread : overlay (overlay o.bytes stored) readBack = o.bytes
    · rw [exec_tailMarkOutcome hon hop hp hstatus (endOp_passed harm hread), if_pos hread]
      rfl
    · rw [exec_tailMarkOutcome hon hop hp hstatus (endOp_unequal harm hread), if_neg hread]
      rfl
  case retire =>
    intro s t o stored readBack hon hop hp hstatus hlen ht
    have harm := not_armed_of_length (s := s) hlen (by decide)
    rw [ht]
    by_cases hread : overlay (overlay o.bytes stored) readBack = o.bytes
    · rw [exec_retireMarkOutcome hon hop hp hstatus (endOp_passed harm hread), if_pos hread]
      rfl
    · rw [exec_retireMarkOutcome hon hop hp hstatus (endOp_unequal harm hread), if_neg hread]
      rfl
  case erase =>
    intro s t o j stored readBack hon hop hp hstatus hlen hj howner hvictim ht
    have harm := not_armed_of_length (s := s) hlen (by decide)
    rw [ht]
    by_cases hread : overlay (overlay o.bytes stored) readBack = o.bytes
    · rw [exec_eraseMarkOutcome hon hop hp hstatus (by exact hj) (endOp_passed harm hread), if_pos hread]
      exact congrArg (fun v => Host.Outcome.next (State.settle v))
        (retireErased_of_reclaim (s := s.programmed o stored) howner hvictim)
    · have hvictim' : ((s.programmed o stored).report .program).blocks.victim = some j.block := by
        rw [(report_frame _ _).1]
        exact hvictim
      rw [exec_eraseMarkOutcome hon hop hp hstatus (by exact hj) (endOp_unequal harm hread), if_neg hread]
      refine congrArg (fun v => Host.Outcome.next (State.settle v)) ?_
      refine (retireErased_of_reclaim howner hvictim').trans ?_
      rw [reclaimRetired_report]
      rfl

/-! ### Settings appends (R179 to R182) -/

theorem exec_settingsAppendOutcome {s z : State} {o : Op} {c : Code} {new : Settings} {issued : Bool}
    {stored readBack : Upset} {res : ProgResult} (hon : s.power = .on) (hop : s.array.op = some o)
    (hp : o.purpose = .settings) (hstatus : o.statusWait = false)
    (hcommand : z.mgmt.command = .active (.append c new issued)) (he : s.endOp o stored readBack = (z, res)) :
    exec (.settingsAppendOutcome (.ended stored readBack)) s = .next (z.appendOutcome c new res).settle := by
  have htaken := taken_programEnd_of (fun _ p => decide (p = .settings)) hon hop (by simp [hp]) hstatus he
  simp only [State.takeOutcome, hp, hcommand] at htaken
  exact htaken

theorem wake_of_none {s : State} (h : s.port.request = none) : s.wake = s :=
  wake_of_unwoken s (Port.unwoken_of_none s.port h)

theorem appendResults_eq (s : State) (c : Code) : s.appendResults c = match c with
    | .zlck => [s.mgmt.settings.locks]
    | .xchg => [if s.mgmt.settings.exchange then 1 else 0, if s.mgmt.settings.exchange = s.port.exchange then 0 else 1]
    | _ => [] := by
  cases c <;> rfl

theorem completeAppend_of_none {s : State} (c : Code) (r : Ret) (h : s.port.request = none) :
    s.completeAppend c r = s.complete r (s.appendResults c) := wake_of_none h

theorem appendResults_report (s : State) (h : HealthClass) (c : Code) :
    (s.report h).appendResults c = s.appendResults c := by
  rw [appendResults_eq, appendResults_eq, report_eq]

/-- Settles O31. -/
theorem settingsAppendOutcome : Obligations.SettingsAppendOutcome := by
  unfold Obligations.SettingsAppendOutcome
  intro s o c new issued stored readBack hon hop hp hstatus hblock hcommand hr
  have harm := not_armed_of_block0 (s := s) hblock
  have haddr : s.programmed o stored = { s with
      flash := flashWrite s.flash o.offset (overlay o.bytes stored),
      array := { s.array with op := none, timeouts := 0 } } := by
    unfold State.programmed
    rw [hblock, Nat.mul_zero, Nat.zero_add]
  by_cases hread : overlay (overlay o.bytes stored) readBack = o.bytes
  · rw [exec_settingsAppendOutcome hon hop hp hstatus (by exact hcommand) (endOp_passed harm hread), if_pos hread,
      haddr]
    refine congrArg (fun v => Host.Outcome.next (State.settle v)) ((completeAppend_of_none c .done (by exact hr)).trans ?_)
    rw [appendResults_eq] <;> cases c <;> rfl
  · rw [exec_settingsAppendOutcome hon hop hp hstatus (by exact hcommand) (endOp_unequal harm hread), if_neg hread,
      haddr]
    refine congrArg (fun v => Host.Outcome.next (State.settle v)) ((completeAppend_of_none c .media ?_).trans ?_)
    · rw [(report_frame _ _).2.2.2.2.1]
      exact hr
    · rw [appendResults_report, appendResults_eq] <;> cases c <;> rfl

end Sys2Proof.Machine
end

section
/-! The outcomes of copies (R47, R58, R77, R86, R87, R98, R114). -/

namespace Sys2Proof.Machine

theorem exec_copyProgramOutcome {s z : State} {o : Op} {k : JobKind} {stored readBack : Upset} {res : ProgResult}
    (hon : s.power = .on) (hop : s.array.op = some o) (hp : o.purpose = .copyProgram k) (hstatus : o.statusWait = false)
    (he : s.endOp o stored readBack = (z, res)) :
    exec (.copyProgramOutcome (.ended stored readBack)) s = .next (z.copyOutcome k o.at res).settle := by
  have htaken := taken_programEnd_of (fun _ => Purpose.isCopy) hon hop (by rw [hp]; rfl) hstatus he
  simp only [State.takeOutcome, hp] at htaken
  exact htaken

/-! ### The three holders (R47, R86, R114) -/

theorem builtPlain_iff (bs : List Byte) : builtPlain bs = true ↔ bs.getD 0 0 = 0x3C := by
  rw [builtPlain, beq_iff_eq]
  rfl

/-- A table entry under a copy of `src` into `dst`, made PLAIN when its first byte says so. -/
def TableEntry.copied (src dst : Slot) (bs : List Byte) (failed : Bool) (e : TableEntry) : TableEntry :=
  if e.current = some src then
    { current := some dst, group := if bs.getD 0 0 = 0x3C then none else e.group, checkFailed := e.checkFailed || failed }
  else e

def ShadowEntry.copied (src dst : Slot) (bs : List Byte) (e : ShadowEntry) : ShadowEntry :=
  if e.committed = some src then
    { e with committed := some dst, committedGroup := if bs.getD 0 0 = 0x3C then none else e.committedGroup }
  else e

def RegEntry.copied (src dst : Slot) (e : RegEntry) : RegEntry :=
  if e.commitSlot = some src then
    (match e with
      | .committed w g _ => .committed w g dst
      | other => other)
  else e

theorem takeCopy_eq_copied (src dst : Slot) (bs : List Byte) (failed : Bool) (e : TableEntry) :
    e.takeCopy src dst (builtPlain bs) failed = e.copied src dst bs failed := by
  simp only [TableEntry.takeCopy, TableEntry.copied, builtPlain_iff]

theorem shadowTakeCopy_eq_copied (src dst : Slot) (bs : List Byte) (e : ShadowEntry) :
    e.takeCopy src dst (builtPlain bs) = e.copied src dst bs := by
  simp only [ShadowEntry.takeCopy, ShadowEntry.copied, builtPlain_iff]

theorem regTakeCopy_eq_copied (src dst : Slot) (e : RegEntry) : e.takeCopy src dst = e.copied src dst := by
  cases e with
  | committed w g x =>
    by_cases hx : x = src
    · simp [RegEntry.takeCopy, RegEntry.copied, RegEntry.commitSlot, hx]
    · simp [RegEntry.takeCopy, RegEntry.copied, RegEntry.commitSlot, hx]
  | reserved w g => rfl
  | free => rfl

theorem copyCompletion_eq (s : State) (src dst : Slot) (bs : List Byte) (failed : Bool) :
    s.copyCompletion src dst (builtPlain bs) failed = { s with
      table := s.table.map fun p => (p.1, p.2.copied src dst bs failed),
      windows := { s.windows with
        shadow := s.windows.shadow.map (ShadowEntry.copied src dst bs),
        register := s.windows.register.map (RegEntry.copied src dst) },
      port := { s.port with request := s.port.request.map fun r => { r with
        pieces := r.pieces.map (Piece.takeCopy src dst) } } } := by
  have hshadow : ShadowEntry.takeCopy src dst (builtPlain bs) = ShadowEntry.copied src dst bs :=
    funext (shadowTakeCopy_eq_copied src dst bs)
  have hregister : RegEntry.takeCopy src dst = RegEntry.copied src dst := funext (regTakeCopy_eq_copied src dst)
  unfold State.copyCompletion
  simp only [takeCopy_eq_copied, hshadow, hregister]

/-! ### The job's copy (R86, R87, R98) -/

/-- The block manager with job `k`'s copy done and its turn passed on. -/
def BlockManager.copyDone (m : BlockManager) : JobKind → BlockManager
  | .reclaim => { m with reclaimCopy := none, releaseTurn := true }
  | .retirement => { m with retireCopy := none }
  | .release => { m with release := m.release.map fun j => { j with copy := none }, releaseTurn := false }

/-- The block manager with copy `c` held for job `k`. -/
def BlockManager.copyHeld (m : BlockManager) (c : CopyWork) : JobKind → BlockManager
  | .reclaim => { m with reclaimCopy := some { c with stage := .held } }
  | .retirement => { m with retireCopy := some { c with stage := .held } }
  | .release => { m with release := m.release.map fun j => { j with copy := some { c with stage := .held } } }

theorem setCopy_none_passTurn (s : State) (k : JobKind) :
    (s.setCopy k none).passTurn k = { s with blocks := s.blocks.copyDone k } := by
  cases k <;> rfl

theorem setCopy_held (s : State) (k : JobKind) (c : CopyWork) :
    s.setCopy k (some { c with stage := .held }) = { s with blocks := s.blocks.copyHeld c k } := by
  cases k <;> rfl

theorem copyDone_table (m : BlockManager) (k : JobKind) : (m.copyDone k).table = m.table := by
  cases k <;> rfl

theorem copyHeld_table (m : BlockManager) (c : CopyWork) (k : JobKind) : (m.copyHeld c k).table = m.table := by
  cases k <;> rfl

theorem copyDone_tailOwed (m : BlockManager) (k : JobKind) : (m.copyDone k).tailOwed = m.tailOwed := by
  cases k <;> rfl

theorem copyHeld_tailOwed (m : BlockManager) (c : CopyWork) (k : JobKind) :
    (m.copyHeld c k).tailOwed = m.tailOwed := by
  cases k <;> rfl

theorem copyHeld_retiring (m : BlockManager) (c : CopyWork) (k : JobKind) :
    (m.copyHeld c k).retiring = m.retiring := by
  cases k <;> rfl

theorem copyDone_setTable (m : BlockManager) (t : Sparse BlockEntry) (k : JobKind) :
    ({ m with table := t } : BlockManager).copyDone k = { m.copyDone k with table := t } := by
  cases k <;> rfl

theorem block_of_table {s t : State} (h : t.blocks.table = s.blocks.table) (b : Nat) : t.block b = s.block b := by
  unfold State.block
  rw [h]

/-- The rank of the tail mark after a copy, fixed at its outcome (R77, R98, log 38). -/
theorem copyRequester_eq (s : State) (k : JobKind) : s.copyRequester k = match k with
    | .reclaim => .job .reclaim
    | .retirement => .job .retirement
    | .release => if s.blocks.release.map (·.priority) = some true then .priorityRelease else .job .release := by
  cases k with
  | reclaim => rfl
  | retirement => rfl
  | release =>
    cases hj : s.blocks.release with
    | none => simp [State.copyRequester, hj]
    | some j => cases hp : j.priority <;> simp [State.copyRequester, hj, hp]

section
variable {s : State} {k : JobKind} {c : CopyWork} {x : Slot}

theorem copyOutcome_passed {bs : List Byte} (h : s.copyOf k = some c) (hbuilt : c.built = some bs)
    (hw : Sparse.wf BlockEntry.unknown s.blocks.table = true) :
    s.copyOutcome k x .pass = { s.copyCompletion c.source x (builtPlain bs) c.failed with
      blocks := { s.blocks.copyDone k with
        table := Sparse.set BlockEntry.unknown s.blocks.table x.block { s.block x.block with failures := 0 },
        tailOwed := if x.slot = 84 ∧ (s.block x.block).state = .opened then
            some (if s.mgmt.mode = .drain then .drain else s.copyRequester k)
          else s.blocks.tailOwed } } := by
  have hmoved : ((((s.copyCompletion c.source x (builtPlain bs) c.failed).blockPassed x.block).setCopy k
      none).passTurn k)
      = State.setBlock { s.copyCompletion c.source x (builtPlain bs) c.failed with blocks := s.blocks.copyDone k }
        x.block { s.block x.block with failures := 0 } := by
    rw [setCopy_none_passTurn]
    unfold State.blockPassed State.setBlock
    simp only [copyDone_setTable, copyDone_table]
    rfl
  unfold State.copyOutcome
  simp only [h, hbuilt, Option.getD_some]
  rw [hmoved, oweTailMark_setBlock _ (by rw [copyDone_table]; exact hw)]
  simp only [copyDone_table, copyDone_tailOwed]
  rfl

theorem copyOutcome_failed (h : s.copyOf k = some c) (hw : Sparse.wf BlockEntry.unknown s.blocks.table = true)
    (h1 : (s.block x.block).failures ≤ 1) : s.copyOutcome k x .fail = State.report { s with
      blocks := { s.blocks.copyHeld c k with
        table := Sparse.set BlockEntry.unknown s.blocks.table x.block
          { s.block x.block with failures := (s.block x.block).failures + 1 },
        tailOwed := if x.slot = 84 ∧ (s.block x.block).state = .opened then
            some (if s.mgmt.mode = .drain then .drain else s.copyRequester k)
          else s.blocks.tailOwed } } .program := by
  have hblock : State.block { s with blocks := s.blocks.copyHeld c k } x.block = s.block x.block :=
    block_of_table (copyHeld_table _ _ _) _
  unfold State.copyOutcome
  simp only [h]
  rw [setCopy_held, oweTailMark_report, blockFailed_of_le _ _ (by rw [hblock]; exact h1), hblock,
    oweTailMark_setBlock _ (by rw [copyHeld_table]; exact hw)]
  simp only [copyHeld_table, copyHeld_tailOwed]

theorem copyOutcome_retires (h : s.copyOf k = some c) (hw : Sparse.wf BlockEntry.unknown s.blocks.table = true)
    (h2 : (s.block x.block).failures = 2)
    (hstate : (s.block x.block).state = .opened ∨ (s.block x.block).state = .full) :
    s.copyOutcome k x .fail = State.report (State.reportRetired { s with
      blocks := { s.blocks.copyHeld c k with
        table := Sparse.set BlockEntry.unknown s.blocks.table x.block
          { s.block x.block with state := .retiring, nextFree := 0, failures := 3 },
        retiring := s.blocks.retiring ++ [x.block],
        tailOwed := if (s.block x.block).state = .opened then none else s.blocks.tailOwed } } x.block) .program := by
  have hblock : State.block { s with blocks := s.blocks.copyHeld c k } x.block = s.block x.block :=
    block_of_table (copyHeld_table _ _ _) _
  have hwheld : Sparse.wf BlockEntry.unknown
      ({ s with blocks := s.blocks.copyHeld c k } : State).blocks.table = true := by
    rw [copyHeld_table]
    exact hw
  unfold State.copyOutcome
  simp only [h]
  rw [setCopy_held, oweTailMark_report,
    blockFailed_retires hwheld (by rw [hblock]; exact h2) (by rw [hblock]; exact hstate), oweTailMark_reportRetired,
    oweTailMark_retiring _ hwheld rfl]
  unfold State.retiring
  simp only [hblock, copyHeld_table, copyHeld_tailOwed, copyHeld_retiring]

end

/-- Settles O28: the claims of a copy that passes, and the block under one that fails. -/
theorem reclaimCopyOutcome : Obligations.ReclaimCopyOutcome := by
  unfold Obligations.ReclaimCopyOutcome
  intro s o k c bs q done held stored readBack hon hop hp hstatus hw hc hbuilt hq hdone hheld
  have hcopy : s.copyOf k = some c := (copyOf_eq s k).trans (hc ▸ by cases k <;> rfl)
  have hq' : q = if s.mgmt.mode = .drain then .drain else s.copyRequester k := by
    rw [hq, copyRequester_eq] <;> cases k <;> rfl
  have hdone' : done = s.blocks.copyDone k := by
    rw [hdone]
    cases k <;> rfl
  have hheld' : held = s.blocks.copyHeld c k := by
    rw [hheld]
    cases k <;> rfl
  rw [hq', hdone', hheld']
  refine ⟨fun harm hread => ?_, fun hfail => ⟨fun h1 => ?_, fun h2 hstate => ?_⟩⟩
  · have hcopy' : (s.programmed o stored).copyOf k = some c := by
      rw [← hcopy]
      cases k <;> rfl
    rw [exec_copyProgramOutcome hon hop hp hstatus (endOp_passed (fun h => harm h.1) hread),
      copyOutcome_passed hcopy' hbuilt (by exact hw), copyCompletion_eq]
    have hreq : (s.programmed o stored).copyRequester k = s.copyRequester k := by
      cases k <;> rfl
    rw [hreq]
    rfl
  · have hcopy' : (s.programFailed o stored).copyOf k = some c := by
      rw [← hcopy]
      cases k <;> rfl
    have hreq : (s.programFailed o stored).copyRequester k = s.copyRequester k := by
      cases k <;> rfl
    rw [exec_copyProgramOutcome hon hop hp hstatus (endOp_failed hfail),
      copyOutcome_failed hcopy' (by exact hw) (by exact h1), hreq]
    rfl
  · have hcopy' : (s.programFailed o stored).copyOf k = some c := by
      rw [← hcopy]
      cases k <;> rfl
    rw [exec_copyProgramOutcome hon hop hp hstatus (endOp_failed hfail),
      copyOutcome_retires hcopy' (by exact hw) (by exact h2) (by exact hstate)]
    rfl

end Sys2Proof.Machine
end

section
/-! The outcomes of programs of COMMIT entries (R66, R67, R68, R120 to R125), for the queue and the drain. -/

namespace Sys2Proof.Machine

/-! ### A group is committed (R120, R121) -/

/-- The window as a commit completion leaves it in mode `m` (R121). -/
def Window.committed (x : Window) (m : Mode) : Window :=
  if m = .run ∧ x.repeats ≠ 1 then
    { x with state := .armed, repeats := x.repeats - 1, group := none, register := none, awaiting := false }
  else { x with state := .idle, repeats := 0, group := none, register := none, awaiting := false }

/-- The events after a commit completion of a window (R121). -/
def committedEvents (events : BitVec 16) (x : Window) (m : Mode) : BitVec 16 :=
  if m = .run ∧ x.repeats ≠ 1 then setEvent events .groupCommit else setEvent (setEvent events .groupCommit) .windowEnd

theorem getLsbD_committedEvents (events : BitVec 16) (x : Window) (m : Mode) (v : Event) :
    (committedEvents events x m).getLsbD v.bit = (events.getLsbD v.bit || decide (v = .groupCommit)
      || decide (v = .windowEnd ∧ ¬(m = .run ∧ x.repeats ≠ 1))) := by
  unfold committedEvents
  by_cases h : m = .run ∧ x.repeats ≠ 1
  · rw [if_pos h, getLsbD_setEvent, decide_eq_false (p := v = .windowEnd ∧ ¬(m = .run ∧ x.repeats ≠ 1))
      (fun hc => hc.2 h), Bool.or_false]
  · rw [if_neg h, getLsbD_setEvent, getLsbD_setEvent]
    simp only [h, not_false_eq_true, and_true]

/-- The window unit as a commit completion into slot `x` leaves it. -/
def State.windowsCommitted (s : State) (w g i : Nat) (x : Slot) : WindowUnit :=
  { s.windows with
    windows := s.windows.windows.set w ((s.window w).committed s.mgmt.mode),
    shadow := s.windows.shadow.filter fun y => !decide (y.window = w),
    register := s.windows.register.set i (if s.members w = 0 then .free else .committed w g x) }

theorem afterCommit_eq (x : Window) (m : Mode) :
    x.afterCommit m = (x.committed m, decide ¬(m = .run ∧ x.repeats ≠ 1)) := by
  unfold Window.afterCommit Window.committed
  by_cases h : m = .run ∧ x.repeats ≠ 1
  · simp only [h, ne_eq, not_false_eq_true, and_self, if_true, not_true_eq_false, decide_false]
  · simp only [h, if_false, not_false_eq_true, decide_true]

theorem commitCompletion_eq {s : State} (w g i : Nat) (x : Slot) (hr : s.port.request = none) :
    s.commitCompletion w g i x = { s with
      table := s.table.map fun c => (c.1, c.2.commitTo w i),
      windows := s.windowsCommitted w g i x,
      mgmt := { s.mgmt with events := committedEvents s.mgmt.events (s.window w) s.mgmt.mode } } := by
  have hafter := afterCommit_eq (s.window w) s.mgmt.mode
  have hcompletion : s.commitCompletion w g i x = State.wake
      (if ((s.window w).afterCommit s.mgmt.mode).2 then
        State.raise (State.raise { s with
          table := s.table.map fun c => (c.1, c.2.commitTo w i),
          windows := { s.windowsCommitted w g i x with
            windows := s.windows.windows.set w ((s.window w).afterCommit s.mgmt.mode).1 } } .groupCommit) .windowEnd
      else State.raise { s with
          table := s.table.map fun c => (c.1, c.2.commitTo w i),
          windows := { s.windowsCommitted w g i x with
            windows := s.windows.windows.set w ((s.window w).afterCommit s.mgmt.mode).1 } } .groupCommit) := rfl
  rw [hcompletion, wake_of_none (by split_ifs <;> exact hr), hafter]
  by_cases h : s.mgmt.mode = .run ∧ (s.window w).repeats ≠ 1
  · have hevents : committedEvents s.mgmt.events (s.window w) s.mgmt.mode = setEvent s.mgmt.events .groupCommit := if_pos h
    rw [hevents, decide_eq_false fun hc => hc h]
    rfl
  · have hevents : committedEvents s.mgmt.events (s.window w) s.mgmt.mode
        = setEvent (setEvent s.mgmt.events .groupCommit) .windowEnd := if_neg h
    rw [hevents, decide_eq_true h]
    rfl

/-! ### A COMMIT record is lost (R123, R125) -/

/-- The table entry of a line under an abort revert of its shadow entry (R125). -/
def TableEntry.reverted (e : TableEntry) (x : ShadowEntry) : TableEntry :=
  if e.current = x.committed ∧ e.group = x.committedGroup.map GroupRef.register then e
  else { current := x.committed, group := x.committedGroup.map GroupRef.register, checkFailed := false }

/-- The lines of window `w` have been reverted between `s` and `t`, and no other (R125). -/
def Reverted (s t : State) (w : Nat) : Prop :=
  (∀ x ∈ s.windows.shadow, x.window = w → t.entry x.line = (s.entry x.line).reverted x)
    ∧ ∀ l, (∀ x ∈ s.windows.shadow, x.window = w → x.line ≠ l) → t.entry l = s.entry l

theorem entry_of_table {s t : State} (h : t.table = s.table) (l : Nat) : t.entry l = s.entry l := by
  unfold State.entry
  rw [h]

/-- Reverting depends on the table and the shadow list alone. -/
theorem Reverted.of_tables {s t u v : State} {w : Nat} (h : Reverted s t w) (hs : u.table = s.table)
    (hshadow : u.windows.shadow = s.windows.shadow) (ht : v.table = t.table) : Reverted u v w := by
  obtain ⟨hlines, hothers⟩ := h
  refine ⟨fun x hx hw => ?_, fun l hl => ?_⟩
  · rw [entry_of_table ht, entry_of_table hs]
    exact hlines x (hshadow ▸ hx) hw
  · rw [entry_of_table ht, entry_of_table hs]
    exact hothers l fun x hx hw => hl x (hshadow ▸ hx) hw

/-- The window unit with window `w` dropped, its shadow entries released and its register entry freed (R123, R124). -/
def State.windowsDropped (s : State) (w : Nat) : WindowUnit :=
  { s.windows with
    windows := s.windows.windows.set w (s.window w).dropped,
    shadow := s.windows.shadow.filter fun x => !decide (x.window = w),
    register := match (s.window w).register with
      | some i => s.windows.register.set i .free
      | none => s.windows.register }

theorem dropWindow_eq {s : State} {w : Nat} (hw : Sparse.wf TableEntry.clear s.table = true)
    (hn : (s.windows.shadow.map (·.line)).Nodup) :
    ((s.revertWindow w).freeRegisterOf (s.window w)).setWindow w (s.window w).dropped
      = { s with table := (s.revertWindow w).table, windows := s.windowsDropped w } := by
  obtain ⟨hrevert, _⟩ := revertWindow_spec s w hw hn
  unfold State.windowsDropped State.freeRegisterOf
  rw [hrevert]
  cases (s.window w).register <;> rfl

theorem reverted_revertWindow {s : State} {w : Nat} (hw : Sparse.wf TableEntry.clear s.table = true)
    (hn : (s.windows.shadow.map (·.line)).Nodup) : Reverted s (s.revertWindow w) w :=
  (revertWindow_spec s w hw hn).2

theorem lostCommit_eq {s : State} {w : Nat} (hw : Sparse.wf TableEntry.clear s.table = true)
    (hn : (s.windows.shadow.map (·.line)).Nodup) (hr : s.port.request = none) :
    s.lostCommit w = State.raise { s with table := (s.revertWindow w).table, windows := s.windowsDropped w }
      .groupDrop := by
  have hlost : s.lostCommit w = State.wake (State.raise
      (((s.revertWindow w).freeRegisterOf (s.window w)).setWindow w (s.window w).dropped) .groupDrop) := rfl
  rw [hlost, dropWindow_eq hw hn, wake_of_none]
  exact hr

/-! ### The COMMIT entry at the head (R66, R67, R68) -/

section
variable {s : State} {e : CommitEntry} {x : Slot}

theorem commitOutcome_passed : s.commitOutcome e x .pass
    = (s.dropHead.blockPassed x.block).commitCompletion e.window e.group e.register x := rfl

theorem commitOutcome_again (h : e.attempts ≤ 4) : s.commitOutcome e x .fail
    = (s.failedProgram x.block (e.failed x.block).blockAttempts .fail).setHead (.commit (e.failed x.block)) := by
  have hlt : (e.failed x.block).attempts < Config.programAttempts := by
    show e.attempts + 1 < 6
    omega
  exact if_pos hlt

theorem commitOutcome_sixth (h : e.attempts = 5) (hmark : e.syncMark = false) : s.commitOutcome e x .fail
    = ((s.failedProgram x.block (e.failed x.block).blockAttempts .fail).dropHead.reportFault
        { cause := .programFail, addr := none, line := none, block := some x.block, slot := some x.slot,
          window := some e.window }).lostCommit e.window := by
  have hlt : ¬(e.failed x.block).attempts < Config.programAttempts := by
    show ¬e.attempts + 1 < 6
    omega
  unfold State.commitOutcome
  rw [hmark]
  exact if_neg hlt

end

/-- Where a failed program leaves its head gone: the block counted against in `u`, all else but the reports as in `s`. -/
structure HeadFailed (s u : State) (b : Nat) (qs : List QEntry) : Prop where
  queue : u.queue = { s.queue with entries := qs }
  blocks : u.blocks = { s.blocks with
    table := Sparse.set BlockEntry.unknown s.blocks.table b { s.block b with failures := (s.block b).failures + 1 } }
  windows : u.windows = s.windows
  table : u.table = s.table
  flash : u.flash = s.flash
  array : u.array = s.array
  port : u.port = s.port
  mode : u.mgmt.mode = s.mgmt.mode

theorem headFailed_failedProgram {s : State} {b n : Nat} {q : QEntry} {qs : List QEntry}
    (hq : s.queue.entries = q :: qs) (h1 : (s.block b).failures ≤ 1) (hn : n ≤ 2) :
    HeadFailed s (s.failedProgram b n .fail).dropHead b qs
      ∧ (s.failedProgram b n .fail).dropHead.mgmt.fault = s.mgmt.fault := by
  rw [failedProgram_of_le s b n h1 hn, dropHead_report, dropHead_setBlock, dropHead_eq ⟨_, hq⟩]
  obtain ⟨hblocks, hmode, hqueue, hwindows, hport, htable, hfault, _, hflash, harray, _⟩ := report_frame
    (State.setBlock { s with queue := { s.queue with entries := qs } } b
      { s.block b with failures := (s.block b).failures + 1 }) .program
  exact ⟨⟨hqueue, hblocks, hwindows, htable, hflash, harray, hport, hmode⟩, hfault⟩

theorem HeadFailed.reportFault {s u : State} {b : Nat} {qs : List QEntry} (h : HeadFailed s u b qs) (f : FaultReport) :
    HeadFailed s (u.reportFault f) b qs := by
  obtain ⟨hblocks, hmode, hqueue, hwindows, hport, htable, _, hflash, harray, _⟩ := reportFault_frame u f
  exact ⟨hqueue.trans h.queue, hblocks.trans h.blocks, hwindows.trans h.windows, htable.trans h.table,
    hflash.trans h.flash, harray.trans h.array, hport.trans h.port, hmode.trans h.mode⟩

/-- What the loss of the COMMIT record of window `w`, after its program into slot `x`, makes of `s` (R123). -/
structure CommitLost (s t : State) (w : Nat) (x : Slot) (qs : List QEntry) (r : Requester) : Prop where
  queue : t.queue = { s.queue with entries := qs }
  windows : t.windows = s.windowsDropped w
  lines : Reverted s t w
  flash : t.flash = s.flash
  array : t.array = s.array
  port : t.port = s.port
  blocks : t.blocks = { s.blocks with
    table := Sparse.set BlockEntry.unknown s.blocks.table x.block
      { s.block x.block with failures := (s.block x.block).failures + 1 },
    tailOwed := if x.slot = 84 ∧ (s.block x.block).state = .opened then some (if s.mgmt.mode = .drain then .drain else r)
      else s.blocks.tailOwed }
  drop : t.eventSet .groupDrop = true

theorem commitLost {s u : State} {w : Nat} {x : Slot} {qs : List QEntry} (r : Requester)
    (h : HeadFailed s u x.block qs) (hw : Sparse.wf BlockEntry.unknown s.blocks.table = true)
    (hwt : Sparse.wf TableEntry.clear s.table = true) (hn : (s.windows.shadow.map (·.line)).Nodup)
    (hr : s.port.request = none) :
    CommitLost s ((u.lostCommit w).oweTailMark x r) w x qs r
      ∧ ((u.lostCommit w).oweTailMark x r).mgmt.fault = u.mgmt.fault := by
  have hwt' : Sparse.wf TableEntry.clear u.table = true := by rw [h.table]; exact hwt
  have hn' : (u.windows.shadow.map (·.line)).Nodup := by rw [h.windows]; exact hn
  have hdropped : u.windowsDropped w = s.windowsDropped w := by
    simp only [State.windowsDropped, State.window, h.windows]
  have hblock : u.block x.block = { s.block x.block with failures := (s.block x.block).failures + 1 } := by
    unfold State.block
    rw [h.blocks]
    exact Sparse.get_set_same _ _ _ _ hw
  rw [lostCommit_eq hwt' hn' (by rw [h.port]; exact hr), oweTailMark_eq]
  refine ⟨?_, rfl⟩
  exact
    { queue := h.queue
      windows := hdropped
      lines := (reverted_revertWindow hwt' hn').of_tables h.table.symm (congrArg WindowUnit.shadow h.windows.symm) rfl
      flash := h.flash
      array := h.array
      port := h.port
      blocks := by
        show { u.blocks with
          tailOwed := if x.slot = 84 ∧ (u.block x.block).state = BlockState.opened then
              some (if u.mgmt.mode = Mode.drain then Requester.drain else r)
            else u.blocks.tailOwed } = _
        rw [hblock, h.blocks, h.mode]
      drop := eventSet_raise_same { u with table := (u.revertWindow w).table, windows := u.windowsDropped w } .groupDrop }

theorem reportFault_of_none {s : State} (f : FaultReport) (h : s.mgmt.fault = none) :
    (s.reportFault f).mgmt.fault = some f := by
  simp only [State.reportFault, h]

/-- Settles O27: the commit completion, another attempt, and the loss of the record at the sixth. -/
theorem commitRecordPasses : Obligations.CommitRecordPasses := by
  unfold Obligations.CommitRecordPasses
  refine ⟨?passes, ?fails⟩
  case passes =>
    intro s o e qs stored readBack hon hop hp hstatus harm hw hq hr hread
    have he := endOp_passed (s := s) (not_armed_of_record harm) hread
    have hz : (s.programmed o stored).queue.entries = .commit e :: qs := hq
    have hout : (s.programmed o stored).queueOutcome o.at .pass = { s.programmed o stored with
        queue := { s.queue with entries := qs },
        table := s.table.map fun c => (c.1, c.2.commitTo e.window e.register),
        windows := s.windowsCommitted e.window e.group e.register o.at,
        mgmt := { s.mgmt with events := committedEvents s.mgmt.events (s.window e.window) s.mgmt.mode },
        blocks := { s.blocks with
          table := Sparse.set BlockEntry.unknown s.blocks.table o.block { s.block o.block with failures := 0 },
          tailOwed := if o.offset / 48 = 84 ∧ (s.block o.block).state = .opened then
              some (if s.mgmt.mode = .drain then .drain else .queue)
            else s.blocks.tailOwed } } := by
      rw [queueOutcome_commit hz, commitOutcome_passed, commitCompletion_eq _ _ _ _ (by exact hr), dropHead_eq ⟨_, hz⟩]
      exact oweTailMark_setBlock (x := o.at) (s := { s.programmed o stored with
        queue := { s.queue with entries := qs },
        table := s.table.map fun c => (c.1, c.2.commitTo e.window e.register),
        windows := s.windowsCommitted e.window e.group e.register o.at,
        mgmt := { s.mgmt with events := committedEvents s.mgmt.events (s.window e.window) s.mgmt.mode } }) _ hw
    have hexec := exec_queueProgramOutcome hon hop hp hstatus he
    rw [hout] at hexec
    exact ⟨_, hexec, rfl, rfl, rfl, rfl, rfl, rfl, rfl, rfl, fun v => getLsbD_committedEvents _ _ _ v⟩
  case fails =>
    intro s o e qs stored readBack hon hop hp hstatus harm hw hq hread hf hb
    have he := endOp_unequal (s := s) (not_armed_of_record harm) hread
    have hz : (s.programmed o stored).queue.entries = .commit e :: qs := hq
    have hn : (e.failed o.at.block).blockAttempts ≤ 2 := countBlock_of_other hb
    have hexec : exec (.queueProgramOutcome (.ended stored readBack)) s
        = .next (((s.programmed o stored).commitOutcome e o.at .fail).oweTailMark o.at .queue).settle := by
      rw [exec_queueProgramOutcome hon hop hp hstatus he, queueOutcome_commit hz]
    refine ⟨fun hatt => ?_, fun hatt hmark hr hwt hnodup => ?_⟩
    · rw [hexec, commitOutcome_again hatt, failedProgram_of_le _ _ _ (by exact hf) hn, setHead_report,
        oweTailMark_report, setHead_setBlock, oweTailMark_setBlock _ (by exact hw), setHead_eq _ ⟨_, hz⟩]
      rfl
    · rw [commitOutcome_sixth hatt hmark] at hexec
      obtain ⟨hfailed, hfault⟩ := headFailed_failedProgram hz (by exact hf) hn
      obtain ⟨hlost, hkept⟩ := commitLost (w := e.window) (x := o.at) .queue (hfailed.reportFault
        { cause := .programFail, addr := none, line := none, block := some o.at.block, slot := some o.at.slot,
          window := some e.window }) hw hwt hnodup hr
      exact ⟨_, hexec, hlost.queue, hlost.windows, hlost.lines.1, hlost.lines.2, hlost.flash, hlost.array, hlost.port,
        hlost.blocks, hlost.drop, fun h => hkept.trans (reportFault_of_none _ (hfault.trans h))⟩

end Sys2Proof.Machine
end

section
/-! The outcomes of drain programs (R157), and what DRAINING discards at once (R158, R159, R161). -/

namespace Sys2Proof.Machine

section
variable {s z : State} {o : Op} {stored readBack : Upset} {res : ProgResult}

theorem exec_drainProgramOutcome (hon : s.power = .on) (hop : s.array.op = some o) (hp : o.purpose = .drainProgram)
    (hstatus : o.statusWait = false) (he : s.endOp o stored readBack = (z, res)) :
    exec (.drainProgramOutcome (.ended stored readBack)) s = .next (z.drainOutcome o.at res).settle := by
  have htaken := taken_programEnd_of (fun _ p => decide (p = .drainProgram)) hon hop (by simp [hp]) hstatus he
  simp only [State.takeOutcome, hp] at htaken
  exact htaken

end

section
variable {s : State} {e : LineEntry} {c : CommitEntry} {qs : List QEntry} {x : Slot}

theorem drainOutcome_line_passed (h : s.queue.entries = .line e :: qs) : s.drainOutcome x .pass
    = (((s.dropHead.programCompletion e.line e.tag x).setBlock x.block { s.block x.block with failures := 0 }).oweTailMark
        x .drain) := by
  simp only [State.drainOutcome, h, programCompletion_eq]
  rfl

theorem discardEffects_line (s : State) (y : Option Slot) (h : e.syncMark = false) :
    s.discardEffects (.line e) y = s.reportFault (lossReport (.line e) y) := by
  have hmarked : (QEntry.line e).marked = false := h
  unfold State.discardEffects
  rw [hmarked, noteDiscard_of_unmarked]

theorem discardEffects_commit (s : State) (y : Option Slot) (h : c.syncMark = false) :
    s.discardEffects (.commit c) y = (s.lostCommit c.window).reportFault (lossReport (.commit c) y) := by
  have hmarked : (QEntry.commit c).marked = false := h
  unfold State.discardEffects
  rw [hmarked, noteDiscard_of_unmarked]

theorem drainOutcome_line_failed (h : s.queue.entries = .line e :: qs) (hmark : e.syncMark = false) :
    s.drainOutcome x .fail = ((s.failedProgram x.block (e.failed x.block).blockAttempts .fail).dropHead.reportFault
      (lossReport (.line e) (some x))).oweTailMark x .drain := by
  unfold State.drainOutcome
  rw [h]
  exact congrArg (fun t => State.oweTailMark t x .drain) (discardEffects_line _ _ hmark)

theorem drainOutcome_commit_failed (h : s.queue.entries = .commit c :: qs) (hmark : c.syncMark = false) :
    s.drainOutcome x .fail
      = (((s.failedProgram x.block (c.failed x.block).blockAttempts .fail).dropHead.lostCommit c.window).oweTailMark x
          .drain).reportFault (lossReport (.commit c) (some x)) := by
  rw [← oweTailMark_reportFault]
  unfold State.drainOutcome
  rw [h]
  exact congrArg (fun t => State.oweTailMark t x .drain) (discardEffects_commit _ _ hmark)

theorem oweTailMark_of_drain {r : Requester} (h : s.mgmt.mode = .drain) :
    s.oweTailMark x .drain = s.oweTailMark x r := by
  simp only [oweTailMark_eq, h, if_true]

end

theorem commitCompletion_mode (s : State) (w g i : Nat) (x : Slot) :
    (s.commitCompletion w g i x).mgmt.mode = s.mgmt.mode := by
  unfold State.commitCompletion
  dsimp only
  rw [wake_mgmt]
  split_ifs <;> rfl

/-- In DRAIN a COMMIT record that passes is taken as the queue's (R157). -/
theorem drainOutcome_commit_passed {s : State} {c : CommitEntry} {qs : List QEntry} {x : Slot}
    (h : s.queue.entries = .commit c :: qs) (hm : s.mgmt.mode = .drain) :
    s.drainOutcome x .pass = s.queueOutcome x .pass := by
  rw [queueOutcome_commit h, commitOutcome_passed]
  unfold State.drainOutcome
  rw [h]
  exact oweTailMark_of_drain ((commitCompletion_mode _ _ _ _ _).trans hm)

/-! ### Heads that cannot be issued (R158) -/

/-- DRAIN_LOSS has been reported for a queue of LINE entries, the first of which is `e`. -/
def State.linesLost (s : State) (further : Bool) (fault : FaultReport) : State :=
  { s with
    queue := { s.queue with entries := [] },
    mgmt := { s.mgmt with fault := some fault, further := further } }

/-- No LINE entry of the queue can have a slot: none is left, none is ERASED and no opening is in flight. -/
def State.unplaceable (s : State) : Prop := s.nextSlot = none ∧ s.opening = false ∧ s.erasedCount = 0

theorem drainStuck_of_line {s : State} {e : LineEntry} {qs : List QEntry} (h : s.unplaceable)
    (hq : s.queue.entries = .line e :: qs) (hpending : e.state = .pending) : s.drainStuck = true := by
  obtain ⟨hslot, hopening, herased⟩ := h
  simp [State.drainStuck, State.head, hq, QEntry.programming, hpending, hslot, hopening, herased]

theorem discardStuck_line {s : State} {e : LineEntry} {qs : List QEntry} (h : s.unplaceable)
    (hq : s.queue.entries = .line e :: qs) (hpending : e.state = .pending) (hmark : e.syncMark = false) :
    s.discardStuck (qs.length + 1)
      = (State.reportFault { s with queue := { s.queue with entries := qs } } (lossReport (.line e) none)).discardStuck
          qs.length := by
  have hhead : s.head = some (.line e) := by simp [State.head, hq]
  rw [State.discardStuck, if_pos (drainStuck_of_line h hq hpending), hhead]
  dsimp only
  rw [discardEffects_line _ _ hmark, dropHead_eq ⟨_, hq⟩]

/-- The entries behind the first are discarded under a fault that is held. -/
theorem discardStuck_behind {f : FaultReport} (xs : List QEntry)
    (hxs : ∀ q ∈ xs, ∃ d, q = .line d ∧ d.state = .pending ∧ d.syncMark = false) (s : State) (h : s.unplaceable)
    (hq : s.queue.entries = xs) (hf : s.mgmt.fault = some f) :
    s.discardStuck xs.length = s.linesLost (s.mgmt.further || decide (xs ≠ [])) f := by
  induction xs generalizing s with
  | nil =>
    have hfurther : (s.mgmt.further || decide (([] : List QEntry) ≠ [])) = s.mgmt.further := by simp
    show s = _
    rw [hfurther]
    unfold State.linesLost
    rw [← hq, ← hf]
  | cons q qs ih =>
    obtain ⟨d, rfl, hpending, hmark⟩ := hxs q List.mem_cons_self
    have hreported : State.reportFault { s with queue := { s.queue with entries := qs } } (lossReport (.line d) none)
        = { s with queue := { s.queue with entries := qs }, mgmt := { s.mgmt with further := true } } := by
      simp only [State.reportFault, hf]
    rw [List.length_cons, discardStuck_line h hq hpending hmark, hreported]
    refine (ih (fun q hq => hxs q (List.mem_cons_of_mem _ hq)) { s with
      queue := { s.queue with entries := qs }, mgmt := { s.mgmt with further := true } } h rfl hf).trans ?_
    simp [State.linesLost]

/-! ### Under WP# (R159) -/

theorem wake_queue (s : State) : s.wake.queue = s.queue := by
  unfold State.wake
  split
  · rfl
  · split_ifs <;> rfl

theorem revert_queue (s : State) (x : ShadowEntry) : (s.revert x).queue = s.queue := by
  unfold State.revert
  dsimp only
  split_ifs <;> rfl

theorem foldl_revert_queue (xs : List ShadowEntry) (s : State) : (xs.foldl State.revert s).queue = s.queue := by
  induction xs generalizing s with
  | nil => rfl
  | cons x xs ih => exact (ih _).trans (revert_queue s x)

theorem revertWindow_queue (s : State) (w : Nat) : (s.revertWindow w).queue = s.queue := foldl_revert_queue _ _

theorem freeRegisterOf_queue (s : State) (x : Window) : (s.freeRegisterOf x).queue = s.queue := by
  unfold State.freeRegisterOf
  split <;> rfl

theorem lostCommit_queue (s : State) (w : Nat) : (s.lostCommit w).queue = s.queue := by
  unfold State.lostCommit
  rw [wake_queue]
  exact (freeRegisterOf_queue _ _).trans (revertWindow_queue _ _)

theorem noteDiscard_queue (s : State) (marked : Bool) : (s.noteDiscard marked).queue = s.queue := by
  unfold State.noteDiscard
  split_ifs
  · split <;> rfl
  · rfl

theorem discardEffects_queue (s : State) (q : QEntry) (y : Option Slot) : (s.discardEffects q y).queue = s.queue := by
  unfold State.discardEffects
  cases q with
  | line e => exact (reportFault_queue _ _).trans (noteDiscard_queue _ _)
  | commit e => exact (reportFault_queue _ _).trans ((lostCommit_queue _ _).trans (noteDiscard_queue _ _))

theorem foldl_discardEffects_queue (qs : List QEntry) (s : State) :
    (qs.foldl (fun t q => t.discardEffects q none) s).queue = s.queue := by
  induction qs generalizing s with
  | nil => rfl
  | cons q qs ih => exact (ih _).trans (discardEffects_queue s q none)

theorem discardAll_entries (s : State) : s.discardAll.queue.entries = s.queue.entries.filter QEntry.programming :=
  congrArg WriteQueue.entries (foldl_discardEffects_queue _ _)

theorem queueAbort_nil {s : State} (t : Tag) (h : s.queue.entries = []) : (s.queueAbort t).queue.entries = [] := by
  simp [State.queueAbort, h]

theorem abortGroup_nil {s : State} (w : Nat) (h : s.queue.entries = []) : (s.abortGroup w).queue.entries = [] := by
  unfold State.abortGroup
  dsimp only
  rw [wake_queue, raise_queue, setWindow_queue, freeRegisterOf_queue, revertWindow_queue]
  split
  · exact queueAbort_nil _ h
  · exact h

theorem stopWindow_nil {s : State} (w : Nat) (h : s.queue.entries = []) : (s.stopWindow w).queue.entries = [] := by
  unfold State.stopWindow
  dsimp only
  split
  · exact h
  · exact h
  · exact abortGroup_nil w h
  · split_ifs
    · exact h
    · exact abortGroup_nil w h

/-- A mode entry leaves an empty queue empty. -/
theorem setMode_nil {s : State} (m : Mode) (h : s.queue.entries = []) : (s.setMode m).queue.entries = [] := by
  have hstop : s.stopWindows.queue.entries = [] := stopWindow_nil _ (stopWindow_nil _ (stopWindow_nil _
    (stopWindow_nil _ h)))
  unfold State.setMode
  rw [wake_queue]
  cases m
  case run | mount => exact h
  case readonly | drain | service | halted => exact hstop

theorem reachDrained_nil {s : State} (h : s.queue.entries = []) : s.reachDrained.queue.entries = [] := by
  unfold State.reachDrained
  split_ifs
  · exact setMode_nil _ h
  · exact h

/-! ### The fault of the first discard (R157, R188) -/

theorem noteDiscard_fault (s : State) (marked : Bool) : (s.noteDiscard marked).mgmt.fault = s.mgmt.fault := by
  unfold State.noteDiscard
  split_ifs
  · split <;> rfl
  · rfl

theorem fault_of_keeps {s t : State} (h : t.keeps = s.keeps) : t.mgmt.fault = s.mgmt.fault :=
  congrArg (fun k => k.2.2.2.1) h

theorem discardEffects_fault (s : State) (q : QEntry) (y : Option Slot) (h : s.mgmt.fault = none) :
    (s.discardEffects q y).mgmt.fault = some (lossReport q y) := by
  unfold State.discardEffects
  cases q with
  | line e => exact reportFault_of_none _ ((noteDiscard_fault _ _).trans h)
  | commit e =>
    exact reportFault_of_none _ ((fault_of_keeps (keeps_lostCommit _ _)).trans ((noteDiscard_fault _ _).trans h))

theorem reportFault_of_some {s : State} {f : FaultReport} (g : FaultReport) (h : s.mgmt.fault = some f) :
    (s.reportFault g).mgmt.fault = some f := by
  simp only [State.reportFault, h]

theorem discardEffects_fault_held (s : State) (q : QEntry) (y : Option Slot) {f : FaultReport}
    (h : s.mgmt.fault = some f) : (s.discardEffects q y).mgmt.fault = some f := by
  unfold State.discardEffects
  cases q with
  | line e => exact reportFault_of_some _ ((noteDiscard_fault _ _).trans h)
  | commit e =>
    exact reportFault_of_some _ ((fault_of_keeps (keeps_lostCommit _ _)).trans ((noteDiscard_fault _ _).trans h))

theorem foldl_discardEffects_fault_held (qs : List QEntry) (s : State) {f : FaultReport} (h : s.mgmt.fault = some f) :
    (qs.foldl (fun t q => t.discardEffects q none) s).mgmt.fault = some f := by
  induction qs generalizing s with
  | nil => exact h
  | cons q qs ih => exact ih _ (discardEffects_fault_held s q none h)

theorem discardAll_fault {s : State} {q : QEntry} {rest : List QEntry}
    (hq : (s.queue.entries.filter fun q => !q.programming) = q :: rest) (h : s.mgmt.fault = none) :
    s.discardAll.mgmt.fault = some (lossReport q none) := by
  unfold State.discardAll
  dsimp only
  rw [hq, List.foldl_cons]
  exact foldl_discardEffects_fault_held _ _ (discardEffects_fault _ _ _ h)

theorem endDrain_fault (s : State) : s.endDrain.mgmt.fault = s.mgmt.fault :=
  fault_of_keeps (s := { s with drain := { s.drain with phase := .inactive, returnMode := none,
                                                        releasePending := false } }) (keeps_setMode _ _)

theorem reachDrained_fault (s : State) : s.reachDrained.mgmt.fault = s.mgmt.fault := by
  unfold State.reachDrained
  split_ifs
  · exact endDrain_fault _
  · rfl

theorem drainStep_of_draining {s : State} (hm : s.mgmt.mode = .drain) (hphase : s.drain.phase = .draining) {t : State}
    (ht : t = if s.array.wp then s.discardAll else s.discardStuck s.queue.entries.length) :
    s.drainStep = if t.queue.entries = [] then t.reachDrained else t := by
  subst ht
  unfold State.drainStep
  rw [if_pos ⟨hm, hphase⟩]

/-- Settles O30. -/
theorem drainProgramIsTriedOnce : Obligations.DrainProgramIsTriedOnce := by
  unfold Obligations.DrainProgramIsTriedOnce
  refine ⟨?line, ?commit, ?stuck, ?underWp⟩
  case line =>
    intro s o e qs stored readBack hon hop hp hstatus harm hw hq
    have hz : (s.programmed o stored).queue.entries = .line e :: qs := hq
    refine ⟨fun hread => ?_, fun hread hf hmark hb => ?_⟩
    · rw [exec_drainProgramOutcome hon hop hp hstatus (endOp_passed (fun h => harm h.1) hread),
        drainOutcome_line_passed hz, programCompletion_eq, dropHead_eq ⟨_, hz⟩, oweTailMark_setBlock _ (by exact hw)]
      simp only [ite_self]
      rfl
    · have hn : (e.failed o.at.block).blockAttempts ≤ 2 := countBlock_of_other hb
      rw [exec_drainProgramOutcome hon hop hp hstatus (endOp_unequal (fun h => harm h.1) hread),
        drainOutcome_line_failed hz hmark, oweTailMark_reportFault, failedProgram_of_le _ _ _ (by exact hf) hn,
        dropHead_report, dropHead_setBlock, oweTailMark_report, oweTailMark_setBlock _ (by exact hw),
        dropHead_eq ⟨_, hz⟩]
      simp only [ite_self]
      rfl
  case commit =>
    intro s o e qs stored readBack hon hop hp hstatus hm harm hw hq
    have hz : (s.programmed o stored).queue.entries = .commit e :: qs := hq
    refine ⟨fun hread => ?_, fun hread hf hb hmark hr hwt hnodup => ?_⟩
    · rw [exec_drainProgramOutcome hon hop hp hstatus (endOp_passed (not_armed_of_record harm) hread),
        drainOutcome_commit_passed hz hm, exec_queueProgramOutcome (s := { s with array := { s.array with
          op := some { o with purpose := .queueProgram } } }) hon rfl rfl hstatus
          (endOp_passed (not_armed_of_record harm) hread)]
      rfl
    · have hexec := exec_drainProgramOutcome hon hop hp hstatus (endOp_unequal (not_armed_of_record harm) hread)
      rw [drainOutcome_commit_failed hz hmark] at hexec
      have hn : (e.failed o.at.block).blockAttempts ≤ 2 := countBlock_of_other hb
      obtain ⟨hfailed, hfault⟩ := headFailed_failedProgram hz (by exact hf) hn
      obtain ⟨hlost, hkept⟩ := commitLost (w := e.window) (x := o.at) .drain hfailed hw hwt hnodup hr
      obtain ⟨fblocks, _, fqueue, fwindows, fport, ftable, _, fflash, farray, _⟩ := reportFault_frame
        (((((s.programmed o stored).failedProgram o.at.block (e.failed o.at.block).blockAttempts
          .fail).dropHead).lostCommit e.window).oweTailMark o.at .drain) (lossReport (.commit e) (some o.at))
      have hlines := hlost.lines.of_tables rfl rfl ftable
      have hblocks := fblocks.trans hlost.blocks
      simp only [ite_self] at hblocks
      exact ⟨_, hexec, fqueue.trans hlost.queue, fwindows.trans hlost.windows, hlines.1, hlines.2,
        fflash.trans hlost.flash, farray.trans hlost.array, fport.trans hlost.port, hblocks,
        reportFault_eventSet_of _ hlost.drop, fun h => reportFault_of_none _ (hkept.trans (hfault.trans h))⟩
  case stuck =>
    intro s e qs hm hphase hrelease hwp hslot hopening herased hq hall hfault
    obtain ⟨d, hd, hpending, hmark⟩ := hall (.line e) (by simp [hq])
    obtain rfl : e = d := QEntry.line.inj hd
    have hun : s.unplaceable := ⟨hslot, hopening, herased⟩
    have hreported : State.reportFault { s with queue := { s.queue with entries := qs } } (lossReport (.line e) none)
        = { s with
          queue := { s.queue with entries := qs },
          mgmt := { s.mgmt with
            fault := some (lossReport (.line e) none), further := false,
            events := setEvent s.mgmt.events .fault } } := by
      simp only [State.reportFault, hfault]
    have hstuck : s.discardStuck s.queue.entries.length = State.linesLost { s with
        mgmt := { s.mgmt with events := setEvent s.mgmt.events .fault } } (decide (qs ≠ [])) (lossReport (.line e) none) := by
      rw [hq, List.length_cons, discardStuck_line hun hq hpending hmark, hreported]
      refine (discardStuck_behind qs (fun q hq' => hall q (by rw [hq]; exact List.mem_cons_of_mem _ hq')) { s with
          queue := { s.queue with entries := qs },
          mgmt := { s.mgmt with
            fault := some (lossReport (.line e) none), further := false,
            events := setEvent s.mgmt.events .fault } } hun rfl rfl).trans ?_
      simp [State.linesLost]
    have hreleased : ¬s.drain.releasePending = true := by simp [hrelease]
    rw [drainStep_of_draining (t := s.discardStuck s.queue.entries.length) hm hphase (by rw [hwp]; rfl), hstuck]
    exact (if_pos rfl).trans (if_neg hreleased)
  case underWp =>
    intro s hm hphase hwp
    have hstep := drainStep_of_draining hm hphase (t := s.discardAll) (by rw [hwp]; rfl)
    refine ⟨?_, fun q rest hq hfault => ?_⟩
    · rw [hstep, ← discardAll_entries]
      split_ifs with hnil
      · rw [reachDrained_nil hnil, hnil]
      · rfl
    · have hheld := discardAll_fault hq hfault
      have hloss : s.drainStep.mgmt.fault = some (lossReport q none) := by
        rw [hstep]
        split_ifs
        · exact (reachDrained_fault _).trans hheld
        · exact hheld
      rw [hloss]
      cases q <;> rfl

end Sys2Proof.Machine
end

section
/-! What the entry to a mode makes of the management unit (R127, R190): the mode and events. -/

namespace Sys2Proof.Machine

theorem foldl_revert_mgmt (xs : List ShadowEntry) (s : State) : (xs.foldl State.revert s).mgmt = s.mgmt := by
  induction xs generalizing s with
  | nil => rfl
  | cons x xs ih =>
    refine (ih _).trans ?_
    unfold State.revert
    dsimp only
    split_ifs <;> rfl

theorem revertWindow_mgmt (s : State) (w : Nat) : (s.revertWindow w).mgmt = s.mgmt := foldl_revert_mgmt _ _

theorem freeRegisterOf_mgmt (s : State) (x : Window) : (s.freeRegisterOf x).mgmt = s.mgmt := by
  unfold State.freeRegisterOf
  split <;> rfl

theorem abortGroup_mgmt (s : State) (w : Nat) :
    (s.abortGroup w).mgmt = { s.mgmt with events := setEvent s.mgmt.events .groupDrop } := by
  unfold State.abortGroup
  dsimp only
  rw [wake_mgmt, raise_mgmt, setWindow_mgmt, freeRegisterOf_mgmt, revertWindow_mgmt]
  split <;> rfl

theorem stopWindow_mgmt (s : State) (w : Nat) :
    (s.stopWindow w).mgmt = { s.mgmt with events := (s.stopWindow w).mgmt.events } := by
  unfold State.stopWindow
  dsimp only
  split
  · rfl
  · rfl
  · rw [abortGroup_mgmt]
  · split_ifs
    · rfl
    · rw [abortGroup_mgmt]

theorem stopWindows_mgmt (s : State) : s.stopWindows.mgmt = { s.mgmt with events := s.stopWindows.mgmt.events } := by
  unfold State.stopWindows
  rw [stopWindow_mgmt (((s.stopWindow 0).stopWindow 1).stopWindow 2) 3, stopWindow_mgmt ((s.stopWindow 0).stopWindow 1) 2,
    stopWindow_mgmt (s.stopWindow 0) 1, stopWindow_mgmt s 0]

theorem setMode_mgmt (s : State) (m : Mode) :
    (s.setMode m).mgmt = { s.mgmt with mode := m, events := (s.setMode m).mgmt.events } := by
  unfold State.setMode
  rw [wake_mgmt]
  have hstop := stopWindows_mgmt s
  cases m
  case run | mount => rfl
  case readonly | drain | service | halted =>
    simp only [raise_mgmt]
    rw [hstop]

theorem setMode_modeChange (s : State) (m : Mode) : (s.setMode m).eventSet .modeChange = true := by
  unfold State.setMode State.eventSet
  rw [wake_mgmt]
  exact eventSet_raise_same _ _

theorem complete_cmdDone (s : State) (r : Ret) (bs : List Byte) : (s.complete r bs).eventSet .cmdDone = true := by
  show (setEvent _ .cmdDone).getLsbD Event.cmdDone.bit = true
  rw [getLsbD_setEvent]
  simp

/-- WIPE in progress when HALTED is entered completes with MEDIA (R187). -/
theorem enterHalted_of_wipe {s : State} {step : WipeStep} {cut : Bool}
    (h : s.mgmt.command = .active (.wipe step cut)) :
    s.enterHalted.mgmt.command = .zero ∧ s.enterHalted.mgmt.data = putData s.mgmt.data 0 [6]
      ∧ s.enterHalted.eventSet .cmdDone = true := by
  have hmgmt := setMode_mgmt { s with drain := { s.drain with
    phase := .inactive, returnMode := none, releasePending := false } } .halted
  have hentered : s.enterHalted = (State.setMode { s with drain := { s.drain with
      phase := .inactive, returnMode := none, releasePending := false } } .halted).complete .media [] := by
    unfold State.enterHalted State.haltCommand
    have hcommand : (State.setMode { s with drain := { s.drain with
        phase := .inactive, returnMode := none, releasePending := false } } .halted).mgmt.command
        = .active (.wipe step cut) := by
      rw [hmgmt]
      exact h
    simp only [hcommand]
  rw [hentered]
  refine ⟨rfl, ?_, complete_cmdDone _ _ _⟩
  have hdata : (State.setMode { s with drain := { s.drain with
      phase := .inactive, returnMode := none, releasePending := false } } .halted).mgmt.data = s.mgmt.data := by
    rw [hmgmt]
  exact congrArg (fun d => putData d 0 [6]) hdata

end Sys2Proof.Machine
end
section
/-! The outcomes of programs of mount's step 9 and of WIPE (R138, R139, R148, R186, R187). -/

namespace Sys2Proof.Machine

section
variable {s z : State} {o : Op} {stored readBack : Upset} {res : ProgResult}

theorem exec_mountRepairProgramOutcome (hon : s.power = .on) (hop : s.array.op = some o)
    (hp : s.isRepair o.purpose = true) (hstatus : o.statusWait = false) (he : s.endOp o stored readBack = (z, res)) :
    exec (.mountRepairProgramOutcome (.ended stored readBack)) s = .next (z.takeOutcome o res).settle :=
  taken_programEnd_of State.isRepair hon hop hp hstatus he

theorem exec_wipeProgramOutcome (hon : s.power = .on) (hop : s.array.op = some o) (hp : o.purpose.isBlock0 = true)
    (hm : s.mgmt.mode = .service) (hstatus : o.statusWait = false) (he : s.endOp o stored readBack = (z, res)) :
    exec (.wipeProgramOutcome (.ended stored readBack)) s = .next (z.takeOutcome o res).settle :=
  taken_programEnd_of (fun s p => p.isBlock0 && decide (s.mgmt.mode = .service)) hon hop (by simp [hp, hm]) hstatus he

theorem isRepair_of_block0 {p : Purpose} (hp : p.isBlock0 = true) (hm : s.mgmt.mode = .mount) : s.isRepair p = true := by
  simp [State.isRepair, hp, hm]

theorem isBlock0_iff (p : Purpose) : p.isBlock0 = true ↔ p = .block0Header ∨ p = .block0Record := by
  simp [Purpose.isBlock0]

/-- A program of block 0's format ends under either engine. -/
theorem exec_block0Outcome {c : Instr} {j : EraseJob} (hon : s.power = .on) (hop : s.array.op = some o)
    (hp : o.purpose = .block0Header ∨ o.purpose = .block0Record) (hstatus : o.statusWait = false)
    (hc : s.mgmt.mode = .mount ∧ c = .mountRepairProgramOutcome (.ended stored readBack)
      ∨ s.mgmt.mode = .service ∧ c = .wipeProgramOutcome (.ended stored readBack))
    (hj : z.array.erase = some j) (he : s.endOp o stored readBack = (z, res)) :
    exec c s = .next (z.block0Outcome j res).settle := by
  have hblock0 : o.purpose.isBlock0 = true := (isBlock0_iff _).mpr hp
  have htake : z.takeOutcome o res = z.block0Outcome j res := by
    rcases hp with hp | hp <;> simp only [State.takeOutcome, hp, hj]
  rw [← htake]
  rcases hc with ⟨hm, rfl⟩ | ⟨hm, rfl⟩
  · exact exec_mountRepairProgramOutcome hon hop (isRepair_of_block0 hblock0 hm) hstatus he
  · exact exec_wipeProgramOutcome hon hop hblock0 hm hstatus he

end

/-- A program into block 0 leaves its bytes at its offset. -/
theorem programmed_block0 {s : State} {o : Op} {stored : Upset} (h : o.block = 0) : s.programmed o stored = { s with
    flash := flashWrite s.flash o.offset (overlay o.bytes stored),
    array := { s.array with op := none, timeouts := 0 } } := by
  unfold State.programmed
  rw [h, Nat.mul_zero, Nat.zero_add]

theorem wipeCut_of_cut {s : State} {step : WipeStep} (h : s.mgmt.command = .active (.wipe step true)) :
    s.wipeCut = true := by
  simp [State.wipeCut, h]

theorem wipeCut_of_uncut {s : State} (h : ∀ step, s.mgmt.command ≠ .active (.wipe step true)) : s.wipeCut = false := by
  unfold State.wipeCut
  split
  case h_1 step cut hc =>
    cases cut with
    | false => rfl
    | true => exact absurd hc (h step)
  all_goals rfl

section
variable {s : State} {j : EraseJob}

theorem block0Outcome_record_mount (hp : j.part = .record) (ho : j.owner = .mount) :
    s.block0Outcome j .pass = (s.setErase none).withMount Mount.formatted := by
  simp only [State.block0Outcome, hp, ho]

theorem block0Outcome_record_wipe (hp : j.part = .record) (ho : j.owner = .wipe) :
    s.block0Outcome j .pass = if s.wipeCut then s.setErase none else (s.setErase none).enterMount.complete .done [] := by
  simp only [State.block0Outcome, hp, ho]

/-- The slot of a failed default record of mount is used up (R20, log 44). -/
theorem useSlotOne_eq (s : State) (j : EraseJob) : s.useSlotOne j = { s with
    mount := if j.owner = .mount ∧ j.part = .record then
        s.mount.map fun m => { m with nextSlot := max m.nextSlot 2 }
      else s.mount } := by
  unfold State.useSlotOne
  split_ifs <;> rfl

/-- A failed attempt on block 0 after which another is made (R138, R139, R186). -/
theorem countFailure_again (ho : j.owner ≠ .manager) (h : j.virgin = true ∨ j.attempts ≤ 1) :
    s.countFailure j none = s.setErase (some { j with
      attempts := if j.virgin = true then 0 else j.attempts + 1, newCount := if j.virgin = true then 1 else j.newCount,
      part := .waiting, running := 0, clock := 0, suspends := 0, statusWait := false, virgin := false }) := by
  unfold State.countFailure
  cases hv : j.virgin with
  | true => rfl
  | false =>
    have hatt : j.attempts ≤ 1 := h.resolve_left (by simp [hv])
    have hlt : j.attempts + 1 < Config.eraseAttempts := by
      show j.attempts + 1 < 3
      omega
    have hturn : ∀ t : State, t.eraseTurn j = t := fun t => by
      unfold State.eraseTurn
      cases hown : j.owner with
      | manager => exact absurd hown ho
      | mount => rfl
      | wipe => rfl
    simp only [hlt, if_true, hturn, Bool.false_eq_true, if_false]
    rfl

theorem countFailure_block0 (hv : j.virgin = false) (h : j.attempts = 2) (hb : j.block = 0) :
    s.countFailure j none = s.block0Lost j := by
  have hlt : ¬j.attempts + 1 < Config.eraseAttempts := by
    show ¬j.attempts + 1 < 3
    omega
  unfold State.countFailure
  rw [hv, if_neg Bool.false_ne_true, if_neg hlt, if_pos hb]

theorem block0Lost_of_mount (ho : j.owner = .mount) : s.block0Lost j = { s with
    array := { s.array with erase := none },
    mount := s.mount.map fun m => { m with block0Unusable := true, step := .ended, repairs := [] } } := by
  simp only [State.block0Lost, ho]
  rfl

theorem block0Lost_of_wipe (ho : j.owner = .wipe) (hcut : s.wipeCut = false) :
    s.block0Lost j = (s.setErase none).enterHalted := by
  simp only [State.block0Lost, ho, hcut, Bool.false_eq_true, if_false]

end

/-- Settles O32. -/
theorem mountAndWipeProgramsPass : Obligations.MountAndWipeProgramsPass := by
  unfold Obligations.MountAndWipeProgramsPass
  refine ⟨?virgin, ?first, ?wipe, ?cut, ?settled, ?format, ?marks, ?failed⟩
  case virgin =>
    intro s m o stored readBack hon hm hop hp hstatus hlen hread
    have harm := not_armed_of_length (s := s) hlen (by decide)
    rw [exec_mountRepairProgramOutcome hon hop (by rw [hp]; rfl) hstatus (endOp_passed harm hread)]
    have hm' : (s.programmed o stored).mount = some m := hm
    simp only [State.takeOutcome, hp, State.virginHeaderOutcome, State.withMount, hm']
    rfl
  case first =>
    intro s o j c stored readBack hon hop hp hstatus hlen hj hpart hc hread
    have harm := not_armed_of_length (s := s) hlen (by decide)
    rw [exec_block0Outcome (j := j) hon hop (.inl hp) hstatus hc (by exact hj) (endOp_passed harm hread)]
    simp only [State.block0Outcome, hpart]
    rfl
  case wipe =>
    intro s o j stored readBack hon hm hop hp hstatus hblock hj hpart howner hr hcut hread
    have harm := not_armed_of_block0 (s := s) hblock
    rw [exec_block0Outcome (j := j) hon hop (.inr hp) hstatus (.inr ⟨hm, rfl⟩) (by exact hj) (endOp_passed harm hread),
      block0Outcome_record_wipe hpart howner, programmed_block0 hblock, if_neg (by
        rw [Bool.not_eq_true]
        exact wipeCut_of_uncut hcut)]
    unfold State.enterMount
    simp only [setErase_port, hr, Option.map_none]
    rfl
  case cut =>
    intro s o j step stored readBack hon hm hop hp hstatus hblock hj hpart howner hcommand hread
    have harm := not_armed_of_block0 (s := s) hblock
    rw [exec_block0Outcome (j := j) hon hop (.inr hp) hstatus (.inr ⟨hm, rfl⟩) (by exact hj) (endOp_passed harm hread),
      block0Outcome_record_wipe hpart howner, programmed_block0 hblock, if_pos (wipeCut_of_cut (by exact hcommand))]
    rfl
  case settled =>
    intro s step hcommand hop herase
    simp [State.settleCut, hcommand, hop, State.eraseBusy, herase]
  case format =>
    intro s m o j stored readBack hon hm hmount hop hp hstatus hblock hj hpart howner hread
    have harm := not_armed_of_block0 (s := s) hblock
    rw [exec_block0Outcome (j := j) hon hop (.inr hp) hstatus (.inl ⟨hm, rfl⟩) (by exact hj) (endOp_passed harm hread),
      block0Outcome_record_mount hpart howner, programmed_block0 hblock]
    simp only [State.withMount, setErase_mount, hmount, Option.map_some]
    rfl
  case marks =>
    intro s t m o stored readBack hon hm hop hstatus hlen ht
    have harm := not_armed_of_length (s := s) hlen (by decide)
    rw [ht]
    refine ⟨fun hp => ?_, fun hp hread => ?_⟩
    · by_cases hread : overlay (overlay o.bytes stored) readBack = o.bytes
      · rw [exec_mountRepairProgramOutcome hon hop (by rw [hp]; rfl) hstatus (endOp_passed harm hread), if_pos hread]
        simp only [State.takeOutcome, hp]
        rfl
      · rw [exec_mountRepairProgramOutcome hon hop (by rw [hp]; rfl) hstatus (endOp_unequal harm hread), if_neg hread]
        simp only [State.takeOutcome, hp, if_true]
        rfl
    · rw [exec_mountRepairProgramOutcome hon hop (by rw [hp]; rfl) hstatus (endOp_unequal harm hread)]
      simp only [State.takeOutcome, hp, State.virginHeaderOutcome]
      refine congrArg (fun v => Host.Outcome.next (State.settle v)) ?_
      refine (report_comm (s.programmed o stored) .program (fun t => t.withMount fun m => { m with
        repairs := addErase o.block m.repairs }) fun _ _ => rfl).trans ?_
      have hm' : (s.programmed o stored).mount = some m := hm
      simp only [State.withMount, hm']
      rfl
  case failed =>
    intro s t o j c stored readBack hon hop hp hstatus hblock hj hjb hc hread ht
    have harm := not_armed_of_block0 (s := s) hblock
    have howner : j.owner ≠ .manager := by
      rcases hc with ⟨_, ho, _⟩ | ⟨_, ho, _⟩ <;> rw [ho] <;> decide
    have hc' : s.mgmt.mode = .mount ∧ c = .mountRepairProgramOutcome (.ended stored readBack)
        ∨ s.mgmt.mode = .service ∧ c = .wipeProgramOutcome (.ended stored readBack) :=
      hc.imp (fun h => ⟨h.1, h.2.2⟩) fun h => ⟨h.1, h.2.2⟩
    have hused : (s.programmed o stored).useSlotOne j = t := by
      rw [ht, useSlotOne_eq, programmed_block0 hblock]
    have hexec : exec c s = .next ((t.report .program).countFailure j none).settle := by
      rw [exec_block0Outcome (j := j) hon hop hp hstatus hc' (by exact hj) (endOp_unequal harm hread)]
      show Host.Outcome.next
        (State.settle ((((s.programmed o stored).useSlotOne j).report .program).countFailure j none)) = _
      rw [hused]
    refine ⟨fun h => ?_, fun hv hatt hmount => ?_, fun step hv hatt hwipe hcommand => ?_⟩
    · rw [hexec, countFailure_again howner h]
      refine congrArg (fun v => Host.Outcome.next (State.settle v)) ?_
      exact report_comm t .program (fun t => t.setErase _) fun _ _ => rfl
    · rw [hexec, countFailure_block0 hv hatt hjb, block0Lost_of_mount hmount]
      refine congrArg (fun v => Host.Outcome.next (State.settle v)) ?_
      exact report_comm t .program (fun t => { t with
        array := { t.array with erase := none },
        mount := t.mount.map fun m => { m with block0Unusable := true, step := .ended, repairs := [] } }) fun _ _ => rfl
    · obtain ⟨_, _, _, _, _, _, _, hkept, hflash, harray, _, _⟩ := report_frame t .program
      have hcommand' : (t.report .program).mgmt.command = .active (.wipe step false) := by
        rw [hkept, ht]
        exact hcommand
      have huncut : (t.report .program).wipeCut = false := by simp [State.wipeCut, hcommand']
      rw [countFailure_block0 hv hatt hjb, block0Lost_of_wipe hwipe huncut] at hexec
      obtain ⟨sflash, sarray, _, _, _, smode, schange, _⟩ := enterHalted_spec ((t.report .program).setErase none)
      obtain ⟨scommand, sdata, sdone⟩ := enterHalted_of_wipe (s := (t.report .program).setErase none) hcommand'
      have hdata : (t.report .program).mgmt.data = s.mgmt.data := by
        rw [report_eq, ht]
      refine ⟨_, hexec, smode, schange, scommand, sdata.trans ?_, sdone, sflash.trans hflash, sarray.trans ?_⟩
      · exact congrArg (fun d => putData d 0 [6]) hdata
      · exact congrArg (fun a : ArrayPort => { a with erase := none }) harray

end Sys2Proof.Machine
end

section
/-! The windows by command (R110, R116 to R118, R124 to R126): WARM, WEND, WDRP. -/

namespace Sys2Proof.Machine

section
variable {s : State}

/-! ### WARM (R110) -/

theorem overlaps_eq (w first last : Nat) : s.overlaps w first last = [0, 1, 2, 3].any fun v =>
    decide (v ≠ w ∧ (s.window v).state ≠ .idle ∧ (s.window v).first ≤ last ∧ first ≤ (s.window v).last) := by
  show [0, 1, 2, 3].any _ = _
  simp only [Bool.decide_and, Bool.and_assoc]

/-- Settles O33. -/
theorem warmArmsAnIdleWindow : Obligations.WarmArmsAnIdleWindow := by
  intro s htakes
  refine exec_instr_of_takes (c := .warm) htakes ?_
  show State.runWarm (s.select 2) = _
  unfold State.runWarm
  dsimp only
  rw [overlaps_eq]
  have hlast : ∀ l : Nat, Config.storeLines ≤ l ↔ 8191 < l := fun l => Iff.rfl
  simp only [hlast]
  rfl

/-! ### WEND (R117) -/

theorem takenIn_windowCommand {c : Code} (hc : c = .wend ∨ c = .wdrp) {m : Mode} (h : m ≠ .run) : c.takenIn m = false := by
  cases m
  case run => exact absurd rfl h
  all_goals rcases hc with rfl | rfl <;> rfl

theorem runWend_of_outOfRange (h : 3 < s.param 1 1) : s.runWend = s.complete .param [] := if_pos h

theorem runWend_of_closed (hw : s.param 1 1 ≤ 3)
    (h : (s.window (s.param 1 1)).state = .idle ∨ (s.window (s.param 1 1)).state = .committing) :
    s.runWend = s.complete .state [] := by
  unfold State.runWend
  dsimp only
  rw [if_neg (by omega)]
  rcases h with h | h <;> rw [h]

theorem runWend_of_armed (hw : s.param 1 1 ≤ 3) (h : (s.window (s.param 1 1)).state = .armed) :
    s.runWend = s.complete .done [] := by
  unfold State.runWend
  dsimp only
  rw [if_neg (by omega), h]

theorem runWend_of_opened {w : Nat} (hp : s.param 1 1 = w) (hw : w < 4) (h : (s.window w).state = .opened) :
    s.runWend = (s.closeGroup w ((s.window w).group.getD 0)).complete .done [] := by
  unfold State.runWend
  dsimp only
  rw [hp, if_neg (by omega), h]

/-- The state with window `w` closed on register entry `i` (R116, R118). -/
def State.closedOn (s : State) (w g i : Nat) : State :=
  { s with windows := { s.windows with
      windows := s.windows.windows.set w { s.window w with state := .committing, register := some i, awaiting := false },
      register := s.windows.register.set i (.reserved w g) } }

/-- The COMMIT request of a close goes straight into the queue when no other waits and there is a place (R54). -/
theorem closeGroup_of_noRequest {w g i : Nat} (hw : w < s.windows.windows.length) (hi : i < 16) (hf : s.reg i = .free)
    (hl : ∀ j < i, s.reg j ≠ .free) (hr : s.queue.requests = []) :
    s.closeGroup w g = { s.closedOn w g i with
      queue := if s.queue.entries.length ≤ 15 ∧ 1 ≤ s.erasedCount then
          { s.queue with entries := s.queue.entries ++ [.commit
            { window := w, group := g, register := i, state := .pending, attempts := 0, blockAttempts := 0,
              lastBlock := none, target := none, syncMark := false }] }
        else { s.queue with requests := [{ window := w, group := g, register := i, syncMark := false }] } } := by
  rw [closeGroup_of_free s w g i hw hi hf hl]
  by_cases hplace : s.queue.entries.length ≤ 15 ∧ 1 ≤ s.erasedCount
  · rw [if_pos hplace]
    exact askCommit_of_place (s.closedOn w g i) _ hr hplace.1 hplace.2
  · rw [if_neg hplace]
    have hnone : (s.closedOn w g i).queue.requests ≠ [] ∨ 16 ≤ (s.closedOn w g i).queue.entries.length
        ∨ (s.closedOn w g i).erasedCount = 0 := by
      show s.queue.requests ≠ [] ∨ 16 ≤ s.queue.entries.length ∨ s.erasedCount = 0
      omega
    refine (askCommit_of_none (s.closedOn w g i) _ hnone).trans ?_
    have hrequests : (s.closedOn w g i).queue.requests = [] := hr
    rw [hrequests]
    rfl

theorem closeGroup_of_requests {w g i : Nat} (hw : w < s.windows.windows.length) (hi : i < 16) (hf : s.reg i = .free)
    (hl : ∀ j < i, s.reg j ≠ .free) (hr : s.queue.requests ≠ []) :
    s.closeGroup w g = { s.closedOn w g i with queue := { s.queue with
      requests := s.queue.requests ++ [{ window := w, group := g, register := i, syncMark := false }] } } := by
  rw [closeGroup_of_free s w g i hw hi hf hl]
  exact askCommit_of_none (s.closedOn w g i) _ (.inl hr)

/-- Settles O34: WEND of an OPEN window is `State.closeGroup`, split by a free register entry and by waiting requests. -/
theorem wendClosesAnOpenGroup : Obligations.WendClosesAnOpenGroup := by
  refine ⟨?otherMode, ?noEffect, ?freeEntry, ?noFreeEntry⟩
  case otherMode =>
    intro s hon hidle hmode
    exact exec_instr_of_not_takenIn (c := .wend) hon hidle (takenIn_windowCommand (.inl rfl) hmode)
  case noEffect =>
    intro s htakes
    refine ⟨fun hw => ?_, fun hw hstate => ?_, fun hw hstate => ?_⟩
    · exact exec_instr_of_takes (c := .wend) htakes (runWend_of_outOfRange hw)
    · exact exec_instr_of_takes (c := .wend) htakes (runWend_of_closed hw hstate)
    · exact exec_instr_of_takes (c := .wend) htakes (runWend_of_armed hw hstate)
  case freeEntry =>
    intro s w g i htakes hlength hp hw hstate hg hi hf hl
    have hlt : w < s.windows.windows.length := by omega
    have hrun : (s.select 2).runWend = ((s.select 2).closeGroup w g).complete .done [] := by
      rw [runWend_of_opened (s := s.select 2) hp hw hstate]
      have hgroup : ((s.select 2).window w).group = some g := hg
      rw [hgroup]
      rfl
    refine ⟨fun hr => ?_, fun hr => ?_⟩
    · refine exec_instr_of_takes (c := .wend) htakes (hrun.trans ?_)
      rw [closeGroup_of_noRequest (s := s.select 2) hlt hi hf hl hr]
      rfl
    · refine exec_instr_of_takes (c := .wend) htakes (hrun.trans ?_)
      rw [closeGroup_of_requests (s := s.select 2) hlt hi hf hl hr]
      rfl
  case noFreeEntry =>
    intro s w htakes hlength hp hw hstate hnone
    have hlt : w < s.windows.windows.length := by omega
    refine exec_instr_of_takes (c := .wend) htakes ((runWend_of_opened (s := s.select 2) hp hw hstate).trans ?_)
    rw [closeGroup_of_none (s.select 2) w _ hlt hnone]
    rfl

/-! ### WDRP (R126) -/

theorem runWdrp_of_outOfRange (h : 3 < s.param 1 1) : s.runWdrp = s.complete .param [] := if_pos h

theorem runWdrp_of_idle {w : Nat} (hp : s.param 1 1 = w) (hw : w ≤ 3) (h : (s.window w).state = .idle) :
    s.runWdrp = s.complete .state [] := by
  unfold State.runWdrp
  dsimp only
  rw [hp, if_neg (by omega), h]

theorem runWdrp_of_armed {w : Nat} (hp : s.param 1 1 = w) (hw : w ≤ 3) (h : (s.window w).state = .armed) :
    s.runWdrp = (s.disarmWindow w).complete .done [] := by
  unfold State.runWdrp
  dsimp only
  rw [hp, if_neg (by omega), h]

theorem runWdrp_of_past {w : Nat} (hp : s.param 1 1 = w) (hw : w ≤ 3) (h : (s.window w).state = .committing)
    (hpast : s.pastCommitPoint { window := w, group := (s.window w).group.getD 0 } = true) :
    s.runWdrp = s.complete .late [] := by
  unfold State.runWdrp
  dsimp only
  rw [hp, if_neg (by omega), h]
  exact if_pos hpast

theorem runWdrp_of_open {w g : Nat} (hp : s.param 1 1 = w) (hw : w ≤ 3) (hg : (s.window w).group = some g)
    (h : (s.window w).state = .opened
      ∨ (s.window w).state = .committing ∧ s.pastCommitPoint { window := w, group := g } = false) :
    s.runWdrp = (s.abortGroup w).complete .done [] := by
  unfold State.runWdrp
  dsimp only
  rw [hp, if_neg (by omega)]
  rcases h with h | ⟨h, hpast⟩
  · rw [h]
  · rw [h, hg]
    exact if_neg (by rw [Option.getD_some, hpast]; decide)

/-- A wake touches the waiting request alone (R13). -/
theorem wake_request (s : State) : ∃ r : Option Request, s.wake = { s with port := { s.port with request := r } } := by
  unfold State.wake
  split
  · exact ⟨s.port.request, rfl⟩
  · split_ifs
    · exact ⟨_, rfl⟩
    · exact ⟨s.port.request, rfl⟩

/-- The state after an abort of window `w`'s group, but for the port (R124, R70, R125). -/
def State.aborted (s : State) (w g : Nat) : State :=
  { s with
    table := (s.revertWindow w).table
    windows := s.windowsDropped w
    queue := (s.queueAbort { window := w, group := g }).queue
    mgmt := { s.mgmt with events := setEvent s.mgmt.events .groupDrop } }

theorem foldl_revert_table (xs : List ShadowEntry) {s t : State} (h : t.table = s.table) :
    (xs.foldl State.revert t).table = (xs.foldl State.revert s).table := by
  induction xs generalizing s t with
  | nil => exact h
  | cons x xs ih =>
    refine ih ?_
    unfold State.revert
    dsimp only
    rw [entry_of_table h]
    split_ifs
    · exact h
    · show Sparse.set _ t.table _ _ = Sparse.set _ s.table _ _
      rw [h]

theorem revertWindow_table {s t : State} (w : Nat) (h : t.table = s.table) (hshadow : t.windows.shadow = s.windows.shadow) :
    (t.revertWindow w).table = (s.revertWindow w).table := by
  unfold State.revertWindow
  dsimp only
  rw [hshadow]
  exact foldl_revert_table _ h

theorem abortGroup_eq {s : State} {w g : Nat} (hg : (s.window w).group = some g)
    (hw : Sparse.wf TableEntry.clear s.table = true) (hn : (s.windows.shadow.map (·.line)).Nodup) :
    s.abortGroup w = (s.aborted w g).wake := by
  unfold State.abortGroup
  dsimp only
  rw [hg]
  have hdrop := dropWindow_eq (s := s.queueAbort { window := w, group := g }) (w := w) hw hn
  have htable : ((s.queueAbort { window := w, group := g }).revertWindow w).table = (s.revertWindow w).table :=
    revertWindow_table w rfl rfl
  rw [htable] at hdrop
  refine congrArg (fun t : State => (t.raise .groupDrop).wake) hdrop

theorem window_windowsDropped {s t : State} {v w : Nat} (h : t.windows = s.windowsDropped w) (hv : v ≠ w) :
    t.window v = s.window v := by
  have hwindow : t.window v = (s.setWindow w (s.window w).dropped).window v := by
    show t.windows.windows.getD v _ = _
    rw [h]
    rfl
  rw [hwindow]
  exact window_setWindow_other s v w _ hv

theorem abort_line (g : Tag) (e : LineEntry) :
    (e.tag = some g → e.state = .pending → (QEntry.line e).abort g = none)
      ∧ (e.tag = some g → e.state = .programming → (QEntry.line e).abort g = some (.line { e with dropped := true }))
      ∧ (e.tag ≠ some g → (QEntry.line e).abort g = some (.line e)) := by
  refine ⟨fun ht hs => ?_, fun ht hs => ?_, fun ht => ?_⟩
  · simp [QEntry.abort, ht, hs]
  · simp [QEntry.abort, ht, hs]
  · simp [QEntry.abort, ht]

theorem abort_commit (g : Tag) (e : CommitEntry) :
    (e.window = g.window → e.group = g.group → e.state = .pending → (QEntry.commit e).abort g = none)
      ∧ ((e.window ≠ g.window ∨ e.group ≠ g.group ∨ e.state = .programming) →
        (QEntry.commit e).abort g = some (.commit e)) := by
  refine ⟨fun hw hg hs => ?_, fun h => ?_⟩
  · exact if_pos ⟨hw, hg, hs⟩
  · refine if_neg ?_
    rintro ⟨hw, hg, hs⟩
    rcases h with h | h | h
    · exact h hw
    · exact h hg
    · rw [hs] at h
      exact absurd h (by decide)

/-- Settles O35: the checks of WDRP, `State.abortGroup` of an OPEN window, and what an abort makes of one queue entry. -/
theorem wdrpDropsTheWindow : Obligations.WdrpDropsTheWindow := by
  refine ⟨⟨?otherMode, ?outOfRange, ?idleWindow, ?armedWindow, ?late⟩, ?openGroup, abort_line, abort_commit⟩
  case otherMode =>
    intro s hon hidle hmode
    exact exec_instr_of_not_takenIn (c := .wdrp) hon hidle (takenIn_windowCommand (.inr rfl) hmode)
  case outOfRange =>
    intro s htakes hw
    exact exec_instr_of_takes (c := .wdrp) htakes (runWdrp_of_outOfRange hw)
  case idleWindow =>
    intro s htakes hw hstate
    exact exec_instr_of_takes (c := .wdrp) htakes (runWdrp_of_idle (s := s.select 2) rfl hw hstate)
  case armedWindow =>
    intro s htakes hw hstate
    exact exec_instr_of_takes (c := .wdrp) htakes (runWdrp_of_armed (s := s.select 2) rfl hw hstate)
  case late =>
    intro s htakes hw hstate hpast
    exact exec_instr_of_takes (c := .wdrp) htakes (runWdrp_of_past (s := s.select 2) rfl hw hstate hpast)
  case openGroup =>
    intro s w g htakes hlength hwf hn hp hw hg hstate
    obtain ⟨r, hwake⟩ := wake_request ((s.select 2).aborted w g)
    have hrun : (s.select 2).runWdrp
        = State.complete { (s.select 2).aborted w g with port := { s.port with request := r } } .done [] := by
      rw [runWdrp_of_open (s := s.select 2) hp (Nat.le_of_lt_succ hw) hg hstate,
        abortGroup_eq (s := s.select 2) hg hwf hn, hwake]
      rfl
    obtain ⟨hlines, hothers⟩ := reverted_revertWindow (s := s.select 2) (w := w) hwf hn
    refine ⟨_, exec_instr_of_takes (c := .wdrp) htakes hrun, rfl, fun v hv => window_windowsDropped (s := s) rfl hv, rfl,
      hlines, hothers, ?_, ?_, rfl, rfl, rfl, rfl⟩
    · show (setEvent (setEvent s.mgmt.events .groupDrop) .cmdDone).getLsbD Event.groupDrop.bit = true
      rw [getLsbD_setEvent, getLsbD_setEvent]
      simp
    · exact complete_cmdDone _ _ _

end

end Sys2Proof.Machine
end

section
/-! Settings by command (R179 to R182): ZLCK, XCHG, POLY. -/

namespace Sys2Proof.Machine

section
variable {s : State}

/-! ### An append is asked for (R179) -/

theorem askAppend_eq (c : Code) (new : Settings) : s.askAppend c new =
    if 84 < s.mgmt.nextSettingsSlot then (s.complete .full (s.appendResults c)).wake
    else if s.array.wp then (s.complete .media (s.appendResults c)).wake
    else s.hold (.append c { new with seq := s.mgmt.nextSettingsSeq } false) := rfl

theorem runZlck_eq : s.runZlck =
    if s.mgmt.settings.locks ||| BitVec.ofNat 8 (s.param 1 1) = s.mgmt.settings.locks then
      (s.complete .done [s.mgmt.settings.locks]).wake
    else s.askAppend .zlck { s.mgmt.settings with
      locks := s.mgmt.settings.locks ||| BitVec.ofNat 8 (s.param 1 1) } := rfl

theorem runPoly_of_outOfRange
    (h : s.param 1 1 ≠ 0 ∧ s.param 1 1 ≠ 255 ∨ s.param 2 1 ≠ 1 ∧ s.param 2 1 ≠ 2 ∨ s.param 3 2 < 10 ∨ 1000 < s.param 3 2) :
    s.runPoly = (s.complete .param []).wake := if_pos h

/-- The settings record POLY asks for (R182). -/
def State.polySettings (s : State) : Settings :=
  { s.mgmt.settings with
    fill := BitVec.ofNat 8 (s.param 1 1), strict := decide (s.param 2 1 = 2), stall := s.param 3 2 }

theorem polySettings_eq_iff : s.polySettings = s.mgmt.settings ↔ s.mgmt.settings.fill = BitVec.ofNat 8 (s.param 1 1)
    ∧ s.mgmt.settings.strict = decide (s.param 2 1 = 2) ∧ s.mgmt.settings.stall = s.param 3 2 := by
  refine ⟨fun h => ⟨(congrArg Settings.fill h).symm, (congrArg Settings.strict h).symm, (congrArg Settings.stall h).symm⟩, ?_⟩
  rintro ⟨hfill, hstrict, hstall⟩
  unfold State.polySettings
  rw [← hfill, ← hstrict, ← hstall]

theorem runPoly_of_inRange (hfill : s.param 1 1 = 0 ∨ s.param 1 1 = 255) (hpolicy : s.param 2 1 = 1 ∨ s.param 2 1 = 2)
    (hlow : 10 ≤ s.param 3 2) (hhigh : s.param 3 2 ≤ 1000) : s.runPoly =
    if s.mgmt.settings.fill = BitVec.ofNat 8 (s.param 1 1) ∧ s.mgmt.settings.strict = decide (s.param 2 1 = 2)
        ∧ s.mgmt.settings.stall = s.param 3 2 then (s.complete .done []).wake
    else s.askAppend .poly s.polySettings := by
  have hrange : ¬(s.param 1 1 ≠ 0 ∧ s.param 1 1 ≠ 255 ∨ s.param 2 1 ≠ 1 ∧ s.param 2 1 ≠ 2 ∨ s.param 3 2 < 10
      ∨ 1000 < s.param 3 2) := by omega
  have hrun : s.runPoly = if s.polySettings = s.mgmt.settings then s.completeAppend .poly .done
      else s.askAppend .poly s.polySettings := if_neg hrange
  rw [hrun]
  simp only [polySettings_eq_iff]
  rfl

/-- Settles O36. -/
theorem settingsCommandsPrepareARecord : Obligations.SettingsCommandsPrepareARecord := by
  refine ⟨?zlck, ?xchg, ?polyOutOfRange, ?polyInRange⟩
  case zlck =>
    intro s htakes
    refine exec_instr_of_takes (c := .zlck) htakes ((runZlck_eq (s := s.select 2)).trans ?_)
    rw [askAppend_eq]
    rfl
  case xchg =>
    intro s htakes
    exact exec_instr_of_takes (c := .xchg) htakes (askAppend_eq .xchg _)
  case polyOutOfRange =>
    intro s htakes hout
    exact exec_instr_of_takes (c := .poly) htakes (runPoly_of_outOfRange (s := s.select 2) hout)
  case polyInRange =>
    intro s htakes hfill hpolicy hlow hhigh
    refine exec_instr_of_takes (c := .poly) htakes ((runPoly_of_inRange (s := s.select 2) hfill hpolicy hlow hhigh).trans ?_)
    rw [askAppend_eq]
    rfl

end

end Sys2Proof.Machine
end

section
/-! SYNC (R71): the marks, the head that no slot can be had for, and the completion. -/

namespace Sys2Proof.Machine

section
variable {s : State}

/-! ### Marked entries that cannot be issued (R71) -/

theorem syncBlocked_of_unnumbered {e : LineEntry} (horigin : 4294967295 ≤ s.queue.nextOrigin)
    (he : .line e ∈ s.queue.entries) (hmark : e.syncMark = true) (hnone : e.origin = none) : s.syncBlocked = true := by
  have hlast : atLast s.queue.nextOrigin = true := decide_eq_true horigin
  unfold State.syncBlocked
  rw [hlast, Bool.true_and, Bool.or_eq_true]
  exact .inl (List.any_eq_true.mpr ⟨_, he, by simp [hmark, hnone]⟩)

theorem opening_of_noOpening (h : ∀ o r, s.array.op = some o → o.purpose ≠ .opening r) : s.opening = false := by
  unfold State.opening
  split
  next o ho =>
    split
    next r hr => exact absurd hr (h o r ho)
    all_goals rfl
  next => rfl

/-- The head at the front of the queue waits for a slot that no opening can give (R71). -/
structure HeadUnplaced (s : State) (q : QEntry) (qs : List QEntry) : Prop where
  lastSeq : 4294967295 ≤ s.blocks.nextSeq
  noSlot : s.nextSlot = none
  entries : s.queue.entries = q :: qs
  pending : q.programming = false
  numberable : ∀ e, q = .line e → e.origin = none → s.queue.nextOrigin < 4294967295

theorem HeadUnplaced.headReady {q : QEntry} {qs : List QEntry} (h : HeadUnplaced s q qs) : s.headReady = true := by
  obtain ⟨_, _, hqueue, hpending, hnumber⟩ := h
  have hhead : s.head = some q := by simp [State.head, hqueue]
  have hnumberable : s.headUnnumberable = false := by
    unfold State.headUnnumberable
    rw [hhead]
    cases q with
    | commit e => rfl
    | line e =>
      cases ho : e.origin with
      | some n => simp [ho]
      | none =>
        have hlt := hnumber e rfl ho
        have hlast : atLast s.queue.nextOrigin = false := decide_eq_false (Nat.not_le.mpr hlt)
        simp [hlast]
  unfold State.headReady
  rw [hhead]
  simp [hpending, hnumberable]

theorem HeadUnplaced.headUnplaceable {q : QEntry} {qs : List QEntry} (h : HeadUnplaced s q qs)
    (hop : ∀ o r, s.array.op = some o → o.purpose ≠ .opening r) : s.headUnplaceable = true := by
  have hseq : atLast s.blocks.nextSeq = true := decide_eq_true h.lastSeq
  unfold State.headUnplaceable
  rw [h.headReady, h.noSlot, hseq, opening_of_noOpening hop]
  rfl

theorem syncBlocked_of_unplaced {q : QEntry} {qs : List QEntry} (h : HeadUnplaced s q qs)
    (hop : ∀ o r, s.array.op = some o → o.purpose ≠ .opening r) (hmark : q.marked = true) : s.syncBlocked = true := by
  have hhead : s.head = some q := by simp [State.head, h.entries]
  unfold State.syncBlocked
  rw [h.headUnplaceable hop, hhead]
  simp [hmark]

theorem syncBlocked_of_undegraded (h : s.degraded = false) : s.syncBlocked = false := by
  unfold State.degraded at h
  simp only [Bool.or_eq_false_iff] at h
  obtain ⟨⟨⟨_, horigin⟩, _⟩, hseq⟩ := h
  unfold State.syncBlocked State.headUnplaceable
  rw [horigin, hseq]
  simp

/-! ### The marks (R71) -/

/-- The entry with a sync mark. -/
def QEntry.withMark : QEntry → QEntry
  | .line e => .line { e with syncMark := true }
  | .commit e => .commit { e with syncMark := true }

theorem markAll_entries (s : State) : s.markAll.queue.entries = s.queue.entries.map QEntry.withMark :=
  List.map_congr_left fun q _ => by cases q <;> rfl

@[simp] theorem withMark_marked (q : QEntry) : q.withMark.marked = true := by
  cases q <;> rfl

@[simp] theorem withMark_programming (q : QEntry) : q.withMark.programming = q.programming := by
  cases q <;> rfl

theorem markAll_headUnplaced {q : QEntry} {qs : List QEntry} (h : HeadUnplaced s q qs) :
    HeadUnplaced s.markAll q.withMark (qs.map QEntry.withMark) where
  lastSeq := h.lastSeq
  noSlot := h.noSlot
  entries := by rw [markAll_entries, h.entries, List.map_cons]
  pending := by rw [withMark_programming, h.pending]
  numberable := by
    intro e he ho
    cases q with
    | commit x => cases he
    | line x =>
      cases he
      exact h.numberable x rfl ho

theorem runSync_eq (h : s.queue.entries ≠ []) : s.runSync =
    if s.mgmt.mode = .halted ∨ s.markAll.syncBlocked = true then s.markAll.complete .media []
    else s.markAll.hold (.sync false) := if_neg h

/-! ### The completion (R71) -/

theorem endSync_eq {discarded : Bool} (h : s.mgmt.command = .active (.sync discarded)) : s.endSync =
    if s.marksRemain = false ∧ s.marksOwed = false then s.complete (if discarded then .media else .done) []
    else if s.syncBlocked then s.complete .media []
    else s := by
  unfold State.endSync
  rw [h]

theorem exec_syncCompletion_on (hon : s.power = .on) : exec .syncCompletion s = .next s.endSync.settle :=
  taken_on s State.endSync hon

theorem endSync_of_blocked {discarded : Bool} {q : QEntry} (h : s.mgmt.command = .active (.sync discarded))
    (hq : q ∈ s.queue.entries) (hmark : q.marked = true) (hblocked : s.syncBlocked = true) :
    s.endSync = s.complete .media [] := by
  have hremain : s.marksRemain = true := List.any_eq_true.mpr ⟨q, hq, hmark⟩
  rw [endSync_eq h, if_neg (by simp [hremain]), if_pos hblocked]

/-- Settles O37: SYNC when taken, and the completion of a waiting one, by whether a marked entry is blocked. -/
theorem syncMarksAndCompletes : Obligations.SyncMarksAndCompletes := by
  refine ⟨?emptyQueue, ?waits, ?noMark, ?takenBlocked, ?endedBlocked⟩
  case emptyQueue =>
    intro s htakes hempty
    exact exec_instr_of_takes (c := .sync) htakes (if_pos hempty)
  case waits =>
    intro s htakes hentries hmode hdegraded
    refine exec_instr_of_takes (c := .sync) htakes ((runSync_eq (s := s.select 2) hentries).trans (if_neg ?_))
    rintro (hhalted | hblocked)
    · exact hmode hhalted
    · have hunblocked : (s.select 2).markAll.syncBlocked = false := syncBlocked_of_undegraded hdegraded
      rw [hunblocked] at hblocked
      exact absurd hblocked (by decide)
  case noMark =>
    intro s discarded hon hcommand hentries hrequests
    have hremain : s.marksRemain = false := List.any_eq_false.mpr fun q hq => by simp [hentries q hq]
    have howed : s.marksOwed = false := List.any_eq_false.mpr fun r hr => by simp [hrequests r hr]
    rw [exec_syncCompletion_on hon, endSync_eq hcommand, if_pos ⟨hremain, howed⟩]
  case takenBlocked =>
    intro s htakes hentries hwhy
    refine exec_instr_of_takes (c := .sync) htakes ((runSync_eq (s := s.select 2) hentries).trans (if_pos ?_))
    rcases hwhy with hhalted | ⟨horigin, e, he, hnone⟩ | ⟨hseq, hslot, hop, q, qs, hqueue, hpending, hnumber⟩
    · exact .inl hhalted
    · refine .inr (syncBlocked_of_unnumbered (e := { e with syncMark := true }) horigin ?_ rfl hnone)
      rw [markAll_entries]
      exact List.mem_map.mpr ⟨_, he, rfl⟩
    · have hunplaced : HeadUnplaced (s.select 2) q qs := ⟨hseq, hslot, hqueue, hpending, hnumber⟩
      exact .inr (syncBlocked_of_unplaced (markAll_headUnplaced hunplaced) hop (withMark_marked q))
  case endedBlocked =>
    intro s discarded hon hcommand hwhy
    rw [exec_syncCompletion_on hon]
    rcases hwhy with ⟨horigin, e, he, hmark, hnone⟩ | ⟨hseq, hslot, hop, q, qs, hqueue, hmark, hpending, hnumber⟩
    · rw [endSync_of_blocked hcommand he hmark (syncBlocked_of_unnumbered horigin he hmark hnone)]
    · have hunplaced : HeadUnplaced s q qs := ⟨hseq, hslot, hqueue, hpending, hnumber⟩
      rw [endSync_of_blocked hcommand (q := q) (by simp [hqueue]) hmark (syncBlocked_of_unplaced hunplaced hop hmark)]

end

end Sys2Proof.Machine
end

section
/-! What SVCE and RSTS make of the windows (R127, R183, R185): every OPEN group is aborted, an ARMED window is disarmed, a
group past its commit point is kept. -/

namespace Sys2Proof.Machine

/-- The group of window `w` is aborted when the windows are stopped (R127). -/
def State.groupGone (s : State) (w : Nat) : Bool :=
  decide ((s.window w).state = .opened)
    || decide ((s.window w).state = .committing)
      && !s.pastCommitPoint { window := w, group := (s.window w).group.getD 0 }

/-- The queue's entries with window `w`'s group aborted (R70). -/
def State.abortIn (s : State) (qs : List QEntry) (w : Nat) : List QEntry :=
  qs.filterMap (QEntry.abort { window := w, group := (s.window w).group.getD 0 })

/-- What the aborts of the groups of the windows `ws` have made of `s`, but for the windows themselves (R70, R124, R125). -/
structure GroupsAborted (s t : State) (ws : List Nat) : Prop where
  length : t.windows.windows.length = s.windows.windows.length
  wf : Sparse.wf TableEntry.clear t.table = true
  shadow : t.windows.shadow = s.windows.shadow.filter fun e => !decide (e.window ∈ ws)
  reg : ∀ i, t.reg i = if (ws.any fun w => decide ((s.window w).register = some i)) then .free else s.reg i
  line : ∀ e ∈ s.windows.shadow, e.window ∈ ws → t.entry e.line = (s.entry e.line).reverted e
  other : ∀ l, (∀ e ∈ s.windows.shadow, e.window ∈ ws → e.line ≠ l) → t.entry l = s.entry l
  queue : t.queue = { s.queue with
    entries := ws.foldl s.abortIn s.queue.entries,
    requests := s.queue.requests.filter fun r =>
      !(decide (r.window ∈ ws) && decide ((s.window r.window).group = some r.group)) }
  past : ∀ v ∉ ws, ∀ g, t.pastCommitPoint { window := v, group := g } = s.pastCommitPoint { window := v, group := g }
  event : ∀ v : Event, t.eventSet v = (s.eventSet v || decide (v = .groupDrop) && !ws.isEmpty)
  mgmt : t.mgmt = { s.mgmt with events := t.mgmt.events }
  rest : t.blocks = s.blocks ∧ t.array = s.array ∧ t.health = s.health ∧ t.drain = s.drain ∧ t.flash = s.flash

theorem GroupsAborted.refl (s : State) (hwf : Sparse.wf TableEntry.clear s.table = true) : GroupsAborted s s [] where
  length := rfl
  wf := hwf
  shadow := by simp
  reg := fun i => by simp
  line := fun e _ he => absurd he List.not_mem_nil
  other := fun l _ => rfl
  queue := by simp
  past := fun v _ g => rfl
  event := fun v => by simp
  mgmt := rfl
  rest := ⟨rfl, rfl, rfl, rfl, rfl⟩

/-! ### A disarmed window (R124) -/

theorem GroupsAborted.setWindow {s t : State} {ws : List Nat} (h : GroupsAborted s t ws) (w : Nat) (x : Window) :
    GroupsAborted s (t.setWindow w x) ws where
  length := (List.length_set ..).trans h.length
  wf := h.wf
  shadow := h.shadow
  reg := h.reg
  line := h.line
  other := h.other
  queue := h.queue
  past := h.past
  event := h.event
  mgmt := h.mgmt
  rest := h.rest

/-! ### An aborted group (R124) -/

theorem revertWindow_wf {s : State} {w : Nat} (hw : Sparse.wf TableEntry.clear s.table = true)
    (hn : (s.windows.shadow.map (·.line)).Nodup) : Sparse.wf TableEntry.clear (s.revertWindow w).table = true := by
  have hsub : (s.windows.shadow.filter fun e => decide (e.window = w)).Sublist s.windows.shadow := List.filter_sublist
  obtain ⟨_, hwf, _, _⟩ := foldl_revert_spec _ s hw (hn.sublist (hsub.map _))
  exact hwf

theorem pastCommitPoint_queueAbort {s : State} {t : Tag} {v g : Nat} (hv : v ≠ t.window) :
    (s.queueAbort t).pastCommitPoint { window := v, group := g } = s.pastCommitPoint { window := v, group := g } := by
  show (s.queue.entries.filterMap (QEntry.abort t)).any _ = s.queue.entries.any _
  induction s.queue.entries with
  | nil => rfl
  | cons q qs ih =>
    rw [List.any_cons, ← ih]
    cases q with
    | line e =>
      by_cases htag : e.tag = some t
      · by_cases hstate : e.state = .pending
        · simp [QEntry.abort, htag, hstate]
        · simp [QEntry.abort, htag, hstate]
      · simp [QEntry.abort, htag]
    | commit e =>
      by_cases hgone : e.window = t.window ∧ e.group = t.group ∧ e.state = .pending
      · have hother : e.window ≠ v := fun he => hv (he ▸ hgone.1)
        simp [QEntry.abort, hgone, hgone.1 ▸ hother]
      · simp [QEntry.abort, hgone]

theorem reg_windowsDropped {s t : State} {w : Nat} (h : t.windows = s.windowsDropped w) (i : Nat) :
    t.reg i = if (s.window w).register = some i then .free else s.reg i := by
  unfold State.reg
  rw [h]
  show List.getD (match (s.window w).register with
    | some j => s.windows.register.set j .free
    | none => s.windows.register) i .free = _
  cases (s.window w).register with
  | none => rfl
  | some j =>
    by_cases hj : j = i
    · subst hj
      simp only [List.getD, List.getElem?_set, if_true]
      split_ifs <;> rfl
    · simp [List.getD, List.getElem?_set_ne hj, hj]

theorem line_ne_of_window_ne {xs : List ShadowEntry} (hn : (xs.map (·.line)).Nodup) {x y : ShadowEntry} (hx : x ∈ xs)
    (hy : y ∈ xs) (h : x.window ≠ y.window) : x.line ≠ y.line := fun hline =>
  h (congrArg ShadowEntry.window (List.inj_on_of_nodup_map hn hx hy hline))

theorem GroupsAborted.abort {s t u : State} {ws : List Nat} {w g : Nat} (h : GroupsAborted s t ws)
    (hn : (s.windows.shadow.map (·.line)).Nodup) (hwindow : t.window w = s.window w)
    (hg : (s.window w).group = some g) (hw : w ∉ ws) (hu : u = t.aborted w g) :
    GroupsAborted s u (ws ++ [w]) := by
  have hsub : t.windows.shadow.Sublist s.windows.shadow := h.shadow ▸ List.filter_sublist
  have hnt : (t.windows.shadow.map (·.line)).Nodup := hn.sublist (hsub.map _)
  have hmem : ∀ x ∈ s.windows.shadow, x.window = w → x ∈ t.windows.shadow := fun x hx hxw => by
    rw [h.shadow, List.mem_filter]
    exact ⟨hx, by simpa [hxw] using hw⟩
  obtain ⟨hlines, hothers⟩ : Reverted t (t.aborted w g) w :=
    (reverted_revertWindow h.wf hnt).of_tables rfl rfl rfl
  subst hu
  exact {
    length := (List.length_set ..).trans h.length
    wf := revertWindow_wf h.wf hnt
    shadow := by
      show (t.windows.shadow.filter fun e => !decide (e.window = w)) = _
      rw [h.shadow, List.filter_filter]
      refine List.filter_congr fun e _ => ?_
      simp only [List.mem_append, List.mem_singleton]
      by_cases h1 : e.window = w <;> by_cases h2 : e.window ∈ ws <;> simp [h1, h2]
    reg := fun i => by
      rw [reg_windowsDropped (s := t) rfl, h.reg, hwindow]
      simp only [List.any_append, List.any_cons, List.any_nil, Bool.or_false, Bool.or_eq_true, decide_eq_true_eq]
      by_cases h1 : (s.window w).register = some i <;> simp [h1]
    line := fun e he hews => by
      rcases List.mem_append.mp hews with hold | hnew
      · rw [hothers e.line fun x hx hxw => line_ne_of_window_ne hn (hsub.subset hx) he fun heq => hw (hxw ▸ heq ▸ hold)]
        exact h.line e he hold
      · have hew : e.window = w := List.mem_singleton.mp hnew
        rw [hlines e (hmem e he hew) hew]
        rw [h.other e.line fun x hx hxw => line_ne_of_window_ne hn hx he fun heq => hw (hew ▸ heq ▸ hxw)]
    other := fun l hl => by
      rw [hothers l fun x hx hxw => hl x (hsub.subset hx) (by simp [hxw])]
      exact h.other l fun x hx hxw => hl x hx (by simp [hxw])
    queue := by
      show { t.queue with
        entries := t.queue.entries.filterMap (QEntry.abort { window := w, group := g }),
        requests := t.queue.requests.filter fun r => !(decide (r.window = w) && decide (r.group = g)) } = _
      rw [h.queue, List.foldl_append, List.filter_filter]
      have habort : ∀ qs : List QEntry, [w].foldl s.abortIn qs
          = qs.filterMap (QEntry.abort { window := w, group := g }) := fun qs => by
        show qs.filterMap (QEntry.abort { window := w, group := (s.window w).group.getD 0 }) = _
        rw [hg]
        rfl
      have hrequest : ∀ r : CommitRequest, (!(decide (r.window = w) && decide (r.group = g))
            && !(decide (r.window ∈ ws) && decide ((s.window r.window).group = some r.group)))
          = !(decide (r.window ∈ ws ++ [w]) && decide ((s.window r.window).group = some r.group)) := fun r => by
        simp only [List.mem_append, List.mem_singleton]
        by_cases h1 : r.window = w
        · by_cases h2 : r.group = g
          · simp [h1, h2, hg, hw]
          · simp [h1, h2, hg, hw, Ne.symm h2]
        · simp [h1]
      rw [habort, List.filter_congr fun r _ => hrequest r]
    past := fun v hv k => by
      have hvw : v ≠ w ∧ v ∉ ws := by simpa [and_comm] using hv
      have habort : (t.aborted w g).pastCommitPoint { window := v, group := k }
          = (t.queueAbort { window := w, group := g }).pastCommitPoint { window := v, group := k } := rfl
      rw [habort, pastCommitPoint_queueAbort hvw.1, h.past v hvw.2]
    event := fun v => by
      have hevent : (t.aborted w g).eventSet v = (t.eventSet v || decide (v = .groupDrop)) := getLsbD_setEvent ..
      rw [hevent, h.event]
      cases s.eventSet v <;> by_cases hv : v = .groupDrop <;> simp [hv]
    mgmt := by
      show { t.mgmt with events := setEvent t.mgmt.events .groupDrop } = _
      rw [h.mgmt]
      rfl
    rest := h.rest }

/-! ### The windows stopped one after the other (R127) -/

theorem stopWindow_of_gone {s : State} {w : Nat} (h : s.groupGone w = true) : s.stopWindow w = s.abortGroup w := by
  unfold State.groupGone at h
  unfold State.stopWindow
  dsimp only
  cases hstate : (s.window w).state with
  | opened => rfl
  | committing =>
    have hpast : s.pastCommitPoint { window := w, group := (s.window w).group.getD 0 } = false := by
      simpa [hstate] using h
    exact if_neg (by simp [hpast])
  | idle | armed => simp [hstate] at h

theorem stopWindow_of_kept {s : State} {w : Nat} (h : s.groupGone w = false) :
    s.stopWindow w = if (s.window w).state = .armed then s.disarmWindow w else s := by
  unfold State.groupGone at h
  unfold State.stopWindow
  dsimp only
  cases hstate : (s.window w).state with
  | opened => simp [hstate] at h
  | committing =>
    have hpast : s.pastCommitPoint { window := w, group := (s.window w).group.getD 0 } = true := by
      simpa [hstate] using h
    exact if_pos hpast
  | idle | armed => rfl

theorem GroupsAborted.setPort {s t : State} {ws : List Nat} (h : GroupsAborted s t ws) (p : Port) :
    GroupsAborted s { t with port := p } ws where
  length := h.length
  wf := h.wf
  shadow := h.shadow
  reg := h.reg
  line := h.line
  other := h.other
  queue := h.queue
  past := h.past
  event := h.event
  mgmt := h.mgmt
  rest := h.rest

/-- The window as a stop leaves it (R127). -/
def State.afterStop (s : State) (w : Nat) : Window :=
  if s.groupGone w = true ∨ (s.window w).state = .armed then (s.window w).dropped else s.window w

theorem GroupsAborted.stopWindow {s t : State} {ws : List Nat} {w : Nat} (h : GroupsAborted s t ws)
    (hn : (s.windows.shadow.map (·.line)).Nodup) (hwindow : t.window w = s.window w)
    (hg : s.groupGone w = true → (s.window w).group.isSome = true) (hlt : w < s.windows.windows.length) (hw : w ∉ ws) :
    GroupsAborted s (t.stopWindow w) (ws ++ [w].filter s.groupGone) ∧ (t.stopWindow w).window w = s.afterStop w
      ∧ ∀ v, v ≠ w → (t.stopWindow w).window v = t.window v := by
  have hgone : t.groupGone w = s.groupGone w := by
    unfold State.groupGone
    rw [hwindow, h.past w hw]
  have hlt' : w < t.windows.windows.length := h.length ▸ hlt
  unfold State.afterStop
  cases hs : s.groupGone w with
  | true =>
    obtain ⟨g, hgroup⟩ := Option.isSome_iff_exists.mp (hg hs)
    have hsub : t.windows.shadow.Sublist s.windows.shadow := h.shadow ▸ List.filter_sublist
    obtain ⟨r, hwake⟩ := wake_request (t.aborted w g)
    have hstop : t.stopWindow w = { t.aborted w g with port := { t.port with request := r } } := by
      rw [stopWindow_of_gone (hgone.trans hs), abortGroup_eq (hwindow ▸ hgroup) h.wf (hn.sublist (hsub.map _)), hwake]
      rfl
    have hset : (t.stopWindow w).windows.windows = (t.setWindow w (t.window w).dropped).windows.windows := by
      rw [hstop]
      rfl
    have hat : ∀ v, (t.stopWindow w).window v = (t.setWindow w (t.window w).dropped).window v := fun v => by
      unfold State.window
      rw [hset]
      rfl
    refine ⟨?_, ?_, fun v hv => ?_⟩
    · rw [hstop, List.filter_cons_of_pos hs, List.filter_nil]
      exact (h.abort hn hwindow hgroup hw rfl).setPort _
    · rw [hat, window_setWindow _ _ _ hlt', hwindow, if_pos (.inl rfl)]
    · rw [hat, window_setWindow_other _ _ _ _ hv]
  | false =>
    rw [stopWindow_of_kept (hgone.trans hs), List.filter_cons_of_neg (by simp [hs]), List.filter_nil, List.append_nil, hwindow]
    by_cases harmed : (s.window w).state = .armed
    · rw [if_pos harmed, if_pos (.inr harmed)]
      refine ⟨h.setWindow _ _, ?_, fun v hv => window_setWindow_other _ _ _ _ hv⟩
      rw [← hwindow]
      exact window_setWindow _ _ _ hlt'
    · rw [if_neg harmed, if_neg (by simp [harmed])]
      exact ⟨h, hwindow, fun v _ => rfl⟩

/-- The four windows are stopped (R127): the groups that are gone are aborted, in the order of the windows. -/
theorem stopWindows_spec {s : State} (hlength : s.windows.windows.length = 4)
    (hwf : Sparse.wf TableEntry.clear s.table = true) (hn : (s.windows.shadow.map (·.line)).Nodup)
    (hg : ∀ w < 4, s.groupGone w = true → (s.window w).group.isSome = true) :
    GroupsAborted s s.stopWindows ([0, 1, 2, 3].filter s.groupGone)
      ∧ ∀ w < 4, s.stopWindows.window w = s.afterStop w := by
  have hnot : ∀ {w : Nat} {ws : List Nat}, w ∉ ws → w ∉ ws.filter s.groupGone := fun hw hmem =>
    hw (List.mem_of_mem_filter hmem)
  obtain ⟨h0, hw0, hv0⟩ := (GroupsAborted.refl s hwf).stopWindow (w := 0) hn rfl (hg 0 (by omega)) (by omega) (by simp)
  obtain ⟨h1, hw1, hv1⟩ := h0.stopWindow (w := 1) hn (hv0 1 (by omega)) (hg 1 (by omega)) (by omega) (hnot (by simp))
  rw [List.nil_append, ← List.filter_append] at h1
  obtain ⟨h2, hw2, hv2⟩ := h1.stopWindow (w := 2) hn ((hv1 2 (by omega)).trans (hv0 2 (by omega))) (hg 2 (by omega))
    (by omega) (hnot (by simp))
  rw [← List.filter_append] at h2
  obtain ⟨h3, hw3, hv3⟩ := h2.stopWindow (w := 3) hn
    ((hv2 3 (by omega)).trans ((hv1 3 (by omega)).trans (hv0 3 (by omega)))) (hg 3 (by omega)) (by omega) (hnot (by simp))
  rw [← List.filter_append] at h3
  refine ⟨h3, fun w hw => ?_⟩
  unfold State.stopWindows
  interval_cases w
  · rw [hv3 0 (by omega), hv2 0 (by omega), hv1 0 (by omega), hw0]
  · rw [hv3 1 (by omega), hv2 1 (by omega), hw1]
  · rw [hv3 2 (by omega), hw2]
  · exact hw3

end Sys2Proof.Machine
end

section
/-! SVCE, RSTS and WIPE when they are taken (R127, R183, R185, R186). -/

namespace Sys2Proof.Machine

section
variable {s t : State} {c : Instr} {a : Activity}

/-- Command `c` is SVCE or RSTS, is taken, and `a` is what it begins (R183, R185). -/
def State.beginsStop (s : State) (c : Instr) (a : Activity) : Prop :=
  c = .svce ∧ s.takes .svce = true ∧ a = .svce false ∨ c = .rsts ∧ s.takes .rsts = true ∧ a = .rsts false

theorem exec_stop (h : s.beginsStop c a) : exec c s = .next ((s.select 2).hold a).stopWindows.markAll.settle := by
  rcases h with ⟨rfl, htakes, rfl⟩ | ⟨rfl, htakes, rfl⟩
  · exact exec_instr_of_takes (c := .svce) htakes rfl
  · exact exec_instr_of_takes (c := .rsts) htakes rfl

theorem commandHold_of_beginsStop (h : s.beginsStop c a) (ht : t.mgmt.command = .active a) : t.commandHold = true := by
  unfold State.commandHold
  rw [ht]
  rcases h with ⟨_, _, rfl⟩ | ⟨_, _, rfl⟩ <;> rfl

theorem markAll_queue (s : State) : s.markAll.queue = { s.queue with
    entries := s.queue.entries.map (fun q => match q with
      | .line e => .line { e with syncMark := true }
      | .commit e => .commit { e with syncMark := true }),
    requests := s.queue.requests.map fun r => { r with syncMark := true } } := rfl

theorem not_isEmpty_filter {α : Type} (p : α → Bool) (xs : List α) : (!(xs.filter p).isEmpty) = xs.any p := by
  induction xs with
  | nil => rfl
  | cons x xs ih => cases hx : p x <;> simp [hx, ih]

theorem runWipe_eq (s : State) : s.runWipe =
    if s.array.wp then s.complete .media []
    else if s.drain.pfw then s.complete .cut []
    else (s.hold (.wipe (.data 1) false)).setErase none := rfl

/-- Settles O38: with every window IDLE the stop changes nothing; otherwise it is `stopWindows_spec`. -/
theorem serviceCommandsBegin : Obligations.ServiceCommandsBegin := by
  refine ⟨?idleWindows, ?windows, ?wipe⟩
  case idleWindows =>
    intro s t c a hc hidle ht
    have hstop : ((s.select 2).hold a).stopWindows = (s.select 2).hold a :=
      stopWindows_of_idle ((s.select 2).hold a) hidle
    refine ⟨?_, commandHold_of_beginsStop hc (by rw [ht])⟩
    rw [exec_stop hc, hstop, ht]
    rfl
  case windows =>
    intro s c a gone hc hlength hwf hn hgone hgroup
    have hgroupGone : ∀ w, gone w = (decide (w < 4) && s.groupGone w) := hgone
    have hlt : ∀ w < 4, gone w = s.groupGone w := fun w hw => by rw [hgroupGone, decide_eq_true hw, Bool.true_and]
    have hmem : ∀ w, w ∈ [0, 1, 2, 3].filter gone ↔ gone w = true := fun w => by
      rw [List.mem_filter, hgroupGone, Bool.and_eq_true, decide_eq_true_eq]
      simp
      omega
    obtain ⟨hstopped, hwindow⟩ := stopWindows_spec (s := (s.select 2).hold a) hlength hwf hn
      fun w hw hs => hgroup w ((hlt w hw).trans hs)
    have hfilter : [0, 1, 2, 3].filter ((s.select 2).hold a).groupGone = [0, 1, 2, 3].filter gone :=
      List.filter_congr fun w hw => (hlt w (by simp at hw; omega)).symm
    rw [hfilter] at hstopped
    obtain ⟨hblocks, harray, hhealth, hdrain, hflash⟩ := hstopped.rest
    have hcommand : ((s.select 2).hold a).stopWindows.markAll.mgmt.command = .active a := by
      show ((s.select 2).hold a).stopWindows.mgmt.command = _
      rw [hstopped.mgmt]
      rfl
    refine ⟨_, exec_stop hc, commandHold_of_beginsStop hc hcommand, ?_, ?_, ?_, ?_, ?_, ?_, ?_, hstopped.mgmt, hblocks, harray,
      hhealth, hdrain, hflash⟩
    · intro w hw
      rw [hlt w hw]
      exact hwindow w hw
    · exact hstopped.shadow.trans (List.filter_congr fun e _ => by simp only [hmem, Bool.decide_eq_true])
    · intro i
      refine (hstopped.reg i).trans ?_
      rw [List.any_filter]
      rfl
    · exact fun e he hegone => hstopped.line e he ((hmem e.window).mpr hegone)
    · exact fun l hl => hstopped.other l fun e he hews => hl e he ((hmem e.window).mp hews)
    · rw [markAll_queue, hstopped.queue, List.foldl_filter]
      simp only [hmem, Bool.decide_eq_true]
      rfl
    · intro v
      refine (hstopped.event v).trans ?_
      rw [not_isEmpty_filter]
      simp only [List.any_cons, List.any_nil, Bool.or_false, Bool.or_assoc]
      rfl
  case wipe =>
    intro s htakes
    exact exec_instr_of_takes (c := .wipe) htakes (runWipe_eq (s.select 2))

end

end Sys2Proof.Machine
end

section
/-! The entries to MOUNT by command (R134, R173, R184, R185): SVCX, and step 5 of RSTS. -/

namespace Sys2Proof.Machine

section
variable {s : State} {discarded : Bool}

theorem exec_softReset_on (hon : s.power = .on) : exec .softReset s = .next s.trySoftReset.settle :=
  taken_on s State.trySoftReset hon

theorem marksRemain_of_empty (h : s.queue.entries = []) : s.marksRemain = false := by
  unfold State.marksRemain
  rw [h]
  rfl

theorem syncStepOver_of_empty (h : s.queue.entries = []) : s.syncStepOver = true := by
  unfold State.syncStepOver
  rw [marksRemain_of_empty h]
  rfl

theorem flashQuiet_of (hop : s.array.op = none) (hbusy : s.eraseBusy = false) : s.flashQuiet = true := by
  unfold State.flashQuiet
  rw [hop, hbusy]
  rfl

/-- Steps 3 and 4 of RSTS are over once the queue is empty (R185). -/
theorem resetReady_of_empty (hqueue : s.queue.entries = []) (hmode : s.mgmt.mode = .run ∨ s.mgmt.mode = .readonly
    ∨ s.mgmt.mode = .drain ∨ s.mgmt.mode = .service ∨ s.mgmt.mode = .mount ∧ s.array.timeouts < 3) :
    s.resetReady = true := by
  have hover := syncStepOver_of_empty hqueue
  unfold State.resetReady
  rcases hmode with hm | hm | hm | hm | ⟨hm, htimeouts⟩ <;> rw [hm]
  · exact hover
  · exact hover
  · exact decide_eq_true hqueue
  · have hflash : s.flashLost = false := decide_eq_false (Nat.not_le.mpr htimeouts)
    rw [hflash]
    rfl

theorem trySoftReset_of_ready (hcommand : s.mgmt.command = .active (.rsts discarded)) (hready : s.resetReady = true)
    (hquiet : s.flashQuiet = true) :
    s.trySoftReset = s.softReset (if discarded || s.marksRemain then .media else .done) := by
  unfold State.trySoftReset
  rw [hcommand]
  exact if_pos ⟨hready, hquiet⟩

/-- Settles O39. -/
theorem svcxAndRstsEnterMount : Obligations.SvcxAndRstsEnterMount := by
  refine ⟨?svcx, ?rsts⟩
  case svcx =>
    intro s htakes
    exact exec_instr_of_takes (c := .svcx) htakes rfl
  case rsts =>
    intro s discarded hon hcommand hmode hop hbusy hqueue
    rw [exec_softReset_on hon, trySoftReset_of_ready hcommand (resetReady_of_empty hqueue hmode) (flashQuiet_of hop hbusy),
      marksRemain_of_empty hqueue]
    cases discarded <;> rfl

end

end Sys2Proof.Machine
end

section
/-! Step 5 of SVCE (R183): the entries that remain are discarded, every window is stopped, SERVICE is entered. -/

namespace Sys2Proof.Machine

/-! ### What a discarded entry and a stopped window leave (R123, R124, R183) -/

theorem foldl_revert_windows (xs : List ShadowEntry) (s : State) : (xs.foldl State.revert s).windows = s.windows := by
  induction xs generalizing s with
  | nil => rfl
  | cons x xs ih =>
    refine (ih _).trans ?_
    unfold State.revert
    dsimp only
    split_ifs <;> rfl

theorem wake_windows (s : State) : s.wake.windows = s.windows := by
  unfold State.wake
  split
  · rfl
  · split_ifs <;> rfl

theorem revertWindow_windows (s : State) (w : Nat) : (s.revertWindow w).windows
    = { s.windows with shadow := s.windows.shadow.filter fun e => !decide (e.window = w) } := by
  unfold State.revertWindow
  dsimp only
  rw [foldl_revert_windows]

theorem freeRegisterOf_shadow (s : State) (x : Window) : (s.freeRegisterOf x).windows.shadow = s.windows.shadow
    ∧ (s.freeRegisterOf x).windows.windows = s.windows.windows := by
  unfold State.freeRegisterOf
  split <;> exact ⟨rfl, rfl⟩

theorem lostCommit_windows (s : State) (w : Nat) :
    (s.lostCommit w).windows.shadow = s.windows.shadow.filter (fun e => !decide (e.window = w))
      ∧ (s.lostCommit w).windows.windows = s.windows.windows.set w (s.window w).dropped := by
  obtain ⟨hshadow, hwindows⟩ := freeRegisterOf_shadow (s.revertWindow w) (s.window w)
  rw [revertWindow_windows] at hshadow hwindows
  unfold State.lostCommit
  rw [wake_windows]
  exact ⟨hshadow, congrArg (fun xs => List.set xs w (s.window w).dropped) hwindows⟩

theorem lostCommit_mgmt (s : State) (w : Nat) :
    (s.lostCommit w).mgmt = { s.mgmt with events := setEvent s.mgmt.events .groupDrop } := by
  unfold State.lostCommit
  dsimp only
  rw [wake_mgmt, raise_mgmt, setWindow_mgmt, freeRegisterOf_mgmt, revertWindow_mgmt]

theorem abortGroup_windows (s : State) (w : Nat) :
    (s.abortGroup w).windows.shadow = s.windows.shadow.filter (fun e => !decide (e.window = w))
      ∧ (s.abortGroup w).windows.windows = s.windows.windows.set w (s.window w).dropped := by
  unfold State.abortGroup
  rw [wake_windows]
  cases (s.window w).group with
  | none =>
    obtain ⟨hshadow, hwindows⟩ := freeRegisterOf_shadow (s.revertWindow w) (s.window w)
    rw [revertWindow_windows] at hshadow hwindows
    exact ⟨hshadow, congrArg (fun xs => List.set xs w (s.window w).dropped) hwindows⟩
  | some g =>
    obtain ⟨hshadow, hwindows⟩ :=
      freeRegisterOf_shadow ((s.queueAbort { window := w, group := g }).revertWindow w) (s.window w)
    rw [revertWindow_windows] at hshadow hwindows
    exact ⟨hshadow, congrArg (fun xs => List.set xs w (s.window w).dropped) hwindows⟩

theorem queueAbort_of_empty {s : State} (t : Tag) (hentries : s.queue.entries = []) (hrequests : s.queue.requests = []) :
    (s.queueAbort t).queue = s.queue := by
  unfold State.queueAbort
  rw [hentries, hrequests]
  show { s.queue with entries := [], requests := [] } = s.queue
  rw [← hentries, ← hrequests]

theorem abortGroup_queue_of_empty {s : State} (w : Nat) (hentries : s.queue.entries = [])
    (hrequests : s.queue.requests = []) : (s.abortGroup w).queue = s.queue := by
  unfold State.abortGroup
  dsimp only
  rw [wake_queue, raise_queue, setWindow_queue, freeRegisterOf_queue, revertWindow_queue]
  split
  · exact queueAbort_of_empty _ hentries hrequests
  · rfl

/-! ### What goes on holding while windows are stopped and entries discarded -/

/-- From `s` to `t` the windows' number, the data and the parts below them are kept, events are only raised and shadow entries
only released. -/
structure Withdraws (s t : State) : Prop where
  queue : t.queue = s.queue
  shadow : t.windows.shadow ⊆ s.windows.shadow
  length : t.windows.windows.length = s.windows.windows.length
  event : ∀ v : Event, s.eventSet v = true → t.eventSet v = true
  data : t.mgmt.data = s.mgmt.data
  array : t.array = s.array
  blocks : t.blocks = s.blocks
  flash : t.flash = s.flash
  health : t.health = s.health

theorem Withdraws.refl (s : State) : Withdraws s s :=
  ⟨rfl, List.Subset.refl _, rfl, fun _ h => h, rfl, rfl, rfl, rfl, rfl⟩

theorem Withdraws.trans {s t u : State} (h : Withdraws s t) (k : Withdraws t u) : Withdraws s u where
  queue := k.queue.trans h.queue
  shadow := List.Subset.trans k.shadow h.shadow
  length := k.length.trans h.length
  event := fun v hv => k.event v (h.event v hv)
  data := k.data.trans h.data
  array := k.array.trans h.array
  blocks := k.blocks.trans h.blocks
  flash := k.flash.trans h.flash
  health := k.health.trans h.health

theorem withdraws_of_keeps {s t : State} (hkeeps : t.keeps = s.keeps) (hworks : t.works = s.works)
    (hstanding : t.standing = s.standing) (hqueue : t.queue = s.queue)
    (hshadow : t.windows.shadow ⊆ s.windows.shadow) (hlength : t.windows.windows.length = s.windows.windows.length)
    (hmgmt : t.mgmt = { s.mgmt with events := t.mgmt.events })
    (hevent : ∀ v : Event, s.eventSet v = true → t.eventSet v = true) : Withdraws s t where
  queue := hqueue
  shadow := hshadow
  length := hlength
  event := hevent
  data := by rw [hmgmt]
  array := congrArg (fun k => k.2.1) hkeeps
  blocks := congrArg Works.blocks hworks
  flash := congrArg (fun k => k.1) hkeeps
  health := congrArg Standing.health hstanding

theorem eventSet_of_groupDrop {s t : State} (h : t.mgmt = { s.mgmt with events := setEvent s.mgmt.events .groupDrop })
    (v : Event) (hv : s.eventSet v = true) : t.eventSet v = true := by
  unfold State.eventSet
  rw [h, getLsbD_setEvent]
  exact Bool.or_eq_true_iff.mpr (.inl hv)

theorem withdraws_lostCommit (s : State) (w : Nat) : Withdraws s (s.lostCommit w) := by
  obtain ⟨hshadow, hwindows⟩ := lostCommit_windows s w
  refine withdraws_of_keeps (keeps_lostCommit s w) (works_lostCommit s w) (standing_lostCommit s w) (lostCommit_queue s w)
    ?_ ?_ ?_ (eventSet_of_groupDrop (lostCommit_mgmt s w))
  · rw [hshadow]
    exact List.filter_subset_self _
  · rw [hwindows, List.length_set]
  · rw [lostCommit_mgmt]

theorem withdraws_reportFault (s : State) (f : FaultReport) : Withdraws s (s.reportFault f) := by
  obtain ⟨hblocks, _, hqueue, hwindows, _, _, _, hflash, harray, _, _, hhealth⟩ := reportFault_frame s f
  refine ⟨hqueue, by rw [hwindows]; exact List.Subset.refl _, by rw [hwindows], fun v hv => reportFault_eventSet_of f hv, ?_,
    harray, hblocks, hflash, hhealth⟩
  unfold State.reportFault
  split <;> rfl

theorem withdraws_discardAtService (s : State) (q : QEntry) : Withdraws s (s.discardAtService q) := by
  cases q with
  | line e => exact withdraws_reportFault _ _
  | commit e => exact (withdraws_lostCommit s e.window).trans (withdraws_reportFault _ _)

theorem withdraws_foldl_discard (qs : List QEntry) (s : State) : Withdraws s (qs.foldl State.discardAtService s) := by
  induction qs generalizing s with
  | nil => exact .refl s
  | cons q qs ih => exact (withdraws_discardAtService s q).trans (ih _)

/-! ### The windows at the entry to SERVICE (R127) -/

/-- Window `w` has been stopped between `s` and `t`, with no entry in the queue (R127). -/
structure StopsWindow (s t : State) (w : Nat) : Prop extends Withdraws s t where
  idle : (t.window w).state = .idle
  others : ∀ v, v ≠ w → t.window v = s.window v

section
variable {s : State} {w : Nat}

theorem stopsWindow_abortGroup (hentries : s.queue.entries = []) (hrequests : s.queue.requests = [])
    (hw : w < s.windows.windows.length) : StopsWindow s (s.abortGroup w) w := by
  obtain ⟨hshadow, hwindows⟩ := abortGroup_windows s w
  have hwindow : ∀ v, (s.abortGroup w).window v = (s.setWindow w (s.window w).dropped).window v := fun v => by
    unfold State.window
    rw [hwindows]
    rfl
  have hwithdraws : Withdraws s (s.abortGroup w) := by
    refine withdraws_of_keeps (keeps_abortGroup s w) (works_abortGroup s w) (standing_abortGroup s w)
      (abortGroup_queue_of_empty w hentries hrequests) ?_ ?_ ?_ (eventSet_of_groupDrop (abortGroup_mgmt s w))
    · rw [hshadow]
      exact List.filter_subset_self _
    · rw [hwindows, List.length_set]
    · rw [abortGroup_mgmt]
  exact {
    toWithdraws := hwithdraws
    idle := by rw [hwindow, window_setWindow _ _ _ hw]; rfl
    others := fun v hv => by rw [hwindow, window_setWindow_other _ _ _ _ hv] }

theorem stopsWindow_disarmWindow (hw : w < s.windows.windows.length) : StopsWindow s (s.disarmWindow w) w where
  queue := rfl
  shadow := List.Subset.refl _
  length := List.length_set ..
  event := fun _ h => h
  data := rfl
  array := rfl
  blocks := rfl
  flash := rfl
  health := rfl
  idle := congrArg Window.state (window_setWindow s w (s.window w).dropped hw)
  others := fun _ hv => window_setWindow_other _ _ _ _ hv

theorem groupGone_of_empty (hentries : s.queue.entries = []) : s.groupGone w =
    (decide ((s.window w).state = .opened) || decide ((s.window w).state = .committing)) := by
  have hpast : s.pastCommitPoint { window := w, group := (s.window w).group.getD 0 } = false := by
    unfold State.pastCommitPoint
    rw [hentries]
    rfl
  unfold State.groupGone
  rw [hpast, Bool.not_false, Bool.and_true]

theorem stopsWindow_stopWindow (hentries : s.queue.entries = []) (hrequests : s.queue.requests = [])
    (hw : w < s.windows.windows.length) : StopsWindow s (s.stopWindow w) w := by
  cases hgone : s.groupGone w with
  | true =>
    rw [stopWindow_of_gone hgone]
    exact stopsWindow_abortGroup hentries hrequests hw
  | false =>
    rw [stopWindow_of_kept hgone]
    by_cases harmed : (s.window w).state = .armed
    · rw [if_pos harmed]
      exact stopsWindow_disarmWindow hw
    · rw [if_neg harmed]
      refine { toWithdraws := .refl s, idle := ?_, others := fun _ _ => rfl }
      rw [groupGone_of_empty hentries] at hgone
      cases hstate : (s.window w).state with
      | idle => rfl
      | armed => exact absurd hstate harmed
      | opened | committing => simp [hstate] at hgone

end

/-- With no entry in the queue the four windows are IDLE after a stop (R127). -/
theorem stopWindows_of_empty {s : State} (hentries : s.queue.entries = []) (hrequests : s.queue.requests = [])
    (hlength : s.windows.windows.length = 4) :
    Withdraws s s.stopWindows ∧ ∀ w < 4, (s.stopWindows.window w).state = .idle := by
  have hstop : ∀ (t : State) (w : Nat), w < 4 → Withdraws s t → StopsWindow t (t.stopWindow w) w := fun t w hw h =>
    stopsWindow_stopWindow (h.queue ▸ hentries) (h.queue ▸ hrequests) (by rw [h.length]; omega)
  have h0 := hstop s 0 (by omega) (.refl s)
  have k0 := h0.toWithdraws
  have h1 := hstop _ 1 (by omega) k0
  have k1 := k0.trans h1.toWithdraws
  have h2 := hstop _ 2 (by omega) k1
  have k2 := k1.trans h2.toWithdraws
  have h3 := hstop _ 3 (by omega) k2
  refine ⟨k2.trans h3.toWithdraws, fun w hw => ?_⟩
  unfold State.stopWindows
  interval_cases w
  · rw [h3.others 0 (by omega), h2.others 0 (by omega), h1.others 0 (by omega), h0.idle]
  · rw [h3.others 1 (by omega), h2.others 1 (by omega), h1.idle]
  · rw [h3.others 2 (by omega), h2.idle]
  · exact h3.idle

/-- The entry to SERVICE with no entry in the queue (R127, R183, R190). -/
theorem setMode_service_of_empty {s : State} (hentries : s.queue.entries = []) (hrequests : s.queue.requests = [])
    (hlength : s.windows.windows.length = 4) :
    Withdraws s (s.setMode .service) ∧ ∀ w < 4, ((s.setMode .service).window w).state = .idle := by
  obtain ⟨hstopped, hidle⟩ := stopWindows_of_empty hentries hrequests hlength
  obtain ⟨r, hwake⟩ := wake_request (State.raise { s.stopWindows with mgmt := { s.stopWindows.mgmt with mode := .service } }
    .modeChange)
  have hmode : s.setMode .service = _ := hwake
  rw [hmode]
  refine ⟨{ hstopped with event := fun v hv => ?_ }, hidle⟩
  refine (getLsbD_setEvent ..).trans (Bool.or_eq_true_iff.mpr (.inl ?_))
  exact hstopped.event v hv

end Sys2Proof.Machine
end

section
/-! SERVICE_ENTRY (R183): step 5 of SVCE with an empty queue, and with entries that cannot be issued. -/

namespace Sys2Proof.Machine

/-! ### The discarded entries (R183, R188) -/

theorem discardAtService_held {s : State} (q : QEntry) {f : FaultReport} (h : s.mgmt.fault = some f) :
    (s.discardAtService q).mgmt.fault = some f ∧ (s.discardAtService q).mgmt.further = true := by
  cases q with
  | line e =>
    unfold State.discardAtService State.reportFault
    simp only [h, and_self]
  | commit e =>
    have hlost : (s.lostCommit e.window).mgmt.fault = some f := by rw [lostCommit_mgmt, h]
    unfold State.discardAtService State.reportFault
    simp only [hlost, and_self]

theorem discardAtService_free {s : State} (q : QEntry) (h : s.mgmt.fault = none) :
    (s.discardAtService q).mgmt.fault = some (discardReport q) ∧ (s.discardAtService q).mgmt.further = false
      ∧ (s.discardAtService q).eventSet .fault = true := by
  cases q with
  | line e =>
    unfold State.discardAtService
    dsimp only
    rw [reportFault_of_free _ h]
    exact ⟨rfl, rfl, eventSet_raise_same s .fault⟩
  | commit e =>
    have hlost : (s.lostCommit e.window).mgmt.fault = none := by rw [lostCommit_mgmt, h]
    unfold State.discardAtService
    dsimp only
    rw [reportFault_of_free _ hlost]
    exact ⟨rfl, rfl, eventSet_raise_same (s.lostCommit e.window) .fault⟩

theorem foldl_discard_held {s : State} (qs : List QEntry) {f : FaultReport} (h : s.mgmt.fault = some f) :
    (qs.foldl State.discardAtService s).mgmt.fault = some f
      ∧ (qs.foldl State.discardAtService s).mgmt.further = (s.mgmt.further || !qs.isEmpty) := by
  induction qs generalizing s with
  | nil => exact ⟨h, by simp⟩
  | cons q qs ih =>
    obtain ⟨hfault, hfurther⟩ := discardAtService_held q h
    obtain ⟨ihfault, ihfurther⟩ := ih hfault
    refine ⟨ihfault, ihfurther.trans ?_⟩
    rw [hfurther]
    simp

theorem eventSet_discardAtService_commit (s : State) (e : CommitEntry) :
    (s.discardAtService (.commit e)).eventSet .groupDrop = true := by
  refine reportFault_eventSet_of _ ?_
  unfold State.eventSet
  rw [lostCommit_mgmt, getLsbD_setEvent]
  simp

theorem shadow_discardAtService_commit (s : State) (e : CommitEntry) :
    ∀ x ∈ (s.discardAtService (.commit e)).windows.shadow, x.window ≠ e.window := fun x hx => by
  have hmem := (withdraws_reportFault (s.lostCommit e.window) (discardReport (.commit e))).shadow hx
  rw [(lostCommit_windows s e.window).1, List.mem_filter] at hmem
  simpa using hmem.2

theorem foldl_discard_commit {e : CommitEntry} (qs : List QEntry) (s : State) (he : .commit e ∈ qs) :
    (qs.foldl State.discardAtService s).eventSet .groupDrop = true
      ∧ ∀ x ∈ (qs.foldl State.discardAtService s).windows.shadow, x.window ≠ e.window := by
  induction qs generalizing s with
  | nil => exact absurd he List.not_mem_nil
  | cons q qs ih =>
    rcases List.mem_cons.mp he with rfl | hrest
    · have hafter := withdraws_foldl_discard qs (s.discardAtService (.commit e))
      exact ⟨hafter.event _ (eventSet_discardAtService_commit s e),
        fun x hx => shadow_discardAtService_commit s e x (hafter.shadow hx)⟩
    · exact ih _ hrest

section
variable {s : State} {discarded : Bool}

theorem discardRest_withdraws (s : State) :
    Withdraws { s with queue := { s.queue with entries := [], requests := [] } } s.discardRest :=
  withdraws_foldl_discard _ _

theorem discardRest_of_empty (hentries : s.queue.entries = []) (hrequests : s.queue.requests = []) : s.discardRest = s := by
  unfold State.discardRest
  rw [hentries]
  show { s with queue := { s.queue with entries := [], requests := [] } } = s
  rw [← hentries, ← hrequests]

/-! ### The step (R183) -/

theorem exec_serviceEntry_of (hon : s.power = .on) (hcommand : s.mgmt.command = .active (.svce discarded))
    (hmode : s.mgmt.mode = .run ∨ s.mgmt.mode = .readonly) (hover : s.syncStepOver = true) (hop : s.array.op = none)
    (hbusy : s.eraseBusy = false) : exec .serviceEntry s = .next (s.enterService discarded).settle := by
  have hworking : s.mgmt.mode.working = true := by rcases hmode with h | h <;> rw [h] <;> rfl
  have htry : s.tryService = s.enterService discarded := by
    unfold State.tryService
    rw [hcommand]
    exact if_pos ⟨hworking, hover, flashQuiet_of hop hbusy⟩
  rw [← htry]
  exact taken_on s State.tryService hon

theorem complete_wake (s : State) (r : Ret) (bs : List Byte) : s.wake.complete r bs = (s.complete r bs).wake := by
  unfold State.wake
  have hrequest : (s.complete r bs).port.request = s.port.request := rfl
  rw [hrequest]
  split
  · rfl
  · split_ifs <;> rfl

theorem complete_eventSet_of {r : Ret} {bs : List Byte} {v : Event} (h : s.eventSet v = true) :
    (s.complete r bs).eventSet v = true :=
  (getLsbD_setEvent ..).trans (Bool.or_eq_true_iff.mpr (.inl h))

/-- SERVICE is entered with every window IDLE and an empty queue (R183). -/
theorem enterService_of_idle (hidle : ∀ w < 4, (s.window w).state = .idle) (hentries : s.queue.entries = [])
    (hrequests : s.queue.requests = []) :
    s.enterService discarded = State.wake { s with
      array := { s.array with erase := none },
      mgmt := { s.mgmt with
        mode := .service, command := .zero, data := putData s.mgmt.data 0 [if discarded then 6 else 1],
        events := setEvent (setEvent s.mgmt.events .modeChange) .cmdDone } } := by
  have hstop : (s.setErase none).stopWindows = s.setErase none := stopWindows_of_idle _ hidle
  unfold State.enterService State.setMode
  dsimp only
  rw [discardRest_of_empty hentries hrequests, marksRemain_of_empty hentries, hstop, complete_wake]
  cases discarded <;> rfl

/-- Why a head keeps step 4 of SVCE from waiting any longer (R71, R183). -/
theorem syncStepOver_of_blocked {q : QEntry} {qs : List QEntry} (hqueue : s.queue.entries = q :: qs) (hop : s.array.op = none)
    (h : (∃ e, q = .line e ∧ e.origin = none ∧ 4294967295 ≤ s.queue.nextOrigin)
      ∨ q.programming = false ∧ s.nextSlot = none ∧ 4294967295 ≤ s.blocks.nextSeq
        ∧ ∀ e, q = .line e → e.origin = none → s.queue.nextOrigin < 4294967295) : s.syncStepOver = true := by
  unfold State.syncStepOver
  rcases h with ⟨e, rfl, hnone, horigin⟩ | ⟨hpending, hslot, hseq, hnumber⟩
  · have hlast : atLast s.queue.nextOrigin = true := decide_eq_true horigin
    have hunnumberable : s.headUnnumberable = true := by
      unfold State.headUnnumberable State.head
      rw [hqueue]
      simp [hnone, hlast]
    rw [hunnumberable, Bool.or_true, Bool.true_or]
  · have hunplaced : HeadUnplaced s q qs := ⟨hseq, hslot, hqueue, hpending, hnumber⟩
    rw [hunplaced.headUnplaceable (fun o r ho => by simp [hop] at ho), Bool.or_true]

end

/-- What the entry to SERVICE makes of a queue that still holds entries (R123, R183). -/
theorem enterService_spec {s : State} (discarded : Bool) (hlength : s.windows.windows.length = 4) :
    ∃ m : State, s.enterService discarded = m.complete (if discarded || s.marksRemain then .media else .done) []
      ∧ Withdraws (s.discardRest.setErase none) m ∧ (∀ w < 4, (m.window w).state = .idle) ∧ m.eventSet .modeChange = true
      ∧ m.mgmt = { s.discardRest.mgmt with mode := .service, events := m.mgmt.events } := by
  have hwithdraws := discardRest_withdraws s
  have hentries : (s.discardRest.setErase none).queue.entries = [] := congrArg WriteQueue.entries hwithdraws.queue
  have hrequests : (s.discardRest.setErase none).queue.requests = [] := congrArg WriteQueue.requests hwithdraws.queue
  obtain ⟨hmode, hidle⟩ := setMode_service_of_empty hentries hrequests (hwithdraws.length.trans hlength)
  exact ⟨_, rfl, hmode, hidle, setMode_modeChange _ _, setMode_mgmt _ _⟩

/-- Settles O40. -/
theorem serviceIsEntered : Obligations.ServiceIsEntered := by
  refine ⟨?emptyQueue, ?remaining⟩
  case emptyQueue =>
    intro s discarded hon hcommand hmode hidle hop hbusy hentries hrequests
    rw [exec_serviceEntry_of hon hcommand hmode (syncStepOver_of_empty hentries) hop hbusy,
      enterService_of_idle hidle hentries hrequests]
  case remaining =>
    intro s discarded q qs hon hcommand hmode hop hbusy hlength hqueue hwhy
    have hexec := exec_serviceEntry_of hon hcommand hmode (syncStepOver_of_blocked hqueue hop hwhy) hop hbusy
    obtain ⟨m, hentered, hmode, hidle, hchange, hmgmt⟩ := enterService_spec (s := s) discarded hlength
    rw [hentered] at hexec
    have hrest := discardRest_withdraws s
    have hdiscard : s.discardRest = (q :: qs).foldl State.discardAtService
        { s with queue := { s.queue with entries := [], requests := [] } } := by
      unfold State.discardRest
      rw [hqueue]
    have hfault : m.mgmt.fault = s.discardRest.mgmt.fault := by rw [hmgmt]
    have hfurther : m.mgmt.further = s.discardRest.mgmt.further := by rw [hmgmt]
    refine ⟨_, hexec, ?_, rfl, ?_, hmode.queue.trans hrest.queue, ?_, hmode.blocks.trans hrest.blocks,
      hmode.flash.trans hrest.flash, hmode.health.trans hrest.health, ?_, ?_, hidle, ?_, ?_, ?_, complete_cmdDone _ _ _⟩
    · show m.mgmt.mode = .service
      rw [hmgmt]
    · have hdata : m.mgmt.data = s.mgmt.data := hmode.data.trans hrest.data
      show putData m.mgmt.data 0 _ = _
      rw [hdata]
      refine congrArg (putData s.mgmt.data 0) ?_
      have hmarks : s.marksRemain = true ↔ ∃ x ∈ s.queue.entries, x.marked = true := List.any_eq_true
      by_cases hlost : discarded = true ∨ ∃ x ∈ s.queue.entries, x.marked = true
      · rw [if_pos hlost, if_pos (Bool.or_eq_true_iff.mpr (hlost.imp_right hmarks.mpr))]
        rfl
      · rw [if_neg hlost, if_neg fun h => hlost ((Bool.or_eq_true_iff.mp h).imp_right hmarks.mp)]
        rfl
    · show m.array = _
      rw [hmode.array]
      exact congrArg (fun a : ArrayPort => { a with erase := none }) hrest.array
    · intro hnone
      obtain ⟨hq, hqfurther, hqevent⟩ :=
        discardAtService_free (s := { s with queue := { s.queue with entries := [], requests := [] } }) q hnone
      obtain ⟨hheld, hheldFurther⟩ := foldl_discard_held qs hq
      have hevent : s.discardRest.eventSet .fault = true := by
        rw [hdiscard]
        exact (withdraws_foldl_discard qs _).event _ hqevent
      refine ⟨complete_eventSet_of (hmode.event _ hevent), hfurther.trans ?_, hfault.trans ?_⟩
      · rw [hdiscard]
        exact hheldFurther.trans (by rw [hqfurther, Bool.false_or])
      · rw [hdiscard]
        refine hheld.trans ?_
        cases q <;> rfl
    · intro f hf
      obtain ⟨hheld, hheldFurther⟩ := foldl_discard_held (q :: qs)
        (s := { s with queue := { s.queue with entries := [], requests := [] } }) hf
      refine ⟨hfault.trans ?_, hfurther.trans ?_⟩
      · rw [hdiscard]
        exact hheld
      · rw [hdiscard]
        exact hheldFurther.trans (by simp)
    · rintro ⟨e, he⟩
      exact complete_eventSet_of (hmode.event _ (foldl_discard_commit s.queue.entries _ he).1)
    · intro e he x hx
      exact (foldl_discard_commit s.queue.entries _ he).2 x (hmode.shadow hx)
    · exact complete_eventSet_of hchange

end Sys2Proof.Machine
end

section
/-! COMMIT_ENTRY_APPEND (R54) and VICTIM_CHOICE (R78, R79, R80). -/

namespace Sys2Proof.Machine

/-- Settles O41. -/
theorem commitRequestIsAppended : Obligations.CommitRequestIsAppended := by
  intro s r rs hon hrequests hlength herased
  have happend : s.appendWaitingCommit = { s with queue := { s.queue with
      entries := s.queue.entries ++ [.commit (commitEntryOf r)], requests := rs } } := by
    unfold State.appendWaitingCommit
    rw [hrequests]
    exact if_pos ⟨hlength, herased⟩
  have hexec : exec .commitEntryAppend s = .next s.appendWaitingCommit.settle := taken_on s State.appendWaitingCommit hon
  rw [hexec, happend]
  rfl

section
variable {s : State}

/-! ### The normal choice (R79) -/

/-- Block `v` goes before block `c` in the normal choice (R79). -/
def State.precedes (s : State) (v c : Nat) : Prop :=
  s.liveCount v < s.liveCount c ∨ (s.liveCount v = s.liveCount c ∧ ((s.block v).eraseCount < (s.block c).eraseCount
    ∨ ((s.block v).eraseCount = (s.block c).eraseCount ∧ v ≤ c)))

theorem precedes_refl (v : Nat) : s.precedes v v := .inr ⟨rfl, .inr ⟨rfl, Nat.le_refl v⟩⟩

theorem precedes_trans {a b c : Nat} (hab : s.precedes a b) (hbc : s.precedes b c) : s.precedes a c := by
  unfold State.precedes at *
  omega

/-- The comparison the choice makes (R79). -/
theorem precedes_of_chosen {b c : Nat}
    (h : s.liveCount c < s.liveCount b ∨ (s.liveCount c = s.liveCount b ∧ lessWorn s c b = true)) : s.precedes c b := by
  unfold State.precedes
  simp only [lessWorn, Bool.or_eq_true, Bool.and_eq_true, decide_eq_true_eq] at h
  omega

theorem precedes_of_not_chosen {b c : Nat}
    (h : ¬(s.liveCount c < s.liveCount b ∨ (s.liveCount c = s.liveCount b ∧ lessWorn s c b = true))) : s.precedes b c := by
  unfold State.precedes
  simp only [lessWorn, Bool.or_eq_true, Bool.and_eq_true, decide_eq_true_eq] at h
  omega

theorem normalChoice_none {bs : List Nat} (h : s.normalChoice bs = none) : bs = [] := by
  cases bs with
  | nil => rfl
  | cons b bs =>
    unfold State.normalChoice at h
    split at h
    · cases h
    · split_ifs at h

theorem normalChoice_spec {bs : List Nat} {v : Nat} (h : s.normalChoice bs = some v) :
    v ∈ bs ∧ ∀ c ∈ bs, s.precedes v c := by
  induction bs generalizing v with
  | nil => cases h
  | cons b bs ih =>
    unfold State.normalChoice at h
    split at h
    next hnone =>
      cases h
      rw [normalChoice_none hnone]
      exact ⟨List.mem_singleton_self _, fun c hc => List.mem_singleton.mp hc ▸ precedes_refl _⟩
    next c hc =>
      obtain ⟨hmem, hfirst⟩ := ih hc
      split_ifs at h with hless
      · cases h
        refine ⟨List.mem_cons_of_mem _ hmem, fun d hd => ?_⟩
        rcases List.mem_cons.mp hd with rfl | hd
        · exact precedes_of_chosen hless
        · exact hfirst d hd
      · cases h
        refine ⟨List.mem_cons_self, fun d hd => ?_⟩
        rcases List.mem_cons.mp hd with rfl | hd
        · exact precedes_refl _
        · exact precedes_trans (precedes_of_not_chosen hless) (hfirst d hd)

theorem mem_candidates {b : Nat} : b ∈ s.candidates ↔ b ∈ dataBlocks ∧ s.candidate b = true := List.mem_filter

/-- With a candidate there is a normal choice among the candidates, and it goes before each of them (R79). -/
theorem normalChoice_candidates {b : Nat} (hb : b ∈ dataBlocks) (hc : s.candidate b = true) :
    ∃ v, s.normalChoice s.candidates = some v ∧ v ∈ dataBlocks ∧ s.candidate v = true
      ∧ ∀ c ∈ dataBlocks, s.candidate c = true → s.precedes v c := by
  cases hchoice : s.normalChoice s.candidates with
  | none =>
    have hmem : b ∈ s.candidates := mem_candidates.mpr ⟨hb, hc⟩
    rw [normalChoice_none hchoice] at hmem
    exact absurd hmem List.not_mem_nil
  | some v =>
    obtain ⟨hmem, hfirst⟩ := normalChoice_spec hchoice
    obtain ⟨hv, hcandidate⟩ := mem_candidates.mp hmem
    exact ⟨v, rfl, hv, hcandidate, fun c hc hcc => hfirst c (mem_candidates.mpr ⟨hc, hcc⟩)⟩

/-! ### The rotation reclaim (R80) -/

theorem le_foldl_wear {bs : List Nat} {n a : Nat} :
    n ≤ bs.foldl (fun acc b => if (s.block b).state = .retired then acc else max acc (s.block b).eraseCount) a
      ↔ n ≤ a ∨ ∃ d ∈ bs, (s.block d).state ≠ .retired ∧ n ≤ (s.block d).eraseCount := by
  induction bs generalizing a with
  | nil => simp
  | cons b bs ih =>
    rw [List.foldl_cons, ih]
    simp only [List.mem_cons, exists_eq_or_imp]
    by_cases hb : (s.block b).state = .retired
    · simp [hb]
    · simp only [hb, if_false, le_max_iff, ne_eq, not_false_eq_true, true_and, or_assoc]

theorem le_highestWear {n : Nat} (hn : 0 < n) :
    n ≤ s.highestWear ↔ ∃ d ∈ dataBlocks, (s.block d).state ≠ .retired ∧ n ≤ (s.block d).eraseCount := by
  refine le_foldl_wear.trans (or_iff_right ?_)
  omega

theorem chooseVictim_normal (h : s.blocks.reclaimCounter < 63) : s.chooseVictim = s.normalChoice s.candidates :=
  if_neg (by omega)

theorem chooseVictim_rotation {c : Nat} (h : s.blocks.reclaimCounter = 63) (hc : c ∈ dataBlocks)
    (hcandidate : s.candidate c = true)
    (hcold : ∀ d ∈ dataBlocks, s.candidate d = true → (s.block c).eraseCount < (s.block d).eraseCount
      ∨ ((s.block c).eraseCount = (s.block d).eraseCount ∧ c ≤ d)) :
    s.chooseVictim = if (s.block c).eraseCount + 32 ≤ s.highestWear then some c else s.normalChoice s.candidates := by
  have hcoldest : leastWorn s s.candidates = some c := leastWorn_eq s _ c (mem_candidates.mpr ⟨hc, hcandidate⟩)
    fun d hd => hcold d (mem_candidates.mp hd).1 (mem_candidates.mp hd).2
  unfold State.chooseVictim
  dsimp only
  rw [if_pos h, hcoldest]
  rfl

/-! ### The step (R78, R79) -/

theorem exec_victimChoice_of {v : Nat} (hon : s.power = .on) (hdue : s.reclaimDue = true) (hback : s.holdsBack = false)
    (hv : s.chooseVictim = some v) : exec .victimChoice s = .next (s.takeVictim v).settle := by
  have htry : s.tryVictim = s.takeVictim v := by
    unfold State.tryVictim
    rw [if_pos ⟨hdue, hback⟩, hv]
  rw [← htry]
  exact taken_on s State.tryVictim hon

theorem takeVictim_eq (v : Nat) : s.takeVictim v = { s with blocks := { s.blocks with
    table := Sparse.set BlockEntry.unknown s.blocks.table v { s.block v with state := .victim },
    victim := some v, reclaimCounter := if s.blocks.reclaimCounter < 63 then s.blocks.reclaimCounter + 1 else 0 } } := rfl

theorem reclaimDue_iff : s.reclaimDue = true ↔ s.erasedCount < 4 ∧ (s.mgmt.mode = .run ∨ s.mgmt.mode = .readonly)
    ∧ s.array.wp = false ∧ s.blocks.victim = none := by
  have hworking : s.mgmt.mode.working = true ↔ s.mgmt.mode = .run ∨ s.mgmt.mode = .readonly := by
    cases s.mgmt.mode <;> simp [Mode.working]
  unfold State.reclaimDue
  rw [Bool.and_eq_true, Bool.and_eq_true, Bool.and_eq_true, hworking, decide_eq_true_eq, Option.isNone_iff_eq_none,
    Bool.not_eq_true']
  show ((_ ∧ s.erasedCount < 4) ∧ _) ∧ _ ↔ _
  tauto

/-! ### Candidates (R33, R79) -/

/-- What holds of every listed block and of an unlisted one holds of all. -/
theorem forall_block_iff {P : Nat → BlockEntry → Prop} (hwf : Sparse.wf BlockEntry.unknown s.blocks.table = true)
    (hunknown : ∀ d, P d BlockEntry.unknown) : (∀ c ∈ s.blocks.table, P c.1 c.2) ↔ ∀ d, P d (s.block d) := by
  refine ⟨fun h d => ?_, fun h c hc => ?_⟩
  · by_cases hd : s.block d = BlockEntry.unknown
    · rw [hd]
      exact hunknown d
    · exact h _ (Sparse.mem_of_get BlockEntry.unknown _ d _ rfl hd)
  · have hblock : s.block c.1 = c.2 := Sparse.get_of_mem BlockEntry.unknown _ c.1 c.2 hwf hc
    exact hblock ▸ h c.1

theorem foldl_max_le {α : Type} (f : α → Nat) (xs : List α) (a n : Nat) :
    xs.foldl (fun acc x => max acc (f x)) a ≤ n ↔ a ≤ n ∧ ∀ x ∈ xs, f x ≤ n := by
  induction xs generalizing a with
  | nil => simp
  | cons x xs ih => simp [ih, and_assoc]

theorem highestSeq_le_iff (hwf : Sparse.wf BlockEntry.unknown s.blocks.table = true) (n : Nat) :
    s.highestSeq ≤ n ↔ ∀ d, (s.block d).blockSeq.getD 0 ≤ n := by
  refine (foldl_max_le _ _ _ _).trans ((and_iff_right (Nat.zero_le n)).trans ?_)
  exact forall_block_iff (P := fun _ e => e.blockSeq.getD 0 ≤ n) hwf fun _ => Nat.zero_le n

/-- Block `b` holds the highest block sequence of the table (R79). -/
theorem holdsHighest_iff (hwf : Sparse.wf BlockEntry.unknown s.blocks.table = true) (b : Nat) :
    ((s.block b).blockSeq.isSome && decide ((s.block b).blockSeq = some s.highestSeq)) = true
      ↔ (s.block b).blockSeq.isSome = true ∧ ∀ d, (s.block d).blockSeq.getD 0 ≤ (s.block b).blockSeq.getD 0 := by
  rw [← highestSeq_le_iff hwf, Bool.and_eq_true, decide_eq_true_eq]
  have hle : (s.block b).blockSeq.getD 0 ≤ s.highestSeq := (highestSeq_le_iff hwf _).mp (Nat.le_refl _) b
  cases hseq : (s.block b).blockSeq with
  | none => simp
  | some n =>
    rw [hseq] at hle
    simp only [Option.isSome_some, Option.some.injEq, Option.getD_some, true_and] at hle ⊢
    omega

theorem newestOpened_iff (hwf : Sparse.wf BlockEntry.unknown s.blocks.table = true) (b : Nat) :
    s.newestOpened b = true ↔ s.openingValid b = true
      ∧ ∀ d, s.openingValid d = true → (s.block d).blockSeq.getD 0 ≤ (s.block b).blockSeq.getD 0 := by
  have hall := forall_block_iff (s := s)
    (P := fun d e => s.openingValid d = true → e.blockSeq.getD 0 ≤ (s.block b).blockSeq.getD 0) hwf
    fun _ _ => Nat.zero_le _
  rw [← hall]
  simp only [State.newestOpened, Bool.and_eq_true, Bool.not_eq_true', List.any_eq_false, decide_eq_true_eq, not_and,
    Bool.not_eq_true]
  refine and_congr_right fun _ => forall₂_congr fun c _ => ?_
  cases s.openingValid c.1 <;> simp

theorem openSlots_eq (s : State) : s.openSlots = match s.openBlock with
    | some d => 85 - (s.block d).nextFree
    | none => 0 := by
  unfold State.openSlots
  cases s.openBlock <;> rfl

theorem candidate_iff (hwf : Sparse.wf BlockEntry.unknown s.blocks.table = true) (b : Nat) :
    s.candidate b = true ↔ (s.block b).state = .full ∧ s.liveCount b < 84
      ∧ ¬((s.block b).blockSeq.isSome = true ∧ ∀ d, (s.block d).blockSeq.getD 0 ≤ (s.block b).blockSeq.getD 0)
      ∧ (s.erasedCount < 2 → s.liveCount b ≤ s.openSlots)
      ∧ ¬(s.openingValid b = true
        ∧ ∀ d, s.openingValid d = true → (s.block d).blockSeq.getD 0 ≤ (s.block b).blockSeq.getD 0) := by
  have hslots : (decide (2 ≤ s.erasedCount) || decide (s.liveCount b ≤ s.openSlots)) = true
      ↔ (s.erasedCount < 2 → s.liveCount b ≤ s.openSlots) := by
    rw [Bool.or_eq_true, decide_eq_true_eq, decide_eq_true_eq]
    omega
  have hnot : ∀ x : Bool, (!x) = true ↔ ¬x = true := by decide
  rw [← holdsHighest_iff hwf, ← newestOpened_iff hwf, ← hslots]
  unfold State.candidate
  dsimp only
  rw [Bool.and_eq_true, Bool.and_eq_true, Bool.and_eq_true, Bool.and_eq_true, hnot, hnot, decide_eq_true_eq,
    decide_eq_true_eq, and_assoc, and_assoc, and_assoc]
  rfl

/-- Settles O42. -/
theorem victimHasTheFewestLiveRecords : Obligations.VictimHasTheFewestLiveRecords := by
  refine ⟨?normal, ?rotation, fun s => reclaimDue_iff, ?candidates⟩
  case normal =>
    intro s b hon hdue hback hcounter hb hc
    obtain ⟨v, hchoice, hv, hcandidate, hfirst⟩ := normalChoice_candidates hb hc
    refine ⟨v, ?_, hv, hcandidate, hfirst⟩
    rw [exec_victimChoice_of hon hdue hback ((chooseVictim_normal hcounter).trans hchoice), takeVictim_eq, if_pos hcounter]
  case rotation =>
    intro s c hon hdue hback hcounter hc hcandidate hcold
    have hchoice := chooseVictim_rotation hcounter hc hcandidate hcold
    have hexec : ∀ v, s.chooseVictim = some v → exec .victimChoice s = .next ({ s with blocks := { s.blocks with
        table := Sparse.set BlockEntry.unknown s.blocks.table v { s.block v with state := .victim },
        victim := some v, reclaimCounter := 0 } } : State).settle := fun v hv => by
      rw [exec_victimChoice_of hon hdue hback hv, takeVictim_eq, if_neg (by omega)]
    have hwear := le_highestWear (s := s) (n := (s.block c).eraseCount + 32) (by omega)
    by_cases hworn : (s.block c).eraseCount + 32 ≤ s.highestWear
    · rw [if_pos hworn] at hchoice
      refine ⟨c, hexec c hchoice, fun _ => rfl, fun hnone => ?_⟩
      obtain ⟨d, hd, hstate, hcount⟩ := hwear.mp hworn
      exact absurd hcount (Nat.not_le.mpr (hnone d hd hstate))
    · rw [if_neg hworn] at hchoice
      obtain ⟨v, hnormal, hv, hvcandidate, hfirst⟩ := normalChoice_candidates hc hcandidate
      refine ⟨v, hexec v (hchoice.trans hnormal), fun hsome => ?_, fun _ => ⟨hv, hvcandidate, hfirst⟩⟩
      exact absurd (hwear.mpr hsome) hworn
  case candidates =>
    intro s b hwf
    have hcandidate := candidate_iff hwf b
    rw [openSlots_eq] at hcandidate
    exact hcandidate

end

end Sys2Proof.Machine
end

section
/-! The management link (R165, R174 to R178, R192): completions, rejected writes, reports, media events, items. -/

namespace Sys2Proof.Machine

/-! ### Completion (R176) -/

theorem putData_zero {d bs : List Byte} (hd : d.length = 64) (hbs : bs.length ≤ 64) :
    putData d 0 bs = bs ++ d.drop bs.length := by
  unfold putData
  rw [List.take_zero, List.nil_append, Nat.zero_add]
  refine List.take_of_length_le ?_
  rw [List.length_append, List.length_drop]
  omega

/-- Settles O43. -/
theorem completionFillsDataAndRaisesCmdDone : Obligations.CompletionFillsDataAndRaisesCmdDone := by
  intro s r bs hlength hbs
  have hdata : (s.complete r bs).mgmt.data
      = BitVec.ofNat 8 r.code :: (bs ++ s.mgmt.data.drop (bs.length + 1)) :=
    putData_zero (bs := BitVec.ofNat 8 r.code :: bs) hlength (by rw [List.length_cons]; omega)
  have hevent : ∀ e : Event, (s.complete r bs).eventSet e = (s.eventSet e || decide (e = .cmdDone)) := fun e =>
    getLsbD_setEvent ..
  refine ⟨?code, fun i hi => ?result, fun i hi => ?kept, rfl, ?done, fun e he => ?other, rfl⟩
  case code => rw [hdata, List.getElem?_cons_zero]
  case result => rw [hdata, List.getElem?_cons_succ, List.getElem?_append_left hi]
  case kept =>
    obtain ⟨k, rfl⟩ := Nat.exists_eq_add_of_lt hi
    rw [hdata, List.getElem?_cons_succ, List.getElem?_append_right (Nat.le_add_right _ _), List.getElem?_drop]
    congr 1
    omega
  case done => rw [hevent, decide_eq_true rfl, Bool.or_true]
  case other => rw [hevent, decide_eq_false he, Bool.or_false]

/-! ### What is checked first (R176, R177) -/

section
variable {s : State}

theorem command_of_active (c : Code) (body : State → State) (h : s.activity.isSome = true) :
    s.command c body = (s.select 2).raise .cmdReject := by
  obtain ⟨a, ha⟩ := Option.isSome_iff_exists.mp h
  have hselect : (s.select 2).activity = some a := ha
  simp only [State.command, hselect]

theorem rejectWrite_of_active (toData : Bool) (h : s.activity.isSome = true) :
    s.rejectWrite toData = (s.select (if toData then 3 else 2)).raise .cmdReject := by
  obtain ⟨a, ha⟩ := Option.isSome_iff_exists.mp h
  simp only [State.rejectWrite, ha]

theorem unknownCode_of_active (h : s.activity.isSome = true) : s.unknownCode = (s.select 2).raise .cmdReject := by
  obtain ⟨a, ha⟩ := Option.isSome_iff_exists.mp h
  have hselect : (s.select 2).activity = some a := ha
  simp only [State.unknownCode, hselect]

theorem unknownCode_of_idle (h : s.activity = none) : s.unknownCode = { s with mgmt := { s.mgmt with
    selected := 2, command := .unkn, data := putData s.mgmt.data 0 [2],
    events := setEvent s.mgmt.events .cmdDone } } := by
  have hselect : (s.select 2).activity = none := h
  simp only [State.unknownCode, hselect]
  rfl

theorem takenIn_iff (c : Code) (m : Mode) : c.takenIn m = true ↔ m ∈ (match c with
    | .rsts => [.mount, .run, .readonly, .service]
    | .warm | .wend | .wdrp => [.run]
    | .zlck | .xchg | .poly | .svce => [.run, .readonly]
    | .svcx | .wipe => [.service]
    | .info | .sync | .wsta | .line | .blkq | .hcfg | .taly | .injt | .fack =>
      [.run, .readonly, .drain, .service, .halted] : List Mode) := by
  cases c <;> cases m <;> decide

/-- Settles O44. -/
theorem commandWritesAreCheckedFirst : Obligations.CommandWritesAreCheckedFirst := by
  refine ⟨fun s c hon hidle hmode => exec_instr_of_not_takenIn hon hidle hmode, ⟨?code, ?rejected, ?unknown, ?idle⟩,
    takenIn_iff⟩
  case code =>
    intro s c hon hactive
    rw [exec_instr, taken_on s _ hon, command_of_active c c.run hactive]
  case rejected =>
    intro s toData hon hactive
    have hexec : exec (.commandWriteRejected toData) s = .next (s.rejectWrite toData).settle := taken_on s _ hon
    rw [hexec, rejectWrite_of_active toData hactive]
  case unknown =>
    intro s hon hactive
    have hexec : exec .unkn s = .next s.unknownCode.settle := taken_on s _ hon
    rw [hexec, unknownCode_of_active hactive]
  case idle =>
    intro s hon hidle
    have hexec : exec .unkn s = .next s.unknownCode.settle := taken_on s _ hon
    rw [hexec, unknownCode_of_idle hidle]

/-! ### Reports (R111, R178) -/

theorem runBlkq_eq : s.runBlkq =
    if s.param 1 1 = 0 then s.complete .param [] else s.complete .done (s.blkqBytes (s.param 1 1)) := by
  unfold State.runBlkq
  dsimp only
  by_cases h : s.param 1 1 = 0
  · rw [if_pos h, if_neg (by omega)]
  · rw [if_neg h, if_pos (by omega)]

theorem runLine_eq : s.runLine =
    if 8191 < s.param 1 2 then s.complete .param [] else s.complete .done (s.lineBytes (s.param 1 2)) := by
  have hlines : s.param 1 2 < Config.storeLines ↔ ¬8191 < s.param 1 2 := by
    simp only [Config.storeLines]
    omega
  unfold State.runLine
  dsimp only
  by_cases h : 8191 < s.param 1 2
  · rw [if_pos h, if_neg fun hc => hlines.mp hc h]
  · rw [if_neg h, if_pos (hlines.mpr h)]

theorem runWsta_eq : s.runWsta =
    if 3 < s.param 1 1 then s.complete .param [] else s.complete .done (s.wstaBytes (s.param 1 1)) := by
  have hwindows : s.param 1 1 < Config.windowCount ↔ ¬3 < s.param 1 1 := by
    simp only [Config.windowCount]
    omega
  unfold State.runWsta
  dsimp only
  by_cases h : 3 < s.param 1 1
  · rw [if_pos h, if_neg fun hc => hwindows.mp hc h]
  · rw [if_neg h, if_pos (hwindows.mpr h)]

/-- Settles O45: each report is its check of the parameter, then the bytes of `State.infoBytes`, `State.blkqBytes`,
`State.lineBytes` and `State.wstaBytes`. -/
theorem reportsReturnStateAndChangeNothing : Obligations.ReportsReturnStateAndChangeNothing := by
  refine ⟨?info, ?blkq, ?line, ?wsta⟩
  case info => exact fun s htakes => exec_instr_of_takes (c := .info) htakes rfl
  case blkq => exact fun s htakes => exec_instr_of_takes (c := .blkq) htakes (runBlkq_eq (s := s.select 2))
  case line => exact fun s htakes => exec_instr_of_takes (c := .line) htakes (runLine_eq (s := s.select 2))
  case wsta => exact fun s htakes => exec_instr_of_takes (c := .wsta) htakes (runWsta_eq (s := s.select 2))

/-! ### Media events (R165) -/

theorem report_below {c : HealthClass} (hc : s.health.cls.counts c = true) (h : s.health.count < 65534) :
    s.report c = { s with health := { s.health with count := s.health.count + 1 } } := by
  have hbump : s.health.bump = { s.health with count := s.health.count + 1 } := by
    rw [bump_eq, if_pos (by omega), decide_eq_false (by omega), Bool.or_false]
  rw [report_of_counted hc, if_neg (by omega), hbump]

theorem report_last {c : HealthClass} (hc : s.health.cls.counts c = true) (h : s.health.count = 65534) :
    s.report c = { s with
      health := { s.health with count := 65535, saturated := true },
      mgmt := { s.mgmt with events := setEvent s.mgmt.events .healthSaturated } } := by
  have hbump : s.health.bump = { s.health with count := 65535, saturated := true } := by
    rw [bump_eq, if_pos (by omega), decide_eq_true h, Bool.or_true, h]
  rw [report_of_counted hc, if_pos h, hbump]
  rfl

theorem report_saturated {c : HealthClass} (h : s.health.count = 65535) : s.report c = s := by
  by_cases hc : s.health.cls.counts c = true
  · have hbump : s.health.bump = s.health := by rw [bump_eq, if_neg (by omega)]
    rw [report_of_counted hc, if_neg (by omega), hbump]
  · exact report_of_uncounted hc

/-- Settles O49. -/
theorem mediaEventsAreCounted : Obligations.MediaEventsAreCounted := by
  refine ⟨?below, ?last, ?nothing⟩
  case below => exact fun s c hc hcount => report_below ((counts_iff _ _).mpr hc) hcount
  case last => exact fun s c hc hcount => report_last ((counts_iff _ _).mpr hc) hcount
  case nothing =>
    rintro s c (⟨hcls, hmedia⟩ | hcount)
    · exact report_of_uncounted fun hc => ((counts_iff _ _).mp hc).elim hcls hmedia
    · exact report_saturated hcount

/-! ### Events (R192) -/

/-- Settles O50. -/
theorem eventsAreStickyUntilCleared : Obligations.EventsAreStickyUntilCleared := by
  refine ⟨?raised, ?clearWrite, ?cleared⟩
  case raised =>
    intro s e f
    have hraise : (s.raise e).eventSet f = (s.eventSet f || decide (f = e)) := getLsbD_setEvent ..
    rw [hraise, Bool.or_comm]
    simp only [eq_comm]
  case clearWrite => exact fun s v hon => taken_on s (State.writeClear v) hon
  case cleared =>
    intro s v e
    show (s.mgmt.events &&& ~~~v).getLsbD e.bit = _
    have hlt : e.bit < 16 := by cases e <;> decide
    rw [BitVec.getLsbD_and, BitVec.getLsbD_not, decide_eq_true hlt, Bool.true_and]
    rfl

end

end Sys2Proof.Machine
end

section
/-! The items of the management link as transfers write and read them (R174, R175, R188). -/

namespace Sys2Proof.Machine

section
variable {s : State}

/-! ### Writes (R174, R175) -/

theorem exec_itemWrite_on (item : Byte) (bs : List Byte) (hon : s.power = .on) :
    exec (.itemWrite item bs) s = .next (((s.select item.toNat).writeItem item.toNat bs)).settle :=
  taken_on s (State.takeTransfer item bs) hon

theorem writeItem_data {bs : List Byte} (hidle : s.activity = none) (hlength : s.mgmt.data.length = 64) (hne : bs ≠ [])
    (hbs : bs.length ≤ 64) :
    s.writeItem 3 bs = { s with mgmt := { s.mgmt with data := bs ++ s.mgmt.data.drop bs.length } } := by
  have hwrite : s.writeItem 3 bs = s.writeData bs := by
    cases bs with
    | nil => exact absurd rfl hne
    | cons b bs => rfl
  rw [hwrite]
  unfold State.writeData
  rw [hidle]
  dsimp only
  rw [List.take_of_length_le hbs, putData_zero hlength hbs]

theorem ofBytes_letters (c : Code) : Code.ofBytes (ascii c.letters) = some c := by
  cases c <;> decide

theorem length_letters (c : Code) : (ascii c.letters).length = 4 := by
  cases c <;> rfl

theorem letters_ne_zeros (c : Code) : ascii c.letters ≠ [0, 0, 0, 0] := by
  cases c <;> decide

/-- Four bytes of a code written to COMMAND are that command (R175, R176). -/
theorem takeTransfer_letters (c : Code) (t : State) :
    State.takeTransfer 2 (ascii c.letters) t = t.command c c.run := by
  have hitem : State.takeTransfer 2 (ascii c.letters) t = (t.select 2).writeCommand (ascii c.letters) := by
    cases c <;> rfl
  have htake : (ascii c.letters).take 4 = ascii c.letters := List.take_of_length_le (Nat.le_of_eq (length_letters c))
  rw [hitem]
  cases hactivity : t.activity with
  | some a =>
    have hselect : (t.select 2).activity = some a := hactivity
    simp only [State.writeCommand, State.command, hselect]
  | none =>
    have hselect : (t.select 2).activity = none := hactivity
    unfold State.writeCommand
    rw [hselect]
    dsimp only
    rw [if_neg (by rw [length_letters]; decide), htake, if_neg (letters_ne_zeros c), ofBytes_letters]
    rfl

theorem writeItem_zeros (hidle : s.activity = none) :
    s.writeItem 2 [0, 0, 0, 0] = { s with mgmt := { s.mgmt with command := .zero } } := by
  show s.writeCommand [0, 0, 0, 0] = _
  unfold State.writeCommand
  rw [hidle]
  rfl

theorem writeItem_readOnly {n : Nat} (bs : List Byte) (h : n ∉ [2, 3, 5, 6, 7]) : s.writeItem n bs = s := by
  unfold State.writeItem
  split
  case h_1 | h_7 => rfl
  all_goals exact absurd (by decide) h

theorem readOnly_item {item : Byte} (h : item = 0 ∨ item = 1 ∨ item = 4 ∨ item = 8 ∨ item = 9 ∨ 10 ≤ item.toNat) :
    item.toNat ∉ [2, 3, 5, 6, 7] := by
  rcases h with rfl | rfl | rfl | rfl | rfl | h
  case inr.inr.inr.inr.inr =>
    simp only [List.mem_cons, List.not_mem_nil, or_false]
    omega
  all_goals decide

/-! ### Reads (R174, R175) -/

theorem readTransfer_on (n : Nat) (hon : s.power = .on) :
    readTransfer s n = some ((readItem s s.mgmt.selected ++ List.replicate n 0).take n) := by
  unfold readTransfer
  rw [hon]

theorem readItem_mode : readItem s 1 = [(match s.mgmt.mode with
      | .mount => 0 | .run => 1 | .readonly => 2 | .drain => 3 | .service => 4 | .halted => 5),
    if s.mgmt.mode = .drain ∧ s.drain.phase = .drained then 1 else 0] := by
  have hcode : BitVec.ofNat 8 s.mgmt.mode.code = (match s.mgmt.mode with
      | .mount => 0 | .run => 1 | .readonly => 2 | .drain => 3 | .service => 4 | .halted => 5) := by
    cases s.mgmt.mode <;> rfl
  rw [← hcode]
  rfl

theorem readItem_command : readItem s 2 = (match s.mgmt.command with
    | .zero => [0, 0, 0, 0]
    | .unkn => [0x55, 0x4E, 0x4B, 0x4E]
    | .active a => ascii a.code.letters) := by
  show s.mgmt.command.bytes = _
  cases s.mgmt.command <;> rfl

theorem readItem_events : readItem s 4 = le 2 s.mgmt.events.toNat
    ++ ([(if s.mgmt.spaceLow then 1 else 0) + (if s.array.wp then 0 else 2)] : List Byte) := by
  show _ ++ byte1 (s.mgmt.spaceLow.toNat + 2 * (!s.array.wp).toNat) = _
  cases s.mgmt.spaceLow <;> cases s.array.wp <;> rfl

theorem readItem_edges : readItem s 7 = ([(match s.mgmt.edgeSpace with
      | .rise => 1 | .fall => 2 | .both => 3) + (match s.mgmt.edgeWp with
      | .rise => 4 | .fall => 8 | .both => 12)] : List Byte) := by
  show byte1 (s.mgmt.edgeSpace.code + 4 * s.mgmt.edgeWp.code) = _
  cases s.mgmt.edgeSpace <;> cases s.mgmt.edgeWp <;> rfl

/-! ### The fault record (R188) -/

theorem byte1_causeCode (c : Cause) : byte1 c.code = [(match c with
    | .outOfRange => 1 | .zoneLocked => 2 | .writeProtected => 3 | .readOnly => 4 | .draining => 5
    | .notReady => 6 | .flashLost => 7 | .stallTimeout => 8 | .readCheck => 9 | .groupFull => 10
    | .programFail => 11 | .relocateCheck => 12 | .blockRetired => 13 | .drainLoss => 14
    | .settingsLost => 15)] := by
  cases c <;> rfl

theorem ofNat_presence (bit : Nat) (v : Option Nat) :
    BitVec.ofNat 8 (presence bit v) = if v.isSome then BitVec.ofNat 8 bit else 0 := by
  unfold presence
  split_ifs <;> rfl

theorem byte1_presence (r : FaultReport) :
    byte1 (presence 1 r.addr + presence 2 r.line + presence 4 r.block + presence 8 r.slot + presence 16 r.window)
      = [(if r.addr.isSome then 1 else 0) + (if r.line.isSome then 2 else 0) + (if r.block.isSome then 4 else 0)
          + (if r.slot.isSome then 8 else 0) + (if r.window.isSome then 16 else 0)] := by
  unfold byte1
  rw [BitVec.ofNat_add, BitVec.ofNat_add, BitVec.ofNat_add, BitVec.ofNat_add]
  simp only [ofNat_presence]
  rfl

theorem byte1_toNat (b : Bool) : byte1 b.toNat = [if b then 1 else 0] := by
  cases b <;> rfl

theorem faultBytes_some (r : FaultReport) (further : Bool) : faultBytes (some r) further
    = ([(match r.cause with
        | .outOfRange => 1 | .zoneLocked => 2 | .writeProtected => 3 | .readOnly => 4 | .draining => 5
        | .notReady => 6 | .flashLost => 7 | .stallTimeout => 8 | .readCheck => 9 | .groupFull => 10
        | .programFail => 11 | .relocateCheck => 12 | .blockRetired => 13 | .drainLoss => 14
        | .settingsLost => 15),
        (if r.addr.isSome then 1 else 0) + (if r.line.isSome then 2 else 0) + (if r.block.isSome then 4 else 0)
          + (if r.slot.isSome then 8 else 0) + (if r.window.isSome then 16 else 0)] : List Byte)
      ++ le 3 (r.addr.getD 0) ++ le 2 (r.line.getD 0) ++ le 1 (r.block.getD 0) ++ le 1 (r.slot.getD 0)
      ++ le 1 (r.window.getD 0) ++ ([if further then 1 else 0] : List Byte) ++ List.replicate 5 0 := by
  unfold faultBytes
  dsimp only
  rw [byte1_causeCode, byte1_presence, byte1_toNat]
  rfl

theorem readItem_fault (hm : s.mgmt.mode ≠ .mount) : readItem s 8 = faultBytes s.mgmt.fault s.mgmt.further := if_neg hm

theorem readItem_snapshot (hm : s.mgmt.mode ≠ .mount) : readItem s 9 = le 2 s.health.snapCount
    ++ ([if s.health.snapSaturated then 1 else 0, (match s.health.snapClass with
      | .program => 0 | .erase => 1 | .read => 2 | .suspend => 3 | .media => 4)] : List Byte) := by
  have hread : readItem s 9 = le 2 s.health.snapCount ++ byte1 s.health.snapSaturated.toNat
      ++ byte1 s.health.snapClass.code := if_neg hm
  have hclass : byte1 s.health.snapClass.code = [(match s.health.snapClass with
      | .program => 0 | .erase => 1 | .read => 2 | .suspend => 3 | .media => 4)] := by
    cases s.health.snapClass <;> rfl
  rw [hread, byte1_toNat, hclass, List.append_assoc]
  rfl

theorem readItem_unknown {n : Nat} (h : 10 ≤ n) : readItem s n = [] := by
  obtain ⟨k, rfl⟩ := Nat.exists_eq_add_of_le' h
  rfl

/-- Settles O52. -/
theorem itemsAreReadAndWritten : Obligations.ItemsAreReadAndWritten := by
  refine ⟨?data, ?code, ?zeros, ?edges, ?readOnly, fun s n hon => readTransfer_on n hon, ?items⟩
  case data =>
    intro s bs hon hidle hlength hne hbs
    rw [exec_itemWrite_on 3 bs hon]
    exact congrArg (fun t : State => Host.Outcome.next t.settle)
      (writeItem_data (s := s.select 3) hidle hlength hne hbs)
  case code =>
    intro s c
    have htransfer : State.takeTransfer 2 (ascii c.letters) = fun t => t.command c c.run :=
      funext (takeTransfer_letters c)
    rw [exec_instr, ← htransfer]
    rfl
  case zeros =>
    intro s hon hidle
    rw [exec_itemWrite_on 2 _ hon]
    exact congrArg (fun t : State => Host.Outcome.next t.settle) (writeItem_zeros (s := s.select 2) hidle)
  case edges => exact fun s b hon => exec_itemWrite_on 7 [b] hon
  case readOnly =>
    intro s item bs hon hitem
    rw [exec_itemWrite_on item bs hon, writeItem_readOnly bs (readOnly_item hitem)]
  case items =>
    intro s
    refine ⟨rfl, readItem_mode, readItem_command, rfl, readItem_events, rfl, rfl, readItem_edges, ?inMount, ?noFault, ?fault,
      readItem_snapshot, fun n hn => readItem_unknown hn⟩
    case inMount => exact fun hm => ⟨if_pos hm, if_pos hm⟩
    case noFault =>
      intro hm hfault
      rw [readItem_fault hm, hfault]
      rfl
    case fault =>
      intro r hm hfault
      rw [readItem_fault hm, hfault, faultBytes_some] <;> rfl

end

end Sys2Proof.Machine
end

section
/-! Erases that succeed (R78, R88, R99, R104, R106, R148): the ERASE part, the blank check, the header program. -/

namespace Sys2Proof.Machine

section
variable {s : State} {j : EraseJob}

/-! ### The events of an erase (R99) -/

theorem eraseEvent_of {part : ErasePart} (take : State → EraseJob → State) (hj : s.array.erase = some j)
    (hpart : j.part = part) (hstatus : j.statusWait = false) : s.eraseEvent part take = take s j := by
  unfold State.eraseEvent
  rw [hj]
  exact if_pos ⟨hpart, hstatus⟩

theorem exec_eraseFinished (residue : Upset) (hon : s.power = .on) (hj : s.array.erase = some j)
    (hpart : j.part = .erasing) (hstatus : j.statusWait = false) :
    exec (.eraseFinished residue) s = .next (s.eraseDone j residue .blankCheck).settle := by
  have hexec : exec (.eraseFinished residue) s = s.taken fun s => s.eraseEvent .erasing fun s j => s.eraseDone j residue .blankCheck := rfl
  rw [hexec, taken_on s _ hon, eraseEvent_of _ hj hpart hstatus]

theorem exec_blankCheckEnd (received : Upset) (hon : s.power = .on) (hj : s.array.erase = some j)
    (hpart : j.part = .blankCheck) (hstatus : j.statusWait = false) :
    exec (.blankCheckEnd received) s = .next (s.blankCheckEnded j received).settle := by
  have hexec : exec (.blankCheckEnd received) s = s.taken fun s => s.eraseEvent .blankCheck fun s j => s.blankCheckEnded j received := rfl
  rw [hexec, taken_on s _ hon, eraseEvent_of _ hj hpart hstatus]

theorem exec_headerProgramEnd (stored readBack : Upset) (hon : s.power = .on) (hj : s.array.erase = some j)
    (hpart : j.part = .header) (hstatus : j.statusWait = false) :
    exec (.headerProgramEnd (.ended stored readBack)) s = .next (s.headerEnded j stored readBack).settle := by
  have hexec : exec (.headerProgramEnd (.ended stored readBack)) s = s.taken fun s => s.eraseEvent .header (State.takeHeaderEnd (.ended stored readBack)) := rfl
  rw [hexec, taken_on s _ hon, eraseEvent_of _ hj hpart hstatus]
  rfl

/-! ### The ERASE part and the blank check (R99, R106) -/

theorem eraseDone_eq (residue : Upset) (part : ErasePart) (hstatus : j.statusWait = false) :
    s.eraseDone j residue part = { s with
      flash := flashPatch (flashErase s.flash j.block) j.block 0 4096 residue,
      array := { s.array with erase := some { j with part := part, clock := 0 } } } := by
  have hjob : { j with part := part, clock := 0, statusWait := false } = { j with part := part, clock := 0 } := by
    rw [← hstatus]
  unfold State.eraseDone
  rw [hjob]
  rfl

theorem blankCheckEnded_of_blank {received : Upset} (harm : ¬(s.health.arm = .erase ∧ j.block ≠ 0))
    (hblank : isBlank (flashReceived s.flash j.block 0 4096 received) = true) :
    s.blankCheckEnded j received = s.afterBlankCheck j :=
  (if_neg harm).trans (if_pos hblank)

theorem afterBlankCheck_block0 (hblock : j.block = 0) : s.afterBlankCheck j = { s with array := { s.array with
    timeouts := 0, erase := some { j with part := .firstPart, clock := 0 } } } := if_pos hblock

theorem afterBlankCheck_data (hblock : j.block ≠ 0) : s.afterBlankCheck j = { s with array := { s.array with
    erase := some { j with part := if s.array.wp then .headerHeld else .header, clock := 0 } } } := by
  unfold State.afterBlankCheck
  rw [if_neg hblock]
  split_ifs <;> rfl

/-! ### The header program (R88, R104) -/

/-- The header program has left its bytes, within its limits. -/
def State.headerProgrammed (s : State) (j : EraseJob) (stored : Upset) : State :=
  { s with
    flash := flashWrite s.flash (4096 * j.block) (overlay (firstPart kindData j.newCount) stored),
    array := { s.array with timeouts := 0 } }

theorem headerEnded_passed {stored readBack : Upset}
    (h : overlay (overlay (firstPart kindData j.newCount) stored) readBack = firstPart kindData j.newCount) :
    s.headerEnded j stored readBack = (s.headerProgrammed j stored).eraseSucceeded j :=
  if_pos (if_pos h)

theorem headerEnded_failed {stored readBack : Upset}
    (h : overlay (overlay (firstPart kindData j.newCount) stored) readBack ≠ firstPart kindData j.newCount) :
    s.headerEnded j stored readBack = (s.headerProgrammed j stored).attemptFailed j (some true) := by
  refine if_neg fun hc => ?_
  have hres : (if overlay (overlay (firstPart kindData j.newCount) stored) readBack = firstPart kindData j.newCount then
      ProgResult.pass else .fail) = .pass := hc
  rw [if_neg h] at hres
  exact absurd hres (by decide)

/-- The block of a successful erase (R88). -/
def EraseJob.erased (j : EraseJob) : BlockEntry :=
  { state := .erased, eraseCount := j.newCount, blockSeq := none, nextFree := 0, failures := 0 }

theorem eraseSucceeded_reclaim (howner : j.owner = .manager) (hvictim : s.blocks.victim = some j.block) :
    s.eraseSucceeded j = { s with
      array := { s.array with erase := none, timeouts := 0 },
      blocks := { s.blocks with
        table := Sparse.set BlockEntry.unknown s.blocks.table j.block j.erased,
        victim := none, reclaimCopy := none, releaseTurn := true } } := by
  unfold State.eraseSucceeded
  rw [howner]
  exact if_pos hvictim

theorem eraseSucceeded_other (h : j.owner = .manager ∧ s.blocks.victim ≠ some j.block ∨ j.owner = .wipe) :
    s.eraseSucceeded j = { s with
      array := { s.array with erase := none, timeouts := 0 },
      blocks := { s.blocks with table := Sparse.set BlockEntry.unknown s.blocks.table j.block j.erased } } := by
  unfold State.eraseSucceeded
  rcases h with ⟨howner, hvictim⟩ | howner
  · rw [howner]
    exact if_neg hvictim
  · rw [howner]
    rfl

theorem eraseSucceeded_mount {m : Mount} (howner : j.owner = .mount) (hm : s.mount = some m) :
    s.eraseSucceeded j = { s with
      array := { s.array with erase := none, timeouts := 0 },
      mount := some { m with results := Sparse.set BlockEntry.unknown m.results j.block j.erased } } := by
  unfold State.eraseSucceeded
  rw [howner]
  show State.withMount _ _ = _
  unfold State.withMount
  have hmount : ((s.eraseEnded).setErase none).mount = some m := hm
  rw [hmount]
  rfl

end

/-- Settles O53: the three parts of a successful erase, the last by its owner. -/
theorem eraseLeadsToErased : Obligations.EraseLeadsToErased := by
  refine ⟨?erased, ?blank, ?blank0, ?header⟩
  case erased =>
    intro s j residue hon hj hpart hstatus
    rw [exec_eraseFinished residue hon hj hpart hstatus, eraseDone_eq residue _ hstatus]
  case blank =>
    intro s j received hon hj hpart hstatus hblock harm hblank
    rw [exec_blankCheckEnd received hon hj hpart hstatus, blankCheckEnded_of_blank (fun h => harm h.1) hblank,
      afterBlankCheck_data hblock]
  case blank0 =>
    intro s j received hon hj hpart hstatus hblock hblank
    rw [exec_blankCheckEnd received hon hj hpart hstatus,
      blankCheckEnded_of_blank (fun h => h.2 hblock) (by rw [hblock]; exact hblank), afterBlankCheck_block0 hblock]
  case header =>
    intro s t j e stored readBack hon hj hpart hstatus hread ht he
    have hexec := exec_headerProgramEnd stored readBack hon hj hpart hstatus
    rw [headerEnded_passed hread] at hexec
    subst ht he
    refine ⟨fun howner hvictim => ?_, fun hother => ?_, fun m howner hm => ?_⟩
    · rw [hexec, eraseSucceeded_reclaim (s := s.headerProgrammed j stored) howner hvictim]
      rfl
    · rw [hexec, eraseSucceeded_other (s := s.headerProgrammed j stored) hother]
      rfl
    · rw [hexec, eraseSucceeded_mount (s := s.headerProgrammed j stored) howner hm]
      rfl

end Sys2Proof.Machine
end

section
/-! Failed erase attempts (R89, R98, R139, R155, R172, R187): the next attempt, the third failure, block 0. -/

namespace Sys2Proof.Machine

section
variable {s : State} {j : EraseJob} {mark : Option Bool}

/-! ### A failed attempt is counted (R89, R98) -/

/-- The turn of rank 5 passes after a failed attempt of the reclaim's (R98, log 39). -/
theorem eraseTurn_eq : s.eraseTurn j = { s with blocks := { s.blocks with
    releaseTurn := s.blocks.releaseTurn || decide (j.owner = .manager) } } := by
  unfold State.eraseTurn
  cases j.owner with
  | manager =>
    rw [decide_eq_true rfl, Bool.or_true]
    rfl
  | mount | wipe =>
    rw [decide_eq_false (by decide), Bool.or_false]

theorem again_eq (hv : j.virgin = false) (n : Nat) : j.again n = { j with
    attempts := n, part := .waiting, running := 0, clock := 0, suspends := 0, statusWait := false } := by
  simp only [EraseJob.again, hv]

/-- The first two failed attempts of a data block or of block 0: the next one waits, and the reclaim's takes its turn. -/
theorem countFailure_next (hv : j.virgin = false) (h : j.attempts ≤ 1) : s.countFailure j mark = { s with
    array := { s.array with
      erase := some { j with
        attempts := j.attempts + 1, part := .waiting, running := 0, clock := 0, suspends := 0, statusWait := false } },
    blocks := { s.blocks with releaseTurn := s.blocks.releaseTurn || decide (j.owner = .manager) } } := by
  have hlt : j.attempts + 1 < Config.eraseAttempts := by
    show j.attempts + 1 < 3
    omega
  unfold State.countFailure
  rw [if_neg (by rw [hv]; exact Bool.false_ne_true), if_pos hlt, again_eq hv, eraseTurn_eq]
  rfl

theorem countFailure_third (hv : j.virgin = false) (h : j.attempts = 2) (hblock : j.block ≠ 0) :
    s.countFailure j mark = s.thirdFailure j mark := by
  have hlt : ¬j.attempts + 1 < Config.eraseAttempts := by
    show ¬j.attempts + 1 < 3
    omega
  unfold State.countFailure
  rw [hv, if_neg Bool.false_ne_true, if_neg hlt, if_neg hblock]

theorem countFailure_third_block0 (hv : j.virgin = false) (h : j.attempts = 2) (hblock : j.block = 0) :
    s.countFailure j mark = s.block0Lost j := by
  have hlt : ¬j.attempts + 1 < Config.eraseAttempts := by
    show ¬j.attempts + 1 < 3
    omega
  unfold State.countFailure
  rw [hv, if_neg Bool.false_ne_true, if_neg hlt, if_pos hblock]

/-! ### The third failure on a data block (R89, R155) -/

/-- The erase after its third failed attempt. -/
def EraseJob.third (j : EraseJob) : EraseJob := { j with attempts := 3, statusWait := false }

theorem thirdFailure_mark (hmode : s.mgmt.mode ≠ .drain) :
    s.thirdFailure j (some true) = s.setErase (some { j.third with part := .mark }) := if_neg hmode

theorem thirdFailure_read (hmode : s.mgmt.mode ≠ .drain) :
    s.thirdFailure j none = s.setErase (some { j.third with part := .markRead }) := if_neg hmode

theorem thirdFailure_retires {blank : Bool} (h : s.mgmt.mode = .drain ∨ blank = false) :
    s.thirdFailure j (some blank) = s.retireErased j.third := by
  unfold State.thirdFailure
  by_cases hmode : s.mgmt.mode = .drain
  · exact if_pos hmode
  · rw [h.resolve_left hmode]
    exact if_neg hmode

/-! ### The third failure on block 0 (R139, R187) -/

/-- The third failed attempt of WIPE's on block 0 ends it in HALTED (R187). -/
theorem block0Lost_wipe_spec {step : WipeStep} (howner : j.owner = .wipe)
    (hcommand : s.mgmt.command = .active (.wipe step false)) :
    (s.block0Lost j).mgmt.mode = .halted ∧ (s.block0Lost j).eventSet .modeChange = true
      ∧ (s.block0Lost j).mgmt.command = .zero ∧ (s.block0Lost j).mgmt.data = putData s.mgmt.data 0 [6]
      ∧ (s.block0Lost j).eventSet .cmdDone = true ∧ (s.block0Lost j).flash = s.flash
      ∧ (s.block0Lost j).array = { s.array with erase := none } := by
  have huncut : s.wipeCut = false := by simp [State.wipeCut, hcommand]
  rw [block0Lost_of_wipe howner huncut]
  obtain ⟨hflash, harray, _, _, _, hmode, hchange, _⟩ := enterHalted_spec (s.setErase none)
  obtain ⟨hzero, hdata, hdone⟩ := enterHalted_of_wipe (s := s.setErase none) hcommand
  exact ⟨hmode, hchange, hzero, hdata, hdone, hflash, harray⟩

/-! ### The blank check that fails (R89, R172) -/

theorem blankCheckEnded_failed {received : Upset} (hblock : j.block ≠ 0)
    (h : s.health.arm = .erase ∨ isBlank (flashReceived s.flash j.block 0 4096 received) = false) :
    s.blankCheckEnded j received = State.attemptFailed { s with
        array := { s.array with timeouts := 0 },
        health := { s.health with arm := if s.health.arm = .erase then .none else s.health.arm } } j
      (some (isBlank (((flashReceived s.flash j.block 0 4096 received).drop 32).take 8))) := by
  unfold State.blankCheckEnded
  by_cases harm : s.health.arm = .erase
  · rw [if_pos harm]
    exact if_pos ⟨harm, hblock⟩
  · rw [if_neg harm]
    refine (if_neg fun hc => harm hc.1).trans (if_neg ?_)
    show ¬isBlank (flashReceived s.flash j.block 0 4096 received) = true
    rw [h.resolve_left harm]
    exact Bool.false_ne_true

theorem blankCheckEnded_failed_block0 {received : Upset} (hblock : j.block = 0)
    (h : isBlank (flashReceived s.flash 0 0 4096 received) = false) :
    s.blankCheckEnded j received = State.attemptFailed { s with array := { s.array with timeouts := 0 } } j
      (some (isBlank (((flashReceived s.flash j.block 0 4096 received).drop 32).take 8))) := by
  unfold State.blankCheckEnded
  refine (if_neg fun hc => hc.2 hblock).trans (if_neg ?_)
  show ¬isBlank (flashReceived s.flash j.block 0 4096 received) = true
  rw [hblock, h]
  exact Bool.false_ne_true

end

/-- Settles O54: the event reports the failure in the ERASE class, then `State.countFailure` takes it. -/
theorem failedEraseAttemptIsCounted : Obligations.FailedEraseAttemptIsCounted := by
  refine ⟨?dataBlock, ?block0⟩
  case dataBlock =>
    intro s u j c blank hon hj hstatus hblock hv hevent
    have hexec : exec c s = .next (u.countFailure j (some blank)).settle := by
      rcases hevent with ⟨received, rfl, hpart, hfails, rfl, rfl⟩ | ⟨stored, readBack, rfl, hpart, rfl, hread, rfl⟩
      · rw [exec_blankCheckEnd received hon hj hpart hstatus, blankCheckEnded_failed hblock hfails]
        rfl
      · rw [exec_headerProgramEnd stored readBack hon hj hpart hstatus, headerEnded_failed hread]
        rfl
    have hkept : u.blocks = s.blocks ∧ u.mgmt.mode = s.mgmt.mode := by
      rcases hevent with ⟨_, _, _, _, _, rfl⟩ | ⟨_, _, _, _, _, _, rfl⟩
      · obtain ⟨hblocks, hmode, _⟩ := report_frame { s with
          array := { s.array with timeouts := 0 },
          health := { s.health with arm := if s.health.arm = .erase then .none else s.health.arm } } .erase
        exact ⟨hblocks, hmode⟩
      · obtain ⟨hblocks, hmode, _⟩ := report_frame (s.headerProgrammed j _) .erase
        exact ⟨hblocks, hmode⟩
    obtain ⟨hblocks, hmode⟩ := hkept
    refine ⟨fun hatt => ?_, fun hatt hnodrain hblank => ?_, fun hatt hwhy howner hvictim => ?_⟩
    · rw [hexec, countFailure_next hv hatt, hblocks, ← hstatus]
    · rw [hexec, countFailure_third hv hatt hblock, hblank, thirdFailure_mark (hmode ▸ hnodrain), EraseJob.third, ← hstatus]
      rfl
    · rw [hexec, countFailure_third hv hatt hblock, thirdFailure_retires (by rw [hmode]; exact hwhy),
        retireErased_of_reclaim (j := j.third) howner (by rw [hblocks]; exact hvictim)]
      unfold State.reclaimRetired State.reportRetired
      rw [block_of_blocks hblocks, hblocks]
      rfl
  case block0 =>
    intro s u j received hon hj hpart hstatus hblock hv howner hnotBlank hu
    obtain ⟨hblocks, _, _, _, _, _, _, hcommand, hflash, _, _, hmount⟩ :=
      report_frame { s with array := { s.array with timeouts := 0 } } .erase
    have hdata : u.mgmt.data = s.mgmt.data := by rw [hu, report_eq]
    rw [← hu] at hblocks hcommand hflash hmount
    have hexec : exec (.blankCheckEnd received) s = .next (u.countFailure j
        (some (isBlank (((flashReceived s.flash j.block 0 4096 received).drop 32).take 8)))).settle := by
      rw [exec_blankCheckEnd received hon hj hpart hstatus, blankCheckEnded_failed_block0 hblock hnotBlank, hu]
      rfl
    refine ⟨fun hatt => ?_, fun hatt hown => ?_, fun step hatt hown hwipe => ?_⟩
    · have hturn : { u.blocks with releaseTurn := u.blocks.releaseTurn || decide (j.owner = .manager) } = u.blocks := by
        rw [decide_eq_false howner, Bool.or_false]
      rw [hexec, countFailure_next hv hatt, hturn, ← hstatus]
    · rw [hexec, countFailure_third_block0 hv hatt hblock, block0Lost_of_mount hown, hmount]
    · rw [countFailure_third_block0 hv hatt hblock] at hexec
      obtain ⟨hmode, hchange, hzero, hvdata, hdone, hvflash, hvarray⟩ :=
        block0Lost_wipe_spec (s := u) hown (hcommand.trans hwipe)
      exact ⟨_, hexec, hmode, hchange, hzero, by rw [hvdata, hdata], hdone, hvflash.trans hflash, hvarray⟩

end Sys2Proof.Machine
end

section
/-! Suspended erases (R100, R101, R103) and the rank-1 read that waits (R40, R50, R58). -/

namespace Sys2Proof.Machine

section
variable {s : State} {j : EraseJob}

/-! ### The read that waits (R40, R50, R58, R97) -/

theorem firstPiece_iff {f : Piece → Bool} {xs : List Piece} {n i : Nat} {p : Piece} :
    firstPiece f xs n = some (i, p) ↔ ∃ before after, xs = before ++ p :: after ∧ i = n + before.length ∧ f p = true
      ∧ ∀ y ∈ before, f y = false := by
  induction xs generalizing n with
  | nil => simp [firstPiece]
  | cons x xs ih =>
    unfold firstPiece
    cases hx : f x with
    | true =>
      rw [if_pos rfl]
      refine ⟨fun h => ?_, ?_⟩
      · cases h
        exact ⟨[], xs, rfl, rfl, hx, by simp⟩
      · rintro ⟨before, after, hsplit, hi, hp, hbefore⟩
        cases before with
        | nil =>
          cases hsplit
          rw [hi]
          rfl
        | cons y ys =>
          cases hsplit
          exact absurd hx (by simp [hbefore x])
    | false =>
      rw [if_neg Bool.false_ne_true, ih]
      refine ⟨?_, ?_⟩
      · rintro ⟨before, after, rfl, rfl, hp, hbefore⟩
        refine ⟨x :: before, after, rfl, by rw [List.length_cons]; omega, hp, fun y hy => ?_⟩
        rcases List.mem_cons.mp hy with rfl | hy
        · exact hx
        · exact hbefore y hy
      · rintro ⟨before, after, hsplit, hi, hp, hbefore⟩
        cases before with
        | nil =>
          cases hsplit
          rw [hx] at hp
          cases hp
        | cons y ys =>
          cases hsplit
          exact ⟨ys, after, rfl, by rw [hi, List.length_cons]; omega, hp, fun z hz => hbefore z (List.mem_cons_of_mem _ hz)⟩

theorem mergeMissing_iff {p : Piece} {x : Slot} (hx : (s.entry (s.lineOf p)).current = some x) :
    s.mergeMissing p = true ↔ p.inRange = true ∧ p.full = false ∧ s.newestUsable (s.lineOf p) = none
      ∧ p.merge.map (·.slot) ≠ some x := by
  simp [State.mergeMissing, State.needsMerge, hx, and_assoc]

/-- The read that the first piece asks for which `f` still counts: its purpose and the slot of its line. -/
def State.readOf (s : State) (f : Piece → Bool) (purpose : Nat → Purpose) (ps : List Piece) : Option (Purpose × Slot) :=
  match firstPiece f ps 0 with
  | none => none
  | some (i, p) => (s.entry (s.lineOf p)).current.map fun x => (purpose i, x)

theorem readOf_iff {f : Piece → Bool} {purpose : Nat → Purpose} {ps : List Piece} {q : Purpose} {x : Slot} :
    s.readOf f purpose ps = some (q, x) ↔ ∃ before p after, ps = before ++ p :: after
      ∧ (s.entry (s.lineOf p)).current = some x ∧ q = purpose before.length ∧ f p = true
      ∧ ∀ y ∈ before, f y = false := by
  unfold State.readOf
  refine ⟨fun h => ?_, ?_⟩
  · split at h
    next => cases h
    next i p hfirst =>
      obtain ⟨before, after, hsplit, hi, hp, hbefore⟩ := firstPiece_iff.mp hfirst
      obtain ⟨y, hcurrent, hy⟩ := Option.map_eq_some_iff.mp h
      cases hy
      exact ⟨before, p, after, hsplit, hcurrent, by rw [hi, Nat.zero_add], hp, hbefore⟩
  · rintro ⟨before, p, after, hsplit, hcurrent, rfl, hp, hbefore⟩
    have hfirst : firstPiece f ps 0 = some (before.length, p) :=
      firstPiece_iff.mpr ⟨before, after, hsplit, (Nat.zero_add _).symm, hp, hbefore⟩
    rw [hfirst]
    dsimp only
    rw [hcurrent]
    rfl

theorem rankOne_eq : s.rankOne = match s.port.request with
    | none => none
    | some r => match r.phase with
      | .checking => none
      | .reading => s.readOf (fun p => p.result.isNone) .readPiece r.pieces
      | .handOver => s.readOf s.mergeMissing .mergeRead r.pieces := by
  unfold State.rankOne State.readOf
  cases s.port.request with
  | none => rfl
  | some r =>
    cases hphase : r.phase with
    | checking => simp only [hphase]
    | reading =>
      simp only [hphase] <;> cases firstPiece (fun p => p.result.isNone) r.pieces 0 <;> rfl
    | handOver =>
      simp only [hphase] <;> cases firstPiece s.mergeMissing r.pieces 0 <;> rfl

theorem rankOne_iff {q : Purpose} {x : Slot} : s.rankOne = some (q, x) ↔ ∃ r before p after,
    s.port.request = some r ∧ r.pieces = before ++ p :: after ∧ (s.entry (s.lineOf p)).current = some x
      ∧ (r.phase = .reading ∧ q = .readPiece before.length ∧ p.result = none
          ∧ (∀ y ∈ before, y.result.isSome = true)
        ∨ r.phase = .handOver ∧ q = .mergeRead before.length ∧ p.inRange = true ∧ p.full = false
          ∧ s.newestUsable (s.lineOf p) = none ∧ p.merge.map (·.slot) ≠ some x
          ∧ ∀ y ∈ before, s.mergeMissing y = false) := by
  rw [rankOne_eq]
  constructor
  · intro h
    split at h
    next => cases h
    next r hr =>
      split at h
      next => cases h
      next hphase =>
        obtain ⟨before, p, after, hsplit, hcurrent, hq, hp, hbefore⟩ := readOf_iff.mp h
        refine ⟨r, before, p, after, hr, hsplit, hcurrent, .inl ⟨hphase, hq, Option.isNone_iff_eq_none.mp hp, ?_⟩⟩
        exact fun y hy => by simpa using hbefore y hy
      next hphase =>
        obtain ⟨before, p, after, hsplit, hcurrent, hq, hp, hbefore⟩ := readOf_iff.mp h
        obtain ⟨hrange, hfull, hnone, hmerge⟩ := (mergeMissing_iff hcurrent).mp hp
        exact ⟨r, before, p, after, hr, hsplit, hcurrent, .inr ⟨hphase, hq, hrange, hfull, hnone, hmerge, hbefore⟩⟩
  · rintro ⟨r, before, p, after, hr, hsplit, hcurrent, ⟨hphase, hq, hp, hbefore⟩
      | ⟨hphase, hq, hrange, hfull, hnone, hmerge, hbefore⟩⟩
    · rw [hr]
      dsimp only
      rw [hphase]
      exact readOf_iff.mpr ⟨before, p, after, hsplit, hcurrent, hq, Option.isNone_iff_eq_none.mpr hp,
        fun y hy => by simpa using hbefore y hy⟩
    · rw [hr]
      dsimp only
      rw [hphase]
      exact readOf_iff.mpr ⟨before, p, after, hsplit, hcurrent, hq,
        (mergeMissing_iff hcurrent).mpr ⟨hrange, hfull, hnone, hmerge⟩, hbefore⟩

/-! ### STATUS after a SUSPEND (R100) -/

/-- While an erase lets reads alone run, the grant is that of the read that waits (R97, R100). -/
theorem grant_read {q : Purpose} {x : Slot} (hj : s.array.erase = some j) (hreads : j.part = .suspended ∨ j.part = .finished)
    (hop : s.array.op = none) (htime : s.array.timeouts < 3) (hread : s.rankOne = some (q, x)) :
    s.grant = s.startOp q x.block (48 * x.slot) 48 [] := by
  have hlost : s.flashLost = false := decide_eq_false (Nat.not_le.mpr htime)
  have hbusy : s.eraseBusy = true := by
    unfold State.eraseBusy
    rw [hj]
    rcases hreads with h | h <;> simp only [h, ErasePart.busy]
  have honly : j.part.readsOnly = true := by rcases hreads with h | h <;> rw [h] <;> rfl
  have hgranted : s.grantRead = some (s.startOp q x.block (48 * x.slot) 48 []) := by
    unfold State.grantRead
    rw [hread]
    rfl
  unfold State.grant
  rw [hop, hlost, hbusy, hj]
  dsimp only
  rw [honly, hgranted]
  rfl

theorem exec_eraseSuspended (finished : Option Upset) (hon : s.power = .on) (hj : s.array.erase = some j)
    (hpart : j.part = .suspending) (hstatus : j.statusWait = false) :
    exec (.eraseSuspended finished) s = .next (s.takeSuspended finished j).settle := by
  have hexec : exec (.eraseSuspended finished) s
      = s.taken fun s => s.eraseEvent .suspending (State.takeSuspended finished) := rfl
  rw [hexec, taken_on s _ hon, eraseEvent_of _ hj hpart hstatus]

/-! ### What follows the reads (R100, R101) -/

theorem react_suspends (hpart : j.part = .erasing) (hstatus : j.statusWait = false) (hsuspends : j.suspends ≤ 7) :
    j.react true = { j with part := .suspending, clock := 0 } := by
  have hlt : decide (j.suspends < Config.maxSuspends) = true := decide_eq_true (Nat.lt_succ_of_le hsuspends)
  unfold EraseJob.react
  rw [hpart]
  dsimp only
  rw [hlt, hstatus]
  rfl

theorem react_runs {waits : Bool} (hpart : j.part = .erasing)
    (h : waits = false ∨ 8 ≤ j.suspends ∨ j.statusWait = true) : j.react waits = j := by
  unfold EraseJob.react
  rw [hpart]
  refine if_neg ?_
  rcases h with h | h | h
  · simp [h]
  · have hlt : decide (j.suspends < Config.maxSuspends) = false := decide_eq_false (Nat.not_lt.mpr h)
    simp [hlt]
  · simp [h]

theorem react_resumes (hpart : j.part = .suspended) : j.react false = { j with part := .erasing } := by
  unfold EraseJob.react
  rw [hpart]
  rfl

theorem react_stays (hpart : j.part = .suspended) : j.react true = j := by
  unfold EraseJob.react
  rw [hpart]
  rfl

/-! ### The read served before the blank check (R100, R103, log 72) -/

/-- That read has ended: the blank check follows. -/
theorem settle_readTaken {t : State} (hj : s.array.erase = some j) (hpart : j.part = .finished)
    (harray : t.array = s.opEnded.array) :
    t.settle.array.op = none ∧ t.settle.array.erase = some { j with part := .blankCheck, clock := 0 } := by
  have hop : t.array.op = none := by rw [harray]; rfl
  have herase : t.array.erase = some j := by rw [harray]; exact hj
  have htime : t.array.timeouts < 3 := by rw [harray]; exact Nat.zero_lt_succ 2
  exact ⟨settle_op_none t hop, settle_finished t j hop herase htime hpart⟩

end

end Sys2Proof.Machine
end

section
/-! The expiry of a time limit while the flash is not yet lost (R102 to R104). -/

namespace Sys2Proof.Machine

section
variable {s u : State} {o : Op} {left : Remnant}

/-- The state in which the requester takes the Timeout of its operation (R103, R104). -/
def State.timedOut (s : State) (o : Op) (left : Remnant) : State :=
  { s with
    flash := if o.purpose.isProgram = true ∧ o.statusWait = false then
        leaveProgram s.flash o.block o.offset o.bytes left else s.flash,
    array := { s.array with op := none, timeouts := s.array.timeouts + 1, uncertain := true } }

theorem leaveOp_eq : s.leaveOp o left = if o.purpose.isProgram = true ∧ o.statusWait = false then
    leaveProgram s.flash o.block o.offset o.bytes left else s.flash := by
  unfold State.leaveOp
  simp only [Bool.and_eq_true, Bool.not_eq_true']

theorem opTimeout_eq (htime : s.array.timeouts ≤ 2) : s.opTimeout o left
    = ((s.timedOut o left).takeOutcome o .timeout).checkLost (some o.block) o.lostSlot left := by
  have hmin : min (s.array.timeouts + 1) Config.lostTimeouts = s.array.timeouts + 1 :=
    Nat.min_eq_left (Nat.succ_le_succ htime)
  unfold State.opTimeout State.countTimeout
  dsimp only
  rw [hmin, leaveOp_eq]
  rfl

theorem checkLost_of_kept (block slot : Option Nat) (htime : s.array.timeouts < 3) :
    s.checkLost block slot left = s := by
  have hlost : s.flashLost = false := decide_eq_false (Nat.not_le.mpr htime)
  unfold State.checkLost
  rw [hlost]
  rfl

theorem exec_operationTimeout_op (hon : s.power = .on) (hop : s.array.op = some o) :
    exec (.operationTimeout left) s = .next (s.opTimeout o left).settle := by
  have hexec : exec (.operationTimeout left) s = s.taken fun s => s.timeOut left := rfl
  rw [hexec, taken_timeOut s o left hon hop]

/-- The Timeout of an operation that is not the third in a row (R102, R104). -/
theorem exec_operationTimeout_kept (hon : s.power = .on) (hop : s.array.op = some o) (htime : s.array.timeouts ≤ 1)
    (htake : (s.timedOut o left).takeOutcome o .timeout = u) (hkept : u.array.timeouts = s.array.timeouts + 1) :
    exec (.operationTimeout left) s = .next u.settle := by
  rw [exec_operationTimeout_op hon hop, opTimeout_eq (by omega), htake, checkLost_of_kept]
  omega

/-! ### Reads for the port (R41, R50, R100) -/

theorem takeOutcome_portRead {i : Nat} (htime : s.array.timeouts < 3)
    (hp : o.purpose = .readPiece i ∨ o.purpose = .mergeRead i) : s.takeOutcome o .timeout = s.readTimedOut o := by
  rcases hp with hp | hp
  · simp only [State.takeOutcome, hp, if_true]
    exact pieceTimedOut_again s o i (.inr htime)
  · simp only [State.takeOutcome, hp, if_true]

theorem isProgram_of_portRead {p : Purpose} {i : Nat} (hp : p = .readPiece i ∨ p = .mergeRead i) :
    p.isProgram = false := by
  rcases hp with rfl | rfl <;> rfl

/-- A read served before a blank check, timed out while its request stands, is granted again at once (log 72). -/
theorem readTimedOut_again {j : EraseJob} {q : Purpose} {x : Slot} (hj : s.array.erase = some j) (hpart : j.part = .finished)
    (hkept : o.abandoned = false) (hop : s.array.op = none) (htime : s.array.timeouts < 3)
    (hread : s.rankOne = some (q, x)) : s.readTimedOut o = s.startOp q x.block (48 * x.slot) 48 [] := by
  have hgranted : s.grantRead = some (s.startOp q x.block (48 * x.slot) 48 []) := by
    unfold State.grantRead
    rw [hread]
    rfl
  rw [readTimedOut_finished s o j hj hpart hkept hop htime, hgranted]
  rfl

theorem readTimedOut_over {j : EraseJob} (hj : s.array.erase = some j) (hpart : j.part = .finished) (hop : s.array.op = none)
    (htime : s.array.timeouts < 3) (hover : o.abandoned = true ∨ s.rankOne = none) : s.readTimedOut o = s := by
  by_cases hgiven : o.abandoned = true
  · exact readTimedOut_eq s o (.inl hgiven)
  · have hnone : s.grantRead = none := by
      unfold State.grantRead
      rw [hover.resolve_left hgiven]
      rfl
    rw [readTimedOut_finished s o j hj hpart (Bool.eq_false_iff.mpr hgiven) hop htime, hnone]
    rfl

end

/-- Settles O55: the STATUS after a SUSPEND grants the read, and the reactions take the erase up again. -/
theorem suspendedEraseLetsTheReadRun : Obligations.SuspendedEraseLetsTheReadRun := by
  refine ⟨?status, ?reactions, ?readEnds, ?readTimesOut, fun s q x => rankOne_iff⟩
  case status =>
    intro s j q x hon hj hpart hstatus hop htime hread
    refine ⟨?_, fun residue => ?_⟩
    · rw [exec_eraseSuspended none hon hj hpart hstatus]
      have hsuspended : (s.setErase (some { j with part := .suspended, suspends := j.suspends + 1 })).grant
          = State.startOp (s.setErase (some { j with part := .suspended, suspends := j.suspends + 1 })) q x.block
              (48 * x.slot) 48 [] := grant_read rfl (.inl rfl) hop htime hread
      have hgrant : s.takeSuspended none j
          = (s.setErase (some { j with part := .suspended, suspends := j.suspends + 1 })).grant.report .suspend := by
        obtain ⟨_, _, hqueue, _, hport, htable, _, _, _, harray, _⟩ :=
          report_frame (s.setErase (some { j with part := .suspended, suspends := j.suspends + 1 })) .suspend
        rw [hsuspended, ← report_comm _ .suspend (fun t => t.startOp q x.block (48 * x.slot) 48 []) fun _ _ => rfl]
        refine grant_read (j := { j with part := .suspended, suspends := j.suspends + 1 }) (by rw [harray]; rfl) (.inl rfl)
          (by rw [harray]; exact hop) (by rw [harray]; exact htime) ?_
        exact (rankOne_congr hport htable hqueue).trans hread
      rw [hgrant, hsuspended]
      rfl
    · rw [exec_eraseSuspended (some residue) hon hj hpart hstatus]
      have hgrant : (s.eraseDone j residue .finished).grant
          = (s.eraseDone j residue .finished).startOp q x.block (48 * x.slot) 48 [] :=
        grant_read (j := { j with part := .finished, clock := 0, statusWait := false }) rfl (.inr rfl) hop htime hread
      have htake : s.takeSuspended (some residue) j = (s.eraseDone j residue .finished).grant := rfl
      rw [htake, hgrant, eraseDone_eq residue _ hstatus]
      rfl
  case reactions =>
    intro s t j ht hop htime hj
    rw [ht]
    refine ⟨fun hpart hstatus hread hsuspends => ?_, fun hpart hwhy => ?_, ?_, ?_, fun hpart => ?_⟩
    · rw [settle_react s j hop hj htime (.inl hpart), hread, react_suspends hpart hstatus hsuspends]
    · rw [settle_react s j hop hj htime (.inl hpart), react_runs hpart]
      exact hwhy.imp_left fun h => by rw [h]; rfl
    · rintro ⟨hpart, hread⟩
      rw [settle_react s j hop hj htime (.inr (.inl hpart)), hread]
      exact congrArg some (react_resumes hpart)
    · rintro ⟨hpart, hread⟩
      rw [settle_react s j hop hj htime (.inr (.inl hpart)), hread, react_stays hpart]
    · exact settle_finished s j hop hj htime hpart
  case readEnds =>
    intro s j o i received c hon hj hpart hop hstatus hc
    rcases hc with ⟨hp, rfl⟩ | ⟨hp, rfl⟩
    · have hexec : exec (.readPieceCompletion received) s
          = s.taken fun s => s.readEnd Purpose.isPiece (State.takePiece received) := rfl
      rw [hexec, taken_readEnd s Purpose.isPiece (State.takePiece received) o hon hop (by rw [hp]; rfl) hstatus]
      exact ⟨_, rfl, settle_readTaken hj hpart (takePiece_array _ _ _)⟩
    · have hexec : exec (.mergeReadCompletion received) s
          = s.taken fun s => s.readEnd Purpose.isMerge (State.takeMerge received) := rfl
      rw [hexec, taken_readEnd s Purpose.isMerge (State.takeMerge received) o hon hop (by rw [hp]; rfl) hstatus]
      exact ⟨_, rfl, settle_readTaken hj hpart (takeMerge_array _ _ _ rfl)⟩
  case readTimesOut =>
    intro s t j o left hon hj hpart hop hread htime ht
    obtain ⟨i, hp⟩ := hread
    have htimed : s.timedOut o left = t := by
      rw [ht]
      unfold State.timedOut
      rw [if_neg (by rw [isProgram_of_portRead hp]; simp)]
    have htake : (s.timedOut o left).takeOutcome o .timeout = t.readTimedOut o := by
      rw [takeOutcome_portRead (Nat.lt_succ_of_le (Nat.succ_le_succ htime)) hp, htimed]
    have hjt : t.array.erase = some j := by rw [ht]; exact hj
    have hopt : t.array.op = none := by rw [ht]
    have htimet : t.array.timeouts = s.array.timeouts + 1 := by rw [ht]
    refine ⟨fun q x hkept hwaits => ?_, fun hover => ?_⟩
    · have hwaits' : t.rankOne = some (q, x) := by rw [ht]; exact hwaits
      refine exec_operationTimeout_kept hon hop htime ?_ htimet
      rw [htake, readTimedOut_again hjt hpart hkept hopt (by omega) hwaits', ht]
      rfl
    · have hover' : o.abandoned = true ∨ t.rankOne = none := by rw [ht]; exact hover
      refine exec_operationTimeout_kept hon hop htime ?_ htimet
      rw [htake, readTimedOut_over hjt hpart hopt (by omega) hover']

end Sys2Proof.Machine
end

section
/-! What each requester makes of the Timeout of its operation (R67, R70, R76, R77, R87, R90, R91, R138, R157, R179). -/

namespace Sys2Proof.Machine

section
variable {s : State} {o : Op} {e : LineEntry} {c : CommitEntry} {qs : List QEntry} {x : Slot}

/-! ### Reads (R41, R50, R82, R89, R96, R136, R186) -/

theorem readTimedOut_ends (hop : s.array.op = none) (htime : s.array.timeouts < 3)
    (h : o.abandoned = true ∨ s.rankOne = none ∨ ∀ j, s.array.erase = some j → j.part ≠ .finished) :
    s.readTimedOut o = s := by
  by_cases hfinished : ∃ j, s.array.erase = some j ∧ j.part = .finished
  · obtain ⟨j, hj, hpart⟩ := hfinished
    refine readTimedOut_over hj hpart hop htime ?_
    exact h.imp_right fun hc => hc.resolve_right fun hnone => hnone j hj hpart
  · exact readTimedOut_eq s o (.inr fun j hj hpart => hfinished ⟨j, hj, hpart⟩)

theorem takeOutcome_engineRead (hp : o.purpose = .mountRead ∨ o.purpose = .markRead ∨ o.purpose = .wipeRead
    ∨ o.purpose = .mountTail) : s.takeOutcome o .timeout = s := by
  rcases hp with hp | hp | hp | hp <;> simp only [State.takeOutcome, hp]
  exact if_neg (by decide)

theorem setCopy_none (k : JobKind) : s.setCopy k none = { s with blocks := match k with
    | .reclaim => { s.blocks with reclaimCopy := none }
    | .retirement => { s.blocks with retireCopy := none }
    | .release => { s.blocks with release := s.blocks.release.map fun j => { j with copy := none } } } := by
  cases k <;> rfl

/-! ### The queue's LINE entry (R67, R68, R70) -/

theorem lineOutcome_timeout_dropped (hdropped : e.dropped = true) : s.lineOutcome e x .timeout = s.dropHead := by
  unfold State.lineOutcome
  rw [hdropped]
  rfl

theorem lineOutcome_timeout_again (hdropped : e.dropped = false) (h : e.attempts ≤ 4) : s.lineOutcome e x .timeout
    = (s.failedProgram x.block (e.failed x.block).blockAttempts .timeout).setHead (.line (e.failed x.block)) := by
  have hlt : (e.failed x.block).attempts < Config.programAttempts := by
    show e.attempts + 1 < 6
    omega
  unfold State.lineOutcome
  rw [hdropped]
  exact if_pos hlt

theorem lineOutcome_timeout_sixth (hdropped : e.dropped = false) (h : e.attempts = 5) (hmark : e.syncMark = false) :
    s.lineOutcome e x .timeout
      = (s.failedProgram x.block (e.failed x.block).blockAttempts .timeout).dropHead.reportFault
        { cause := .programFail, addr := none, line := some e.line, block := some x.block, slot := some x.slot,
          window := e.tag.map (·.window) } := by
  have hlt : ¬(e.failed x.block).attempts < Config.programAttempts := by
    show ¬e.attempts + 1 < 6
    omega
  unfold State.lineOutcome
  rw [hdropped, hmark]
  exact if_neg hlt

/-- A Timeout that takes a block to RETIRING: by its failures in a row, or by the entry's own attempts in it (R67, R90). -/
theorem failedProgram_timeout_retires {b n : Nat} (hw : Sparse.wf BlockEntry.unknown s.blocks.table = true)
    (h : (s.block b).failures = 2 ∨ n = 3 ∧ (s.block b).failures ≤ 2)
    (hstate : (s.block b).state = .opened ∨ (s.block b).state = .full) :
    s.failedProgram b n .timeout = (s.retiring b { s.block b with
      state := .retiring, nextFree := 0, failures := (s.block b).failures + 1 }).reportRetired b := by
  have hfailed : s.failedProgram b n .timeout
      = if Config.blockFailures ≤ n then (s.blockFailed b).retireBlock b else s.blockFailed b := rfl
  rw [hfailed]
  by_cases h2 : (s.block b).failures = 2
  · rw [blockFailed_retires hw h2 hstate, h2]
    have hretired : ((((s.retiring b { s.block b with state := .retiring, nextFree := 0, failures := 3 }).reportRetired
        b).block b)).state = .retiring := by rw [block_reportRetired, block_retiring hw]
    split_ifs
    · exact retireBlock_of_other _ b (by rw [hretired]; decide)
    · rfl
  · obtain ⟨hn, hle⟩ := h.resolve_left h2
    have hblock : (s.setBlock b { s.block b with failures := (s.block b).failures + 1 }).block b
        = { s.block b with failures := (s.block b).failures + 1 } := block_setBlock s b _ hw
    rw [blockFailed_of_le s b (by omega), if_pos (by rw [hn]; decide),
      retireBlock_eq _ b (by rw [hblock]; exact hstate), hblock]
    refine congrArg (fun t : State => State.reportRetired t b) ?_
    unfold State.retiring State.setBlock
    dsimp only
    rw [Sparse.set_set BlockEntry.unknown _ b _ _ hw]

/-! ### The queue's COMMIT entry (R67, R68, R123) -/

theorem commitOutcome_timeout_again (h : c.attempts ≤ 4) : s.commitOutcome c x .timeout
    = (s.failedProgram x.block (c.failed x.block).blockAttempts .timeout).setHead (.commit (c.failed x.block)) := by
  have hlt : (c.failed x.block).attempts < Config.programAttempts := by
    show c.attempts + 1 < 6
    omega
  exact if_pos hlt

theorem commitOutcome_timeout_sixth (h : c.attempts = 5) (hmark : c.syncMark = false) : s.commitOutcome c x .timeout
    = ((s.failedProgram x.block (c.failed x.block).blockAttempts .timeout).dropHead.reportFault
        { cause := .programFail, addr := none, line := none, block := some x.block, slot := some x.slot,
          window := some c.window }).lostCommit c.window := by
  have hlt : ¬(c.failed x.block).attempts < Config.programAttempts := by
    show ¬c.attempts + 1 < 6
    omega
  have hunmarked : s.commitOutcome c x .timeout
      = (((s.failedProgram x.block (c.failed x.block).blockAttempts .timeout).dropHead.noteDiscard
          c.syncMark).reportFault
            { cause := .programFail, addr := none, line := none, block := some x.block, slot := some x.slot,
              window := some c.window }).lostCommit c.window := if_neg hlt
  rw [hunmarked, hmark, noteDiscard_of_unmarked]

theorem foldl_revert_eq (xs : List ShadowEntry) (s : State) :
    xs.foldl State.revert s = { s with table := (xs.foldl State.revert s).table } := by
  induction xs generalizing s with
  | nil => rfl
  | cons y xs ih =>
    have hrevert : s.revert y = { s with table := (s.revert y).table } := by
      unfold State.revert
      dsimp only
      split_ifs <;> rfl
    rw [List.foldl_cons, ih (s.revert y), hrevert]

/-- What a lost COMMIT record leaves of the state, whatever its table (R123). -/
theorem lostCommit_frame (w : Nat) (hr : s.port.request = none) : s.lostCommit w = State.raise { s with
    table := (s.revertWindow w).table, windows := s.windowsDropped w } .groupDrop := by
  have hrevert : s.revertWindow w = { s with
      table := (s.revertWindow w).table,
      windows := { s.windows with shadow := s.windows.shadow.filter fun e => !decide (e.window = w) } } := by
    unfold State.revertWindow
    dsimp only
    rw [foldl_revert_eq]
  have hdropped : ((s.revertWindow w).freeRegisterOf (s.window w)).setWindow w (s.window w).dropped
      = { s with table := (s.revertWindow w).table, windows := s.windowsDropped w } := by
    rw [hrevert]
    unfold State.windowsDropped State.freeRegisterOf
    cases (s.window w).register <;> rfl
  have hlost : s.lostCommit w = State.wake (State.raise
      (((s.revertWindow w).freeRegisterOf (s.window w)).setWindow w (s.window w).dropped) .groupDrop) := rfl
  rw [hlost, hdropped]
  exact wake_of_none hr

/-! ### Drain programs (R157) -/

theorem drainOutcome_line_timeout (h : s.queue.entries = .line e :: qs) (hmark : e.syncMark = false) :
    s.drainOutcome x .timeout = ((s.failedProgram x.block (e.failed x.block).blockAttempts .timeout).dropHead.reportFault
      (lossReport (.line e) (some x))).oweTailMark x .drain := by
  unfold State.drainOutcome
  rw [h]
  exact congrArg (fun t => State.oweTailMark t x .drain) (discardEffects_line _ _ hmark)

/-! ### Copies (R87) -/

theorem copyOutcome_timeout {k : JobKind} {w : CopyWork} (h : s.copyOf k = some w) (h1 : (s.block x.block).failures ≤ 1)
    (hx : x.slot < 84) : s.copyOutcome k x .timeout = { s with blocks := { s.blocks.copyHeld w k with
      table := Sparse.set BlockEntry.unknown s.blocks.table x.block
        { s.block x.block with failures := (s.block x.block).failures + 1 } } } := by
  have hheld : (s.setCopy k (some { w with stage := .held })).blocks.table = s.blocks.table := by
    rw [setCopy_held]
    exact copyHeld_table _ _ _
  have hblock : (s.setCopy k (some { w with stage := .held })).block x.block = s.block x.block := block_of_table hheld _
  have houtcome : s.copyOutcome k x .timeout
      = (((s.setCopy k (some { w with stage := .held })).blockFailed x.block).oweTailMark x (s.copyRequester k)) := by
    unfold State.copyOutcome
    rw [h]
  rw [houtcome, blockFailed_of_le _ _ (by rw [hblock]; exact h1), hblock]
  unfold State.oweTailMark
  rw [if_neg fun hc => absurd hc.1 (Nat.ne_of_lt hx), setCopy_held]
  unfold State.setBlock
  dsimp only
  rw [copyHeld_table]

end

end Sys2Proof.Machine
end

section
/-! OPERATION_TIMEOUT of an operation in flight, before the flash is lost, by the purpose of the operation. -/

namespace Sys2Proof.Machine

section
variable {s : State} {o : Op} {left : Remnant} {e : LineEntry} {c : CommitEntry} {qs : List QEntry}

/-- The tail mark owed after a program of operation `o` for requester `r` (R77). -/
def State.tailAfter (s : State) (o : Op) (r : Requester) : Option Requester :=
  if o.offset / 48 = 84 ∧ (s.block o.block).state = .opened then some (if s.mgmt.mode = .drain then .drain else r)
  else s.blocks.tailOwed

/-- The block table with one more failure of block `b` (R90). -/
def State.tableFailed (s : State) (b : Nat) : Sparse BlockEntry :=
  Sparse.set BlockEntry.unknown s.blocks.table b { s.block b with failures := (s.block b).failures + 1 }

theorem takeOutcome_queueProgram {z : State} {res : ProgResult} (hp : o.purpose = .queueProgram) :
    z.takeOutcome o res = z.queueOutcome o.at res := by
  simp only [State.takeOutcome, hp]

variable (hon : s.power = .on) (hop : s.array.op = some o) (htime : s.array.timeouts ≤ 1)

section
include hon hop htime

theorem timeout_read (h : ((∃ i, o.purpose = .readPiece i ∨ o.purpose = .mergeRead i)
      ∧ (o.abandoned = true ∨ s.rankOne = none ∨ ∀ j, s.array.erase = some j → j.part ≠ .finished))
    ∨ o.purpose = .mountRead ∨ o.purpose = .markRead ∨ o.purpose = .wipeRead ∨ o.purpose = .mountTail) :
    exec (.operationTimeout left) s = .next (s.timedOut o left).settle := by
  refine exec_operationTimeout_kept hon hop htime ?_ rfl
  rcases h with ⟨⟨i, hp⟩, hover⟩ | hp
  · have htimed : (s.timedOut o left).array.timeouts < 3 := Nat.lt_succ_of_le (Nat.succ_le_succ htime)
    rw [takeOutcome_portRead htimed hp]
    exact readTimedOut_ends rfl htimed hover
  · exact takeOutcome_engineRead hp

theorem timeout_reloc {k : JobKind} (hp : o.purpose = .relocRead k) :
    exec (.operationTimeout left) s = .next ({ s.timedOut o left with blocks := match k with
      | .reclaim => { s.blocks with reclaimCopy := none }
      | .retirement => { s.blocks with retireCopy := none }
      | .release => { s.blocks with release := s.blocks.release.map fun j => { j with copy := none } } }
        : State).settle := by
  refine exec_operationTimeout_kept hon hop htime ?_ rfl
  have htake : (s.timedOut o left).takeOutcome o .timeout = (s.timedOut o left).setCopy k none := by
    simp only [State.takeOutcome, hp, if_true]
  rw [htake, setCopy_none] <;> cases k <;> rfl

/-! ### The head of the queue (R67, R68, R70, R157) -/

theorem timeout_line_dropped (hp : o.purpose = .queueProgram) (hq : s.queue.entries = .line e :: qs)
    (hdropped : e.dropped = true) : exec (.operationTimeout left) s = .next ({ s.timedOut o left with
      queue := { s.queue with entries := qs },
      blocks := { s.blocks with tailOwed := s.tailAfter o .queue } } : State).settle := by
  refine exec_operationTimeout_kept hon hop htime ?_ rfl
  have hz : (s.timedOut o left).queue.entries = .line e :: qs := hq
  rw [takeOutcome_queueProgram hp, queueOutcome_line hz, lineOutcome_timeout_dropped hdropped, dropHead_eq ⟨_, hz⟩,
    oweTailMark_eq]
  rfl

theorem timeout_line_again (hw : Sparse.wf BlockEntry.unknown s.blocks.table = true) (hp : o.purpose = .queueProgram)
    (hq : s.queue.entries = .line e :: qs) (hdropped : e.dropped = false) (hf : (s.block o.block).failures ≤ 1)
    (hb : e.lastBlock = some o.block → e.blockAttempts ≤ 1) (hatt : e.attempts ≤ 4) :
    exec (.operationTimeout left) s = .next ({ s.timedOut o left with
      queue := { s.queue with entries := .line (e.failed o.block) :: qs },
      blocks := { s.blocks with table := s.tableFailed o.block, tailOwed := s.tailAfter o .queue } } : State).settle := by
  refine exec_operationTimeout_kept hon hop htime ?_ rfl
  have hz : (s.timedOut o left).queue.entries = .line e :: qs := hq
  have hn : (e.failed o.at.block).blockAttempts ≤ 2 := countBlock_of_other hb
  rw [takeOutcome_queueProgram hp, queueOutcome_line hz, lineOutcome_timeout_again hdropped hatt,
    failedProgram_timeout_of_le _ _ _ (by exact hf) hn, setHead_setBlock,
    oweTailMark_setBlock _ (by exact hw), setHead_eq _ ⟨_, hz⟩]
  rfl

theorem timeout_line_sixth (hw : Sparse.wf BlockEntry.unknown s.blocks.table = true) (hp : o.purpose = .queueProgram)
    (hq : s.queue.entries = .line e :: qs) (hdropped : e.dropped = false) (hf : (s.block o.block).failures ≤ 1)
    (hb : e.lastBlock = some o.block → e.blockAttempts ≤ 1) (hatt : e.attempts = 5) (hmark : e.syncMark = false) :
    exec (.operationTimeout left) s = .next (State.reportFault { s.timedOut o left with
      queue := { s.queue with entries := qs },
      blocks := { s.blocks with table := s.tableFailed o.block, tailOwed := s.tailAfter o .queue } }
        { cause := .programFail, addr := none, line := some e.line, block := some o.block,
          slot := some (o.offset / 48), window := e.tag.map (·.window) }).settle := by
  refine exec_operationTimeout_kept hon hop htime ?_ (by rw [reportFault_array]; rfl)
  have hz : (s.timedOut o left).queue.entries = .line e :: qs := hq
  have hn : (e.failed o.at.block).blockAttempts ≤ 2 := countBlock_of_other hb
  rw [takeOutcome_queueProgram hp, queueOutcome_line hz, lineOutcome_timeout_sixth hdropped hatt hmark,
    failedProgram_timeout_of_le _ _ _ (by exact hf) hn, oweTailMark_reportFault, dropHead_setBlock,
    oweTailMark_setBlock _ (by exact hw), dropHead_eq ⟨_, hz⟩]
  rfl

theorem timeout_line_retires (hw : Sparse.wf BlockEntry.unknown s.blocks.table = true) (hp : o.purpose = .queueProgram)
    (hq : s.queue.entries = .line e :: qs) (hdropped : e.dropped = false) (hatt : e.attempts ≤ 4)
    (hf : (s.block o.block).failures = 2 ∨ e.lastBlock = some o.block ∧ e.blockAttempts = 2
      ∧ (s.block o.block).failures ≤ 2)
    (hstate : (s.block o.block).state = .opened ∨ (s.block o.block).state = .full) :
    exec (.operationTimeout left) s = .next ((State.retiring { s.timedOut o left with
      queue := { s.queue with entries := .line (e.failed o.block) :: qs } } o.block { s.block o.block with
        state := .retiring, nextFree := 0, failures := (s.block o.block).failures + 1 }).reportRetired o.block).settle := by
  refine exec_operationTimeout_kept hon hop htime ?_ (by rw [reportRetired_eq, reportFault_array]; rfl)
  have hz : (s.timedOut o left).queue.entries = .line e :: qs := hq
  have hretires : (s.block o.block).failures = 2
      ∨ (e.failed o.block).blockAttempts = 3 ∧ (s.block o.block).failures ≤ 2 := by
    refine hf.imp_right fun ⟨hlast, hattempts, hle⟩ => ⟨?_, hle⟩
    show countBlock e.lastBlock e.blockAttempts o.block = 3
    rw [countBlock, if_pos hlast, hattempts]
  rw [takeOutcome_queueProgram hp, queueOutcome_line hz, lineOutcome_timeout_again hdropped hatt,
    failedProgram_timeout_retires (by exact hw) (by exact hretires) (by exact hstate), setHead_reportRetired,
    oweTailMark_reportRetired, setHead_retiring, oweTailMark_retiring _ (by exact hw) rfl, setHead_eq _ ⟨_, hz⟩]
  rfl

theorem timeout_commit_again (hw : Sparse.wf BlockEntry.unknown s.blocks.table = true) (hp : o.purpose = .queueProgram)
    (hq : s.queue.entries = .commit c :: qs) (hf : (s.block o.block).failures ≤ 1)
    (hb : c.lastBlock = some o.block → c.blockAttempts ≤ 1) (hatt : c.attempts ≤ 4) :
    exec (.operationTimeout left) s = .next ({ s.timedOut o left with
      queue := { s.queue with entries := .commit (c.failed o.block) :: qs },
      blocks := { s.blocks with table := s.tableFailed o.block, tailOwed := s.tailAfter o .queue } } : State).settle := by
  refine exec_operationTimeout_kept hon hop htime ?_ rfl
  have hz : (s.timedOut o left).queue.entries = .commit c :: qs := hq
  have hn : (c.failed o.at.block).blockAttempts ≤ 2 := countBlock_of_other hb
  rw [takeOutcome_queueProgram hp, queueOutcome_commit hz, commitOutcome_timeout_again hatt,
    failedProgram_timeout_of_le _ _ _ (by exact hf) hn, setHead_setBlock,
    oweTailMark_setBlock _ (by exact hw), setHead_eq _ ⟨_, hz⟩]
  rfl

theorem timeout_commit_sixth (hp : o.purpose = .queueProgram) (hq : s.queue.entries = .commit c :: qs)
    (hf : (s.block o.block).failures ≤ 1) (hb : c.lastBlock = some o.block → c.blockAttempts ≤ 1) (hatt : c.attempts = 5)
    (hmark : c.syncMark = false) (hr : s.port.request = none) :
    ∃ u : State, exec (.operationTimeout left) s = .next u.settle ∧ u.queue = { s.queue with entries := qs }
      ∧ u.flash = (s.timedOut o left).flash ∧ u.array = (s.timedOut o left).array ∧ u.port = s.port
      ∧ u.windows = s.windowsDropped c.window ∧ u.eventSet .groupDrop = true
      ∧ (s.mgmt.fault = none → u.mgmt.fault = some
        { cause := .programFail, addr := none, line := none, block := some o.block,
          slot := some (o.offset / 48), window := some c.window }) := by
  have hz : (s.timedOut o left).queue.entries = .commit c :: qs := hq
  have hn : (c.failed o.at.block).blockAttempts ≤ 2 := countBlock_of_other hb
  have htake : (s.timedOut o left).takeOutcome o .timeout
      = (((((s.timedOut o left).setBlock o.block { s.block o.block with failures := (s.block o.block).failures + 1 }
        ).dropHead).reportFault
        { cause := .programFail, addr := none, line := none, block := some o.block,
          slot := some (o.offset / 48), window := some c.window }).lostCommit c.window).oweTailMark o.at .queue := by
    rw [takeOutcome_queueProgram hp, queueOutcome_commit hz, commitOutcome_timeout_sixth hatt hmark,
      failedProgram_timeout_of_le _ _ _ (by exact hf) hn]
    rfl
  obtain ⟨_, _, hqueue, hwindows, hport, _, _, hflash, harray, _⟩ := reportFault_frame
    (((s.timedOut o left).setBlock o.block { s.block o.block with failures := (s.block o.block).failures + 1 }).dropHead)
    { cause := .programFail, addr := none, line := none, block := some o.block,
      slot := some (o.offset / 48), window := some c.window }
  rw [lostCommit_frame c.window (by rw [hport]; exact hr), oweTailMark_eq] at htake
  refine ⟨_, exec_operationTimeout_kept hon hop htime htake (by rw [show _ = _ from harray]; rfl), ?_, hflash, harray, hport,
    ?_, eventSet_raise_same _ _, fun hnone => reportFault_of_none _ hnone⟩
  · refine hqueue.trans ?_
    rw [dropHead_setBlock, dropHead_eq ⟨_, hz⟩]
    rfl
  · show State.windowsDropped _ _ = _
    unfold State.windowsDropped State.window
    rw [hwindows]
    rfl

theorem timeout_drain_line (hw : Sparse.wf BlockEntry.unknown s.blocks.table = true) (hp : o.purpose = .drainProgram)
    (hq : s.queue.entries = .line e :: qs) (hf : (s.block o.block).failures ≤ 1)
    (hb : e.lastBlock = some o.block → e.blockAttempts ≤ 1) (hmark : e.syncMark = false) :
    exec (.operationTimeout left) s = .next (State.reportFault { s.timedOut o left with
      queue := { s.queue with entries := qs },
      blocks := { s.blocks with table := s.tableFailed o.block, tailOwed := s.tailAfter o .drain } }
        { cause := .drainLoss, addr := none, line := some e.line, block := some o.block,
          slot := some (o.offset / 48), window := e.tag.map (·.window) }).settle := by
  refine exec_operationTimeout_kept hon hop htime ?_ (by rw [reportFault_array]; rfl)
  have hz : (s.timedOut o left).queue.entries = .line e :: qs := hq
  have hn : (e.failed o.at.block).blockAttempts ≤ 2 := countBlock_of_other hb
  have htake : (s.timedOut o left).takeOutcome o .timeout = (s.timedOut o left).drainOutcome o.at .timeout := by
    simp only [State.takeOutcome, hp]
  rw [htake, drainOutcome_line_timeout hz hmark,
    failedProgram_timeout_of_le _ _ _ (by exact hf) hn, oweTailMark_reportFault, dropHead_setBlock,
    oweTailMark_setBlock _ (by exact hw), dropHead_eq ⟨_, hz⟩]
  rfl

end

end

end Sys2Proof.Machine
end

section
/-! OPERATION_TIMEOUT of the block manager's, the settings' and mount's programs, before the flash is lost. -/

namespace Sys2Proof.Machine

section
variable {s : State} {o : Op} {left : Remnant} {j : EraseJob}
theorem takeOutcome_block0 (hp : o.purpose = .block0Header ∨ o.purpose = .block0Record) (hj : s.array.erase = some j) :
    (s.timedOut o left).takeOutcome o .timeout = ((s.timedOut o left).useSlotOne j).countFailure j none := by
  have hjob : (s.timedOut o left).array.erase = some j := hj
  rcases hp with hp | hp <;> simp only [State.takeOutcome, hp, hjob] <;> rfl

variable (hon : s.power = .on) (hop : s.array.op = some o) (htime : s.array.timeouts ≤ 1)

section
include hon hop htime

theorem timeout_copy {k : JobKind} {w : CopyWork} (hp : o.purpose = .copyProgram k) (hw : s.copyOf k = some w)
    (hf : (s.block o.block).failures ≤ 1) (hslot : o.offset / 48 < 84) :
    exec (.operationTimeout left) s = .next ({ s.timedOut o left with
      blocks := { s.blocks.copyHeld w k with table := s.tableFailed o.block } } : State).settle := by
  refine exec_operationTimeout_kept hon hop htime ?_ rfl
  have htake : (s.timedOut o left).takeOutcome o .timeout = (s.timedOut o left).copyOutcome k o.at .timeout := by
    simp only [State.takeOutcome, hp]
  have hcopy : (s.timedOut o left).copyOf k = some w := hw
  rw [htake, copyOutcome_timeout hcopy (by exact hf) hslot]
  rfl

theorem timeout_opening {q : Requester} (hp : o.purpose = .opening q) :
    exec (.operationTimeout left) s = .next ({ s.timedOut o left with blocks := { s.blocks with
      table := Sparse.set BlockEntry.unknown s.blocks.table o.block
        { s.block o.block with state := .full, nextFree := 0 } } } : State).settle := by
  refine exec_operationTimeout_kept hon hop htime ?_ rfl
  simp only [State.takeOutcome, hp]
  rfl

theorem timeout_tailMark (hp : o.purpose = .tailMark) :
    exec (.operationTimeout left) s = .next ({ s.timedOut o left with blocks := { s.blocks with
      table := Sparse.set BlockEntry.unknown s.blocks.table o.block
        { s.block o.block with state := .full, nextFree := 0 },
      tailOwed := none } } : State).settle := by
  refine exec_operationTimeout_kept hon hop htime ?_ rfl
  simp only [State.takeOutcome, hp]
  rfl

theorem timeout_retireMark (hp : o.purpose = .retireMark) :
    exec (.operationTimeout left) s = .next ({ s.timedOut o left with blocks := { s.blocks with
      table := Sparse.set BlockEntry.unknown s.blocks.table o.block
        { s.block o.block with state := .retired, nextFree := 0 },
      retiring := s.blocks.retiring.filter fun x => !decide (x = o.block) } } : State).settle := by
  refine exec_operationTimeout_kept hon hop htime ?_ rfl
  simp only [State.takeOutcome, hp]
  rfl

theorem timeout_eraseMark (hp : o.purpose = .eraseMark) (hj : s.array.erase = some j) (howner : j.owner = .manager)
    (hvictim : s.blocks.victim = some j.block) : exec (.operationTimeout left) s
      = .next (((s.timedOut o left).reclaimRetired j).reportRetired j.block).settle := by
  refine exec_operationTimeout_kept hon hop htime ?_ (by rw [reportRetired_eq, reportFault_array]; rfl)
  have hjob : (s.timedOut o left).array.erase = some j := hj
  have htake : (s.timedOut o left).takeOutcome o .timeout = (s.timedOut o left).retireErased j := by
    simp only [State.takeOutcome, hp, hjob]
    rfl
  rw [htake, retireErased_of_reclaim howner (by exact hvictim)]

/-! ### Block 0's format (R138, R139, R187) -/

theorem timeout_block0_again (hp : o.purpose = .block0Header ∨ o.purpose = .block0Record) (hj : s.array.erase = some j)
    (howner : j.owner ≠ .manager) (h : j.virgin = true ∨ j.attempts ≤ 1) :
    exec (.operationTimeout left) s = .next (((s.timedOut o left).useSlotOne j).setErase (some { j with
      attempts := if j.virgin = true then 0 else j.attempts + 1,
      newCount := if j.virgin = true then 1 else j.newCount,
      part := .waiting, running := 0, clock := 0, suspends := 0, statusWait := false, virgin := false })).settle := by
  refine exec_operationTimeout_kept hon hop htime ?_ (congrArg ArrayPort.timeouts (useSlotOne_array _ j))
  rw [takeOutcome_block0 hp hj, countFailure_again howner h]

theorem timeout_block0_mount (hp : o.purpose = .block0Header ∨ o.purpose = .block0Record) (hj : s.array.erase = some j)
    (hblock : j.block = 0) (hv : j.virgin = false) (hatt : j.attempts = 2) (howner : j.owner = .mount) :
    exec (.operationTimeout left) s = .next ({ (s.timedOut o left).useSlotOne j with
      array := { ((s.timedOut o left).useSlotOne j).array with erase := none },
      mount := ((s.timedOut o left).useSlotOne j).mount.map fun m =>
        { m with block0Unusable := true, step := .ended, repairs := [] } } : State).settle := by
  refine exec_operationTimeout_kept hon hop htime ?_ (congrArg ArrayPort.timeouts (useSlotOne_array _ j))
  rw [takeOutcome_block0 hp hj, countFailure_third_block0 hv hatt hblock, block0Lost_of_mount howner]

theorem timeout_block0_wipe {step : WipeStep} (hp : o.purpose = .block0Header ∨ o.purpose = .block0Record)
    (hj : s.array.erase = some j) (hblock : j.block = 0) (hv : j.virgin = false) (hatt : j.attempts = 2)
    (howner : j.owner = .wipe) (hcommand : s.mgmt.command = .active (.wipe step false)) :
    ∃ v : State, exec (.operationTimeout left) s = .next v.settle ∧ v.mgmt.mode = .halted
      ∧ v.eventSet .modeChange = true ∧ v.activity = none ∧ v.flash = (s.timedOut o left).flash
      ∧ v.array = { (s.timedOut o left).array with erase := none } := by
  have hcommand' : ((s.timedOut o left).useSlotOne j).mgmt.command = .active (.wipe step false) := by
    rw [useSlotOne_eq]
    exact hcommand
  obtain ⟨hmode, hchange, hzero, _, _, hflash, harray⟩ := block0Lost_wipe_spec (j := j) howner hcommand'
  rw [useSlotOne_array] at harray
  have hidle : (((s.timedOut o left).useSlotOne j).block0Lost j).activity = none := by
    unfold State.activity
    rw [hzero]
  refine ⟨_, exec_operationTimeout_kept hon hop htime ?_ (congrArg ArrayPort.timeouts harray), hmode, hchange, hidle,
    hflash.trans ?_, harray⟩
  · rw [takeOutcome_block0 hp hj, countFailure_third_block0 hv hatt hblock]
  · rw [useSlotOne_eq]

/-! ### Settings and mount (R138, R179) -/

theorem timeout_settings {c : Code} {new : Settings} {issued : Bool} (hp : o.purpose = .settings)
    (hcommand : s.mgmt.command = .active (.append c new issued)) (hr : s.port.request = none) :
    exec (.operationTimeout left) s = .next ((s.timedOut o left).complete .media (s.appendResults c)).settle := by
  refine exec_operationTimeout_kept hon hop htime ?_ rfl
  have hcommand' : (s.timedOut o left).mgmt.command = .active (.append c new issued) := hcommand
  simp only [State.takeOutcome, hp, hcommand']
  refine (completeAppend_of_none c .media (by exact hr)).trans ?_
  rw [appendResults_eq, appendResults_eq]
  rfl

theorem timeout_mountHeader {m : Mount} (hp : o.purpose = .mountHeader) (hm : s.mount = some m) :
    exec (.operationTimeout left) s
      = .next ({ s.timedOut o left with mount := some { m with repairs := addErase o.block m.repairs } } : State).settle := by
  refine exec_operationTimeout_kept hon hop htime ?_ rfl
  have hmount : (s.timedOut o left).mount = some m := hm
  simp only [State.takeOutcome, hp, State.virginHeaderOutcome, State.withMount, hmount]
  rfl

end

end

end Sys2Proof.Machine
end

section
/-! OPERATION_TIMEOUT of a part of an erase before the flash is lost (R89, R99, R102, R103, R139, R187), the ready report
(R103), and a Timeout reported as an outcome (R96). -/

namespace Sys2Proof.Machine

/-! ### A part of an erase times out (R89, R99) -/

section
variable {s : State} {j : EraseJob} {left : Remnant}

/-- What a part of an erase that is timed leaves of the flash (R21, R103). -/
def State.partLeft (s : State) (j : EraseJob) (left : Remnant) : List Host.Cell :=
  if j.part = .erasing ∧ j.statusWait = false ∨ j.part = .suspending then leaveErase s.flash j.block left
  else if j.part = .header ∧ j.statusWait = false then
    leaveProgram s.flash j.block 0 (firstPart kindData j.newCount) left
  else s.flash

/-- The state in which a failed attempt by Timeout is counted (R103, R104). -/
def State.partTimedOut (s : State) (j : EraseJob) (left : Remnant) : State :=
  { s with
    flash := s.partLeft j left,
    array := { s.array with timeouts := s.array.timeouts + 1, uncertain := true } }

theorem leaveJob_of_timed (hpart : j.part = .erasing ∨ j.part = .suspending ∨ j.part = .blankCheck ∨ j.part = .header) :
    s.leaveJob j left = s.partLeft j left := by
  unfold State.leaveJob State.partLeft
  rcases hpart with hpart | hpart | hpart | hpart <;> rw [hpart] <;> cases j.statusWait <;> rfl

theorem eraseTimeout_eq (htime : s.array.timeouts ≤ 2)
    (hpart : j.part = .erasing ∨ j.part = .suspending ∨ j.part = .blankCheck ∨ j.part = .header) :
    s.eraseTimeout j left = (((s.partTimedOut j left).report .erase).countFailure j
      (if j.part = .header then some true else none)).checkLost (some j.block) none left := by
  have hmin : min (s.array.timeouts + 1) Config.lostTimeouts = s.array.timeouts + 1 :=
    Nat.min_eq_left (Nat.succ_le_succ htime)
  unfold State.eraseTimeout State.countTimeout
  dsimp only
  rw [hmin, leaveJob_of_timed hpart]
  rfl

theorem exec_operationTimeout_part (hon : s.power = .on) (hop : s.array.op = none) (hj : s.array.erase = some j)
    (hpart : j.part = .erasing ∨ j.part = .suspending ∨ j.part = .blankCheck ∨ j.part = .header) :
    exec (.operationTimeout left) s = .next (s.eraseTimeout j left).settle := by
  have htimed : j.part.timed = true := by rcases hpart with h | h | h | h <;> rw [h] <;> rfl
  have hexec : exec (.operationTimeout left) s = s.taken fun s => s.timeOut left := rfl
  rw [hexec, taken_eraseTimeout s j left hon hop hj htimed]

/-- The Timeout of a part of an erase that is not the third in a row. -/
theorem exec_operationTimeout_part_kept {u : State} (hon : s.power = .on) (hop : s.array.op = none)
    (hj : s.array.erase = some j)
    (hpart : j.part = .erasing ∨ j.part = .suspending ∨ j.part = .blankCheck ∨ j.part = .header)
    (htime : s.array.timeouts ≤ 1)
    (hcount : ((s.partTimedOut j left).report .erase).countFailure j (if j.part = .header then some true else none) = u)
    (hkept : u.array.timeouts = s.array.timeouts + 1) : exec (.operationTimeout left) s = .next u.settle := by
  rw [exec_operationTimeout_part hon hop hj hpart, eraseTimeout_eq (by omega) hpart, hcount, checkLost_of_kept]
  omega

theorem thirdFailure_timeout (hmode : s.mgmt.mode ≠ .drain) :
    s.thirdFailure j (if j.part = .header then some true else none)
      = s.setErase (some { j.third with part := if j.part = .header then .mark else .markRead }) := by
  by_cases hheader : j.part = .header
  · rw [if_pos hheader, if_pos hheader]
    exact thirdFailure_mark hmode
  · rw [if_neg hheader, if_neg hheader]
    exact thirdFailure_read hmode

end

/-! ### The ready report (R103) -/

theorem exec_flashReportsReady_op {s : State} {o : Op} (hon : s.power = .on) (hop : s.array.op = some o)
    (hstatus : o.statusWait = true) : exec .flashReportsReady s = .next ({ s with array := { s.array with
      op := some { o with statusWait := false, running := 0 }, uncertain := false } } : State).settle := by
  have hexec : exec .flashReportsReady s = .next s.flashReady.settle := taken_on s State.flashReady hon
  rw [hexec]
  unfold State.flashReady
  rw [hop]
  dsimp only
  rw [if_pos hstatus]

theorem exec_flashReportsReady_erase {s : State} {j : EraseJob} (hon : s.power = .on) (hop : s.array.op = none)
    (hj : s.array.erase = some j) (hstatus : j.statusWait = true) :
    exec .flashReportsReady s = .next ({ s with array := { s.array with
      erase := some { j with statusWait := false, clock := 0 }, uncertain := false } } : State).settle := by
  have hexec : exec .flashReportsReady s = .next s.flashReady.settle := taken_on s State.flashReady hon
  rw [hexec]
  unfold State.flashReady
  rw [hop, hj]
  dsimp only
  rw [if_pos hstatus, hop]

/-! ### A Timeout reported as an outcome (R96) -/

theorem taken_congr {s : State} {f g : State → State} (h : f s = g s) : s.taken f = s.taken g := by
  unfold State.taken
  rw [h]

/-- A program's Timeout, reported as the outcome of its purpose, is the expiry of its limit. -/
theorem programEnd_timedOut {s : State} {o : Op} {is : Purpose → Bool} (left : Remnant) (hop : s.array.op = some o)
    (hi : is o.purpose = true) : s.programEnd is (.timedOut left) = s.timeOut left := by
  unfold State.programEnd State.timeOut
  rw [hop]
  exact if_pos hi

theorem exec_timedOut {s : State} {o : Op} {c : Instr} {left : Remnant} (hop : s.array.op = some o)
    (hc : c = .queueProgramOutcome (.timedOut left) ∧ o.purpose = .queueProgram
      ∨ c = .copyProgramOutcome (.timedOut left) ∧ (∃ k, o.purpose = .copyProgram k)
      ∨ c = .openingProgramOutcome (.timedOut left) ∧ (∃ q, o.purpose = .opening q)
      ∨ c = .tailMarkOutcome (.timedOut left) ∧ o.purpose = .tailMark
      ∨ c = .retireMarkOutcome (.timedOut left) ∧ (o.purpose = .retireMark ∨ o.purpose = .eraseMark)
      ∨ c = .drainProgramOutcome (.timedOut left) ∧ o.purpose = .drainProgram
      ∨ c = .settingsAppendOutcome (.timedOut left) ∧ o.purpose = .settings
      ∨ c = .mountRepairProgramOutcome (.timedOut left) ∧ (o.purpose = .mountHeader ∨ o.purpose = .mountTail)) :
    exec c s = exec (.operationTimeout left) s := by
  have hreported : ∀ is : Purpose → Bool, is o.purpose = true →
      s.taken (fun s => s.programEnd is (.timedOut left)) = exec (.operationTimeout left) s := fun is hi => by
    have hlimit : exec (.operationTimeout left) s = s.taken fun s => s.timeOut left := rfl
    rw [hlimit]
    exact taken_congr (programEnd_timedOut left hop hi)
  rcases hc with ⟨rfl, hp⟩ | ⟨rfl, k, hp⟩ | ⟨rfl, q, hp⟩ | ⟨rfl, hp⟩ | ⟨rfl, hp⟩ | ⟨rfl, hp⟩ | ⟨rfl, hp⟩ | ⟨rfl, hp⟩
  · exact hreported (fun p => decide (p = .queueProgram)) (decide_eq_true hp)
  · exact hreported Purpose.isCopy (by rw [hp]; rfl)
  · exact hreported Purpose.isOpening (by rw [hp]; rfl)
  · exact hreported (fun p => decide (p = .tailMark)) (decide_eq_true hp)
  · exact hreported (fun p => decide (p = .retireMark) || decide (p = .eraseMark)) (by simpa using hp)
  · exact hreported (fun p => decide (p = .drainProgram)) (decide_eq_true hp)
  · exact hreported (fun p => decide (p = .settings)) (decide_eq_true hp)
  · have hrepair : s.isRepair o.purpose = true := by
      unfold State.isRepair
      rw [Bool.or_eq_true, Bool.or_eq_true, decide_eq_true_eq, decide_eq_true_eq]
      exact .inl hp
    have hoffered : exec (.mountRepairProgramOutcome (.timedOut left)) s
        = s.taken fun s => s.programEnd s.isRepair (.timedOut left) := rfl
    have hlimit : exec (.operationTimeout left) s = s.taken fun s => s.timeOut left := rfl
    rw [hoffered, hlimit]
    exact taken_congr (programEnd_timedOut left hop hrepair)

end Sys2Proof.Machine
end

section
/-! The loss of the flash at the third Timeout in a row (R105, R136, R160), and the read piece it ends (R15, R41). -/

namespace Sys2Proof.Machine

section
variable {s u : State} {o : Op} {left : Remnant}

/-! ### The loss (R105, R136, R160) -/

/-- A mount that the loss of the flash ends (R136). -/
def Mount.lost (m : Mount) : Mount := { m with flashLost := true, step := .ended, repairs := [] }

/-- What the loss of the flash makes of `v`, with FLASH_LOST naming a block and a slot. -/
structure FlashLost (v t : State) (block : Nat) (slot : Option Nat) : Prop where
  array : t.array = { v.array with op := none, erase := none }
  flash : t.flash = v.flash
  fault : v.mgmt.fault = none → t.mgmt.fault = some
    { cause := .flashLost, addr := none, line := none, block := some block, slot := slot, window := none }
  halted : (v.mgmt.mode = .run ∨ v.mgmt.mode = .readonly ∨ v.mgmt.mode = .drain ∨ v.mgmt.mode = .service) →
    t.mgmt.mode = .halted ∧ t.eventSet .modeChange = true ∧ t.activity = none
      ∧ t.drain = { v.drain with phase := .inactive, returnMode := none, releasePending := false }
  mount : v.mgmt.mode = .mount → t.mgmt.mode = .mount ∧ t.mount = v.mount.map Mount.lost

/-- The state in which the loss is taken: FLASH_LOST is reported, nothing is in flight. -/
def State.lossReported (v : State) (block slot : Option Nat) : State :=
  { v.reportFault { faultOf .flashLost with block := block, slot := slot } with
    array := { v.array with op := none, erase := none } }

theorem loseFlash_eq (v : State) (block slot : Option Nat) : v.loseFlash block slot = match v.mgmt.mode with
    | .mount => { v.lossReported block slot with mount := v.mount.map Mount.lost }
    | .run | .readonly | .drain | .service => (v.lossReported block slot).enterHalted
    | .halted => v.lossReported block slot := by
  obtain ⟨_, hmode, _, _, _, _, _, _, harray, _, hmount, _⟩ :=
    reportFault_frame v { faultOf .flashLost with block := block, slot := slot }
  have hmode' : (v.lossReported block slot).mgmt.mode = v.mgmt.mode := hmode
  have hmount' : (v.lossReported block slot).mount = v.mount := hmount
  have hlose : v.loseFlash block slot = match (v.lossReported block slot).mgmt.mode with
      | .mount => { v.lossReported block slot with mount := (v.lossReported block slot).mount.map Mount.lost }
      | .run | .readonly | .drain | .service => (v.lossReported block slot).enterHalted
      | .halted => v.lossReported block slot := by
    unfold State.loseFlash State.lossReported
    dsimp only
    rw [harray] <;> rfl
  rw [hlose, hmode', hmount']

theorem flashLost_loseFlash (v : State) (block : Nat) (slot : Option Nat) :
    FlashLost v (v.loseFlash (some block) slot) block slot := by
  obtain ⟨_, _, _, _, _, _, _, hflash, _, hdrain, _⟩ :=
    reportFault_frame v { faultOf .flashLost with block := some block, slot := slot }
  have hfault : v.mgmt.fault = none → (v.lossReported (some block) slot).mgmt.fault = some
      { cause := .flashLost, addr := none, line := none, block := some block, slot := slot, window := none } :=
    fun h => reportFault_of_none _ h
  rw [loseFlash_eq]
  by_cases hmount : v.mgmt.mode = .mount
  · rw [hmount]
    refine ⟨rfl, hflash, hfault, fun h => ?_, fun _ => ⟨?_, rfl⟩⟩
    · rw [hmount] at h
      simp at h
    · obtain ⟨_, hmode, _⟩ := reportFault_frame v { faultOf .flashLost with block := some block, slot := slot }
      exact hmode.trans hmount
  · have hhalted : FlashLost v (v.lossReported (some block) slot).enterHalted block slot := by
      obtain ⟨eflash, earray, edrain, efault, _, emode, echange, eidle⟩ :=
        enterHalted_spec (v.lossReported (some block) slot)
      refine ⟨earray, eflash.trans hflash, fun h => efault.trans (hfault h), fun _ => ⟨emode, echange, eidle, ?_⟩,
        fun h => absurd h hmount⟩
      rw [edrain]
      exact congrArg
        (fun d : Drain => { d with phase := .inactive, returnMode := none, releasePending := false }) hdrain
    cases hmode : v.mgmt.mode with
    | mount => exact absurd hmode hmount
    | halted =>
      refine ⟨rfl, hflash, hfault, fun h => ?_, fun h => ?_⟩
      all_goals simp [hmode] at h
    | run | readonly | drain | service => exact hhalted

end

end Sys2Proof.Machine
end

section
/-! What the requesters leave of the state at the third Timeout in a row, and the loss that follows (R105, R136, R160). -/

namespace Sys2Proof.Machine

section
variable {s z u : State} {o : Op} {j : EraseJob} {left : Remnant}

/-- What the loss of the flash reads: a requester that takes the last Timeout changes none of it (R105). -/
def State.atLoss (s : State) : List Host.Cell × Drain × Option FaultReport × Mode × Option Mount × ArrayPort :=
  (s.flash, s.drain, s.mgmt.fault, s.mgmt.mode, s.mount.map Mount.lost, { s.array with erase := none })

/-- The state in which the loss is declared: what was in flight left the flash as `left` says (R21, R103). -/
def State.leftLost (z u : State) (left : Remnant) : State :=
  { z with flash := match u.array.erase with
      | some j => u.leaveJob j left
      | none => z.flash }

theorem flashLost_checkLost (hkept : u.atLoss = z.atLoss) (htime : z.array.timeouts = 3) (block : Nat)
    (slot : Option Nat) : FlashLost (z.leftLost u left) (u.checkLost (some block) slot left) block slot := by
  simp only [State.atLoss, Prod.mk.injEq] at hkept
  obtain ⟨hflash, hdrain, hfault, hmode, hmount, harray⟩ := hkept
  have hbare : { u.array with op := none, erase := none } = { z.array with op := none, erase := none } :=
    congrArg (fun a : ArrayPort => { a with op := none }) harray
  have hcount : u.array.timeouts = z.array.timeouts := (congrArg ArrayPort.timeouts harray :)
  have hlost : u.flashLost = true := decide_eq_true (by rw [hcount, htime]; exact Nat.le_refl 3)
  have hcarry : ∀ v t : State, v.array = u.array → v.drain = u.drain → v.mgmt = u.mgmt → v.mount = u.mount →
      v.flash = (z.leftLost u left).flash → FlashLost v t block slot → FlashLost (z.leftLost u left) t block slot := by
    rintro v t varray vdrain vmgmt vmount vflash ⟨tarray, tflash, tfault, thalted, tmount⟩
    rw [vmgmt] at tfault thalted tmount
    refine ⟨?_, tflash.trans vflash, fun h => tfault (hfault.trans h), fun h => ?_, fun h => ?_⟩
    · rw [tarray, varray]
      exact hbare
    · rw [vdrain, hdrain] at thalted
      exact thalted (by rw [hmode]; exact h)
    · rw [vmount, hmount] at tmount
      exact tmount (hmode.trans h)
  unfold State.checkLost
  rw [if_pos hlost]
  cases he : u.array.erase with
  | none => exact hcarry u _ rfl rfl rfl rfl (by rw [State.leftLost, he]; exact hflash) (flashLost_loseFlash _ _ _)
  | some j =>
    exact hcarry { u with flash := u.leaveJob j left } _ rfl rfl rfl rfl (by rw [State.leftLost, he])
      (flashLost_loseFlash _ _ _)

/-! ### Reads -/

theorem atLoss_of_keeps (hkeeps : u.keeps = z.keeps) (hmode : u.mgmt.mode = z.mgmt.mode) : u.atLoss = z.atLoss := by
  simp only [State.keeps, Prod.mk.injEq] at hkeeps
  obtain ⟨hflash, harray, hdrain, hfault, hmount⟩ := hkeeps
  simp only [State.atLoss, hflash, harray, hdrain, hfault, hmount, hmode]

theorem losePiece_mgmt (z : State) (i : Nat) : (z.losePiece i).mgmt = z.mgmt := by
  unfold State.losePiece
  split
  · rfl
  · split <;> rfl

theorem readTimedOut_of_lost (hlost : z.flashLost = true) : z.readTimedOut o = z := by
  have hgrant : z.grant = z := if_pos (by rw [hlost]; exact Bool.or_true _)
  unfold State.readTimedOut
  split
  · rw [hgrant, ite_self]
  · rfl

theorem takeOutcome_lostRead (hlost : z.flashLost = true) (hp : o.purpose.isProgram = false) :
    (z.takeOutcome o .timeout).atLoss = z.atLoss ∧ (z.takeOutcome o .timeout).array = z.array := by
  cases hpurpose : o.purpose with
  | readPiece i =>
    simp only [State.takeOutcome, hpurpose, if_true]
    unfold State.pieceTimedOut
    split_ifs
    · exact ⟨atLoss_of_keeps (keeps_losePiece z i) (by rw [losePiece_mgmt]),
        congrArg (fun k => k.2.1) (keeps_losePiece z i)⟩
    · rw [readTimedOut_of_lost hlost]
      exact ⟨rfl, rfl⟩
  | mergeRead i =>
    simp only [State.takeOutcome, hpurpose, if_true, readTimedOut_of_lost hlost, and_self]
  | relocRead k =>
    have htake : z.takeOutcome o .timeout = z.setCopy k none := by simp only [State.takeOutcome, hpurpose, if_true]
    rw [htake, setCopy_none]
    exact ⟨rfl, rfl⟩
  | mountRead | markRead | wipeRead => simp only [State.takeOutcome, hpurpose, and_self]
  | copyProgram k | queueProgram | drainProgram | opening q | tailMark | retireMark | eraseMark | settings | mountHeader
  | mountTail | block0Header | block0Record =>
    simp [hpurpose, Purpose.isProgram] at hp

/-! ### Programs -/

theorem takeOutcome_lostLine {e : LineEntry} {qs : List QEntry} (hp : o.purpose = .queueProgram)
    (hq : z.queue.entries = .line e :: qs) (hf : (z.block o.block).failures ≤ 1)
    (h : e.dropped = true ∨ e.attempts ≤ 4 ∧ (e.lastBlock = some o.block → e.blockAttempts ≤ 1)) :
    (z.takeOutcome o .timeout).atLoss = z.atLoss ∧ (z.takeOutcome o .timeout).array = z.array := by
  rw [takeOutcome_queueProgram hp, queueOutcome_line hq]
  by_cases hdropped : e.dropped = true
  · rw [lineOutcome_timeout_dropped hdropped, oweTailMark_eq]
    exact ⟨rfl, rfl⟩
  · obtain ⟨hatt, hb⟩ := h.resolve_left hdropped
    have hn : (e.failed o.at.block).blockAttempts ≤ 2 := countBlock_of_other hb
    rw [lineOutcome_timeout_again (Bool.eq_false_iff.mpr hdropped) hatt,
      failedProgram_timeout_of_le _ _ _ (by exact hf) hn, oweTailMark_eq]
    exact ⟨rfl, rfl⟩

theorem takeOutcome_lostCommit {c : CommitEntry} {qs : List QEntry} (hp : o.purpose = .queueProgram)
    (hq : z.queue.entries = .commit c :: qs) (hf : (z.block o.block).failures ≤ 1) (hatt : c.attempts ≤ 4)
    (hb : c.lastBlock = some o.block → c.blockAttempts ≤ 1) :
    (z.takeOutcome o .timeout).atLoss = z.atLoss ∧ (z.takeOutcome o .timeout).array = z.array := by
  have hn : (c.failed o.at.block).blockAttempts ≤ 2 := countBlock_of_other hb
  rw [takeOutcome_queueProgram hp, queueOutcome_commit hq, commitOutcome_timeout_again hatt,
    failedProgram_timeout_of_le _ _ _ (by exact hf) hn, oweTailMark_eq]
  exact ⟨rfl, rfl⟩

theorem takeOutcome_lostCopy {k : JobKind} (hp : o.purpose = .copyProgram k) (hf : (z.block o.block).failures ≤ 1) :
    (z.takeOutcome o .timeout).atLoss = z.atLoss ∧ (z.takeOutcome o .timeout).array = z.array := by
  have htake : z.takeOutcome o .timeout = z.copyOutcome k o.at .timeout := by simp only [State.takeOutcome, hp]
  rw [htake]
  unfold State.copyOutcome
  cases hcopy : z.copyOf k with
  | none => exact ⟨rfl, rfl⟩
  | some w =>
    have hblock : (z.setCopy k (some { w with stage := .held })).block o.at.block = z.block o.block :=
      block_of_table (by rw [setCopy_held]; exact copyHeld_table _ _ _) _
    dsimp only
    rw [blockFailed_of_le _ _ (by rw [hblock]; exact hf), oweTailMark_eq, setCopy_held]
    exact ⟨rfl, rfl⟩

theorem takeOutcome_lostMark (hp : (∃ r, o.purpose = .opening r) ∨ o.purpose = .tailMark ∨ o.purpose = .retireMark
      ∨ o.purpose = .mountTail) :
    (z.takeOutcome o .timeout).atLoss = z.atLoss ∧ (z.takeOutcome o .timeout).array = z.array := by
  rcases hp with ⟨r, hp⟩ | hp | hp | hp <;> simp only [State.takeOutcome, hp] <;> exact ⟨rfl, rfl⟩

theorem takeOutcome_lostHeader (hp : o.purpose = .mountHeader) :
    (z.takeOutcome o .timeout).atLoss = z.atLoss ∧ (z.takeOutcome o .timeout).array = z.array := by
  have htake : z.takeOutcome o .timeout = z.withMount fun m => { m with repairs := addErase o.block m.repairs } := by
    simp only [State.takeOutcome, hp]
    rfl
  rw [htake]
  refine ⟨?_, rfl⟩
  unfold State.atLoss
  cases hm : z.mount <;> rw [withMount_mount, hm] <;> rfl

end

end Sys2Proof.Machine
end

section
/-! OPERATION_TIMEOUT that loses the flash (R15, R41, R102 to R105, R136, R160), and O56. -/

namespace Sys2Proof.Machine

section
variable {s z u : State} {o : Op} {r : Request} {p : Piece} {j : EraseJob} {left : Remnant}

/-! ### The third Timeout in a row (R105) -/

/-- The loss after the requester took the third Timeout: `z` is the state in which it took it, `u` the state it left. -/
theorem exec_lost {block : Nat} {slot : Option Nat} {cells : List Host.Cell}
    (hexec : exec (.operationTimeout left) s = .next (u.checkLost (some block) slot left).settle)
    (hkept : u.atLoss = z.atLoss) (htime : z.array.timeouts = 3) (huncertain : z.array.uncertain = true)
    (hmgmt : z.mgmt.fault = s.mgmt.fault ∧ z.mgmt.mode = s.mgmt.mode) (hdrain : z.drain = s.drain)
    (hmount : z.mount = s.mount) (hcells : (z.leftLost u left).flash = cells) :
    ∃ t : State, exec (.operationTimeout left) s = .next t.settle
      ∧ t.array.timeouts = 3 ∧ t.array.uncertain = true ∧ t.array.op = none ∧ t.array.erase = none ∧ t.flash = cells
      ∧ (s.mgmt.fault = none → t.mgmt.fault = some
          { cause := .flashLost, addr := none, line := none, block := some block, slot := slot, window := none })
      ∧ ((s.mgmt.mode = .run ∨ s.mgmt.mode = .readonly ∨ s.mgmt.mode = .drain ∨ s.mgmt.mode = .service) →
        t.mgmt.mode = .halted ∧ t.eventSet .modeChange = true ∧ t.activity = none
          ∧ t.drain = { s.drain with phase := .inactive, returnMode := none, releasePending := false })
      ∧ (s.mgmt.mode = .mount → t.mgmt.mode = .mount
        ∧ t.mount = s.mount.map fun m => { m with flashLost := true, step := .ended, repairs := [] }) := by
  obtain ⟨tarray, tflash, tfault, thalted, tmount⟩ := flashLost_checkLost (left := left) hkept htime block slot
  obtain ⟨hfault, hmode⟩ := hmgmt
  have zarray : (z.leftLost u left).array = z.array := rfl
  rw [zarray] at tarray
  refine ⟨_, hexec, ?_, ?_, ?_, ?_, tflash.trans hcells, fun h => tfault (hfault.trans h), fun h => ?_, fun h => ?_⟩
  · rw [tarray]
    exact htime
  · rw [tarray]
    exact huncertain
  · rw [tarray]
  · rw [tarray]
  · rw [← hdrain]
    exact thalted (by rw [← hmode] at h; exact h)
  · rw [← hmount]
    exact tmount (hmode.trans h)

theorem exec_operationTimeout_checkLost (hon : s.power = .on) (hop : s.array.op = some o) (htime : s.array.timeouts = 2) :
    exec (.operationTimeout left) s
      = .next (((s.timedOut o left).takeOutcome o .timeout).checkLost (some o.block) o.lostSlot left).settle := by
  rw [exec_operationTimeout_op hon hop, opTimeout_eq (by omega)]

theorem timedOut_timeouts (htime : s.array.timeouts = 2) : (s.timedOut o left).array.timeouts = 3 :=
  congrArg (· + 1) htime

theorem timedOut_flashLost (htime : s.array.timeouts = 2) : (s.timedOut o left).flashLost = true :=
  decide_eq_true (by rw [timedOut_timeouts htime]; exact Nat.le_refl 3)

/-- What an erase leaves that is not in its ERASE part, its suspend or its header program. -/
theorem leaveJob_of_untimed (h1 : j.part ≠ .erasing) (h2 : j.part ≠ .suspending) (h3 : j.part ≠ .header) :
    s.leaveJob j left = if j.part = .suspended ∨ j.part = .erasing ∨ j.part = .suspending then
      leaveErase s.flash j.block left else s.flash := by
  unfold State.leaveJob
  cases hpart : j.part with
  | erasing => exact absurd hpart h1
  | suspending => exact absurd hpart h2
  | header => exact absurd hpart h3
  | waiting | suspended | finished | blankCheck | headerHeld | markRead | mark | firstPart | record => rfl

/-! ### Programs that take the third Timeout -/

/-- The programs of which the statement of the loss speaks. -/
def State.losesProgram (s : State) (o : Op) : Prop :=
  (∃ r, o.purpose = .opening r) ∨ o.purpose = .tailMark ∨ o.purpose = .retireMark ∨ o.purpose = .mountHeader
    ∨ o.purpose = .mountTail
    ∨ (∃ k, o.purpose = .copyProgram k ∧ (s.block o.block).failures ≤ 1)
    ∨ o.purpose = .queueProgram ∧ (s.block o.block).failures ≤ 1
      ∧ ((∃ e qs, s.queue.entries = .line e :: qs
          ∧ (e.dropped = true ∨ e.attempts ≤ 4 ∧ (e.lastBlock = some o.block → e.blockAttempts ≤ 1)))
        ∨ (∃ e qs, s.queue.entries = .commit e :: qs ∧ e.attempts ≤ 4
          ∧ (e.lastBlock = some o.block → e.blockAttempts ≤ 1)))

theorem isProgram_of_losesProgram (h : s.losesProgram o) : o.purpose.isProgram = true := by
  rcases h with ⟨r, hp⟩ | hp | hp | hp | hp | ⟨k, hp, _⟩ | ⟨hp, _⟩ <;> rw [hp] <;> rfl

theorem takeOutcome_losesProgram (h : s.losesProgram o) :
    ((s.timedOut o left).takeOutcome o .timeout).atLoss = (s.timedOut o left).atLoss
      ∧ ((s.timedOut o left).takeOutcome o .timeout).array = (s.timedOut o left).array := by
  rcases h with hp | hp | hp | hp | hp | ⟨k, hp, hf⟩ | ⟨hp, hf, hhead⟩
  · exact takeOutcome_lostMark (.inl hp)
  · exact takeOutcome_lostMark (.inr (.inl hp))
  · exact takeOutcome_lostMark (.inr (.inr (.inl hp)))
  · exact takeOutcome_lostHeader hp
  · exact takeOutcome_lostMark (.inr (.inr (.inr hp)))
  · exact takeOutcome_lostCopy hp hf
  · rcases hhead with ⟨e, qs, hq, h⟩ | ⟨e, qs, hq, hatt, hb⟩
    · exact takeOutcome_lostLine hp hq hf h
    · exact takeOutcome_lostCommit hp hq hf hatt hb

theorem lostSlot_of_program (h : o.purpose.isProgram = true) :
    o.lostSlot = if o.offset < 4080 then some (o.offset / 48) else none := by
  have hslot : o.lostSlot
      = if (o.purpose.isProgram && decide (o.offset < 4080)) = true then some (o.offset / 48) else none := rfl
  simp only [hslot, h, Bool.true_and, decide_eq_true_eq]

theorem lostSlot_of_read (h : o.purpose.isProgram = false) : o.lostSlot = none := by
  unfold Op.lostSlot
  rw [h]
  rfl

/-! ### A part of an erase that takes the third Timeout -/

theorem countFailure_waits (mark : Option Bool) (h : j.attempts ≤ 1) :
    (s.countFailure j mark).atLoss = s.atLoss ∧ ∃ k : EraseJob, (s.countFailure j mark).array.erase = some k
      ∧ k.part = .waiting := by
  cases hv : j.virgin with
  | false =>
    rw [countFailure_next hv h]
    exact ⟨rfl, _, rfl, rfl⟩
  | true =>
    have hcount : s.countFailure j mark = s.setErase (some { j.again 0 with newCount := 1 }) := if_pos hv
    rw [hcount]
    exact ⟨rfl, _, rfl, rfl⟩

/-! ### The answer of the read whose flash is lost (R14, R15, R41) -/

theorem answerRead_port_of_lost {bytes : List Byte} (hpieces : r.pieces = [p])
    (hended : p.result = some { bytes := bytes, cause := some .flashLost }) :
    (s.answerRead r).port = { s.port with
        request := none, response := some { cause := some .flashLost, data := bytes } }
      ∧ (s.answerRead r).mgmt.mode = s.mgmt.mode := by
  have hcause : p.cause = some .flashLost := by rw [Piece.cause, hended]; rfl
  have hserved : p.served = bytes := by rw [Piece.served, hended]; rfl
  have hdata : (r.pieces.map Piece.served).flatten = bytes := by
    rw [hpieces, List.map_singleton, List.flatten_singleton, hserved]
  have hall : r.pieces.all (fun q => q.result.isSome) = true := by rw [hpieces]; simp [hended]
  have hfind : r.pieces.find? (fun q => q.cause.isSome) = some p := by rw [hpieces]; simp [hcause]
  rw [answerRead_of_failed hall hfind hcause, hdata]
  obtain ⟨_, hmode, _, _, hport, _⟩ := reportFault_frame (s.respond (some .flashLost) bytes)
    (s.upstreamFault .flashLost r.addr)
  have hpath : (s.respond (some .flashLost) bytes).mgmt = s.mgmt
      ∧ (s.respond (some .flashLost) bytes).port = { s.port with
        request := none, response := some { cause := some .flashLost, data := bytes } } := by
    unfold State.respond State.abandonRead
    refine ⟨?_, rfl⟩
    split
    · rfl
    · split <;> rfl
  exact ⟨hport.trans hpath.2, hmode.trans (congrArg Mgmt.mode hpath.1)⟩

theorem portStep_of_halted (hr : s.port.request = some r) (hphase : r.phase = .reading) (hm : s.mgmt.mode = .halted)
    (hop : s.array.op = none) : s.portStep = s.answerRead { r with pieces := s.resolvePieces r.pieces } := by
  have hidle : s.readInFlight = false := by
    unfold State.readInFlight
    rw [hop]
  simp [State.portStep, hr, hphase, State.stepRead, hm, hidle]

/-- In HALTED a read of one piece that ended with FLASH_LOST is answered. -/
theorem settle_port_of_lost {bytes : List Byte} (hm : s.mgmt.mode = .halted) (hop : s.array.op = none)
    (hr : s.port.request = some r) (hphase : r.phase = .reading) (hpieces : r.pieces = [p])
    (hended : p.result = some { bytes := bytes, cause := some .flashLost }) :
    s.settle.port = { s.port with
      request := none, response := some { cause := some .flashLost, data := bytes } } := by
  have hround : s.settleRound = s.settleGroups.portStep := settleRound_of_settled s (by rw [hm]; rfl)
  have hkept : s.settleGroups.resolvePieces r.pieces = [p] := by
    rw [hpieces, State.resolvePieces, hended]
    rfl
  have hstep : s.settleGroups.portStep = s.settleGroups.answerRead { r with pieces := [p] } := by
    rw [portStep_of_halted (by rw [settleGroups_port]; exact hr) hphase (by rw [settleGroups_mgmt]; exact hm)
      (by rw [settleGroups_array]; exact hop), hkept]
  obtain ⟨hport, hmode⟩ := answerRead_port_of_lost (s := s.settleGroups) (r := { r with pieces := [p] }) rfl hended
  rw [settleGroups_port] at hport
  rw [settleGroups_mgmt] at hmode
  have hround' : s.settleRound.settleRound = s.settleRound.settleGroups.portStep :=
    settleRound_of_settled _ (by rw [hround, hstep, hmode, hm]; rfl)
  rw [settle_eq, settleTail_port, hround', portStep_of_none]
  · rw [settleGroups_port, hround, hstep, hport]
  · rw [settleGroups_port, hround, hstep, hport]

/-- Outside MOUNT the loss leaves the port to what follows: the entry to HALTED takes no reading request up afresh. -/
theorem checkLost_port (hlost : u.flashLost = true) (hread : u.port.unwoken)
    (hm : u.mgmt.mode = .run ∨ u.mgmt.mode = .readonly ∨ u.mgmt.mode = .drain) (block slot : Option Nat) :
    (u.checkLost block slot left).port = u.port ∧ (u.checkLost block slot left).mgmt.mode = .halted
      ∧ (u.checkLost block slot left).array.op = none := by
  have hlose : ∀ v : State, v.port = u.port → v.mgmt = u.mgmt →
      (v.loseFlash block slot).port = u.port ∧ (v.loseFlash block slot).mgmt.mode = .halted
        ∧ (v.loseFlash block slot).array.op = none := by
    intro v hport hmgmt
    have hentry : v.loseFlash block slot = (v.lossReported block slot).enterHalted := by
      rw [loseFlash_eq]
      rw [← hmgmt] at hm
      rcases hm with hm | hm | hm <;> rw [hm]
    obtain ⟨_, _, _, _, hreported, _⟩ := reportFault_frame v { faultOf .flashLost with block := block, slot := slot }
    have hreported' : (v.lossReported block slot).port = u.port := hreported.trans hport
    obtain ⟨_, harray, _, _, _, hmode, _⟩ := enterHalted_spec (v.lossReported block slot)
    rw [hentry]
    refine ⟨(enterHalted_port _ ?_).trans hreported', hmode, by rw [harray]; rfl⟩
    exact Port.unwoken_of_eq hreported' hread
  unfold State.checkLost
  rw [if_pos hlost]
  split
  · exact hlose _ rfl rfl
  · exact hlose _ rfl rfl

/-- The Timeout that loses the flash ends a read of one piece with fill bytes and FLASH_LOST (R15, R41). -/
theorem timeout_lostRead (hon : s.power = .on) (htime : s.array.timeouts = 2)
    (hm : s.mgmt.mode = .run ∨ s.mgmt.mode = .readonly ∨ s.mgmt.mode = .drain) (hop : s.array.op = some o)
    (hp : o.purpose = .readPiece 0) (hkept : o.abandoned = false) (hr : s.port.request = some r)
    (hphase : r.phase = .reading) (hpieces : r.pieces = [p]) :
    ∃ t, exec (.operationTimeout left) s = .next t
      ∧ t.port = { s.port with
          request := none,
          response := some
            { cause := some .flashLost, data := List.replicate p.length s.mgmt.settings.fill } } := by
  have htake : (s.timedOut o left).takeOutcome o .timeout
      = (s.timedOut o left).setPiece r 0 (p.ended ((s.timedOut o left).fillBytes p.length) (some .flashLost)) := by
    simp only [State.takeOutcome, hp, if_true]
    exact pieceTimedOut_lost _ o 0 r p (timedOut_flashLost htime) hkept hr (by rw [hpieces]; rfl)
  have hport : ((s.timedOut o left).takeOutcome o .timeout).port = { s.port with request := some { r with
      pieces := [p.ended (List.replicate p.length s.mgmt.settings.fill) (some .flashLost)] } } := by
    rw [htake]
    unfold State.setPiece
    rw [hpieces]
    rfl
  have hreading : ((s.timedOut o left).takeOutcome o .timeout).port.unwoken := by
    intro q hq
    rw [hport] at hq
    cases hq
    rw [hphase]
    decide
  obtain ⟨lport, lmode, lop⟩ := checkLost_port (left := left) (u := (s.timedOut o left).takeOutcome o .timeout)
    (by rw [htake]; exact timedOut_flashLost (o := o) (left := left) htime) hreading (by rw [htake]; exact hm) (some o.block) o.lostSlot
  rw [hport] at lport
  refine ⟨_, exec_operationTimeout_checkLost hon hop htime, ?_⟩
  have hanswered := settle_port_of_lost lmode lop (congrArg Port.request lport) hphase rfl rfl
  rw [hanswered, lport]

end

end Sys2Proof.Machine
end

section
/-! OPERATION_TIMEOUT of a part of an erase, before and at the loss of the flash, and O56. -/

namespace Sys2Proof.Machine

section
variable {s : State} {o : Op} {j : EraseJob} {left : Remnant}

/-! ### A part of an erase, not the third Timeout in a row (R89, R139, R187) -/

/-- What a part's Timeout reports and counts leaves the rest of the state as the Timeout left it (R164). -/
theorem report_partTimedOut (s : State) (j : EraseJob) (left : Remnant) :
    ((s.partTimedOut j left).report .erase).blocks = s.blocks
      ∧ ((s.partTimedOut j left).report .erase).mgmt.mode = s.mgmt.mode
      ∧ ((s.partTimedOut j left).report .erase).mgmt.fault = s.mgmt.fault
      ∧ ((s.partTimedOut j left).report .erase).mgmt.command = s.mgmt.command
      ∧ ((s.partTimedOut j left).report .erase).array = (s.partTimedOut j left).array
      ∧ ((s.partTimedOut j left).report .erase).flash = s.partLeft j left
      ∧ ((s.partTimedOut j left).report .erase).drain = s.drain
      ∧ ((s.partTimedOut j left).report .erase).mount = s.mount := by
  obtain ⟨hblocks, hmode, _, _, _, _, hfault, hcommand, hflash, harray, hdrain, hmount⟩ :=
    report_frame (s.partTimedOut j left) .erase
  exact ⟨hblocks, hmode, hfault, hcommand, harray, hflash, hdrain, hmount⟩

section
variable (hon : s.power = .on) (hop : s.array.op = none) (hj : s.array.erase = some j)
  (hpart : j.part = .erasing ∨ j.part = .suspending ∨ j.part = .blankCheck ∨ j.part = .header)
  (htime : s.array.timeouts ≤ 1) (hv : j.virgin = false)
include hon hop hj hpart htime hv

theorem timeout_part_next (hatt : j.attempts ≤ 1) : exec (.operationTimeout left) s = .next ({
    (s.partTimedOut j left).report .erase with
      array := { ((s.partTimedOut j left).report .erase).array with
        erase := some { j with
          attempts := j.attempts + 1, part := .waiting, running := 0, clock := 0, suspends := 0, statusWait := false } },
      blocks := { ((s.partTimedOut j left).report .erase).blocks with
        releaseTurn := s.blocks.releaseTurn || decide (j.owner = .manager) } } : State).settle := by
  obtain ⟨hblocks, _, _, _, harray, _⟩ := report_partTimedOut s j left
  rw [exec_operationTimeout_part_kept hon hop hj hpart htime (countFailure_next hv hatt)
    (congrArg ArrayPort.timeouts harray), hblocks]

theorem timeout_part_third (hatt : j.attempts = 2) (hblock : j.block ≠ 0) (hmode : s.mgmt.mode ≠ .drain) :
    exec (.operationTimeout left) s = .next ({
      (s.partTimedOut j left).report .erase with
        array := { ((s.partTimedOut j left).report .erase).array with
          erase := some { j with
            attempts := 3, part := if j.part = .header then .mark else .markRead, statusWait := false } } }
              : State).settle := by
  obtain ⟨_, hmode', _, _, harray, _⟩ := report_partTimedOut s j left
  have hcount := (countFailure_third (s := (s.partTimedOut j left).report .erase)
    (mark := if j.part = .header then some true else none) hv hatt hblock).trans
    (thirdFailure_timeout (by rw [hmode']; exact hmode))
  exact exec_operationTimeout_part_kept hon hop hj hpart htime hcount (congrArg ArrayPort.timeouts harray)

theorem timeout_part_mount (hatt : j.attempts = 2) (hblock : j.block = 0) (howner : j.owner = .mount) :
    exec (.operationTimeout left) s = .next ({
      (s.partTimedOut j left).report .erase with
        array := { ((s.partTimedOut j left).report .erase).array with erase := none },
        mount := s.mount.map fun m => { m with block0Unusable := true, step := .ended, repairs := [] } }
          : State).settle := by
  obtain ⟨_, _, _, _, harray, _, _, hmount⟩ := report_partTimedOut s j left
  have hcount := (countFailure_third_block0 (s := (s.partTimedOut j left).report .erase)
    (mark := if j.part = .header then some true else none) hv hatt hblock).trans (block0Lost_of_mount howner)
  rw [exec_operationTimeout_part_kept hon hop hj hpart htime hcount (congrArg ArrayPort.timeouts harray), hmount]

theorem timeout_part_wipe {step : WipeStep} (hatt : j.attempts = 2) (hblock : j.block = 0) (howner : j.owner = .wipe)
    (hwipe : s.mgmt.command = .active (.wipe step false)) :
    ∃ v : State, exec (.operationTimeout left) s = .next v.settle ∧ v.mgmt.mode = .halted
      ∧ v.eventSet .modeChange = true ∧ v.activity = none ∧ v.flash = ((s.partTimedOut j left).report .erase).flash
      ∧ v.array = { ((s.partTimedOut j left).report .erase).array with erase := none } := by
  obtain ⟨_, _, _, hcommand, harray, _⟩ := report_partTimedOut s j left
  obtain ⟨hmode, hchange, hzero, _, _, hflash, hvarray⟩ :=
    block0Lost_wipe_spec (s := (s.partTimedOut j left).report .erase) howner (hcommand.trans hwipe)
  have hidle : (((s.partTimedOut j left).report .erase).block0Lost j).activity = none := by
    unfold State.activity
    rw [hzero]
  refine ⟨_, exec_operationTimeout_part_kept hon hop hj hpart htime (countFailure_third_block0 hv hatt hblock) ?_,
    hmode, hchange, hidle, hflash, hvarray⟩
  exact (congrArg ArrayPort.timeouts hvarray).trans (congrArg ArrayPort.timeouts harray)

end

/-! ### The loss, by what was in flight (R105) -/

theorem leftLost_of_erase {z u : State} (herase : u.array.erase = s.array.erase) (hflash : u.flash = z.flash)
    (h : ∀ j, s.array.erase = some j → j.part ≠ .erasing ∧ j.part ≠ .suspending ∧ j.part ≠ .header) :
    (z.leftLost u left).flash = match s.array.erase with
      | some j => if j.part = .suspended ∨ j.part = .erasing ∨ j.part = .suspending then
          leaveErase z.flash j.block left else z.flash
      | none => z.flash := by
  unfold State.leftLost
  rw [herase]
  cases hj : s.array.erase with
  | none => rfl
  | some j =>
    obtain ⟨herasing, hsuspending, hheader⟩ := h j hj
    exact (leaveJob_of_untimed herasing hsuspending hheader).trans (by rw [hflash])

/-- The flash an operation's Timeout leaves. -/
theorem timedOut_flash_of_program (hp : o.purpose.isProgram = true) : (s.timedOut o left).flash
    = if o.statusWait = false then leaveProgram s.flash o.block o.offset o.bytes left else s.flash := by
  unfold State.timedOut
  simp only [hp, true_and]

theorem timedOut_flash_of_read (hp : o.purpose.isProgram = false) : (s.timedOut o left).flash = s.flash := by
  unfold State.timedOut
  simp only [hp, Bool.false_eq_true, false_and, if_false]

/-- What the Timeout of a part of an erase leaves when another attempt is made: the block's remnant once (R21, R103). -/
theorem leftLost_of_part {z u : State} {k : EraseJob} (hk : u.array.erase = some k) (hpart : k.part = .waiting)
    (hflash : u.flash = z.flash) : (z.leftLost u left).flash = z.flash := by
  unfold State.leftLost
  rw [hk]
  refine Eq.trans ?_ hflash
  show u.leaveJob k left = u.flash
  unfold State.leaveJob
  rw [hpart]

theorem partLeft_eq {base : List Host.Cell} (h : (j.part = .erasing ∧ j.statusWait = false ∨ j.part = .suspending
      ∨ j.part = .blankCheck) ∧ base = s.flash
    ∨ j.part = .header ∧ j.statusWait = false
      ∧ base = leaveProgram s.flash j.block 0 (firstPart kindData j.newCount) left) :
    s.partLeft j left = if j.part = .suspended ∨ j.part = .erasing ∨ j.part = .suspending then
      leaveErase base j.block left else base := by
  unfold State.partLeft
  rcases h with ⟨⟨hpart, hstatus⟩ | hpart | hpart, rfl⟩ | ⟨hpart, hstatus, rfl⟩ <;> simp [*]

end

end Sys2Proof.Machine
end

section
/-! O56: the time limits and the loss of the flash (R102 to R105). -/

namespace Sys2Proof.Machine

/-- The copy whose program timed out is held, by the kind of its job (R87). -/
theorem timeout_copy_held {s : State} {o : Op} {left : Remnant} {c : CopyWork} {held : BlockManager}
    (hon : s.power = .on) (hop : s.array.op = some o) (htime : s.array.timeouts ≤ 1)
    (h : o.purpose = .copyProgram .reclaim ∧ s.blocks.reclaimCopy = some c
          ∧ held = { s.blocks with reclaimCopy := some { c with stage := .held } }
        ∨ o.purpose = .copyProgram .retirement ∧ s.blocks.retireCopy = some c
          ∧ held = { s.blocks with retireCopy := some { c with stage := .held } }
        ∨ o.purpose = .copyProgram .release ∧ s.blocks.release.bind (·.copy) = some c
          ∧ held = { s.blocks with
              release := s.blocks.release.map fun j => { j with copy := some { c with stage := .held } } })
    (hf : (s.block o.block).failures ≤ 1) (hslot : o.offset / 48 < 84) :
    exec (.operationTimeout left) s = .next ({ s.timedOut o left with
      blocks := { held with table := s.tableFailed o.block } } : State).settle := by
  have hkind : ∃ k, o.purpose = .copyProgram k ∧ s.copyOf k = some c ∧ held = s.blocks.copyHeld c k := by
    rcases h with ⟨hp, hc, hheld⟩ | ⟨hp, hc, hheld⟩ | ⟨hp, hc, hheld⟩
    · exact ⟨.reclaim, hp, hc, hheld⟩
    · exact ⟨.retirement, hp, hc, hheld⟩
    · exact ⟨.release, hp, hc, hheld⟩
  obtain ⟨k, hp, hc, hheld⟩ := hkind
  rw [timeout_copy hon hop htime hp hc hf hslot, hheld]

/-- Settles O56: each requester takes its Timeout; the third in a row then loses the flash, whatever it concerned. -/
theorem timeoutsLeadToTheLossOfTheFlash : Obligations.TimeoutsLeadToTheLossOfTheFlash := by
  refine ⟨?operations, ?parts, ?loss, ?lostRead, ?reportsReady, ?reportsReadyErase, ?outcomes⟩
  case operations =>
    intro s t o left hon hop htime hw ht
    subst ht
    refine ⟨?reads, ?relocation, ?line, ?drainLine, ?copy, ?opening, ?tailMark, ?retireMark, ?eraseMark, ?commit,
      ?retires, ?block0, ?settings, ?mountHeader⟩
    case reads => exact timeout_read hon hop htime
    case relocation => exact fun k hp => (timeout_reloc hon hop htime hp).trans (by cases k <;> rfl)
    case line =>
      exact fun e qs hp hq => ⟨timeout_line_dropped hon hop htime hp hq, timeout_line_again hon hop htime hw hp hq,
        timeout_line_sixth hon hop htime hw hp hq⟩
    case drainLine =>
      intro e qs hp hq hmode hf hb hmark
      refine (timeout_drain_line hon hop htime hw hp hq hf hb hmark).trans ?_
      unfold State.tailAfter
      rw [ite_self]
      rfl
    case copy => exact fun c held h hf hslot => timeout_copy_held hon hop htime h hf hslot
    case opening => exact fun q hp => timeout_opening hon hop htime hp
    case tailMark => exact timeout_tailMark hon hop htime
    case retireMark => exact timeout_retireMark hon hop htime
    case eraseMark => exact fun j hp hj howner hvictim => timeout_eraseMark hon hop htime hp hj howner hvictim
    case commit =>
      exact fun e qs hp hq hf hb => ⟨timeout_commit_again hon hop htime hw hp hq hf hb,
        timeout_commit_sixth hon hop htime hp hq hf hb⟩
    case retires =>
      exact fun e qs hp hq hdropped hatt hf hstate => timeout_line_retires hon hop htime hw hp hq hdropped hatt hf hstate
    case block0 =>
      intro j u hp hj howner hblock hu
      subst hu
      refine ⟨fun h => ?_, fun hv hatt hown => ?_, fun step hv hatt hown _ hcommand => ?_⟩
      · rw [timeout_block0_again hon hop htime hp hj howner h, useSlotOne_eq]
        rfl
      · rw [timeout_block0_mount hon hop htime hp hj hblock hv hatt hown, useSlotOne_eq]
        rfl
      · exact timeout_block0_wipe hon hop htime hp hj hblock hv hatt hown hcommand
    case settings =>
      intro c new issued hp hcommand hr
      rw [timeout_settings hon hop htime hp hcommand hr, appendResults_eq] <;> cases c <;> rfl
    case mountHeader => exact fun m hp hm => timeout_mountHeader hon hop htime hp hm
  case parts =>
    intro s u j left hon hop hj hpart htime hv hu
    subst hu
    exact ⟨timeout_part_next hon hop hj hpart htime hv, timeout_part_third hon hop hj hpart htime hv,
      timeout_part_mount hon hop hj hpart htime hv,
      fun step hatt hblock howner hwipe => timeout_part_wipe hon hop hj hpart htime hv hatt hblock howner hwipe⟩
  case loss =>
    rintro s block slot base left hon htime (⟨o, hop, hp, rfl, rfl, rfl, herase⟩ | ⟨o, hop, herase, rfl, rfl, rfl, hwhy⟩
      | ⟨hop, rfl, j, hj, rfl, hatt, hwhy⟩)
    · obtain ⟨hkept, harray⟩ := takeOutcome_lostRead (timedOut_flashLost (left := left) htime) hp
      have hexec := exec_operationTimeout_checkLost (left := left) hon hop htime
      rw [lostSlot_of_read hp] at hexec
      refine exec_lost hexec hkept (timedOut_timeouts htime) rfl ⟨rfl, rfl⟩ rfl rfl ?_
      rw [leftLost_of_erase (s := s) (congrArg ArrayPort.erase harray :) (congrArg Prod.fst hkept) herase,
        timedOut_flash_of_read hp] <;> rfl
    · have hlost : s.losesProgram o := hwhy
      obtain ⟨hkept, harray⟩ := takeOutcome_losesProgram (left := left) hlost
      have hexec := exec_operationTimeout_checkLost (left := left) hon hop htime
      rw [lostSlot_of_program (isProgram_of_losesProgram hlost)] at hexec
      refine exec_lost hexec hkept (timedOut_timeouts htime) rfl ⟨rfl, rfl⟩ rfl rfl ?_
      have hidle : ∀ j, s.array.erase = some j → j.part ≠ .erasing ∧ j.part ≠ .suspending ∧ j.part ≠ .header :=
        fun j hj => absurd (herase.symm.trans hj) (by simp)
      rw [leftLost_of_erase (s := s) (congrArg ArrayPort.erase harray :) (congrArg Prod.fst hkept) hidle, herase,
        timedOut_flash_of_program (isProgram_of_losesProgram hlost)]
    · have hpart : j.part = .erasing ∨ j.part = .suspending ∨ j.part = .blankCheck ∨ j.part = .header := by
        rcases hwhy with ⟨⟨hpart, _⟩ | hpart | hpart, _⟩ | ⟨hpart, _⟩
        · exact .inl hpart
        · exact .inr (.inl hpart)
        · exact .inr (.inr (.inl hpart))
        · exact .inr (.inr (.inr hpart))
      obtain ⟨_, hmode, hfault, _, harray, hflash, hdrain, hmount⟩ := report_partTimedOut s j left
      obtain ⟨hkept, k, hk, hwaiting⟩ := countFailure_waits (s := (s.partTimedOut j left).report .erase)
        (if j.part = .header then some true else none) hatt
      have hexec := exec_operationTimeout_part (left := left) hon hop hj hpart
      rw [eraseTimeout_eq (by omega) hpart] at hexec
      refine exec_lost hexec hkept ?_ ?_ ⟨hfault, hmode⟩ hdrain hmount ?_
      · rw [harray]
        exact congrArg (· + 1) htime
      · rw [harray]
        rfl
      · rw [leftLost_of_part hk hwaiting (congrArg Prod.fst hkept), hflash, partLeft_eq hwhy, hj]
  case lostRead =>
    exact fun s o r p left hon htime hm hop hp hkept hr _ hphase hpieces =>
      timeout_lostRead hon htime hm hop hp hkept hr hphase hpieces
  case reportsReady => exact fun s o hon hop hstatus => exec_flashReportsReady_op hon hop hstatus
  case reportsReadyErase => exact fun s j hon hop hj hstatus => exec_flashReportsReady_erase hon hop hj hstatus
  case outcomes => exact fun s o c left hop hc => exec_timedOut hop hc

end Sys2Proof.Machine
end

section
/-! Resets and power (R18, R21, R134, R195). -/

namespace Sys2Proof.Machine

section
variable {s : State}

/-- Without power, and while RESET# is asserted, no event that the machine takes itself has an effect (R18). -/
theorem taken_of_unpowered (f : State → State) (h : s.power ≠ .on) : s.taken f = .next s := by
  unfold State.taken
  cases hpower : s.power with
  | on => exact absurd hpower h
  | held | off => rfl

/-- What the machine out of power or in reset is (R18). -/
theorem stopped_spec (p : Power) (cut : Remnant) (hp : p ≠ .on) :
    (s.stopped p cut).power = p ∧ (s.stopped p cut).flash = s.cutFlash cut ∧ (s.stopped p cut).port.request = none
      ∧ (s.stopped p cut).queue.entries = [] ∧ (s.stopped p cut).ready = false ∧ (s.stopped p cut).irq = false
      ∧ ∀ n, readTransfer (s.stopped p cut) n = none := by
  have hirq : (s.stopped p cut).irq = false := by
    have hevents : (s.stopped p cut).irq = decide (0#16 &&& (s.stopped p cut).mgmt.mask ≠ 0) := rfl
    rw [hevents, BitVec.zero_and]
    rfl
  cases p with
  | on => exact absurd rfl hp
  | held | off => exact ⟨rfl, rfl, rfl, rfl, rfl, hirq, fun _ => rfl⟩

end

/-- Settles O59: every volatile value is at its reset value; only the flash, cut short where it was, is carried over. -/
theorem resetsKeepOnlyTheFlash : Obligations.ResetsKeepOnlyTheFlash := by
  refine ⟨fun _ _ _ => rfl, ?released, ?asserted, fun s cut => ?_, ?idle, fun s c hoff => ⟨?_, ?_⟩⟩
  case released =>
    intro s pins hheld
    have hexec : exec (.resetDeasserted pins) s = execResetDeasserted pins s := rfl
    rw [hexec, execResetDeasserted, hheld]
  case asserted =>
    intro s cut hon
    have hexec : exec (.resetAsserted cut) s = execResetAsserted cut s := rfl
    rw [hexec, execResetAsserted, hon]
    exact ⟨_, rfl, stopped_spec .held cut (by decide)⟩
  case idle =>
    intro s cut hop herase
    rw [State.cutFlash, hop, herase]
  · exact ⟨_, rfl, stopped_spec .off cut (by decide)⟩
  · rw [exec_instr, taken_of_unpowered _ hoff]
  · exact taken_of_unpowered State.grant hoff

end Sys2Proof.Machine
end

section
/-! The request that an event takes up afresh, and the write that its mode then refuses (R8, R13); the fault pending that the
reactions leave (R188). -/

namespace Sys2Proof.Machine

/-! ### A request taken up afresh (R13) -/

/-- The port whose request in the checking phase is to be taken up afresh. -/
def Port.woken (p : Port) : Port :=
  { p with request := p.request.map fun r => if r.phase = .checking then { r with retake := true } else r }

theorem woken_of_none {p : Port} (h : p.request = none) : p.woken = p := by
  obtain ⟨request, exchange, response⟩ := p
  cases h
  rfl

theorem woken_of_some {p : Port} {r : Request} (h : p.request = some r) : p.woken = { p with
    request := some (if r.phase = .checking then { r with retake := true } else r) } := by
  unfold Port.woken
  rw [h]
  rfl

theorem woken_woken (p : Port) : p.woken.woken = p.woken := by
  cases h : p.request with
  | none => rw [woken_of_none h, woken_of_none h]
  | some r =>
    have hagain : p.woken.request = some (if r.phase = .checking then { r with retake := true } else r) := by
      rw [woken_of_some h]
    rw [woken_of_some hagain, woken_of_some h]
    by_cases hphase : r.phase = .checking
    · simp [hphase]
    · simp [hphase]

theorem wake_port (s : State) : s.wake.port = s.port.woken := by
  unfold State.wake
  cases h : s.port.request with
  | none => exact (woken_of_none h).symm
  | some r =>
    rw [woken_of_some h]
    by_cases hphase : r.phase = .checking
    · rw [if_pos hphase]
      simp only [if_pos hphase]
    · rw [if_neg hphase]
      simp only [if_neg hphase]
      rw [← h]

/-- From `s` to `t` the port is kept, but for its request taken up afresh. -/
def Wakes (s t : State) : Prop := t.port = s.port ∨ t.port = s.port.woken

theorem Wakes.of_eq {s t : State} (h : t.port = s.port) : Wakes s t := .inl h

theorem Wakes.trans {s t u : State} (h : Wakes s t) (k : Wakes t u) : Wakes s u := by
  rcases h with h | h <;> rcases k with k | k
  · exact .inl (k.trans h)
  · exact .inr (by rw [k, h])
  · exact .inr (k.trans h)
  · exact .inr (by rw [k, h, woken_woken])

theorem Wakes.wake {s t : State} (h : Wakes s t) : t.wake.port = s.port.woken := by
  rw [wake_port]
  rcases h with h | h
  · rw [h]
  · rw [h, woken_woken]

theorem wakes_abortGroup (s : State) (w : Nat) : Wakes s (s.abortGroup w) := by
  refine .inr (Wakes.wake (.of_eq ?_))
  rw [raise_port, setWindow_port, freeRegisterOf_port, revertWindow_port]
  split <;> rfl

theorem wakes_lostCommit (s : State) (w : Nat) : Wakes s (s.lostCommit w) := by
  refine .inr (Wakes.wake (.of_eq ?_))
  rw [raise_port, setWindow_port, freeRegisterOf_port, revertWindow_port]

theorem wakes_stopWindow (s : State) (w : Nat) : Wakes s (s.stopWindow w) := by
  unfold State.stopWindow
  dsimp only
  split
  · exact .of_eq rfl
  · exact .of_eq rfl
  · exact wakes_abortGroup s w
  · split_ifs
    · exact .of_eq rfl
    · exact wakes_abortGroup s w

theorem wakes_stopWindows (s : State) : Wakes s s.stopWindows :=
  (((wakes_stopWindow s 0).trans (wakes_stopWindow _ 1)).trans (wakes_stopWindow _ 2)).trans (wakes_stopWindow _ 3)

/-- A mode entered takes the request up afresh (R13). -/
theorem setMode_wakes (s : State) (m : Mode) : (s.setMode m).port = s.port.woken := by
  refine Wakes.wake ?_
  cases m
  case run | mount => exact .of_eq rfl
  case readonly | drain | service | halted => exact (wakes_stopWindows s).trans (.of_eq rfl)

theorem wakes_degrade (s : State) : Wakes s s.degrade := by
  unfold State.degrade
  split_ifs
  · split
    · exact .inr (setMode_wakes s .readonly)
    all_goals exact .of_eq rfl
  · exact .of_eq rfl

theorem wakes_discardEffects (s : State) (q : QEntry) (x : Option Slot) : Wakes s (s.discardEffects q x) := by
  unfold State.discardEffects
  cases q with
  | line e => exact .of_eq ((reportFault_port _ _).trans (noteDiscard_port s _))
  | commit e =>
    exact ((Wakes.of_eq (noteDiscard_port s _)).trans (wakes_lostCommit _ e.window)).trans (.of_eq (reportFault_port _ _))

theorem wakes_discardStuck (n : Nat) (s : State) : Wakes s (s.discardStuck n) := by
  induction n generalizing s with
  | zero => exact .of_eq rfl
  | succ n ih =>
    unfold State.discardStuck
    split_ifs
    · split
      · exact ((Wakes.of_eq (t := s.dropHead) rfl).trans (wakes_discardEffects _ _ none)).trans (ih _)
      · exact .of_eq rfl
    · exact .of_eq rfl

theorem wakes_foldl_discardEffects (qs : List QEntry) (s : State) :
    Wakes s (qs.foldl (fun t q => t.discardEffects q none) s) := by
  induction qs generalizing s with
  | nil => exact .of_eq rfl
  | cons q qs ih => exact (wakes_discardEffects s q none).trans (ih _)

theorem wakes_discardAll (s : State) : Wakes s s.discardAll :=
  (Wakes.of_eq rfl).trans (wakes_foldl_discardEffects _ { s with
    queue := { s.queue with entries := s.queue.entries.filter QEntry.programming } })

theorem wakes_endDrain (s : State) : Wakes s s.endDrain :=
  .inr (setMode_wakes { s with drain := { s.drain with
    phase := .inactive, returnMode := none, releasePending := false } } (s.drain.returnMode.getD .run))

theorem wakes_reachDrained (s : State) : Wakes s s.reachDrained := by
  unfold State.reachDrained
  dsimp only
  split_ifs
  · exact wakes_endDrain (State.raise { s with drain := { s.drain with phase := .drained } } .drainDone)
  · exact .of_eq rfl

theorem wakes_drainStep (s : State) : Wakes s s.drainStep := by
  unfold State.drainStep
  dsimp only
  split_ifs
  · exact (wakes_discardAll s).trans (wakes_reachDrained _)
  · exact wakes_discardAll s
  · exact (wakes_discardStuck _ s).trans (wakes_reachDrained _)
  · exact wakes_discardStuck _ s
  · exact .of_eq rfl

/-! ### A write that its mode refuses (R8, R13) -/

/-- The port holds a write that is to be judged at once: in the hand-over phase, or taken up afresh in the checking phase. -/
def Port.judges (p : Port) (r : Request) : Prop :=
  p.request = some r ∧ r.write = true ∧ (r.phase = .handOver ∨ r.phase = .checking ∧ r.retake = true)

section
variable {s : State} {r : Request} {c : Cause}

theorem Port.judges.woken {p : Port} (h : p.judges r) : p.woken = p := by
  obtain ⟨hr, _, hphase⟩ := h
  rw [woken_of_some hr]
  rcases hphase with hphase | ⟨hphase, hretake⟩
  · rw [if_neg (by rw [hphase]; decide), ← hr]
  · have hsame : { r with retake := true } = r := by rw [← hretake]
    rw [if_pos hphase, hsame, ← hr]

/-- A write that waits is judged once its request is taken up afresh. -/
theorem judges_woken {p : Port} (hr : p.request = some r) (hwrite : r.write = true)
    (hphase : r.phase = .handOver ∨ r.phase = .checking) :
    ∃ r' : Request, p.woken.judges r' ∧ r'.addr = r.addr
      ∧ { p.woken with request := none } = { p with request := none } := by
  rw [woken_of_some hr]
  rcases hphase with hphase | hphase
  · rw [if_neg (by rw [hphase]; decide)]
    exact ⟨r, ⟨rfl, hwrite, .inl hphase⟩, rfl, rfl⟩
  · rw [if_pos hphase]
    exact ⟨_, ⟨rfl, hwrite, .inr ⟨hphase, rfl⟩⟩, rfl, rfl⟩

/-- What refuses a write in its checks 1 and 2: its mode, or WP# in RUN (R8). -/
def State.refuses (s : State) (c : Cause) : Prop :=
  s.commandHold = false ∧ s.mgmt.mode ≠ .mount
    ∧ (s.mgmt.mode.writeCause = some c ∨ s.mgmt.mode.writeCause = none ∧ s.array.wp = true ∧ c = .writeProtected)

theorem portStep_of_refused (hr : s.port.judges r) (h : s.refuses c) : s.portStep = s.endRequest r c := by
  obtain ⟨hrequest, hwrite, hphase⟩ := hr
  obtain ⟨hhold, hmount, hcause⟩ := h
  have hcheck : s.checkWrite r = s.endRequest r c := by
    unfold State.checkWrite
    rw [hhold, decide_eq_false hmount]
    rcases hcause with hcause | ⟨hcause, hwp, rfl⟩
    · rw [hcause]
      rfl
    · rw [hcause, hwp]
      rfl
  have hhand : s.stepHandOver r = s.endRequest r c := by
    unfold State.stepHandOver
    rw [hhold]
    rcases hcause with hcause | ⟨hcause, hwp, rfl⟩
    · rw [hcause]
      rfl
    · rw [hcause, hwp]
      rfl
  rcases hphase with hphase | ⟨hphase, hretake⟩
  · simp [State.portStep, hrequest, hphase, hhand]
  · simp [State.portStep, hrequest, hphase, hretake, hwrite, hcheck]

theorem endRequest_fault (h : s.mgmt.fault = none) :
    (s.endRequest r c).mgmt.fault = some
      { cause := c, addr := some r.addr, line := s.lineOfAddr r.addr, block := none, slot := none, window := none } := by
  refine reportFault_of_none _ ?_
  rw [← h]
  unfold State.respond State.abandonRead
  dsimp only
  split
  · rfl
  · split <;> rfl

end

/-! ### The fault pending stays (R188) -/

/-- A fault pending in `s` is pending in `t`. -/
def HoldsFault (s t : State) : Prop := ∀ f, s.mgmt.fault = some f → t.mgmt.fault = some f

theorem HoldsFault.of_eq {s t : State} (h : t.mgmt.fault = s.mgmt.fault) : HoldsFault s t := fun _ hf => h.trans hf

theorem HoldsFault.trans {s t u : State} (h : HoldsFault s t) (k : HoldsFault t u) : HoldsFault s u :=
  fun f hf => k f (h f hf)

theorem holdsFault_discardStuck (n : Nat) (s : State) : HoldsFault s (s.discardStuck n) := by
  induction n generalizing s with
  | zero => exact .of_eq rfl
  | succ n ih =>
    unfold State.discardStuck
    split_ifs
    · split
      · exact HoldsFault.trans (t := s.dropHead.discardEffects _ none)
          (fun f hf => discardEffects_fault_held s.dropHead _ _ hf) (ih _)
      · exact .of_eq rfl
    · exact .of_eq rfl

theorem holdsFault_degrade (s : State) : HoldsFault s s.degrade := by
  unfold State.degrade
  split_ifs
  · split
    · exact .of_eq (fault_of_keeps (keeps_setMode s .readonly))
    all_goals exact .of_eq rfl
  · exact .of_eq rfl

theorem holdsFault_drainStep (s : State) : HoldsFault s s.drainStep := by
  have hall : HoldsFault s s.discardAll := fun f hf => foldl_discardEffects_fault_held _ _ hf
  have hstuck : HoldsFault s (s.discardStuck s.queue.entries.length) := holdsFault_discardStuck _ s
  unfold State.drainStep
  dsimp only
  split_ifs
  · exact hall.trans (.of_eq (reachDrained_fault _))
  · exact hall
  · exact hstuck.trans (.of_eq (reachDrained_fault _))
  · exact hstuck
  · exact .of_eq rfl

theorem holdsFault_settleRound {s : State} (h : s.port.request = none) : HoldsFault s s.settleRound := by
  have hport : s.degrade.settleGroups.drainStep.port = s.port := by
    have hunwoken := Port.unwoken_of_none _ h
    have hdegrade : s.degrade.settleGroups.port = s.port := (settleGroups_port _).trans (degrade_port s hunwoken)
    exact (drainStep_port _ (Port.unwoken_of_eq hdegrade hunwoken)).trans hdegrade
  unfold State.settleRound
  rw [portStep_of_none _ ((congrArg Port.request hport).trans h)]
  exact ((holdsFault_degrade s).trans (.of_eq (by rw [settleGroups_mgmt]))).trans (holdsFault_drainStep _)

/-! ### The reactions of the tail -/

theorem startReclaimErase_mgmt (s : State) : s.startReclaimErase.mgmt = s.mgmt := by
  unfold State.startReclaimErase
  split
  · dsimp only
    split_ifs
    · rw [setErase_mgmt]
      split
      · split_ifs <;> rfl
      · rfl
    · rfl
  all_goals rfl

theorem releaseHeader_mgmt (s : State) : s.releaseHeader.mgmt = s.mgmt := by
  unfold State.releaseHeader
  split
  · rfl
  · split_ifs <;> rfl

theorem settleErase_mgmt (s : State) : s.settleErase.mgmt = s.mgmt := by
  unfold State.settleErase
  split
  · rfl
  · split_ifs <;> rfl

theorem holdsFault_retireErased (s : State) (j : EraseJob) : HoldsFault s (s.retireErased j) := by
  intro f hf
  unfold State.retireErased
  rw [reportRetired_eq]
  refine reportFault_of_some _ (Eq.trans ?_ hf)
  dsimp only
  split
  · unfold State.endReclaim
    split_ifs <;> rfl
  · rfl
  · rfl

theorem holdsFault_skipRepairs (s : State) : HoldsFault s s.skipRepairs := by
  have hskip : ∀ j, HoldsFault s (s.skipErase j) := fun j => by
    unfold State.skipErase
    split
    · split_ifs <;> exact .of_eq rfl
    · exact .of_eq rfl
    · exact .of_eq rfl
    · exact holdsFault_retireErased s j
    all_goals exact .of_eq rfl
  unfold State.skipRepairs
  split
  · exact .of_eq rfl
  · split_ifs
    · split
      · exact .of_eq rfl
      · rename_i j _
        dsimp only
        split
        · exact (hskip j).trans (.of_eq rfl)
        · split_ifs
          · exact (hskip j).trans (.of_eq rfl)
          · exact hskip j
    · exact .of_eq rfl

theorem holdsFault_settleCut (s : State) : HoldsFault s s.settleCut := by
  unfold State.settleCut
  split
  · dsimp only
    split_ifs
    · split
      · exact .of_eq rfl
      · split_ifs
        · exact (holdsFault_retireErased s _).trans (.of_eq rfl)
        · exact .of_eq rfl
    · exact .of_eq rfl
  all_goals exact .of_eq rfl

theorem settleSpace_fault (s : State) : s.settleSpace.mgmt.fault = s.mgmt.fault := by
  unfold State.settleSpace State.edge
  dsimp only
  split_ifs <;> rfl

theorem holdsFault_settleTail (s : State) : HoldsFault s s.settleTail := by
  have hwork : (s.startReclaimErase.updateRelease.releaseHeader.settleErase).mgmt = s.mgmt := by
    rw [settleErase_mgmt, releaseHeader_mgmt]
    exact startReclaimErase_mgmt s
  exact ((HoldsFault.of_eq (congrArg Mgmt.fault hwork)).trans (holdsFault_skipRepairs _)).trans
    ((holdsFault_settleCut _).trans (.of_eq (settleSpace_fault _)))

/-! ### The reactions after a refusal -/

/-- What follows an event after which the write at the port is refused: `v` is the state in which the first round takes the
request up (R13). -/
theorem settle_of_refused {s v : State} {r : Request} {c : Cause} (hv : s.degrade.settleGroups.drainStep = v)
    (hr : v.port.judges r) (hrefuses : v.refuses c) :
    s.settle.port = { v.port with request := none, response := some { cause := some c, data := [] } }
      ∧ (v.mgmt.fault = none → s.settle.mgmt.fault = some
        { cause := c, addr := some r.addr, line := v.lineOfAddr r.addr, block := none, slot := none, window := none }) := by
  have hround : s.settleRound = v.endRequest r c := by
    unfold State.settleRound
    rw [hv, portStep_of_refused hr hrefuses]
  have hport : s.settleRound.port = { v.port with request := none, response := some { cause := some c, data := [] } } := by
    rw [hround, endRequest_port, hr.2.1]
    rfl
  have hnone : s.settleRound.port.request = none := by rw [hport]
  rw [settle_eq]
  refine ⟨(settleTail_port _).trans ((settleRound_port _ hnone).trans hport), fun hfault => ?_⟩
  refine holdsFault_settleTail _ _ (holdsFault_settleRound hnone _ ?_)
  rw [hround]
  exact endRequest_fault hfault

end Sys2Proof.Machine
end

section
/-! WP# (R106, R194): its change of level, what it ends and refuses, and the opening the drain had asked for (R159). -/

namespace Sys2Proof.Machine

section
variable {s : State} {r : Request}

/-! ### The change of level (R106, R159, R194) -/

/-- WP# at its new level; an opening that the drain has asked for waits (R159). -/
def State.wpTaken (s : State) (b : Bool) : State :=
  { s with
    array := { s.array with wp := b },
    blocks := { s.blocks with drainOpening := s.blocks.drainOpening || b && s.drainOpeningAsked } }

/-- WP# at its new level, with the edge of WRITE_PERMIT (R194). -/
def State.wpEdge (s : State) (b : Bool) : State :=
  if (if b then s.mgmt.edgeWp.falling else s.mgmt.edgeWp.rising) then (s.wpTaken b).raise .wpChange else s.wpTaken b

theorem wpChange_eq {b : Bool} (hwp : s.array.wp = !b) : s.wpChange b
    = if b then (s.wpEdge b).wake.refuseAppend.cutWipe else (s.wpEdge b).wake := by
  have hchanged : ¬s.array.wp = b := by
    rw [hwp]
    cases b <;> decide
  have htaken : s.wpTaken false = { s with array := { s.array with wp := false } } := by
    unfold State.wpTaken
    rw [Bool.false_and, Bool.or_false]
  unfold State.wpChange
  rw [if_neg hchanged]
  cases b with
  | true =>
    have hedge : (s.wpTaken true).edge s.mgmt.edgeWp .wpChange true false = s.wpEdge true := by
      simp [State.edge, State.wpEdge]
    rw [← hedge]
    rfl
  | false =>
    have hedge : (s.wpTaken false).edge s.mgmt.edgeWp .wpChange false true = s.wpEdge false := by
      simp [State.edge, State.wpEdge]
    rw [← hedge, htaken]
    rfl

theorem exec_wpInputChange (hon : s.power = .on) (b : Bool) :
    exec (.wpInputChange b) s = .next (s.wpChange b).settle := taken_on s (State.wpChange b) hon

theorem wpEdge_kept (s : State) (b : Bool) : (s.wpEdge b).port = s.port ∧ (s.wpEdge b).table = s.table
    ∧ (s.wpEdge b).queue = s.queue ∧ (s.wpEdge b).windows = s.windows ∧ (s.wpEdge b).array = { s.array with wp := b }
    ∧ (s.wpEdge b).mgmt = { s.mgmt with events := (s.wpEdge b).mgmt.events }
    ∧ (s.wpEdge b).blocks = { s.blocks with drainOpening := s.blocks.drainOpening || b && s.drainOpeningAsked } := by
  unfold State.wpEdge
  split_ifs <;> exact ⟨rfl, rfl, rfl, rfl, rfl, rfl, rfl⟩

theorem wpEdge_command (s : State) (b : Bool) : (s.wpEdge b).mgmt.command = s.mgmt.command := by
  obtain ⟨_, _, _, _, _, hmgmt, _⟩ := wpEdge_kept s b
  rw [hmgmt]

theorem wake_wpEdge (b : Bool) (hr : s.port.request = none) : (s.wpEdge b).wake = s.wpEdge b := by
  obtain ⟨hport, _⟩ := wpEdge_kept s b
  exact wake_of_none (by rw [hport]; exact hr)

/-! ### What WP# ends (R179, R187) -/

theorem cutWipe_of_zero (h : s.mgmt.command = .zero) : s.cutWipe = s := by
  simp only [State.cutWipe, h]

theorem refuseAppend_of_zero (h : s.mgmt.command = .zero) : s.refuseAppend = s := by
  simp only [State.refuseAppend, h]

theorem refuseAppend_of_wipe {step : WipeStep} {cut : Bool} (h : s.mgmt.command = .active (.wipe step cut)) :
    s.refuseAppend = s := by
  simp only [State.refuseAppend, h]

theorem cutWipe_of_wipe {step : WipeStep} {cut : Bool} (h : s.mgmt.command = .active (.wipe step cut)) :
    s.cutWipe = { s with mgmt := { s.mgmt with command := .active (.wipe step true) } } := by
  simp only [State.cutWipe, h]
  rfl

theorem refuseAppend_of_append {c : Code} {new : Settings} (h : s.mgmt.command = .active (.append c new false)) :
    s.refuseAppend = s.completeAppend c .media := by
  simp only [State.refuseAppend, h]

theorem wpChange_idle {b : Bool} (hwp : s.array.wp = !b) (hr : s.port.request = none)
    (h : b = false ∨ s.mgmt.command = .zero) : s.wpChange b = s.wpEdge b := by
  rw [wpChange_eq hwp, wake_wpEdge b hr]
  cases b with
  | false => rfl
  | true =>
    have hzero : (s.wpEdge true).mgmt.command = .zero :=
      (wpEdge_command s true).trans (h.resolve_left (by decide))
    rw [if_pos rfl, refuseAppend_of_zero hzero, cutWipe_of_zero hzero]

theorem wpChange_append {c : Code} {new : Settings} (hwp : s.array.wp = false) (hr : s.port.request = none)
    (hcommand : s.mgmt.command = .active (.append c new false)) :
    s.wpChange true = (s.wpEdge true).complete .media (s.appendResults c) := by
  obtain ⟨hport, _, _, _, _, hmgmt, _⟩ := wpEdge_kept s true
  have hresults : (s.wpEdge true).appendResults c = s.appendResults c := by
    rw [appendResults_eq, appendResults_eq, hport, hmgmt]
  rw [wpChange_eq hwp, if_pos rfl, wake_wpEdge true hr,
    refuseAppend_of_append ((wpEdge_command s true).trans hcommand),
    completeAppend_of_none c .media (by rw [hport]; exact hr), cutWipe_of_zero rfl, hresults]

theorem wpChange_wipe {step : WipeStep} {cut : Bool} (hwp : s.array.wp = false) (hr : s.port.request = none)
    (hcommand : s.mgmt.command = .active (.wipe step cut)) :
    s.wpChange true = { s.wpEdge true with
      mgmt := { (s.wpEdge true).mgmt with command := .active (.wipe step true) } } := by
  have hcommand' := (wpEdge_command s true).trans hcommand
  rw [wpChange_eq hwp, if_pos rfl, wake_wpEdge true hr, refuseAppend_of_wipe hcommand', cutWipe_of_wipe hcommand']

/-! ### The opening that the drain has asked for (R156, R159, R76) -/

theorem opening_eq_false_iff : s.opening = false ↔ ∀ o r, s.array.op = some o → o.purpose ≠ .opening r := by
  refine ⟨fun h o r hop hp => ?_, opening_of_noOpening⟩
  simp [State.opening, hop, hp] at h

theorem atLast_eq_false_iff {n : Nat} : atLast n = false ↔ n < 4294967295 := by
  have hlast : atLast n = decide (4294967295 ≤ n) := rfl
  rw [hlast, decide_eq_false_iff_not, Nat.not_le]

theorem headReady_iff : s.headReady = true ↔ ∃ q qs, s.queue.entries = q :: qs ∧ q.programming = false
    ∧ ∀ e, q = .line e → e.origin = none → s.queue.nextOrigin < 4294967295 := by
  unfold State.headReady State.headUnnumberable State.head
  cases hentries : s.queue.entries with
  | nil => simp
  | cons q qs =>
    have hnumber : ∀ e : LineEntry, (e.origin.isNone && atLast s.queue.nextOrigin) = false
        ↔ (e.origin = none → s.queue.nextOrigin < 4294967295) := fun e => by
      rw [← atLast_eq_false_iff, Bool.and_eq_false_iff, Option.isNone_eq_false_iff]
      cases e.origin <;> simp
    cases q with
    | line e =>
      rw [show (List.head? (QEntry.line e :: qs)) = some (.line e) from rfl]
      dsimp only
      rw [Bool.and_eq_true, Bool.not_eq_true', Bool.not_eq_true', hnumber]
      refine ⟨fun ⟨hpending, hnext⟩ => ⟨_, _, rfl, hpending, fun e' he' => ?_⟩, fun ⟨q, rest, hq, hpending, hnext⟩ => ?_⟩
      · cases he'
        exact hnext
      · cases hq
        exact ⟨hpending, hnext e rfl⟩
    | commit e =>
      refine ⟨fun h => ⟨_, _, rfl, by simpa using h, fun e' he' => by cases he'⟩, fun ⟨q, rest, hq, hpending, _⟩ => ?_⟩
      cases hq
      simpa using hpending

theorem drainOpeningAsked_iff : s.drainOpeningAsked = true ↔ s.mgmt.mode = .drain ∧ s.drain.phase = .draining
    ∧ (∃ q qs, s.queue.entries = q :: qs ∧ q.programming = false
      ∧ ∀ e, q = .line e → e.origin = none → s.queue.nextOrigin < 4294967295)
    ∧ s.openBlock = none ∧ s.blocks.nextSeq < 4294967295 ∧ 1 ≤ s.erasedCount
    ∧ ∀ o r, s.array.op = some o → o.purpose ≠ .opening r := by
  have hgate : (s.nextSlot.isNone && s.gateHolds .drain) = true
      ↔ s.openBlock = none ∧ s.blocks.nextSeq < 4294967295 ∧ 1 ≤ s.erasedCount := by
    unfold State.nextSlot State.gateHolds State.canOpen
    rw [← atLast_eq_false_iff]
    cases s.openBlock with
    | none => simp
    | some b => simp
  have hasked : s.drainOpeningAsked = (decide (s.mgmt.mode = .drain) && decide (s.drain.phase = .draining)
      && s.headReady && (s.nextSlot.isNone && s.gateHolds .drain) && !s.opening) := by
    unfold State.drainOpeningAsked
    rw [Bool.and_assoc (_ && _ && s.headReady)]
  rw [hasked, Bool.and_eq_true, Bool.and_eq_true, Bool.and_eq_true, Bool.and_eq_true, hgate, headReady_iff,
    Bool.not_eq_true', opening_eq_false_iff, decide_eq_true_eq, decide_eq_true_eq]
  simp only [and_assoc]

/-! ### A write that waits when WP# is asserted (R8, R13) -/

theorem degraded_congr {t : State} (htable : t.blocks.table = s.blocks.table) (hseq : t.blocks.nextSeq = s.blocks.nextSeq)
    (hqueue : t.queue = s.queue) (hwindows : t.windows = s.windows) : t.degraded = s.degraded := by
  have hretired : t.retiredCount = s.retiredCount := by
    unfold State.retiredCount State.countState
    rw [htable]
  unfold State.degraded
  rw [hretired, hseq, hqueue, hwindows]

end

end Sys2Proof.Machine
end

section
/-! O57: WP# (R106, R194) and the write that it refuses (R8, R13). -/

namespace Sys2Proof.Machine

section
variable {s : State} {r : Request}

/-- What a refusal under WP# reads: the parts that neither WP#'s edge nor the command it ends changes. -/
def State.judging (s : State) : ArrayPort × BlockManager × WriteQueue × WindowUnit × Mode × Option FaultReport :=
  (s.array, s.blocks, s.queue, s.windows, s.mgmt.mode, s.mgmt.fault)

theorem wake_judging (s : State) : s.wake.judging = s.judging := by
  obtain ⟨request, hwake⟩ := wake_request s
  rw [hwake]
  rfl

theorem commandHold_wake (s : State) : s.wake.commandHold = s.commandHold := by
  unfold State.commandHold
  rw [wake_mgmt]

theorem refuseAppend_judging (s : State) : s.refuseAppend.judging = s.judging ∧ Wakes s s.refuseAppend
    ∧ (s.commandHold = false → s.refuseAppend.commandHold = false) := by
  unfold State.refuseAppend
  split
  · exact ⟨wake_judging _, .inr (wake_port _), fun _ => commandHold_wake _⟩
  all_goals exact ⟨rfl, .of_eq rfl, id⟩

theorem cutWipe_judging (s : State) : s.cutWipe.judging = s.judging ∧ s.cutWipe.port = s.port
    ∧ (s.commandHold = false → s.cutWipe.commandHold = false) := by
  unfold State.cutWipe
  split
  · exact ⟨rfl, rfl, fun _ => rfl⟩
  all_goals exact ⟨rfl, rfl, id⟩

/-- WP# asserted with a request at the port: the request is taken up afresh, and no command holds the write back. -/
theorem wpChange_judging (hwp : s.array.wp = false) (hhold : s.commandHold = false) :
    (s.wpChange true).judging = (s.wpEdge true).judging ∧ (s.wpChange true).port = s.port.woken
      ∧ (s.wpChange true).commandHold = false := by
  obtain ⟨hport, _⟩ := wpEdge_kept s true
  obtain ⟨hrefuse, hwakes, hrefuseHold⟩ := refuseAppend_judging (s.wpEdge true).wake
  obtain ⟨hcut, hcutPort, hcutHold⟩ := cutWipe_judging (s.wpEdge true).wake.refuseAppend
  have hchange : s.wpChange true = (s.wpEdge true).wake.refuseAppend.cutWipe := wpChange_eq hwp
  have hwoken : (s.wpEdge true).wake.refuseAppend.port = s.port.woken := by
    have hwake : (s.wpEdge true).wake.port = s.port.woken := by rw [wake_port, hport]
    rcases hwakes with h | h
    · rw [h, hwake]
    · rw [h, hwake, woken_woken]
  have hzero : (s.wpEdge true).wake.commandHold = false := by
    rw [commandHold_wake, ← hhold]
    unfold State.commandHold
    rw [wpEdge_command]
  rw [hchange]
  exact ⟨hcut.trans (hrefuse.trans (wake_judging _)), hcutPort.trans hwoken, hcutHold (hrefuseHold hzero)⟩

theorem degrade_of_not {s : State} (h : s.degraded = false) : s.degrade = s := by
  unfold State.degrade
  rw [h]
  rfl

theorem drainStep_of_mode {s : State} (h : s.mgmt.mode ≠ .drain) : s.drainStep = s := if_neg fun hc => h hc.1

theorem lineOfAddr_congr {t : State} (h : t.port.exchange = s.port.exchange) (addr : Nat) :
    t.lineOfAddr addr = s.lineOfAddr addr := by
  unfold State.lineOfAddr
  rw [h]

theorem wpInputChange_refuses (hon : s.power = .on) (hwp : s.array.wp = false) (hmode : s.mgmt.mode = .run)
    (hdegraded : s.degraded = false) (hhold : s.commandHold = false) (hr : s.port.request = some r)
    (hwrite : r.write = true) (hphase : r.phase = .handOver ∨ r.phase = .checking) :
    ∃ t, exec (.wpInputChange true) s = .next t ∧ t.array.wp = true
      ∧ t.port = { s.port with request := none, response := some { cause := some .writeProtected, data := [] } }
      ∧ (s.mgmt.fault = none → t.mgmt.fault = some
          { cause := .writeProtected, addr := some r.addr, line := s.lineOfAddr r.addr, block := none, slot := none,
            window := none }) := by
  obtain ⟨_, _, hqueue, hwindows, harray, hmgmt, hblocks⟩ := wpEdge_kept s true
  obtain ⟨hjudging, hport, huheld⟩ := wpChange_judging hwp hhold
  simp only [State.judging, Prod.mk.injEq] at hjudging
  obtain ⟨uarray, ublocks, uqueue, uwindows, umode, ufault⟩ := hjudging
  have umode' : (s.wpChange true).mgmt.mode = .run := by rw [umode, hmgmt]; exact hmode
  have ufault' : (s.wpChange true).mgmt.fault = s.mgmt.fault := by rw [ufault, hmgmt]
  have uwp : (s.wpChange true).array.wp = true := by rw [uarray, harray]
  have hkept : (s.wpChange true).degraded = s.degraded := by
    refine degraded_congr ?_ ?_ (uqueue.trans hqueue) (uwindows.trans hwindows) <;> rw [ublocks, hblocks]
  have hround : (s.wpChange true).degrade.settleGroups.drainStep = (s.wpChange true).settleGroups := by
    rw [degrade_of_not (hkept.trans hdegraded)]
    exact drainStep_of_mode (by rw [settleGroups_mgmt, umode']; decide)
  obtain ⟨r', hjudges, haddr, hrest⟩ := judges_woken hr hwrite hphase
  have hexchange : s.port.woken.exchange = s.port.exchange := (congrArg Port.exchange hrest :)
  have hjudges' : (s.wpChange true).settleGroups.port.judges r' := by
    rw [settleGroups_port, hport]
    exact hjudges
  have hrefuses : (s.wpChange true).settleGroups.refuses .writeProtected := by
    refine ⟨(settleGroups_commandHold _).trans huheld, ?_, .inr ⟨?_, ?_, rfl⟩⟩
    · rw [settleGroups_mgmt, umode']
      decide
    · rw [settleGroups_mgmt, umode']
      rfl
    · rw [settleGroups_array, uwp]
  obtain ⟨hanswer, hfault⟩ := settle_of_refused hround hjudges' hrefuses
  refine ⟨_, exec_wpInputChange hon true, (settle_wp _).trans uwp, ?_, fun hnone => ?_⟩
  · rw [hanswer, settleGroups_port, hport]
    exact congrArg (fun p : Port => { p with
      response := some { cause := some .writeProtected, data := [] } }) hrest
  · rw [hfault (by rw [settleGroups_mgmt]; exact ufault'.trans hnone), haddr,
      lineOfAddr_congr (s := s) (by rw [settleGroups_port, hport, hexchange])]

end

/-- Settles O57: the edge, what it ends, and the first round of reactions, which judges the waiting write afresh. -/
theorem writeProtectIsTaken : Obligations.WriteProtectIsTaken := by
  refine ⟨?change, fun s => drainOpeningAsked_iff, ?same, ?refused⟩
  case change =>
    intro s t b hon hwp hr ht
    have hedge : t = s.wpEdge b := ht
    rw [hedge]
    refine ⟨fun h => ?_, fun c new hb hcommand => ?_, fun step cut hb hcommand => ?_⟩
    · rw [exec_wpInputChange hon, wpChange_idle hwp hr h]
    · subst hb
      rw [exec_wpInputChange hon, wpChange_append hwp hr hcommand, appendResults_eq] <;> cases c <;> rfl
    · subst hb
      rw [exec_wpInputChange hon, wpChange_wipe hwp hr hcommand]
  case same =>
    intro s hon
    rw [exec_wpInputChange hon, State.wpChange, if_pos rfl]
  case refused =>
    intro s r hon hwp hmode hdegraded hhold hr hwrite hphase
    obtain ⟨t, hexec, hasserted, hport, hfault⟩ :=
      wpInputChange_refuses hon hwp hmode hdegraded hhold hr hwrite hphase
    exact ⟨t, hexec, hasserted, hport, fun hnone _ => hfault hnone⟩

end Sys2Proof.Machine
end

section
/-! The windows at the entry to a mode that stops them (R127), and the drain's beginning and end (R154, R161, R162). -/

namespace Sys2Proof.Machine

/-! ### The windows (R127) -/

/-- What a stop makes of window `w`: dropped when ARMED or when its group is aborted, left as it is otherwise (R127). -/
def State.stoppedWindow (s : State) (w : Nat) : Window :=
  if (s.groupGone w || decide ((s.window w).state = .armed)) = true then (s.window w).dropped else s.window w

/-- From `s` to `t` the windows `ws` have been stopped. -/
structure WindowsStopped (s t : State) (ws : List Nat) : Prop where
  length : t.windows.windows.length = s.windows.windows.length
  window : ∀ w, t.window w = if w ∈ ws then s.stoppedWindow w else s.window w
  past : ∀ v ∉ ws, ∀ g, t.pastCommitPoint { window := v, group := g } = s.pastCommitPoint { window := v, group := g }
  event : ∀ e : Event, t.eventSet e = (s.eventSet e || decide (e = .groupDrop) && ws.any s.groupGone)

theorem WindowsStopped.refl (s : State) : WindowsStopped s s [] where
  length := rfl
  window := fun w => by simp
  past := fun _ _ _ => rfl
  event := fun e => by simp

section
variable {s t : State} {ws : List Nat} {w : Nat}

theorem pastCommitPoint_abortGroup {v g : Nat} (hv : v ≠ w) :
    (t.abortGroup w).pastCommitPoint { window := v, group := g } = t.pastCommitPoint { window := v, group := g } := by
  have hqueue : (t.abortGroup w).queue = t.queue
      ∨ ∃ g', (t.abortGroup w).queue = (t.queueAbort { window := w, group := g' }).queue := by
    unfold State.abortGroup
    dsimp only
    rw [wake_queue, raise_queue, setWindow_queue, freeRegisterOf_queue, revertWindow_queue]
    split
    · exact .inr ⟨_, rfl⟩
    · exact .inl rfl
  have hcongr : ∀ u : State, (t.abortGroup w).queue = u.queue →
      (t.abortGroup w).pastCommitPoint { window := v, group := g } = u.pastCommitPoint { window := v, group := g } := by
    intro u hu
    unfold State.pastCommitPoint
    rw [hu]
  rcases hqueue with h | ⟨g', h⟩
  · exact hcongr t h
  · exact (hcongr _ h).trans (pastCommitPoint_queueAbort hv)

theorem WindowsStopped.groupGone (h : WindowsStopped s t ws) (hw : w ∉ ws) : t.groupGone w = s.groupGone w := by
  have hwindow : t.window w = s.window w := by rw [h.window, if_neg hw]
  unfold State.groupGone
  rw [hwindow, h.past w hw]

/-- One more window set to `x`, where the stop drops it. -/
theorem WindowsStopped.set (h : WindowsStopped s t ws) (hlt : w < s.windows.windows.length) {u : State}
    (hset : u.windows.windows = t.windows.windows.set w (s.window w).dropped) (v : Nat)
    (hstopped : s.stoppedWindow w = (s.window w).dropped) :
    u.window v = if v ∈ ws ++ [w] then s.stoppedWindow v else s.window v := by
  have hwindow : u.window v = (t.setWindow w (s.window w).dropped).window v := by
    unfold State.window
    rw [hset]
    rfl
  rw [hwindow]
  by_cases hv : v = w
  · rw [hv, window_setWindow _ _ _ (by rw [h.length]; exact hlt), if_pos (by simp), hstopped]
  · rw [window_setWindow_other _ _ _ _ hv, h.window]
    simp [hv]

theorem WindowsStopped.step (h : WindowsStopped s t ws) (hw : w ∉ ws) (hlt : w < s.windows.windows.length) :
    WindowsStopped s (t.stopWindow w) (ws ++ [w]) := by
  have hwindow : t.window w = s.window w := by rw [h.window, if_neg hw]
  have hgone := h.groupGone hw
  have hnot : ∀ v ∉ ws ++ [w], v ∉ ws ∧ v ≠ w := fun v hv => by
    rw [List.mem_append, List.mem_singleton, not_or] at hv
    exact hv
  cases habort : s.groupGone w with
  | true =>
    obtain ⟨_, hset⟩ := abortGroup_windows t w
    rw [hwindow] at hset
    rw [stopWindow_of_gone (hgone.trans habort)]
    refine ⟨by rw [hset, List.length_set, h.length], fun v => h.set hlt hset v ?_, fun v hv g => ?_, fun e => ?_⟩
    · rw [State.stoppedWindow, habort]
      rfl
    · obtain ⟨hws, hne⟩ := hnot v hv
      exact (pastCommitPoint_abortGroup hne).trans (h.past v hws g)
    · have hraised : (t.abortGroup w).eventSet e = (t.eventSet e || decide (e = .groupDrop)) := by
        unfold State.eventSet
        rw [abortGroup_mgmt]
        dsimp only
        rw [getLsbD_setEvent]
      rw [hraised, h.event, List.any_append, List.any_cons, List.any_nil, habort]
      cases s.eventSet e <;> cases decide (e = .groupDrop) <;> cases ws.any s.groupGone <;> rfl
  | false =>
    rw [stopWindow_of_kept (hgone.trans habort), hwindow]
    have hevent : ∀ e : Event, t.eventSet e
        = (s.eventSet e || decide (e = .groupDrop) && (ws ++ [w]).any s.groupGone) := fun e => by
      rw [h.event, List.any_append, List.any_cons, List.any_nil, habort, Bool.or_self, Bool.or_false]
    by_cases harmed : (s.window w).state = .armed
    · rw [if_pos harmed]
      have hset : (t.disarmWindow w).windows.windows = t.windows.windows.set w (s.window w).dropped := by
        rw [← hwindow]
        rfl
      refine ⟨by rw [hset, List.length_set, h.length], fun v => h.set hlt hset v ?_,
        fun v hv g => h.past v (hnot v hv).1 g, hevent⟩
      simp [State.stoppedWindow, habort, harmed]
    · rw [if_neg harmed]
      refine ⟨h.length, fun v => ?_, fun v hv g => h.past v (hnot v hv).1 g, hevent⟩
      rw [h.window]
      by_cases hv : v = w
      · simp [hv, hw, State.stoppedWindow, habort, harmed]
      · simp [hv]

theorem windowsStopped_stopWindows (hlength : s.windows.windows.length = 4) :
    WindowsStopped s s.stopWindows [0, 1, 2, 3] := by
  have h0 := (WindowsStopped.refl s).step (w := 0) (by decide) (by rw [hlength]; decide)
  have h1 := h0.step (w := 1) (by decide) (by rw [hlength]; decide)
  have h2 := h1.step (w := 2) (by decide) (by rw [hlength]; decide)
  exact h2.step (w := 3) (by decide) (by rw [hlength]; decide)

theorem stoppedWindow_idle (h : (s.window w).state = .armed ∨ (s.window w).state = .opened) :
    (s.stoppedWindow w).state = .idle := by
  unfold State.stoppedWindow State.groupGone
  rcases h with h | h <;> simp [h, Window.dropped]

theorem stoppedWindow_past (h : (s.window w).state = .committing)
    (hpast : s.pastCommitPoint { window := w, group := (s.window w).group.getD 0 } = true) :
    s.stoppedWindow w = s.window w := by
  simp [State.stoppedWindow, State.groupGone, h, hpast]

theorem stoppedWindow_awaiting (h : (s.window w).awaiting = false) : (s.stoppedWindow w).awaiting = false := by
  unfold State.stoppedWindow
  split_ifs
  · rfl
  · exact h

theorem groupGone_of_opened (h : (s.window w).state = .opened) : s.groupGone w = true := by
  simp [State.groupGone, h]

end

/-! ### The windows without their number known: none awaits a register entry (R130) -/

section
variable {s : State}

theorem awaiting_set {t u : State} {w : Nat} {x : Window} (hset : u.windows.windows = t.windows.windows.set w x)
    (hx : x.awaiting = false) (h : ∀ v, (t.window v).awaiting = false) (v : Nat) : (u.window v).awaiting = false := by
  have hwindow : u.window v = (t.setWindow w x).window v := by
    unfold State.window
    rw [hset]
    rfl
  rw [hwindow]
  by_cases hv : v = w
  · by_cases hlt : w < t.windows.windows.length
    · rw [hv, window_setWindow _ _ _ hlt, hx]
    · have hsame : t.windows.windows.set w x = t.windows.windows := List.set_eq_of_length_le (Nat.not_lt.mp hlt)
      unfold State.window State.setWindow
      rw [hsame]
      exact h v
  · rw [window_setWindow_other _ _ _ _ hv]
    exact h v

theorem stopWindow_awaiting (w : Nat) (h : ∀ v, (s.window v).awaiting = false) (v : Nat) :
    ((s.stopWindow w).window v).awaiting = false := by
  cases hgone : s.groupGone w with
  | true =>
    rw [stopWindow_of_gone hgone]
    exact awaiting_set (abortGroup_windows s w).2 rfl h v
  | false =>
    rw [stopWindow_of_kept hgone]
    split_ifs
    · exact awaiting_set rfl rfl h v
    · exact h v

theorem stopWindows_awaiting (h : ∀ v, (s.window v).awaiting = false) (v : Nat) :
    (s.stopWindows.window v).awaiting = false :=
  stopWindow_awaiting 3 (stopWindow_awaiting 2 (stopWindow_awaiting 1 (stopWindow_awaiting 0 h))) v

theorem settleGroups_of_none_awaiting (h : ∀ v, (s.window v).awaiting = false) : s.settleGroups = s.freeDeadGroups := by
  have hoffer : s.freeDeadGroups.offerRegister = s.freeDeadGroups := offerRegister_of_none _ fun v _ => h v
  unfold State.settleGroups
  rw [hoffer, hoffer, hoffer, hoffer]

end

/-! ### The discards of the drain leave its mode and its phase (R158, R159) -/

theorem discardEffects_drain (s : State) (q : QEntry) (x : Option Slot) : (s.discardEffects q x).drain = s.drain := by
  have hnote : ∀ b, (s.noteDiscard b).drain = s.drain := fun b => by
    unfold State.noteDiscard
    split_ifs
    · split <;> rfl
    · rfl
  unfold State.discardEffects
  cases q with
  | line e =>
    obtain ⟨_, _, _, _, _, _, _, _, _, hdrain, _⟩ := reportFault_frame (s.noteDiscard e.syncMark) (lossReport (.line e) x)
    exact hdrain.trans (hnote _)
  | commit e =>
    obtain ⟨_, _, _, _, _, _, _, _, _, hdrain, _⟩ :=
      reportFault_frame ((s.noteDiscard e.syncMark).lostCommit e.window) (lossReport (.commit e) x)
    exact hdrain.trans ((congrArg (fun k => k.2.2.1) (keeps_lostCommit _ _)).trans (hnote _))

theorem discardStuck_drain (n : Nat) (s : State) : (s.discardStuck n).drain = s.drain := by
  induction n generalizing s with
  | zero => rfl
  | succ n ih =>
    unfold State.discardStuck
    split_ifs
    · split
      · exact (ih _).trans (discardEffects_drain _ _ _)
      · rfl
    · rfl

theorem foldl_discardEffects_drain (qs : List QEntry) (s : State) :
    (qs.foldl (fun t q => t.discardEffects q none) s).drain = s.drain := by
  induction qs generalizing s with
  | nil => rfl
  | cons q qs ih => exact (ih _).trans (discardEffects_drain _ _ _)

/-- A drain whose release is not pending stays in DRAIN (R161, R162). -/
theorem drainStep_mode {s : State} (hm : s.mgmt.mode = .drain) (hpending : s.drain.releasePending = false) :
    s.drainStep.mgmt.mode = .drain := by
  have hreach : ∀ t : State, t.mgmt.mode = .drain → t.drain = s.drain → t.reachDrained.mgmt.mode = .drain := by
    intro t htm htd
    unfold State.reachDrained
    rw [if_neg (by rw [htd, hpending]; exact Bool.false_ne_true)]
    exact htm
  have hall := (quiet_discardAll (Quiet.refl s)).mode.trans hm
  have hstuck := (quiet_discardStuck s.queue.entries.length (Quiet.refl s)).mode.trans hm
  unfold State.drainStep
  dsimp only
  split_ifs
  · exact hreach _ hall (foldl_discardEffects_drain _ _)
  · exact hall
  · exact hreach _ hstuck (discardStuck_drain _ _)
  · exact hstuck
  · exact hm

/-- With an empty queue nothing is discarded (R158, R159). -/
theorem drainStep_fault_of_empty {s : State} (h : s.queue.entries = []) : s.drainStep.mgmt.fault = s.mgmt.fault := by
  have hall : s.discardAll.mgmt.fault = s.mgmt.fault := by
    unfold State.discardAll
    rw [h]
    rfl
  have hstuck : s.discardStuck s.queue.entries.length = s := by
    rw [h]
    rfl
  unfold State.drainStep
  dsimp only
  rw [hstuck]
  split_ifs
  · exact (reachDrained_fault _).trans hall
  · exact hall
  · exact reachDrained_fault _
  · rfl

end Sys2Proof.Machine
end

section
/-! O58: PFW# (R154, R162): the drain's beginning and end, and the write that it refuses (R13). -/

namespace Sys2Proof.Machine

section
variable {s : State} {r : Request}

/-! ### The beginning (R154) -/

theorem exec_pfwAsserted (hon : s.power = .on) : exec .pfwAsserted s = .next s.pfwAssert.settle :=
  taken_on s State.pfwAssert hon

theorem exec_pfwDeasserted (hon : s.power = .on) : exec .pfwDeasserted s = .next s.pfwDeassert.settle :=
  taken_on s State.pfwDeassert hon

/-- The state in which the drain enters its mode (R154). -/
def State.drainEntered (s : State) : State :=
  State.setMode { s with
    drain := { phase := .draining, returnMode := some s.mgmt.mode, releasePending := false, pfw := true } } .drain

/-- The tail mark owed becomes the drain's (R77). -/
def State.tailToDrain (s : State) : State :=
  { s with blocks := { s.blocks with tailOwed := s.blocks.tailOwed.map fun _ => .drain } }

theorem pfwAssert_of_working (hpfw : s.drain.pfw = false) (hm : s.mgmt.mode = .run ∨ s.mgmt.mode = .readonly) :
    s.pfwAssert = s.drainEntered.drainCommands.tailToDrain := by
  have hbegin : s.pfwAssert = (s.setPfw true).beginDrain := by
    unfold State.pfwAssert
    rw [if_neg (by rw [hpfw]; exact Bool.false_ne_true)]
    dsimp only
    rw [setPfw_mgmt]
    rcases hm with hm | hm <;> rw [hm]
  rw [hbegin]
  rfl

theorem drainEntered_mgmt (s : State) :
    s.drainEntered.mgmt = { s.mgmt with mode := .drain, events := s.drainEntered.mgmt.events } :=
  setMode_mgmt _ _

theorem drainEntered_drain (s : State) : s.drainEntered.drain
    = { phase := .draining, returnMode := some s.mgmt.mode, releasePending := false, pfw := true } :=
  congrArg (fun k => k.2.2.1) (keeps_setMode { s with
    drain := { phase := .draining, returnMode := some s.mgmt.mode, releasePending := false, pfw := true } } .drain)

/-- With no request and every window IDLE the entry changes the mode alone. -/
theorem drainEntered_of_idle (hr : s.port.request = none) (hidle : ∀ w < 4, (s.window w).state = .idle) :
    s.drainEntered = State.raise { s with
      drain := { phase := .draining, returnMode := some s.mgmt.mode, releasePending := false, pfw := true },
      mgmt := { s.mgmt with mode := .drain } } .modeChange := by
  have hstop : State.stopWindows { s with
      drain := { phase := .draining, returnMode := some s.mgmt.mode, releasePending := false, pfw := true } } = { s with
        drain := { phase := .draining, returnMode := some s.mgmt.mode, releasePending := false, pfw := true } } :=
    stopWindows_of_idle _ hidle
  unfold State.drainEntered State.setMode
  dsimp only
  rw [hstop]
  exact wake_of_none hr

theorem drainCommands_of_other (hsvce : ∀ d, s.mgmt.command ≠ .active (.svce d))
    (happend : ∀ c new, s.mgmt.command ≠ .active (.append c new false)) : s.drainCommands = s := by
  unfold State.drainCommands
  split
  · next d h => exact absurd h (hsvce d)
  · next c new h => exact absurd h (happend c new)
  all_goals rfl

theorem drainCommands_of_svce {d : Bool} (h : s.mgmt.command = .active (.svce d)) :
    s.drainCommands = (s.complete .cut []).wake := by
  simp only [State.drainCommands, h]

theorem drainCommands_of_append {c : Code} {new : Settings} (h : s.mgmt.command = .active (.append c new false)) :
    s.drainCommands = s.completeAppend c .mode := by
  simp only [State.drainCommands, h]

/-! ### What the commands it ends leave (R154, R179, R183) -/

theorem drainCommands_kept (s : State) : s.drainCommands.windows = s.windows ∧ s.drainCommands.drain = s.drain
    ∧ s.drainCommands.mgmt.mode = s.mgmt.mode ∧ ∀ e : Event, s.eventSet e = true → s.drainCommands.eventSet e = true := by
  have hcomplete : ∀ ret bs, (s.complete ret bs).wake.windows = s.windows ∧ (s.complete ret bs).wake.drain = s.drain
      ∧ (s.complete ret bs).wake.mgmt.mode = s.mgmt.mode
      ∧ ∀ e : Event, s.eventSet e = true → (s.complete ret bs).wake.eventSet e = true := by
    intro ret bs
    obtain ⟨request, hwake⟩ := wake_request (s.complete ret bs)
    rw [hwake]
    exact ⟨rfl, rfl, rfl, fun e he => complete_eventSet_of he⟩
  unfold State.drainCommands
  split
  · exact hcomplete _ _
  · exact hcomplete _ _
  all_goals exact ⟨rfl, rfl, rfl, fun _ h => h⟩

theorem mem_windows {w : Nat} (hw : w < 4) : w ∈ [0, 1, 2, 3] := (List.mem_range (n := 4)).mpr hw

/-- The windows in DRAIN, and GROUP_DROP for the OPEN groups dropped there (R127, R154). -/
theorem pfwAssert_windows (hpfw : s.drain.pfw = false) (hm : s.mgmt.mode = .run ∨ s.mgmt.mode = .readonly)
    (hlength : s.windows.windows.length = 4) :
    s.pfwAssert.mgmt.mode = .drain ∧ s.pfwAssert.eventSet .modeChange = true
      ∧ s.pfwAssert.drain
        = { phase := .draining, returnMode := some s.mgmt.mode, releasePending := false, pfw := true }
      ∧ (∀ w < 4, s.pfwAssert.window w = s.stoppedWindow w)
      ∧ (∀ w < 4, s.groupGone w = true → s.pfwAssert.eventSet .groupDrop = true) := by
  obtain ⟨hwindows, hdrain, hmode, hevent⟩ := drainCommands_kept s.drainEntered
  have hstopped := windowsStopped_stopWindows (s := { s with
    drain := { phase := .draining, returnMode := some s.mgmt.mode, releasePending := false, pfw := true } }) hlength
  have hentered : s.drainEntered.windows = (State.stopWindows { s with
      drain := { phase := .draining, returnMode := some s.mgmt.mode, releasePending := false, pfw := true } }).windows :=
    wake_windows _
  have hmgmt := drainEntered_mgmt s
  rw [pfwAssert_of_working hpfw hm]
  refine ⟨hmode.trans (by rw [hmgmt]), hevent _ (setMode_modeChange _ _), hdrain.trans (drainEntered_drain s),
    fun w hw => ?_, fun w hw hgone => hevent _ ?_⟩
  · have hwindow : s.drainEntered.drainCommands.tailToDrain.window w = (State.stopWindows { s with
        drain := { phase := .draining, returnMode := some s.mgmt.mode, releasePending := false, pfw := true } }).window w :=
      congrArg (fun u : WindowUnit => u.windows.getD w Window.idle) (hwindows.trans hentered)
    rw [hwindow, hstopped.window, if_pos (mem_windows hw)]
    rfl
  · have hdropped : (State.stopWindows { s with
        drain := { phase := .draining, returnMode := some s.mgmt.mode, releasePending := false, pfw := true } }).eventSet
          .groupDrop = true := by
      rw [hstopped.event, decide_eq_true rfl, Bool.true_and, Bool.or_eq_true]
      exact .inr (List.any_eq_true.mpr ⟨w, mem_windows hw, hgone⟩)
    have hraised : s.drainEntered.eventSet .groupDrop = (State.raise { (State.stopWindows { s with
        drain := { phase := .draining, returnMode := some s.mgmt.mode, releasePending := false, pfw := true } }) with
          mgmt := { (State.stopWindows { s with drain :=
            { phase := .draining, returnMode := some s.mgmt.mode, releasePending := false, pfw := true } }).mgmt with
              mode := .drain } } .modeChange).eventSet .groupDrop := by
      unfold State.drainEntered State.setMode State.eventSet
      rw [wake_mgmt]
    rw [hraised, eventSet_raise, Bool.or_eq_true]
    exact .inl hdropped

/-! ### The write that waits in RUN (R13) -/

theorem degrade_of_drain (hm : s.mgmt.mode = .drain) :
    s.degrade = s ∨ s.degrade = { s with drain := { s.drain with returnMode := some .readonly } } := by
  unfold State.degrade
  split_ifs
  · rw [hm]
    exact .inr rfl
  · exact .inl rfl

/-- The first round of reactions in DRAIN, up to the port: the request may be taken up afresh, the mode stays (R158, R161). -/
theorem drainRound_kept (hm : s.mgmt.mode = .drain) (hpending : s.drain.releasePending = false) :
    Wakes s s.degrade.settleGroups.drainStep ∧ s.degrade.settleGroups.drainStep.mgmt.mode = .drain
      ∧ s.degrade.settleGroups.drainStep.commandHold = s.commandHold := by
  have hdegrade := degrade_of_drain hm
  have hworks : s.degrade.settleGroups.drainStep.works = s.works := by
    rw [works_drainStep, works_settleGroups, works_degrade]
  have hheld := congrArg Works.held hworks
  rw [works_held, works_held] at hheld
  refine ⟨((wakes_degrade s).trans (.of_eq (settleGroups_port _))).trans (wakes_drainStep _), drainStep_mode ?_ ?_, hheld⟩
  · rw [settleGroups_mgmt]
    rcases hdegrade with h | h <;> rw [h] <;> exact hm
  · rw [settleGroups_drain]
    rcases hdegrade with h | h <;> rw [h] <;> exact hpending

/-- With an empty queue and no window that awaits a register entry, that round reports no fault (R157). -/
theorem drainRound_fault (hm : s.mgmt.mode = .drain) (hempty : s.queue.entries = [])
    (hawaiting : ∀ w, (s.window w).awaiting = false) :
    s.degrade.settleGroups.drainStep.mgmt.fault = s.mgmt.fault := by
  have hdegrade := degrade_of_drain hm
  have hgroups : s.degrade.settleGroups = s.degrade.freeDeadGroups := by
    refine settleGroups_of_none_awaiting fun w => ?_
    rcases hdegrade with h | h <;> rw [h] <;> exact hawaiting w
  have hqueue : s.degrade.freeDeadGroups.queue.entries = [] := by
    show s.degrade.queue.entries = []
    rcases hdegrade with h | h <;> rw [h] <;> exact hempty
  rw [hgroups, drainStep_fault_of_empty hqueue, freeDeadGroups_mgmt]
  rcases hdegrade with h | h <;> rw [h]

theorem pfwAssert_of_zero (hpfw : s.drain.pfw = false) (hm : s.mgmt.mode = .run ∨ s.mgmt.mode = .readonly)
    (hcommand : s.mgmt.command = .zero) : s.pfwAssert = s.drainEntered.tailToDrain := by
  have hzero : s.drainEntered.mgmt.command = .zero := by
    rw [drainEntered_mgmt]
    exact hcommand
  rw [pfwAssert_of_working hpfw hm, drainCommands_of_other] <;> rw [hzero] <;> intros <;> simp

theorem tailToDrain_drainEntered (s : State) : s.drainEntered.tailToDrain.mgmt.mode = .drain
    ∧ s.drainEntered.tailToDrain.mgmt.fault = s.mgmt.fault
    ∧ s.drainEntered.tailToDrain.mgmt.command = s.mgmt.command
    ∧ s.drainEntered.tailToDrain.drain.releasePending = false
    ∧ s.drainEntered.tailToDrain.port = s.port.woken := by
  have hmgmt : s.drainEntered.tailToDrain.mgmt
      = { s.mgmt with mode := .drain, events := s.drainEntered.mgmt.events } := drainEntered_mgmt s
  exact ⟨by rw [hmgmt], by rw [hmgmt], by rw [hmgmt], congrArg Drain.releasePending (drainEntered_drain s),
    setMode_wakes _ _⟩

theorem drainEntered_awaiting (h : ∀ w, (s.window w).awaiting = false) (w : Nat) :
    (s.drainEntered.tailToDrain.window w).awaiting = false := by
  have hentered : s.drainEntered.windows = (State.stopWindows { s with
      drain := { phase := .draining, returnMode := some s.mgmt.mode, releasePending := false, pfw := true } }).windows :=
    wake_windows _
  show (s.drainEntered.windows.windows.getD w Window.idle).awaiting = false
  rw [hentered]
  exact stopWindows_awaiting (s := { s with
    drain := { phase := .draining, returnMode := some s.mgmt.mode, releasePending := false, pfw := true } }) h w

theorem pfwAsserted_refuses (hon : s.power = .on) (hpfw : s.drain.pfw = false) (hmode : s.mgmt.mode = .run)
    (hcommand : s.mgmt.command = .zero) (hr : s.port.request = some r) (hwrite : r.write = true)
    (hphase : r.phase = .handOver ∨ r.phase = .checking) :
    ∃ t, exec .pfwAsserted s = .next t
      ∧ t.port = { s.port with request := none, response := some { cause := some .draining, data := [] } }
      ∧ (s.mgmt.fault = none → s.queue.entries = [] → (∀ w, (s.window w).awaiting = false) → t.mgmt.fault = some
          { cause := .draining, addr := some r.addr, line := s.lineOfAddr r.addr, block := none, slot := none,
            window := none }) := by
  obtain ⟨umode, ufault, ucommand, upending, uport⟩ := tailToDrain_drainEntered s
  rw [exec_pfwAsserted hon, pfwAssert_of_zero hpfw (.inl hmode) hcommand]
  obtain ⟨hwakes, vmode, vhold⟩ := drainRound_kept umode upending
  obtain ⟨r', hjudges, haddr, hrest⟩ := judges_woken hr hwrite hphase
  have hexchange : s.port.woken.exchange = s.port.exchange := (congrArg Port.exchange hrest :)
  generalize hv : s.drainEntered.tailToDrain.degrade.settleGroups.drainStep = v at hwakes vmode vhold
  have vport : v.port = s.port.woken := by
    rcases hwakes with h | h
    · rw [h, uport]
    · rw [h, uport, woken_woken]
  have uhold : s.drainEntered.tailToDrain.commandHold = false := by
    unfold State.commandHold
    rw [ucommand, hcommand]
  have hrefuses : v.refuses .draining := by
    refine ⟨vhold.trans uhold, ?_, .inl ?_⟩ <;> rw [vmode]
    · decide
    · rfl
  obtain ⟨hanswer, hfault⟩ := settle_of_refused hv (by rw [vport]; exact hjudges) hrefuses
  refine ⟨_, rfl, ?_, fun hnone hempty hawaiting => ?_⟩
  · rw [hanswer, vport]
    exact congrArg (fun p : Port => { p with response := some { cause := some .draining, data := [] } }) hrest
  · have vfault : v.mgmt.fault = none := by
      rw [← hv, drainRound_fault umode (setMode_nil _ hempty) (drainEntered_awaiting hawaiting), ufault]
      exact hnone
    rw [hfault vfault, haddr, lineOfAddr_congr (s := s) (by rw [vport, hexchange])]

/-! ### The other modes, and the end (R154, R162, R187) -/

theorem pfwAssert_of_drain (hpfw : s.drain.pfw = false) (hm : s.mgmt.mode = .drain) :
    s.pfwAssert = { s with drain := { s.drain with releasePending := false, pfw := true } } := by
  unfold State.pfwAssert
  rw [if_neg (by rw [hpfw]; exact Bool.false_ne_true)]
  dsimp only
  rw [setPfw_mgmt, hm]
  rfl

theorem pfwAssert_of_service (hpfw : s.drain.pfw = false) (hm : s.mgmt.mode = .service) :
    s.pfwAssert = (s.setPfw true).cutWipe := by
  unfold State.pfwAssert
  rw [if_neg (by rw [hpfw]; exact Bool.false_ne_true)]
  dsimp only
  rw [setPfw_mgmt, hm]

theorem pfwAssert_of_sampled (hpfw : s.drain.pfw = false)
    (hm : s.mgmt.mode = .mount ∨ s.mgmt.mode = .halted ∨ s.mgmt.mode = .service ∧ s.activity = none) :
    s.pfwAssert = s.setPfw true := by
  rcases hm with hm | hm | ⟨hm, hidle⟩
  · unfold State.pfwAssert
    rw [if_neg (by rw [hpfw]; exact Bool.false_ne_true)]
    dsimp only
    rw [setPfw_mgmt, hm]
  · unfold State.pfwAssert
    rw [if_neg (by rw [hpfw]; exact Bool.false_ne_true)]
    dsimp only
    rw [setPfw_mgmt, hm]
  · rw [pfwAssert_of_service hpfw hm]
    have hnone : ∀ a, s.mgmt.command ≠ .active a := fun a ha => by simp [State.activity, ha] at hidle
    unfold State.cutWipe
    rw [setPfw_mgmt]
    cases hcommand : s.mgmt.command with
    | active a => exact absurd hcommand (hnone a)
    | zero | unkn => rfl

theorem pfwDeassert_of_drained {m : Mode} (hpfw : s.drain.pfw = true) (hphase : s.drain.phase = .drained)
    (hreturn : s.drain.returnMode = some m) (hm : m = .run ∨ m = .readonly) (hr : s.port.request = none)
    (hidle : ∀ w < 4, (s.window w).state = .idle) : s.pfwDeassert = State.raise { s with
      drain := { phase := .inactive, returnMode := none, releasePending := false, pfw := false },
      mgmt := { s.mgmt with mode := m } } .modeChange := by
  have hend : s.pfwDeassert = State.setMode { s with
      drain := { phase := .inactive, returnMode := none, releasePending := false, pfw := false } } m := by
    unfold State.pfwDeassert
    rw [if_pos hpfw]
    have hsampled : (s.setPfw false).drain.phase = .drained := hphase
    dsimp only
    rw [hsampled]
    unfold State.endDrain
    have hto : (s.setPfw false).drain.returnMode = some m := hreturn
    rw [hto]
    rfl
  have hstop : State.stopWindows { s with
      drain := { phase := .inactive, returnMode := none, releasePending := false, pfw := false } } = { s with
        drain := { phase := .inactive, returnMode := none, releasePending := false, pfw := false } } :=
    stopWindows_of_idle _ hidle
  rw [hend]
  unfold State.setMode
  rcases hm with rfl | rfl
  · exact wake_of_none hr
  · dsimp only
    rw [hstop]
    exact wake_of_none hr

theorem pfwDeassert_of_draining (hpfw : s.drain.pfw = true) (hphase : s.drain.phase = .draining) :
    s.pfwDeassert = { s with drain := { s.drain with releasePending := true, pfw := false } } := by
  unfold State.pfwDeassert
  rw [if_pos hpfw]
  dsimp only
  split
  · next h => exact absurd (hphase.symm.trans h) (by decide)
  · rfl
  · next h => exact absurd (hphase.symm.trans h) (by decide)

end

/-- Settles O58: the entry to DRAIN, the windows that it stops, the write that it refuses, and the drain's end. -/
theorem powerFailWarningBeginsAndEndsTheDrain : Obligations.PowerFailWarningBeginsAndEndsTheDrain := by
  refine ⟨?begins, ?windows, ?refused, ?again, ?wipe, ?sampled, ?ends, ?pending⟩
  case begins =>
    intro s t hon hpfw hm hr hidle ht
    have hentered : s.drainEntered.tailToDrain = t := by
      rw [drainEntered_of_idle hr hidle, ht]
      rfl
    have hcommand : s.drainEntered.mgmt.command = s.mgmt.command := by rw [drainEntered_mgmt]
    have hport : s.drainEntered.port.request = none := by
      rw [drainEntered_of_idle hr hidle]
      exact hr
    refine ⟨fun hsvce happend => ?_, fun d hd => ?_, fun c new hc => ?_⟩
    · rw [exec_pfwAsserted hon, pfwAssert_of_working hpfw hm, drainCommands_of_other, hentered]
      · rw [hcommand]
        exact hsvce
      · rw [hcommand]
        exact happend
    · rw [exec_pfwAsserted hon, pfwAssert_of_working hpfw hm, drainCommands_of_svce (hcommand.trans hd),
        wake_of_none (by exact hport), ← hentered]
      rfl
    · have hresults : s.drainEntered.appendResults c = s.appendResults c := by
        rw [drainEntered_of_idle hr hidle, appendResults_eq, appendResults_eq]
        rfl
      rw [exec_pfwAsserted hon, pfwAssert_of_working hpfw hm, drainCommands_of_append (hcommand.trans hc),
        completeAppend_of_none c .mode hport, hresults, ← hentered, appendResults_eq]
      rfl
  case windows =>
    intro s hon hpfw hm hlength
    obtain ⟨hmode, hchange, hdrain, hwindow, hdrop⟩ := pfwAssert_windows hpfw hm hlength
    refine ⟨_, exec_pfwAsserted hon, hmode, hchange, hdrain, fun w hw h => ?_, fun w hw h => ?_, fun w hw h hpast => ?_⟩
    · rw [hwindow w hw]
      exact stoppedWindow_idle h
    · exact hdrop w hw (groupGone_of_opened h)
    · rw [hwindow w hw]
      exact stoppedWindow_past h hpast
  case refused =>
    exact fun s r hon hpfw hmode hcommand hr hwrite hphase =>
      pfwAsserted_refuses hon hpfw hmode hcommand hr hwrite hphase
  case again =>
    intro s hon hpfw hm
    rw [exec_pfwAsserted hon, pfwAssert_of_drain hpfw hm]
  case wipe =>
    intro s step cut hon hpfw hm hcommand
    have hsampled : (s.setPfw true).mgmt.command = .active (.wipe step cut) := hcommand
    rw [exec_pfwAsserted hon, pfwAssert_of_service hpfw hm, cutWipe_of_wipe hsampled]
    rfl
  case sampled =>
    intro s hon hpfw hm
    rw [exec_pfwAsserted hon, pfwAssert_of_sampled hpfw hm]
    rfl
  case ends =>
    intro s m hon hpfw hphase hreturn hm hr hidle
    rw [exec_pfwDeasserted hon, pfwDeassert_of_drained hpfw hphase hreturn hm hr hidle]
  case pending =>
    intro s hon hpfw hphase
    rw [exec_pfwDeasserted hon, pfwDeassert_of_draining hpfw hphase]

end Sys2Proof.Machine
end

section
/-! O60: mount completion (R151, R152), after the loss of the flash too (R136, R139). -/

namespace Sys2Proof.Machine

section
variable {s : State} {m : Mount}

/-! ### A mode entered with every window IDLE -/

theorem setMode_of_idle (mode : Mode) (hidle : ∀ w < 4, (s.window w).state = .idle) :
    ∃ r, s.setMode mode = { State.raise { s with mgmt := { s.mgmt with mode := mode } } .modeChange with
      port := { s.port with request := r } } := by
  have hstop : s.stopWindows = s := stopWindows_of_idle s hidle
  have hentered : s.setMode mode = (State.raise { s with mgmt := { s.mgmt with mode := mode } } .modeChange).wake := by
    unfold State.setMode
    rw [hstop]
    cases mode <;> rfl
  rw [hentered]
  exact wake_request _

/-! ### Steps 10 and 11 (R151, R152) -/

/-- The machine with what the scan found installed, and MOUNTED and REPAIRED raised (R151, R152). -/
def State.mounted (s : State) (m : Mount) : State :=
  if m.repairMade then (State.raise { s.installMount m with mount := none } .mounted).raise .repaired
  else State.raise { s.installMount m with mount := none } .mounted

theorem installMount_kept (s : State) (m : Mount) :
    (s.installMount m).port = { s.port with exchange := m.settings.exchange } ∧ (s.installMount m).array = s.array
      ∧ (s.installMount m).drain = s.drain ∧ (s.installMount m).flash = s.flash ∧ (s.installMount m).health = s.health
      ∧ (s.installMount m).mgmt = { s.mgmt with
        settings := m.settings, nextSettingsSeq := m.nextSeq, nextSettingsSlot := m.nextSlot } := by
  unfold State.installMount
  dsimp only
  split_ifs <;> exact ⟨rfl, rfl, rfl, rfl, rfl, rfl⟩

theorem mounted_spec (s : State) (m : Mount) : (s.mounted m).table = (s.installMount m).table
    ∧ (s.mounted m).queue = (s.installMount m).queue ∧ (s.mounted m).blocks = (s.installMount m).blocks
    ∧ (s.mounted m).windows = (s.installMount m).windows
    ∧ (s.mounted m).port = (s.installMount m).port ∧ (s.mounted m).array = (s.installMount m).array
    ∧ (s.mounted m).mount = none ∧ (s.mounted m).drain = (s.installMount m).drain
    ∧ (s.mounted m).flash = (s.installMount m).flash ∧ (s.mounted m).health = (s.installMount m).health
    ∧ (s.mounted m).mgmt = { (s.installMount m).mgmt with events := (s.mounted m).mgmt.events }
    ∧ ∀ v : Event, (s.mounted m).eventSet v
      = (s.eventSet v || decide (v = .mounted) || decide (v = .repaired ∧ m.repairMade = true)) := by
  obtain ⟨_, _, _, _, _, hmgmt⟩ := installMount_kept s m
  have hinstall : ∀ v : Event, State.eventSet { s.installMount m with mount := none } v = s.eventSet v := fun v => by
    unfold State.eventSet
    rw [hmgmt]
  unfold State.mounted
  cases hrepair : m.repairMade with
  | true =>
    refine ⟨rfl, rfl, rfl, rfl, rfl, rfl, rfl, rfl, rfl, rfl, rfl, fun v => ?_⟩
    rw [if_pos rfl, eventSet_raise, eventSet_raise, hinstall]
    simp
  | false =>
    refine ⟨rfl, rfl, rfl, rfl, rfl, rfl, rfl, rfl, rfl, rfl, rfl, fun v => ?_⟩
    rw [if_neg Bool.false_ne_true, eventSet_raise, hinstall]
    simp

theorem installMount_of_kept (hlost : m.flashLost = false) : (s.installMount m).table = m.table
    ∧ (s.installMount m).queue = { entries := [], requests := [], nextOrigin := m.nextOrigin }
    ∧ (s.installMount m).blocks = { BlockManager.reset with table := m.blockTable, nextSeq := m.nextBlockSeq }
    ∧ (s.installMount m).windows = { WindowUnit.reset with register := m.register, nextGroup := m.nextGroup } := by
  unfold State.installMount
  rw [hlost]
  exact ⟨rfl, rfl, rfl, rfl⟩

theorem installMount_of_lost (hlost : m.flashLost = true) : (s.installMount m).table = s.table
    ∧ (s.installMount m).queue = s.queue ∧ (s.installMount m).blocks = { BlockManager.reset with table := m.lostTable }
    ∧ (s.installMount m).windows = s.windows := by
  unfold State.installMount
  rw [hlost]
  exact ⟨rfl, rfl, rfl, rfl⟩

/-- A degrade condition found by the scan (R152, R191). -/
def Mount.degraded (m : Mount) : Bool :=
  decide (255 - (m.blockTable.filter fun c => decide (c.2.state = .retired)).length < 104)
    || atLast m.nextOrigin || atLast m.nextGroup || atLast m.nextBlockSeq

theorem degraded_installMount (hlost : m.flashLost = false) : (s.installMount m).degraded = m.degraded := by
  unfold State.installMount
  rw [hlost]
  rfl

theorem idle_of_reset {u : State} (h : u.windows = { WindowUnit.reset with register := m.register, nextGroup := m.nextGroup })
    (w : Nat) (hw : w < 4) : (u.window w).state = .idle := by
  unfold State.window
  rw [h]
  rcases w with _ | _ | _ | _ | w
  · rfl
  · rfl
  · rfl
  · rfl
  · omega

/-- PFW# takes the machine to DRAINED where its mode would be RUN or READONLY (R152). -/
def State.mountsDrained (s : State) (m : Mount) : Bool := s.drain.pfw && ((s.installMount m).chosenMode m).working

theorem completeMount_eq (herase : s.array.erase = none) : s.completeMount m
    = if s.mountsDrained m = true then
        State.raise { (s.mounted m).setMode .drain with
          drain := { ((s.mounted m).setMode .drain).drain with
            phase := .drained, returnMode := some ((s.installMount m).chosenMode m), releasePending := false } } .drainDone
      else (s.mounted m).setMode ((s.installMount m).chosenMode m) := by
  have hadopt : (s.installMount m).adoptHeldErase = s.installMount m := by
    have hnone : (s.installMount m).array.erase = none := by
      unfold State.installMount
      dsimp only
      split_ifs <;> exact herase
    unfold State.adoptHeldErase
    rw [hnone]
  unfold State.completeMount
  unfold State.mountsDrained
  dsimp only
  rw [hadopt]
  simp only [Bool.and_eq_true]
  rfl

theorem exec_mountCompletion (hon : s.power = .on) : exec .mountCompletion s = .next s.tryMount.settle :=
  taken_on s State.tryMount hon

theorem tryMount_of_ready (hmode : s.mgmt.mode = .mount) (hm : s.mount = some m)
    (h : s.mountReady m = true ∨ s.mountEnded m = true) : s.tryMount = (s.completeMount m).haltWaiting := by
  have hover : (s.mountReady m || s.mountEnded m) = true := by
    rw [Bool.or_eq_true]
    exact h
  unfold State.tryMount
  rw [hmode, hm]
  exact if_pos hover

/-! ### The command that HALTED ends (R190) -/

theorem haltCommand_kept (s : State) : ∃ (r : Option Request) (g : Mgmt), s.haltCommand
      = { s with port := { s.port with request := r }, mgmt := g }
    ∧ g.mode = s.mgmt.mode ∧ g.settings = s.mgmt.settings ∧ g.nextSettingsSeq = s.mgmt.nextSettingsSeq
    ∧ g.nextSettingsSlot = s.mgmt.nextSettingsSlot
    ∧ g.events = if s.activity.isSome then setEvent s.mgmt.events .cmdDone else s.mgmt.events := by
  have hcomplete : ∀ (ret : Ret) (bs : List Byte), s.activity.isSome = true → s.haltCommand = (s.complete ret bs).wake →
      ∃ (r : Option Request) (g : Mgmt), s.haltCommand = { s with port := { s.port with request := r }, mgmt := g }
        ∧ g.mode = s.mgmt.mode ∧ g.settings = s.mgmt.settings ∧ g.nextSettingsSeq = s.mgmt.nextSettingsSeq
        ∧ g.nextSettingsSlot = s.mgmt.nextSettingsSlot
        ∧ g.events = if s.activity.isSome then setEvent s.mgmt.events .cmdDone else s.mgmt.events := by
    intro ret bs hactive h
    obtain ⟨r, hwake⟩ := wake_request (s.complete ret bs)
    rw [hactive, h, hwake]
    exact ⟨r, _, rfl, rfl, rfl, rfl, rfl, rfl⟩
  cases hcommand : s.mgmt.command with
  | active a =>
    have hactive : s.activity.isSome = true := by simp [State.activity, hcommand]
    cases a with
    | sync d =>
      simp only [State.haltCommand, hcommand]
      rw [hactive]
      exact ⟨s.port.request, _, rfl, rfl, rfl, rfl, rfl, rfl⟩
    | wipe step cut =>
      simp only [State.haltCommand, hcommand]
      rw [hactive]
      exact ⟨s.port.request, _, rfl, rfl, rfl, rfl, rfl, rfl⟩
    | svce d => exact hcomplete .media [] hactive (by simp only [State.haltCommand, hcommand])
    | rsts d => exact hcomplete .media [] hactive (by simp only [State.haltCommand, hcommand])
    | append c new issued =>
      exact hcomplete .media (s.appendResults c) hactive (by simp only [State.haltCommand, hcommand]; rfl)
  | zero | unkn =>
    have hidle : s.activity.isSome = false := by simp [State.activity, hcommand]
    simp only [State.haltCommand, hcommand]
    rw [hidle]
    exact ⟨s.port.request, _, rfl, rfl, rfl, rfl, rfl, rfl⟩

end

/-! ### The block table after the loss of the flash (R136, R141) -/

theorem foldl_set_get_of_unlisted (xs : List BlockScan) (f : BlockScan → BlockEntry) (t : Sparse BlockEntry) (b : Nat)
    (ht : Sparse.wf BlockEntry.unknown t = true) (h : ∀ x ∈ xs, x.block ≠ b) : Sparse.get BlockEntry.unknown
      (xs.foldl (fun t x => Sparse.set BlockEntry.unknown t x.block (f x)) t) b = Sparse.get BlockEntry.unknown t b := by
  induction xs generalizing t with
  | nil => rfl
  | cons x xs ih =>
    rw [List.foldl_cons, ih _ (Sparse.wf_set _ t x.block (f x) ht) fun y hy => h y (List.mem_cons_of_mem _ hy)]
    exact Sparse.get_set_other _ t x.block b (f x) (h x List.mem_cons_self).symm ht

theorem lostEntry_eq (m : Mount) (x : BlockScan) : m.lostEntry x =
    { state := (match x.cls with
        | .retired => .retired
        | .erased => .erased
        | .full | .unfinished | .invalid | .virgin => .full),
      eraseCount := if x.cls = .virgin then 0
        else x.eraseCount.getD ((m.scans.map fun y => y.eraseCount.getD 0).foldr max 0),
      blockSeq := (match x.cls with
        | .retired | .full | .unfinished => x.opening.map (·.1)
        | .erased | .invalid | .virgin => none),
      nextFree := 0, failures := 0 } := by
  unfold Mount.lostEntry Mount.countOf Mount.highestCount
  rw [maxOf_eq]
  cases x.cls <;> rfl

end Sys2Proof.Machine
end

section
/-! O60: the mode that mount completion chooses (R152), and HALTED after the loss of the flash or of block 0 (R136, R139). -/

namespace Sys2Proof.Machine

section
variable {s : State} {m : Mount}

/-- The engine is ready to complete when its steps are over (R150, R151). -/
theorem mountReady_of (hop : s.array.op = none) (herase : s.array.erase = none) (hstep : m.step = .repairs)
    (hrepairs : m.repairs = []) (hhold : s.commandHold = false) : s.mountReady m = true := by
  have hquiet : s.flashQuiet = true := flashQuiet_of hop (by simp [State.eraseBusy, herase])
  unfold State.mountReady
  rw [hquiet, hstep, hrepairs, herase, hhold]
  rfl

/-- The mode of R152, before PFW# is looked at. -/
theorem chosenMode_of_kept (hlost : m.flashLost = false) (hblock0 : m.block0Unusable = false) :
    (s.installMount m).chosenMode m = if m.strap then .service else if m.degraded then .readonly else .run := by
  unfold State.chosenMode
  rw [hlost, hblock0, degraded_installMount hlost]
  rfl

theorem chosenMode_of_halted (h : m.flashLost = true ∨ m.block0Unusable = true) :
    (s.installMount m).chosenMode m = .halted := by
  have hhalted : (m.flashLost || m.block0Unusable) = true := by
    rw [Bool.or_eq_true]
    exact h
  exact if_pos hhalted

/-- What a mode entered after step 10 adds to the machine with the scan installed. -/
theorem setMode_mounted (mode : Mode) (hidle : ∀ w < 4, ((s.mounted m).window w).state = .idle) :
    ∃ (r : Option Request) (t : State), (s.mounted m).setMode mode = t
      ∧ t = { s.mounted m with
        port := { (s.mounted m).port with request := r },
        mgmt := { (s.mounted m).mgmt with mode := mode, events := t.mgmt.events } }
      ∧ ∀ v : Event, t.eventSet v = ((s.mounted m).eventSet v || decide (v = .modeChange)) := by
  obtain ⟨r, hset⟩ := setMode_of_idle mode hidle
  refine ⟨r, _, rfl, by rw [hset]; rfl, fun v => ?_⟩
  rw [hset]
  exact eventSet_raise { s.mounted m with mgmt := { (s.mounted m).mgmt with mode := mode } } .modeChange v

/-- Mount completion, as the machine with the scan installed in its new mode (R151, R152). -/
theorem completeMount_spec (herase : s.array.erase = none) (hidle : ∀ w < 4, ((s.mounted m).window w).state = .idle) :
    ∃ (r : Option Request) (t : State), s.completeMount m = t
      ∧ t = { s.mounted m with
        port := { (s.mounted m).port with request := r },
        drain := if s.mountsDrained m then
            { phase := .drained, returnMode := some ((s.installMount m).chosenMode m), releasePending := false, pfw := true }
          else s.drain,
        mgmt := { (s.mounted m).mgmt with
          mode := if s.mountsDrained m then .drain else (s.installMount m).chosenMode m, events := t.mgmt.events } }
      ∧ ∀ v : Event, t.eventSet v = ((s.mounted m).eventSet v || decide (v = .modeChange)
          || decide (v = .drainDone) && s.mountsDrained m) := by
  obtain ⟨_, _, idrain, _⟩ := installMount_kept s m
  obtain ⟨_, _, _, _, _, _, _, zdrain, _⟩ := mounted_spec s m
  rw [completeMount_eq herase]
  cases hdrains : s.mountsDrained m with
  | true =>
    have hpfw : s.drain.pfw = true := (Bool.and_eq_true_iff.mp hdrains).1
    obtain ⟨r, t, ht, hform, hevent⟩ := setMode_mounted .drain hidle
    have hdrain : t.drain = s.drain := by rw [hform, zdrain, idrain]
    rw [if_pos rfl, ht]
    refine ⟨r, _, rfl, ?_, fun v => ?_⟩
    · have hdrained : { t.drain with
          phase := .drained, returnMode := some ((s.installMount m).chosenMode m), releasePending := false }
          = { phase := .drained, returnMode := some ((s.installMount m).chosenMode m), releasePending := false,
              pfw := true } := by rw [hdrain, ← hpfw]
      rw [hdrained, hform]
      rfl
    · rw [eventSet_raise, Bool.and_true, ← hevent]
      rfl
  | false =>
    obtain ⟨r, t, ht, hform, hevent⟩ := setMode_mounted ((s.installMount m).chosenMode m) hidle
    rw [if_neg Bool.false_ne_true, ht]
    refine ⟨r, t, rfl, ?_, fun v => by rw [hevent, Bool.and_false, Bool.or_false]⟩
    rw [← idrain, ← zdrain]
    exact hform

/-! ### The completion without a loss (R151, R152) -/

theorem mountsDrained_of_kept (hlost : m.flashLost = false) (hblock0 : m.block0Unusable = false) :
    s.mountsDrained m = (!m.strap && s.drain.pfw) := by
  unfold State.mountsDrained
  rw [chosenMode_of_kept hlost hblock0]
  cases m.strap <;> cases m.degraded <;> cases s.drain.pfw <;> rfl

theorem mountCompletion_installs {d : Bool} (hon : s.power = .on) (hmode : s.mgmt.mode = .mount) (hm : s.mount = some m)
    (herase : s.array.erase = none) (hready : s.mountReady m = true) (hlost : m.flashLost = false)
    (hblock0 : m.block0Unusable = false) (hd : d = m.degraded) : ∃ t : State, exec .mountCompletion s = .next t.settle
      ∧ t.mgmt.mode = (if m.strap then .service else if s.drain.pfw then .drain else if d then .readonly else .run)
      ∧ t.drain = (if m.strap = false ∧ s.drain.pfw = true then
            { phase := .drained, returnMode := some (if d then .readonly else .run), releasePending := false, pfw := true }
          else s.drain)
      ∧ t.table = m.table ∧ t.queue = { entries := [], requests := [], nextOrigin := m.nextOrigin }
      ∧ t.blocks = { BlockManager.reset with table := m.blockTable, nextSeq := m.nextBlockSeq }
      ∧ t.windows = { WindowUnit.reset with register := m.register, nextGroup := m.nextGroup }
      ∧ t.port.exchange = m.settings.exchange ∧ t.mgmt.settings = m.settings ∧ t.mgmt.nextSettingsSeq = m.nextSeq
      ∧ t.mgmt.nextSettingsSlot = m.nextSlot ∧ t.mount = none ∧ t.flash = s.flash ∧ t.health = s.health
      ∧ (∀ v : Event, t.eventSet v = (s.eventSet v || decide (v = .mounted ∨ v = .modeChange)
          || decide (v = .repaired ∧ m.repairMade = true)
          || decide (v = .drainDone ∧ m.strap = false ∧ s.drain.pfw = true))) := by
  subst hd
  obtain ⟨itable, iqueue, iblocks, iwindows⟩ := installMount_of_kept (s := s) hlost
  obtain ⟨iport, _, _, iflash, ihealth, imgmt⟩ := installMount_kept s m
  obtain ⟨ztable, zqueue, zblocks, zwindows, zport, _, zmount, _, zflash, zhealth, zmgmt, zevent⟩ := mounted_spec s m
  obtain ⟨r, t, ht, hform, hevent⟩ := completeMount_spec herase (idle_of_reset (zwindows.trans iwindows))
  rw [mountsDrained_of_kept hlost hblock0, chosenMode_of_kept hlost hblock0] at hform
  have htmode : t.mgmt.mode
      = (if m.strap then .service else if s.drain.pfw then .drain else if m.degraded then .readonly else .run) := by
    rw [hform]
    cases m.strap <;> cases s.drain.pfw <;> rfl
  have hgoes : t.haltWaiting = t := by
    refine if_neg ?_
    rw [htmode]
    cases m.strap <;> cases s.drain.pfw <;> cases m.degraded <;> decide
  have hexec : exec .mountCompletion s = .next t.settle := by
    rw [exec_mountCompletion hon, tryMount_of_ready hmode hm (.inl hready), ht, hgoes]
  refine ⟨t, hexec, htmode, ?_, ?_, ?_, ?_, ?_, ?_, ?_, ?_, ?_, ?_, ?_, ?_, fun v => ?_⟩
  · rw [hform]
    cases hstrap : m.strap <;> cases hpfw : s.drain.pfw <;> simp
  · rw [hform]
    exact ztable.trans itable
  · rw [hform]
    exact zqueue.trans iqueue
  · rw [hform]
    exact zblocks.trans iblocks
  · rw [hform]
    exact zwindows.trans iwindows
  · rw [hform, zport, iport]
  · rw [hform, zmgmt, imgmt]
  · rw [hform, zmgmt, imgmt]
  · rw [hform, zmgmt, imgmt]
  · rw [hform]
    exact zmount
  · rw [hform]
    exact zflash.trans iflash
  · rw [hform]
    exact zhealth.trans ihealth
  · rw [hevent, zevent, mountsDrained_of_kept hlost hblock0]
    cases v <;> cases m.strap <;> cases s.drain.pfw <;> simp

/-! ### HALTED after the loss (R136, R139, R190) -/

theorem mountCompletion_halts (hon : s.power = .on) (hmode : s.mgmt.mode = .mount) (hm : s.mount = some m)
    (herase : s.array.erase = none) (hidle : ∀ w < 4, (s.window w).state = .idle)
    (hwhy : m.flashLost = true ∨ m.flashLost = false ∧ m.block0Unusable = true ∧ s.commandHold = false) :
    ∃ t : State, exec .mountCompletion s = .next t.settle ∧ t.mgmt.mode = .halted ∧ t.activity = none ∧ t.mount = none
      ∧ t.port.exchange = m.settings.exchange ∧ t.mgmt.settings = m.settings
      ∧ t.mgmt.nextSettingsSeq = m.nextSeq ∧ t.mgmt.nextSettingsSlot = m.nextSlot
      ∧ (t.table = (s.installMount m).table ∧ t.queue = (s.installMount m).queue
        ∧ t.blocks = (s.installMount m).blocks ∧ t.windows = (s.installMount m).windows)
      ∧ t.array = s.array ∧ t.drain = s.drain ∧ t.flash = s.flash ∧ t.health = s.health
      ∧ (∀ v : Event, t.eventSet v = (s.eventSet v || decide (v = .mounted ∨ v = .modeChange)
          || decide (v = .repaired ∧ m.repairMade = true) || decide (v = .cmdDone ∧ s.activity.isSome = true))) := by
  obtain ⟨iport, iarray, _, iflash, ihealth, imgmt⟩ := installMount_kept s m
  obtain ⟨ztable, zqueue, zblocks, zwindows, zport, zarray, zmount, _, zflash, zhealth, zmgmt, zevent⟩ := mounted_spec s m
  have hstopped : ∀ w < 4, ((s.mounted m).window w).state = .idle := by
    cases hlost : m.flashLost with
    | false =>
      obtain ⟨_, _, _, iwindows⟩ := installMount_of_kept (s := s) hlost
      exact idle_of_reset (zwindows.trans iwindows)
    | true =>
      obtain ⟨_, _, _, iwindows⟩ := installMount_of_lost (s := s) hlost
      intro w hw
      unfold State.window
      rw [zwindows, iwindows]
      exact hidle w hw
  have hchosen : (s.installMount m).chosenMode m = .halted :=
    chosenMode_of_halted (hwhy.imp_right fun ⟨_, hblock0, _⟩ => hblock0)
  have hended : s.mountEnded m = true := by
    unfold State.mountEnded
    rcases hwhy with hlost | ⟨hlost, hblock0, hhold⟩
    · rw [hlost, Bool.true_or]
    · rw [hlost, hblock0, hhold]
      rfl
  have hstays : s.mountsDrained m = false := by
    unfold State.mountsDrained
    rw [hchosen]
    exact Bool.and_false _
  obtain ⟨r, t, ht, hform, hevent⟩ := completeMount_spec herase hstopped
  rw [hstays, hchosen] at hform
  have htmode : t.mgmt.mode = .halted := by rw [hform]; rfl
  have htactive : t.activity = s.activity := by
    unfold State.activity
    rw [hform, zmgmt, imgmt]
  have hwaits : t.haltWaiting = t.haltCommand := if_pos htmode
  obtain ⟨r', g, hhalt, gmode, gsettings, gseq, gslot, gevents⟩ := haltCommand_kept t
  obtain ⟨_, _, hnone⟩ := haltCommand_spec t
  have hexec : exec .mountCompletion s = .next t.haltCommand.settle := by
    rw [exec_mountCompletion hon, tryMount_of_ready hmode hm (.inr hended), ht, hwaits]
  refine ⟨_, hexec, ?_, hnone, ?_, ?_, ?_, ?_, ?_, ⟨?_, ?_, ?_, ?_⟩, ?_, ?_, ?_, ?_, fun v => ?_⟩
  · rw [hhalt]
    exact gmode.trans htmode
  · rw [hhalt, hform]
    exact zmount
  · rw [hhalt, hform, zport, iport]
  · rw [hhalt]
    exact gsettings.trans (by rw [hform, zmgmt, imgmt])
  · rw [hhalt]
    exact gseq.trans (by rw [hform, zmgmt, imgmt])
  · rw [hhalt]
    exact gslot.trans (by rw [hform, zmgmt, imgmt])
  · rw [hhalt, hform]
    exact ztable
  · rw [hhalt, hform]
    exact zqueue
  · rw [hhalt, hform]
    exact zblocks
  · rw [hhalt, hform]
    exact zwindows
  · rw [hhalt, hform]
    exact zarray.trans iarray
  · rw [hhalt, hform]
    rfl
  · rw [hhalt, hform]
    exact zflash.trans iflash
  · rw [hhalt, hform]
    exact zhealth.trans ihealth
  · have hdone : t.haltCommand.eventSet v = (t.eventSet v || decide (v = .cmdDone ∧ s.activity.isSome = true)) := by
      rw [hhalt, ← htactive]
      unfold State.eventSet
      rw [gevents]
      cases t.activity.isSome with
      | true => rw [if_pos rfl, getLsbD_setEvent]; simp
      | false => simp
    rw [hdone, hevent, zevent, hstays]
    cases v <;> simp

end

/-- Settles O60: what the scan found is installed, then the mode is chosen; HALTED ends the command in progress. -/
theorem mountCompletionChoosesTheMode : Obligations.MountCompletionChoosesTheMode := by
  refine ⟨?completes, ?halts, fun m => ⟨fun hn x hx => ?_, fun b hb => ?_⟩⟩
  case completes =>
    intro s m d hon hmode hm hop herase hstep hrepairs hhold hlost hblock0 hd
    exact mountCompletion_installs hon hmode hm herase (mountReady_of hop herase hstep hrepairs hhold) hlost hblock0 hd
  case halts =>
    intro s m hon hmode hm herase hidle hwhy
    obtain ⟨t, hexec, tmode, tactive, tmount, texchange, tsettings, tseq, tslot, ⟨ttable, tqueue, tblocks, twindows⟩,
      tarray, tdrain, tflash, thealth, tevent⟩ := mountCompletion_halts hon hmode hm herase hidle hwhy
    refine ⟨t, hexec, tmode, tactive, tmount, texchange, tsettings, tseq, tslot, fun hlost => ?_, fun hlost => ?_, tarray,
      tdrain, tflash, thealth, tevent⟩
    · obtain ⟨itable, iqueue, iblocks, iwindows⟩ := installMount_of_lost (s := s) hlost
      exact ⟨ttable.trans itable, tqueue.trans iqueue, twindows.trans iwindows, tblocks.trans iblocks⟩
    · obtain ⟨itable, iqueue, iblocks, iwindows⟩ := installMount_of_kept (s := s) hlost
      exact ⟨ttable.trans itable, tqueue.trans iqueue, tblocks.trans iblocks, twindows.trans iwindows⟩
  · exact ((foldl_set_get m.scans m.lostEntry [] rfl hn).1 x hx).trans (lostEntry_eq m x)
  · exact foldl_set_get_of_unlisted m.scans m.lostEntry [] b rfl hb

end Sys2Proof.Machine
end

section
/-! O18: the requests of ranks 1 and 2, of an erase in hand, and of WIPE (R97, R134, R148, R186). -/

namespace Sys2Proof.Machine

section
variable {s t : State} {m : Mount} {j : EraseJob}

/-! ### Nothing is granted (R97, R105) -/

theorem exec_arbiterGrant (hon : s.power = .on) : exec .arbiterGrant s = .next s.grant.settle := taken_on s State.grant hon

theorem grant_of_flying (h : s.array.op.isSome = true ∨ 3 ≤ s.array.timeouts) : s.grant = s := by
  refine if_pos ?_
  rw [Bool.or_eq_true]
  exact h.imp_right decide_eq_true

/-! ### Rank 1 (R40, R50, R97) -/

theorem grant_of_read {q : Purpose} {x : Slot} (hm : s.mgmt.mode = .run ∨ s.mgmt.mode = .readonly ∨ s.mgmt.mode = .drain)
    (hop : s.array.op = none) (htime : s.array.timeouts < 3) (hbusy : s.eraseBusy = false)
    (hread : s.rankOne = some (q, x)) : s.grant = s.startOp q x.block (48 * x.slot) 48 [] := by
  have hlost : s.flashLost = false := decide_eq_false (Nat.not_le.mpr htime)
  have hgranted : s.grantRead = some (s.startOp q x.block (48 * x.slot) 48 []) := by
    unfold State.grantRead
    rw [hread]
    rfl
  have hchoice : s.arbiterChoice = some (s.startOp q x.block (48 * x.slot) 48 []) := by
    unfold State.arbiterChoice
    rw [hgranted]
    rcases hm with hm | hm | hm <;> rw [hm] <;> rfl
  unfold State.grant
  rw [hop, hlost, hbusy, hchoice]
  rfl

/-- A piece that needs no merge image, or holds it (R50, R58). -/
theorem mergeMissing_of_held {q : Piece} (h : q.inRange = false ∨ q.full = true
    ∨ (s.newestUsable (s.lineOf q)).isSome = true ∨ (s.entry (s.lineOf q)).current = none
    ∨ q.merge.map (·.slot) = (s.entry (s.lineOf q)).current) : s.mergeMissing q = false := by
  cases hcurrent : (s.entry (s.lineOf q)).current with
  | none => simp [State.mergeMissing, State.needsMerge, hcurrent]
  | some x =>
    rw [hcurrent] at h
    rw [← Bool.not_eq_true, mergeMissing_iff hcurrent]
    rintro ⟨hin, hfull, hnewest, hmerge⟩
    simp [hin, hfull, hnewest, hmerge] at h

/-! ### The mount engine's requests (R134, R148) -/

theorem arbiterChoice_of_mount (hm : s.mgmt.mode = .mount) : s.arbiterChoice = s.mountRequest := by
  unfold State.arbiterChoice
  rw [hm]

theorem mountRequest_of_read {b o len : Nat} (hhold : s.commandHold = false) (hm : s.mount = some m)
    (hread : m.step.read = some (b, o, len)) : s.mountRequest = some (s.startOp .mountRead b o len []) := by
  unfold State.mountRequest
  rw [hhold, hm]
  dsimp only
  rw [hread]
  rfl

theorem mountRequest_of_repairs (hhold : s.commandHold = false) (hm : s.mount = some m) (hstep : m.step = .repairs) :
    s.mountRequest = s.repairRequest m := by
  unfold State.mountRequest
  rw [hhold, hm]
  dsimp only
  rw [hstep]
  rfl

theorem repairRequest_of_write {w : Repair} {rest : List Repair} (hwp : s.array.wp = false) (hpfw : s.drain.pfw = false)
    (herase : s.array.erase = none) (hrepairs : m.repairs = w :: rest) :
    s.repairRequest m = some (s.startRepair m w rest) := by
  unfold State.repairRequest
  rw [herase, hpfw, hwp, hrepairs]
  rfl

theorem repairRequest_of_erase (hpfw : s.drain.pfw = false) (hj : s.array.erase = some j) (hpart : j.part ≠ .headerHeld) :
    s.repairRequest m = (s.noteRepair j).eraseRequest j := by
  unfold State.repairRequest
  rw [hj, hpfw]
  exact if_neg hpart

theorem arbiterGrant_of_repair {w : Repair} {rest : List Repair} (h : s.atGrant = true) (hmode : s.mgmt.mode = .mount)
    (hm : s.mount = some m) (hhold : s.commandHold = false) (hwp : s.array.wp = false) (hpfw : s.drain.pfw = false)
    (herase : s.array.erase = none) (hstep : m.step = .repairs) (hrepairs : m.repairs = w :: rest)
    (ht : s.startRepair m w rest = t) : exec .arbiterGrant s = .next t.settle := by
  refine arbiterGrant_of_choice s t h ?_
  rw [arbiterChoice_of_mount hmode, mountRequest_of_repairs hhold hm hstep,
    repairRequest_of_write hwp hpfw herase hrepairs, ht]

theorem noteRepair_eq (hm : s.mount = some m) :
    s.noteRepair j = { s with mount := some { m with repairMade := m.repairMade || decide (j.part = .waiting) } } := by
  unfold State.noteRepair
  split_ifs with hpart
  · rw [decide_eq_true hpart, Bool.or_true, State.withMount, hm]
    rfl
  · rw [decide_eq_false hpart, Bool.or_false, ← hm]

/-! ### An erase in hand (R139, R148, R186) -/

theorem arbiterChoice_of_service (hm : s.mgmt.mode = .service) : s.arbiterChoice = s.wipeRequest := by
  unfold State.arbiterChoice
  rw [hm]

theorem wipeRequest_of_erase {step : WipeStep} (hcommand : s.mgmt.command = .active (.wipe step false))
    (hj : s.array.erase = some j) (howner : j.owner = .wipe) : s.wipeRequest = s.eraseRequest j := by
  unfold State.wipeRequest
  rw [hcommand, hj]
  exact if_pos howner

theorem wipeRequest_of_data {n : Nat} (hcommand : s.mgmt.command = .active (.wipe (.data n) false))
    (herase : s.array.erase = none) : s.wipeRequest = s.nextFormat (.data n) := by
  unfold State.wipeRequest
  rw [hcommand, herase]

/-- The erase in hand of mount or of WIPE asks, `t` being the machine in which it does (R138). -/
theorem arbiterChoice_of_erase (hj : s.array.erase = some j) (hpart : j.part ≠ .headerHeld)
    (h : s.mgmt.mode = .mount ∧ s.commandHold = false ∧ s.drain.pfw = false
        ∧ (∃ m, s.mount = some m ∧ m.step = .repairs
          ∧ t = { s with mount := some { m with repairMade := m.repairMade || decide (j.part = .waiting) } })
      ∨ s.mgmt.mode = .service ∧ j.owner = .wipe ∧ (∃ step, s.mgmt.command = .active (.wipe step false)) ∧ t = s) :
    s.arbiterChoice = t.eraseRequest j ∧ t.array = s.array := by
  rcases h with ⟨hmode, hhold, hpfw, m, hm, hstep, rfl⟩ | ⟨hmode, howner, ⟨step, hcommand⟩, rfl⟩
  · refine ⟨?_, rfl⟩
    rw [arbiterChoice_of_mount hmode, mountRequest_of_repairs hhold hm hstep, repairRequest_of_erase hpfw hj hpart,
      noteRepair_eq hm]
  · exact ⟨by rw [arbiterChoice_of_service hmode, wipeRequest_of_erase hcommand hj howner], rfl⟩

theorem eraseRequest_waiting (hpart : j.part = .waiting) (hwp : s.array.wp = false) :
    s.eraseRequest j = some (s.startErase j) := by
  unfold State.eraseRequest
  rw [hpart, hwp]
  rfl

theorem eraseRequest_firstPart (hpart : j.part = .firstPart) (hwp : s.array.wp = false) :
    s.eraseRequest j = some (s.startOp .block0Header 0 0 16 (firstPart kindSettings j.newCount)) := by
  unfold State.eraseRequest
  rw [hpart, hwp]
  rfl

theorem eraseRequest_record (hpart : j.part = .record) (hwp : s.array.wp = false) :
    s.eraseRequest j = some (s.startOp .block0Record 0 48 48 Settings.default.encode) := by
  unfold State.eraseRequest
  rw [hpart, hwp]
  rfl

/-! ### WIPE (R186) -/

theorem nextFormat_of_block {n b : Nat} (hwp : s.array.wp = false) (hb : b ∈ dataBlocks) (hn : n ≤ b)
    (hkept : (s.block b).state ≠ .retired)
    (hbelow : ∀ d ∈ dataBlocks, n ≤ d → d < b → (s.block d).state = .retired) : s.nextFormat (.data n)
      = some ((s.hold (.wipe (.data (b + 1)) false)).startErase
          (newErase .wipe b (raiseEraseCount (s.block b).eraseCount))) := by
  have hnext : s.nextWiped n = some b := by
    unfold State.nextWiped
    refine List.find?_range'_eq_some.mpr ⟨by simp [hn, hkept], hb, fun d hd hlt => ?_⟩
    have hmem : d ∈ dataBlocks := List.mem_range'_1.mpr ⟨hd, hlt.trans (List.mem_range'_1.mp hb).2⟩
    by_cases hle : n ≤ d
    · simp [hbelow d hmem hle hlt]
    · simp [hle]
  unfold State.nextFormat
  dsimp only
  rw [hnext, hwp]
  rfl

theorem nextFormat_of_none {n : Nat} (h : ∀ d ∈ dataBlocks, n ≤ d → (s.block d).state = .retired) :
    s.nextFormat (.data n) = some ((s.hold (.wipe .read0 false)).startOp .wipeRead 0 0 16 []) := by
  have hnext : s.nextWiped n = none := by
    unfold State.nextWiped
    rw [List.find?_eq_none]
    intro d hd
    by_cases hle : n ≤ d
    · simp [h d hd hle]
    · simp [hle]
  unfold State.nextFormat
  dsimp only
  rw [hnext]

end

/-- Settles O18: rank 1 first; then, where no read waits, what mount, an erase in hand or WIPE asks for. -/
theorem arbiterGrantsTheWaitingReadFirst : Obligations.ArbiterGrantsTheWaitingReadFirst := by
  refine ⟨?nothing, ?read, ?merge, ?scan, ?repairs, ?erase, ?wipe⟩
  case nothing =>
    intro s hon h
    rw [exec_arbiterGrant hon, grant_of_flying h]
  case read =>
    intro s r before after p x hon hm hop htime hbusy hr hphase hsplit hbefore hp hcurrent
    have hread : s.rankOne = some (.readPiece before.length, x) :=
      rankOne_iff.mpr ⟨r, before, p, after, hr, hsplit, hcurrent, .inl ⟨hphase, rfl, hp, hbefore⟩⟩
    rw [exec_arbiterGrant hon, grant_of_read hm hop htime hbusy hread]
    rfl
  case merge =>
    intro s r before after p x hon hm hop htime hbusy hr hphase hsplit hbefore hin hfull hnewest hcurrent hmerge
    have hread : s.rankOne = some (.mergeRead before.length, x) :=
      rankOne_iff.mpr ⟨r, before, p, after, hr, hsplit, hcurrent,
        .inr ⟨hphase, rfl, hin, hfull, hnewest, hmerge, fun y hy => mergeMissing_of_held (hbefore y hy)⟩⟩
    rw [exec_arbiterGrant hon, grant_of_read hm hop htime hbusy hread]
    rfl
  case scan =>
    intro s m b o len h hmode hm hhold hstep
    have hread : m.step.read = some (b, o, len) := by
      rcases hstep with ⟨hstep, rfl, rfl, rfl⟩ | ⟨hstep, rfl, rfl⟩ | ⟨hstep, rfl, rfl⟩ | ⟨hstep, rfl, rfl⟩
        | ⟨n, hstep, rfl, rfl⟩ <;> rw [hstep] <;> rfl
    refine arbiterGrant_of_choice s _ h ?_
    rw [arbiterChoice_of_mount hmode, mountRequest_of_read hhold hm hread]
    rfl
  case repairs =>
    intro s t m w rest h hmode hm hhold hwp hpfw herase hstep hrepairs ht
    have hgrant : ∀ {u : State}, s.startRepair m w rest = u → exec .arbiterGrant s = .next u.settle :=
      fun hu => arbiterGrant_of_repair h hmode hm hhold hwp hpfw herase hstep hrepairs hu
    subst ht
    refine ⟨fun b hw => hgrant ?_, fun b hw => hgrant ?_, fun hw => hgrant ?_, fun b n hw => hgrant ?_⟩
    · subst hw
      simp only [Bool.or_true, Bool.not_true, Bool.or_false]
      rfl
    · subst hw
      simp only [reduceCtorEq, decide_false, Bool.or_false, Bool.not_false, Bool.or_true]
      rfl
    · subst hw
      simp only [decide_true, Bool.not_true, Bool.or_false]
      rfl
    · rcases hw with ⟨rfl, rfl⟩ | ⟨rfl, rfl, rfl⟩
      · simp only [reduceCtorEq, decide_false, Bool.or_false, Bool.not_false, Bool.or_true]
        rfl
      · simp only [reduceCtorEq, decide_false, Bool.or_false, Bool.not_false, Bool.or_true]
        rfl
  case erase =>
    intro s t j h hwp hj ht
    have hgrant : ∀ {u : State}, j.part ≠ .headerHeld → t.eraseRequest j = some u →
        exec .arbiterGrant s = .next u.settle := by
      intro u hpart hu
      obtain ⟨hchoice, _⟩ := arbiterChoice_of_erase hj hpart ht
      exact arbiterGrant_of_choice s u h (hchoice.trans hu)
    have hkept : t.array = s.array := by
      rcases ht with ⟨_, _, _, m, _, _, rfl⟩ | ⟨_, _, _, rfl⟩ <;> rfl
    have hwpt : t.array.wp = false := by rw [hkept]; exact hwp
    refine ⟨fun hpart => ?_, fun hpart => ?_, fun hpart => ?_⟩
    · rw [hgrant (by rw [hpart]; decide) (eraseRequest_waiting hpart hwpt), ← hkept]
      rfl
    · rw [hgrant (by rw [hpart]; decide) (eraseRequest_firstPart hpart hwpt), startOp_eq, State.opFor, State.opFor, hkept]
    · rw [hgrant (by rw [hpart]; decide) (eraseRequest_record hpart hwpt), startOp_eq, State.opFor, State.opFor, hkept]
  case wipe =>
    intro s n h hwp hmode herase hcommand
    refine ⟨fun b hb hn hkept hbelow => arbiterGrant_of_choice s _ h ?_, fun hdone => arbiterGrant_of_choice s _ h ?_⟩
    · rw [arbiterChoice_of_service hmode, wipeRequest_of_data hcommand herase,
        nextFormat_of_block hwp hb hn hkept hbelow]
      rfl
    · rw [arbiterChoice_of_service hmode, wipeRequest_of_data hcommand herase, nextFormat_of_none hdone]
      rfl

end Sys2Proof.Machine
end

section
/-! What each of the queue's, the drain's and the block manager's requests issues (R61 to R63, R76, R77, R82 to R85, R91). -/

namespace Sys2Proof.Machine

section
variable {s : State}

/-! ### The record of the head (R63) -/

theorem nextSequence_of_lt {n : Nat} (h : n < 4294967295) : nextSequence n = n + 1 := if_pos h

theorem startRecord_eq (p : Purpose) (x : Slot) (bytes : List Byte) : s.startRecord p x bytes = { s with
    blocks := { s.blocks with
      table := Sparse.set BlockEntry.unknown s.blocks.table x.block { s.block x.block with nextFree := x.slot + 1 } },
    array := { s.array with op := some (s.opFor p x.block (48 * x.slot) 48 bytes) } } := rfl

theorem record_issued (e : LineEntry) (origin : Nat) (x : Slot) : (e.issued origin x).record =
    { kind := if e.tag = none then .plain else .tentative, window := (e.tag.map (·.window)).getD 0,
      line := e.line, origin := e.origin.getD origin, group := (e.tag.map (·.group)).getD 0, data := e.image } := by
  have htag : (e.issued origin x).tag = e.tag := rfl
  unfold LineEntry.record
  rw [htag]
  cases e.tag <;> rfl

theorem issueHead_line {e : LineEntry} {qs : List QEntry} {x : Slot} (p : Purpose) (hq : s.queue.entries = .line e :: qs)
    (hnumber : e.origin = none → s.queue.nextOrigin < 4294967295) : s.issueHead p x = { s with
      queue := { s.queue with
        entries := .line { e with state := .programming, origin := some (e.origin.getD s.queue.nextOrigin),
                                  target := some x } :: qs,
        nextOrigin := if e.origin = none then s.queue.nextOrigin + 1 else s.queue.nextOrigin },
      blocks := { s.blocks with
        table := Sparse.set BlockEntry.unknown s.blocks.table x.block { s.block x.block with nextFree := x.slot + 1 } },
      array := { s.array with
        op := some (s.opFor p x.block (48 * x.slot) 48 (Record.encode
          { kind := if e.tag = none then .plain else .tentative, window := (e.tag.map (·.window)).getD 0,
            line := e.line, origin := e.origin.getD s.queue.nextOrigin, group := (e.tag.map (·.group)).getD 0,
            data := e.image })) } } := by
  have hnext : (if e.origin.isNone then nextSequence s.queue.nextOrigin else s.queue.nextOrigin)
      = if e.origin = none then s.queue.nextOrigin + 1 else s.queue.nextOrigin := by
    cases horigin : e.origin with
    | none => exact nextSequence_of_lt (hnumber horigin)
    | some n => rfl
  unfold State.issueHead
  rw [hq]
  dsimp only
  rw [hnext, startRecord_eq, record_issued]
  rfl

theorem issueHead_commit {e : CommitEntry} {qs : List QEntry} {x : Slot} (p : Purpose)
    (hq : s.queue.entries = .commit e :: qs) : s.issueHead p x = { s with
      queue := { s.queue with entries := .commit { e with state := .programming, target := some x } :: qs },
      blocks := { s.blocks with
        table := Sparse.set BlockEntry.unknown s.blocks.table x.block { s.block x.block with nextFree := x.slot + 1 } },
      array := { s.array with
        op := some (s.opFor p x.block (48 * x.slot) 48 (Record.encode
          { kind := .commit, window := e.window, line := 0, origin := 0, group := e.group,
            data := List.replicate 32 0 })) } } := by
  unfold State.issueHead
  rw [hq]
  rfl

/-! ### Openings (R33, R76) -/

theorem startOpening_eq {b : Nat} (r : Requester) (hseq : s.blocks.nextSeq < 4294967295)
    (hw : Sparse.wf BlockEntry.unknown s.blocks.table = true) (hb : (s.block b).state = .erased)
    (hleast : ∀ d, (s.block d).state = .erased → (s.block b).eraseCount < (s.block d).eraseCount
      ∨ (s.block b).eraseCount = (s.block d).eraseCount ∧ b ≤ d) : s.startOpening r = { s with
        blocks := { s.blocks with
          table := Sparse.set BlockEntry.unknown s.blocks.table b { s.block b with blockSeq := some s.blocks.nextSeq },
          nextSeq := s.blocks.nextSeq + 1, drainOpening := false },
        array := { s.array with
          op := some (s.opFor (.opening r) b 16 16 (openingField s.blocks.nextSeq (min s.queue.nextOrigin 4294967294)
            (min s.windows.nextGroup 4294967294))) } } := by
  unfold State.startOpening
  rw [blockToOpen_eq s b hw hb hleast]
  dsimp only
  rw [nextSequence_of_lt hseq]
  rfl

theorem gateHolds_of_erased {r : Requester} (hopen : s.openBlock = none) (hseq : s.blocks.nextSeq < 4294967295)
    (h : r = .queue ∧ 3 ≤ s.erasedCount ∨ r = .drain ∧ 1 ≤ s.erasedCount
      ∨ (∃ k, r = .job k) ∧ 2 ≤ s.erasedCount ∧ s.queue.entries.length + 1 ≤ s.freeSlots) : s.gateHolds r = true := by
  have hcan : ∀ gate, 1 ≤ gate → gate ≤ s.erasedCount → s.canOpen gate = true := fun gate h1 hgate => by
    unfold State.canOpen
    rw [hopen, atLast_eq_false_iff.mpr hseq, decide_eq_true hgate, decide_eq_true (h1.trans hgate)]
    rfl
  rcases h with ⟨rfl, h⟩ | ⟨rfl, h⟩ | ⟨⟨k, rfl⟩, h, hfree⟩
  · exact hcan 3 (by decide) h
  · exact hcan 1 (by decide) h
  · show (s.canOpen 2 && decide (s.queue.entries.length + 1 ≤ s.freeSlots)) = true
    rw [hcan 2 (by decide) h, decide_eq_true hfree]
    rfl

theorem nextSlot_of_closed (h : s.openBlock = none) : s.nextSlot = none := by
  unfold State.nextSlot
  rw [h]

theorem nextSlot_of_open {b n : Nat} (h : s.openBlock = some b) (hn : (s.block b).nextFree = n) (h84 : n ≤ 84) :
    s.nextSlot = some { block := b, slot := n } := by
  unfold State.nextSlot
  rw [h]
  dsimp only
  rw [hn]
  exact if_pos h84

theorem headRequest_of_closed {p : Purpose} {r : Requester} (hwp : s.array.wp = false) (hready : s.headReady = true)
    (hopen : s.openBlock = none) (hgate : s.gateHolds r = true) : s.headRequest p r = some (s.startOpening r) := by
  unfold State.headRequest
  rw [hwp, hready, nextSlot_of_closed hopen, hgate]
  rfl

/-! ### Relocation (R82 to R85) -/

theorem copyRequest_of_closed {k : JobKind} (hwp : s.array.wp = false) (hopen : s.openBlock = none)
    (hgate : s.gateHolds (.job k) = true) : s.copyRequest k = some (s.startOpening (.job k)) := by
  unfold State.copyRequest
  rw [hwp, nextSlot_of_closed hopen, hgate]
  rfl

theorem copyRequest_of_open {k : JobKind} {b n : Nat} (hwp : s.array.wp = false) (hopen : s.openBlock = some b)
    (hn : (s.block b).nextFree = n) (h84 : n ≤ 84) (hfree : s.queue.entries.length + 1 ≤ s.freeSlots) :
    s.copyRequest k = some (s.issueCopy k { block := b, slot := n }) := by
  unfold State.copyRequest
  rw [hwp, nextSlot_of_open hopen hn h84]
  exact if_pos hfree

theorem jobRequest_of_held {k : JobKind} {c : CopyWork} (hcopy : s.copyOf k = some c) (hheld : c.stage = .held) :
    s.jobRequest k = s.copyRequest k := by
  unfold State.jobRequest
  rw [hcopy]
  exact if_pos hheld

theorem jobRequest_of_source {k : JobKind} {x : Slot} (hcopy : s.copyOf k = none) (hsource : s.nextSource k = some x) :
    s.jobRequest k = some (s.startRelocRead k x) := by
  unfold State.jobRequest
  rw [hcopy, hsource]
  rfl

/-- The next source of the job that is next (R82, R91, R92). -/
theorem nextSource_of {k : JobKind} {x : Slot} (hnext : s.jobIsNext k = true)
    (h : k = .release ∧ (∃ j rest, s.blocks.release = some j
        ∧ (s.table.filter fun c => decide (c.2.group = some (.register j.register))).filterMap (·.2.current)
          ++ (s.windows.shadow.filter fun e => decide (e.committedGroup = some j.register)).filterMap (·.committed)
          = x :: rest)
      ∨ (k = .retirement ∧ s.blocks.retiring.head? = some x.block ∧ (s.block x.block).state = .retiring
          ∨ k = .reclaim ∧ s.blocks.victim = some x.block ∧ (s.block x.block).state = .victim)
        ∧ s.live x = true ∧ ∀ y, s.live y = true → y.block = x.block → x.slot ≤ y.slot) :
    s.nextSource k = some x := by
  rcases h with ⟨rfl, j, rest, hj, hsources⟩ | ⟨⟨rfl, hhead, _⟩ | ⟨rfl, hvictim, hstate⟩, hlive, hlowest⟩
  · have hfirst : s.releaseSources j.register = x :: rest := hsources
    unfold State.nextSource
    rw [hj]
    dsimp only
    rw [hfirst]
    rfl
  · obtain ⟨rest, hretiring⟩ : ∃ rest, s.blocks.retiring = x.block :: rest := List.head?_eq_some_iff.mp hhead
    have hcount : 0 < s.liveCount x.block := by
      simp only [State.jobIsNext, Bool.and_eq_true, List.all_eq_true, decide_eq_true_eq] at hnext
      obtain ⟨_, hall⟩ := hnext
      exact hall x.block (by rw [hretiring]; exact List.mem_cons_self)
    have hfirst : (s.blocks.retiring.find? fun b => decide (0 < s.liveCount b)) = some x.block := by
      rw [hretiring]
      exact List.find?_cons_of_pos (decide_eq_true hcount)
    unfold State.nextSource
    dsimp only
    rw [hfirst]
    exact lowestSlot_liveSlots s x hlive hlowest
  · unfold State.nextSource
    rw [hvictim]
    dsimp only
    rw [if_pos hstate]
    exact lowestSlot_liveSlots s x hlive hlowest

/-- A relocation read takes the turn of rank 5 for its job (R98). -/
theorem startRelocRead_eq {k : JobKind} {x : Slot} {c : CopyWork} (hnext : s.jobIsNext k = true)
    (hc : c = { source := x, stage := .reading, bytes := [], failed := false, built := none }) :
    s.startRelocRead k x = { s with
      blocks := (match (generalizing := false) k with
        | .reclaim => { s.blocks with reclaimCopy := some c, releaseTurn := false }
        | .retirement => { s.blocks with retireCopy := some c }
        | .release => { s.blocks with
            release := s.blocks.release.map fun j => { j with copy := some c },
            releaseTurn := if s.blocks.reclaimCopy = none then true else s.blocks.releaseTurn }),
      array := { s.array with op := some (s.opFor (.relocRead k) x.block (48 * x.slot) 48 []) } } := by
  subst hc
  cases k with
  | retirement => rfl
  | release =>
    unfold State.startRelocRead State.takeTurn State.copyOf
    cases hcopy : s.blocks.reclaimCopy with
    | none => simp only [Option.isSome_none, Bool.false_eq_true, if_false, if_true]; rfl
    | some c => simp only [Option.isSome_some, if_true, reduceCtorEq, if_false]; rfl
  | reclaim =>
    have hturn : s.takeTurn .reclaim = { s with blocks := { s.blocks with releaseTurn := false } } := by
      unfold State.takeTurn State.copyOf
      cases hrelease : s.blocks.release with
      | none => rfl
      | some j =>
        have hfirst : s.blocks.releaseTurn = false := by
          simp only [State.jobIsNext, State.reclaimFirst, hrelease, Bool.and_eq_true, Bool.not_eq_true'] at hnext
          obtain ⟨_, _, hturn⟩ := hnext
          exact hturn
        rw [← hfirst]
        dsimp only [Option.bind_some]
        split_ifs with hheld
        · rfl
        · show { s with blocks := { s.blocks with releaseTurn := false } } = _
          rw [← hfirst]
    unfold State.startRelocRead
    rw [hturn]
    rfl

/-! ### The copy (R83 to R85) -/

theorem issueCopy_of_dead {k : JobKind} {c : CopyWork} {x : Slot} (hcopy : s.copyOf k = some c)
    (hdead : s.live c.source = false) : s.issueCopy k x = { s with
      blocks := match (generalizing := false) k with
        | .reclaim => { s.blocks with reclaimCopy := none, releaseTurn := true }
        | .retirement => { s.blocks with retireCopy := none }
        | .release => { s.blocks with release := s.blocks.release.map fun j => { j with copy := none },
                                      releaseTurn := false } } := by
  unfold State.issueCopy
  rw [hcopy]
  dsimp only
  rw [hdead]
  cases k <;> rfl

theorem issueCopy_of_live {k : JobKind} {c d : CopyWork} {x : Slot} {bs : List Byte} (hcopy : s.copyOf k = some c)
    (hlive : s.live c.source = true) (hbytes : s.copyBytes c = bs)
    (hd : d = { c with stage := .programming, built := some bs }) : s.issueCopy k x = { s with
      blocks := { (match (generalizing := false) k with
          | .reclaim => { s.blocks with reclaimCopy := some d }
          | .retirement => { s.blocks with retireCopy := some d }
          | .release => { s.blocks with release := s.blocks.release.map fun j => { j with copy := some d } }
            : BlockManager) with
        table := Sparse.set BlockEntry.unknown s.blocks.table x.block { s.block x.block with nextFree := x.slot + 1 } },
      array := { s.array with op := some (s.opFor (.copyProgram k) x.block (48 * x.slot) 48 bs) } } := by
  subst hd
  unfold State.issueCopy
  rw [hcopy]
  dsimp only
  rw [hlive, hbytes, if_pos rfl, startRecord_eq]
  cases k <;> rfl

theorem fieldsValid_of_parse {bs : List Byte} {r : Record} (h : parseRecord bs = some r) : r.fieldsValid = true := by
  unfold parseRecord at h
  split at h
  · cases h
  · dsimp only at h
    split_ifs at h with hvalid
    cases h
    exact (Bool.and_eq_true_iff.mp hvalid).2

/-- A sound copy keeps its record, but becomes PLAIN when its group is no longer open (R83). -/
theorem soundCopy_eq {r : Record} (hvalid : r.fieldsValid = true) : s.soundCopy r
    = if r.kind = .tentative ∧ ¬(((s.window r.window).state = .opened ∨ (s.window r.window).state = .committing)
        ∧ (s.window r.window).group = some r.group) then
        { kind := .plain, window := 0, line := r.line, origin := r.origin, group := 0, data := r.data }
      else r := by
  obtain ⟨kind, window, line, origin, group, data⟩ := r
  cases kind with
  | plain =>
    simp only [Record.fieldsValid, Bool.and_eq_true, decide_eq_true_eq] at hvalid
    obtain ⟨⟨⟨rfl, _⟩, _⟩, rfl⟩ := hvalid
    simp only [reduceCtorEq, false_and, if_false]
    rfl
  | commit =>
    simp only [Record.fieldsValid, Bool.and_eq_true, decide_eq_true_eq] at hvalid
    obtain ⟨⟨⟨⟨_, rfl⟩, rfl⟩, _⟩, rfl⟩ := hvalid
    simp only [reduceCtorEq, false_and, if_false]
    rfl
  | tentative =>
    have hopen : s.openGroupOf window = some group ↔ ((s.window window).state = .opened
        ∨ (s.window window).state = .committing) ∧ (s.window window).group = some group := by
      unfold State.openGroupOf
      cases (s.window window).state <;> simp
    simp only [State.soundCopy, hopen, true_and]
    by_cases h : ((s.window window).state = .opened ∨ (s.window window).state = .committing)
        ∧ (s.window window).group = some group
    · rw [if_pos h, if_neg (not_not_intro h)]
      rfl
    · rw [if_neg h, if_pos h]
      rfl

theorem carriedOrigin_eq (bs : List Byte) : s.carriedOrigin bs
    = if 1 ≤ field bs 4 4 ∧ field bs 4 4 < s.queue.nextOrigin then field bs 4 4 else 1 := rfl

theorem carriedCopy_of_table {x : Slot} {bs : List Byte} {before after : List (Nat × TableEntry)} {l : Nat}
    {e : TableEntry} (htable : s.table = before ++ (l, e) :: after) (he : e.current = some x)
    (hbefore : ∀ y ∈ before, y.2.current ≠ some x) : s.carriedCopy x bs = match e.group with
      | some (.openIn w) =>
        { kind := .tentative, window := w, line := l, origin := s.carriedOrigin bs,
          group := (s.window w).group.getD 0, data := dataField bs }
      | _ =>
        { kind := .plain, window := 0, line := l, origin := s.carriedOrigin bs, group := 0, data := dataField bs } := by
  have hfind : (s.table.find? fun c => decide (c.2.current = some x)) = some (l, e) :=
    find?_of_split htable (decide_eq_true he) fun y hy => decide_eq_false (hbefore y hy)
  unfold State.carriedCopy
  rw [hfind]
  cases hgroup : e.group with
  | none => simp only [hgroup]; rfl
  | some g => cases g <;> simp only [hgroup] <;> rfl

theorem carriedCopy_of_line {x : Slot} {bs : List Byte} {l : Nat} (htable : ∀ y ∈ s.table, y.2.current ≠ some x)
    (hline : s.lineNaming x = some l) : s.carriedCopy x bs
      = { kind := .plain, window := 0, line := l, origin := s.carriedOrigin bs, group := 0, data := dataField bs } := by
  unfold State.carriedCopy
  rw [find?_table_none htable, hline]
  rfl

theorem carriedCopy_of_group {x : Slot} {bs : List Byte} {w g : Nat} (htable : ∀ y ∈ s.table, y.2.current ≠ some x)
    (hline : s.lineNaming x = none) (hgroup : s.groupNaming x = some { window := w, group := g }) :
    s.carriedCopy x bs
      = { kind := .commit, window := w, line := 0, origin := 0, group := g, data := List.replicate 32 0 } := by
  unfold State.carriedCopy
  rw [find?_table_none htable, hline, hgroup]
  rfl

theorem copyBytes_of_built {c : CopyWork} {bs : List Byte} (h : c.built = some bs) : s.copyBytes c = bs := by
  unfold State.copyBytes
  rw [h]

theorem copyBytes_of_sound {c : CopyWork} {r : Record} (h : c.built = none) (hsound : c.failed = false)
    (hr : parseRecord c.bytes = some r) : s.copyBytes c = (s.soundCopy r).encode := by
  unfold State.copyBytes
  rw [h, hsound, hr]
  rfl

theorem copyBytes_of_failed {c : CopyWork} (h : c.built = none) (hfailed : c.failed = true) :
    s.copyBytes c = (s.carriedCopy c.source c.bytes).encode := by
  unfold State.copyBytes
  rw [h, hfailed]
  rfl

/-! ### Marks (R77, R91) -/

theorem dropCopyOf_eq (b : Nat) : s.dropCopyOf b = { s with blocks := { s.blocks with
    retireCopy := if s.blocks.retireCopy.map (·.source.block) = some b then none else s.blocks.retireCopy } } := by
  unfold State.dropCopyOf
  cases h : s.blocks.retireCopy with
  | none => rfl
  | some c =>
    by_cases hb : c.source.block = b
    · simp [Option.filter, hb]
    · simp [Option.filter, hb]

theorem startTailMark_of_open {b : Nat} (h : s.openBlock = some b) : s.startTailMark = { s with array := { s.array with
    op := some (s.opFor .tailMark b 4080 16 (tailMarkBytes ((s.block b).blockSeq.getD 0))) } } := by
  unfold State.startTailMark
  rw [h]
  rfl

theorem tailRequest_of_rank {r : Requester} {n : Nat} (ht : s.blocks.tailOwed = some r) (hwp : s.array.wp = false)
    (hrank : tailRank r = n) : s.tailRequest n = some s.startTailMark := by
  unfold State.tailRequest
  rw [ht]
  exact if_pos ⟨hrank, hwp⟩

theorem tailRequest_of_other {r : Requester} {n : Nat} (ht : s.blocks.tailOwed = some r) (hrank : tailRank r ≠ n) :
    s.tailRequest n = none := by
  unfold State.tailRequest
  rw [ht]
  exact if_neg fun h => hrank h.1

end

end Sys2Proof.Machine
end

section
/-! O19: the requests below rank 1 in RUN, READONLY and DRAIN, in rank order (R97, R98). -/

namespace Sys2Proof.Machine

section
variable {s t : State}

/-! ### The ranks (R97, R98) -/

/-- A request of rank 3 goes before every other but a read (R97). -/
theorem arbiterGrant_of_rankThree (h : s.atGrant = true) (hjobs : s.jobsAsk = true) (ht : s.rankThree = some t) :
    exec .arbiterGrant s = .next t.settle := by
  refine arbiterGrant_of_choice s t h ?_
  rw [arbiterChoice_ranks s h hjobs, ht]
  rfl

/-- Rank 3 is empty without a RETIRING block, a priority release and a tail mark of its rank (R97). -/
theorem rankThree_of_tail {r : Requester} (ht : s.blocks.tailOwed = some r) (hrank : tailRank r ≠ 3)
    (hretiring : s.blocks.retiring = []) (hrelease : ∀ j, s.blocks.release = some j → j.priority = false) :
    s.rankThree = none := by
  have hat : s.releaseRequestAt true = none := by
    unfold State.releaseRequestAt
    cases hj : s.blocks.release with
    | none => rfl
    | some j => exact if_neg (by rw [hrelease j hj]; exact Bool.false_ne_true)
  have hretirement : s.retirementRequest = none := if_pos hretiring
  unfold State.rankThree
  rw [tailRequest_of_other ht hrank, hretirement, hat]
  rfl

/-- Rank 5 goes first where no opening waits that the drain had asked for, and the queue does not stand above it (R97). -/
theorem arbiterGrant_of_rankFive (h : s.atGrant = true) (hjobs : s.jobsAsk = true) (hthree : s.rankThree = none)
    (htail : ∀ r, s.blocks.tailOwed = some r → tailRank r = 5) (hfirst : s.rankFiveFirst = true)
    (ht : s.rankFive = some t) : exec .arbiterGrant s = .next t.settle := by
  simp only [State.rankFiveFirst, Bool.and_eq_true, Bool.or_eq_true, decide_eq_true_eq] at hfirst
  obtain ⟨hqueue, hopening⟩ := hfirst
  have hfour : s.tailRequest 4 = none := by
    cases howed : s.blocks.tailOwed with
    | none => exact tailRequest_none s 4 howed
    | some r => exact tailRequest_of_other howed (by rw [htail r howed]; decide)
  have hrank : (if Config.hostGate ≤ s.erasedCount then s.queueRequest <|> s.rankFive
      else s.rankFive <|> s.queueRequest) = some t := by
    split_ifs with hgate
    · have hempty : s.queue.entries = [] := hqueue.resolve_left (Nat.not_lt.mpr hgate)
      have hnone : s.queueRequest = none := by
        unfold State.queueRequest State.headRequest
        rw [hfour]
        simp [State.headReady, State.head, hempty]
      rw [hnone, ht]
      rfl
    · rw [ht]
      rfl
  refine arbiterGrant_of_choice s t h ?_
  rw [arbiterChoice_ranks s h hjobs, hthree, hrank, hfour, drainOpeningRequest_none s hopening]
  cases s.blocks.tailOwed with
  | none => rfl
  | some r => cases r <;> rfl

theorem release_of_reclaimFirst (h : s.reclaimFirst = true) : ∀ j, s.blocks.release = some j → j.priority = false := by
  intro j hj
  simp only [State.reclaimFirst, hj, Bool.and_eq_true, Bool.not_eq_true'] at h
  obtain ⟨hpriority, _⟩ := h
  exact hpriority

/-- The reclaim's request is the one of rank 5 that is taken where no release asks before it (R98). -/
theorem rankFive_of_reclaim (htail : s.blocks.tailOwed = none) (hfirst : s.reclaimFirst = true)
    (ht : s.reclaimRequest = some t) : s.rankFive = some t := by
  unfold State.rankFive
  rw [tailRequest_none s 5 htail, ht]
  cases hrelease : s.blocks.release with
  | none =>
    have hnone : s.releaseRequestAt false = none := by
      unfold State.releaseRequestAt
      rw [hrelease]
    rw [hnone]
    cases s.blocks.releaseTurn <;> rfl
  | some j =>
    simp only [State.reclaimFirst, hrelease, Bool.and_eq_true, Bool.not_eq_true'] at hfirst
    obtain ⟨_, hturn⟩ := hfirst
    rw [hturn]
    rfl

/-! ### The tail mark (R77, log 38) -/

theorem arbiterGrant_of_tail {r : Requester} {b : Nat} (h : s.atGrant = true) (hwp : s.array.wp = false)
    (ht : s.blocks.tailOwed = some r) (hopen : s.openBlock = some b)
    (hwho : s.jobsAsk = true ∧ (r = .job .retirement ∨ r = .priorityRelease)
      ∨ s.jobsAsk = true ∧ s.blocks.retiring = [] ∧ (∀ j, s.blocks.release = some j → j.priority = false)
        ∧ (r = .drain ∨ r = .queue ∧ 3 ≤ s.erasedCount
          ∨ (r = .job .reclaim ∨ r = .job .release) ∧ s.rankFiveFirst = true)
      ∨ s.mgmt.mode = .drain ∧ (r = .drain ∨ r = .queue)) :
    exec .arbiterGrant s = .next s.startTailMark.settle := by
  have hopening : s.drainOpeningRequest = none := drainOpeningRequest_none s (noDrainOpening_of_open s b hopen)
  rcases hwho with ⟨hjobs, hr⟩ | ⟨hjobs, hretiring, hrelease, hr⟩ | ⟨hmode, hr⟩
  · have hrank : tailRank r = 3 := by rcases hr with rfl | rfl <;> rfl
    refine arbiterGrant_of_rankThree h hjobs ?_
    unfold State.rankThree
    rw [tailRequest_of_rank ht hwp hrank]
    rfl
  · rcases hr with rfl | ⟨rfl, hthree⟩ | ⟨hr, hfirst⟩
    · refine arbiterGrant_of_choice s _ h ?_
      rw [arbiterChoice_ranks s h hjobs, rankThree_of_tail ht (by decide) hretiring hrelease, ht,
        tailRequest_of_rank (n := 4) ht hwp rfl]
      rfl
    · refine arbiterGrant_of_choice s _ h ?_
      have hqueue : s.queueRequest = some s.startTailMark := by
        unfold State.queueRequest
        rw [tailRequest_of_rank (n := 4) ht hwp rfl]
        rfl
      have hgate : Config.hostGate ≤ s.erasedCount := hthree
      rw [arbiterChoice_ranks s h hjobs, rankThree_of_tail ht (by decide) hretiring hrelease, ht, hopening, hqueue,
        if_pos hgate]
      rfl
    · have hrank : tailRank r = 5 := by rcases hr with rfl | rfl <;> rfl
      refine arbiterGrant_of_rankFive h hjobs (rankThree_of_tail ht (by rw [hrank]; decide) hretiring hrelease)
        (fun r' hr' => ?_) hfirst ?_
      · cases ht.symm.trans hr'
        exact hrank
      · unfold State.rankFive
        rw [tailRequest_of_rank ht hwp hrank]
        rfl
  · have hrank : tailRank r = 4 := by rcases hr with rfl | rfl <;> rfl
    refine arbiterGrant_of_choice s _ h ?_
    unfold State.arbiterChoice
    rw [hmode, grantRead_none s h]
    unfold State.drainRequest
    rw [tailRequest_of_rank ht hwp hrank]
    rfl

/-! ### The settings append (R179) -/

theorem arbiterGrant_of_settings {c : Code} {new : Settings} (h : s.atGrant = true) (hjobs : s.jobsAsk = true)
    (hwp : s.array.wp = false) (htail : s.blocks.tailOwed = none) (hretiring : s.blocks.retiring = [])
    (hrelease : s.blocks.release = none) (hvictim : s.blocks.victim = none) (hcopy : s.blocks.reclaimCopy = none)
    (herase : s.array.erase = none) (hqueue : s.queue.entries = []) (hopening : s.noDrainOpening = true)
    (hcommand : s.mgmt.command = .active (.append c new false)) :
    exec .arbiterGrant s = .next (s.startAppend c new).settle := by
  have hfive : s.rankFive = none := by
    have hjob : s.jobRequest .reclaim = none := by
      have hnone : s.copyOf .reclaim = none := hcopy
      unfold State.jobRequest
      rw [hnone]
      simp [State.nextSource, hvictim]
    have hreclaim : s.reclaimRequest = none := by
      unfold State.reclaimRequest
      rw [herase]
      exact (if_pos hretiring).trans hjob
    have hat : s.releaseRequestAt false = none := by
      unfold State.releaseRequestAt
      rw [hrelease]
    unfold State.rankFive
    rw [tailRequest_none s 5 htail, hreclaim, hat, ite_self]
    rfl
  have hsettings : s.settingsRequest = some (s.startAppend c new) := by
    unfold State.settingsRequest
    rw [hcommand]
    exact if_neg (by rw [hwp]; exact Bool.false_ne_true)
  refine arbiterGrant_of_choice s _ h ?_
  rw [arbiterChoice_ranks s h hjobs, rankThree_none s htail hretiring (by rw [hrelease]; intro j hj; cases hj), htail,
    drainOpeningRequest_none s hopening, queueRequest_none hqueue htail, hfive, hsettings]
  split_ifs <;> rfl

/-! ### The erase in hand and the retire mark (R88, R89, R91) -/

theorem arbiterGrant_of_erase {j : EraseJob} (h : s.atGrant = true) (hjobs : s.jobsAsk = true)
    (htail : s.blocks.tailOwed = none) (hretiring : s.blocks.retiring = []) (hfive : s.rankFiveFirst = true)
    (hfirst : s.reclaimFirst = true) (hj : s.array.erase = some j) (howner : j.owner = .manager)
    (ht : s.eraseRequest j = some t) : exec .arbiterGrant s = .next t.settle := by
  have hreclaim : s.reclaimRequest = some t := by
    unfold State.reclaimRequest
    rw [hj]
    exact (if_pos howner).trans ht
  refine arbiterGrant_of_rankFive h hjobs (rankThree_none s htail hretiring (release_of_reclaimFirst hfirst))
    (fun r hr => absurd (htail.symm.trans hr) (by simp)) hfive (rankFive_of_reclaim htail hfirst hreclaim)

theorem arbiterGrant_of_retireMark {before after : List Nat} {b : Nat} (h : s.atGrant = true) (hjobs : s.jobsAsk = true)
    (hwp : s.array.wp = false) (htail : s.blocks.tailOwed = none) (hretiring : s.blocks.retiring = before ++ b :: after)
    (hbefore : ∀ d ∈ before, s.liveCount d ≠ 0) (hb : s.liveCount b = 0) :
    exec .arbiterGrant s = .next (s.startRetireMark b).settle := by
  have hfind : (s.blocks.retiring.find? fun d => decide (s.liveCount d = 0)) = some b :=
    find?_of_split hretiring (decide_eq_true hb) fun d hd => decide_eq_false (hbefore d hd)
  have hmark : s.retireMarkRequest = some (s.startRetireMark b) := by
    unfold State.retireMarkRequest
    rw [hwp, hfind]
    rfl
  have hsome : s.retirementRequest = some (s.startRetireMark b) := by
    unfold State.retirementRequest
    rw [if_neg (by rw [hretiring]; simp), hmark]
    rfl
  refine arbiterGrant_of_rankThree h hjobs ?_
  unfold State.rankThree
  rw [tailRequest_none s 3 htail, hsome]
  rfl

/-! ### An opening (R76, R156, R159) -/

theorem arbiterGrant_of_opening {r : Requester} (h : s.atGrant = true) (hwp : s.array.wp = false)
    (htail : s.blocks.tailOwed = none) (hopen : s.openBlock = none) (hseq : s.blocks.nextSeq < 4294967295)
    (hwho : ((s.jobsAsk = true ∧ r = .queue ∧ s.blocks.retiring = []
            ∧ (∀ j, s.blocks.release = some j → j.priority = false) ∧ 3 ≤ s.erasedCount
          ∨ s.mgmt.mode = .drain ∧ s.drain.phase = .draining ∧ r = .drain ∧ 1 ≤ s.erasedCount)
        ∧ (r = .drain ∨ s.blocks.drainOpening = false)
        ∧ (∃ q qs, s.queue.entries = q :: qs ∧ q.programming = false
          ∧ (∀ e, q = .line e → e.origin = none → s.queue.nextOrigin < 4294967295)))
      ∨ (∃ k c, r = .job k ∧ s.jobsAsk = true ∧ s.jobIsNext k = true ∧ s.copyOf k = some c ∧ c.stage = .held
        ∧ 2 ≤ s.erasedCount ∧ s.queue.entries.length + 1 ≤ s.freeSlots)
      ∨ (s.blocks.drainOpening = true ∧ r = .drain ∧ 1 ≤ s.erasedCount
        ∧ (s.mgmt.mode = .drain
          ∨ s.jobsAsk = true ∧ s.blocks.retiring = []
            ∧ ∀ j, s.blocks.release = some j → j.priority = false))) :
    exec .arbiterGrant s = .next (s.startOpening r).settle := by
  have hnone : s.blocks.drainOpening = false → s.noDrainOpening = true := fun hwaits => by
    simp [State.noDrainOpening, hwaits]
  rcases hwho with ⟨hhead, hwaits, hready⟩ | ⟨k, c, rfl, hjobs, hnext, hcopy, hheld, herased, hfree⟩
    | ⟨hwaits, rfl, herased, hmode⟩
  · have hready' : s.headReady = true := headReady_iff.mpr hready
    rcases hhead with ⟨hjobs, rfl, hretiring, hrelease, herased⟩ | ⟨hmode, hphase, rfl, herased⟩
    · have hgate := gateHolds_of_erased hopen hseq (.inl ⟨rfl, herased⟩)
      exact arbiterGrant_of_head s _ .queueProgram .queue h htail (hnone (hwaits.resolve_left (by decide)))
        (.inl ⟨hjobs, rfl, rfl, hretiring, hrelease, .inl herased⟩) (headRequest_of_closed hwp hready' hopen hgate)
    · have hgate := gateHolds_of_erased hopen hseq (.inr (.inl ⟨rfl, herased⟩))
      cases hwaiting : s.blocks.drainOpening with
      | true =>
        exact arbiterGrant_of_choice s _ h
          (arbiterChoice_of_drainOpening s h htail hwp hwaiting hgate (.inl hmode))
      | false =>
        exact arbiterGrant_of_head s _ .drainProgram .drain h htail (hnone hwaiting) (.inr ⟨hmode, hphase, rfl, rfl⟩)
          (headRequest_of_closed hwp hready' hopen hgate)
  · have hgate := gateHolds_of_erased hopen hseq (.inr (.inr ⟨⟨k, rfl⟩, herased, hfree⟩))
    refine arbiterGrant_of_choice s _ h (arbiterChoice_of_job s k h hjobs hnext _ ?_)
    rw [jobRequest_of_held hcopy hheld, copyRequest_of_closed hwp hopen hgate]
  · have hgate := gateHolds_of_erased hopen hseq (.inr (.inl ⟨rfl, herased⟩))
    exact arbiterGrant_of_choice s _ h (arbiterChoice_of_drainOpening s h htail hwp hwaits hgate hmode)

end

/-- Settles O19: each request's place in the ranks, and what its grant issues. -/
theorem grantIssuesTheQueueHead : Obligations.GrantIssuesTheQueueHead := by
  refine ⟨?head, ?opening, ?source, ?copy, ?erase, ?retireMark, ?tail, ?settings⟩
  case head =>
    intro s qs p b n h hwp htail hwho hopen hn h84
    obtain ⟨r, hr⟩ : ∃ r : Requester, s.jobsAsk = true ∧ p = .queueProgram ∧ r = .queue ∧ s.blocks.retiring = []
          ∧ (∀ j, s.blocks.release = some j → j.priority = false)
          ∧ (3 ≤ s.erasedCount
            ∨ s.blocks.release = none ∧ s.blocks.victim = none ∧ s.blocks.reclaimCopy = none ∧ s.array.erase = none)
        ∨ s.mgmt.mode = .drain ∧ s.drain.phase = .draining ∧ p = .drainProgram ∧ r = .drain := by
      rcases hwho with ⟨hjobs, hp, hrest⟩ | ⟨hmode, hphase, hp⟩
      · exact ⟨.queue, .inl ⟨hjobs, hp, rfl, hrest⟩⟩
      · exact ⟨.drain, .inr ⟨hmode, hphase, hp, rfl⟩⟩
    have hnone := noDrainOpening_of_open s b hopen
    refine ⟨fun e hq hpending hnumber => ?_, fun e hq hpending => ?_⟩
    · have hnumberable : s.headUnnumberable = false := by
        have hhead : s.head = some (.line e) := by simp [State.head, hq]
        unfold State.headUnnumberable
        rw [hhead]
        cases horigin : e.origin with
        | none => simp [horigin, atLast_eq_false_iff.mpr (hnumber horigin)]
        | some o => simp [horigin]
      have hprogramming : (QEntry.line e).programming = false := by simp [QEntry.programming, hpending]
      rw [arbiterGrant_of_head s _ p r h htail hnone hr
        (headRequest_eq s p r (.line e) qs b n hwp hq hprogramming hnumberable hopen hn h84), issueHead_line p hq hnumber]
    · have hnumberable : s.headUnnumberable = false := by
        have hhead : s.head = some (.commit e) := by simp [State.head, hq]
        unfold State.headUnnumberable
        rw [hhead]
      have hprogramming : (QEntry.commit e).programming = false := by simp [QEntry.programming, hpending]
      rw [arbiterGrant_of_head s _ p r h htail hnone hr
        (headRequest_eq s p r (.commit e) qs b n hwp hq hprogramming hnumberable hopen hn h84), issueHead_commit p hq]
  case opening =>
    intro s r b h hwp htail hopen hseq hwho hw hb hleast
    rw [arbiterGrant_of_opening h hwp htail hopen hseq hwho, startOpening_eq r hseq hw hb hleast]
  case source =>
    intro s k x c h hjobs hnext hcopy hsource hc
    have hrequest := jobRequest_of_source hcopy (nextSource_of hnext hsource)
    rw [arbiterGrant_of_choice s _ h (arbiterChoice_of_job s k h hjobs hnext _ hrequest), startRelocRead_eq hnext hc]
      <;> cases k <;> rfl
  case copy =>
    intro s k c b n h hwp hjobs hnext hcopy hheld hopen hn h84 hfree
    have hrequest := (jobRequest_of_held hcopy hheld).trans (copyRequest_of_open hwp hopen hn h84 hfree)
    have hgrant := arbiterGrant_of_choice s _ h (arbiterChoice_of_job s k h hjobs hnext _ hrequest)
    refine ⟨fun hdead => ?_, fun hlive bs d hbytes hd => ?_⟩
    · rw [hgrant, issueCopy_of_dead hcopy hdead] <;> cases k <;> rfl
    · have hbuilt : s.copyBytes c = bs := by
        rcases hbytes with hbuilt | ⟨hbuilt, hsound, r, hr, rfl⟩ | ⟨hbuilt, hfailed, o, ho, hholder⟩
        · exact copyBytes_of_built hbuilt
        · rw [copyBytes_of_sound hbuilt hsound hr, soundCopy_eq (fieldsValid_of_parse hr)]
        · rw [copyBytes_of_failed hbuilt hfailed]
          have horigin : s.carriedOrigin c.bytes = o := by rw [carriedOrigin_eq, ho]
          rcases hholder with ⟨before, l, e, after, htable, he, hbefore, rfl⟩ | ⟨htable, hholder⟩
          · rw [carriedCopy_of_table htable he hbefore, horigin] <;> cases e.group with
            | none => rfl
            | some g => cases g <;> rfl
          · rcases hholder with ⟨before, e, after, hshadow, he, hbefore, rfl⟩ | ⟨hshadow, before, w, g, after, hregister,
              hbefore, rfl⟩
            · rw [carriedCopy_of_line htable (lineNaming_of_shadow htable hshadow he hbefore), horigin]
            · rw [carriedCopy_of_group htable (lineNaming_of_none htable hshadow)
                (groupNaming_of_register hregister hbefore)]
      rw [hgrant, issueCopy_of_live hcopy hlive hbuilt hd] <;> cases k <;> rfl
  case erase =>
    intro s j h hjobs htail hretiring hfive hfirst hj howner
    refine ⟨fun hpart hwp => ?_, fun hpart => ?_, fun hpart hwp => ?_⟩
    · rw [arbiterGrant_of_erase h hjobs htail hretiring hfive hfirst hj howner (eraseRequest_waiting hpart hwp)]
      rfl
    · have hrequest : s.eraseRequest j = some (s.startOp .markRead j.block 32 8 []) := by
        unfold State.eraseRequest
        rw [hpart]
      rw [arbiterGrant_of_erase h hjobs htail hretiring hfive hfirst hj howner hrequest]
      rfl
    · have hrequest : s.eraseRequest j = some (s.startOp .eraseMark j.block 32 8 retireMarkBytes) := by
        unfold State.eraseRequest
        rw [hpart, hwp]
        rfl
      rw [arbiterGrant_of_erase h hjobs htail hretiring hfive hfirst hj howner hrequest]
      rfl
  case retireMark =>
    intro s before after b h hjobs hwp htail hretiring hbefore hb
    rw [arbiterGrant_of_retireMark h hjobs hwp htail hretiring hbefore hb, State.startRetireMark, dropCopyOf_eq]
    rfl
  case tail =>
    intro s r b h hwp ht hopen hwho
    rw [arbiterGrant_of_tail h hwp ht hopen hwho, startTailMark_of_open hopen]
  case settings =>
    intro s c new h hjobs hwp htail hretiring hrelease hvictim hcopy herase hqueue hopening hcommand
    rw [arbiterGrant_of_settings h hjobs hwp htail hretiring hrelease hvictim hcopy herase hqueue hopening hcommand]
    rfl

end Sys2Proof.Machine
end


section
/-! What the reactions make of the management unit beside mode, faults and the marks of a SYNC: events are only raised,
SPACE_LOW is raised by `settleSpace` alone (R192, R194), DATA and a WIPE in progress stay. -/

namespace Sys2Proof.Machine

/-- `n` follows from `m` by reactions that complete no command and do not judge the SPACE_LOW status. -/
structure Mgmt.Grows (m n : Mgmt) : Prop where
  data : n.data = m.data
  spaceLow : n.spaceLow = m.spaceLow
  wipe : ∀ step cut, m.command = .active (.wipe step cut) → n.command = .active (.wipe step cut)
  raised : ∀ e : Event, m.events.getLsbD e.bit = true → n.events.getLsbD e.bit = true
  space : n.events.getLsbD Event.spaceLow.bit = m.events.getLsbD Event.spaceLow.bit

theorem Mgmt.Grows.refl (m : Mgmt) : m.Grows m := ⟨rfl, rfl, fun _ _ h => h, fun _ h => h, rfl⟩

section
variable {m : Mgmt} {t : State}

theorem Mgmt.Grows.mode {n : Mgmt} (h : m.Grows n) (x : Mode) : m.Grows { n with mode := x } := { h with data := h.data }

theorem grows_raise (h : m.Grows t.mgmt) (e : Event) (he : e ≠ .spaceLow) : m.Grows (t.raise e).mgmt :=
  { h with
    raised := fun f hf => (getLsbD_setEvent ..).trans (by rw [h.raised f hf, Bool.true_or])
    space := (getLsbD_setEvent ..).trans (by rw [h.space, decide_eq_false he.symm, Bool.or_false]) }

theorem grows_reportFault (h : m.Grows t.mgmt) (f : FaultReport) : m.Grows (t.reportFault f).mgmt := by
  have hraised := grows_raise h .fault (by decide)
  unfold State.reportFault
  split
  · exact { hraised with data := h.data }
  · exact { h with data := h.data }

theorem grows_report (h : m.Grows t.mgmt) (c : HealthClass) : m.Grows (t.report c).mgmt := by
  unfold State.report
  dsimp only
  split_ifs
  · exact grows_raise (t := { t with health := t.health.bump }) h _ (by decide)
  · exact h
  · exact h

theorem grows_wake (h : m.Grows t.mgmt) : m.Grows t.wake.mgmt := by
  rw [wake_mgmt]
  exact h

/-! ### Windows that stop, modes, the drain -/

theorem grows_abortGroup (h : m.Grows t.mgmt) (w : Nat) : m.Grows (t.abortGroup w).mgmt := by
  rw [abortGroup_mgmt]
  exact grows_raise h .groupDrop (by decide)

theorem grows_stopWindow (h : m.Grows t.mgmt) (w : Nat) : m.Grows (t.stopWindow w).mgmt := by
  unfold State.stopWindow
  dsimp only
  split
  · exact h
  · exact h
  · exact grows_abortGroup h w
  · split_ifs
    · exact h
    · exact grows_abortGroup h w

theorem grows_stopWindows (h : m.Grows t.mgmt) : m.Grows t.stopWindows.mgmt :=
  grows_stopWindow (grows_stopWindow (grows_stopWindow (grows_stopWindow h 0) 1) 2) 3

theorem grows_setMode (h : m.Grows t.mgmt) (x : Mode) : m.Grows (t.setMode x).mgmt := by
  have hentered : ∀ u : State, m.Grows u.mgmt →
      m.Grows (State.raise { u with mgmt := { u.mgmt with mode := x } } .modeChange).wake.mgmt := fun u hu =>
    grows_wake (grows_raise (t := { u with mgmt := { u.mgmt with mode := x } }) (hu.mode x) _ (by decide))
  cases x
  case run | mount => exact hentered t h
  all_goals exact hentered _ (grows_stopWindows h)

theorem grows_degrade (h : m.Grows t.mgmt) : m.Grows t.degrade.mgmt := by
  unfold State.degrade
  split_ifs
  · split
    · exact grows_setMode h .readonly
    all_goals exact h
  · exact h

theorem grows_noteDiscard (h : m.Grows t.mgmt) (b : Bool) : m.Grows (t.noteDiscard b).mgmt := by
  have hheld : ∀ a, (∀ step cut, t.mgmt.command ≠ .active (.wipe step cut)) → m.Grows (t.hold a).mgmt := fun a ha =>
    { h with wipe := fun step cut hc => absurd (h.wipe step cut hc) (ha step cut) }
  unfold State.noteDiscard
  split_ifs
  · split
    next hc => exact hheld _ (by rw [hc]; simp)
    next hc => exact hheld _ (by rw [hc]; simp)
    next hc => exact hheld _ (by rw [hc]; simp)
    all_goals exact h
  · exact h

theorem grows_discardEffects (h : m.Grows t.mgmt) (q : QEntry) (x : Option Slot) :
    m.Grows (t.discardEffects q x).mgmt := by
  have hnote := grows_noteDiscard h q.marked
  cases q with
  | line e => exact grows_reportFault hnote _
  | commit e =>
    refine grows_reportFault (t := (t.noteDiscard e.syncMark).lostCommit e.window) ?_ _
    rw [lostCommit_mgmt]
    exact grows_raise hnote .groupDrop (by decide)

theorem grows_discardStuck (n : Nat) (h : m.Grows t.mgmt) : m.Grows (t.discardStuck n).mgmt := by
  induction n generalizing t with
  | zero => exact h
  | succ n ih =>
    unfold State.discardStuck
    split_ifs
    · split
      · exact ih (grows_discardEffects (t := t.dropHead) h _ _)
      · exact h
    · exact h

theorem grows_discards (qs : List QEntry) (h : m.Grows t.mgmt) :
    m.Grows (qs.foldl (fun u q => u.discardEffects q none) t).mgmt := by
  induction qs generalizing t with
  | nil => exact h
  | cons q qs ih => exact ih (grows_discardEffects h q none)

theorem grows_reachDrained (h : m.Grows t.mgmt) : m.Grows t.reachDrained.mgmt := by
  have hraised := grows_raise (t := { t with drain := { t.drain with phase := .drained } }) h .drainDone (by decide)
  unfold State.reachDrained
  dsimp only
  split_ifs
  · exact grows_setMode (t := { State.raise { t with drain := { t.drain with phase := .drained } } .drainDone with
      drain := { t.drain with phase := .inactive, returnMode := none, releasePending := false } }) hraised _
  · exact hraised

theorem grows_drainStep (h : m.Grows t.mgmt) : m.Grows t.drainStep.mgmt := by
  have hall : m.Grows t.discardAll.mgmt := grows_discards _ h
  have hstuck := grows_discardStuck t.queue.entries.length h
  unfold State.drainStep
  dsimp only
  split_ifs
  · exact grows_reachDrained hall
  · exact hall
  · exact grows_reachDrained hstuck
  · exact hstuck
  · exact h

/-! ### The port -/

theorem grows_abandonRead (h : m.Grows t.mgmt) : m.Grows t.abandonRead.mgmt := by
  unfold State.abandonRead
  split
  · exact h
  · split <;> exact h

theorem grows_respond (h : m.Grows t.mgmt) (c : Option Cause) (d : List Byte) : m.Grows (t.respond c d).mgmt :=
  grows_abandonRead h

theorem grows_refuse (h : m.Grows t.mgmt) (f : FaultReport) (d : List Byte) : m.Grows (t.refuse f d).mgmt :=
  grows_reportFault (t := t.respond (some f.cause) d) (grows_respond h _ d) f

theorem grows_tagPieces (ps : List Piece) (h : m.Grows t.mgmt) : m.Grows (t.tagPieces ps).1.mgmt := by
  induction ps generalizing t with
  | nil => exact h
  | cons p ps ih =>
    refine ih ?_
    unfold State.tagPiece
    split_ifs
    · split
      · exact h
      · dsimp only
        unfold State.createShadow State.openGroup
        dsimp only
        split_ifs <;> exact h
    · exact h

theorem grows_checkWindows (h : m.Grows t.mgmt) (r : Request) : m.Grows (t.checkWindows r).mgmt := by
  unfold State.checkWindows
  split_ifs
  · exact grows_abandonRead h
  · split
    · exact grows_refuse h _ _
    · unfold State.enterHandOver
      split
      · exact grows_respond h _ _
      · exact grows_abandonRead (grows_tagPieces _ h)

theorem grows_checkWrite (h : m.Grows t.mgmt) (r : Request) : m.Grows (t.checkWrite r).mgmt := by
  unfold State.checkWrite
  split_ifs
  · exact grows_abandonRead h
  · split
    · exact grows_refuse h _ _
    · exact grows_refuse h _ _
  · split
    · exact grows_refuse h _ _
    · unfold State.checkRange
      split
      · exact grows_refuse h _ _
      all_goals
        split
        · exact grows_refuse h _ _
        · exact grows_checkWindows h r

theorem grows_stepHandOver (h : m.Grows t.mgmt) (r : Request) : m.Grows (t.stepHandOver r).mgmt := by
  unfold State.stepHandOver
  split
  · exact grows_abandonRead h
  · split
    · exact grows_refuse h _ _
    · split_ifs
      · exact grows_refuse h _ _
      · exact h
      · exact grows_checkWindows h _

theorem grows_answerRead (h : m.Grows t.mgmt) (r : Request) : m.Grows (t.answerRead r).mgmt := by
  unfold State.answerRead
  dsimp only
  split_ifs
  · split
    · exact grows_respond h _ _
    · split
      · exact grows_respond h _ _
      · exact grows_refuse h _ _
      · exact grows_refuse h _ _
  · exact h

theorem grows_stepRead (h : m.Grows t.mgmt) (r : Request) : m.Grows (t.stepRead r).mgmt := by
  unfold State.stepRead
  split
  · exact grows_refuse h _ _
  · exact h
  all_goals
    split_ifs
    · exact h
    · exact grows_answerRead h _

theorem grows_checkRead (h : m.Grows t.mgmt) (r : Request) : m.Grows (t.checkRead r).mgmt := by
  unfold State.checkRead
  split
  · exact h
  · exact grows_refuse h _ _
  all_goals exact grows_stepRead h _

theorem grows_portStep (h : m.Grows t.mgmt) : m.Grows t.portStep.mgmt := by
  unfold State.portStep
  split
  · exact h
  · split
    · split_ifs
      · exact grows_checkWrite h _
      · exact grows_checkRead h _
      · exact h
    · exact grows_stepHandOver h _
    · exact grows_stepRead h _

theorem grows_settleRound (h : m.Grows t.mgmt) : m.Grows t.settleRound.mgmt := by
  have hgroups : m.Grows t.degrade.settleGroups.mgmt := by
    rw [settleGroups_mgmt]
    exact grows_degrade h
  exact grows_portStep (grows_drainStep hgroups)

/-! ### The tail up to the cut of WIPE -/

theorem grows_retireErased (h : m.Grows t.mgmt) (j : EraseJob) : m.Grows (t.retireErased j).mgmt := by
  unfold State.retireErased
  rw [reportRetired_eq]
  refine grows_reportFault (grows_raise ?_ _ (by decide)) _
  dsimp only
  split
  · unfold State.endReclaim
    split_ifs <;> exact h
  · exact h
  · exact h

theorem grows_skipErase (h : m.Grows t.mgmt) (j : EraseJob) : m.Grows (t.skipErase j).mgmt := by
  unfold State.skipErase
  split
  · split_ifs <;> exact h
  · exact h
  · exact h
  · exact grows_retireErased h j
  all_goals exact h

theorem grows_skipRepairs (h : m.Grows t.mgmt) : m.Grows t.skipRepairs.mgmt := by
  unfold State.skipRepairs
  split
  · exact h
  · split_ifs
    · split
      · exact h
      · have hskip := fun j => grows_skipErase h j
        dsimp only
        split
        · exact hskip _
        · split_ifs <;> exact hskip _
    · exact h

/-- The state that two rounds of reactions and the tail's first part leave, before the cut of WIPE and SPACE_LOW are
judged. -/
def State.settleWork (s : State) : State :=
  (s.settleRound.settleRound.startReclaimErase.updateRelease).releaseHeader.settleErase.skipRepairs

theorem settle_eq_settleWork (s : State) : s.settle = s.settleWork.settleCut.settleSpace := rfl

theorem grows_settleWork (s : State) : s.mgmt.Grows s.settleWork.mgmt := by
  have hupdate : ∀ u : State, u.updateRelease.mgmt = u.mgmt := fun _ => rfl
  unfold State.settleWork
  refine grows_skipRepairs ?_
  rw [settleErase_mgmt, releaseHeader_mgmt, hupdate, startReclaimErase_mgmt]
  exact grows_settleRound (grows_settleRound (.refl _))

/-- The cut of WIPE raises CMD_DONE at most beside a fault, and leaves the SPACE_LOW status (R187). -/
theorem settleCut_events (t : State) : t.settleCut.mgmt.spaceLow = t.mgmt.spaceLow
    ∧ (∀ e, t.eventSet e = true → t.settleCut.eventSet e = true)
    ∧ t.settleCut.eventSet .spaceLow = t.eventSet .spaceLow := by
  have hended : ∀ u : State, t.mgmt.Grows u.mgmt → (u.complete .cut []).mgmt.spaceLow = t.mgmt.spaceLow
      ∧ (∀ e, t.eventSet e = true → (u.complete .cut []).eventSet e = true)
      ∧ (u.complete .cut []).eventSet .spaceLow = t.eventSet .spaceLow := fun u hu =>
    ⟨hu.spaceLow, fun e he => complete_eventSet_of (hu.raised e he), (getLsbD_setEvent ..).trans
      ((Bool.or_false _).trans hu.space)⟩
  unfold State.settleCut
  split
  · dsimp only
    split_ifs
    · refine hended _ ?_
      split
      · exact .refl _
      · split_ifs
        · exact grows_retireErased (.refl _) _
        · exact .refl _
    · exact ⟨rfl, fun _ h => h, rfl⟩
  all_goals exact ⟨rfl, fun _ h => h, rfl⟩

end

end Sys2Proof.Machine
end


section
/-! A degrade condition and the drain's end among the reactions (R161, R162, R191). -/

namespace Sys2Proof.Machine

section
variable {s : State}

/-! ### From the drain's share of the first round to the end -/

/-- The part of a round before the port (R191, R130, R132, R158, R159, R161). -/
def State.roundBeforePort (s : State) : State := s.degrade.settleGroups.drainStep

theorem settleRound_eq (s : State) : s.settleRound = s.roundBeforePort.portStep := rfl

theorem quiet_settleRound (s : State) : Quiet s.roundBeforePort s.settleRound := by
  rw [settleRound_eq]
  exact quiet_portStep (Quiet.refl s.roundBeforePort)

theorem settleRound_mode (s : State) : s.settleRound.mgmt.mode = s.roundBeforePort.mgmt.mode := (quiet_settleRound s).mode

theorem settleRound_phase (s : State) : s.settleRound.drain.phase = s.roundBeforePort.drain.phase :=
  (quiet_settleRound s).phase

theorem settleRound_returnMode (s : State) : s.settleRound.drain.returnMode = s.roundBeforePort.drain.returnMode :=
  (quiet_settleRound s).returnMode

theorem settle_mode (s : State) : s.settle.mgmt.mode = s.settleRound.roundBeforePort.mgmt.mode := by
  rw [settle_eq, settleTail_mode, settleRound_mode]

theorem settle_drain (s : State) : s.settle.drain.phase = s.settleRound.roundBeforePort.drain.phase
    ∧ s.settle.drain.returnMode = s.settleRound.roundBeforePort.drain.returnMode := by
  rw [settle_eq, settleTail_drain]
  exact ⟨settleRound_phase _, settleRound_returnMode _⟩

theorem settleSpace_eventSet (s : State) (e : Event) : s.settleSpace.eventSet e = true ↔ s.eventSet e = true
    ∨ e = .spaceLow ∧ (s.mgmt.spaceLow = false ∧ s.spaceLowNow = true ∧ s.mgmt.edgeSpace.rising = true
      ∨ s.mgmt.spaceLow = true ∧ s.spaceLowNow = false ∧ s.mgmt.edgeSpace.falling = true) := by
  have hraise : (State.raise { s with mgmt := { s.mgmt with spaceLow := s.spaceLowNow } } .spaceLow).eventSet e
      = (s.eventSet e || decide (e = .spaceLow)) := eventSet_raise _ _ _
  have hkeep : ({ s with mgmt := { s.mgmt with spaceLow := s.spaceLowNow } } : State).eventSet e = s.eventSet e := rfl
  unfold State.settleSpace State.edge
  dsimp only
  split_ifs with hrise hfall
  · rw [hraise]
    simp_all
  · rw [hraise]
    simp_all
  · rw [hkeep]
    cases hbefore : s.mgmt.spaceLow <;> cases hnow : s.spaceLowNow <;> simp_all

/-- An event that a reaction has raised is set in the end (R192). -/
theorem settle_eventSet_of {v : State} {e : Event} (hgrows : v.mgmt.Grows s.settleWork.mgmt) (h : v.eventSet e = true) :
    s.settle.eventSet e = true := by
  obtain ⟨_, hcut, _⟩ := settleCut_events s.settleWork
  rw [settle_eq_settleWork, settleSpace_eventSet]
  exact .inl (hcut e (hgrows.raised e h))

theorem grows_of_settleRound {m : Mgmt} (h : m.Grows s.settleRound.mgmt) : m.Grows s.settleWork.mgmt := by
  have hupdate : ∀ u : State, u.updateRelease.mgmt = u.mgmt := fun _ => rfl
  unfold State.settleWork
  refine grows_skipRepairs ?_
  rw [settleErase_mgmt, releaseHeader_mgmt, hupdate, startReclaimErase_mgmt]
  exact grows_settleRound h

theorem grows_of_degrade (s : State) : s.degrade.mgmt.Grows s.settleWork.mgmt := by
  refine grows_of_settleRound (grows_portStep (grows_drainStep ?_))
  rw [settleGroups_mgmt]
  exact .refl _

theorem grows_of_roundBeforePort (s : State) : s.roundBeforePort.mgmt.Grows s.settleWork.mgmt :=
  grows_of_settleRound (grows_portStep (.refl _))

/-! ### The mode under a degrade condition (R191, R161) -/

theorem degrade_of_run (hd : s.degraded = true) (hm : s.mgmt.mode = .run) : s.degrade = s.setMode .readonly := by
  unfold State.degrade
  rw [if_pos hd, hm]

theorem degrade_returns (hd : s.degraded = true) (hm : s.mgmt.mode = .drain) :
    s.degrade = { s with drain := { s.drain with returnMode := some .readonly } } := by
  unfold State.degrade
  rw [if_pos hd, hm]

theorem degrade_of_other (h : s.mgmt.mode ≠ .run) (h' : s.mgmt.mode ≠ .drain) : s.degrade = s := by
  unfold State.degrade
  split_ifs
  · split
    next hm => exact absurd hm h
    next hm => exact absurd hm h'
    all_goals rfl
  · rfl

theorem roundBeforePort_mode_of_not_drain (h : s.mgmt.mode ≠ .drain) :
    s.roundBeforePort = s.degrade.settleGroups
      ∧ (s.roundBeforePort.mgmt.mode = s.mgmt.mode ∨ s.mgmt.mode = .run ∧ s.roundBeforePort.mgmt.mode = .readonly) := by
  have hmode : s.degrade.mgmt.mode = s.mgmt.mode ∨ s.mgmt.mode = .run ∧ s.degrade.mgmt.mode = .readonly := by
    by_cases hrun : s.mgmt.mode = .run
    · cases hd : s.degraded with
      | true => exact .inr ⟨hrun, by rw [degrade_of_run hd hrun]; exact setMode_mode _ _⟩
      | false => exact .inl (by rw [degrade_of_not hd])
    · exact .inl (by rw [degrade_of_other hrun h])
  have hgroups : s.degrade.settleGroups.mgmt.mode = s.degrade.mgmt.mode := by rw [settleGroups_mgmt]
  have hother : s.degrade.settleGroups.mgmt.mode ≠ .drain := by
    rw [hgroups]
    rcases hmode with hsame | ⟨_, hread⟩
    · rw [hsame]
      exact h
    · rw [hread]
      decide
  have hround : s.roundBeforePort = s.degrade.settleGroups := drainStep_of_mode hother
  rw [hround, hgroups]
  exact ⟨rfl, hmode⟩

/-- A round outside DRAIN leaves the drain unit's phase and return mode. -/
theorem roundBeforePort_drain_of_not_drain (h : s.mgmt.mode ≠ .drain) : s.roundBeforePort.drain = s.drain := by
  obtain ⟨hround, _⟩ := roundBeforePort_mode_of_not_drain h
  rw [hround, settleGroups_drain]
  unfold State.degrade
  split_ifs
  · split
    · exact congrArg (fun k => k.2.2.1) (keeps_setMode s .readonly)
    next hm => exact absurd hm h
    all_goals rfl
  · rfl

theorem drainStep_of_phase (h : s.drain.phase ≠ .draining) : s.drainStep = s := if_neg fun hc => h hc.2

/-- What becomes of a drain that is to return to `m`: it goes on, or `m` is entered. -/
def State.ReturnsTo (m : Mode) (s : State) : Prop :=
  s.mgmt.mode = m ∨ s.mgmt.mode = .drain ∧ s.drain.returnMode = some m

theorem returnsTo_reachDrained {m : Mode} (hm : s.mgmt.mode = .drain) (hreturn : s.drain.returnMode = some m) :
    s.reachDrained.ReturnsTo m := by
  unfold State.reachDrained
  dsimp only
  split_ifs
  · left
    unfold State.endDrain
    dsimp only
    rw [setMode_mode]
    simp [hreturn]
  · exact .inr ⟨hm, hreturn⟩

theorem returnsTo_drainStep {m : Mode} (hm : s.mgmt.mode = .drain) (hreturn : s.drain.returnMode = some m) :
    s.drainStep.ReturnsTo m := by
  have hall := quiet_discardAll (.refl s)
  have hstuck := quiet_discardStuck s.queue.entries.length (.refl s)
  have hended : ∀ t, Quiet s t → (if t.queue.entries = [] then t.reachDrained else t).ReturnsTo m := fun t ht => by
    have htm := ht.mode.trans hm
    have htr := ht.returnMode.trans hreturn
    split_ifs
    · exact returnsTo_reachDrained htm htr
    · exact .inr ⟨htm, htr⟩
  by_cases hphase : s.drain.phase = .draining
  · rw [drainStep_of_draining hm hphase rfl]
    refine hended _ ?_
    split_ifs
    · exact hall
    · exact hstuck
  · rw [drainStep_of_phase hphase]
    exact .inr ⟨hm, hreturn⟩

/-- A drain that is to return to READONLY does so in every round. -/
theorem returnsTo_roundBeforePort (h : s.ReturnsTo .readonly) : s.roundBeforePort.ReturnsTo .readonly := by
  rcases h with hm | ⟨hm, hreturn⟩
  · obtain ⟨_, hmode⟩ := roundBeforePort_mode_of_not_drain (s := s) (by rw [hm]; decide)
    refine .inl (hmode.elim (fun hsame => hsame.trans hm) fun hrun => absurd (hm.symm.trans hrun.1) (by decide))
  · refine returnsTo_drainStep ?_ ?_
    · rw [settleGroups_mgmt]
      rcases degrade_of_drain hm with h | h <;> rw [h] <;> exact hm
    · rw [settleGroups_drain]
      rcases degrade_of_drain hm with h | h <;> rw [h]
      exact hreturn

theorem returnsTo_settle (h : s.roundBeforePort.ReturnsTo .readonly) : s.settle.ReturnsTo .readonly := by
  have hround : s.settleRound.ReturnsTo .readonly := by
    unfold State.ReturnsTo
    rw [settleRound_mode, settleRound_returnMode]
    exact h
  obtain ⟨_, hreturn⟩ := settle_drain s
  have hsecond := returnsTo_roundBeforePort hround
  unfold State.ReturnsTo at hsecond ⊢
  rw [settle_mode, hreturn]
  exact hsecond

/-- A degrade condition makes RUN READONLY, and READONLY the return mode of a drain (R191, R161). -/
theorem settle_of_degraded (hd : s.degraded = true) :
    (s.mgmt.mode = .run → s.settle.mgmt.mode = .readonly ∧ s.settle.eventSet .modeChange = true)
      ∧ (s.mgmt.mode = .drain → s.settle.mgmt.mode = .readonly
        ∨ s.settle.mgmt.mode = .drain ∧ s.settle.drain.returnMode = some .readonly) := by
  refine ⟨fun hm => ⟨?_, ?_⟩, fun hm => ?_⟩
  · have hread : s.degrade.settleGroups.mgmt.mode = .readonly := by
      rw [settleGroups_mgmt, degrade_of_run hd hm]
      exact setMode_mode _ _
    have hround : s.settleRound.mgmt.mode = .readonly := by
      rw [settleRound_mode, State.roundBeforePort, drainStep_of_mode (by rw [hread]; decide)]
      exact hread
    obtain ⟨_, hmode⟩ := roundBeforePort_mode_of_not_drain (s := s.settleRound) (by rw [hround]; decide)
    rw [settle_mode]
    exact hmode.elim (fun hsame => hsame.trans hround) fun hrun => absurd (hround.symm.trans hrun.1) (by decide)
  · refine settle_eventSet_of (grows_of_degrade s) ?_
    rw [degrade_of_run hd hm]
    exact setMode_modeChange s .readonly
  · refine returnsTo_settle (returnsTo_drainStep ?_ ?_)
    · rw [settleGroups_mgmt, degrade_returns hd hm]
      exact hm
    · rw [settleGroups_drain, degrade_returns hd hm]

/-! ### The drain with an empty queue (R161, R162) -/

theorem discardAll_of_empty (h : s.queue.entries = []) : s.discardAll = s := by
  unfold State.discardAll
  dsimp only
  have hqueue : ({ s.queue with entries := [] } : WriteQueue) = s.queue := by rw [← h]
  rw [h]
  simp only [List.filter_nil, List.foldl_nil]
  rw [hqueue]

theorem drainStep_of_empty (hm : s.mgmt.mode = .drain) (hphase : s.drain.phase = .draining)
    (hempty : s.queue.entries = []) : s.drainStep = s.reachDrained := by
  have hdone : s = if s.array.wp then s.discardAll else s.discardStuck s.queue.entries.length := by
    rw [discardAll_of_empty hempty, hempty]
    exact (ite_self s).symm
  rw [drainStep_of_draining hm hphase hdone, if_pos hempty]

theorem settleGroups_of_none_below (h : ∀ w < 4, (s.window w).awaiting = false) : s.settleGroups = s.freeDeadGroups := by
  have hoffer : s.freeDeadGroups.offerRegister = s.freeDeadGroups :=
    offerRegister_of_none _ fun w hw => h w (List.mem_range.mp hw)
  unfold State.settleGroups
  rw [hoffer, hoffer, hoffer, hoffer]

/-- In DRAIN with an empty queue and no window that awaits an entry, the first round reaches DRAINED (R161). -/
theorem roundBeforePort_of_empty (hm : s.mgmt.mode = .drain) (hphase : s.drain.phase = .draining)
    (hempty : s.queue.entries = []) (hnone : ∀ w < 4, (s.window w).awaiting = false) :
    s.roundBeforePort = s.degrade.freeDeadGroups.reachDrained := by
  have hkept : s.degrade.mgmt.mode = .drain ∧ s.degrade.drain.phase = .draining ∧ s.degrade.queue.entries = []
      ∧ ∀ w < 4, (s.degrade.window w).awaiting = false := by
    rcases degrade_of_drain hm with h | h <;> rw [h] <;> exact ⟨hm, hphase, hempty, hnone⟩
  obtain ⟨hm', hphase', hempty', hnone'⟩ := hkept
  unfold State.roundBeforePort
  rw [settleGroups_of_none_below hnone', drainStep_of_empty (s := s.degrade.freeDeadGroups) hm' hphase' hempty']

theorem reachDrained_drainDone (s : State) : s.reachDrained.eventSet .drainDone = true := by
  have hraised : ({ s with drain := { s.drain with phase := .drained } }.raise .drainDone).eventSet .drainDone = true :=
    eventSet_raise_same _ _
  unfold State.reachDrained
  dsimp only
  split_ifs
  · have hgrows := grows_setMode (t := { State.raise { s with drain := { s.drain with phase := .drained } } .drainDone with
      drain := { s.drain with phase := .inactive, returnMode := none, releasePending := false } }) (.refl _)
    exact (hgrows _).raised _ hraised
  · exact hraised

theorem reachDrained_waits (h : s.drain.releasePending = false) :
    s.reachDrained = State.raise { s with drain := { s.drain with phase := .drained } } .drainDone := by
  unfold State.reachDrained
  rw [h]
  rfl

theorem reachDrained_of_pending (h : s.drain.releasePending = true) :
    s.reachDrained.mgmt.mode = s.drain.returnMode.getD .run
      ∧ s.reachDrained.drain = { s.drain with phase := .inactive, returnMode := none, releasePending := false } := by
  have hended : s.reachDrained = (State.endDrain (State.raise { s with drain := { s.drain with phase := .drained } }
      .drainDone)) := by
    unfold State.reachDrained
    rw [h]
    rfl
  rw [hended]
  exact ⟨setMode_mode _ _, congrArg (fun k => k.2.2.1) (keeps_setMode _ _)⟩

theorem reachDrained_ends {m : Mode} (h : s.drain.releasePending = true) (hreturn : s.drain.returnMode = some m) :
    s.reachDrained.mgmt.mode = m ∧ s.reachDrained.drain.phase = .inactive ∧ s.reachDrained.drain.returnMode = none := by
  obtain ⟨hmode, hdrain⟩ := reachDrained_of_pending h
  rw [hmode, hdrain, hreturn]
  exact ⟨rfl, rfl, rfl⟩

theorem roundBeforePort_of_drained (hm : s.mgmt.mode = .drain) (hphase : s.drain.phase = .drained) :
    s.roundBeforePort.mgmt.mode = .drain ∧ s.roundBeforePort.drain.phase = .drained := by
  have hkept : s.degrade.settleGroups.mgmt.mode = .drain ∧ s.degrade.settleGroups.drain.phase = .drained := by
    rw [settleGroups_mgmt, settleGroups_drain]
    rcases degrade_of_drain hm with h | h <;> rw [h] <;> exact ⟨hm, hphase⟩
  have hsame : s.roundBeforePort = s.degrade.settleGroups := drainStep_of_phase (by rw [hkept.2]; decide)
  rw [hsame]
  exact hkept

/-- A DRAINING queue that is empty is DRAINED, or its drain is over when its release is pending (R161, R162). -/
theorem settle_of_drained (hm : s.mgmt.mode = .drain) (hphase : s.drain.phase = .draining) (hempty : s.queue.entries = [])
    (hnone : ∀ w < 4, (s.window w).awaiting = false) :
    s.settle.eventSet .drainDone = true
      ∧ (s.drain.releasePending = false → s.settle.mgmt.mode = .drain ∧ s.settle.drain.phase = .drained)
      ∧ ∀ m, s.drain.releasePending = true → s.drain.returnMode = some m → (m = .run ∨ m = .readonly) →
        s.settle.drain.phase = .inactive ∧ s.settle.drain.returnMode = none
          ∧ (s.settle.mgmt.mode = m ∨ s.settle.mgmt.mode = .readonly) := by
  have hround := roundBeforePort_of_empty hm hphase hempty hnone
  have hpending : s.degrade.drain.releasePending = s.drain.releasePending := by
    rcases degrade_of_drain hm with h | h <;> rw [h]
  obtain ⟨hdrainphase, hdrainreturn⟩ := settle_drain s
  refine ⟨?done, fun hwaits => ?waits, fun m hends hreturn hworks => ?ends⟩
  case done =>
    refine settle_eventSet_of (grows_of_roundBeforePort s) ?_
    rw [hround]
    exact reachDrained_drainDone _
  case waits =>
    have hmode : s.degrade.mgmt.mode = .drain := by
      rcases degrade_of_drain hm with h | h <;> rw [h] <;> exact hm
    rw [reachDrained_waits (s := s.degrade.freeDeadGroups) (hpending.trans hwaits)] at hround
    have hfirst : s.settleRound.mgmt.mode = .drain ∧ s.settleRound.drain.phase = .drained := by
      rw [settleRound_mode, settleRound_phase, hround]
      exact ⟨hmode, rfl⟩
    obtain ⟨hfirstmode, hfirstphase⟩ := hfirst
    rw [settle_mode, hdrainphase]
    exact roundBeforePort_of_drained hfirstmode hfirstphase
  case ends =>
    have hreturn' : ∃ m', s.degrade.drain.returnMode = some m' ∧ (m' = m ∨ m' = .readonly) := by
      rcases degrade_of_drain hm with h | h <;> rw [h]
      · exact ⟨m, hreturn, .inl rfl⟩
      · exact ⟨.readonly, rfl, .inr rfl⟩
    obtain ⟨m', hm', hcases⟩ := hreturn'
    obtain ⟨hmode, hinactive, hover⟩ := reachDrained_ends (s := s.degrade.freeDeadGroups) (hpending.trans hends) hm'
    rw [← hround] at hmode hinactive hover
    have hother : s.settleRound.mgmt.mode ≠ .drain := by
      rw [settleRound_mode, hmode]
      rcases hcases with rfl | rfl
      · rcases hworks with rfl | rfl <;> decide
      · decide
    obtain ⟨_, hlast⟩ := roundBeforePort_mode_of_not_drain hother
    rw [hdrainphase, hdrainreturn, settle_mode, roundBeforePort_drain_of_not_drain hother, settleRound_phase,
      settleRound_returnMode]
    refine ⟨hinactive, hover, ?_⟩
    rcases hlast with hlast | ⟨_, hlast⟩
    · rw [hlast, settleRound_mode, hmode]
      exact hcases
    · exact .inr hlast

end

end Sys2Proof.Machine
end


section
/-! The SPACE_LOW status and its edges, the write refused in hand-over, and the WIPE that is cut, among the reactions (R8,
R13, R59, R62, R187, R194). -/

namespace Sys2Proof.Machine

section
variable {s : State}

/-! ### SPACE_LOW (R59, R62, R194) -/

theorem gateStalls_iff {ps : List Piece} : s.gateStalls ps = true ↔
    (∀ p ∈ ps, s.treat p ≠ .behind ∧ s.mergeMissing p = false)
    ∧ (∃ p ∈ ps, s.treat p = .fresh)
    ∧ (16 < s.queue.entries.length + s.queue.requests.length + (ps.filter fun p => decide (s.treat p = .fresh)).length
      ∨ s.erasedCount = 0) := by
  have hready : s.piecesReady ps = true ↔ ∀ p ∈ ps, s.treat p ≠ .behind ∧ s.mergeMissing p = false := by
    simp [State.piecesReady]
  have hfresh : s.freshCount ps = 0 ↔ ¬∃ p ∈ ps, s.treat p = .fresh := by
    simp [State.freshCount]
  have hgate : s.gateAdmits (s.freshCount ps) = false ↔ 16 < s.queue.entries.length + s.queue.requests.length
      + (ps.filter fun p => decide (s.treat p = .fresh)).length ∨ s.erasedCount = 0 := by
    have hcount : (ps.filter fun p => decide (s.treat p = .fresh)).length = s.freshCount ps := rfl
    rw [hcount]
    rw [State.gateAdmits, Bool.and_eq_false_iff, decide_eq_false_iff_not, decide_eq_false_iff_not]
    simp only [Config.queuePlaces]
    omega
  rw [State.gateStalls, Bool.and_eq_true, Bool.not_eq_true', Bool.or_eq_false_iff, decide_eq_false_iff_not, hready, hfresh,
    hgate, not_not]

theorem writeStalled_iff : s.writeStalled = true ↔ ∃ r ps, s.port.request = some r ∧ r.phase = .handOver
    ∧ ps = (r.pieces.filter fun p => p.inRange)
    ∧ (∀ p ∈ ps, s.treat p ≠ .behind ∧ s.mergeMissing p = false) ∧ (∃ p ∈ ps, s.treat p = .fresh)
    ∧ (16 < s.queue.entries.length + s.queue.requests.length + (ps.filter fun p => decide (s.treat p = .fresh)).length
      ∨ s.erasedCount = 0) := by
  unfold State.writeStalled
  split
  next hnone => simp [hnone]
  next r hr =>
    rw [Bool.and_eq_true, decide_eq_true_iff, gateStalls_iff]
    constructor
    · rintro ⟨hphase, hstalls⟩
      exact ⟨r, _, hr, hphase, rfl, hstalls⟩
    · rintro ⟨r', ps, hsome, hphase, rfl, hstalls⟩
      cases hr.symm.trans hsome
      exact ⟨hphase, hstalls⟩

theorem headStalled_iff : s.headStalled = true ↔ (s.mgmt.mode = .run ∨ s.mgmt.mode = .readonly) ∧ s.headReady = true
    ∧ s.nextSlot = none ∧ s.erasedCount < 3 := by
  simp only [State.headStalled, Bool.and_eq_true, working_iff, Option.isNone_iff_eq_none, decide_eq_true_iff, and_assoc]
  rfl

theorem spaceLowNow_iff : s.spaceLowNow = true ↔ s.writeStalled = true ∨ s.headStalled = true := Bool.or_eq_true_iff

theorem settleSpace_spaceLow (s : State) : s.settleSpace.mgmt.spaceLow = s.spaceLowNow := by
  unfold State.settleSpace State.edge
  dsimp only
  split_ifs <;> rfl

theorem spaceLowNow_settleSpace (s : State) : s.settleSpace.spaceLowNow = s.spaceLowNow := by
  unfold State.settleSpace State.edge
  dsimp only
  split_ifs <;> rfl

/-- The status is judged by the state that the reactions leave (R194). -/
theorem settle_spaceLow (s : State) : s.settle.mgmt.spaceLow = s.settle.spaceLowNow := by
  rw [settle_eq_settleWork, settleSpace_spaceLow, spaceLowNow_settleSpace]

theorem rising_iff (x : EdgeSel) : x.rising = true ↔ x ≠ .fall := by cases x <;> decide

theorem falling_iff (x : EdgeSel) : x.falling = true ↔ x ≠ .rise := by cases x <;> decide

/-- The edges of the status raise its event as selected, and nothing else does (R194). -/
theorem settle_spaceLow_event (s : State) : s.settle.eventSet .spaceLow = true ↔ s.eventSet .spaceLow = true
    ∨ s.mgmt.spaceLow = false ∧ s.settle.mgmt.spaceLow = true ∧ s.mgmt.edgeSpace ≠ .fall
    ∨ s.mgmt.spaceLow = true ∧ s.settle.mgmt.spaceLow = false ∧ s.mgmt.edgeSpace ≠ .rise := by
  have hgrows := grows_settleWork s
  obtain ⟨hstatus, _, hevent⟩ := settleCut_events s.settleWork
  have hnow : s.settle.mgmt.spaceLow = s.settleWork.settleCut.spaceLowNow := by
    rw [settle_eq_settleWork, settleSpace_spaceLow]
  have hedge : s.settleWork.settleCut.mgmt.edgeSpace = s.mgmt.edgeSpace :=
    edgeSpace_of_standing (by simp [State.settleWork])
  have hbefore : s.settleWork.settleCut.eventSet .spaceLow = s.eventSet .spaceLow := hevent.trans hgrows.space
  rw [hnow, settle_eq_settleWork, settleSpace_eventSet, hbefore, hstatus.trans hgrows.spaceLow, hedge, rising_iff,
    falling_iff]
  simp

/-! ### A write refused in hand-over (R8, R13) -/

/-- What refuses a write in hand-over once a degrade condition has been taken: its mode, or WP# in RUN (R8, R13, R191). -/
theorem settle_of_handOver {r : Request} {c : Cause} (hr : s.port.request = some r) (hwrite : r.write = true)
    (hphase : r.phase = .handOver) (hhold : s.commandHold = false)
    (hcause : s.mgmt.mode = .readonly ∧ c = .readOnly ∨ s.mgmt.mode = .drain ∧ s.drain.phase = .drained ∧ c = .draining
      ∨ s.mgmt.mode = .service ∧ c = .notReady ∨ s.mgmt.mode = .halted ∧ c = .flashLost
      ∨ s.mgmt.mode = .run ∧ s.degraded = true ∧ c = .readOnly
      ∨ s.mgmt.mode = .run ∧ s.degraded = false ∧ s.array.wp = true ∧ c = .writeProtected) :
    s.settle.port = { s.port with request := none, response := some { cause := some c, data := [] } } := by
  have hjudges : s.port.judges r := ⟨hr, hwrite, .inl hphase⟩
  have hunwoken : s.port.unwoken := fun r' hr' => by
    cases hr.symm.trans hr'
    rw [hphase]
    decide
  have hdegrade := degrade_port s hunwoken
  have hport : s.roundBeforePort.port = s.port := by
    have hgroups : s.degrade.settleGroups.port = s.port := (settleGroups_port _).trans hdegrade
    exact (drainStep_port _ (Port.unwoken_of_eq hgroups hunwoken)).trans hgroups
  have hworks : s.roundBeforePort.works = s.works := by
    rw [State.roundBeforePort, works_drainStep, works_settleGroups, works_degrade]
  have hheld : s.roundBeforePort.commandHold = false := by
    have hheld := congrArg Works.held hworks
    rw [works_held, works_held] at hheld
    exact hheld.trans hhold
  have hwp : s.roundBeforePort.array.wp = s.array.wp :=
    wp_of_standing (by rw [State.roundBeforePort, standing_drainStep, standing_settleGroups, standing_degrade])
  have hkept : s.mgmt.mode ≠ .run → s.mgmt.mode ≠ .drain → s.roundBeforePort.mgmt.mode = s.mgmt.mode := by
    intro hrun hdrain
    obtain ⟨_, hsame | ⟨hrun', _⟩⟩ := roundBeforePort_mode_of_not_drain hdrain
    · exact hsame
    · exact absurd hrun' hrun
  have hrefuses : s.roundBeforePort.refuses c := by
    refine ⟨hheld, ?_⟩
    have hby : ∀ x, s.roundBeforePort.mgmt.mode = x → x ≠ .mount → x.writeCause = some c →
        s.roundBeforePort.mgmt.mode ≠ .mount ∧ (s.roundBeforePort.mgmt.mode.writeCause = some c
          ∨ s.roundBeforePort.mgmt.mode.writeCause = none ∧ s.roundBeforePort.array.wp = true ∧ c = .writeProtected) :=
      fun x hx hmount hc => by
        rw [hx]
        exact ⟨hmount, .inl hc⟩
    rcases hcause with ⟨hm, rfl⟩ | ⟨hm, hdrained, rfl⟩ | ⟨hm, rfl⟩ | ⟨hm, rfl⟩ | ⟨hm, hd, rfl⟩ | ⟨hm, hd, hprotected, rfl⟩
    · exact hby _ ((hkept (by rw [hm]; decide) (by rw [hm]; decide)).trans hm) (by decide) rfl
    · have hdrain : s.degrade.settleGroups.mgmt.mode = .drain ∧ s.degrade.settleGroups.drain.phase = .drained := by
        rw [settleGroups_mgmt, settleGroups_drain]
        rcases degrade_of_drain hm with h | h <;> rw [h] <;> exact ⟨hm, hdrained⟩
      refine hby .drain ?_ (by decide) rfl
      rw [State.roundBeforePort, drainStep_of_phase (by rw [hdrain.2]; decide)]
      exact hdrain.1
    · exact hby _ ((hkept (by rw [hm]; decide) (by rw [hm]; decide)).trans hm) (by decide) rfl
    · exact hby _ ((hkept (by rw [hm]; decide) (by rw [hm]; decide)).trans hm) (by decide) rfl
    · refine hby .readonly ?_ (by decide) rfl
      obtain ⟨hround, _⟩ := roundBeforePort_mode_of_not_drain (s := s) (by rw [hm]; decide)
      rw [hround, settleGroups_mgmt, degrade_of_run hd hm]
      exact setMode_mode _ _
    · obtain ⟨hround, _⟩ := roundBeforePort_mode_of_not_drain (s := s) (by rw [hm]; decide)
      have hrun : s.roundBeforePort.mgmt.mode = .run := by
        rw [hround, settleGroups_mgmt, degrade_of_not hd]
        exact hm
      rw [hrun, hwp]
      exact ⟨by decide, .inr ⟨rfl, hprotected, rfl⟩⟩
  obtain ⟨hanswered, _⟩ := settle_of_refused (v := s.roundBeforePort) rfl (by rw [hport]; exact hjudges) hrefuses
  rw [hanswered, hport]

end

end Sys2Proof.Machine
end


section
/-! Freed register entries (R130): no dead COMMITTED entry is left, since the port, which follows, only tags lines. -/

namespace Sys2Proof.Machine

/-! ### What the port makes of the table and the window unit (R112, R113) -/

/-- From `s` to `t` lines were tagged at most: table and register stay, the shadow list may be longer. -/
structure TagsLines (s t : State) : Prop where
  table : t.table = s.table
  register : t.windows.register = s.windows.register
  shadow : s.windows.shadow ⊆ t.windows.shadow

section
variable {s t : State}

theorem TagsLines.refl (s : State) : TagsLines s s := ⟨rfl, rfl, fun _ h => h⟩

theorem tagsLines_abandonRead (h : TagsLines s t) : TagsLines s t.abandonRead := by
  unfold State.abandonRead
  split
  · exact h
  · split <;> exact ⟨h.table, h.register, h.shadow⟩

theorem tagsLines_setRequest (h : TagsLines s t) (r : Request) : TagsLines s (t.setRequest r) :=
  ⟨h.table, h.register, h.shadow⟩

theorem tagsLines_respond (h : TagsLines s t) (c : Option Cause) (d : List Byte) : TagsLines s (t.respond c d) := by
  obtain ⟨htable, hregister, hshadow⟩ := tagsLines_abandonRead h
  exact ⟨htable, hregister, hshadow⟩

theorem tagsLines_refuse (h : TagsLines s t) (f : FaultReport) (d : List Byte) : TagsLines s (t.refuse f d) := by
  obtain ⟨htable, hregister, hshadow⟩ := tagsLines_respond h (some f.cause) d
  unfold State.refuse State.reportFault
  split <;> exact ⟨htable, hregister, hshadow⟩

theorem tagsLines_openGroup (h : TagsLines s t) (w : Nat) : TagsLines s (t.openGroup w) := by
  unfold State.openGroup
  split_ifs
  · exact ⟨h.table, h.register, h.shadow⟩
  · exact h

theorem tagsLines_createShadow (h : TagsLines s t) (line w : Nat) : TagsLines s (t.createShadow line w) := by
  unfold State.createShadow
  split_ifs
  · exact h
  · exact ⟨h.table, h.register, fun e he => List.mem_append_left _ (h.shadow he)⟩

theorem tagsLines_tagPiece (h : TagsLines s t) (p : Piece) : TagsLines s (t.tagPiece p).1 := by
  unfold State.tagPiece
  split_ifs
  · split
    · exact h
    · exact tagsLines_createShadow (tagsLines_openGroup h _) _ _
  · exact h

theorem tagsLines_tagPieces (ps : List Piece) (h : TagsLines s t) : TagsLines s (t.tagPieces ps).1 := by
  induction ps generalizing t with
  | nil => exact h
  | cons p ps ih => exact ih (tagsLines_tagPiece h p)

theorem tagsLines_waitChecking (h : TagsLines s t) (r : Request) : TagsLines s (t.waitChecking r) :=
  tagsLines_setRequest (tagsLines_abandonRead h) _

theorem tagsLines_checkWindows (h : TagsLines s t) (r : Request) : TagsLines s (t.checkWindows r) := by
  unfold State.checkWindows
  split_ifs
  · exact tagsLines_waitChecking h r
  · split
    · exact tagsLines_refuse h _ _
    · unfold State.enterHandOver
      split
      · exact tagsLines_respond h _ _
      · exact tagsLines_setRequest (tagsLines_abandonRead (tagsLines_tagPieces _ h)) _

theorem tagsLines_checkWrite (h : TagsLines s t) (r : Request) : TagsLines s (t.checkWrite r) := by
  unfold State.checkWrite
  split_ifs
  · exact tagsLines_waitChecking h r
  · split <;> exact tagsLines_refuse h _ _
  · split
    · exact tagsLines_refuse h _ _
    · unfold State.checkRange
      split
      · exact tagsLines_refuse h _ _
      all_goals
        split
        · exact tagsLines_refuse h _ _
        · exact tagsLines_checkWindows h r

theorem tagsLines_stepHandOver (h : TagsLines s t) (r : Request) : TagsLines s (t.stepHandOver r) := by
  unfold State.stepHandOver
  split
  · exact tagsLines_waitChecking h r
  · split
    · exact tagsLines_refuse h _ _
    · split_ifs
      · exact tagsLines_refuse h _ _
      · exact tagsLines_setRequest h _
      · exact tagsLines_checkWindows h _

theorem tagsLines_answerRead (h : TagsLines s t) (r : Request) : TagsLines s (t.answerRead r) := by
  unfold State.answerRead
  dsimp only
  split_ifs
  · split
    · exact tagsLines_respond h _ _
    · split
      · exact tagsLines_respond h _ _
      · exact tagsLines_refuse h _ _
      · exact tagsLines_refuse h _ _
  · exact tagsLines_setRequest h r

theorem tagsLines_stepRead (h : TagsLines s t) (r : Request) : TagsLines s (t.stepRead r) := by
  unfold State.stepRead
  split
  · exact tagsLines_refuse h _ _
  · exact tagsLines_setRequest h _
  all_goals
    split_ifs
    · exact tagsLines_setRequest h r
    · exact tagsLines_answerRead h _

theorem tagsLines_checkRead (h : TagsLines s t) (r : Request) : TagsLines s (t.checkRead r) := by
  unfold State.checkRead
  split
  · exact tagsLines_setRequest h _
  · exact tagsLines_refuse h _ _
  all_goals exact tagsLines_stepRead h _

theorem tagsLines_portStep (h : TagsLines s t) : TagsLines s t.portStep := by
  unfold State.portStep
  split
  · exact h
  · split
    · split_ifs
      · exact tagsLines_checkWrite h _
      · exact tagsLines_checkRead h _
      · exact h
    · exact tagsLines_stepHandOver h _
    · exact tagsLines_stepRead h _

/-! ### No dead entry is left (R130) -/

theorem liveTagged_ne_zero_iff {i : Nat} : s.liveTagged i ≠ 0 ↔ (∃ c ∈ s.table, c.2.group = some (.register i))
    ∨ ∃ e ∈ s.windows.shadow, e.committedGroup = some i := by
  unfold State.liveTagged
  rw [ne_eq, Nat.add_eq_zero_iff, List.length_eq_zero_iff, List.length_eq_zero_iff, List.filter_eq_nil_iff,
    List.filter_eq_nil_iff, not_and_or]
  simp

theorem TagsLines.noDeadGroup (h : TagsLines s t) (hs : s.NoDeadGroup) : t.NoDeadGroup := by
  intro i w g x hi
  rw [h.register] at hi
  have hlive := hs i w g x hi
  rw [liveTagged_ne_zero_iff] at hlive ⊢
  rw [h.table]
  exact hlive.imp id fun ⟨e, he, hg⟩ => ⟨e, h.shadow he, hg⟩

theorem noDeadGroup_freeDeadGroups (s : State) : s.freeDeadGroups.NoDeadGroup :=
  (freeDeadGroups_eq_iff _).mp (freeDeadGroups_twice s)

theorem offerRegister_shadow (s : State) : s.offerRegister.windows.shadow = s.windows.shadow := by
  unfold State.offerRegister State.reserve State.askCommit
  split
  · dsimp only
    split_ifs <;> rfl
  all_goals rfl

theorem askCommit_windows (s : State) (r : CommitRequest) : (s.askCommit r).windows = s.windows := by
  unfold State.askCommit
  split_ifs <;> rfl

theorem reserve_register (s : State) (w g i : Nat) :
    (s.reserve w g i).windows.register = s.windows.register.set i (.reserved w g) := by
  unfold State.reserve
  rw [askCommit_windows]
  rfl

theorem noDeadGroup_offerRegister (h : s.NoDeadGroup) : s.offerRegister.NoDeadGroup := by
  intro i w g x hi
  have hkept : s.windows.register[i]? = some (.committed w g x) := by
    unfold State.offerRegister at hi
    split at hi
    next j v _ _ =>
      rw [reserve_register, List.getElem?_set] at hi
      split_ifs at hi
      · cases hi
      · exact hi
    all_goals exact hi
  have hlive := h i w g x hkept
  rw [liveTagged_ne_zero_iff] at hlive ⊢
  rw [offerRegister_table, offerRegister_shadow]
  exact hlive

theorem noDeadGroup_settleGroups (s : State) : s.settleGroups.NoDeadGroup :=
  noDeadGroup_offerRegister (noDeadGroup_offerRegister (noDeadGroup_offerRegister (noDeadGroup_offerRegister
    (noDeadGroup_freeDeadGroups s))))

theorem settleRound_mode_of_not_drain (h : s.mgmt.mode ≠ .drain) : s.settleRound.mgmt.mode ≠ .drain := by
  obtain ⟨_, hsame | ⟨_, hread⟩⟩ := roundBeforePort_mode_of_not_drain h
  · rw [settleRound_mode, hsame]
    exact h
  · rw [settleRound_mode, hread]
    decide

theorem noDeadGroup_settleRound (h : s.mgmt.mode ≠ .drain) : s.settleRound.NoDeadGroup := by
  obtain ⟨hround, _⟩ := roundBeforePort_mode_of_not_drain h
  rw [settleRound_eq, hround]
  exact (tagsLines_portStep (.refl _)).noDeadGroup (noDeadGroup_settleGroups _)

/-- With no drain under way every COMMITTED entry has a live tagged reference in the end (R130). -/
theorem settle_committed_live (h : s.mgmt.mode ≠ .drain) {i w g : Nat} {x : Slot}
    (hi : s.settle.reg i = .committed w g x) : (∃ c ∈ s.settle.table, c.2.group = some (.register i))
    ∨ ∃ e ∈ s.settle.windows.shadow, e.committedGroup = some i := by
  have hlive := noDeadGroup_settleRound (settleRound_mode_of_not_drain h)
  rw [settle_eq, settleTail_table, settleTail_shadow, ← liveTagged_ne_zero_iff]
  refine hlive i w g x ?_
  unfold State.reg at hi
  rw [settle_eq, settleTail_register, List.getD_eq_getElem?_getD] at hi
  cases hget : s.settleRound.settleRound.windows.register[i]? with
  | none =>
    rw [hget] at hi
    cases hi
  | some e =>
    rw [hget] at hi
    exact congrArg some hi

end

end Sys2Proof.Machine
end


section
/-! The lowest entry that is free or freed goes to the awaiting window whose group is lowest (R132), with its COMMIT entry
asked for (R118, R54), and what follows leaves it there. -/

namespace Sys2Proof.Machine

section
variable {s : State} {i w g : Nat} {x : Window} {es : List QEntry} {rs : List CommitRequest}

/-- Register entry `i` is reserved for group `g` of window `w`, which stands as `x`; the queue begins with `es` and the
COMMIT requests that wait with `rs`. -/
structure State.Placed (s : State) (i w g : Nat) (x : Window) (es : List QEntry) (rs : List CommitRequest) : Prop where
  reg : s.reg i = .reserved w g
  window : s.window w = x
  entries : es <+: s.queue.entries
  requests : rs <+: s.queue.requests

/-! ### Asking and reserving (R54, R118) -/

theorem askCommit_entries (s : State) (r : CommitRequest) : s.queue.entries <+: (s.askCommit r).queue.entries := by
  unfold State.askCommit
  split_ifs
  · exact List.prefix_append _ _
  · exact List.prefix_rfl

theorem askCommit_requests (s : State) (r : CommitRequest) : s.queue.requests <+: (s.askCommit r).queue.requests := by
  unfold State.askCommit
  split_ifs
  · exact List.prefix_rfl
  · exact List.prefix_append _ _

theorem reserve_reg (s : State) (w g i j : Nat) (hi : i < s.windows.register.length) :
    (s.reserve w g i).reg j = if j = i then .reserved w g else s.reg j := by
  unfold State.reg
  rw [reserve_register, List.getD_eq_getElem?_getD, List.getD_eq_getElem?_getD]
  split_ifs with hj
  · rw [hj, List.getElem?_set_self hi]
    rfl
  · rw [List.getElem?_set_ne (Ne.symm hj)]

theorem reserve_window_other (s : State) (w g i : Nat) {v : Nat} (hv : v ≠ w) :
    (s.reserve w g i).window v = s.window v := by
  have hset : (s.reserve w g i).windows
      = ((s.setReg i (.reserved w g)).setWindow w { s.window w with register := some i, awaiting := false }).windows :=
    askCommit_windows _ _
  exact (congrArg (fun u : WindowUnit => u.windows.getD v Window.idle) hset).trans
    (window_setWindow_other (s.setReg i (.reserved w g)) v w _ hv)

theorem reserve_window (s : State) (w g i : Nat) (hw : w < s.windows.windows.length) :
    (s.reserve w g i).window w = { s.window w with register := some i, awaiting := false } := by
  have hset : (s.reserve w g i).windows
      = ((s.setReg i (.reserved w g)).setWindow w { s.window w with register := some i, awaiting := false }).windows :=
    askCommit_windows _ _
  exact (congrArg (fun u : WindowUnit => u.windows.getD w Window.idle) hset).trans
    (window_setWindow (s.setReg i (.reserved w g)) w _ hw)

theorem askCommit_queue_congr {t : State} (hqueue : t.queue = s.queue) (herased : t.erasedCount = s.erasedCount)
    (r : CommitRequest) : (t.askCommit r).queue = (s.askCommit r).queue := by
  unfold State.askCommit State.gateAdmits
  rw [hqueue, herased]
  split_ifs <;> rfl

theorem reserve_queue (s : State) (w g i : Nat) : (s.reserve w g i).queue
    = (s.askCommit { window := w, group := g, register := i, syncMark := false }).queue := by
  unfold State.reserve
  exact askCommit_queue_congr (s := s) (by rfl) (by rfl) _

/-! ### Who is chosen (R132) -/

theorem mem_of_freeRegister {j : Nat} (h : s.freeRegister = some j) : s.reg j = .free := by
  have hfound := List.find?_some h
  exact of_decide_eq_true hfound

/-- What becomes of the awaiting window chosen so far when window `w` is looked at (R132). -/
def State.offeredNext (s : State) (acc : Option Nat) (w : Nat) : Option Nat :=
  if (s.window w).awaiting then
    match acc with
    | none => some w
    | some v => if (s.window w).group.getD 0 < (s.window v).group.getD 0 then some w else acc
  else acc

theorem nextAwaiting_eq_foldl (s : State) : s.nextAwaiting = (List.range 4).foldl s.offeredNext none := rfl

/-- A window takes the place of the one chosen so far only while it awaits an entry. -/
theorem offeredNext_cases (s : State) (acc : Option Nat) (a : Nat) :
    s.offeredNext acc a = acc ∨ (s.window a).awaiting = true ∧ s.offeredNext acc a = some a := by
  unfold State.offeredNext
  split_ifs with ha
  · cases acc with
    | none => exact .inr ⟨ha, rfl⟩
    | some v =>
      dsimp only
      split_ifs
      · exact .inr ⟨ha, rfl⟩
      · exact .inl rfl
  · exact .inl rfl

theorem foldl_offeredNext_awaiting (ws : List Nat) (acc : Option Nat)
    (hacc : ∀ v, acc = some v → (s.window v).awaiting = true) (v : Nat)
    (h : ws.foldl s.offeredNext acc = some v) : (s.window v).awaiting = true := by
  induction ws generalizing acc with
  | nil => exact hacc v h
  | cons a ws ih =>
    refine ih _ (fun u hu => ?_) h
    rcases offeredNext_cases s acc a with hsame | ⟨ha, hnew⟩
    · exact hacc u (hsame.symm.trans hu)
    · cases hnew.symm.trans hu
      exact ha

/-- A window chosen by the offer awaits an entry. -/
theorem awaiting_of_nextAwaiting {v : Nat} (h : s.nextAwaiting = some v) : (s.window v).awaiting = true :=
  foldl_offeredNext_awaiting (List.range 4) none (by simp) v h

/-- Window `w`, of group `g`, goes before every other window that awaits an entry. -/
def State.goesFirst (s : State) (w g : Nat) (v : Nat) : Prop := v = w ∨ g < (s.window v).group.getD 0

theorem offeredNext_self (hawaiting : (s.window w).awaiting = true) (hg : (s.window w).group.getD 0 = g) {acc : Option Nat}
    (hacc : ∀ v, acc = some v → s.goesFirst w g v) : s.offeredNext acc w = some w := by
  unfold State.offeredNext
  rw [if_pos hawaiting]
  cases acc with
  | none => rfl
  | some v =>
    dsimp only
    rcases hacc v rfl with rfl | hv
    · exact ite_self _
    · rw [if_pos (by rw [hg]; exact hv)]

theorem offeredNext_of_chosen (hg : (s.window w).group.getD 0 = g) {a : Nat}
    (ha : (s.window a).awaiting = true → s.goesFirst w g a) : s.offeredNext (some w) a = some w := by
  unfold State.offeredNext
  split_ifs with hawaits
  · dsimp only
    rcases ha hawaits with rfl | hlt
    · exact ite_self _
    · rw [if_neg (by rw [hg]; omega)]
  · rfl

theorem foldl_offeredNext (hawaiting : (s.window w).awaiting = true) (hg : (s.window w).group.getD 0 = g) (ws : List Nat)
    (hws : ∀ v ∈ ws, (s.window v).awaiting = true → s.goesFirst w g v) (acc : Option Nat) (hmem : w ∈ ws ∨ acc = some w)
    (hacc : ∀ v, acc = some v → s.goesFirst w g v) : ws.foldl s.offeredNext acc = some w := by
  induction ws generalizing acc with
  | nil => exact hmem.resolve_left List.not_mem_nil
  | cons a ws ih =>
    have ha := hws a List.mem_cons_self
    refine ih (fun v hv => hws v (List.mem_cons_of_mem _ hv)) _ ?_ fun v hv => ?_
    · rcases hmem with hmem | rfl
      · rcases List.mem_cons.mp hmem with rfl | hmem
        · exact .inr (offeredNext_self hawaiting hg hacc)
        · exact .inl hmem
      · exact .inr (offeredNext_of_chosen hg ha)
    · rcases offeredNext_cases s acc a with hsame | ⟨hawaits, hnew⟩
      · exact hacc v (hsame.symm.trans hv)
      · cases hnew.symm.trans hv
        exact ha hawaits

/-- The awaiting window whose group is below those of all others that await is chosen. -/
theorem nextAwaiting_eq (hw : w < 4) (hawaiting : (s.window w).awaiting = true) (hgroup : (s.window w).group = some g)
    (hlowest : ∀ v < 4, (s.window v).awaiting = true → v = w ∨ ∃ h, (s.window v).group = some h ∧ g < h) :
    s.nextAwaiting = some w := by
  refine foldl_offeredNext hawaiting (by rw [hgroup, Option.getD_some]) _ (fun v hv ha => ?_) none
    (.inl (List.mem_range.mpr hw)) (by simp)
  rcases hlowest v (List.mem_range.mp hv) ha with rfl | ⟨h, hg, hlt⟩
  · exact .inl rfl
  · exact .inr (by rw [hg]; exact hlt)

/-! ### What is placed stays placed -/

theorem State.Placed.offerRegister (h : s.Placed i w g x es rs) (hx : x.awaiting = false)
    (hlength : s.windows.register.length = 16) : s.offerRegister.Placed i w g x es rs := by
  unfold State.offerRegister
  split
  next j v hj hv =>
    have hji : i ≠ j := by
      rintro rfl
      exact absurd ((mem_of_freeRegister hj).symm.trans h.reg) (by simp)
    have hvw : w ≠ v := by
      rintro rfl
      have hawaiting := awaiting_of_nextAwaiting hv
      rw [h.window, hx] at hawaiting
      cases hawaiting
    have hlt : j < s.windows.register.length := by
      rw [hlength]
      exact List.mem_range.mp (List.mem_of_find?_eq_some hj)
    refine ⟨?_, (reserve_window_other s v _ j hvw).trans h.window, ?_, ?_⟩
    · rw [reserve_reg s v _ j i hlt, if_neg hji]
      exact h.reg
    · rw [reserve_queue]
      exact h.entries.trans (askCommit_entries _ _)
    · rw [reserve_queue]
      exact h.requests.trans (askCommit_requests _ _)
  all_goals exact h

theorem offerRegister_length (s : State) : s.offerRegister.windows.register.length = s.windows.register.length := by
  unfold State.offerRegister
  split
  · rw [reserve_register, List.length_set]
  all_goals rfl

theorem freeDeadGroups_length (s : State) : s.freeDeadGroups.windows.register.length = s.windows.register.length :=
  List.length_mapIdx ..

theorem freeDeadGroups_reg (s : State) (j : Nat) : s.freeDeadGroups.reg j = match s.reg j with
    | .committed v h y => if s.liveTagged j = 0 then .free else .committed v h y
    | .reserved v h => .reserved v h
    | .free => .free := by
  unfold State.reg State.freeDeadGroups
  simp only [List.getD_eq_getElem?_getD, List.getElem?_mapIdx]
  cases s.windows.register[j]? with
  | none => rfl
  | some e => cases e <;> rfl

theorem freeDeadGroups_free_iff (s : State) (j : Nat) : s.freeDeadGroups.reg j = .free ↔ s.reg j = .free
    ∨ ∃ v h y, s.reg j = .committed v h y ∧ s.liveTagged j = 0 := by
  rw [freeDeadGroups_reg]
  cases s.reg j with
  | free => simp
  | reserved v h => simp
  | committed v h y => by_cases hlive : s.liveTagged j = 0 <;> simp [hlive]

theorem State.Placed.freeDeadGroups (h : s.Placed i w g x es rs) : s.freeDeadGroups.Placed i w g x es rs := by
  refine ⟨?_, h.window, h.entries, h.requests⟩
  rw [freeDeadGroups_reg, h.reg]

/-- Placed, with a register of 16 entries: what offers keep. -/
theorem State.Placed.offers (h : s.Placed i w g x es rs) (hx : x.awaiting = false)
    (hlength : s.windows.register.length = 16) :
    (s.offerRegister.offerRegister.offerRegister).Placed i w g x es rs
      ∧ (s.offerRegister.offerRegister.offerRegister).windows.register.length = 16 := by
  have h1 := h.offerRegister hx hlength
  have l1 := (offerRegister_length s).trans hlength
  have h2 := h1.offerRegister hx l1
  have l2 := (offerRegister_length _).trans l1
  exact ⟨h2.offerRegister hx l2, (offerRegister_length _).trans l2⟩

theorem State.Placed.settleGroups (h : s.Placed i w g x es rs) (hx : x.awaiting = false)
    (hlength : s.windows.register.length = 16) : s.settleGroups.Placed i w g x es rs := by
  have hfree := (freeDeadGroups_length s).trans hlength
  exact ((h.freeDeadGroups.offerRegister hx hfree).offers hx ((offerRegister_length _).trans hfree)).1

/-! ### Rounds in which only entries are freed and offered -/

theorem offerRegister_nextGroup (s : State) : s.offerRegister.windows.nextGroup = s.windows.nextGroup := by
  unfold State.offerRegister
  split
  · unfold State.reserve
    rw [askCommit_windows]
    rfl
  all_goals rfl

theorem settleGroups_nextGroup (s : State) : s.settleGroups.windows.nextGroup = s.windows.nextGroup := by
  unfold State.settleGroups
  rw [offerRegister_nextGroup, offerRegister_nextGroup, offerRegister_nextGroup, offerRegister_nextGroup]
  rfl

theorem settleGroups_degraded (s : State) : s.settleGroups.degraded = s.degraded := by
  have horigin : s.settleGroups.queue.nextOrigin = s.queue.nextOrigin :=
    nextOrigin_of_standing (standing_settleGroups s)
  unfold State.degraded State.retiredCount State.countState
  rw [horigin, settleGroups_nextGroup, settleGroups_blocks]

theorem settleRound_of_undisturbed (hmode : s.mgmt.mode ≠ .drain) (hd : s.degraded = false ∨ s.mgmt.mode ≠ .run)
    (hr : s.port.request = none) : s.settleRound = s.settleGroups := by
  have hdegrade : s.degrade = s := hd.elim degrade_of_not fun hrun => degrade_of_other hrun hmode
  unfold State.settleRound
  rw [hdegrade, drainStep_of_mode (by rw [settleGroups_mgmt]; exact hmode),
    portStep_of_none _ (by rw [settleGroups_port]; exact hr)]

theorem settle_of_undisturbed (hmode : s.mgmt.mode ≠ .drain) (hd : s.degraded = false ∨ s.mgmt.mode ≠ .run)
    (hr : s.port.request = none) : s.settle = s.settleGroups.settleGroups.settleTail := by
  rw [settle_eq, settleRound_of_undisturbed hmode hd hr, settleRound_of_undisturbed]
  · rw [settleGroups_mgmt]
    exact hmode
  · rw [settleGroups_degraded, settleGroups_mgmt]
    exact hd
  · rw [settleGroups_port]
    exact hr

/-- The first offer reserves the lowest entry that is free or freed for the lowest group that awaits one (R132). -/
theorem placed_offer (hwindows : s.windows.windows.length = 4) (hregister : s.windows.register.length = 16) (hi : i < 16)
    (hw : w < 4) (hawaiting : (s.window w).awaiting = true) (hgroup : (s.window w).group = some g)
    (hlowest : ∀ v < 4, (s.window v).awaiting = true → v = w ∨ ∃ h, (s.window v).group = some h ∧ g < h)
    (hfree : ∀ j ≤ i, (s.reg j = .free ∨ ∃ v h y, s.reg j = .committed v h y ∧ s.liveTagged j = 0) ↔ j = i) :
    s.freeDeadGroups.offerRegister.Placed i w g { s.window w with register := some i, awaiting := false }
      (s.askCommit { window := w, group := g, register := i, syncMark := false }).queue.entries
      (s.askCommit { window := w, group := g, register := i, syncMark := false }).queue.requests := by
  have hentry : s.freeDeadGroups.freeRegister = some i := by
    refine freeRegister_of _ i hi ?_ fun j hj => ?_
    · exact (freeDeadGroups_free_iff s i).mpr ((hfree i (Nat.le_refl i)).mpr rfl)
    · rw [ne_eq, freeDeadGroups_free_iff, hfree j (Nat.le_of_lt hj)]
      omega
  have hchosen : s.freeDeadGroups.nextAwaiting = some w :=
    nextAwaiting_eq (s := s.freeDeadGroups) hw hawaiting hgroup hlowest
  have hoffer : s.freeDeadGroups.offerRegister = s.freeDeadGroups.reserve w g i := by
    unfold State.offerRegister
    rw [hentry, hchosen]
    show s.freeDeadGroups.reserve w ((s.window w).group.getD 0) i = _
    rw [hgroup]
    rfl
  have hqueue : (s.freeDeadGroups.askCommit { window := w, group := g, register := i, syncMark := false }).queue
      = (s.askCommit { window := w, group := g, register := i, syncMark := false }).queue :=
    askCommit_queue_congr (by rfl) (by rfl) _
  have hlt : i < s.freeDeadGroups.windows.register.length := by
    rw [freeDeadGroups_length, hregister]
    exact hi
  rw [hoffer]
  refine ⟨?_, reserve_window _ w g i (hw.trans_eq hwindows.symm), ?_, ?_⟩
  · rw [reserve_reg _ w g i i hlt, if_pos rfl]
  · rw [reserve_queue, hqueue]
  · rw [reserve_queue, hqueue]

theorem getElem?_of_append_prefix {α : Type} {xs ys : List α} {a : α} (h : xs ++ [a] <+: ys) :
    ys[xs.length]? = some a := by
  obtain ⟨zs, rfl⟩ := h
  simp

/-- The register entry that is free or freed goes to the awaiting window of the lowest group (R132, R118, R54). -/
theorem settle_offers (hmode : s.mgmt.mode ≠ .drain) (hd : s.degraded = false ∨ s.mgmt.mode ≠ .run)
    (hr : s.port.request = none) (hwindows : s.windows.windows.length = 4) (hregister : s.windows.register.length = 16)
    (hi : i < 16) (hw : w < 4) (hawaiting : (s.window w).awaiting = true) (hgroup : (s.window w).group = some g)
    (hlowest : ∀ v < 4, (s.window v).awaiting = true → v = w ∨ ∃ h, (s.window v).group = some h ∧ g < h)
    (hfree : ∀ j ≤ i, (s.reg j = .free ∨ ∃ v h y, s.reg j = .committed v h y ∧ s.liveTagged j = 0) ↔ j = i) :
    s.settle.reg i = .reserved w g ∧ s.settle.window w = { s.window w with register := some i, awaiting := false }
      ∧ (s.queue.requests = [] → s.queue.entries.length ≤ 15 → 1 ≤ s.erasedCount →
        s.settle.queue.entries[s.queue.entries.length]? = some (.commit
          { window := w, group := g, register := i, state := .pending, attempts := 0, blockAttempts := 0,
            lastBlock := none, target := none, syncMark := false }))
      ∧ ((s.queue.requests ≠ [] ∨ 16 ≤ s.queue.entries.length ∨ s.erasedCount = 0) →
        s.settle.queue.requests[s.queue.requests.length]?
          = some { window := w, group := g, register := i, syncMark := false }) := by
  have hlength : s.freeDeadGroups.offerRegister.windows.register.length = 16 := by
    rw [offerRegister_length, freeDeadGroups_length, hregister]
  obtain ⟨hfirst, hfirstlength⟩ :=
    (placed_offer hwindows hregister hi hw hawaiting hgroup hlowest hfree).offers rfl hlength
  have hsecond := State.Placed.settleGroups (s := s.settleGroups) hfirst rfl hfirstlength
  have hsettle := settle_of_undisturbed hmode hd hr
  have hplaced : s.settle.Placed i w g { s.window w with register := some i, awaiting := false }
      (s.askCommit { window := w, group := g, register := i, syncMark := false }).queue.entries
      (s.askCommit { window := w, group := g, register := i, syncMark := false }).queue.requests := by
    rw [hsettle]
    refine ⟨?_, ?_, ?_, ?_⟩
    · unfold State.reg
      rw [settleTail_register]
      exact hsecond.reg
    · unfold State.window
      rw [settleTail_windows]
      exact hsecond.window
    · rw [settleTail_queue]
      exact hsecond.entries
    · rw [settleTail_queue]
      exact hsecond.requests
  refine ⟨hplaced.reg, hplaced.window, fun hrequests hplace herased => ?_, fun hfull => ?_⟩
  · have hentries := hplaced.entries
    rw [askCommit_of_place s _ hrequests hplace herased] at hentries
    exact getElem?_of_append_prefix hentries
  · have hrequests := hplaced.requests
    rw [askCommit_of_none s _ hfull] at hrequests
    exact getElem?_of_append_prefix hrequests

end

end Sys2Proof.Machine
end


section
/-! The release request and the release job among the reactions (R131, R92). -/

namespace Sys2Proof.Machine

section
variable {s : State}

/-! ### The lowest COMMITTED entry (R131) -/

theorem lowestCommitted_none {es : List RegEntry} {k : Nat} (h : lowestCommitted es k = none) (w g : Nat) (x : Slot) :
    .committed w g x ∉ es := by
  induction es generalizing k with
  | nil => exact List.not_mem_nil
  | cons e es ih =>
    cases e with
    | committed v f y =>
      unfold lowestCommitted at h
      split at h
      · split_ifs at h
      · cases h
    | reserved v f => exact fun hmem => ih h ((List.mem_cons.mp hmem).resolve_left (by simp))
    | free => exact fun hmem => ih h ((List.mem_cons.mp hmem).resolve_left (by simp))

theorem lowestCommitted_some {es : List RegEntry} {k j f : Nat} (h : lowestCommitted es k = some (j, f)) :
    (∃ n v y, j = k + n ∧ es[n]? = some (.committed v f y)) ∧ ∀ w g x, .committed w g x ∈ es → f ≤ g := by
  induction es generalizing k j f with
  | nil => cases h
  | cons e es ih =>
    have hlater : ∀ {j f}, lowestCommitted es (k + 1) = some (j, f) →
        ∃ n v y, j = k + n ∧ (e :: es)[n]? = some (.committed v f y) := fun htail => by
      obtain ⟨⟨n, v, y, hj, hn⟩, _⟩ := ih htail
      exact ⟨n + 1, v, y, by omega, hn⟩
    have hskip : (∀ w g x, e ≠ .committed w g x) → lowestCommitted es (k + 1) = some (j, f) →
        ∀ w g x, .committed w g x ∈ e :: es → f ≤ g := fun hother htail w g x hmem =>
      (ih htail).2 w g x ((List.mem_cons.mp hmem).resolve_left fun he => hother w g x he.symm)
    cases e with
    | reserved v d => exact ⟨hlater h, hskip (by simp) h⟩
    | free => exact ⟨hlater h, hskip (by simp) h⟩
    | committed v d y =>
      unfold lowestCommitted at h
      split at h
      next j' f' htail =>
        have hbelow := (ih htail).2
        split_ifs at h with hlt
        · cases h
          refine ⟨hlater htail, fun w g x hmem => ?_⟩
          rcases List.mem_cons.mp hmem with he | hmem
          · cases he
            exact Nat.le_of_lt hlt
          · exact hbelow w g x hmem
        · cases h
          refine ⟨⟨0, v, y, rfl, rfl⟩, fun w g x hmem => ?_⟩
          rcases List.mem_cons.mp hmem with he | hmem
          · cases he
            exact Nat.le_refl _
          · exact (Nat.le_of_not_lt hlt).trans (hbelow w g x hmem)
      next htail =>
        cases h
        refine ⟨⟨0, v, y, rfl, rfl⟩, fun w g x hmem => ?_⟩
        rcases List.mem_cons.mp hmem with he | hmem
        · cases he
          exact Nat.le_refl _
        · exact absurd hmem (lowestCommitted_none htail w g x)

theorem commitSlot_isSome_iff (e : RegEntry) : e.commitSlot.isSome = true ↔ ∃ w g x, e = .committed w g x := by
  cases e <;> simp [RegEntry.commitSlot]

theorem mem_register_of_reg {i w g : Nat} {x : Slot} (h : s.reg i = .committed w g x) :
    .committed w g x ∈ s.windows.register := by
  unfold State.reg at h
  rw [List.getD_eq_getElem?_getD] at h
  cases hget : s.windows.register[i]? with
  | none =>
    rw [hget] at h
    cases h
  | some e =>
    rw [hget] at h
    cases h
    exact List.mem_of_getElem? hget

/-! ### The request that stands (R131) -/

/-- A window awaits a register entry, which gives the release request priority. -/
def State.awaits (s : State) : Bool := [0, 1, 2, 3].any fun w => (s.window w).awaiting

/-- The request made anew: for the COMMITTED entry with the lowest group. -/
def State.freshRelease (s : State) : Option ReleaseRequest :=
  (lowestCommitted s.windows.register 0).map fun p => { register := p.1, priority := s.awaits }

theorem releaseWanted_of_unwanted (hp : s.awaits = false) (h : s.committedCount ≤ 8) : s.releaseWanted = none := by
  have hwanted : (s.awaits || decide (Config.releaseThreshold < s.committedCount)) = false := by
    rw [hp, Bool.false_or, decide_eq_false_iff_not]
    exact Nat.not_lt.mpr h
  show (if (s.awaits || decide (Config.releaseThreshold < s.committedCount)) = true then _ else none) = none
  rw [hwanted]
  rfl

theorem releaseWanted_of_wanted (h : s.awaits = true ∨ 8 < s.committedCount) :
    s.releaseWanted = match s.windows.release with
      | none => s.freshRelease
      | some r => if ((s.reg r.register).commitSlot.isSome && (r.priority || !s.awaits)) = true
          then some { r with priority := s.awaits } else s.freshRelease := by
  have hwanted : (s.awaits || decide (Config.releaseThreshold < s.committedCount)) = true := by
    rw [Bool.or_eq_true, decide_eq_true_iff]
    exact h
  show (if (s.awaits || decide (Config.releaseThreshold < s.committedCount)) = true then _ else none) = _
  rw [if_pos hwanted]
  rfl

/-- A request keeps its entry while the entry is COMMITTED and no priority request is made anew (R131). -/
theorem releaseWanted_kept {r : ReleaseRequest} (h : s.awaits = true ∨ 8 < s.committedCount)
    (hr : s.windows.release = some r) (hcommitted : ∃ w g x, s.reg r.register = .committed w g x)
    (hpriority : r.priority = true ∨ s.awaits = false) :
    s.releaseWanted = some { r with priority := s.awaits } := by
  have hkept : ((s.reg r.register).commitSlot.isSome && (r.priority || !s.awaits)) = true := by
    rw [(commitSlot_isSome_iff _).mpr hcommitted]
    rcases hpriority with hpriority | hpriority <;> simp [hpriority]
  rw [releaseWanted_of_wanted h, hr]
  exact if_pos hkept

/-- The request that stands either stood before or is made anew. -/
theorem releaseWanted_cases (h : s.awaits = true ∨ 8 < s.committedCount) : s.releaseWanted = s.freshRelease
    ∨ ∃ r, s.windows.release = some r ∧ (∃ w g x, s.reg r.register = .committed w g x)
      ∧ (r.priority = true ∨ s.awaits = false) ∧ s.releaseWanted = some { r with priority := s.awaits } := by
  cases hr : s.windows.release with
  | none =>
    rw [releaseWanted_of_wanted h, hr]
    exact .inl rfl
  | some r =>
    by_cases hkept : (∃ w g x, s.reg r.register = .committed w g x) ∧ (r.priority = true ∨ s.awaits = false)
    · exact .inr ⟨r, rfl, hkept.1, hkept.2, releaseWanted_kept h hr hkept.1 hkept.2⟩
    · left
      rw [releaseWanted_of_wanted h, hr]
      refine if_neg fun hc => hkept ?_
      rw [Bool.and_eq_true, commitSlot_isSome_iff, Bool.or_eq_true, Bool.not_eq_true'] at hc
      exact hc

theorem freshRelease_some {q : ReleaseRequest} (h : s.freshRelease = some q) : q.priority = s.awaits
    ∧ ∃ w g x, s.reg q.register = .committed w g x ∧ ∀ i w' g' x', s.reg i = .committed w' g' x' → g ≤ g' := by
  obtain ⟨⟨j, f⟩, hlow, rfl⟩ := Option.map_eq_some_iff.mp h
  obtain ⟨⟨n, v, y, hj, hn⟩, hbelow⟩ := lowestCommitted_some hlow
  refine ⟨rfl, v, f, y, ?_, fun i w' g' x' hi => hbelow w' g' x' (mem_register_of_reg hi)⟩
  have hregister : j = n := by omega
  show s.reg j = _
  rw [hregister]
  unfold State.reg
  rw [List.getD_eq_getElem?_getD, hn]
  rfl

theorem releaseWanted_isSome (h : s.awaits = true ∨ 8 < s.committedCount) {i w g : Nat} {x : Slot}
    (hi : s.reg i = .committed w g x) : s.releaseWanted.isSome = true := by
  rcases releaseWanted_cases h with hfresh | ⟨r, _, _, _, hkept⟩
  · rw [hfresh]
    unfold State.freshRelease
    rw [Option.isSome_map]
    cases hlow : lowestCommitted s.windows.register 0 with
    | none => exact absurd (mem_register_of_reg hi) (lowestCommitted_none hlow w g x)
    | some p => rfl
  · rw [hkept]
    rfl

theorem releaseWanted_some {q : ReleaseRequest} (h : s.releaseWanted = some q) : q.priority = s.awaits
    ∧ ∃ w g x, s.reg q.register = .committed w g x
      ∧ ((∃ r, s.windows.release = some r ∧ r.register = q.register ∧ (r.priority = true ∨ s.awaits = false))
        ∨ ∀ i w' g' x', s.reg i = .committed w' g' x' → g ≤ g') := by
  have hwanted : s.awaits = true ∨ 8 < s.committedCount := by
    by_contra hnot
    rw [not_or, Bool.not_eq_true, Nat.not_lt] at hnot
    obtain ⟨hp, hcount⟩ := hnot
    rw [releaseWanted_of_unwanted hp hcount] at h
    cases h
  rcases releaseWanted_cases hwanted with hfresh | ⟨r, hr, ⟨w, g, x, hreg⟩, hpriority, hkept⟩
  · rw [hfresh] at h
    obtain ⟨hp, w, g, x, hreg, hbelow⟩ := freshRelease_some h
    exact ⟨hp, w, g, x, hreg, .inr hbelow⟩
  · cases hkept.symm.trans h
    exact ⟨rfl, w, g, x, hreg, .inl ⟨r, hr, rfl, hpriority⟩⟩

/-! ### The job that follows it (R92) -/

theorem inFlight_eq (j : ReleaseJob) : j.inFlight = j.copy.any fun c => decide (c.stage ≠ .held) := by
  unfold ReleaseJob.inFlight
  cases j.copy with
  | none => rfl
  | some c =>
    show c.inFlight = decide (c.stage ≠ .held)
    unfold CopyWork.inFlight
    cases c.stage <;> rfl

/-- The state with another release request standing. -/
def State.withRelease (t : State) (r : Option ReleaseRequest) : State :=
  { t with windows := { t.windows with release := r } }

theorem withRelease_windows (t : State) (r : Option ReleaseRequest) :
    (t.withRelease r).windows.windows = t.windows.windows ∧ (t.withRelease r).windows.register = t.windows.register
      ∧ (t.withRelease r).windows.release = r ∧ (t.withRelease r).awaits = t.awaits
      ∧ (t.withRelease r).committedCount = t.committedCount ∧ ∀ i, (t.withRelease r).reg i = t.reg i :=
  ⟨rfl, rfl, rfl, rfl, rfl, fun _ => rfl⟩

/-- The request and the job that stand in the end, by the windows and the register of the end and by what stood before. -/
theorem settle_release (s : State) :
    s.settle.windows.release = (s.settle.withRelease s.windows.release).releaseWanted
      ∧ s.settle.blocks.release = nextReleaseJob s.blocks.release s.settle.windows.release := by
  generalize hu : s.settle.withRelease s.windows.release = u
  obtain ⟨hwindows, hregister, hrelease, _⟩ := withRelease_windows s.settle s.windows.release
  rw [hu] at hwindows hregister hrelease
  obtain ⟨hrequest, hjob⟩ := settle_releases s u hwindows hregister hrelease
  rw [hjob, hrequest]
  exact ⟨rfl, rfl⟩

/-- The release request and the release job follow the windows and the register (R131, R92). -/
theorem settle_releases_spec {t : State} {p : Bool} (ht : t = s.settle) (hp : p = t.awaits) :
    (p = false → t.committedCount ≤ 8 → t.windows.release = none)
      ∧ (∀ q, t.windows.release = some q → q.priority = p
        ∧ ∃ w g x, t.reg q.register = .committed w g x
          ∧ ((∃ r, s.windows.release = some r ∧ r.register = q.register ∧ (r.priority = true ∨ p = false))
            ∨ ∀ i w' g' x', t.reg i = .committed w' g' x' → g ≤ g'))
      ∧ (∀ r, s.windows.release = some r → (p = true ∨ 8 < t.committedCount) →
        (∃ w g x, t.reg r.register = .committed w g x) → (r.priority = true ∨ p = false) →
        t.windows.release = some { r with priority := p })
      ∧ (∀ i w g x, (p = true ∨ 8 < t.committedCount) → t.reg i = .committed w g x → t.windows.release.isSome = true)
      ∧ t.blocks.release = nextReleaseJob s.blocks.release t.windows.release := by
  subst hp
  obtain ⟨hrequest, hjob⟩ := settle_release s
  rw [← ht] at hrequest hjob
  generalize hu : t.withRelease s.windows.release = u at hrequest
  obtain ⟨_, _, hrelease, hawaits, hcount, hreg⟩ := withRelease_windows t s.windows.release
  rw [hu] at hrelease hawaits hcount hreg
  rw [hrequest, ← hawaits, ← hcount, ← hrelease]
  simp only [← hreg]
  exact ⟨releaseWanted_of_unwanted, fun q => releaseWanted_some,
    fun r hr hwanted hcommitted hpriority => releaseWanted_kept hwanted hr hcommitted hpriority,
    fun i w g x hwanted hi => releaseWanted_isSome hwanted hi, hrequest ▸ hjob⟩

theorem nextReleaseJob_eq (job : Option ReleaseJob) (want : Option ReleaseRequest) :
    nextReleaseJob job want = match job, want with
      | none, none => none
      | none, some r => some { register := r.register, priority := r.priority, copy := none }
      | some j, none => if (j.copy.any fun c => decide (c.stage ≠ .held)) = true then some j else none
      | some j, some r =>
        if r.register = j.register then some { j with priority := r.priority }
        else if (j.copy.any fun c => decide (c.stage ≠ .held)) = true then some j
        else some { register := r.register, priority := r.priority, copy := none } := by
  cases job with
  | none => cases want <;> rfl
  | some j =>
    cases want with
    | none =>
      show (if j.inFlight then some j else none) = _
      rw [inFlight_eq]
    | some r =>
      show (if r.register = j.register then _ else if j.inFlight then _ else _) = _
      rw [inFlight_eq]

end

end Sys2Proof.Machine
end


section
/-! The tail's steps, each where it acts and where it does not: the start of an erase (R88), the held header (R106), mount's
skipped writes (R150), the cut of WIPE (R187). -/

namespace Sys2Proof.Machine

section
variable {s : State} {j : EraseJob}

/-! ### Where a step does nothing -/

theorem setErase_same (h : s.array.erase = some j) : s.setErase (some j) = s := by
  have harray : ({ s.array with erase := some j } : ArrayPort) = s.array := by rw [← h]
  unfold State.setErase
  rw [harray]

theorem startReclaimErase_of_busy (h : s.array.erase = some j) : s.startReclaimErase = s := by
  unfold State.startReclaimErase
  rw [h]
  cases s.blocks.victim <;> rfl

theorem startReclaimErase_of_barred (h : s.mgmt.mode.working = false ∨ s.array.wp = true) : s.startReclaimErase = s := by
  unfold State.startReclaimErase
  split
  · refine if_neg ?_
    rintro ⟨hworking, hwp, _⟩
    rcases h with h | h
    · exact absurd (h.symm.trans hworking) (by decide)
    · exact absurd (h.symm.trans hwp) (by decide)
  all_goals rfl

theorem releaseHeader_of_other (h : ∀ j, s.array.erase = some j → j.part ≠ .headerHeld ∨ s.array.wp = true) :
    s.releaseHeader = s := by
  unfold State.releaseHeader
  split
  · rfl
  next j hj =>
    refine if_neg ?_
    rintro ⟨hpart, hwp, _⟩
    rcases h j hj with h | h
    · exact h hpart
    · exact absurd (h.symm.trans hwp) (by decide)

/-- The parts of an erase that no read suspends or resumes (R100). -/
def ErasePart.unmoved : ErasePart → Bool
  | .waiting | .suspending | .blankCheck | .header | .headerHeld | .markRead | .mark | .firstPart | .record => true
  | .erasing | .suspended | .finished => false

theorem react_of_unmoved (h : j.part.unmoved = true) (waits : Bool) : j.react waits = j := by
  unfold EraseJob.react
  split
  next hpart => rw [hpart] at h; cases h
  next hpart => rw [hpart] at h; cases h
  next hpart => rw [hpart] at h; cases h
  all_goals rfl

theorem settleErase_of_unmoved (h : ∀ j, s.array.erase = some j → j.part.unmoved = true) : s.settleErase = s := by
  unfold State.settleErase
  split
  · rfl
  next j hj =>
    rw [react_of_unmoved (h j hj), setErase_same hj]
    exact ite_self _

theorem skipRepairs_of_none (h : s.mount = none) : s.skipRepairs = s := by
  unfold State.skipRepairs
  rw [h]

theorem skipRepairs_of_writable (h : s.array.wp = false) : s.skipRepairs = s := by
  unfold State.skipRepairs
  split
  · rfl
  · exact if_neg fun hc => absurd (h.symm.trans hc.2.1) (by decide)

theorem settleCut_of_uncut (h : s.wipeCut = false) : s.settleCut = s := by
  unfold State.wipeCut at h
  unfold State.settleCut
  split
  next hc =>
    rw [hc] at h
    cases h
  all_goals rfl

theorem settleSpace_works (s : State) : s.settleSpace.array = s.array ∧ s.settleSpace.mount = s.mount
    ∧ s.settleSpace.blocks = s.blocks := by
  unfold State.settleSpace State.edge
  dsimp only
  split_ifs <;> exact ⟨rfl, rfl, rfl⟩

theorem updateRelease_works (s : State) : s.updateRelease.array = s.array ∧ s.updateRelease.mount = s.mount
    ∧ s.updateRelease.mgmt = s.mgmt
    ∧ s.updateRelease.blocks = { s.blocks with release := s.updateRelease.blocks.release } :=
  ⟨rfl, rfl, rfl, rfl⟩

/-! ### The command in progress -/

theorem retireErased_command (s : State) (j : EraseJob) : (s.retireErased j).mgmt.command = s.mgmt.command := by
  have hreport : ∀ (t : State) (f : FaultReport), (t.reportFault f).mgmt.command = t.mgmt.command := fun t f => by
    obtain ⟨_, _, _, _, _, _, hcommand, _⟩ := reportFault_frame t f
    exact hcommand
  unfold State.retireErased
  rw [reportRetired_eq, hreport]
  dsimp only
  split
  · unfold State.endReclaim
    split_ifs <;> rfl
  · rfl
  · rfl

theorem skipErase_command (s : State) (j : EraseJob) : (s.skipErase j).mgmt.command = s.mgmt.command := by
  unfold State.skipErase
  split
  · split_ifs <;> rfl
  · rfl
  · rfl
  · exact retireErased_command s j
  all_goals rfl

theorem skipRepairs_command (s : State) : s.skipRepairs.mgmt.command = s.mgmt.command := by
  unfold State.skipRepairs
  split
  · rfl
  · split_ifs
    · split
      · rfl
      next j _ =>
        dsimp only
        split
        · exact skipErase_command s j
        · split_ifs <;> exact skipErase_command s j
    · rfl

theorem wipeCut_congr {t : State} (h : t.mgmt.command = s.mgmt.command) : t.wipeCut = s.wipeCut := by
  unfold State.wipeCut
  rw [h]

/-! ### The tail's work after the two rounds -/

/-- The state after the two rounds of reactions. -/
def State.settleRounds (s : State) : State := s.settleRound.settleRound

theorem settleWork_eq (s : State) : s.settleWork
    = s.settleRounds.startReclaimErase.updateRelease.releaseHeader.settleErase.skipRepairs := rfl

theorem settleRounds_works (s : State) : s.settleRounds.blocks = s.blocks ∧ s.settleRounds.mount = s.mount
    ∧ s.settleRounds.array.erase = s.array.erase ∧ s.settleRounds.array.op.isSome = s.array.op.isSome
    ∧ s.settleRounds.commandHold = s.commandHold ∧ s.settleRounds.wipeCut = s.wipeCut := by
  unfold State.settleRounds
  simp

theorem settleRounds_standing (s : State) : s.settleRounds.standing = s.standing := by
  unfold State.settleRounds
  simp

theorem settleRounds_op (h : s.array.op = none) : s.settleRounds.array.op = none := by
  obtain ⟨_, _, _, hop, _⟩ := settleRounds_works s
  cases hsome : s.settleRounds.array.op with
  | none => rfl
  | some o =>
    rw [hsome, h] at hop
    cases hop

theorem settleWork_wipeCut (s : State) : s.settleWork.wipeCut = s.wipeCut := by
  obtain ⟨_, _, _, _, _, hcut⟩ := settleRounds_works s
  obtain ⟨_, _, hupdate, _⟩ := updateRelease_works s.settleRounds.startReclaimErase
  refine Eq.trans (wipeCut_congr ?_) hcut
  rw [settleWork_eq, skipRepairs_command, settleErase_mgmt, releaseHeader_mgmt, hupdate, startReclaimErase_mgmt]

/-- Without a cut WIPE the work before it is what the reactions leave. -/
theorem settle_of_uncut (h : s.wipeCut = false) : s.settle.array = s.settleWork.array ∧ s.settle.mount = s.settleWork.mount
    ∧ s.settle.blocks = s.settleWork.blocks := by
  rw [settle_eq_settleWork, settleCut_of_uncut ((settleWork_wipeCut s).trans h)]
  exact settleSpace_works _

theorem settle_mode_of_rounds (s : State) : s.settle.mgmt.mode = s.settleRounds.mgmt.mode := by
  unfold State.settleRounds
  rw [settle_eq, settleTail_mode]

/-! ### The erase of a victim (R88, R82, R93) -/

theorem liveCount_eq_zero {b : Nat} (h : ∀ x, s.live x = true → x.block ≠ b) : s.liveCount b = 0 := by
  have hnone : s.liveSlots b = [] := List.eq_nil_iff_forall_not_mem.mpr fun x hx => by
    obtain ⟨hlive, hblock⟩ := (mem_liveSlots s x b).mp hx
    exact h x hlive hblock
  unfold State.liveCount
  rw [hnone]
  cases (s.block b).state <;> rfl

theorem settle_live (s : State) (x : Slot) : s.settle.live x = s.settleRounds.live x := by
  unfold State.live State.named State.settleRounds
  rw [settle_eq, settleTail_table, settleTail_shadow, settleTail_register]

/-- A copy held between its read and its program is given up (R82). -/
def State.giveUpHeld (t : State) : State :=
  match t.blocks.reclaimCopy with
  | some c => if c.stage = CopyStage.held then t.setCopy .reclaim none else t
  | none => t

theorem giveUpHeld_eq (t : State) : t.giveUpHeld = { t with blocks := { t.blocks with
    reclaimCopy := t.blocks.reclaimCopy.filter fun c => decide (c.stage ≠ .held) } } := by
  have hsame : ∀ x, t.blocks.reclaimCopy = x →
      t = { t with blocks := { t.blocks with reclaimCopy := x } } := fun x hx => by rw [← hx]
  unfold State.giveUpHeld
  cases hcopy : t.blocks.reclaimCopy with
  | none => exact hsame _ hcopy
  | some c =>
    dsimp only
    split_ifs with hheld
    · rw [Option.filter_some_neg (by simp [hheld])]
      rfl
    · rw [Option.filter_some_pos (by simp [hheld])]
      exact hsame _ hcopy

/-- The start of a victim's erase: a copy held for it is given up. -/
theorem startReclaimErase_of_dead {b : Nat} (hvictim : s.blocks.victim = some b) (hstate : (s.block b).state = .victim)
    (herase : s.array.erase = none) (hmode : s.mgmt.mode.working = true) (hwp : s.array.wp = false)
    (hhold : s.holdsBack = false) (hcount : s.liveCount b = 0) : s.startReclaimErase = { s with
      blocks := { s.blocks with
        table := Sparse.set BlockEntry.unknown s.blocks.table b { s.block b with state := .erasing, nextFree := 0 },
        reclaimCopy := s.blocks.reclaimCopy.filter fun c => decide (c.stage ≠ .held) },
      array := { s.array with erase := some (newErase .manager b (raiseEraseCount (s.block b).eraseCount)) } } := by
  unfold State.startReclaimErase
  rw [hvictim, herase]
  dsimp only
  rw [if_pos ⟨hmode, hwp, hhold, hstate, hcount⟩]
  exact congrArg (fun u => State.setErase u (some (newErase .manager b (raiseEraseCount (s.block b).eraseCount))))
    (giveUpHeld_eq (s.setBlock b { s.block b with state := .erasing, nextFree := 0 }))

/-- A listed value other than the default is found, whatever the map's form. -/
theorem Sparse.get_set_of_ne {α : Type} [DecidableEq α] (d : α) (m : Sparse α) (a : Nat) (v : α) (hv : v ≠ d) :
    Sparse.get d (Sparse.set d m a v) a = v := by
  induction m with
  | nil =>
    unfold Sparse.set
    rw [if_neg hv]
    exact if_pos rfl
  | cons c m ih =>
    obtain ⟨k, u⟩ := c
    unfold Sparse.set
    rw [if_neg hv]
    split_ifs with hlt heq
    · exact if_pos rfl
    · exact if_pos rfl
    · exact (if_neg heq).trans ih

end

end Sys2Proof.Machine
end


section
/-! The reactions of the block manager, the array port, mount and WIPE, each as what it leaves in the end (R82, R88, R93,
R106, R150, R187). -/

namespace Sys2Proof.Machine

section
variable {s : State} {j : EraseJob}

/-! ### The victim (R88, R82, R93) -/

theorem settle_of_dead_victim {b : Nat} (hvictim : s.blocks.victim = some b) (hstate : (s.block b).state = .victim)
    (herase : s.array.erase = none) (hmount : s.mount = none) (hcut : s.wipeCut = false) (hhold : s.commandHold = false)
    (hmode : s.settle.mgmt.mode = .run ∨ s.settle.mgmt.mode = .readonly)
    (hdead : ∀ x, s.settle.live x = true → x.block ≠ b) :
    (s.array.wp = false → s.settle.block b = { s.block b with state := .erasing, nextFree := 0 }
        ∧ s.settle.array.erase = some
            { owner := .manager, block := b, attempts := 0, newCount := raiseEraseCount (s.block b).eraseCount,
              part := .waiting, running := 0, clock := 0, suspends := 0, statusWait := false, virgin := false }
        ∧ s.settle.blocks.victim = some b
        ∧ s.settle.blocks.reclaimCopy = s.blocks.reclaimCopy.filter fun c => decide (c.stage ≠ .held))
      ∧ (s.array.wp = true → s.settle.block b = s.block b ∧ s.settle.array.erase = none) := by
  obtain ⟨hblocks, hengine, hjob, _, hheld, _⟩ := settleRounds_works s
  have hwp := wp_of_standing (settleRounds_standing s)
  obtain ⟨harray, _, hleft⟩ := settle_of_uncut hcut
  have hblock : s.settleRounds.block b = s.block b := by
    unfold State.block
    rw [hblocks]
  generalize hr : s.settleRounds = r at hblocks hengine hjob hheld hwp hblock
  have hwork : ∀ u : State, r.startReclaimErase.updateRelease = u → u.mount = none →
      (∀ j, u.array.erase = some j → j.part = .waiting) → s.settleWork = u := fun u hu hnone hwaiting => by
    rw [settleWork_eq, hr, hu, releaseHeader_of_other fun j hj => .inl (by rw [hwaiting j hj]; decide),
      settleErase_of_unmoved fun j hj => by rw [hwaiting j hj]; rfl, skipRepairs_of_none hnone]
  obtain ⟨huarray, humount, _, hublocks⟩ := updateRelease_works r.startReclaimErase
  have hfield : s.settle.block b = Sparse.get BlockEntry.unknown s.settle.blocks.table b := rfl
  refine ⟨fun hwritable => ?_, fun hprotected => ?_⟩
  · have hworking : r.mgmt.mode.working = true := by
      rw [← hr, ← settle_mode_of_rounds, working_iff]
      exact hmode
    have hback : r.holdsBack = false := by
      unfold State.holdsBack
      rw [hheld, hhold]
      rfl
    have hcount : r.liveCount b = 0 := liveCount_eq_zero fun x hx => hdead x (by rw [settle_live, hr]; exact hx)
    have hstart := startReclaimErase_of_dead (hblocks ▸ hvictim) (hblock ▸ hstate) (hjob.trans herase) hworking
      (hwp.trans hwritable) hback hcount
    have hdone := hwork _ rfl (by rw [humount, hstart]; exact hengine.trans hmount) fun j hj => by
      rw [huarray, hstart] at hj
      cases hj
      rfl
    rw [hdone, huarray, hstart] at harray
    rw [hdone, hublocks, hstart] at hleft
    rw [hfield, hleft, harray, hblock, hblocks]
    exact ⟨Sparse.get_set_of_ne _ _ _ _ fun hc => by simpa [BlockEntry.unknown] using congrArg BlockEntry.state hc,
      rfl, hvictim, rfl⟩
  · have hstart : r.startReclaimErase = r := startReclaimErase_of_barred (.inr (hwp.trans hprotected))
    have hdone := hwork _ rfl (by rw [humount, hstart]; exact hengine.trans hmount) fun j hj => by
      rw [huarray, hstart, hjob, herase] at hj
      cases hj
    rw [hdone, huarray, hstart] at harray
    rw [hdone, hublocks, hstart] at hleft
    rw [hfield, hleft, harray]
    exact ⟨hblock, hjob.trans herase⟩

/-! ### The held header (R106) -/

/-- A mode in which an erase goes on, or a drain that returns to one. -/
def State.GoesOn (s : State) : Prop :=
  s.mgmt.mode.erasesGoOn = true ∧ ∀ m, s.drain.returnMode = some m → m = .run ∨ m = .readonly

theorem goesOn_reachDrained (hm : s.mgmt.mode = .drain)
    (h : ∀ m, s.drain.returnMode = some m → m = .run ∨ m = .readonly) :
    s.reachDrained.GoesOn := by
  cases hpending : s.drain.releasePending with
  | false =>
    rw [reachDrained_waits hpending]
    exact ⟨congrArg Mode.erasesGoOn hm, h⟩
  | true =>
    obtain ⟨hmode, hdrain⟩ := reachDrained_of_pending hpending
    refine ⟨?_, fun m hreturn => ?_⟩
    · rw [hmode]
      cases hreturn : s.drain.returnMode with
      | none => rfl
      | some m => rcases h m hreturn with rfl | rfl <;> rfl
    · rw [hdrain] at hreturn
      cases hreturn

theorem goesOn_roundBeforePort (h : s.GoesOn) : s.roundBeforePort.GoesOn := by
  obtain ⟨hgoes, hreturn⟩ := h
  by_cases hm : s.mgmt.mode = .drain
  · have hkept : s.degrade.settleGroups.mgmt.mode = .drain
        ∧ ∀ m, s.degrade.settleGroups.drain.returnMode = some m → m = .run ∨ m = .readonly := by
      rw [settleGroups_mgmt, settleGroups_drain]
      rcases degrade_of_drain hm with hd | hd <;> rw [hd]
      · exact ⟨hm, hreturn⟩
      · exact ⟨hm, fun m hc => .inr (Option.some.inj hc).symm⟩
    obtain ⟨hmode, hback⟩ := hkept
    unfold State.roundBeforePort
    generalize s.degrade.settleGroups = v at hmode hback
    have hended : ∀ t, Quiet v t → (if t.queue.entries = [] then t.reachDrained else t).GoesOn := fun t ht => by
      have htm := ht.mode.trans hmode
      have htr : ∀ m, t.drain.returnMode = some m → m = .run ∨ m = .readonly := by
        rw [ht.returnMode]
        exact hback
      split_ifs
      · exact goesOn_reachDrained htm htr
      · exact ⟨congrArg Mode.erasesGoOn htm, htr⟩
    by_cases hphase : v.drain.phase = .draining
    · rw [drainStep_of_draining hmode hphase rfl]
      refine hended _ ?_
      split_ifs
      · exact quiet_discardAll (.refl v)
      · exact quiet_discardStuck _ (.refl v)
    · rw [drainStep_of_phase hphase]
      exact ⟨congrArg Mode.erasesGoOn hmode, hback⟩
  · obtain ⟨_, hmode⟩ := roundBeforePort_mode_of_not_drain hm
    unfold State.GoesOn
    rw [roundBeforePort_drain_of_not_drain hm]
    refine ⟨?_, hreturn⟩
    rcases hmode with hsame | ⟨_, hread⟩
    · rw [hsame]
      exact hgoes
    · rw [hread]
      rfl

theorem goesOn_settleRound (h : s.GoesOn) : s.settleRound.GoesOn := by
  have hround := goesOn_roundBeforePort h
  unfold State.GoesOn at hround ⊢
  rw [settleRound_mode, settleRound_returnMode]
  exact hround

theorem skipRepairs_of_held (herase : s.array.erase = some j) (hpart : j.part = .headerHeld) :
    s.skipRepairs.array.erase = some j := by
  have hskip : s.skipErase j = s := by
    unfold State.skipErase
    rw [hpart]
  unfold State.skipRepairs
  split
  · exact herase
  · split_ifs
    · rw [herase]
      dsimp only
      rw [hskip, herase]
      dsimp only
      rw [if_pos hpart]
      exact herase
    · exact herase

theorem settle_of_held (herase : s.array.erase = some j) (hpart : j.part = .headerHeld) (hcut : s.wipeCut = false) :
    (s.array.wp = true → s.settle.array.erase = some j)
      ∧ (s.array.wp = false → s.array.op = none → s.array.timeouts < 3 → s.commandHold = false →
        (s.mgmt.mode = .mount ∨ s.mgmt.mode = .run ∨ s.mgmt.mode = .readonly ∨ s.mgmt.mode = .drain) →
        (∀ m, s.drain.returnMode = some m → m = .run ∨ m = .readonly) →
        s.settle.array.erase = some { j with part := .header, clock := 0, statusWait := s.array.uncertain }) := by
  obtain ⟨_, _, hjob, _, hheld, _⟩ := settleRounds_works s
  have hstanding := settleRounds_standing s
  obtain ⟨harray, _⟩ := settle_of_uncut hcut
  have hfree : s.array.op = none → s.settleRounds.array.op = none := settleRounds_op
  have hon : s.GoesOn → s.settleRounds.GoesOn := fun h => by
    unfold State.settleRounds
    exact goesOn_settleRound (goesOn_settleRound h)
  rw [harray, settleWork_eq]
  generalize s.settleRounds = r at hjob hheld hstanding hfree hon
  have hwp := wp_of_standing hstanding
  have huncertain := uncertain_of_standing hstanding
  have htimeouts := timeouts_of_standing hstanding
  rw [startReclaimErase_of_busy (hjob.trans herase)]
  obtain ⟨huarray, _, humgmt, _⟩ := updateRelease_works r
  have hback : s.commandHold = false → r.updateRelease.holdsBack = false := fun hhold => by
    have hcommand : r.updateRelease.commandHold = r.commandHold := rfl
    unfold State.holdsBack
    rw [hcommand, hheld, hhold]
    rfl
  generalize r.updateRelease = u at huarray humgmt hback
  have huerase : u.array.erase = some j := by rw [huarray, hjob, herase]
  have hunmoved : j.part.unmoved = true := by rw [hpart]; rfl
  refine ⟨fun hprotected => ?_, fun hwritable hop htime hhold hmode hreturn => ?_⟩
  · rw [releaseHeader_of_other fun _ _ => .inr (by rw [huarray, hwp, hprotected]),
      settleErase_of_unmoved fun k hk => by cases huerase.symm.trans hk; exact hunmoved]
    exact skipRepairs_of_held huerase hpart
  · have hgoes : u.mgmt.mode.erasesGoOn = true := by
      obtain ⟨hgoes, _⟩ := hon ⟨by rcases hmode with h | h | h | h <;> rw [h] <;> rfl, hreturn⟩
      rw [humgmt]
      exact hgoes
    have hlost : u.flashLost = false := by
      unfold State.flashLost
      rw [huarray, htimeouts]
      exact decide_eq_false (Nat.not_le.mpr htime)
    have hissued : u.releaseHeader
        = u.setErase (some { j with part := .header, clock := 0, statusWait := s.array.uncertain }) := by
      unfold State.releaseHeader
      rw [huerase]
      dsimp only
      rw [if_pos ⟨hpart, by rw [huarray, hwp, hwritable], by rw [huarray]; exact hfree hop, hgoes, hlost, hback hhold⟩,
        huarray, huncertain]
    have hlast : ∀ k, (u.setErase k).skipRepairs = u.setErase k := fun k =>
      skipRepairs_of_writable (show u.array.wp = false by rw [huarray, hwp, hwritable])
    rw [hissued, settleErase_of_unmoved fun k hk => by cases hk; rfl, hlast]
    rfl

/-! ### Mount's skipped writes (R150) -/

/-- What a skipped write leaves of its block (R150). -/
def Mount.skipResult (m : Mount) (a : Sparse BlockEntry) : Repair → Sparse BlockEntry
  | .virginHeader b => Sparse.set BlockEntry.unknown a b (bareEntry .full 0)
  | .eraseBlock b => Sparse.set BlockEntry.unknown a b (bareEntry .full (m.countBefore b))
  | .tailMark _ | .prepareBlock0 | .repairBlock0 => a

theorem foldl_skip (ws : List Repair) (m : Mount) (a : Sparse BlockEntry) :
    ws.foldl Mount.skip { m with results := a } = { m with results := ws.foldl m.skipResult a } := by
  induction ws generalizing a with
  | nil => rfl
  | cons w ws ih =>
    have hone : ({ m with results := a } : Mount).skip w = { m with results := m.skipResult a w } := by cases w <;> rfl
    rw [List.foldl_cons, hone]
    exact ih _

theorem skipAll_eq (m : Mount) :
    m.skipAll = { m with repairs := [], results := m.repairs.foldl m.skipResult m.results } := by
  show ({ m.repairs.foldl Mount.skip { m with results := m.results } with repairs := [] } : Mount) = _
  rw [foldl_skip]

/-- What mount does under WP# once the erase in hand has been dropped as far as it can be (R150). -/
def State.skipRest (t : State) : State :=
  match t.array.erase with
  | none => t.withMount Mount.skipAll
  | some k => if k.part = .headerHeld then t.withMount Mount.skipAll else t

theorem skipRest_of_none (h : s.array.erase = none) : s.skipRest = s.withMount Mount.skipAll := by
  unfold State.skipRest
  rw [h]

theorem skipRest_of_held (h : s.array.erase = some j) (hpart : j.part = .headerHeld) :
    s.skipRest = s.withMount Mount.skipAll := by
  unfold State.skipRest
  rw [h]
  exact if_pos hpart

theorem skipRepairs_of_erase {m : Mount} (hm : s.mount = some m)
    (h : m.step = .repairs ∧ s.array.wp = true ∧ s.drain.pfw = false ∧ s.array.op = none)
    (herase : s.array.erase = some j) :
    s.skipRepairs = (s.skipErase j).skipRest := by
  unfold State.skipRepairs
  rw [hm]
  dsimp only
  rw [if_pos h, herase]
  rfl

theorem skipRepairs_of_free {m : Mount} (hm : s.mount = some m)
    (h : m.step = .repairs ∧ s.array.wp = true ∧ s.drain.pfw = false ∧ s.array.op = none)
    (herase : s.array.erase = none) :
    s.skipRepairs = s.withMount Mount.skipAll := by
  unfold State.skipRepairs
  rw [hm]
  dsimp only
  rw [if_pos h, herase]

/-- What mount under WP# leaves of itself before it skips the writes that remain: the erase in hand, dropped (R150). -/
theorem skipRepairs_spec {m k : Mount} (hm : s.mount = some m) (hstep : m.step = .repairs) (hwp : s.array.wp = true)
    (hpfw : s.drain.pfw = false) (hop : s.array.op = none)
    (h : s.array.erase = none ∧ k = m ∨ ∃ j, s.array.erase = some j ∧ (j.part = .headerHeld ∧ k = m
      ∨ (j.part = .waiting ∧ j.block = 0 ∨ j.part = .firstPart ∨ j.part = .record) ∧ k = m
      ∨ j.part = .waiting ∧ j.block ≠ 0 ∧ k = m.settle j.block (bareEntry .full (m.countBefore j.block)))) :
    s.skipRepairs.mount = some k.skipAll
      ∧ s.skipRepairs.array.erase = s.array.erase.filter fun j => decide (j.part = .headerHeld) := by
  have hafter : ∀ t : State, t.mount = some k → (t.withMount Mount.skipAll).mount = some k.skipAll := fun t ht =>
    congrArg (Option.map Mount.skipAll) ht
  have hskips : m.step = .repairs ∧ s.array.wp = true ∧ s.drain.pfw = false ∧ s.array.op = none :=
    ⟨hstep, hwp, hpfw, hop⟩
  rcases h with ⟨herase, rfl⟩ | ⟨j, herase, h⟩
  · rw [skipRepairs_of_free hm hskips herase, herase]
    exact ⟨hafter s hm, herase⟩
  · have hdropped : ∀ t : State, s.skipErase j = t → t.array.erase = none → t.mount = some k → j.part ≠ .headerHeld →
        (s.skipErase j).skipRest.mount = some k.skipAll ∧ (s.skipErase j).skipRest.array.erase
          = Option.filter (fun j : EraseJob => decide (j.part = .headerHeld)) (some j) := by
      intro t ht hgone hmount hpart
      rw [ht, skipRest_of_none hgone, Option.filter_some_neg (by simp [hpart])]
      exact ⟨hafter t hmount, hgone⟩
    rw [skipRepairs_of_erase hm hskips herase, herase]
    rcases h with ⟨hpart, rfl⟩ | ⟨hpart, rfl⟩ | ⟨hpart, hblock, rfl⟩
    · have hskip : s.skipErase j = s := by
        unfold State.skipErase
        rw [hpart]
      rw [hskip, skipRest_of_held herase hpart, Option.filter_some_pos (by simp [hpart])]
      exact ⟨hafter s hm, herase⟩
    · refine hdropped (s.setErase none) ?_ rfl hm ?_
      · unfold State.skipErase
        rcases hpart with ⟨hpart, hblock⟩ | hpart | hpart
        · rw [hpart]
          exact if_pos hblock
        · rw [hpart]
        · rw [hpart]
      · rcases hpart with ⟨hpart, _⟩ | hpart | hpart <;> rw [hpart] <;> decide
    · refine hdropped ((s.setErase none).withMount
        fun m => m.settle j.block (bareEntry .full (m.countBefore j.block))) ?_ rfl ?_ (by rw [hpart]; decide)
      · unfold State.skipErase
        rw [hpart]
        exact if_neg hblock
      · exact congrArg (Option.map _) hm

theorem settle_of_skipped {m k : Mount} (hm : s.mount = some m) (hstep : m.step = .repairs) (hwp : s.array.wp = true)
    (hpfw : s.drain.pfw = false) (hop : s.array.op = none) (hcut : s.wipeCut = false)
    (h : s.array.erase = none ∧ k = m ∨ ∃ j, s.array.erase = some j ∧ (j.part = .headerHeld ∧ k = m
      ∨ (j.part = .waiting ∧ j.block = 0 ∨ j.part = .firstPart ∨ j.part = .record) ∧ k = m
      ∨ j.part = .waiting ∧ j.block ≠ 0 ∧ k = m.settle j.block (bareEntry .full (m.countBefore j.block)))) :
    s.settle.mount = some k.skipAll
      ∧ s.settle.array.erase = s.array.erase.filter fun j => decide (j.part = .headerHeld) := by
  obtain ⟨_, hengine, hjob, _⟩ := settleRounds_works s
  have hstanding := settleRounds_standing s
  have hrop := settleRounds_op hop
  obtain ⟨harray, hmount, _⟩ := settle_of_uncut hcut
  rw [harray, hmount, settleWork_eq]
  generalize s.settleRounds = r at hengine hjob hstanding hrop
  have hrwp := (wp_of_standing hstanding).trans hwp
  obtain ⟨huarray, humount, _⟩ := updateRelease_works r
  have hudrain : r.updateRelease.drain = r.drain := updateRelease_drain r
  have hunmoved : ∀ j, s.array.erase = some j → j.part.unmoved = true := fun j hj => by
    rcases h with ⟨hnone, _⟩ | ⟨j', hj', h⟩
    · cases hj.symm.trans hnone
    · cases hj.symm.trans hj'
      rcases h with ⟨hpart, _⟩ | ⟨⟨hpart, _⟩ | hpart | hpart, _⟩ | ⟨hpart, _⟩ <;> rw [hpart] <;> rfl
  rw [startReclaimErase_of_barred (.inr hrwp)]
  generalize r.updateRelease = u at huarray humount hudrain
  have huerase : u.array.erase = s.array.erase := by rw [huarray, hjob]
  have huwp : u.array.wp = true := by rw [huarray, hrwp]
  rw [releaseHeader_of_other fun _ _ => .inr huwp, settleErase_of_unmoved fun j hj => hunmoved j (huerase ▸ hj),
    ← huerase]
  refine skipRepairs_spec (by rw [humount, hengine, hm]) hstep huwp ?_ (by rw [huarray, hrop]) (by rw [huerase]; exact h)
  rw [hudrain]
  exact (pfw_of_standing hstanding).trans hpfw

/-! ### The WIPE that is cut (R187) -/

theorem settleSpace_command (s : State) : s.settleSpace.mgmt.command = s.mgmt.command
    ∧ s.settleSpace.mgmt.data = s.mgmt.data := by
  unfold State.settleSpace State.edge
  dsimp only
  split_ifs <;> exact ⟨rfl, rfl⟩

theorem skipRepairs_of_no_erase (h : s.array.erase = none) : s.skipRepairs.array = s.array := by
  unfold State.skipRepairs
  split
  · rfl
  · split_ifs
    · rw [h]
      rfl
    · rfl

theorem settleCut_completes {step : WipeStep} (hcommand : s.mgmt.command = .active (.wipe step true))
    (hop : s.array.op = none) (herase : s.array.erase = none) : s.settleCut = s.complete .cut [] := by
  have hbusy : s.eraseBusy = false := by
    unfold State.eraseBusy
    rw [herase]
  unfold State.settleCut
  rw [hcommand]
  dsimp only
  rw [if_pos ⟨hop, hbusy⟩, herase]

theorem complete_cut (s : State) : (s.complete .cut []).mgmt.command = .zero
    ∧ (s.complete .cut []).mgmt.data = (8 :: s.mgmt.data.drop 1).take 64 := ⟨rfl, rfl⟩

theorem settle_of_cut {step : WipeStep} (hcommand : s.mgmt.command = .active (.wipe step true)) (hop : s.array.op = none)
    (herase : s.array.erase = none) (hm : s.mgmt.mode = .service) :
    s.settle.mgmt.command = .zero ∧ s.settle.mgmt.data = (8 :: s.mgmt.data.drop 1).take 64
      ∧ s.settle.eventSet .cmdDone = true := by
  have hgrows := grows_settleWork s
  have hmode : s.settleRounds.mgmt.mode = .service := by
    have hround : ∀ t : State, t.mgmt.mode = .service → t.settleRound.mgmt.mode = .service := fun t ht => by
      obtain ⟨_, hsame | ⟨hrun, _⟩⟩ := roundBeforePort_mode_of_not_drain (s := t) (by rw [ht]; decide)
      · rw [settleRound_mode, hsame, ht]
      · cases ht.symm.trans hrun
    unfold State.settleRounds
    exact hround _ (hround s hm)
  obtain ⟨_, _, hjob, _⟩ := settleRounds_works s
  have hrop := settleRounds_op hop
  have hwork : s.settleWork.array.op = none ∧ s.settleWork.array.erase = none := by
    rw [settleWork_eq]
    generalize s.settleRounds = r at hmode hjob hrop
    rw [startReclaimErase_of_barred (.inl (by rw [hmode]; rfl))]
    obtain ⟨huarray, _⟩ := updateRelease_works r
    generalize r.updateRelease = u at huarray
    have huerase : u.array.erase = none := by rw [huarray, hjob, herase]
    rw [releaseHeader_of_other fun j hj => (by cases huerase.symm.trans hj),
      settleErase_of_unmoved fun j hj => by (cases huerase.symm.trans hj), skipRepairs_of_no_erase huerase]
    exact ⟨by rw [huarray, hrop], huerase⟩
  rw [settle_eq_settleWork]
  generalize s.settleWork = v at hwork hgrows
  obtain ⟨hwop, hwerase⟩ := hwork
  have hended := settleCut_completes (hgrows.wipe step true hcommand) hwop hwerase
  obtain ⟨hover, hdata⟩ := settleSpace_command v.settleCut
  obtain ⟨hzero, hcode⟩ := complete_cut v
  rw [settleSpace_eventSet, hover, hdata, hended, hzero, hcode, hgrows.data]
  exact ⟨rfl, rfl, .inl (complete_cmdDone _ _ _)⟩

end

end Sys2Proof.Machine
end


section
/-! O9: what follows an event. -/

namespace Sys2Proof.Machine

/-- Settles O9: each reaction by the lemma that says what it leaves in the end. -/
theorem reactionsFollowTheirRules : Obligations.ReactionsFollowTheirRules := by
  unfold Obligations.ReactionsFollowTheirRules
  refine ⟨standing_settle, settle_of_atRest, ?degraded, ?drained, ?spaceLow, ?refused, ?live, ?offered, ?release, ?victim,
    ?header, ?skipped, ?cut⟩
  case degraded =>
    intro s t ht hd
    subst t
    exact settle_of_degraded hd
  case drained =>
    intro s t ht hm hphase hempty hnone
    subst t
    exact settle_of_drained hm hphase hempty hnone
  case spaceLow =>
    intro s t ht
    subst t
    refine ⟨?_, settle_spaceLow_event s⟩
    rw [settle_spaceLow, spaceLowNow_iff, writeStalled_iff, headStalled_iff]
  case refused =>
    intro s t r c ht hr hwrite hphase hhold hcause
    subst t
    exact settle_of_handOver hr hwrite hphase hhold hcause
  case live =>
    intro s t ht hm i w g x hi
    subst t
    exact settle_committed_live hm hi
  case offered =>
    intro s t i w g ht hmode hd hr hwindows hregister hi hw hawaiting hgroup hlowest hfree
    subst t
    exact settle_offers hmode hd hr hwindows hregister hi hw hawaiting hgroup hlowest hfree
  case release =>
    intro s t p ht hp
    obtain ⟨hnone, hsome, hkept, hstands, hjob⟩ := settle_releases_spec ht hp
    exact ⟨hnone, hsome, hkept, hstands, hjob.trans ((nextReleaseJob_eq _ _).trans (by
      cases s.blocks.release <;> cases t.windows.release <;> rfl))⟩
  case victim =>
    intro s t b ht hvictim hstate herase hmount hcut hhold hmode hdead
    subst t
    exact settle_of_dead_victim hvictim hstate herase hmount hcut hhold hmode hdead
  case header =>
    intro s t j ht herase hpart hcut
    subst t
    exact settle_of_held herase hpart hcut
  case skipped =>
    intro s t m k ht hm hstep hwp hpfw hop hcut h
    subst t
    obtain ⟨hmount, herase⟩ := settle_of_skipped hm hstep hwp hpfw hop hcut h
    refine ⟨hmount.trans (congrArg some ((skipAll_eq k).trans ?_)), herase⟩
    have hkept : k.repairs = m.repairs ∧ k.skipResult = m.skipResult := by
      rcases h with ⟨_, rfl⟩ | ⟨j, _, ⟨_, rfl⟩ | ⟨_, rfl⟩ | ⟨_, _, rfl⟩⟩ <;> exact ⟨rfl, rfl⟩
    obtain ⟨hrepairs, hresult⟩ := hkept
    rw [hrepairs, hresult]
    have hsame : ∀ f, m.skipResult = f →
        ({ k with repairs := [], results := m.repairs.foldl m.skipResult k.results } : Mount)
        = { k with repairs := [], results := m.repairs.foldl f k.results } := fun f hf => by rw [hf]
    exact hsame _ (funext fun a => funext fun w => by cases w <;> rfl)
  case cut =>
    intro s t step ht hcommand hop herase hm
    subst t
    exact settle_of_cut hcommand hop herase hm

end Sys2Proof.Machine
end
